-- ==== Sys2Proof/Word.lean ====
section
/-! DEFINITION. The word types of the K16 and the finite map every sparse collection of the model uses. -/
namespace Sys2Proof

/-- A 64-bit register value (R204). -/
abbrev Word := BitVec 64
/-- A 32-bit element of a vector register or an accumulator (R276, R297). -/
abbrev Elem := BitVec 32
/-- A byte of memory (R6). -/
abbrev Byte := BitVec 8
/-- A finite map from numbers: keys strictly rising. -/
abbrev Assoc (α : Type) := List (Nat × α)

end Sys2Proof
end

