-- ==== Sys2Proof/Syntax.lean ====
section
/-! DEFINITION. The instructions and events of the K16: one constructor per row of spec/opcode_table.json.
Register, queue, counter and window operands are numbers (bounded by WellFormed); immediates are integers. -/
namespace Sys2Proof

/-- The six engines of a context (Table 1.1). -/
inductive Engine where
  | c | l | s | v | m | x
  deriving DecidableEq, Repr

/-- The scopes of Table 6.6: context, tile, cluster, die, package, system. -/
inductive Scope where
  | c | t | k | d | p | s
  deriving DecidableEq, Repr

/-- The branch conditions of `BC` (Table 6.6). -/
inductive Cond where
  | eqz | nez | ltz | gez | gtz | lez
  deriving DecidableEq, Repr

/-- The type codes of Table 6.6. -/
inductive Ty where
  | f32 | bf16 | f16 | e4m3 | e5m2 | e2m3 | e3m2 | e2m1 | i8 | i16 | i32 | i64 | b8 | b16 | b32 | b64 | i16x2 | mx
  deriving DecidableEq, Repr

/-- The element formats of a block (Table 2.3, efmt codes 0 to 7). -/
inductive EFmt where
  | e4m3 | e5m2 | e2m3 | e3m2 | e2m1 | i8 | i4 | i2
  deriving DecidableEq, Repr

/-- The matrix type codes of Table 9.6. -/
inductive MTy where
  | bf16 | f16 | b16 | mx | e4m3 | e5m2 | e2m3 | e3m2 | e2m1 | i8
  deriving DecidableEq, Repr

/-- The rounding codes of Table 2.5. -/
inductive Rnd where
  | rn | rz | rs | sat
  deriving DecidableEq, Repr

/-- The compare conditions of Table 9.3. -/
inductive Cmp where
  | eq | ne | lt | le | gt | ge | un
  deriving DecidableEq, Repr

/-- The operation of a reduction or a scan (R291), and of `STRW` (R260). -/
inductive RedOp where
  | add | min | max
  deriving DecidableEq, Repr

/-- The optimiser function of `UPD` (R261). -/
inductive UpdFn where
  | sgd | mom | adam
  deriving DecidableEq, Repr

/-- The statistics modifier of the long `STQ` (R259). -/
inductive StqStat where
  | none | part | whole
  deriving DecidableEq, Repr

/-- A vector operand: a register, or a queue in the long form (R184, R279). -/
inductive VLoc where
  | reg (n : Nat)
  | queue (n : Nat)
  deriving DecidableEq, Repr

/-- The order word of an atomic (Table 6.4): eight-byte size, acquire, release and scope. -/
structure AtomOrd where
  wide : Bool
  acq : Bool
  rel : Bool
  scope : Scope
  deriving DecidableEq, Repr

/-- The count of a repeat: an immediate, or an access register (R190). -/
inductive RepCount where
  | imm (n : Nat)
  | reg (a : Nat)
  deriving DecidableEq, Repr

/-- A repeat: which operands step, and the count (R190, R250). -/
structure Rep where
  sd : Bool
  sa : Bool
  sb : Bool
  sg : Bool
  count : RepCount
  deriving DecidableEq, Repr

/-- The register fields of a copy's extension word (Table 8.6), and its counter. -/
structure CopyExt where
  len : Nat
  aux : Nat
  ring : Nat
  bb : Nat
  cc : Option Nat
  deriving DecidableEq, Repr

/-- The instructions and events, one constructor for each row of spec/opcode_table.json: those with operands first,
then those without. What an event concerns (a slot, a port, a host command's data) is its input, `State.inp`. -/
inductive Instr where
  /-- ADD (R208). -/
  | add (d a b : Nat)
  /-- SUB (R208). -/
  | sub (d a b : Nat)
  /-- AND (R208). -/
  | and (d a b : Nat)
  /-- OR (R208). -/
  | or (d a b : Nat)
  /-- XOR (R208). -/
  | xor (d a b : Nat)
  /-- SHL (R208). -/
  | shl (d a b : Nat)
  /-- SHR (R208). -/
  | shr (d a b : Nat)
  /-- SRA (R208). -/
  | sra (d a b : Nat)
  /-- MIN (R208). -/
  | min (d a b : Nat)
  /-- MAX (R208). -/
  | max (d a b : Nat)
  /-- MINN (R208). -/
  | minn (d a b : Nat)
  /-- MAXN (R208). -/
  | maxn (d a b : Nat)
  /-- SLT (R208). -/
  | slt (d a b : Nat)
  /-- SLTN (R208). -/
  | sltn (d a b : Nat)
  /-- SEQ (R208). -/
  | seq (d a b : Nat)
  /-- MUL (R208). -/
  | mul (d a b : Nat)
  /-- MULH (R208). -/
  | mulh (d a b : Nat)
  /-- MULHN (R208). -/
  | mulhn (d a b : Nat)
  /-- DIV (R210). -/
  | div (d a b : Nat)
  /-- DIVN (R210). -/
  | divn (d a b : Nat)
  /-- REM (R210). -/
  | rem (d a b : Nat)
  /-- REMN (R210). -/
  | remn (d a b : Nat)
  /-- CLZ (R208). -/
  | clz (d a : Nat)
  /-- POPC (R208). -/
  | popc (d a : Nat)
  /-- MOV (R208). -/
  | mov (d a : Nat)
  /-- SEL (R208). -/
  | sel (d c a b : Nat)
  /-- ADDI (R209). -/
  | addi (d a : Nat) (imm : Int)
  /-- ADDI_LONG (R209). -/
  | addiLong (d a : Nat) (imm : Int)
  /-- ANDI (R209). -/
  | andi (d a : Nat) (imm : Int)
  /-- ANDI_LONG (R209). -/
  | andiLong (d a : Nat) (imm : Int)
  /-- ORI (R209). -/
  | ori (d a : Nat) (imm : Int)
  /-- ORI_LONG (R209). -/
  | oriLong (d a : Nat) (imm : Int)
  /-- XORI (R209). -/
  | xori (d a : Nat) (imm : Int)
  /-- XORI_LONG (R209). -/
  | xoriLong (d a : Nat) (imm : Int)
  /-- SHLI (R209). -/
  | shli (d a n : Nat)
  /-- SHRI (R209). -/
  | shri (d a n : Nat)
  /-- SRAI (R209). -/
  | srai (d a n : Nat)
  /-- SLTI (R209). -/
  | slti (d a : Nat) (imm : Int)
  /-- SLTI_LONG (R209). -/
  | sltiLong (d a : Nat) (imm : Int)
  /-- MOVI (R209). -/
  | movi (d : Nat) (imm : Int)
  /-- MOVI_LONG (R209). -/
  | moviLong (d : Nat) (imm : Int)
  /-- LD (R211). -/
  | ld (d a : Nat) (off : Int) (ty : Ty) (acq : Option Scope)
  /-- ST (R212). -/
  | st (d a : Nat) (off : Int) (ty : Ty) (rel : Option Scope)
  /-- AMO_ADD (R214). -/
  | amoAdd (d a b : Nat) (o : AtomOrd)
  /-- AMO_AND (R214). -/
  | amoAnd (d a b : Nat) (o : AtomOrd)
  /-- AMO_OR (R214). -/
  | amoOr (d a b : Nat) (o : AtomOrd)
  /-- AMO_XOR (R214). -/
  | amoXor (d a b : Nat) (o : AtomOrd)
  /-- AMO_MIN (R214). -/
  | amoMin (d a b : Nat) (o : AtomOrd)
  /-- AMO_MAX (R214). -/
  | amoMax (d a b : Nat) (o : AtomOrd)
  /-- AMO_MINN (R214). -/
  | amoMinn (d a b : Nat) (o : AtomOrd)
  /-- AMO_MAXN (R214). -/
  | amoMaxn (d a b : Nat) (o : AtomOrd)
  /-- AMO_SWAP (R214). -/
  | amoSwap (d a b : Nat) (o : AtomOrd)
  /-- CAS (R215). -/
  | cas (d a b c : Nat) (o : AtomOrd)
  /-- BC (R217). -/
  | bc (cond : Cond) (a : Nat) (off : Int)
  /-- JMP (R217). -/
  | jmp (off : Int)
  /-- CALL (R217). -/
  | call (a : Nat) (off : Int)
  /-- LOOP (R217). -/
  | loop (a : Nat) (off : Int)
  /-- JMPR (R218). -/
  | jmpr (a : Nat)
  /-- CALLR (R218). -/
  | callr (d a : Nat)
  /-- RET (R218). -/
  | ret (a : Nat)
  /-- SYSC (R220). -/
  | sysc (n : Nat)
  /-- BRK (R220). -/
  | brk (n : Nat)
  /-- ENTER (R224). -/
  | enter (n : Nat)
  /-- LEAVE (R224). -/
  | leave (n : Nat)
  /-- SPUSH (R223). -/
  | spush (a : Nat)
  /-- SPOP (R223). -/
  | spop (d : Nat)
  /-- TASK (R225). -/
  | task (d a : Nat)
  /-- GJOIN (R230). -/
  | gjoin (a : Nat) (chart : Bool)
  /-- GLEAVE (R231). -/
  | gleave (a : Nat)
  /-- GBAR (R232). -/
  | gbar (a : Nat)
  /-- SPAWN (R228). -/
  | spawn (d a b : Nat)
  /-- TOKP (R233). -/
  | tokp (e f : Engine) (ch : Nat)
  /-- TOKW (R233). -/
  | tokw (e f : Engine) (ch : Nat)
  /-- TOKEN_POST (R28). -/
  | tokenPost (e f : Engine) (ch : Nat)
  /-- TOKEN_TAKE (R29). -/
  | tokenTake (e f : Engine) (ch : Nat)
  /-- CCADD (R234). -/
  | ccadd (n : Nat) (amount : Int)
  /-- CCWAIT (R31). -/
  | ccwait (n k : Nat)
  /-- FENCE (R133). -/
  | fence (scope : Scope)
  /-- GEAR (R236). -/
  | gear (n : Nat)
  /-- WAITT (R238). -/
  | waitt (a : Nat)
  /-- TIME (R239). -/
  | time (d : Nat) (chart : Bool)
  /-- GOVSTEP (R240). -/
  | govstep (d a b : Nat)
  /-- GOVRD (R241). -/
  | govrd (d a : Nat)
  /-- PUTA (R242). -/
  | puta (n a : Nat)
  /-- GETA (R243). -/
  | geta (d n : Nat)
  /-- CSRR (R246). -/
  | csrr (d num : Nat)
  /-- CSRW (R246). -/
  | csrw (d a num : Nat)
  /-- CSRS (R246). -/
  | csrs (d a num : Nat)
  /-- AADD (R249). -/
  | aadd (d a b : Nat)
  /-- AMOVG (R249). -/
  | amovg (d a : Nat)
  /-- AADDI (R249). -/
  | aaddi (d a : Nat) (imm : Int)
  /-- ASHLI (R249). -/
  | ashli (d a n : Nat)
  /-- LDQ (R252). -/
  | ldq (q a : Nat) (pi : Bool)
  /-- LDQS (R252). -/
  | ldqs (q a b lg : Nat) (pi : Bool)
  /-- LDQG (R252). -/
  | ldqg (q a b lg : Nat) (pi : Bool)
  /-- STRM (R254). -/
  | strm (q a s : Nat)
  /-- STRMC (R254). -/
  | strmc (q a s : Nat)
  /-- STRMX_WAIT (R256). -/
  | strmxWait (s : Nat)
  /-- STRMX_STOP (R256). -/
  | strmxStop (s : Nat)
  /-- STRMX_REM (R256). -/
  | strmxRem (d s : Nat)
  /-- REP_L (R250). -/
  | repL (r : Rep)
  /-- SADD (R249). -/
  | sadd (d a b : Nat)
  /-- STQ (R258). -/
  | stq (a q g : Nat) (pi : Bool)
  /-- STQ_LONG (R259). -/
  | stqLong (a q g : Nat) (pi : Bool) (cc : Option Nat) (stat : StqStat) (first : Bool) (layer : Nat)
  /-- STQS (R258). -/
  | stqs (a b q g : Nat) (pi : Bool) (lg : Nat) (cc : Option Nat)
  /-- STQX (R258). -/
  | stqx (a x q g lg : Nat) (cc : Option Nat)
  /-- STRW (R260). -/
  | strw (a q g : Nat) (pi : Bool) (op : RedOp) (ty : Ty) (cc : Option Nat)
  /-- UPD (R261). -/
  | upd (a b q g : Nat) (fn : UpdFn) (pi : Bool) (rnd : Rnd) (layer : Nat) (cc : Option Nat)
  /-- WSTEP (R262). -/
  | wstep (w : Nat)
  /-- REP_S (R250). -/
  | repS (r : Rep)
  /-- VADD (R282). -/
  | vadd (d a b : VLoc) (g : Nat)
  /-- VSUB (R282). -/
  | vsub (d a b : VLoc) (g : Nat)
  /-- VMUL (R282). -/
  | vmul (d a b : VLoc) (g : Nat)
  /-- VFMA (R282). -/
  | vfma (d a b : VLoc) (g : Nat)
  /-- VFMS (R282). -/
  | vfms (d a b : VLoc) (g : Nat)
  /-- VNMA (R282). -/
  | vnma (d a b : VLoc) (g : Nat)
  /-- VMIN (R282). -/
  | vmin (d a b : VLoc) (g : Nat)
  /-- VMAX (R282). -/
  | vmax (d a b : VLoc) (g : Nat)
  /-- VABS (R282). -/
  | vabs (d a : VLoc) (g : Nat)
  /-- VNEG (R282). -/
  | vneg (d a : VLoc) (g : Nat)
  /-- VCMP (R284). -/
  | vcmp (cond : Cmp) (p : Nat) (a b : VLoc) (g : Nat)
  /-- VSEL (R282). -/
  | vsel (d a b : VLoc) (s : Nat)
  /-- VIADD (R283). -/
  | viadd (ty : Ty) (d a b : VLoc) (g : Nat)
  /-- VISUB (R283). -/
  | visub (ty : Ty) (d a b : VLoc) (g : Nat)
  /-- VIMUL (R283). -/
  | vimul (ty : Ty) (d a b : VLoc) (g : Nat)
  /-- VIMAD (R283). -/
  | vimad (ty : Ty) (d a b : VLoc) (g : Nat)
  /-- VAND (R283). -/
  | vand (ty : Ty) (d a b : VLoc) (g : Nat)
  /-- VOR (R283). -/
  | vor (ty : Ty) (d a b : VLoc) (g : Nat)
  /-- VXOR (R283). -/
  | vxor (ty : Ty) (d a b : VLoc) (g : Nat)
  /-- VNOT (R283). -/
  | vnot (ty : Ty) (d a : VLoc) (g : Nat)
  /-- VSHL (R283). -/
  | vshl (ty : Ty) (d a b : VLoc) (g : Nat)
  /-- VSHR (R283). -/
  | vshr (ty : Ty) (d a b : VLoc) (g : Nat)
  /-- VSRA (R283). -/
  | vsra (ty : Ty) (d a b : VLoc) (g : Nat)
  /-- VIMIN (R283). -/
  | vimin (ty : Ty) (d a b : VLoc) (g : Nat)
  /-- VIMAX (R283). -/
  | vimax (ty : Ty) (d a b : VLoc) (g : Nat)
  /-- VICMP (R284). -/
  | vicmp (ty : Ty) (cond : Cmp) (p : Nat) (a b : VLoc) (g : Nat)
  /-- VSADD (R283). -/
  | vsadd (ty : Ty) (d a b : VLoc) (g : Nat)
  /-- VSSUB (R283). -/
  | vssub (ty : Ty) (d a b : VLoc) (g : Nat)
  /-- VACS (R285). -/
  | vacs (d a b : VLoc) (p : Nat)
  /-- VCVT (R286). -/
  | vcvt (dst src : Ty) (mode : Rnd) (d a : VLoc) (g : Nat)
  /-- VQNT (R287). -/
  | vqnt (fmt : EFmt) (bs : Nat) (mode : Rnd) (role : Option Nat) (layer : Nat) (d a : VLoc)
  /-- VDQNT (R289). -/
  | vdqnt (d a : VLoc)
  /-- VDIV (R290). -/
  | vdiv (d a b : VLoc) (g : Nat)
  /-- VSQRT (R290). -/
  | vsqrt (d a : VLoc) (g : Nat)
  /-- VRSQ (R290). -/
  | vrsq (d a : VLoc) (g : Nat)
  /-- VRCP (R290). -/
  | vrcp (d a : VLoc) (g : Nat)
  /-- VEXP2 (R290). -/
  | vexp2 (d a : VLoc) (g : Nat)
  /-- VLOG2 (R290). -/
  | vlog2 (d a : VLoc) (g : Nat)
  /-- VROTR (R291). -/
  | vrotr (d a : VLoc) (k g : Nat)
  /-- VROTC (R291). -/
  | vrotc (d a : VLoc) (k g : Nat)
  /-- VBCR (R291). -/
  | vbcr (d a : VLoc) (k g : Nat)
  /-- VBCC (R291). -/
  | vbcc (d a : VLoc) (k g : Nat)
  /-- VREDR (R291). -/
  | vredr (op : RedOp) (ty : Ty) (d a : VLoc) (g : Nat)
  /-- VREDC (R291). -/
  | vredc (op : RedOp) (ty : Ty) (d a : VLoc) (g : Nat)
  /-- VSCNR (R291). -/
  | vscnr (op : RedOp) (ty : Ty) (d a : VLoc) (g : Nat)
  /-- VMOV (R292). -/
  | vmov (d a : VLoc) (g : Nat)
  /-- VXFER (R292). -/
  | vxfer (d a : VLoc) (g : Nat)
  /-- VMOVI (R292). -/
  | vmovi (d : Nat) (imm : Int)
  /-- VIOTA (R292). -/
  | viota (d : VLoc) (g : Nat)
  /-- PSET_NONE (R293). -/
  | psetNone (p : Nat)
  /-- PSET_ALL (R293). -/
  | psetAll (p : Nat)
  /-- PSET_ROW (R293). -/
  | psetRow (p k : Nat)
  /-- PSET_COL (R293). -/
  | psetCol (p k : Nat)
  /-- PAND (R293). -/
  | pand (p a b : Nat) (n : Bool)
  /-- POR (R293). -/
  | por (p a b : Nat) (n : Bool)
  /-- PXOR (R293). -/
  | pxor (p a b : Nat) (n : Bool)
  /-- PNOT (R293). -/
  | pnot (p a : Nat)
  /-- PCNT_ROW (R293). -/
  | pcntRow (d p : Nat)
  /-- PCNT_ALL (R293). -/
  | pcntAll (d p : Nat)
  /-- PFST_ROW (R293). -/
  | pfstRow (d p : Nat)
  /-- PFST_ALL (R293). -/
  | pfstAll (d p : Nat)
  /-- VPART (R294). -/
  | vpart (d : VLoc) (p a g : Nat)
  /-- VGATH (R295). -/
  | vgath (d a b : VLoc) (g : Nat)
  /-- VSCAT (R295). -/
  | vscat (d a b : VLoc) (g : Nat)
  /-- VPACK (R296). -/
  | vpack (d a : VLoc) (w : Nat)
  /-- VUNPK (R296). -/
  | vunpk (d a : VLoc) (w : Nat) (sx : Bool)
  /-- REP_V (R280). -/
  | repV (r : Rep)
  /-- MMA (R303). -/
  | mma (n : Nat) (ta tb : MTy) (qa qb kq req pat : Nat) (cc : Option Nat)
  /-- MMAV (R304). -/
  | mmav (n : Nat) (ta tb : MTy) (a b q kq req : Nat) (cc : Option Nat)
  /-- MZERO (R307). -/
  | mzero (n k : Nat)
  /-- MRD (R307). -/
  | mrd (d n q : Nat)
  /-- MRD_QUEUE (R307). -/
  | mrdQueue (q n t : Nat)
  /-- MWR (R307). -/
  | mwr (n s q : Nat)
  /-- MPERM (R308). -/
  | mperm (accd accs q : Nat) (rows : Bool)
  /-- MSPAN (R306). -/
  | mspan (cap : Nat)
  /-- MQSTAT (R309). -/
  | mqstat (setting n k layer role : Nat)
  /-- CPY (R265). -/
  | cpy (dstVm srcVm : Bool) (a b : Nat) (x : CopyExt)
  /-- CPYL_LD (R265). -/
  | cpylLd (vm : Bool) (a : Nat) (x : CopyExt)
  /-- CPYL_ST (R265). -/
  | cpylSt (vm : Bool) (a : Nat) (x : CopyExt)
  /-- CPYN (R265). -/
  | cpyn (srcVm : Bool) (a b : Nat) (x : CopyExt)
  /-- CPYR (R265). -/
  | cpyr (a b : Nat) (x : CopyExt)
  /-- CPYR_IP (R265). -/
  | cpyrIp (b : Nat) (x : CopyExt)
  /-- PREF (R272). -/
  | pref (a b : Nat)
  /-- FLUSHH (R145). -/
  | flushh (a b : Nat) (cc : Option Nat)
  /-- SEND (R271). -/
  | send (a b t h : Nat) (urgent : Bool) (cc : Option Nat)
  /-- RINGI (R269). -/
  | ringi (a b : Nat)
  /-- RINGW (R269). -/
  | ringw (a count : Nat)
  /-- RINGR (R269). -/
  | ringr (a b : Nat)
  /-- BBSET (R270). -/
  | bbset (a b : Nat)
  /-- BBWAIT (R270). -/
  | bbwait (a : Nat)
  /-- TLBPRE (R272). -/
  | tlbpre (a b : Nat) (cc : Option Nat)
  /-- TLBLK (R272). -/
  | tlblk (a b : Nat)
  /-- TLBINV (R272). -/
  | tlbinv (scope : Scope) (a b : Nat)
  /-- CODE_LINE_FETCH (R177). -/
  | codeLineFetch
  /-- ERET (R380). -/
  | eret
  /-- IDLE (R221). -/
  | idle
  /-- TRIG (R226). -/
  | trig
  /-- DONE (R227). -/
  | done
  /-- RDV (R32). -/
  | rdv
  /-- STREAM_ROW_PUSH (R254). -/
  | streamRowPush
  /-- MARK_L (R128). -/
  | markL
  /-- MARK_S (R128). -/
  | markS
  /-- MARK_PAIR_RELEASE (R128). -/
  | markPairRelease
  /-- EXPOSED_RESULT_LAND (R281). -/
  | exposedResultLand
  /-- MMA_PERFORM (R298). -/
  | mmaPerform
  /-- SPAN_ARBITRATION (R159). -/
  | spanArbitration
  /-- GOVERNOR_STAT_ADD (R164). -/
  | governorStatAdd
  /-- COPY_GRANULE_WRITE (R266). -/
  | copyGranuleWrite
  /-- COPY_PERFORM (R266). -/
  | copyPerform
  /-- TLBUL (R272). -/
  | tlbul
  /-- QSCE (R272). -/
  | qsce
  /-- POSTED_WRITE_LANDING (R92). -/
  | postedWriteLanding
  /-- WRITE_ACKNOWLEDGEMENT (R90). -/
  | writeAcknowledgement
  /-- NETWORK_WRITE_ARRIVAL (R373). -/
  | networkWriteArrival
  /-- WINDOW_READ_REQUEST (R320). -/
  | windowReadRequest
  /-- WINDOW_READ_RESPONSE (R320). -/
  | windowReadResponse
  /-- SEND_ARRIVAL (R40). -/
  | sendArrival
  /-- ARRIVAL_DELIVERY (R41). -/
  | arrivalDelivery
  /-- ARRIVAL_TIMEOUT (R425). -/
  | arrivalTimeout
  /-- SEND_REFUSAL (R425). -/
  | sendRefusal
  /-- GROUP_JOIN_REQUEST (R230). -/
  | groupJoinRequest
  /-- GROUP_LEAVE_REQUEST (R231). -/
  | groupLeaveRequest
  /-- GROUP_ANSWER (R230). -/
  | groupAnswer
  /-- BARRIER_ARRIVAL (R172). -/
  | barrierArrival
  /-- BARRIER_RELEASE (R232). -/
  | barrierRelease
  /-- BARRIER_TIMEOUT (R423). -/
  | barrierTimeout
  /-- GROUP_LOST_ANSWER (R459). -/
  | groupLostAnswer
  /-- TRAP_ENTRY (R377). -/
  | trapEntry
  /-- ASYNC_TRAP_ENTRY (R403). -/
  | asyncTrapEntry
  /-- HANDLER_TIMEOUT (R378). -/
  | handlerTimeout
  /-- DEADLOCK_DETECT (R395). -/
  | deadlockDetect
  /-- DRAIN_TIMEOUT (R45). -/
  | drainTimeout
  /-- TASK_STOP (R384). -/
  | taskStop
  /-- DIE_HALT (R386). -/
  | dieHalt
  /-- DUMP_WRITE (R439). -/
  | dumpWrite
  /-- PAGE_FAULT_RESUME (R411). -/
  | pageFaultResume
  /-- PAGE_FAULT_STOP (R411). -/
  | pageFaultStop
  /-- PLACE_INSTANCE (R157). -/
  | placeInst
  /-- PREEMPTION (R45). -/
  | preemption
  /-- SAVE_AREA_WRITE (R49). -/
  | saveAreaWrite
  /-- CONTEXT_RESTORE (R431). -/
  | contextRestore
  /-- BUDGET_PERIOD_START (R160). -/
  | budgetPeriodStart
  /-- BUDGET_EXHAUSTED (R161). -/
  | budgetExhausted
  /-- TENANT_STARVATION (R427). -/
  | tenantStarvation
  /-- POWER_EVALUATION (R346). -/
  | powerEvaluation
  /-- GEAR_CHANGE_COMPLETE (R344). -/
  | gearChangeComplete
  /-- GEAR_CHANGE_TIMEOUT (R472). -/
  | gearChangeTimeout
  /-- BIAS_SET_COMPLETE (R345). -/
  | biasSetComplete
  /-- BIAS_SET_TIMEOUT (R472). -/
  | biasSetTimeout
  /-- BIAS_CLEAR_TIMEOUT (R345). -/
  | biasClearTimeout
  /-- BIAS_CLEAR_COMPLETE (R345). -/
  | biasClearComplete
  /-- CHART_GEAR_TIMEOUT (R473). -/
  | chartGearTimeout
  /-- SENSOR_READ (R356). -/
  | sensorRead
  /-- SURVEY_TICK (R358). -/
  | surveyTick
  /-- RAIL_DROOP (R470). -/
  | railDroop
  /-- RAIL_FAULT (R470). -/
  | railFault
  /-- INPUT_LOW (R470). -/
  | inputLow
  /-- INPUT_RECOVER (R470). -/
  | inputRecover
  /-- INPUT_CRITICAL (R470). -/
  | inputCritical
  /-- FLIT_SEND (R321). -/
  | flitSend
  /-- TAG_GROUP_PAD (R325). -/
  | tagGroupPad
  /-- FLIT_RECEIVE (R444). -/
  | flitReceive
  /-- TAINT_NOTICE (R449). -/
  | taintNotice
  /-- RETRY_REQUEST (R445). -/
  | retryRequest
  /-- RETRY_REQUEST_REPEAT (R444). -/
  | retryRequestRepeat
  /-- RETRAIN_ATTEMPT_COMPLETE (R452). -/
  | retrainAttemptComplete
  /-- RETRAIN_ATTEMPT_TIMEOUT (R451). -/
  | retrainAttemptTimeout
  /-- ABORT_FLIT (R454). -/
  | abortFlit
  /-- LOSS_NOTICE (R455). -/
  | lossNotice
  /-- FAILURE_NOTICE (R455). -/
  | failureNotice
  /-- KEY_SHARE_FIRST (R329). -/
  | keyShareFirst
  /-- KEY_SHARE_SECOND (R329). -/
  | keyShareSecond
  /-- KEY_SIGNATURE (R329). -/
  | keySignature
  /-- KEYS_READY (R447). -/
  | keysReady
  /-- KEY_RENEWAL_START (R329). -/
  | keyRenewalStart
  /-- UET_RETRANSMIT_TIMEOUT (R457). -/
  | uetRetransmitTimeout
  /-- UET_GIVE_UP (R457). -/
  | uetGiveUp
  /-- TIME_MESSAGE (R340). -/
  | timeMessage
  /-- LOCK_LOSS_UPSTREAM (R461). -/
  | lockLossUpstream
  /-- EYE_MARGIN_MEASURE (R464). -/
  | eyeMarginMeasure
  /-- HOST_READ_SHARED (R338). -/
  | hostReadShared
  /-- HOST_READ_OWN (R338). -/
  | hostReadOwn
  /-- HOST_WRITE_BACK (R338). -/
  | hostWriteBack
  /-- HOST_DROP (R338). -/
  | hostDrop
  /-- HOST_RECALL_ACK (R338). -/
  | hostRecallAck
  /-- HOST_RECALL_TIMEOUT (R416). -/
  | hostRecallTimeout
  /-- HOST_ENQUEUE (R335). -/
  | hostEnqueue
  /-- HOST_READ (R335). -/
  | hostRead
  /-- HOST_WRITE (R335). -/
  | hostWrite
  /-- HOST_FLUSH (R337). -/
  | hostFlush
  /-- HOST_INVALIDATE (R335). -/
  | hostInvalidate
  /-- INSTALL_LEGEND (R336). -/
  | installLegend
  /-- REVOKE_PAGE (R336). -/
  | revokePage
  /-- HOST_TASK_STOP (R384). -/
  | hostTaskStop
  /-- HOST_HALT (R386). -/
  | hostHalt
  /-- DIE_RESET (R386). -/
  | dieReset
  /-- DEBUG_ARM (R361). -/
  | debugArm
  /-- DEBUG_STOP_COMMAND (R361). -/
  | debugStopCommand
  /-- DEBUG_RESUME (R361). -/
  | debugResume
  /-- SINGLE_STEP (R364). -/
  | singleStep
  /-- STEP_DONE (R364). -/
  | stepDone
  /-- STEP_CANCEL (R364). -/
  | stepCancel
  /-- REWRITE_REQ (R237). -/
  | rewriteReq
  /-- ATTEST (R367). -/
  | attest
  /-- TEST_TILE (R368). -/
  | testTile
  /-- SELF_TEST_RUN (R368). -/
  | selfTestRun
  /-- READ_STATE (R486). -/
  | readState
  /-- CLEAR_COUNTS (R486). -/
  | clearCounts
  /-- RETIRE_UNIT (R486). -/
  | retireUnit
  /-- SPARE_DRAM_ROW (R486). -/
  | spareDramRow
  /-- CLEAR_REPAIR_MAP (R486). -/
  | clearRepairMap
  /-- SET_THRESHOLDS (R486). -/
  | setThresholds
  /-- SCRUB_PASS (R409). -/
  | scrubPass
  /-- START_STAGE_0 (R365). -/
  | startStage0
  /-- START_STAGE_1 (R365). -/
  | startStage1
  /-- START_STAGE_2 (R365). -/
  | startStage2
  /-- DIE_START_TIMEOUT (R485). -/
  | dieStartTimeout
  /-- TIME_LOCK_START_TIMEOUT (R485). -/
  | timeLockStartTimeout
  /-- ROM_IMAGE_WRITE (R485). -/
  | romImageWrite
  /-- GOVBASE_VALID_SET (R163). -/
  | govbaseValidSet
  /-- VDPORT_MODE_WRITE (R328). -/
  | vdportModeWrite
  /-- ERRCFG_ENABLE (R390). -/
  | errcfgEnable
  /-- ERRPTR_RD_WRITE (R390). -/
  | errptrRdWrite
  /-- ERRPTR_READ (R390). -/
  | errptrRead
  /-- LANDCNT_READ (R406). -/
  | landcntRead
  /-- SAVEPOOL_WRITE (R433). -/
  | savepoolWrite
  /-- DUMPCFG_WRITE (R438). -/
  | dumpcfgWrite
  /-- REGISTER_WRITE (R13). -/
  | registerWrite
  /-- WAITT_TARGET_REACHED (R238). -/
  | waittTargetReached
  /-- DROOP_DUTY_EXPIRY (R470). -/
  | droopDutyExpiry
  /-- DRAM_ROW_SPARE_COMPLETE (R479). -/
  | dramRowSpareComplete
  /-- FLUSHH_PERFORMED (R145). -/
  | flushhPerformed
  /-- TLBPRE_PERFORMED (R272). -/
  | tlbprePerformed
  /-- TLBINV_PERFORMED (R117). -/
  | tlbinvPerformed
  /-- LOSS_OF_SIGNAL (R451). -/
  | lossOfSignal
  /-- HOST_LIGHT_RETURN (R463). -/
  | hostLightReturn
  /-- PORT_RETRAIN_COMMAND (R453). -/
  | portRetrainCommand
  /-- PORT_DISABLE_COMMAND (R453). -/
  | portDisableCommand
  /-- POWER_DOWN (R365). -/
  | powerDown
  deriving DecidableEq, Repr

end Sys2Proof
end

