-- ==== Sys2Proof/WellFormed.lean ====
section
/-! DEFINITION. Which operands an encoding admits (R184, R189 to R195): register roles, ranges of
immediates, permitted types and the cluster rule of V. Events are not encoded: every event is well formed. -/
namespace Sys2Proof

/-- A register `g0`–`g63` (Table 6.5). -/
def WF.g (n : Nat) : Bool := n < 64
/-- An access register read by L or S (Table 6.5). -/
def WF.aRead (n : Nat) : Bool := n < 32
/-- An access register L writes (Table 6.5). -/
def WF.aL (n : Nat) : Bool := n < 16
/-- An access register S writes (Table 6.5). -/
def WF.aS (n : Nat) : Bool := 16 ≤ n && n < 32
/-- A load or store queue number. -/
def WF.q (n : Nat) : Bool := n < 8
/-- A predicate used as a guard or a source. -/
def WF.p (n : Nat) : Bool := n < 16
/-- A predicate that may be written: not `p0` (R276). -/
def WF.pd (n : Nat) : Bool := 1 ≤ n && n < 16
/-- A completion counter, where one is named. -/
def WF.cc : Option Nat → Bool
  | none => true
  | some k => k < 32
/-- A signed immediate of `n` bits. -/
def WF.simm (n : Nat) (i : Int) : Bool := -(2 ^ (n - 1) : Int) ≤ i && i < (2 ^ (n - 1) : Int)
/-- An unsigned field of `n` bits. -/
def WF.fit (n v : Nat) : Bool := v < 2 ^ n
/-- A memory type of `LD` and `ST`: codes 8 to 15 (R189). -/
def WF.memTy : Ty → Bool
  | .i8 | .i16 | .i32 | .i64 | .b8 | .b16 | .b32 | .b64 => true
  | _ => false
/-- A type of the integer elementwise instructions (R283). -/
def WF.intTy : Ty → Bool
  | .i32 | .b32 | .i16x2 => true
  | _ => false
/-- A type of `VICMP` (Table 9.2). -/
def WF.icmpTy : Ty → Bool
  | .i32 | .b32 => true
  | _ => false
/-- A type of the reductions and the scan (R291). -/
def WF.redTy : Ty → Bool
  | .f32 | .i32 | .b32 => true
  | _ => false
/-- A type of `VCVT`: codes 0 to 10 and 12 to 14 (R286). -/
def WF.cvtTy : Ty → Bool
  | .i64 | .b64 | .i16x2 | .mx => false
  | _ => true
/-- The order word: without acquire and release the scope is zero (R214). -/
def WF.order (o : AtomOrd) : Bool := o.acq || o.rel || o.scope = .c
/-- A vector location in range. -/
def WF.vloc : VLoc → Bool
  | .reg n => n < 64
  | .queue n => n < 8
/-- The cluster of the first vector register among some locations: east is true (R186). -/
def WF.cluster : List VLoc → Option Bool
  | [] => none
  | .reg n :: _ => some (32 ≤ n)
  | .queue _ :: r => WF.cluster r
/-- Every vector register among `ls` lies in cluster `c`. -/
def WF.within (c : Bool) : List VLoc → Bool
  | [] => true
  | .reg n :: r => (decide (32 ≤ n) == c) && WF.within c r
  | .queue _ :: r => WF.within c r
/-- The locations of a V instruction, destination first: in range, and in one cluster (R186). -/
def WF.vlocs (ls : List VLoc) : Bool := ls.all WF.vloc && WF.within ((WF.cluster ls).getD false) ls
/-- A location is a vector register. -/
def WF.isReg : VLoc → Bool
  | .reg _ => true
  | .queue _ => false
/-- A guard: zero where the destination is a queue (R279). -/
def WF.guard (d : VLoc) (g : Nat) : Bool := WF.p g && (WF.isReg d || g = 0)
/-- The numbers of Table 7.5. -/
def WF.csr (n : Nat) : Bool :=
  n ≤ 0x01F || (0x021 ≤ n && n ≤ 0x02F) || (0x031 ≤ n && n ≤ 0x03F) || (0x040 ≤ n && n ≤ 0x049)
    || (0x050 ≤ n && n ≤ 0x05F) || (0x080 ≤ n && n ≤ 0x082)
/-- A repeat of L or S: the count from a register or from imm14 (R190). -/
def WF.rep (r : Rep) : Bool :=
  match r.count with
  | .imm n => n < 16384
  | .reg a => a < 32
/-- A repeat of V takes no count from a register (R190). -/
def WF.repV (r : Rep) : Bool :=
  match r.count with
  | .imm n => n < 16384
  | .reg _ => false
/-- The register fields of a copy (Table 8.6). -/
def WF.copy (x : CopyExt) : Bool := WF.g x.len && WF.g x.aux && WF.g x.ring && WF.g x.bb && WF.cc x.cc
/-- A setting byte of Table 3.12 without reserved values (R108). -/
def WF.setting (n : Nat) : Bool := n < 8 || (0x40 ≤ n && n < 0x70 && n % 16 < 8)
/-- A role that receives statistics (R287). -/
def WF.role : Option Nat → Bool
  | none => true
  | some r => r < 6
/-- Three vector operands under a guard. -/
def WF.v3 (d a b : VLoc) (g : Nat) : Bool := WF.vlocs [d, a, b] && WF.guard d g
/-- Two vector operands under a guard. -/
def WF.v2 (d a : VLoc) (g : Nat) : Bool := WF.vlocs [d, a] && WF.guard d g
/-- Three vector operands of which the destination is also read: it is a register (R279). -/
def WF.v3d (d a b : VLoc) (g : Nat) : Bool := WF.v3 d a b g && WF.isReg d

open WF in
/-- The operands of an instruction are among those its encoding admits. -/
def Instr.wellFormed : Instr → Bool
  | .add d a b | .sub d a b | .and d a b | .or d a b | .xor d a b | .shl d a b | .shr d a b | .sra d a b
  | .min d a b | .max d a b | .minn d a b | .maxn d a b | .slt d a b | .sltn d a b | .seq d a b
  | .mul d a b | .mulh d a b | .mulhn d a b | .div d a b | .divn d a b | .rem d a b | .remn d a b
  | .spawn d a b | .govstep d a b => g d && g a && g b
  | .clz d a | .popc d a | .mov d a | .callr d a | .task d a | .govrd d a => g d && g a
  | .sel d c a b => g d && p c && g a && g b
  | .addi d a i | .andi d a i | .ori d a i | .xori d a i | .slti d a i => g d && g a && simm 14 i
  | .addiLong d a i | .andiLong d a i | .oriLong d a i | .xoriLong d a i | .sltiLong d a i =>
    g d && g a && simm 32 i
  | .shli d a n | .shri d a n | .srai d a n => g d && g a && fit 6 n
  | .movi d i => g d && simm 14 i
  | .moviLong d i => g d && simm 32 i
  | .ld d a off ty _ | .st d a off ty _ => g d && g a && simm 32 off && memTy ty
  | .amoAdd d a b o | .amoAnd d a b o | .amoOr d a b o | .amoXor d a b o | .amoMin d a b o | .amoMax d a b o
  | .amoMinn d a b o | .amoMaxn d a b o | .amoSwap d a b o => g d && g a && g b && order o
  | .cas d a b c o => g d && g a && g b && g c && order o
  | .bc _ a off | .call a off => g a && simm 16 off
  | .jmp off => simm 16 off
  | .loop a off => 1 ≤ a && g a && simm 16 off
  | .jmpr a | .ret a | .spush a | .gleave a | .gbar a | .gjoin a _ | .waitt a => g a
  | .spop d | .time d _ => g d
  | .sysc n | .brk n | .enter n | .leave n => n < 64
  | .tokp _ _ ch | .tokw _ _ ch | .tokenPost _ _ ch | .tokenTake _ _ ch => ch < 8
  | .ccadd n i => n < 32 && simm 14 i
  | .ccwait n k => n < 32 && 1 ≤ k && k < 16384
  | .gear n => n < 4
  | .puta n a => n < 32 && g a
  | .geta d n => g d && n < 32
  | .csrr d n => g d && csr n
  | .csrw d a n | .csrs d a n => g d && g a && csr n
  | .aadd d a b => aL d && aRead a && aRead b
  | .amovg d a => aL d && aRead a
  | .aaddi d a i => aL d && aRead a && simm 14 i
  | .ashli d a n => aL d && aRead a && fit 6 n
  | .ldq n a pi => q n && (if pi then aL a else aRead a)
  | .ldqs n a b lg pi => q n && aRead b && lg < 4 && (if pi then aL a else aRead a)
  | .ldqg n a b lg pi => q n && aRead a && lg < 4 && (if pi then aL b else aRead b)
  | .strm n a s | .strmc n a s => q n && aRead a && s < 8
  | .strmxWait s | .strmxStop s => s < 8
  | .strmxRem d s => aL d && s < 8
  | .repL r | .repS r => rep r
  | .repV r => WF.repV r
  | .sadd d a b => aS d && aRead a && aRead b
  | .stq a n g pi => q n && p g && (if pi then aS a else aRead a)
  | .stqLong a n g pi k stat first layer =>
    q n && p g && (if pi then aS a else aRead a) && cc k && layer < 4096
      && (!first || stat = .part) && (stat ≠ .none || layer = 0)
  | .stqs a b n g pi lg k => q n && p g && aRead b && (if pi then aS a else aRead a) && lg < 4 && cc k
  | .stqx a i n g lg k => q n && q i && p g && aRead a && lg < 4 && cc k
  | .strw a n g pi _ ty k => q n && p g && (if pi then aS a else aRead a) && (ty = .f32 || ty = .i32) && cc k
  | .upd a b n g _ pi _ layer k => q n && p g && aRead b && (if pi then aS a else aRead a) && layer < 4096 && cc k
  | .wstep w => 1 ≤ w && w < 16
  | .vadd d a b g | .vsub d a b g | .vmul d a b g | .vmin d a b g | .vmax d a b g | .vdiv d a b g
  | .vgath d a b g => v3 d a b g
  | .vfma d a b g | .vfms d a b g | .vnma d a b g | .vscat d a b g => v3d d a b g
  | .vabs d a g | .vneg d a g | .vsqrt d a g | .vrsq d a g | .vrcp d a g | .vexp2 d a g | .vlog2 d a g
  | .vmov d a g => v2 d a g
  | .vxfer d a g => vloc d && vloc a && WF.guard d g
  | .vcmp _ n a b g => pd n && vlocs [a, b] && p g
  | .vicmp ty c n a b g => icmpTy ty && c ≠ .un && pd n && vlocs [a, b] && p g
  | .vsel d a b s => v3 d a b s
  | .viadd ty d a b g | .visub ty d a b g | .vimul ty d a b g | .vand ty d a b g | .vor ty d a b g
  | .vxor ty d a b g | .vshl ty d a b g | .vshr ty d a b g | .vsra ty d a b g | .vimin ty d a b g
  | .vimax ty d a b g | .vsadd ty d a b g | .vssub ty d a b g => intTy ty && v3 d a b g
  | .vimad ty d a b g => intTy ty && v3d d a b g
  | .vnot ty d a g => intTy ty && v2 d a g
  | .vacs d a b n => vlocs [d, a, b] && WF.guard d n && n % 2 = 0
  | .vcvt dst src _ d a g => cvtTy dst && cvtTy src && v2 d a g
  | .vqnt _ bs _ r layer d a => bs < 3 && role r && layer < 4096 && vlocs [d, a]
  | .vdqnt d a => vlocs [d, a]
  | .vrotr d a k g | .vbcr d a k g => k < 64 && v2 d a g
  | .vrotc d a k g | .vbcc d a k g => k < 16 && v2 d a g
  | .vredr _ ty d a g | .vredc _ ty d a g | .vscnr _ ty d a g => redTy ty && v2 d a g
  | .vmovi d i => d < 64 && simm 32 i
  | .viota d g => vloc d && WF.guard d g
  | .psetNone n | .psetAll n => pd n
  | .psetRow n k => pd n && k < 16
  | .psetCol n k => pd n && k < 64
  | .pand n a b _ | .por n a b _ | .pxor n a b _ => pd n && p a && p b
  | .pnot n a => pd n && p a
  | .pcntRow d n | .pcntAll d n | .pfstRow d n | .pfstAll d n => d < 64 && p n
  | .vpart d n a g => vloc d && isReg d && pd n && p a && p g
  | .vpack d a w => vlocs [d, a] && w < 4
  | .vunpk d a w _ => vlocs [d, a] && w < 4
  | .mma n _ _ qa qb kq req pat k => n < 256 && q qa && q qb && kq < 6 && req < 6 && pat < 65536 && cc k
  | .mmav n _ _ a b qa kq req k => n < 256 && WF.g a && WF.g b && q qa && kq < 6 && req < 6 && cc k
  | .mzero n k => n < 256 && 1 ≤ k && k ≤ 16
  | .mrd d n k => d < 64 && n < 256 && k < 4
  | .mrdQueue k n t => q k && n < 256 && t < 4
  | .mwr n s k => n < 256 && s < 64 && k < 4
  | .mperm d s k _ => d < 256 && s < 256 && q k
  | .mspan k => k < 6
  | .mqstat set n k layer role => setting set && n < 256 && 1 ≤ k && k ≤ 16 && layer < 4096 && role < 6
  | .cpy _ _ a b x => WF.g a && WF.g b && copy x && x.aux = 0
  | .cpylLd _ a x | .cpylSt _ a x => WF.g a && copy x
  | .cpyn _ a b x | .cpyr a b x => WF.g a && WF.g b && copy x
  | .cpyrIp b x => WF.g b && copy x
  | .pref a b | .ringi a b | .ringr a b | .bbset a b | .tlblk a b => g a && g b
  | .flushh a b k | .tlbpre a b k => g a && g b && cc k
  | .send a b t h _ k => g a && g b && g t && g h && cc k
  | .ringw a n => g a && 1 ≤ n && n ≤ 4096
  | .bbwait a => g a
  | .tlbinv sc a b => (sc = .t || sc = .k || sc = .d) && g a && g b
  | .fence _ | .eret | .idle | .trig | .done | .rdv | .markL | .markS | .tlbul | .qsce => true
  | .codeLineFetch | .streamRowPush | .markPairRelease | .exposedResultLand | .mmaPerform | .spanArbitration
  | .governorStatAdd | .copyGranuleWrite | .copyPerform => true
  | .postedWriteLanding | .writeAcknowledgement | .networkWriteArrival | .windowReadRequest
  | .windowReadResponse | .sendArrival | .arrivalDelivery | .arrivalTimeout | .sendRefusal
  | .groupJoinRequest | .groupLeaveRequest | .groupAnswer | .barrierArrival
  | .barrierRelease | .barrierTimeout | .groupLostAnswer | .trapEntry | .asyncTrapEntry
  | .handlerTimeout | .deadlockDetect | .drainTimeout | .taskStop | .dieHalt | .dumpWrite
  | .pageFaultResume | .pageFaultStop | .placeInst | .preemption | .saveAreaWrite
  | .contextRestore | .budgetPeriodStart | .budgetExhausted | .tenantStarvation
  | .powerEvaluation | .gearChangeComplete | .gearChangeTimeout | .biasSetComplete
  | .biasSetTimeout | .biasClearTimeout | .biasClearComplete | .chartGearTimeout
  | .sensorRead | .surveyTick | .railDroop | .railFault | .inputLow | .inputRecover
  | .inputCritical | .flitSend | .tagGroupPad | .flitReceive | .taintNotice
  | .retryRequest | .retryRequestRepeat | .retrainAttemptComplete | .retrainAttemptTimeout
  | .abortFlit | .lossNotice | .failureNotice | .keyShareFirst | .keyShareSecond
  | .keySignature | .keysReady | .keyRenewalStart | .uetRetransmitTimeout | .uetGiveUp
  | .timeMessage | .lockLossUpstream | .eyeMarginMeasure | .hostReadShared | .hostReadOwn
  | .hostWriteBack | .hostDrop | .hostRecallAck | .hostRecallTimeout | .hostEnqueue
  | .hostRead | .hostWrite | .hostFlush | .hostInvalidate | .installLegend | .revokePage
  | .hostTaskStop | .hostHalt | .dieReset | .debugArm | .debugStopCommand | .debugResume
  | .singleStep | .stepDone | .stepCancel | .rewriteReq | .attest | .testTile
  | .selfTestRun | .readState | .clearCounts | .retireUnit | .spareDramRow
  | .clearRepairMap | .setThresholds | .scrubPass | .startStage0 | .startStage1
  | .startStage2 | .dieStartTimeout | .timeLockStartTimeout | .romImageWrite
  | .govbaseValidSet | .vdportModeWrite | .errcfgEnable | .errptrRdWrite | .errptrRead
  | .landcntRead | .savepoolWrite | .dumpcfgWrite | .registerWrite | .waittTargetReached
  | .droopDutyExpiry | .dramRowSpareComplete | .flushhPerformed | .tlbprePerformed
  | .tlbinvPerformed | .lossOfSignal | .hostLightReturn | .portRetrainCommand
  | .portDisableCommand | .powerDown => true

end Sys2Proof
end

