-- ==== Sys2Proof/Decode.lean ====
section
/-! DEFINITION. Instruction words: the encoder of Tables 6.3 to 6.13, and the decoder, total on any word and
extension word, which accepts exactly the words the encoder writes for a well-formed instruction. -/
namespace Sys2Proof

/-! ### Fields -/

/-- Bits [lo + n − 1 : lo] of `w`. -/
def fld (w lo n : Nat) : Nat := w / 2 ^ lo % 2 ^ n
/-- The two's complement field of `n` bits that holds `i`. -/
def tc (n : Nat) (i : Int) : Nat := (i % 2 ^ n).toNat
/-- A field of `n` bits read as two's complement. -/
def sx (n v : Nat) : Int := if v < 2 ^ (n - 1) then (v : Int) else (v : Int) - 2 ^ n
/-- Form A (Table 6.3). -/
def formA (major d a b p m : Nat) : Nat :=
  major * 2 ^ 26 + d * 2 ^ 20 + a * 2 ^ 14 + b * 2 ^ 8 + p * 2 ^ 4 + m
/-- Form I (Table 6.3), the immediate as a field of 14 bits. -/
def formI (major d a imm : Nat) : Nat := major * 2 ^ 26 + d * 2 ^ 20 + a * 2 ^ 14 + imm
/-- Form B (Table 6.3). -/
def formB (major a cond off : Nat) : Nat := major * 2 ^ 26 + a * 2 ^ 20 + cond * 2 ^ 16 + off

/-! ### Codes -/

def Engine.code : Engine → Nat
  | .c => 1 | .l => 2 | .s => 3 | .v => 4 | .m => 5 | .x => 6
def Engine.ofCode : Nat → Option Engine
  | 1 => some .c | 2 => some .l | 3 => some .s | 4 => some .v | 5 => some .m | 6 => some .x
  | _ => none
def Scope.code : Scope → Nat
  | .c => 0 | .t => 1 | .k => 2 | .d => 3 | .p => 4 | .s => 5
def Scope.ofCode : Nat → Option Scope
  | 0 => some .c | 1 => some .t | 2 => some .k | 3 => some .d | 4 => some .p | 5 => some .s
  | _ => none
def Cond.code : Cond → Nat
  | .eqz => 0 | .nez => 1 | .ltz => 2 | .gez => 3 | .gtz => 4 | .lez => 5
def Cond.ofCode : Nat → Option Cond
  | 0 => some .eqz | 1 => some .nez | 2 => some .ltz | 3 => some .gez | 4 => some .gtz | 5 => some .lez
  | _ => none
def Ty.code : Ty → Nat
  | .f32 => 0 | .bf16 => 1 | .f16 => 2 | .e4m3 => 3 | .e5m2 => 4 | .e2m3 => 5 | .e3m2 => 6 | .e2m1 => 7
  | .i8 => 8 | .i16 => 9 | .i32 => 10 | .i64 => 11 | .b8 => 12 | .b16 => 13 | .b32 => 14 | .b64 => 15
  | .i16x2 => 16 | .mx => 17
def Ty.ofCode : Nat → Option Ty
  | 0 => some .f32 | 1 => some .bf16 | 2 => some .f16 | 3 => some .e4m3 | 4 => some .e5m2 | 5 => some .e2m3
  | 6 => some .e3m2 | 7 => some .e2m1 | 8 => some .i8 | 9 => some .i16 | 10 => some .i32 | 11 => some .i64
  | 12 => some .b8 | 13 => some .b16 | 14 => some .b32 | 15 => some .b64 | 16 => some .i16x2 | 17 => some .mx
  | _ => none
def EFmt.code : EFmt → Nat
  | .e4m3 => 0 | .e5m2 => 1 | .e2m3 => 2 | .e3m2 => 3 | .e2m1 => 4 | .i8 => 5 | .i4 => 6 | .i2 => 7
def EFmt.ofCode : Nat → Option EFmt
  | 0 => some .e4m3 | 1 => some .e5m2 | 2 => some .e2m3 | 3 => some .e3m2 | 4 => some .e2m1
  | 5 => some .i8 | 6 => some .i4 | 7 => some .i2
  | _ => none
def MTy.code : MTy → Nat
  | .bf16 => 0 | .f16 => 1 | .b16 => 2 | .mx => 3 | .e4m3 => 4 | .e5m2 => 5 | .e2m3 => 6 | .e3m2 => 7
  | .e2m1 => 8 | .i8 => 9
def MTy.ofCode : Nat → Option MTy
  | 0 => some .bf16 | 1 => some .f16 | 2 => some .b16 | 3 => some .mx | 4 => some .e4m3 | 5 => some .e5m2
  | 6 => some .e2m3 | 7 => some .e3m2 | 8 => some .e2m1 | 9 => some .i8
  | _ => none
def Rnd.code : Rnd → Nat
  | .rn => 0 | .rz => 1 | .rs => 2 | .sat => 3
def Rnd.ofCode : Nat → Rnd
  | 0 => .rn | 1 => .rz | 2 => .rs | _ => .sat
def Cmp.code : Cmp → Nat
  | .eq => 0 | .ne => 1 | .lt => 2 | .le => 3 | .gt => 4 | .ge => 5 | .un => 6
def Cmp.ofCode : Nat → Option Cmp
  | 0 => some .eq | 1 => some .ne | 2 => some .lt | 3 => some .le | 4 => some .gt | 5 => some .ge | 6 => some .un
  | _ => none
def RedOp.code : RedOp → Nat
  | .add => 0 | .min => 1 | .max => 2
def RedOp.ofCode : Nat → Option RedOp
  | 0 => some .add | 1 => some .min | 2 => some .max
  | _ => none
def UpdFn.code : UpdFn → Nat
  | .sgd => 0 | .mom => 1 | .adam => 2
def UpdFn.ofCode : Nat → Option UpdFn
  | 0 => some .sgd | 1 => some .mom | 2 => some .adam
  | _ => none
def StqStat.code : StqStat → Nat
  | .none => 0 | .part => 1 | .whole => 2
def StqStat.ofCode : Nat → Option StqStat
  | 0 => some .none | 1 => some .part | 2 => some .whole
  | _ => none

/-- A flag as a bit. -/
def b2n (b : Bool) : Nat := if b then 1 else 0
/-- A counter field with its enable bit above five number bits (R259, Table 8.6, Table 9.7). -/
def ccField : Option Nat → Nat
  | none => 0
  | some k => 32 + k
/-- The counter a field of `ccField` names. -/
def ccOf (f : Nat) : Option Nat := if f / 32 % 2 = 1 then some (f % 32) else none
/-- An acquire or release bit above a scope (R211, R212). -/
def ordField : Option Scope → Nat
  | none => 0
  | some s => 8 + s.code
/-- The optional scope of a four-bit `ordField`. -/
def ordOf (f : Nat) : Option Scope := if f / 8 % 2 = 1 then Scope.ofCode (f % 8) else none
/-- The order word of an atomic (Table 6.4) with its compare register. -/
def orderWord (c : Nat) (o : AtomOrd) : Nat :=
  c * 2 ^ 8 + b2n o.wide * 2 ^ 5 + b2n o.rel * 2 ^ 4 + b2n o.acq * 2 ^ 3 + o.scope.code
/-- An order word read back. -/
def orderOf (x : Nat) : Option AtomOrd :=
  (Scope.ofCode (fld x 0 3)).map fun s => ⟨fld x 5 1 = 1, fld x 3 1 = 1, fld x 4 1 = 1, s⟩
/-- The first word of a token instruction (R233). -/
def tokImm (e f : Engine) (ch : Nat) : Nat := e.code * 2 ^ 11 + f.code * 2 ^ 8 + ch
/-- The I-form word of a repeat (R190). -/
def repWord (major : Nat) (r : Rep) : Nat :=
  let mask := b2n r.sd + b2n r.sa * 2 + b2n r.sb * 4 + b2n r.sg * 8
  match r.count with
  | .imm n => formI major mask 0 n
  | .reg a => formI major (32 + mask) a 0
/-- A repeat read back from its word. -/
def repOf (w : Nat) : Rep :=
  ⟨fld w 20 1 = 1, fld w 21 1 = 1, fld w 22 1 = 1, fld w 23 1 = 1,
    if fld w 25 1 = 1 then .reg (fld w 14 6) else .imm (fld w 0 14)⟩
/-- The extension word of a copy (Table 8.6). -/
def copyWord (x : CopyExt) : Nat :=
  x.len * 2 ^ 26 + x.aux * 2 ^ 20 + x.ring * 2 ^ 14 + x.bb * 2 ^ 8 + ccField x.cc * 2 ^ 2
/-- A copy's extension word read back. -/
def copyOf (x : Nat) : CopyExt := ⟨fld x 26 6, fld x 20 6, fld x 14 6, fld x 8 6, ccOf (fld x 2 6)⟩
/-- A statistics role field: 7 names none (R287). -/
def roleField : Option Nat → Nat
  | none => 7
  | some r => r
def roleOf (f : Nat) : Option Nat := if f = 7 then none else some f

/-- The number in a vector operand field. -/
def VLoc.num : VLoc → Nat
  | .reg n => n
  | .queue n => n
/-- The queue bit of a vector operand (Table 6.7). -/
def VLoc.bit : VLoc → Nat
  | .reg _ => 0
  | .queue _ => 1
/-- A vector operand from its field and its queue bit. -/
def vlocOf (n q : Nat) : VLoc := if q = 1 then .queue n else .reg n
/-- The vext word (Table 6.7). -/
def vext (bound qd qa qb rnd stype type4 spec : Nat) : Nat :=
  bound * 2 ^ 28 + qd * 2 ^ 27 + qa * 2 ^ 26 + qb * 2 ^ 25 + rnd * 2 ^ 23 + stype * 2 ^ 18 + type4 * 2 ^ 17 + spec

/-! ### The encoder -/

/-- The words of one instruction: its engine, its first word and its extension word, if it has one. -/
structure Words where
  engine : Engine
  word : Nat
  ext : Option Nat
  deriving DecidableEq, Repr

/-- A short form: refused where the long form is asked for. -/
def shortW (e : Engine) (w : Nat) (long : Bool) : Option Words := if long then none else some ⟨e, w, none⟩
/-- A long form: refused where the short form is asked for. -/
def longW (e : Engine) (w x : Nat) (long : Bool) : Option Words := if long then some ⟨e, w, some x⟩ else none
/-- A V instruction with both forms: short where no queue is named and the type code fits four bits. -/
def vW (major bound : Nat) (d a b : VLoc) (g ty : Nat) (long : Bool) : Option Words :=
  let w := formA major d.num a.num b.num g (ty % 16)
  if long then some ⟨.v, w, some (vext bound d.bit a.bit b.bit 0 0 (ty / 16) 0)⟩
  else if d.bit = 0 && a.bit = 0 && b.bit = 0 && ty < 16 then some ⟨.v, w, none⟩ else none
/-- A V instruction with a long form only. -/
def vL (major : Nat) (d a b : VLoc) (g minor rnd stype spec : Nat) (long : Bool) : Option Words :=
  longW .v (formA major d.num a.num b.num g minor) (vext 0 d.bit a.bit b.bit rnd stype 0 spec) long
/-- A compare: the short form compares `.lt` (R284). -/
def cmpW (major : Nat) (cond : Cmp) (p : Nat) (a b : VLoc) (g ty : Nat) (long : Bool) : Option Words :=
  let w := formA major p a.num b.num g ty
  if long then some ⟨.v, w, some (vext 0 0 a.bit b.bit 0 0 0 cond.code)⟩
  else if a.bit = 0 && b.bit = 0 && cond = .lt then some ⟨.v, w, none⟩ else none
/-- An operand that is not there: register field zero, no queue bit. -/
def noV : VLoc := .reg 0

/-- The words of an instruction in its short (`false`) or long (`true`) form; none where it has no such form
or is an event. -/
def words (i : Instr) (long : Bool) : Option Words :=
  match i with
  -- C (Table 6.8)
  | .add d a b => shortW .c (formA 0x00 d a b 0 0) long
  | .sub d a b => shortW .c (formA 0x00 d a b 0 1) long
  | .and d a b => shortW .c (formA 0x00 d a b 0 2) long
  | .or d a b => shortW .c (formA 0x00 d a b 0 3) long
  | .xor d a b => shortW .c (formA 0x00 d a b 0 4) long
  | .shl d a b => shortW .c (formA 0x00 d a b 0 5) long
  | .shr d a b => shortW .c (formA 0x00 d a b 0 6) long
  | .sra d a b => shortW .c (formA 0x00 d a b 0 7) long
  | .min d a b => shortW .c (formA 0x00 d a b 0 8) long
  | .max d a b => shortW .c (formA 0x00 d a b 0 9) long
  | .minn d a b => shortW .c (formA 0x00 d a b 0 10) long
  | .maxn d a b => shortW .c (formA 0x00 d a b 0 11) long
  | .slt d a b => shortW .c (formA 0x00 d a b 0 12) long
  | .sltn d a b => shortW .c (formA 0x00 d a b 0 13) long
  | .seq d a b => shortW .c (formA 0x00 d a b 0 14) long
  | .mul d a b => shortW .c (formA 0x01 d a b 0 0) long
  | .mulh d a b => shortW .c (formA 0x01 d a b 0 1) long
  | .mulhn d a b => shortW .c (formA 0x01 d a b 0 2) long
  | .div d a b => shortW .c (formA 0x01 d a b 0 3) long
  | .divn d a b => shortW .c (formA 0x01 d a b 0 4) long
  | .rem d a b => shortW .c (formA 0x01 d a b 0 5) long
  | .remn d a b => shortW .c (formA 0x01 d a b 0 6) long
  | .clz d a => shortW .c (formA 0x01 d a 0 0 7) long
  | .popc d a => shortW .c (formA 0x01 d a 0 0 8) long
  | .mov d a => shortW .c (formA 0x01 d a 0 0 9) long
  | .sel d c a b => shortW .c (formA 0x01 d a b c 10) long
  | .addi d a i => shortW .c (formI 0x02 d a (tc 14 i)) long
  | .addiLong d a i => longW .c (formI 0x02 d a 0) (tc 32 i) long
  | .andi d a i => shortW .c (formI 0x03 d a (tc 14 i)) long
  | .andiLong d a i => longW .c (formI 0x03 d a 0) (tc 32 i) long
  | .ori d a i => shortW .c (formI 0x04 d a (tc 14 i)) long
  | .oriLong d a i => longW .c (formI 0x04 d a 0) (tc 32 i) long
  | .xori d a i => shortW .c (formI 0x05 d a (tc 14 i)) long
  | .xoriLong d a i => longW .c (formI 0x05 d a 0) (tc 32 i) long
  | .shli d a n => shortW .c (formI 0x06 d a n) long
  | .shri d a n => shortW .c (formI 0x07 d a n) long
  | .srai d a n => shortW .c (formI 0x08 d a n) long
  | .slti d a i => shortW .c (formI 0x09 d a (tc 14 i)) long
  | .sltiLong d a i => longW .c (formI 0x09 d a 0) (tc 32 i) long
  | .movi d i => shortW .c (formI 0x0A d 0 (tc 14 i)) long
  | .moviLong d i => longW .c (formI 0x0A d 0 0) (tc 32 i) long
  | .ld d a off ty o => longW .c (formA 0x0B d a 0 (ordField o) ty.code) (tc 32 off) long
  | .st d a off ty o => longW .c (formA 0x0C d a 0 (ordField o) ty.code) (tc 32 off) long
  | .amoAdd d a b o => longW .c (formA 0x0D d a b 0 0) (orderWord 0 o) long
  | .amoAnd d a b o => longW .c (formA 0x0D d a b 0 1) (orderWord 0 o) long
  | .amoOr d a b o => longW .c (formA 0x0D d a b 0 2) (orderWord 0 o) long
  | .amoXor d a b o => longW .c (formA 0x0D d a b 0 3) (orderWord 0 o) long
  | .amoMin d a b o => longW .c (formA 0x0D d a b 0 4) (orderWord 0 o) long
  | .amoMax d a b o => longW .c (formA 0x0D d a b 0 5) (orderWord 0 o) long
  | .amoMinn d a b o => longW .c (formA 0x0D d a b 0 6) (orderWord 0 o) long
  | .amoMaxn d a b o => longW .c (formA 0x0D d a b 0 7) (orderWord 0 o) long
  | .amoSwap d a b o => longW .c (formA 0x0D d a b 0 8) (orderWord 0 o) long
  | .cas d a b c o => longW .c (formA 0x0E d a b 0 0) (orderWord c o) long
  | .bc cond a off => shortW .c (formB 0x0F a cond.code (tc 16 off)) long
  | .jmp off => shortW .c (formB 0x10 0 0 (tc 16 off)) long
  | .call a off => shortW .c (formB 0x11 a 0 (tc 16 off)) long
  | .loop a off => shortW .c (formB 0x12 a 0 (tc 16 off)) long
  | .jmpr a => shortW .c (formA 0x13 0 a 0 0 0) long
  | .callr d a => shortW .c (formA 0x13 d a 0 0 1) long
  | .ret a => shortW .c (formA 0x13 0 a 0 0 2) long
  | .eret => shortW .c (formA 0x13 0 0 0 0 3) long
  | .sysc n => shortW .c (formA 0x13 0 0 n 0 4) long
  | .brk n => shortW .c (formA 0x13 0 0 n 0 5) long
  | .idle => shortW .c (formA 0x13 0 0 0 0 6) long
  | .enter n => shortW .c (formI 0x14 0 0 n) long
  | .leave n => shortW .c (formI 0x15 0 0 n) long
  | .spush a => shortW .c (formA 0x16 0 a 0 0 0) long
  | .spop d => shortW .c (formA 0x16 d 0 0 0 1) long
  | .task d a => shortW .c (formA 0x17 d a 0 0 0) long
  | .trig => shortW .c (formA 0x18 0 0 0 0 0) long
  | .done => shortW .c (formA 0x18 0 0 0 0 1) long
  | .rdv => shortW .c (formA 0x18 0 0 0 0 2) long
  | .gjoin a chart => shortW .c (formA 0x18 0 a 0 (b2n chart) 3) long
  | .gleave a => shortW .c (formA 0x18 0 a 0 0 4) long
  | .gbar a => shortW .c (formA 0x18 0 a 0 0 5) long
  | .spawn d a b => shortW .c (formA 0x18 d a b 0 6) long
  | .tokp e f ch => shortW .c (formI 0x19 0 0 (tokImm e f ch)) long
  | .tokw e f ch => shortW .c (formI 0x1A 0 0 (tokImm e f ch)) long
  | .ccadd n i => shortW .c (formI 0x1B n 0 (tc 14 i)) long
  | .ccwait n k => shortW .c (formI 0x1C n 0 k) long
  | .fence s => shortW .c (formA 0x1D 0 0 0 s.code 0) long
  | .gear n => shortW .c (formA 0x1D 0 0 n 0 1) long
  | .waitt a => shortW .c (formA 0x1D 0 a 0 0 2) long
  | .time d chart => shortW .c (formA 0x1D d 0 0 (b2n chart) 3) long
  | .govstep d a b => shortW .c (formA 0x1E d a b 0 0) long
  | .govrd d a => shortW .c (formA 0x1E d a 0 0 1) long
  | .puta n a => shortW .c (formA 0x1E n a 0 0 2) long
  | .geta d n => shortW .c (formA 0x1E d n 0 0 3) long
  | .csrr d n => shortW .c (formI 0x1F d 0 n) long
  | .csrw d a n => shortW .c (formI 0x20 d a n) long
  | .csrs d a n => shortW .c (formI 0x21 d a n) long
  -- L (Table 6.9)
  | .aadd d a b => shortW .l (formA 0x00 d a b 0 0) long
  | .amovg d a => shortW .l (formA 0x00 d a 0 0 1) long
  | .aaddi d a i => shortW .l (formI 0x01 d a (tc 14 i)) long
  | .ashli d a n => shortW .l (formI 0x02 d a n) long
  | .ldq n a pi => shortW .l (formA 0x03 (32 + n) a 0 0 (b2n pi)) long
  | .ldqs n a b lg pi => longW .l (formA 0x04 (32 + n) a b 0 (b2n pi)) lg long
  | .ldqg n a b lg pi => longW .l (formA 0x05 (32 + n) a b 0 (b2n pi)) lg long
  | .strm n a s => longW .l (formA 0x06 (32 + n) a 0 0 0) s long
  | .strmc n a s => longW .l (formA 0x07 (32 + n) a 0 0 0) s long
  | .strmxWait s => shortW .l (formA 0x08 0 0 0 s 0) long
  | .strmxStop s => shortW .l (formA 0x08 0 0 0 s 1) long
  | .strmxRem d s => shortW .l (formA 0x08 d 0 0 s 2) long
  | .markL => shortW .l (formA 0x09 0 0 0 0 0) long
  | .repL r => shortW .l (repWord 0x0A r) long
  -- S (Table 6.10)
  | .sadd d a b => shortW .s (formA 0x00 d a b 0 0) long
  | .stq a n g pi => shortW .s (formA 0x01 0 a (32 + n) g (b2n pi)) long
  | .stqLong a n g pi k stat first layer =>
    longW .s (formA 0x01 0 a (32 + n) g (b2n pi))
      (ccField k * 2 ^ 26 + stat.code * 2 ^ 24 + b2n first * 2 ^ 23 + layer) long
  | .stqs a b n g pi lg k =>
    longW .s (formA 0x02 0 a b g (b2n pi)) (ccField k * 2 ^ 26 + n * 2 ^ 3 + lg) long
  | .stqx a i n g lg k => longW .s (formA 0x03 0 a (32 + i) g 0) (ccField k * 2 ^ 26 + n * 2 ^ 3 + lg) long
  | .strw a n g pi op ty k =>
    longW .s (formA 0x04 0 a (32 + n) g (b2n pi)) (ccField k * 2 ^ 26 + op.code * 2 ^ 24 + ty.code) long
  | .upd a b n g fn pi rnd layer k =>
    longW .s (formA 0x05 0 a b g (b2n pi * 4 + fn.code))
      (ccField k * 2 ^ 26 + rnd.code * 2 ^ 24 + n * 2 ^ 21 + layer) long
  | .wstep w => shortW .s (formI 0x06 0 0 w) long
  | .markS => shortW .s (formA 0x07 0 0 0 0 0) long
  | .repS r => shortW .s (repWord 0x08 r) long
  -- V (Table 6.11)
  | .vadd d a b g => vW 0x00 0 d a b g 0 long
  | .vsub d a b g => vW 0x01 0 d a b g 0 long
  | .vmul d a b g => vW 0x02 0 d a b g 0 long
  | .vfma d a b g => vW 0x03 0 d a b g 0 long
  | .vfms d a b g => vW 0x04 0 d a b g 0 long
  | .vnma d a b g => vW 0x05 0 d a b g 0 long
  | .vmin d a b g => vW 0x06 0 d a b g 0 long
  | .vmax d a b g => vW 0x07 0 d a b g 0 long
  | .vabs d a g => vW 0x08 0 d a noV g 0 long
  | .vneg d a g => vW 0x09 0 d a noV g 0 long
  | .vcmp cond p a b g => cmpW 0x0A cond p a b g 0 long
  | .vsel d a b s => vW 0x0B 0 d a b s 0 long
  | .viadd ty d a b g => vW 0x0C 0 d a b g ty.code long
  | .visub ty d a b g => vW 0x0D 0 d a b g ty.code long
  | .vimul ty d a b g => vW 0x0E 0 d a b g ty.code long
  | .vimad ty d a b g => vW 0x0F 0 d a b g ty.code long
  | .vand ty d a b g => vW 0x10 0 d a b g ty.code long
  | .vor ty d a b g => vW 0x11 0 d a b g ty.code long
  | .vxor ty d a b g => vW 0x12 0 d a b g ty.code long
  | .vnot ty d a g => vW 0x13 0 d a noV g ty.code long
  | .vshl ty d a b g => vW 0x14 0 d a b g ty.code long
  | .vshr ty d a b g => vW 0x15 0 d a b g ty.code long
  | .vsra ty d a b g => vW 0x16 0 d a b g ty.code long
  | .vimin ty d a b g => vW 0x17 0 d a b g ty.code long
  | .vimax ty d a b g => vW 0x18 0 d a b g ty.code long
  | .vicmp ty cond p a b g => cmpW 0x19 cond p a b g ty.code long
  | .vsadd ty d a b g => vW 0x1A 0 d a b g ty.code long
  | .vssub ty d a b g => vW 0x1B 0 d a b g ty.code long
  | .vacs d a b p =>
    let w := formA 0x1C d.num a.num b.num p 0
    if long then some ⟨.v, w, some (vext 0 d.bit a.bit b.bit 0 0 1 0)⟩
    else if d.bit = 0 && a.bit = 0 && b.bit = 0 then some ⟨.v, w, none⟩ else none
  | .vcvt dst src mode d a g => vL 0x1D d a noV g dst.code mode.code src.code 0 long
  | .vqnt fmt bs mode role layer d a =>
    vL 0x1E d a noV 0 fmt.code mode.code 0 (bs * 2 ^ 15 + roleField role * 2 ^ 12 + layer) long
  | .vdqnt d a => vL 0x1F d a noV 0 0 0 0 0 long
  | .vdiv d a b g => vW 0x20 14 d a b g 0 long
  | .vsqrt d a g => vW 0x21 14 d a noV g 0 long
  | .vrsq d a g => vW 0x22 10 d a noV g 0 long
  | .vrcp d a g => vW 0x23 10 d a noV g 0 long
  | .vexp2 d a g => vW 0x24 12 d a noV g 0 long
  | .vlog2 d a g => vW 0x25 12 d a noV g 0 long
  | .vrotr d a k g => vW 0x26 2 d a (.reg k) g 14 long
  | .vrotc d a k g => vW 0x27 6 d a (.reg k) g 14 long
  | .vbcr d a k g => vW 0x28 2 d a (.reg k) g 14 long
  | .vbcc d a k g => vW 0x29 6 d a (.reg k) g 14 long
  | .vredr op ty d a g => vW 0x2A 4 d a (.reg op.code) g ty.code long
  | .vredc op ty d a g => vW 0x2B 8 d a (.reg op.code) g ty.code long
  | .vscnr op ty d a g => vW 0x2C 4 d a (.reg op.code) g ty.code long
  | .vmov d a g => vW 0x2D 0 d a noV g 14 long
  | .vxfer d a g => vW 0x2E 0 d a noV g 14 long
  | .vmovi d i =>
    if long then some ⟨.v, formI 0x2F d 0 0, some (tc 32 i)⟩
    else if WF.simm 14 i then some ⟨.v, formI 0x2F d 0 (tc 14 i), none⟩ else none
  | .viota d g => vW 0x30 0 d noV noV g 14 long
  | .psetNone p => shortW .v (formA 0x31 p 0 0 0 0) long
  | .psetAll p => shortW .v (formA 0x31 p 0 0 0 1) long
  | .psetRow p k => shortW .v (formA 0x31 p 0 k 0 2) long
  | .psetCol p k => shortW .v (formA 0x31 p 0 k 0 3) long
  | .pand p a b n => shortW .v (formA 0x32 p a b 0 (b2n n)) long
  | .por p a b n => shortW .v (formA 0x33 p a b 0 (b2n n)) long
  | .pxor p a b n => shortW .v (formA 0x34 p a b 0 (b2n n)) long
  | .pnot p a => shortW .v (formA 0x35 p a 0 0 0) long
  | .pcntRow d p => shortW .v (formA 0x36 d p 0 0 0) long
  | .pcntAll d p => shortW .v (formA 0x36 d p 0 0 1) long
  | .pfstRow d p => shortW .v (formA 0x37 d p 0 0 0) long
  | .pfstAll d p => shortW .v (formA 0x37 d p 0 0 1) long
  | .vpart d p a g => vL 0x38 d (.reg a) (.reg p) g 14 0 0 0 long
  | .vgath d a b g => vL 0x39 d a b g 14 0 0 0 long
  | .vscat d a b g => vL 0x3A d a b g 14 0 0 0 long
  | .vpack d a w => vL 0x3B d a noV 0 0 0 0 w long
  | .vunpk d a w s => vL 0x3C d a noV 0 0 0 0 (b2n s * 4 + w) long
  | .repV r => shortW .v (repWord 0x3D r) long
  -- M (Table 6.12)
  | .mma n ta tb qa qb kq req pat k =>
    longW .m (formA 0x00 (ccField k) (32 + qa) (32 + qb) req kq)
      (n * 2 ^ 24 + ta.code * 2 ^ 20 + tb.code * 2 ^ 16 + pat) long
  | .mmav n ta tb a b q kq req k =>
    longW .m (formA 0x01 (ccField k) a b req kq)
      (n * 2 ^ 24 + ta.code * 2 ^ 20 + tb.code * 2 ^ 16 + q * 2 ^ 13) long
  | .mzero n k => shortW .m (0x02 * 2 ^ 26 + n * 2 ^ 18 + (k - 1) * 2 ^ 14) long
  | .mrd d n q =>
    let w := 0x03 * 2 ^ 26 + n * 2 ^ 18 + q * 2 ^ 14 + d * 2 ^ 8
    some ⟨.m, w, if long then some (8 * 2 ^ 20) else none⟩
  | .mrdQueue q n t =>
    longW .m (0x03 * 2 ^ 26 + n * 2 ^ 18 + t * 2 ^ 14 + q * 2 ^ 8) (2 ^ 24 + 8 * 2 ^ 20) long
  | .mwr n s q => shortW .m (0x04 * 2 ^ 26 + n * 2 ^ 18 + q * 2 ^ 14 + s * 2 ^ 8) long
  | .mperm d s q rows =>
    longW .m (formA 0x05 0 (32 + q) 0 0 0) (d * 2 ^ 24 + s * 2 ^ 16 + b2n rows) long
  | .mspan cap => shortW .m (formA 0x06 0 0 0 cap 0) long
  | .mqstat set n k layer role =>
    longW .m (0x07 * 2 ^ 26 + n * 2 ^ 18 + (k - 1) * 2 ^ 14) (set * 2 ^ 24 + role * 2 ^ 21 + layer) long
  -- X (Table 6.13)
  | .cpy dv sv a b x => longW .x (formA 0x00 0 a b 0 (b2n dv * 2 + b2n sv)) (copyWord x) long
  | .cpylLd vm a x => longW .x (formA 0x01 0 a 0 0 (b2n vm)) (copyWord x) long
  | .cpylSt vm a x => longW .x (formA 0x01 0 a 0 0 (2 + b2n vm)) (copyWord x) long
  | .cpyn sv a b x => longW .x (formA 0x02 0 a b 0 (b2n sv)) (copyWord x) long
  | .cpyr a b x => longW .x (formA 0x03 0 a b 0 0) (copyWord x) long
  | .cpyrIp b x => longW .x (formA 0x03 0 0 b 0 4) (copyWord x) long
  | .pref a b => shortW .x (formA 0x04 0 a b 0 0) long
  | .flushh a b k => shortW .x (formA 0x05 (ccField k % 32) a b 0 (ccField k / 32)) long
  | .send a b t h urgent k =>
    longW .x (formA 0x06 0 a b 0 0) (t * 2 ^ 26 + h * 2 ^ 20 + b2n urgent * 2 ^ 8 + ccField k * 2 ^ 2) long
  | .ringi a b => shortW .x (formA 0x07 0 a b 0 0) long
  | .ringw a n => longW .x (formA 0x08 0 a 0 0 0) n long
  | .ringr a b => shortW .x (formA 0x09 0 a b 0 0) long
  | .bbset a b => shortW .x (formA 0x0A 0 a b 0 0) long
  | .bbwait a => shortW .x (formA 0x0B 0 a 0 0 0) long
  | .tlbpre a b k => shortW .x (formA 0x0C (ccField k % 32) a b 0 (ccField k / 32)) long
  | .tlblk a b => shortW .x (formA 0x0D 0 a b 0 0) long
  | .tlbul => shortW .x (formA 0x0E 0 0 0 0 0) long
  | .tlbinv s a b => shortW .x (formA 0x0F 0 a b s.code 0) long
  | .qsce => shortW .x (formA 0x10 0 0 0 0 0) long
  -- events have no words
  | .codeLineFetch | .tokenPost .. | .tokenTake .. | .streamRowPush | .markPairRelease
  | .exposedResultLand | .mmaPerform | .spanArbitration | .governorStatAdd
  | .copyGranuleWrite | .copyPerform | .postedWriteLanding | .writeAcknowledgement
  | .networkWriteArrival | .windowReadRequest | .windowReadResponse | .sendArrival
  | .arrivalDelivery | .arrivalTimeout | .sendRefusal | .groupJoinRequest
  | .groupLeaveRequest | .groupAnswer | .barrierArrival | .barrierRelease | .barrierTimeout
  | .groupLostAnswer | .trapEntry | .asyncTrapEntry | .handlerTimeout | .deadlockDetect
  | .drainTimeout | .taskStop | .dieHalt | .dumpWrite | .pageFaultResume | .pageFaultStop
  | .placeInst | .preemption | .saveAreaWrite | .contextRestore | .budgetPeriodStart
  | .budgetExhausted | .tenantStarvation | .powerEvaluation | .gearChangeComplete
  | .gearChangeTimeout | .biasSetComplete | .biasSetTimeout | .biasClearTimeout
  | .biasClearComplete | .chartGearTimeout | .sensorRead | .surveyTick | .railDroop
  | .railFault | .inputLow | .inputRecover | .inputCritical | .flitSend | .tagGroupPad
  | .flitReceive | .taintNotice | .retryRequest | .retryRequestRepeat
  | .retrainAttemptComplete | .retrainAttemptTimeout | .abortFlit | .lossNotice
  | .failureNotice | .keyShareFirst | .keyShareSecond | .keySignature | .keysReady
  | .keyRenewalStart | .uetRetransmitTimeout | .uetGiveUp | .timeMessage | .lockLossUpstream
  | .eyeMarginMeasure | .hostReadShared | .hostReadOwn | .hostWriteBack | .hostDrop
  | .hostRecallAck | .hostRecallTimeout | .hostEnqueue | .hostRead | .hostWrite
  | .hostFlush | .hostInvalidate | .installLegend | .revokePage | .hostTaskStop
  | .hostHalt | .dieReset | .debugArm | .debugStopCommand | .debugResume | .singleStep
  | .stepDone | .stepCancel | .rewriteReq | .attest | .testTile | .selfTestRun
  | .readState | .clearCounts | .retireUnit | .spareDramRow | .clearRepairMap
  | .setThresholds | .scrubPass | .startStage0 | .startStage1 | .startStage2
  | .dieStartTimeout | .timeLockStartTimeout | .romImageWrite | .govbaseValidSet
  | .vdportModeWrite | .errcfgEnable | .errptrRdWrite | .errptrRead | .landcntRead
  | .savepoolWrite | .dumpcfgWrite | .registerWrite | .waittTargetReached | .droopDutyExpiry
  | .dramRowSpareComplete | .flushhPerformed | .tlbprePerformed | .tlbinvPerformed
  | .lossOfSignal | .hostLightReturn | .portRetrainCommand | .portDisableCommand
  | .powerDown => none

/-- The words of an instruction, the short form where it has one (R198); none for an event. -/
def encode (i : Instr) : Option Words := (words i false).orElse fun _ => words i true

/-! ### The decoder -/

/-- The fields of C's words (Table 6.8), not yet checked. -/
def readC (w : Nat) (ext : Option Nat) : Option Instr :=
  let d := fld w 20 6; let a := fld w 14 6; let b := fld w 8 6; let p := fld w 4 4; let m := fld w 0 4
  let i14 := sx 14 (fld w 0 14); let u14 := fld w 0 14; let off := sx 16 (fld w 0 16)
  match w / 2 ^ 26, ext with
  | 0x00, none =>
    match m with
    | 0 => some (.add d a b) | 1 => some (.sub d a b) | 2 => some (.and d a b) | 3 => some (.or d a b)
    | 4 => some (.xor d a b) | 5 => some (.shl d a b) | 6 => some (.shr d a b) | 7 => some (.sra d a b)
    | 8 => some (.min d a b) | 9 => some (.max d a b) | 10 => some (.minn d a b) | 11 => some (.maxn d a b)
    | 12 => some (.slt d a b) | 13 => some (.sltn d a b) | 14 => some (.seq d a b)
    | _ => none
  | 0x01, none =>
    match m with
    | 0 => some (.mul d a b) | 1 => some (.mulh d a b) | 2 => some (.mulhn d a b) | 3 => some (.div d a b)
    | 4 => some (.divn d a b) | 5 => some (.rem d a b) | 6 => some (.remn d a b) | 7 => some (.clz d a)
    | 8 => some (.popc d a) | 9 => some (.mov d a) | 10 => some (.sel d p a b)
    | _ => none
  | 0x02, none => some (.addi d a i14)
  | 0x02, some x => some (.addiLong d a (sx 32 x))
  | 0x03, none => some (.andi d a i14)
  | 0x03, some x => some (.andiLong d a (sx 32 x))
  | 0x04, none => some (.ori d a i14)
  | 0x04, some x => some (.oriLong d a (sx 32 x))
  | 0x05, none => some (.xori d a i14)
  | 0x05, some x => some (.xoriLong d a (sx 32 x))
  | 0x06, none => some (.shli d a u14)
  | 0x07, none => some (.shri d a u14)
  | 0x08, none => some (.srai d a u14)
  | 0x09, none => some (.slti d a i14)
  | 0x09, some x => some (.sltiLong d a (sx 32 x))
  | 0x0A, none => some (.movi d i14)
  | 0x0A, some x => some (.moviLong d (sx 32 x))
  | 0x0B, some x => (Ty.ofCode m).map fun ty => .ld d a (sx 32 x) ty (ordOf p)
  | 0x0C, some x => (Ty.ofCode m).map fun ty => .st d a (sx 32 x) ty (ordOf p)
  | 0x0D, some x =>
    match orderOf x with
    | none => none
    | some o =>
      match m with
      | 0 => some (.amoAdd d a b o) | 1 => some (.amoAnd d a b o) | 2 => some (.amoOr d a b o)
      | 3 => some (.amoXor d a b o) | 4 => some (.amoMin d a b o) | 5 => some (.amoMax d a b o)
      | 6 => some (.amoMinn d a b o) | 7 => some (.amoMaxn d a b o) | 8 => some (.amoSwap d a b o)
      | _ => none
  | 0x0E, some x => (orderOf x).map fun o => .cas d a b (fld x 8 6) o
  | 0x0F, none => (Cond.ofCode (fld w 16 4)).map fun c => .bc c d off
  | 0x10, none => some (.jmp off)
  | 0x11, none => some (.call d off)
  | 0x12, none => some (.loop d off)
  | 0x13, none =>
    match m with
    | 0 => some (.jmpr a) | 1 => some (.callr d a) | 2 => some (.ret a) | 3 => some .eret
    | 4 => some (.sysc b) | 5 => some (.brk b) | 6 => some .idle
    | _ => none
  | 0x14, none => some (.enter u14)
  | 0x15, none => some (.leave u14)
  | 0x16, none =>
    match m with
    | 0 => some (.spush a) | 1 => some (.spop d)
    | _ => none
  | 0x17, none => some (.task d a)
  | 0x18, none =>
    match m with
    | 0 => some .trig | 1 => some .done | 2 => some .rdv | 3 => some (.gjoin a (p = 1))
    | 4 => some (.gleave a) | 5 => some (.gbar a) | 6 => some (.spawn d a b)
    | _ => none
  | 0x19, none =>
    match Engine.ofCode (fld w 11 3), Engine.ofCode (fld w 8 3) with
    | some e, some f => some (.tokp e f (fld w 0 3))
    | _, _ => none
  | 0x1A, none =>
    match Engine.ofCode (fld w 11 3), Engine.ofCode (fld w 8 3) with
    | some e, some f => some (.tokw e f (fld w 0 3))
    | _, _ => none
  | 0x1B, none => some (.ccadd d i14)
  | 0x1C, none => some (.ccwait d u14)
  | 0x1D, none =>
    match m with
    | 0 => (Scope.ofCode p).map .fence
    | 1 => some (.gear b) | 2 => some (.waitt a) | 3 => some (.time d (p = 1))
    | _ => none
  | 0x1E, none =>
    match m with
    | 0 => some (.govstep d a b) | 1 => some (.govrd d a) | 2 => some (.puta d a) | 3 => some (.geta d a)
    | _ => none
  | 0x1F, none => some (.csrr d u14)
  | 0x20, none => some (.csrw d a u14)
  | 0x21, none => some (.csrs d a u14)
  | _, _ => none

/-- The fields of L's words (Table 6.9), not yet checked. -/
def readL (w : Nat) (ext : Option Nat) : Option Instr :=
  let d := fld w 20 6; let a := fld w 14 6; let b := fld w 8 6; let p := fld w 4 4; let m := fld w 0 4
  match w / 2 ^ 26, ext with
  | 0x00, none =>
    match m with
    | 0 => some (.aadd d a b) | 1 => some (.amovg d a)
    | _ => none
  | 0x01, none => some (.aaddi d a (sx 14 (fld w 0 14)))
  | 0x02, none => some (.ashli d a (fld w 0 14))
  | 0x03, none => some (.ldq (d - 32) a (m = 1))
  | 0x04, some x => some (.ldqs (d - 32) a b x (m = 1))
  | 0x05, some x => some (.ldqg (d - 32) a b x (m = 1))
  | 0x06, some x => some (.strm (d - 32) a x)
  | 0x07, some x => some (.strmc (d - 32) a x)
  | 0x08, none =>
    match m with
    | 0 => some (.strmxWait p) | 1 => some (.strmxStop p) | 2 => some (.strmxRem d p)
    | _ => none
  | 0x09, none => some .markL
  | 0x0A, none => some (.repL (repOf w))
  | _, _ => none

/-- The fields of S's words (Table 6.10), not yet checked. -/
def readS (w : Nat) (ext : Option Nat) : Option Instr :=
  let d := fld w 20 6; let a := fld w 14 6; let b := fld w 8 6; let g := fld w 4 4; let m := fld w 0 4
  match w / 2 ^ 26, ext with
  | 0x00, none => some (.sadd d a b)
  | 0x01, none => some (.stq a (b - 32) g (m = 1))
  | 0x01, some x =>
    (StqStat.ofCode (fld x 24 2)).map fun st =>
      .stqLong a (b - 32) g (m = 1) (ccOf (fld x 26 6)) st (fld x 23 1 = 1) (fld x 0 12)
  | 0x02, some x => some (.stqs a b (fld x 3 3) g (m = 1) (fld x 0 2) (ccOf (fld x 26 6)))
  | 0x03, some x => some (.stqx a (b - 32) (fld x 3 3) g (fld x 0 2) (ccOf (fld x 26 6)))
  | 0x04, some x =>
    match RedOp.ofCode (fld x 24 2), Ty.ofCode (fld x 0 5) with
    | some op, some ty => some (.strw a (b - 32) g (m = 1) op ty (ccOf (fld x 26 6)))
    | _, _ => none
  | 0x05, some x =>
    (UpdFn.ofCode (fld w 0 2)).map fun fn =>
      .upd a b (fld x 21 3) g fn (fld w 2 1 = 1) (Rnd.ofCode (fld x 24 2)) (fld x 0 12) (ccOf (fld x 26 6))
  | 0x06, none => some (.wstep (fld w 0 14))
  | 0x07, none => some .markS
  | 0x08, none => some (.repS (repOf w))
  | _, _ => none

/-- The vector operands of V's words: d, a and b with their queue bits. -/
def vOps (w : Nat) (ext : Option Nat) : VLoc × VLoc × VLoc :=
  let x := ext.getD 0
  (vlocOf (fld w 20 6) (fld x 27 1), vlocOf (fld w 14 6) (fld x 26 1), vlocOf (fld w 8 6) (fld x 25 1))

/-- The fields of V's words with a short form or both (Table 6.11), not yet checked. -/
def readV (w : Nat) (ext : Option Nat) : Option Instr :=
  let dn := fld w 20 6; let an := fld w 14 6; let bn := fld w 8 6
  let g := fld w 4 4; let m := fld w 0 4
  let x := ext.getD 0
  let (d, a, b) := vOps w ext
  let ty := Ty.ofCode (fld x 17 1 * 16 + m)
  let cond := if ext.isSome then Cmp.ofCode (fld x 0 3) else some .lt
  let op := RedOp.ofCode bn
  match w / 2 ^ 26 with
  | 0x00 => some (.vadd d a b g)
  | 0x01 => some (.vsub d a b g)
  | 0x02 => some (.vmul d a b g)
  | 0x03 => some (.vfma d a b g)
  | 0x04 => some (.vfms d a b g)
  | 0x05 => some (.vnma d a b g)
  | 0x06 => some (.vmin d a b g)
  | 0x07 => some (.vmax d a b g)
  | 0x08 => some (.vabs d a g)
  | 0x09 => some (.vneg d a g)
  | 0x0A => cond.map fun c => .vcmp c dn a b g
  | 0x0B => some (.vsel d a b g)
  | 0x0C => ty.map fun t => .viadd t d a b g
  | 0x0D => ty.map fun t => .visub t d a b g
  | 0x0E => ty.map fun t => .vimul t d a b g
  | 0x0F => ty.map fun t => .vimad t d a b g
  | 0x10 => ty.map fun t => .vand t d a b g
  | 0x11 => ty.map fun t => .vor t d a b g
  | 0x12 => ty.map fun t => .vxor t d a b g
  | 0x13 => ty.map fun t => .vnot t d a g
  | 0x14 => ty.map fun t => .vshl t d a b g
  | 0x15 => ty.map fun t => .vshr t d a b g
  | 0x16 => ty.map fun t => .vsra t d a b g
  | 0x17 => ty.map fun t => .vimin t d a b g
  | 0x18 => ty.map fun t => .vimax t d a b g
  | 0x19 => match ty, cond with
    | some t, some c => some (.vicmp t c dn a b g)
    | _, _ => none
  | 0x1A => ty.map fun t => .vsadd t d a b g
  | 0x1B => ty.map fun t => .vssub t d a b g
  | 0x1C => some (.vacs d a b g)
  | 0x1D => match Ty.ofCode m, Ty.ofCode (fld x 18 5) with
    | some t, some t' => some (.vcvt t t' (Rnd.ofCode (fld x 23 2)) d a g)
    | _, _ => none
  | 0x1E => (EFmt.ofCode m).map fun f =>
      .vqnt f (fld x 15 2) (Rnd.ofCode (fld x 23 2)) (roleOf (fld x 12 3)) (fld x 0 12) d a
  | 0x1F => some (.vdqnt d a)
  | 0x20 => some (.vdiv d a b g)
  | 0x21 => some (.vsqrt d a g)
  | 0x22 => some (.vrsq d a g)
  | 0x23 => some (.vrcp d a g)
  | 0x24 => some (.vexp2 d a g)
  | 0x25 => some (.vlog2 d a g)
  | 0x26 => some (.vrotr d a bn g)
  | 0x27 => some (.vrotc d a bn g)
  | 0x28 => some (.vbcr d a bn g)
  | 0x29 => some (.vbcc d a bn g)
  | 0x2A => match op, ty with
    | some o, some t => some (.vredr o t d a g)
    | _, _ => none
  | 0x2B => match op, ty with
    | some o, some t => some (.vredc o t d a g)
    | _, _ => none
  | 0x2C => match op, ty with
    | some o, some t => some (.vscnr o t d a g)
    | _, _ => none
  | 0x2D => some (.vmov d a g)
  | 0x2E => some (.vxfer d a g)
  | 0x2F => some (.vmovi dn (match ext with | some x => sx 32 x | none => sx 14 (fld w 0 14)))
  | 0x30 => some (.viota d g)
  | 0x31 =>
    match m with
    | 0 => some (.psetNone dn) | 1 => some (.psetAll dn) | 2 => some (.psetRow dn bn) | 3 => some (.psetCol dn bn)
    | _ => none
  | 0x32 => some (.pand dn an bn (m = 1))
  | 0x33 => some (.por dn an bn (m = 1))
  | 0x34 => some (.pxor dn an bn (m = 1))
  | 0x35 => some (.pnot dn an)
  | 0x36 => some (if m = 0 then .pcntRow dn an else .pcntAll dn an)
  | 0x37 => some (if m = 0 then .pfstRow dn an else .pfstAll dn an)
  | 0x38 => some (.vpart d bn an g)
  | 0x39 => some (.vgath d a b g)
  | 0x3A => some (.vscat d a b g)
  | 0x3B => some (.vpack d a (fld x 0 2))
  | 0x3C => some (.vunpk d a (fld x 0 2) (fld x 2 1 = 1))
  | 0x3D => some (.repV (repOf w))
  | _ => none

/-- The fields of M's words (Table 6.12), not yet checked. -/
def readM (w : Nat) (ext : Option Nat) : Option Instr :=
  let d := fld w 20 6; let a := fld w 14 6; let b := fld w 8 6; let p := fld w 4 4; let m := fld w 0 4
  let n := fld w 18 8
  match w / 2 ^ 26, ext with
  | 0x00, some x =>
    match MTy.ofCode (fld x 20 4), MTy.ofCode (fld x 16 4) with
    | some ta, some tb => some (.mma (fld x 24 8) ta tb (a - 32) (b - 32) m p (fld x 0 16) (ccOf d))
    | _, _ => none
  | 0x01, some x =>
    match MTy.ofCode (fld x 20 4), MTy.ofCode (fld x 16 4) with
    | some ta, some tb => some (.mmav (fld x 24 8) ta tb a b (fld x 13 3) m p (ccOf d))
    | _, _ => none
  | 0x02, none => some (.mzero n (fld w 14 4 + 1))
  | 0x03, none => some (.mrd b n (fld w 14 2))
  | 0x03, some x => some (if fld x 24 1 = 1 then .mrdQueue b n (fld w 14 2) else .mrd b n (fld w 14 2))
  | 0x04, none => some (.mwr n b (fld w 14 2))
  | 0x05, some x => some (.mperm (fld x 24 8) (fld x 16 8) (a - 32) (fld x 0 1 = 1))
  | 0x06, none => some (.mspan p)
  | 0x07, some x => some (.mqstat (fld x 24 8) n (fld w 14 4 + 1) (fld x 0 12) (fld x 21 3))
  | _, _ => none

/-- The fields of X's words (Table 6.13), not yet checked. -/
def readX (w : Nat) (ext : Option Nat) : Option Instr :=
  let d := fld w 20 6; let a := fld w 14 6; let b := fld w 8 6; let p := fld w 4 4; let m := fld w 0 4
  match w / 2 ^ 26, ext with
  | 0x00, some x => some (.cpy (fld w 1 1 = 1) (fld w 0 1 = 1) a b (copyOf x))
  | 0x01, some x =>
    some (if fld w 1 1 = 1 then .cpylSt (fld w 0 1 = 1) a (copyOf x) else .cpylLd (fld w 0 1 = 1) a (copyOf x))
  | 0x02, some x => some (.cpyn (fld w 0 1 = 1) a b (copyOf x))
  | 0x03, some x => some (if fld w 2 1 = 1 then .cpyrIp b (copyOf x) else .cpyr a b (copyOf x))
  | 0x04, none => some (.pref a b)
  | 0x05, none => some (.flushh a b (ccOf (m * 32 + d)))
  | 0x06, some x =>
    some (.send a b (fld x 26 6) (fld x 20 6) (fld x 8 1 = 1) (ccOf (fld x 2 6)))
  | 0x07, none => some (.ringi a b)
  | 0x08, some x => some (.ringw a x)
  | 0x09, none => some (.ringr a b)
  | 0x0A, none => some (.bbset a b)
  | 0x0B, none => some (.bbwait a)
  | 0x0C, none => some (.tlbpre a b (ccOf (m * 32 + d)))
  | 0x0D, none => some (.tlblk a b)
  | 0x0E, none => some .tlbul
  | 0x0F, none => (Scope.ofCode p).map fun s => .tlbinv s a b
  | 0x10, none => some .qsce
  | _, _ => none

/-- The fields of an engine's words, not yet checked. -/
def readWords (e : Engine) (w : Nat) (ext : Option Nat) : Option Instr :=
  match e with
  | .c => readC w ext
  | .l => readL w ext
  | .s => readS w ext
  | .v => readV w ext
  | .m => readM w ext
  | .x => readX w ext

/-- The instruction an engine decodes from a word and its extension word: one whose operands are well formed
and whose own words these are, so that a reserved bit, a reserved value or a form the major does not admit is
never decoded (R195, R196). -/
def decode (e : Engine) (w : Nat) (ext : Option Nat) : Option Instr :=
  match readWords e w ext with
  | none => none
  | some i => if i.wellFormed && words i ext.isSome = some ⟨e, w, ext⟩ then some i else none

/-- A major of an engine that has a short form (Tables 6.8 to 6.13). -/
def admitsShort (e : Engine) (major : Nat) : Bool :=
  match e with
  | .c => major ≤ 0x21 && !(0x0B ≤ major && major ≤ 0x0E)
  | .l => major ≤ 0x0A && !(0x04 ≤ major && major ≤ 0x07)
  | .s => major ≤ 0x08 && !(0x02 ≤ major && major ≤ 0x05)
  | .v => major ≤ 0x3D && !(0x1D ≤ major && major ≤ 0x1F) && !(0x38 ≤ major && major ≤ 0x3C)
  | .m => major = 2 || major = 3 || major = 4 || major = 6
  | .x => 4 ≤ major && major ≤ 0x10 && major ≠ 6 && major ≠ 8

/-- A major of an engine that has a long form (Tables 6.8 to 6.13). -/
def admitsLong (e : Engine) (major : Nat) : Bool :=
  match e with
  | .c => (2 ≤ major && major ≤ 5) || (9 ≤ major && major ≤ 0x0E)
  | .l => 4 ≤ major && major ≤ 7
  | .s => 1 ≤ major && major ≤ 5
  | .v => major ≤ 0x30 || (0x38 ≤ major && major ≤ 0x3C)
  | .m => major ≤ 1 || major = 3 || major = 5 || major = 7
  | .x => major ≤ 3 || major = 6 || major = 8

/-- The engine a route nibble names (Table 6.1). -/
def engineOfRoute : Nat → Option Engine
  | 1 => some .c | 2 => some .l | 3 => some .s | 4 => some .v | 5 => some .m | 6 => some .x
  | _ => none

/-- Lane `k` of a code line whose bits are `w` (R173). -/
def laneOf (w k : Nat) : Nat := fld w (32 * k) 32
/-- The route nibble of lane `k` (R173). -/
def routeOf (w k : Nat) : Nat := fld w (4 * k) 4

/-- The instruction of lane 1 of a code line whose bits, from bit 0 of lane 0, are `w`: the table gives a row no
bits of its own, so its words are read as the code line that holds them (R173). -/
def decodeTableWord (_nbits w : Nat) : Option Instr :=
  if routeOf w 0 = 0xA then
    match engineOfRoute (routeOf w 1) with
    | none => none
    | some e => decode e (laneOf w 1) (if routeOf w 2 = 7 then some (laneOf w 2) else none)
  else none

end Sys2Proof
end

