-- ==== Sys2Proof/Machine/Bits.lean ====
section
/-! DEFINITION. Bit fields, byte order and the finite maps: the helpers every other file of the machine uses. -/
namespace Sys2Proof.Machine

/-! ### Numbers -/

/-- Bits [lo + n − 1 : lo] of a number. -/
def bits (w lo n : Nat) : Nat := w / 2 ^ lo % 2 ^ n
/-- Bit `k` of a number. -/
def bitOf (w k : Nat) : Bool := w / 2 ^ k % 2 = 1
/-- A number with bits [lo + n − 1 : lo] replaced by `v`. -/
def putBits (w lo n v : Nat) : Nat := w - 2 ^ lo * bits w lo n + 2 ^ lo * (v % 2 ^ n)
/-- Bits [lo + n − 1 : lo] of a register value. -/
def wbits (w : Word) (lo n : Nat) : Nat := bits w.toNat lo n
/-- A register value with bits [lo + n − 1 : lo] replaced by `v`. -/
def wput (w : Word) (lo n v : Nat) : Word := BitVec.ofNat 64 (putBits w.toNat lo n v)
/-- A number of `n` bits read as two's complement. -/
def toSigned (n v : Nat) : Int := if v % 2 ^ n < 2 ^ (n - 1) then (v % 2 ^ n : Nat) else (v % 2 ^ n : Nat) - (2 ^ n : Nat)
/-- An integer as the number of `n` bits that holds it. -/
def ofSigned (n : Nat) (i : Int) : Nat := (i % (2 ^ n : Nat)).toNat
/-- An integer held between bounds. -/
def clampI (lo hi i : Int) : Int := if i < lo then lo else if hi < i then hi else i
/-- Quotient rounded up. -/
def ceilDiv (a b : Nat) : Nat := (a + b - 1) / b
/-- The largest power of two not above `n`, for `n` up to 2^16; 0 for 0. -/
def pow2Below (n : Nat) : Nat := if n = 0 then 0 else 2 ^ Nat.log2 n
/-- A power of two from 1 to 4,096 (R269). -/
def isPow2To4096 (n : Nat) : Bool := (List.range 13).any fun k => n = 2 ^ k

/-! ### Bytes, little-endian (R6) -/

/-- The number whose bytes, lowest first, are `l`. -/
def leNat : List Byte → Nat
  | [] => 0
  | b :: r => b.toNat + 256 * leNat r
/-- The `n` lowest bytes of a number, lowest first. -/
def leBytes : Nat → Nat → List Byte
  | 0, _ => []
  | n + 1, v => BitVec.ofNat 8 v :: leBytes n (v / 256)
/-- The `n` bytes of a list from position `o`. -/
def slice (l : List Byte) (o n : Nat) : List Byte := (l.drop o).take n
/-- The number held in `n` bytes from position `o`. -/
def fieldAt (l : List Byte) (o n : Nat) : Nat := leNat (slice l o n)
/-- A list with the bytes from position `o` replaced. -/
def splice (l : List Byte) (o : Nat) (d : List Byte) : List Byte := l.take o ++ d ++ l.drop (o + d.length)
/-- A list padded with zero bytes to length `n`. -/
def padTo (n : Nat) (l : List Byte) : List Byte := l ++ List.replicate (n - l.length) 0
/-- The first `n` entries of a list, `z` for those it lacks. -/
def fit {α : Type} (n : Nat) (z : α) (l : List α) : List α := l.take n ++ List.replicate (n - l.length) z
/-- A list cut into pieces of `n` (the last may be short). -/
def chunks {α : Type} (n : Nat) (l : List α) : List (List α) :=
  (List.range (ceilDiv l.length n)).map fun k => (l.drop (n * k)).take n
/-- The bits of a byte string: bit 8j + k is bit k of byte j (R61). -/
def bitString (l : List Byte) : Nat := leNat l

/-! ### Finite maps -/

/-- The value under a key. -/
def alook {α : Type} (m : Assoc α) (k : Nat) : Option α := (m.find? fun e => e.1 == k).map (·.2)
/-- A map with one key set; keys stay strictly rising. -/
def aset {α : Type} : Assoc α → Nat → α → Assoc α
  | [], k, v => [(k, v)]
  | (k', v') :: r, k, v =>
    if k < k' then (k, v) :: (k', v') :: r
    else if k = k' then (k, v) :: r
    else (k', v') :: aset r k v
/-- A map with one key removed. -/
def adel {α : Type} (m : Assoc α) (k : Nat) : Assoc α := m.filter fun e => e.1 != k
/-- The value under a key of a map that lists no `z`. -/
def zlook {α : Type} (z : α) (m : Assoc α) (k : Nat) : α := (alook m k).getD z
/-- A map that lists no `z` with one key set. -/
def zset {α : Type} [DecidableEq α] (z : α) (m : Assoc α) (k : Nat) (v : α) : Assoc α :=
  if v = z then adel m k else aset m k v
/-- The smallest natural number below `n` that is no key. -/
def freeKey {α : Type} (m : Assoc α) (n : Nat) : Option Nat := (List.range n).find? fun k => (alook m k).isNone

/-! ### Byte maps -/

/-- The byte at an address: zero where none is listed. -/
def memGet (m : List Host.Cell) (a : Nat) : Byte := zlook 0 m a
/-- A byte map with one byte written. -/
def memSet (m : List Host.Cell) (a : Nat) (b : Byte) : List Host.Cell := zset 0 m a b
/-- The `n` bytes from an address. -/
def memRead (m : List Host.Cell) (a : Nat) : Nat → List Byte
  | 0 => []
  | n + 1 => memGet m a :: memRead m (a + 1) n
/-- A byte map with bytes written from an address. -/
def memWrite (m : List Host.Cell) (a : Nat) : List Byte → List Host.Cell
  | [] => m
  | b :: r => memWrite (memSet m a b) (a + 1) r
/-- A byte map with listed bytes written, later ones winning. -/
def memPut (m : List Host.Cell) : List Host.Cell → List Host.Cell
  | [] => m
  | (a, b) :: r => memPut (memSet m a b) r
/-- The entries of a byte map within a range, moved by `- lo + to`. -/
def memCut (m : List Host.Cell) (lo n dst : Nat) : List Host.Cell :=
  (m.filter fun e => lo ≤ e.1 && e.1 < lo + n).map fun e => (e.1 - lo + dst, e.2)
/-- A byte map without the entries of a range. -/
def memClear (m : List Host.Cell) (lo n : Nat) : List Host.Cell := m.filter fun e => !(lo ≤ e.1 && e.1 < lo + n)
/-- The canonical form: addresses strictly rising and no zero byte listed. -/
def memWf : List Host.Cell → Bool
  | [] => true
  | [(_, b)] => b ≠ 0
  | (a, b) :: (a', b') :: r => decide (a < a') && decide (b ≠ 0) && memWf ((a', b') :: r)

/-! ### Lists -/

/-- A list with position `k` replaced. -/
def lset {α : Type} (l : List α) (k : Nat) (v : α) : List α := l.set k v
/-- A list without position `k`. -/
def ldel {α : Type} (l : List α) (k : Nat) : List α := l.eraseIdx k
/-- The least element under a key, the first on a tie. -/
def minBy {α : Type} (f : α → Nat) : List α → Option α
  | [] => none
  | x :: r =>
    match minBy f r with
    | none => some x
    | some y => if f y < f x then some y else some x
/-- The rotating tie-break (R156): the first claimant from index `next` on, counting cyclically over `n`. An arbiter keeps the
index after the one it granted last. -/
def rotate (next n : Nat) (claims : Nat → Bool) : Option Nat :=
  ((List.range n).map fun j => (next + j) % n).find? claims

end Sys2Proof.Machine
end

