-- ==== Sys2Proof/Machine/Flags.lean ====
section
/-! DEFINITION. The arithmetic flags of `aflags` (Table 16.1) as masks, and the flags a rounding sets (R400). -/
namespace Sys2Proof.Machine

def flagInvalid : Nat := 1
def flagDivzero : Nat := 2
def flagOverflow : Nat := 4
def flagUnderflow : Nat := 8
def flagInexact : Nat := 16
def flagCsat : Nat := 32
def flagIsat : Nat := 64
def flagZden : Nat := 128

/-- A flag where a condition holds. -/
def flagIf (b : Bool) (f : Nat) : Nat := if b then f else 0
/-- Flags of several operations together. -/
def orFlags (l : List Nat) : Nat := l.foldl (· ||| ·) 0
/-- Flags a rounding to a floating-point format sets: `large` the result passed the largest finite and became
infinity, `clamped` it was held at the largest finite, `tiny` it was tiny after rounding (R400). -/
def roundFlags (inexact large clamped tiny : Bool) : Nat :=
  flagIf large (flagOverflow ||| flagInexact) ||| flagIf clamped (flagCsat ||| flagInexact)
    ||| flagIf (inexact && !large && !clamped) flagInexact ||| flagIf (tiny && inexact) flagUnderflow
/-- Flags a conversion to an integer sets. -/
def intFlags (inexact clamped : Bool) : Nat := flagIf inexact flagInexact ||| flagIf clamped flagIsat

end Sys2Proof.Machine
end

