-- ==== Sys2Proof/Machine/Float.lean ====
section
/-! DEFINITION. Number formats, exact values, conversion and rounding, and the FP32 helpers (02, R56 to R83). -/
namespace Sys2Proof.Machine

/-! ### Formats (Table 2.1) -/

/-- Which special values a format holds. -/
inductive FKind where
  | ieee | e4m3 | finite
  deriving DecidableEq, Repr
/-- A floating-point format: exponent bits, mantissa bits, bias, special values. -/
structure Fmt where
  e : Nat
  m : Nat
  bias : Nat
  kind : FKind
  deriving DecidableEq, Repr
def fmtF32 : Fmt := ⟨8, 23, 127, .ieee⟩
def fmtBf16 : Fmt := ⟨8, 7, 127, .ieee⟩
def fmtF16 : Fmt := ⟨5, 10, 15, .ieee⟩
def fmtE4m3 : Fmt := ⟨4, 3, 7, .e4m3⟩
def fmtE5m2 : Fmt := ⟨5, 2, 15, .ieee⟩
def fmtE2m3 : Fmt := ⟨2, 3, 1, .finite⟩
def fmtE3m2 : Fmt := ⟨3, 2, 3, .finite⟩
def fmtE2m1 : Fmt := ⟨2, 1, 1, .finite⟩
/-- The code of +infinity where the format has one. -/
def Fmt.inf (f : Fmt) : Nat := (2 ^ f.e - 1) * 2 ^ f.m
/-- The code of the largest finite magnitude. -/
def Fmt.top (f : Fmt) : Nat :=
  match f.kind with
  | .ieee => f.inf - 1
  | .e4m3 => 2 ^ (f.e + f.m) - 2
  | .finite => 2 ^ (f.e + f.m) - 1
/-- The canonical NaN; formats without NaN give +0 (Table 2.6). -/
def Fmt.nan (f : Fmt) : Nat :=
  match f.kind with
  | .ieee => f.inf + 2 ^ (f.m - 1)
  | .e4m3 => 2 ^ (f.e + f.m) - 1
  | .finite => 0
/-- The sign bit. -/
def Fmt.sign (f : Fmt) (neg : Bool) : Nat := if neg then 2 ^ (f.e + f.m) else 0
/-- The exponent of the smallest subnormal. -/
def Fmt.qmin (f : Fmt) : Int := 1 - (f.bias : Int) - f.m

/-- A decoded value: a finite one is ± `m` × 2^`e`. -/
inductive FVal where
  | nan
  | inf (neg : Bool)
  | fin (neg : Bool) (m : Nat) (e : Int)
  deriving DecidableEq, Repr
/-- The value of a code (R56). -/
def Fmt.decode (f : Fmt) (x : Nat) : FVal :=
  let neg := bitOf x (f.e + f.m)
  let c := x % 2 ^ (f.e + f.m)
  let e := c / 2 ^ f.m
  let m := c % 2 ^ f.m
  let special : Option FVal := match f.kind with
    | .ieee => if e = 2 ^ f.e - 1 then some (if m = 0 then .inf neg else .nan) else none
    | .e4m3 => if c = 2 ^ (f.e + f.m) - 1 then some .nan else none
    | .finite => none
  match special with
  | some v => v
  | none => if e = 0 then .fin neg m f.qmin else .fin neg (2 ^ f.m + m) (f.qmin + (e - 1 : Nat))

/-! ### Rounding (R71 to R74) -/

/-- A magnitude m × 2^e, with `sticky` where the exact value lies strictly between m and m + 1 units. -/
structure Mag where
  m : Nat
  e : Int
  sticky : Bool := false
  deriving DecidableEq, Repr
/-- A magnitude as a multiple of 2^`q` under a mode, and whether it had to be rounded; `d` is the draw of R74. -/
def Mag.roundAt (x : Mag) (q : Int) (mode : Rnd) (d : Nat) : Nat × Bool :=
  if q ≤ x.e then (x.m * 2 ^ (x.e - q).toNat, x.sticky)
  else
    let sh := (q - x.e).toNat
    let a := x.m / 2 ^ sh
    let rem := x.m % 2 ^ sh
    let half := 2 ^ (sh - 1)
    let up := match mode with
      | .rz => false
      | .rs => decide (2 ^ 32 ≤ rem * 2 ^ 32 / 2 ^ sh + d)
      | _ => decide (half < rem) || (rem = half && (x.sticky || a % 2 = 1))
    (if up then a + 1 else a, rem ≠ 0 || x.sticky)
/-- The exponent of the leading bit. -/
def Mag.lead (x : Mag) : Int := x.e + Nat.log2 x.m
/-- A magnitude converted to a format: code and flags (R71, R72, R400). A finite magnitude beyond the largest finite is clamped
(Table 2.5), though it may round to that; under `.rs` the magnitude chosen decides (R72). -/
def Fmt.round (f : Fmt) (mode : Rnd) (d : Nat) (neg : Bool) (x : Mag) : Nat × Nat :=
  if x.m = 0 && !x.sticky then (f.sign neg, 0)
  else
    let lead := if x.m = 0 then f.qmin - 2 else x.lead
    let q := max (lead - f.m) f.qmin
    let (r, inexact) := x.roundAt q mode d
    let code := (q - f.qmin).toNat * 2 ^ f.m + r
    let beyond := if mode = .rs then f.top < code else f.top < (q - f.qmin).toNat * 2 ^ f.m + (x.roundAt q .rz d).1 + flagIf inexact 1
    let tiny := decide (lead < 1 - (f.bias : Int))
      && (let (r', _) := x.roundAt (lead - f.m) mode d
          decide (lead < -(f.bias : Int)) || decide (r' < 2 ^ (f.m + 1)))
    let toInf := f.kind = .ieee && (mode = .rn || mode = .rs)
    if !beyond || (toInf && code ≤ f.top) then (f.sign neg + code, roundFlags inexact false false tiny)
    else if toInf then (f.sign neg + f.inf, roundFlags true true false false)
    else (f.sign neg + f.top, roundFlags true false true false)
/-- A value converted to a format (R71 to R73, Table 2.6). -/
def Fmt.convert (f : Fmt) (mode : Rnd) (d : Nat) (v : FVal) : Nat × Nat :=
  match v with
  | .nan => (f.nan, flagIf (f.kind = .finite) flagInvalid)
  | .inf neg =>
    let keep := mode = .rn || mode = .rs
    match f.kind with
    | .ieee => (f.sign neg + (if keep then f.inf else f.top), 0)
    | .e4m3 => (f.sign neg + (if keep then f.nan else f.top), flagInvalid)
    | .finite => (f.sign neg + f.top, flagInvalid)
  | .fin neg m e => f.round mode d neg ⟨m, e, false⟩
/-- A value converted to an integer of `w` bits with `shift` fraction bits (R72, R73, R83). -/
def toInteger (w shift : Nat) (signed : Bool) (mode : Rnd) (d : Nat) (v : FVal) : Nat × Nat :=
  let hi : Int := if signed then 2 ^ (w - 1) - 1 else 2 ^ w - 1
  let lo : Int := if signed then -(2 ^ (w - 1)) else 0
  match v with
  | .nan => (0, flagInvalid)
  | .inf neg => (ofSigned w (if neg then lo else hi), flagInvalid)
  | .fin neg m e =>
    let (r, inexact) := (Mag.mk m e false).roundAt (-(shift : Int)) mode d
    let i : Int := if neg then -(r : Int) else r
    let c := clampI lo hi i
    let t : Int := ((Mag.mk m e false).roundAt (-(shift : Int)) .rz d).1 + if inexact && mode ≠ .rs then 1 else 0
    (ofSigned w c, intFlags inexact (c ≠ i || (if neg then signed && decide (-t < lo) else decide (hi < t))))
/-- The exact value of an integer with `shift` fraction bits. -/
def ofInteger (shift : Nat) (i : Int) : FVal := .fin (i < 0) i.natAbs (-(shift : Int))

/-! ### Stochastic draws (R74, R75) -/

/-- `mix64` (R74). -/
def mix64 (z : Word) : Word :=
  let z := (z ^^^ (z >>> 30)) * 0xBF58476D1CE9E5B9
  let z := (z ^^^ (z >>> 27)) * 0x94D049BB133111EB
  z ^^^ (z >>> 31)
/-- `sr_draw` (R74) under a key. -/
def srDraw (key : Word) (n e k : Nat) : Nat :=
  (mix64 (key + BitVec.ofNat 64 ((n * 65536 + e + 1) * 0x9E3779B97F4A7C15) + BitVec.ofNat 64 (k * 0xD1B54A32D192ED03))).toNat
    / 2 ^ 32

/-! ### FP32 helpers (R69) -/

/-- The value of an FP32 element. -/
def val32 (x : Elem) : FVal := fmtF32.decode x.toNat
/-- The canonical NaN of FP32. -/
def nan32 : Elem := BitVec.ofNat 32 0x7FC00000
def isNan32 (x : Elem) : Bool := val32 x = .nan
/-- A rounded FP32 result. -/
def pack32 (r : Nat × Nat) : Elem × Nat := (BitVec.ofNat 32 r.1, r.2)
/-- `round_fp32` of an exact or special value. -/
def roundFp32 (mode : Rnd) (d : Nat) (v : FVal) : Elem × Nat := pack32 (fmtF32.convert mode d v)
/-- A NaN from operands that held none sets invalid. -/
def freshNan (l : List FVal) : Elem × Nat := (nan32, flagIf (!l.contains .nan) flagInvalid)
/-- A signed exact value. -/
def exact (neg : Bool) (m : Nat) (e : Int) : Int × Int := (if neg then -(m : Int) else m, e)
/-- The exact sum of two finite values; a zero sum is +0 unless both are −0. -/
def sumF (n1 : Bool) (m1 : Nat) (e1 : Int) (n2 : Bool) (m2 : Nat) (e2 : Int) : FVal :=
  let e := min e1 e2
  let s : Int := (exact n1 m1 e1).1 * 2 ^ (e1 - e).toNat + (exact n2 m2 e2).1 * 2 ^ (e2 - e).toNat
  if s = 0 then .fin (n1 && n2) 0 0 else .fin (s < 0) s.natAbs e
/-- The exact sum of two values; infinities of opposite signs give NaN. -/
def addV (a b : FVal) : FVal :=
  match a, b with
  | .nan, _ => .nan
  | _, .nan => .nan
  | .inf n, .inf n' => if n = n' then .inf n else .nan
  | .inf n, .fin .. => .inf n
  | .fin .., .inf n => .inf n
  | .fin n1 m1 e1, .fin n2 m2 e2 => sumF n1 m1 e1 n2 m2 e2
/-- The exact product of two values; infinity times zero gives NaN. -/
def mulV (a b : FVal) : FVal :=
  match a, b with
  | .nan, _ => .nan
  | _, .nan => .nan
  | .inf n, .inf n' => .inf (n != n')
  | .inf n, .fin n' m _ => if m = 0 then .nan else .inf (n != n')
  | .fin n m _, .inf n' => if m = 0 then .nan else .inf (n != n')
  | .fin n1 m1 e1, .fin n2 m2 e2 => .fin (n1 != n2) (m1 * m2) (e1 + e2)
def negV (a : FVal) : FVal :=
  match a with
  | .nan => .nan
  | .inf n => .inf !n
  | .fin n m e => .fin (!n) m e
/-- The FP32 result of an exact value computed from operands. -/
def finish32 (ops : List FVal) (v : FVal) : Elem × Nat :=
  match v with
  | .nan => freshNan ops
  | v => roundFp32 .rn 0 v
/-- `add_fp32`. -/
def addFp32 (a b : Elem) : Elem × Nat := finish32 [val32 a, val32 b] (addV (val32 a) (val32 b))
/-- `sub_fp32`. -/
def subFp32 (a b : Elem) : Elem × Nat := finish32 [val32 a, val32 b] (addV (val32 a) (negV (val32 b)))
/-- `mul_fp32`. -/
def mulFp32 (a b : Elem) : Elem × Nat := finish32 [val32 a, val32 b] (mulV (val32 a) (val32 b))
/-- `fma_fp32`: a × b + c with one rounding. -/
def fmaFp32 (a b c : Elem) : Elem × Nat :=
  finish32 [val32 a, val32 b, val32 c] (addV (mulV (val32 a) (val32 b)) (val32 c))
/-- The sign bit of an element flipped. -/
def neg32 (a : Elem) : Elem := a ^^^ BitVec.ofNat 32 0x80000000
/-- The sign bit of an element cleared. -/
def abs32 (a : Elem) : Elem := a &&& BitVec.ofNat 32 0x7FFFFFFF
/-- The quotient of two magnitudes, with 64 bits beyond the divisor. -/
def quotMag (m1 : Nat) (e1 : Int) (m2 : Nat) (e2 : Int) : Mag :=
  let k := 64 + Nat.log2 (m2 + 1)
  ⟨m1 * 2 ^ k / m2, e1 - e2 - k, m1 * 2 ^ k % m2 ≠ 0⟩
/-- `div_fp32`. -/
def divFp32 (a b : Elem) : Elem × Nat :=
  match val32 a, val32 b with
  | .nan, _ => (nan32, 0)
  | _, .nan => (nan32, 0)
  | .inf _, .inf _ => (nan32, flagInvalid)
  | .inf n, .fin n' _ _ => pack32 (fmtF32.sign (n != n') + fmtF32.inf, 0)
  | .fin n _ _, .inf n' => pack32 (fmtF32.sign (n != n'), 0)
  | .fin n m e, .fin n' m' e' =>
    if m' = 0 then
      if m = 0 then (nan32, flagInvalid) else pack32 (fmtF32.sign (n != n') + fmtF32.inf, flagDivzero)
    else pack32 (fmtF32.round .rn 0 (n != n') (quotMag m e m' e'))
/-- The integer square root, bit by bit from bit `k` − 1. -/
def isqrtFrom (n : Nat) : Nat → Nat → Nat
  | 0, r => r
  | k + 1, r =>
    let t := r + 2 ^ k
    isqrtFrom n k (if t * t ≤ n then t else r)
/-- The integer square root. -/
def isqrt (n : Nat) : Nat := isqrtFrom n (Nat.log2 n / 2 + 1) 0
/-- The square root of a magnitude, with 64 bits beyond it. -/
def sqrtMag (m : Nat) (e : Int) : Mag :=
  let k := 64 + (e % 2).toNat
  let n := m * 2 ^ k
  ⟨isqrt n, (e - k) / 2, isqrt n * isqrt n ≠ n⟩
/-- `sqrt_fp32`. -/
def sqrtFp32 (a : Elem) : Elem × Nat :=
  match val32 a with
  | .nan => (nan32, 0)
  | .inf n => if n then (nan32, flagInvalid) else (a, 0)
  | .fin n m e => if m = 0 then (a, 0) else if n then (nan32, flagInvalid) else pack32 (fmtF32.round .rn 0 false (sqrtMag m e))
/-- An element as a number that orders as the values do, −0 below +0. -/
def key32 (a : Elem) : Int := if a.msb then -((abs32 a).toNat : Int) - 1 else a.toNat
/-- `min` of R69. -/
def minFp32 (a b : Elem) : Elem × Nat :=
  if isNan32 a then (if isNan32 b then nan32 else b, 0) else if isNan32 b then (a, 0)
  else (if key32 a ≤ key32 b then a else b, 0)
/-- `max` of R69. -/
def maxFp32 (a b : Elem) : Elem × Nat :=
  if isNan32 a then (if isNan32 b then nan32 else b, 0) else if isNan32 b then (a, 0)
  else (if key32 a ≤ key32 b then b else a, 0)
/-- An element compares below another: false with a NaN; −0 equals +0. -/
def ltFp32 (a b : Elem) : Bool :=
  !isNan32 a && !isNan32 b && decide (key32 a < key32 b) && !((abs32 a) = 0 && (abs32 b) = 0)
/-- An element compares equal to another. -/
def eqFp32 (a b : Elem) : Bool := !isNan32 a && !isNan32 b && (a = b || ((abs32 a) = 0 && (abs32 b) = 0))

/-! ### Special functions (R70, Table 2.4) -/

/-- `VRCP`. -/
def rcpFp32 (a : Elem) : Elem × Nat := divFp32 (BitVec.ofNat 32 0x3F800000) a
/-- `VRSQ`: 1 / √x from the root of the reciprocal. -/
def rsqFp32 (a : Elem) : Elem × Nat :=
  match val32 a with
  | .nan => (nan32, 0)
  | .inf n => if n then (nan32, flagInvalid) else (0, 0)
  | .fin n m e =>
    if m = 0 then pack32 (fmtF32.sign n + fmtF32.inf, flagDivzero)
    else if n then (nan32, flagInvalid)
    else
      let k := 128 + Nat.log2 (m + 1) + ((e + Nat.log2 (m + 1)) % 2).toNat
      let y := 2 ^ k / m
      pack32 (fmtF32.round .rn 0 false ⟨isqrt y, (-e - k) / 2, isqrt y * isqrt y ≠ y || 2 ^ k % m ≠ 0⟩)
/-- Fraction bits of the transcendental series. -/
def seriesBits : Nat := 192
/-- ln 2 in units of 2^-192, truncated: Σ 1 / (k 2^k). -/
def ln2Fixed : Nat :=
  ((List.range 200).map fun j => 2 ^ (seriesBits + 8) / ((j + 1) * 2 ^ (j + 1))).sum / 2 ^ 8
/-- The exponential series of `f` (in units of 2^-192): 60 terms from term `k`. -/
def expSeries (f : Nat) : Nat → Nat → Nat → Nat
  | 0, _, _ => 0
  | n + 1, k, t => t + expSeries f n (k + 1) (t * f / 2 ^ seriesBits / (k + 1))
/-- 2^(f / 2^192) in units of 2^-192, for f < 2^192. -/
def exp2Fixed (f : Nat) : Nat := expSeries (f * ln2Fixed / 2 ^ seriesBits) 60 0 (2 ^ seriesBits)
/-- `VEXP2`: exact at integers, otherwise the series, whose error lies far below any tie of FP32. -/
def exp2Fp32 (a : Elem) : Elem × Nat :=
  match val32 a with
  | .nan => (nan32, 0)
  | .inf n => if n then (0, 0) else (a, 0)
  | .fin n m e =>
    if m = 0 then (BitVec.ofNat 32 0x3F800000, 0)
    else
      let lead : Int := e + Nat.log2 m
      if 8 ≤ lead then
        if n then (0, flagUnderflow ||| flagInexact) else pack32 (fmtF32.inf, flagOverflow ||| flagInexact)
      else if lead < -60 then (BitVec.ofNat 32 0x3F800000, flagInexact)
      else
        let x : Int := (exact n m e).1 * 2 ^ (e + seriesBits).toNat
        let i := x / 2 ^ seriesBits
        let f := (x % 2 ^ seriesBits).toNat
        if i < -150 then (0, flagUnderflow ||| flagInexact)
        else if 128 ≤ i then pack32 (fmtF32.inf, flagOverflow ||| flagInexact)
        else pack32 (fmtF32.round .rn 0 false ⟨exp2Fixed f, i - seriesBits, f ≠ 0⟩)
/-- The series of atanh: Σ z^(2j+1) / (2j+1), from term `k`, `t` = z^k. -/
def atanhSeries (zz : Nat) : Nat → Nat → Nat → Nat
  | 0, _, _ => 0
  | n + 1, k, t => t / k + atanhSeries zz n (k + 2) (t * zz / 2 ^ seriesBits)
/-- log2 of m / 2^b, for 2^b ≤ m < 2^(b+1), in units of 2^-192. -/
def log2Fixed (m b : Nat) : Nat :=
  let z := (m - 2 ^ b) * 2 ^ seriesBits / (m + 2 ^ b)
  2 * atanhSeries (z * z / 2 ^ seriesBits) 64 1 z * 2 ^ seriesBits / ln2Fixed
/-- `VLOG2`: exact at powers of two, otherwise the series. -/
def log2Fp32 (a : Elem) : Elem × Nat :=
  match val32 a with
  | .nan => (nan32, 0)
  | .inf n => if n then (nan32, flagInvalid) else (a, 0)
  | .fin n m e =>
    if m = 0 then pack32 (fmtF32.sign true + fmtF32.inf, flagDivzero)
    else if n then (nan32, flagInvalid)
    else
      let b := Nat.log2 m
      let k : Int := e + b
      if m = 2 ^ b then roundFp32 .rn 0 (ofInteger 0 k)
      else
        let v : Int := k * 2 ^ seriesBits + log2Fixed m b
        if 0 ≤ v then pack32 (fmtF32.round .rn 0 false ⟨v.toNat, -(seriesBits : Int), true⟩)
        else pack32 (fmtF32.round .rn 0 true ⟨(-v).toNat - 1, -(seriesBits : Int), true⟩)

end Sys2Proof.Machine
end

