-- ==== Sys2Proof/Machine/Blocks.lean ====
section
/-! DEFINITION. Elements and blocks: decoding, the choice of a block scale, settings and the re-encoding of rows
(02, R59 to R63, R65, R76 to R78; 03, R108). -/
namespace Sys2Proof.Machine

/-! ### Elements of blocks (Table 2.3) -/

/-- Bits of an element. -/
def efmtWidth : EFmt → Nat
  | .e4m3 | .e5m2 | .i8 => 8
  | .e2m3 | .e3m2 => 6
  | .e2m1 | .i4 => 4
  | .i2 => 2
/-- The floating-point format of an element, or the fraction bits of an integer one. -/
def efmtKind : EFmt → Fmt ⊕ Nat
  | .e4m3 => .inl fmtE4m3 | .e5m2 => .inl fmtE5m2 | .e2m3 => .inl fmtE2m3 | .e3m2 => .inl fmtE3m2
  | .e2m1 => .inl fmtE2m1 | .i8 => .inr 6 | .i4 => .inr 2 | .i2 => .inr 0
/-- The width class of a block format (Table 2.3). -/
def efmtClass : EFmt → Nat
  | .e2m1 | .i4 => 4
  | .i2 => 2
  | _ => 8
/-- The value of an element (Table 2.3). -/
def efmtDecode (f : EFmt) (x : Nat) : FVal :=
  match efmtKind f with
  | .inl g => g.decode x
  | .inr sh => ofInteger sh (toSigned (efmtWidth f) x)
/-- A value converted to an element. -/
def efmtEncode (f : EFmt) (mode : Rnd) (d : Nat) (v : FVal) : Nat × Nat :=
  match efmtKind f with
  | .inl g => g.convert mode d v
  | .inr sh => toInteger (efmtWidth f) sh true mode d v
/-- The largest element magnitude (Table 2.3). -/
def efmtLargest (f : EFmt) : Mag :=
  match efmtKind f with
  | .inl g => match g.decode g.top with
    | .fin _ m e => ⟨m, e, false⟩
    | _ => ⟨1, 0, false⟩
  | .inr sh => ⟨2 ^ (efmtWidth f - 1) - 1, -(sh : Int), false⟩

/-! ### Blocks (R61) -/

/-- Bytes of a block of `n` elements. -/
def blockBytes (f : EFmt) (n : Nat) : Nat := 2 + n * efmtWidth f / 8
/-- The format byte of a block. -/
def formatByte (f : EFmt) (n : Nat) : Nat := (if n = 16 then 1 else if n = 64 then 2 else 0) * 16 + f.code
/-- A format byte read (Table 2.2): none where a bit or a code is reserved. -/
def readHeader (b : Nat) : Option (EFmt × Nat) :=
  if b / 64 ≠ 0 then none
  else
    match EFmt.ofCode (b % 16), b / 16 % 4 with
    | some f, 0 => some (f, 32)
    | some f, 1 => some (f, 16)
    | some f, 2 => some (f, 64)
    | _, _ => none
/-- The element codes of a payload. -/
def payloadCodes (f : EFmt) (n : Nat) (payload : List Byte) : List Nat :=
  let x := bitString payload
  (List.range n).map fun i => bits x (efmtWidth f * i) (efmtWidth f)
/-- The payload of element codes, unused bits zero. -/
def packCodes (f : EFmt) (n : Nat) (codes : List Nat) : List Byte :=
  let x := codes.zipIdx.foldl (fun a (c, i) => a + c % 2 ^ efmtWidth f * 2 ^ (efmtWidth f * i)) 0
  leBytes (n * efmtWidth f / 8) x
/-- A value times 2^`s`. -/
def scaleV (s : Int) (v : FVal) : FVal :=
  match v with
  | .fin n m e => .fin n m (e + s)
  | v => v
/-- The decoded value of an element under a scale (R62): scale 0xFF gives NaN. -/
def scaled (f : EFmt) (scale c : Nat) : FVal := if scale = 0xFF then .nan else scaleV (scale - 127 : Int) (efmtDecode f c)
/-- The values of a block's bytes, given its format. -/
def blockValues (f : EFmt) (n : Nat) (b : List Byte) : List FVal :=
  (payloadCodes f n (b.drop 2)).map (scaled f (fieldAt b 1 1))

/-! ### The block scale (R76) -/

/-- A magnitude is at most another. -/
def Mag.le (a b : Mag) : Bool :=
  let e := min a.e b.e
  a.m * 2 ^ (a.e - e).toNat ≤ b.m * 2 ^ (b.e - e).toNat
/-- The largest magnitude of finite values. -/
def amax (l : List FVal) : Mag :=
  l.foldl (fun a v => match v with
    | .fin _ m e => if m = 0 || Mag.le ⟨m, e, false⟩ a then a else ⟨m, e, false⟩
    | _ => a) ⟨0, 0, false⟩
/-- The exponent of the scale of a block: the least that keeps the maximum in range, held to −127 to 127. -/
def scaleExp (f : EFmt) (a : Mag) : Int :=
  if a.m = 0 then 0
  else
    let s := a.lead - (efmtLargest f).lead
    clampI (-127) 127 (if Mag.le a ⟨(efmtLargest f).m, (efmtLargest f).e + s, false⟩ then s else s + 1)
def isFin : FVal → Bool
  | .fin .. => true
  | _ => false
/-- A quantised block: its bytes, and per element the value stored and the flags of its conversion. -/
structure Quantised where
  bytes : List Byte
  elems : List (FVal × Nat)
  deriving DecidableEq, Repr
/-- `quantise_block` (R76); `draw` gives the draw of each element. A block with a NaN or an infinity gets scale 0xFF,
each infinity setting invalid (R400). A short block keeps its unused payload bits zero (R77). -/
def quantiseBlock (f : EFmt) (n : Nat) (mode : Rnd) (draw : Nat → Nat) (v : List FVal) : Quantised :=
  if v.any fun x => !isFin x then
    { bytes := leBytes 1 (formatByte f n) ++ leBytes 1 0xFF ++ packCodes f n []
      elems := v.map fun x => (.nan, match x with
        | .inf _ => flagInvalid
        | _ => 0) }
  else
    let s := scaleExp f (amax v)
    let q := v.zipIdx.map fun (x, i) => efmtEncode f mode (draw i) (scaleV (-s) x)
    { bytes := leBytes 1 (formatByte f n) ++ leBytes 1 (s + 127).toNat ++ packCodes f n (q.map (·.1))
      elems := q.map fun (c, fl) => (scaled f (s + 127).toNat c, fl) }

/-! ### Settings (Table 3.12) -/

/-- An encoding of a tensor: plain elements of a type, or blocks. -/
inductive Setting where
  | plain (ty : Ty)
  | block (f : EFmt) (n : Nat)
  deriving DecidableEq, Repr
/-- A setting byte read: none where it is reserved. -/
def settingOf (b : Nat) : Option Setting :=
  if b / 64 = 0 then
    match b with
    | 0 => some (.plain .f32) | 1 => some (.plain .bf16) | 2 => some (.plain .f16) | 3 => some (.plain .e4m3)
    | 4 => some (.plain .e5m2) | 5 => some (.plain .i8) | 6 => some (.plain .i16) | 7 => some (.plain .i32)
    | _ => none
  else if b / 64 = 1 then (readHeader (b % 64)).map fun x => .block x.1 x.2
  else none
/-- Bytes of a plain element. -/
def plainBytes : Ty → Nat
  | .f32 | .i32 => 4
  | .bf16 | .f16 | .i16 => 2
  | _ => 1
/-- The floating-point format of a type. -/
def tyFmt : Ty → Option Fmt
  | .f32 => some fmtF32 | .bf16 => some fmtBf16 | .f16 => some fmtF16 | .e4m3 => some fmtE4m3
  | .e5m2 => some fmtE5m2 | .e2m3 => some fmtE2m3 | .e3m2 => some fmtE3m2 | .e2m1 => some fmtE2m1
  | _ => none
/-- Width of an integer type and whether it is signed. -/
def tyInt : Ty → Option (Nat × Bool)
  | .i8 => some (8, true) | .i16 => some (16, true) | .i32 => some (32, true) | .i64 => some (64, true)
  | .b8 => some (8, false) | .b16 => some (16, false) | .b32 => some (32, false) | .b64 => some (64, false)
  | _ => none
/-- The exact value of a code of a type. -/
def tyDecode (t : Ty) (x : Nat) : FVal :=
  match tyFmt t with
  | some f => f.decode x
  | none => match tyInt t with
    | some (w, s) => ofInteger 0 (if s then toSigned w x else (x % 2 ^ w : Nat))
    | none => .fin false 0 0
/-- A value converted to a type (R82). -/
def tyEncode (t : Ty) (mode : Rnd) (d : Nat) (v : FVal) : Nat × Nat :=
  match tyFmt t with
  | some f => f.convert mode d v
  | none => match tyInt t with
    | some (w, s) => toInteger w 0 s mode d v
    | none => (0, 0)
/-- Bytes of an encoded row of `n` elements (R61, R102). -/
def Setting.rowBytes : Setting → Nat → Nat
  | .plain t, n => plainBytes t * n
  | .block f k, n => blockBytes f k * ceilDiv n k
/-- The width class of a setting (R153). -/
def Setting.cls : Setting → Nat
  | .plain t => if plainBytes t = 1 then 8 else 16
  | .block f _ => efmtClass f
/-- The values of an encoded row of `n` elements; none where a block's header is not the setting's (R61 to R63). -/
def Setting.decodeRow (s : Setting) (n : Nat) (b : List Byte) : Option (List FVal) :=
  match s with
  | .plain t => some ((List.range n).map fun i => tyDecode t (fieldAt b (plainBytes t * i) (plainBytes t)))
  | .block f k =>
    let bs := chunks (blockBytes f k) (b.take (s.rowBytes n))
    if bs.all fun x => readHeader (fieldAt x 0 1) = some (f, k) then some ((bs.flatMap (blockValues f k)).take n)
    else none
/-- An encoded row under `.rn`: its bytes, and per element the value stored and the flags (R77). -/
def Setting.encodeRow (s : Setting) (v : List FVal) : Quantised :=
  match s with
  | .plain t =>
    let q := v.map fun x => tyEncode t .rn 0 x
    { bytes := q.flatMap fun x => leBytes (plainBytes t) x.1, elems := q.map fun x => (tyDecode t x.1, x.2) }
  | .block f k =>
    let bs := (chunks k v).map (quantiseBlock f k .rn fun _ => 0)
    { bytes := bs.flatMap (·.bytes), elems := bs.flatMap (·.elems) }

/-! ### Statistics (R164) -/

/-- |a|² or (a − b)² of finite values in units of 2^-64, truncated. -/
def fixed64 (v : FVal) : Nat :=
  match v with
  | .fin _ m e =>
    let e2 : Int := 2 * e + 64
    if 0 ≤ e2 then m * m * 2 ^ e2.toNat else m * m / 2 ^ (-e2).toNat
  | _ => 0
/-- The difference of two values. -/
def diffV (a b : FVal) : FVal := addV a (negV b)
/-- What quantised values add: lost, kept, elements, saturation, underflow (R165, R288). -/
structure ElemStat where
  lost : Nat := 0
  kept : Nat := 0
  elements : Nat := 0
  sat : Nat := 0
  under : Nat := 0
  deriving DecidableEq, Repr
def isZeroV : FVal → Bool
  | .fin _ 0 _ => true
  | _ => false
/-- The statistics of one value, the value stored and its flags. -/
def elemStat (v q : FVal) (fl : Nat) : ElemStat :=
  { lost := fixed64 (diffV v q), kept := fixed64 q, elements := 1
    sat := if (fl &&& (flagCsat ||| flagIsat)) ≠ 0 then 1 else 0
    under := if isZeroV q && !isZeroV v then 1 else 0 }
def ElemStat.add (a b : ElemStat) : ElemStat :=
  { lost := a.lost + b.lost, kept := a.kept + b.kept, elements := a.elements + b.elements, sat := a.sat + b.sat
    under := a.under + b.under }
/-- The statistics of the values of one block, or of one plain value: with a NaN or an infinity among them, lost is
saturated and kept gets nothing (R288). -/
def blockStat (v : List FVal) (q : List (FVal × Nat)) : ElemStat :=
  if v.all isFin && q.all fun x => isFin x.1 then (v.zip q).foldl (fun a (x, y, fl) => a.add (elemStat x y fl)) {}
  else { lost := 2 ^ 128 - 1, elements := v.length }
/-- The statistics of a row of values encoded under a setting. -/
def rowStat (s : Setting) (v : List FVal) (q : List (FVal × Nat)) : ElemStat :=
  let k := match s with
    | .plain _ => 1
    | .block _ n => n
  ((chunks k v).zip (chunks k q)).foldl (fun a (x, y) => a.add (blockStat x y)) {}

end Sys2Proof.Machine
end

