-- ==== Sys2Proof/Config.lean ====
section
/-! DEFINITION. What an implementation fixes and the manual leaves open: constants without a body,
so that nothing can be proved of their values. -/
namespace Sys2Proof.Config

/-- A free 64-bit value: whatever the hardware leaves where the manual calls a value undefined (R12). -/
opaque freeWord : Nat → Word
/-- A free choice: old or new value of an element read before its bound (R281, R297, R242). -/
opaque freeBool : Nat → Bool
/-- A free natural number: measured or estimated quantities (power, energy, wear), by a running number. -/
opaque freeNat : Nat → Nat
/-- What a matrix span draws at a gear, in mW (R349, R350), and what the bias of a cluster adds in leakage, in W (R345, R346). -/
opaque spanPower : Nat → Nat
opaque biasPower : Nat
/-- The power controller's estimate of a die's power, in W, from the activity counts and the gear, clock and bias of its tiles
(R346). -/
opaque powerEstimate : List Nat → Nat
/-- The bank a memory controller keeps a byte in, and the row (R479 to R481 give the numbering, not the mapping). -/
opaque dramBank : Nat → Nat
opaque dramRow : Nat → Nat
/-- The array, row and column of a cell of a unit, by its address in the unit (R408). -/
opaque arrayCell : Nat → Nat → Nat × Nat × Nat
/-- What a byte of memory holds after its die has lost its contents for the n-th time. -/
opaque lostByte : Nat → Nat → Nat
/-- The physical range of a memory channel of a die: offset and bytes (R485). -/
opaque channelRange : Nat → Nat × Nat
/-- The transport fields of a packet between modules (R332). -/
opaque uetFields : Nat → Nat → Nat → List Byte
/-- The key that a direction of a link has after start stage 1. -/
opaque startKey : Nat → Nat
/-- The private Ed25519 identity keys of the parts: of a die by its number, and of the host (R329, R367); and the public
maintenance key (R486). -/
opaque identityKey : Nat → Nat
opaque maintenanceKey : Nat
/-- Fused (R366): vendor keys by slot, whether each is revoked, the least security version; the size of the image region,
and the images that flash holds where none has been written. -/
opaque vendorKey : Nat → Nat
opaque vendorRevoked : Nat → Bool
opaque fusedVersion : Nat
opaque imageRegion : Nat
opaque factoryImage : Nat → List Byte

end Sys2Proof.Config
end

