-- ==== Sys2Proof/Machine/State.lean ====
section
/-! DEFINITION. The state of the system as plain data: contexts, tiles, dies, memory, packets on the way, and the
schedule that says which part moves next. A place is named by the bits of `ctxid` (Table 1.4):
module × 2^26 + die × 2^22 + tile × 2^15 + slot × 2^12. -/
namespace Sys2Proof.Machine

/-- A canonical byte map: addresses strictly rising, no zero byte listed (an unlisted byte reads 0). -/
abbrev Mem := List Host.Cell

/-- Context states of Table 1.2 (a saved context is a save area, not a slot). -/
inductive Phase where
  | empty | running | dormant
  deriving DecidableEq, Repr

/-- One distributed instruction in an engine queue (Table 1.6): a long one takes two of the 64 entries. -/
structure Entry where
  word : Nat
  ext : Option Nat := none
  /-- placed by a C instruction (`TOKP`, `TOKW`, `RDV`, `PUTA`) -/
  marker : Bool := false
  /-- command sequence number (R363) -/
  seq : Nat := 0
  lane : Nat := 1
  /-- address of the code line that held it -/
  line : Word := 0
  /-- n of R74 for a `.rs` instruction -/
  rsN : Nat := 0
  /-- values C has supplied (R185, R242) -/
  vals : Option (List Word) := none
  deriving DecidableEq, Repr

/-- The entry being issued: what a meaning knows of its own place in the stream. -/
structure Issue where
  seq : Nat := 0
  lane : Nat := 1
  line : Word := 0
  rsN : Nat := 0
  vals : Option (List Word) := none
  marker : Bool := false
  /-- iteration index of a repeat (R250) -/
  k : Nat := 0
  deriving DecidableEq, Repr

/-- Repeat state of an engine (R33, Table 1.7): iterations remaining, index of the next one, step mask. -/
structure RepState where
  active : Bool := false
  remaining : Nat := 0
  k : Nat := 0
  mask : Nat := 0
  deriving DecidableEq, Repr

/-- A row of a load or store queue with its row tag (R257, R279). -/
structure Row where
  data : List Byte
  tag : Nat := 0
  /-- 32-bit elements that hold an error, 2 × element + 1 where it is uncorrected (R408) -/
  bad : List Nat := []
  deriving DecidableEq, Repr

/-- A live stream binding (Table 1.6, R253, R254): the descriptor as read, queue, kind, rows pushed, snapshot. -/
structure Stream where
  desc : List Byte
  queue : Nat
  contour : Bool
  pushed : Nat := 0
  snap : Option (List Byte) := none
  seq : Nat := 0
  deriving DecidableEq, Repr

/-- A translation: page base, size code of Table 3.13, and the w and x bits. -/
structure Tlb where
  tenant : Nat
  vbase : Nat
  size : Nat
  pbase : Nat
  w : Bool
  x : Bool
  deriving DecidableEq, Repr

/-- A copy in its slot (R266, Table 1.8). `kind`: 1 `CPY`, 2 `CPYL`, 3 `CPYN`, 4 `CPYR`. -/
structure Copy where
  kind : Nat
  /-- source and destination addresses of the next byte; of `CPYL` the addresses of its two sides; of `CPYR` the row
  selector with its first row advanced -/
  src : Word
  dst : Word
  /-- bytes (rows, for `CPYR`) not yet moved, and bytes moved -/
  rest : Nat
  moved : Nat := 0
  layout : Nat := 0
  cc : Option Nat := none
  /-- window-0 offset of the ring slot, and the claim number it holds -/
  ring : Option Nat := none
  claim : Nat := 0
  /-- byte barrier: its offset in the destination's window -/
  bb : Option Nat := none
  srcVm : Bool := false
  dstVm : Bool := false
  store : Bool := false
  packed : Bool := false
  inPlace : Bool := false
  /-- `winbase` and step of each window it goes through, as read at issue (R267) -/
  wins : Assoc (Nat × Nat) := []
  aux : Word := 0
  snap : Option (List Byte) := none
  seq : Nat := 0
  /-- granules sent and not yet acknowledged, and refused bytes -/
  unacked : Nat := 0
  refused : Nat := 0
  /-- granules, by their offset from the copy's start: those beyond `moved` that are written, those whose bytes are asked for
  through a window, and those whose bytes have come (R136: they follow no order) -/
  done : List Nat := []
  reading : List Nat := []
  data : Assoc (List Byte) := []
  /-- the whole source is read first, and what was read (R136) -/
  ahead : Bool := false
  whole : Option (List Byte) := none
  /-- source and destination overlap where the overlapped bytes are undefined (R266) -/
  loose : Bool := false
  deriving DecidableEq, Repr

/-- An issued X operation not yet performed (R145, R272). -/
inductive XOp where
  | flushh (ranges : List (Nat × Nat)) (cc : Option Nat) (seq : Nat)
  /-- the range, and its entry in X's queue -/
  | tlbpre (lo len : Nat) (cc : Option Nat) (x : Entry)
  | tlbinv (scope : Scope) (lo len : Nat) (seq : Nat)
  deriving DecidableEq, Repr

/-- An issued matrix instruction (R298): the spans it holds, since when, and the rows it has taken. -/
structure MOp where
  instr : Instr
  seq : Nat := 0
  spans : Nat := 0
  rowsA : List Row := []
  rowsB : List Row := []
  /-- since when its spans are not yet charged (R160) -/
  since : Nat := 0
  deriving DecidableEq, Repr

/-- Where an exposed result will land (R281, R307). -/
inductive ExpDest where
  | reg (v : Nat)
  | queue (q : Nat)
  deriving DecidableEq, Repr

/-- An exposed result on its way: the enabled elements and their new values. -/
structure Exposed where
  dest : ExpDest
  mask : BitVec 1024
  data : List Elem
  eng : Engine
  seq : Nat := 0
  /-- cycles its instance will have run when it is written for every reader, by the bound of Table 6.14 -/
  bound : Nat := 0
  /-- elements the other of V and M has written since, in no order with it (R297) -/
  raced : BitVec 1024 := 0
  deriving DecidableEq, Repr

/-- An element of a vector register (`array` 0) or of an accumulator (1) that holds an error (R408). -/
structure BadElem where
  array : Nat
  reg : Nat
  elem : Nat
  uncorrected : Bool
  deriving DecidableEq, Repr

/-- A register write of V whose beats are under way (R280, R297): the elements written, what they held, and the cycles its
instance will have run when the last beat has passed. -/
structure VWrite where
  reg : Nat
  mask : BitVec 1024
  old : List Elem
  till : Nat
  deriving DecidableEq, Repr

/-- A C store that is issued and not yet performed (R129): its key, its bytes and its position. -/
structure Pending where
  key : Nat
  data : List Byte
  seq : Nat
  deriving DecidableEq, Repr

/-- An addition on its way to the governor table (R164, R165). -/
structure StatAdd where
  tenant : Nat
  layer : Nat
  role : Nat
  lost : Nat := 0
  kept : Nat := 0
  part : Nat := 0
  whole : Nat := 0
  elements : Nat := 0
  sat : Nat := 0
  under : Nat := 0
  nans : Nat := 0
  first : Nat := 0
  eng : Engine
  seq : Nat := 0
  /-- the counter that falls when the addition is performed -/
  cc : Option Nat := none
  deriving DecidableEq, Repr

/-- A trap that is due (R377, R382): the fields of `trapcause`, `tval` and `epc`. -/
structure Trap where
  cls : Nat
  code : Nat
  eng : Nat := 0
  lane : Nat := 0
  seq : Nat := 0
  tval : Word := 0
  epc : Word := 0
  /-- of a data-format fault: subkind (Table 16.8), address and value of its record -/
  sub : Nat := 0
  addr : Nat := 0
  value : Nat := 0
  /-- the record already written of the condition it reports -/
  recNo : Option Nat := none
  /-- datum time of detection (R387) -/
  time : Nat := 0
  /-- the reported instruction is performed by the entry itself: `SYSC` and `BRK` (R220) -/
  own : Bool := false
  deriving DecidableEq, Repr

/-- Why a context stops issuing until it is drained: pre-emption (reason), stop (reason), debug. -/
inductive Due where
  /-- with the tenant that the save is charged to (R48) -/
  | preempt (reason : Nat) (payer : Option Nat)
  | stop (reason : Nat)
  | debug (cause : Nat)
  deriving DecidableEq, Repr

/-- An outstanding page fault of a context (R411, R412). -/
structure PageFault where
  number : Nat
  /-- the operation may walk again though the number is outstanding: after a restore (R412) -/
  retry : Bool := false
  deriving DecidableEq, Repr

/-- Accounts of an instance or a task (R353 to R355): energy in nJ, cycles in MHz × ns, datum time in ns while running, and the
time under each throttle reason in quarters of reference cycles of 0.5 ns. -/
structure Acct where
  energy : Nat := 0
  cycles : Nat := 0
  ran : Nat := 0
  thermal : Nat := 0
  slope : Nat := 0
  cap : Nat := 0
  gear : Nat := 0
  budget : Nat := 0
  deriving DecidableEq, Repr

/-- The value a control register held before the write at position `seq` (R247). -/
structure CsrOld where
  num : Nat
  seq : Nat
  old : Word
  deriving DecidableEq, Repr

/-- The state a context owns (R19), whether in a slot or focused. -/
structure Ctx where
  phase : Phase := .empty
  /-- `g1`–`g63` (R204), listed where not zero -/
  g : Assoc Word := []
  /-- `a0`–`a31` (R249) -/
  a : Assoc Word := []
  /-- control registers by number (Table 7.5) -/
  csr : Assoc Word := []
  /-- completion counters (R30) -/
  cc : Assoc Nat := []
  /-- token channels (R28), by 64 × source + 8 × destination + channel (engine codes) -/
  tok : Assoc Nat := []
  fetch : Word := 0
  /-- a line-ending instruction has been distributed and not performed (R178) -/
  fetchHold : Bool := false
  qC : List Entry := []
  qL : List Entry := []
  qS : List Entry := []
  qV : List Entry := []
  qM : List Entry := []
  qX : List Entry := []
  /-- handler queue (R378) -/
  hq : List Entry := []
  lq : Assoc (List Row) := []
  sq : Assoc (List Row) := []
  strm : Assoc Stream := []
  v : Assoc (List Elem) := []
  p : Assoc (BitVec 1024) := []
  acc : Assoc (List Elem) := []
  accUnits : Nat := 0
  accBase : Nat := 0
  spad : Mem := []
  spadUnits : Nat := 0
  spadBase : Nat := 0
  /-- membership k holds this group id (R38) -/
  grp : Assoc Nat := []
  chartGrp : Option Nat := none
  repL : RepState := {}
  repS : RepState := {}
  repV : RepState := {}
  /-- copies by slot (R266) -/
  copies : Assoc Copy := []
  xops : List XOp := []
  mops : List MOp := []
  /-- spans granted to the head of the M queue, not yet used by its issue (R159) -/
  granted : Nat := 0
  /-- spans resolved for the task (R154) -/
  entitle : Nat := 0
  exposed : List Exposed := []
  /-- register writes of V that M may still see undone, latest first (R297) -/
  vlast : List VWrite := []
  statq : List StatAdd := []
  heldSnap : Option (List Byte) := none
  /-- whole translations of the lock entries (R114) -/
  lockTr : Assoc Tlb := []
  trapDue : Option Trap := none
  asyncDue : Option Trap := none
  /-- faults found while the context is stopped and not yet dumped (R440) -/
  nested : List Trap := []
  /-- die and number of the record that further refusals are counted in (R402, R403) -/
  refRec : Option (Nat × Nat) := none
  handler : Bool := false
  /-- the reported instruction of the last trap: its engine and sequence number, and whether a line failed -/
  report : Option (Engine × Nat) := none
  lineTrap : Bool := false
  /-- cycles the instance had run at trap entry (R378) -/
  trapTime : Nat := 0
  /-- a wait that nothing can end (R395): cycles run when it was found, and the heads it was found with -/
  stuck : Option (Nat × List Nat) := none
  /-- a drain that lacks rows which cannot arrive (R45): cycles run when it was found so -/
  starve : Option Nat := none
  due : Option Due := none
  debugHeld : Bool := false
  heldReason : Option Nat := none
  fault : Option PageFault := none
  /-- an instruction has issued in this budget period (R427) -/
  issuedAny : Bool := false
  /-- engine cycles its instructions have occupied since the last division of the tile's energy (R353) -/
  occupied : Nat := 0
  /-- the span grant of its waiting M instruction is held back for the current slope (R350) -/
  slopeWait : Bool := false
  seqNext : Nat := 0
  depth : Int := 0
  armed : Bool := false
  /-- resumed at a breakpoint: the next line is distributed without a match (R361) -/
  passBreak : Bool := false
  /-- single step (R364): the engine named, and the number of the instruction stepped (for C: of the next to be
  distributed when the step was asked for) -/
  stepping : Option Engine := none
  stepSeq : Nat := 0
  /-- a step of C has still to distribute its line -/
  stepLine : Bool := false
  /-- task handle (R149), index and count of the instance, task record address -/
  task : Nat := 0
  inst : Nat := 0
  instCount : Nat := 0
  record : Nat := 0
  triggered : Bool := false
  /-- C stores that wait to be performed, oldest first (R129) -/
  sbuf : List Pending := []
  /-- lines of C stores that are ordered before this context's next access and whose copies in other tiles' L1 are not yet
  invalidated (R131, R132) -/
  stored : List Nat := []
  /-- marks of L and of S that were discarded and whose partners have still to pass (R397) -/
  skipL : Nat := 0
  skipS : Nat := 0
  /-- elements of vector registers and accumulators that hold an error (R408) -/
  badR : List BadElem := []
  /-- a `GJOIN` or `GLEAVE` has asked its group's home and waits for the answer (R230, R231) -/
  asked : Bool := false
  /-- accounts of the instance (R353 to R355), as of the time `since` -/
  acct : Acct := {}
  since : Nat := 0
  priority : Nat := 0
  /-- 64-bit words of the allotment that hold an error, 2 × word + 1 where it is uncorrected (R408) -/
  bad : List Nat := []
  /-- values of control registers that engines still see, because a later write is performed (R247) -/
  hist : List CsrOld := []
  /-- releases delivered to memberships, by k: the generation released (R232) -/
  rel : Assoc Nat := []
  /-- chart freeze of the group as restored (Table 1.7) -/
  freeze : Nat := 0
  deriving DecidableEq, Repr

/-- An entry of a tile's arrival queue (R40). -/
structure Arrival where
  payload : List Byte
  handlerLine : Word
  tenant : Nat
  src : Nat
  task : Nat
  inst : Nat
  seq : Nat
  /-- datum time at which it came to the head of its tenant's order -/
  since : Nat
  target : Nat
  deriving DecidableEq, Repr

/-- A tile: what its contexts share. -/
structure Tile where
  /-- the gear it runs at, and the gear granted: gear 3 waits for the cluster's bias (R171) -/
  gear : Nat := 0
  grant : Nat := 0
  /-- a gear change on its way: target and the time it began (R344) -/
  change : Option (Nat × Nat) := none
  /-- changes that failed, when the next try may be made, and the highest gear that may be granted (R472) -/
  changeTries : Nat := 0
  retryAt : Nat := 0
  gearMax : Nat := 3
  dutyCap : Nat := 8
  dutyTherm : Nat := 8
  /-- a reading was above critical: nothing is placed until it has fallen (R469) -/
  critical : Bool := false
  /-- a gear 3 grant is revoked for the cap (R347) -/
  revoked : Bool := false
  arrq : List Arrival := []
  arrPtr : Nat := 0
  tlbC : List Tlb := []
  tlbL : List Tlb := []
  tlbS : List Tlb := []
  tlbM : List Tlb := []
  tlbX : List Tlb := []
  /-- L1 data lines by 64-byte line number (R98) -/
  l1 : Assoc (List Byte) := []
  /-- instruction cache lines (R181) -/
  ic : Assoc (List Byte) := []
  /-- lines of the two caches whose parity is wrong (R408) -/
  l1Bad : List Nat := []
  icBad : List Nat := []
  /-- lines of C stores that were released at scope `.t` (R132) -/
  released : List Nat := []
  breaks : List Word := []
  /-- spans offered to instructions (R159, R476), and spans lent to the limiter (R349) -/
  spans : Nat := 16
  lent : Nat := 0
  spanPtr : Nat := 0
  /-- each engine's pointer over the slots that have an instruction for it (R156), by engine code -/
  issPtr : Assoc Nat := []
  /-- members that left since the last division of its energy, and what they had occupied (R353) -/
  gone : List (Nat × Nat) := []
  /-- bytes left by departed contexts, and the tenant that left each 64 KiB unit (R23) -/
  left : Mem := []
  leftTenant : Assoc Nat := []
  /-- words of the scratchpad outside resident allotments that hold an error, as in `Ctx.bad` (R408) -/
  leftBad : List Nat := []
  /-- sensor reading in units of 0.125 °C, equal readings in a row, failed (R356, R468) -/
  temp : Int := 0
  equalReads : Nat := 0
  sensorFailed : Bool := false
  withdrawn : Bool := false
  /-- the record that a withdrawal found no save area is written (R426) -/
  noArea : Bool := false
  /-- when its test began (R368) -/
  testing : Option Nat := none
  fenced : Bool := false
  deriving DecidableEq, Repr

/-- States of a task (Table 5.3). -/
inductive TaskState where
  | waiting | ready | dispatching | placed | triggered | retired
  deriving DecidableEq, Repr

/-- A task in a pool (R147 to R155). -/
structure Task where
  handle : Nat
  record : List Byte
  recordVa : Nat
  tenant : Nat
  priority : Nat
  state : TaskState := .waiting
  /-- handles of unsatisfied predecessors (R151, R152) -/
  preds : List Nat := []
  count : Nat := 0
  placed : Nat := 0
  triggeredN : Nat := 0
  retiredN : Nat := 0
  g3 : Nat := 0
  g4 : Nat := 0
  g5 : Nat := 0
  g6 : Nat := 0
  resolved : Bool := false
  trigTime : Nat := 0
  /-- datum time of its retirement (R352) -/
  endTime : Nat := 0
  acct : Acct := {}
  /-- a record of kind 8, subkind 3, is written for it as a claimant (R426) -/
  noArea : Bool := false
  stopping : Option Nat := none
  /-- the place whose fault caused the stop, and the trap it took -/
  culprit : Option Nat := none
  stopTrap : Option Trap := none
  stopPc : Nat := 0
  stopInst : Nat := 0
  stopTime : Nat := 0
  /-- the number kept for the error record of the stop (Table 17.11) -/
  stopNo : Option Nat := none
  deriving DecidableEq, Repr

/-- What a pending copy descriptor has no place for: the copy's sequence number, its refused bytes, its windows, and what a page
fault has left of granules out of order and of a source read ahead (R136). -/
structure CopyKeep where
  seq : Nat
  refused : Nat := 0
  wins : Assoc (Nat × Nat) := []
  done : List Nat := []
  data : Assoc (List Byte) := []
  ahead : Bool := false
  whole : Option (List Byte) := none
  loose : Bool := false
  deriving DecidableEq, Repr

/-- A save area in use (R157, R433). -/
structure SavedCtx where
  /-- key of its save area in device memory -/
  area : Nat
  tenant : Nat
  task : Nat
  inst : Nat
  priority : Nat
  time : Nat
  ctxid : Nat
  fault : Option PageFault := none
  chartGrp : Option Nat := none
  /-- its memberships, by register -/
  grp : Assoc Nat := []
  /-- what the layout of the area has no place for: sequence numbers of live bindings, copies, lanes of the
  unissued entries, marks that wait for their partners' turn (R397), and the record further refusals are counted in -/
  strmSeq : Assoc Nat := []
  copies : List CopyKeep := []
  lanes : List Nat := []
  skipL : Nat := 0
  skipS : Nat := 0
  refRec : Option (Nat × Nat) := none
  /-- the asynchronous trap that is kept with it (R403), whole -/
  pending : Option Trap := none
  spadUnits : Nat := 1
  accUnits : Nat := 0
  hist : List CsrOld := []
  debugHeld : Bool := false
  armed : Bool := false
  triggered : Bool := false
  dormant : Bool := false
  /-- reason of the save (Table 1.7) and when it ended -/
  reason : Nat := 0
  since : Nat := 0
  acct : Acct := {}
  noArea : Bool := false
  deriving DecidableEq, Repr

/-- A tenant's entry of a die's tenant table (R95, R160, R433, R438). -/
structure Tenant where
  ptroot : Word := 0
  tvec : Word := 0
  atlasbase : Word := 0
  govbase : Word := 0
  priority : Nat := 3
  ctxbud : Nat := 2 ^ 64 - 1
  spanbud : Nat := 2 ^ 64 - 1
  drambud : Nat := 2 ^ 64 - 1
  linkbud : Nat := 2 ^ 64 - 1
  ctxused : Nat := 0
  spanused : Nat := 0
  dramused : Nat := 0
  linkused : Nat := 0
  exhausted : Bool := false
  starved : Nat := 0
  issued : Bool := false
  savepool : Word := 0
  dumpcfg : Word := 0
  stale : Nat := 0
  refused : Nat := 0
  tenergy : Nat := 0
  /-- the governor's own translations of the table pages (R163) -/
  govTr : List Tlb := []
  heldRecorded : Bool := false
  deriving DecidableEq, Repr

/-- A group slot at its home (R38, R39, R42, R43, R422). A member is named by its die, task and instance, which a
save and a restore do not change. -/
structure Group where
  tenant : Nat
  members : List Nat
  generation : Nat := 0
  arrived : List Nat := []
  /-- members of the current generation, from its first arrival on -/
  current : List Nat := []
  chart : Bool := false
  gear : Nat := 0
  frozenBy : List Nat := []
  frozenAt : Nat := 0
  freeze : Nat := 0
  /-- datum time at the home of the generation's first arrival, and timeouts sent since (R423) -/
  firstArrival : Option Nat := none
  timeouts : Nat := 0
  /-- since when members wait while some member's tile cannot reach the chart gear, and traps raised since (R473) -/
  gearWait : Option Nat := none
  gearTraps : Nat := 0
  /-- a generation has been released: later ones do not wait for the chart gear (R473) -/
  begun : Bool := false
  deriving DecidableEq, Repr

/-- What the header of a tainted or lost packet names: its type, places, task, instance, address and group, and what of
its sender waits for its answer: window, granules, copy slot, granule and bytes. -/
structure Named where
  type : Nat
  src : Nat
  dst : Nat
  tenant : Nat
  task : Nat
  inst : Nat
  addr : Nat := 0
  group : Nat := 0
  win : Nat := 0
  granules : Nat := 0
  copy : Option Nat := none
  off : Nat := 0
  bytes : Nat := 0
  deriving DecidableEq, Repr

/-- What a window read brings back with its answer (Tables 10.4, 10.5): copy slot, granule and sequence number it is for; the
window, its class and the step read at issue; the offset read; and the byte of the reader's scratchpad, with the byte barrier,
that the data goes to. -/
structure ReadTag where
  copy : Nat
  off : Nat
  seq : Nat
  win : Nat
  cls : Nat
  step : Nat
  src : Nat
  dst : Nat := 0
  bb : Option Nat := none
  deriving DecidableEq, Repr

/-- What an event concerns and carries: the inputs of the row. -/
structure Input where
  /-- which candidate: an index, a slot, a port, a cluster, a bank -/
  sel : Nat := 0
  /-- a second selector: a row, a register's index, a tile's slot -/
  unit : Nat := 0
  tenant : Nat := 0
  addr : Nat := 0
  len : Nat := 0
  value : Word := 0
  values : List Word := []
  bytes : List Byte := []
  sig : List Byte := []
  ints : List Int := []
  flag : Bool := false
  flag2 : Bool := false
  engine : Engine := .c
  deriving DecidableEq, Repr

/-- What a packet carries (R320, Table 10.4). -/
inductive Body where
  /-- a posted write or a granule of a copy through a window: window, step, bytes by target offset, granules,
  copy slot, byte barrier, engine and sequence number of the writer -/
  | posted (win step : Nat) (bytes : List Host.Cell) (granules : Nat) (copy : Option Nat) (bb : Option Nat) (seq : Nat)
  /-- its acknowledgement: the first target byte of the write, and how many bytes were refused -/
  | ack (win step granules : Nat) (copy : Option Nat) (off bytes : Nat) (refused : Bool) (seq : Nat)
  | netWrite (va : Nat) (bytes : List Byte) (copy : Nat) (seq : Nat)
  /-- its acknowledgement: bytes refused, and the record of the refusal -/
  | netAck (copy bytes : Nat) (refused : Option Nat) (va : Nat) (seq : Nat)
  /-- a window read: ranges of the target tile's scratchpad, for the granule at an offset of a copy -/
  | readReq (parts : List (Nat × Nat)) (tag : ReadTag)
  | readResp (data : List Byte) (refused : Bool) (tag : ReadTag)
  | send (payload : List Byte) (handlerLine : Word) (target seq : Nat)
  | refusal (target reason seq : Nat)
  | join (id : Nat) (chart : Bool) (gear : Nat)
  | leave (id : Nat)
  | answer (id code gear : Nat) (chart join : Bool)
  | arrive (id gen : Nat)
  | release (id gen : Nat)
  | barTimeout (id gen : Nat)
  | groupLost (id : Nat)
  /-- a packet was tainted (R449) or lost (R455): what its header names -/
  | taint (x : Named)
  | loss (x : Named)
  /-- the link at a die's port has failed, or is up again -/
  | failure (die port : Nat) (up : Bool)
  /-- a packet of a number has been delivered (R333) -/
  | delivered (psn : Nat)
  /-- the time of the die that sends it (R340) -/
  | time
  /-- a message on its way to the host's port: its type, then its contents (R335) -/
  | host (b : List Byte)
  /-- a command or line message of the host on its way to its die (R335, R338), with how many bytes of data follow it in packets of
  their own; and such data, for an address -/
  | command (i : Instr) (inp : Input) (data : Nat)
  | hostData (va : Nat) (b : List Byte)
  deriving DecidableEq, Repr

/-- A packet (R316, R320): source and destination places, class 0 bulk, 1 stream, 2 prompt, 3 urgent. -/
structure Packet where
  src : Nat
  dst : Nat
  cls : Nat
  tenant : Nat
  task : Nat
  inst : Nat := 0
  body : Body
  /-- when it was first sent, and last -/
  since : Nat := 0
  last : Nat := 0
  /-- its number between its dies, and of a ROD packet that of its flow; each with the least unacknowledged one -/
  psn : Option (Nat × Nat) := none
  rod : Option (Nat × Nat) := none
  /-- the number that an acknowledgement between modules acknowledges end to end (R333) -/
  conf : Option Nat := none
  deriving DecidableEq, Repr

/-- A flit (R316): 64 bytes of payload and the control word of Table 10.2, with the packet it belongs to. -/
structure Flit where
  payload : List Byte
  ctl : Nat
  pkt : Option Packet := none
  deriving DecidableEq, Repr

/-- A packet, tag or link-control flit as its sender keeps it until acknowledged (R445): in clear, with the sequence
number it was sent under; `group` is the counter of the tag group that holds it. -/
structure Sent where
  flit : Flit
  seq : Nat
  group : Nat := 0
  /-- the credits it returns: their index and number -/
  credit : Nat × Nat := (0, 0)
  /-- the key it was first sent under -/
  key : Option Nat := none
  deriving DecidableEq, Repr

/-- A packet flit in an input buffer (R317): where it leaves, and on which virtual channel. -/
structure Held where
  flit : Flit
  out : Nat
  vc : Nat
  deriving DecidableEq, Repr

/-- A packet unfinished on an output (R321, R323): the input it comes from (0: this die), its channel there and here,
and of a packet of this die the flits left. -/
structure Sending where
  src : Nat
  vcIn : Nat
  vc : Nat
  pkt : Packet
  rest : List Flit := []
  deriving DecidableEq, Repr

/-- A reassembly slot (R324): the packet in progress, its route (port 7: this die), and whether its flits are discarded
or it is tainted. -/
structure Slot where
  pkt : Packet
  out : Nat
  vc : Nat
  /-- header and payload received so far, of a local packet -/
  recv : List Byte := []
  drop : Bool := false
  taint : Bool := false
  deriving DecidableEq, Repr

/-- States of a port (Table 10.12), in the order of their codes, and disabled by command (R453). -/
inductive PortState where
  | down | training | keying | up | retraining | failed
  deriving DecidableEq, Repr

/-- A port of a die: a link end (R316 to R329, R342, R444 to R457, R464, R465). -/
structure Port where
  state : PortState := .up
  /-- flits on the wire toward this port -/
  wire : List Flit := []
  /-- the next sequence numbers to send and to accept, and the last acknowledged -/
  txSeq : Nat := 0
  rxSeq : Nat := 0
  /-- unacknowledged flits, oldest first, and the place in them of the next one to send again -/
  retry : List Sent := []
  resend : Option Nat := none
  /-- flits to be sent again under fresh keys, before any new one (R451) -/
  backlog : List Flit := []
  /-- link-control payloads that wait to be sent, and those received that have not acted -/
  ctlOut : List (List Byte) := []
  ctlIn : List (List Byte) := []
  /-- credits used at the peer, and credits to return to it, by class × 2 + channel -/
  used : Assoc Nat := []
  owed : Assoc Nat := []
  /-- input buffers by class × 2 + channel, and reassembly slots by class -/
  bufs : Assoc (List Held) := []
  slots : Assoc Slot := []
  /-- the unfinished packet of each class on the output; packet flits sent since the class last sent; the pointer over
  inputs; flit times with nothing to send -/
  sending : Assoc Sending := []
  since : Assoc Nat := []
  arbPtr : Nat := 0
  idles : Nat := 0
  /-- the open tag group sent and received: clear payloads with their authenticated control bits, counters, keys -/
  groupTx : List Flit := []
  groupRx : List Flit := []
  counterTx : Nat := 0
  counterRx : Nat := 0
  keyTx : Option Nat := none
  keyRx : Option Nat := none
  /-- copies of the flits of a failed group that were released (R449) -/
  copies : List Flit := []
  /-- key exchange (R329): own private number and random value, the peer's, its identifier and half of its signature, the
  keys to come (with the counter from which the own one applies), and the counter from which the peer's applies -/
  priv : Nat := 0
  rand : List Byte := []
  peerKey : Nat := 0
  peerRand : List Byte := []
  peerId : Nat := 0
  halfSig : List Byte := []
  nextTx : Option (Nat × Nat) := none
  nextRx : Option Nat := none
  peerReady : Option Nat := none
  exchanging : Bool := false
  vdport : Word := 0
  /-- a mode written and not yet in effect (R328) -/
  modeNext : Option Nat := none
  lkpred : Word := 0
  lkthr : Word := 0
  /-- once-only records written (R465), by field position -/
  warned : List Nat := []
  /-- a retry request that waits for its flit, and when it was last sent; requests sent in the last millisecond -/
  asked : Option Nat := none
  askedAt : Nat := 0
  asks : List Nat := []
  /-- the last request received, and how often without progress -/
  reqSeq : Nat := 0
  reqRun : Nat := 0
  tagFails : List Nat := []
  /-- retraining (R451): attempts begun, when this one began, its cause, whether keys are made fresh, and the times of
  the last three retrainings -/
  attempts : Nat := 0
  trainAt : Nat := 0
  cause : Nat := 0
  fresh : Bool := false
  trains : List Nat := []
  /-- lanes of a Z or Zoengline port -/
  lanes : Nat := 8
  deriving DecidableEq, Repr

/-- A record ring (Tables 15.9, 15.10): configuration, indices, dropped count and the waiting records. -/
structure Ring where
  cfg : Word := 2
  wr : Nat := 0
  rd : Nat := 0
  dropped : Nat := 0
  waiting : List (List Byte) := []
  number : Nat := 0
  /-- the last record written: its bytes, its slot index and its time (R391) -/
  last : Option (List Byte × Nat × Nat) := none
  deriving DecidableEq, Repr

/-- A cluster's shared bias (R345, R472). -/
structure Cluster where
  bias : Bool := false
  setting : Option Nat := none
  clearing : Option Nat := none
  idleSince : Option Nat := none
  biasFailed : Bool := false
  deriving DecidableEq, Repr

/-- A row of a DRAM bank that has erred (R479): its bank by the index of R481, its row, the address of the byte that
erred, and the datum times of its corrected errors. -/
structure Suspect where
  bank : Nat
  row : Nat
  addr : Nat
  times : List Nat := []
  deriving DecidableEq, Repr

/-- The order in which the scheduler takes records (R419): the tiles' pointer; and of the last cycle in which one came, its time,
the pointer it began with, and the turn of the last source. -/
structure EnqOrder where
  ptr : Nat := 0
  time : Nat := 0
  base : Nat := 0
  last : Option Nat := none
  deriving DecidableEq, Repr

/-- A die. Management registers are kept under their own names. Where the spec gives no reset value, as for every arbiter's
pointer, which lets index 0 be tried first, the value is the model's (DESIGN CHOICE, log 3, log 18). -/
structure Die where
  tasks : List Task := []
  enq : EnqOrder := {}
  /-- pool entry generations that are not 0 (R149), by pool × 4096 + entry -/
  gens : Assoc Nat := []
  saved : List SavedCtx := []
  tenants : Assoc Tenant := []
  groups : Assoc Group := []
  /-- the generation a freed group slot goes on from (R39) -/
  groupGen : Assoc Nat := []
  /-- budget periods begun (R160) -/
  period : Nat := 0
  tilePtr : Nat := 0
  /-- pointer over tenants of each task pool (R156, R157) -/
  tenantPtr : Assoc Nat := []
  err : Ring := {}
  pf : Ring := {}
  debugRecords : List (List Byte) := []
  debugNumber : Nat := 0
  /-- the dump queue (R441): contexts by die, task and instance -/
  dumps : List Nat := []
  dumpsDropped : Nat := 0
  ports : Assoc Port := []
  outbox : List Packet := []
  inbox : List Packet := []
  /-- end-to-end delivery (R333, R457): unacknowledged packets; the next number by destination die, and of a ROD flow by
  destination die × 4 + class; and, as destination, numbers delivered and the next of each flow, by source die -/
  uet : List Packet := []
  uetNext : Assoc Nat := []
  rodNext : Assoc Nat := []
  uetSeen : Assoc (List Nat) := []
  rodSeen : Assoc Nat := []
  /-- acknowledgements sent, which answer a packet that comes again -/
  uetAcks : List Packet := []
  /-- failed link ends this die knows of (R456), by die × 8 + port -/
  cut : List Nat := []
  /-- messages kept for the host while neither Zoengline port is up (R463) -/
  hostHeld : List (List Byte) := []
  answers : List (List Byte) := []
  /-- messages of the host that have entered at this die's Zoengline port -/
  hostSeq : Nat := 0
  clusters : Assoc Cluster := []
  pwrcap : Word := 0
  slewcfg : Word := 0
  thermcfg : Word := 0
  hotspot : Word := 0
  /-- the survey ring (Tables 11.7, 11.8), ticks since stage 2, and records dropped since the last one written -/
  surv : Ring := { cfg := 32 }
  survSeq : Nat := 0
  survTick : Nat := 0
  survDrop : Nat := 0
  /-- busy, stall and event counts since the last tick, by their offsets in the record (R358, Table 11.7) -/
  counts : Assoc Nat := []
  bartmo : Word := 0
  bkthr : Word := 0
  startst : Word := 0
  timelock : Word := 0
  bkpred : Assoc Word := []
  tlpred : Assoc Word := []
  repairMap : List Word := []
  repairErase : Bool := false
  /-- the map that the last stage 1 applied, and the keys installed in the identity list, by party (R329, R367) -/
  mapUsed : List Word := []
  identity : Assoc Nat := []
  measurements : List Byte := []
  /-- datum clock: offset from the elapsed time, rate correction in parts per 10^9 and since when (R339, R340); of a locked die the
  source whose clock it keeps to and the difference, and when a time message for it was sent -/
  datumOff : Int := 0
  rate : Int := 0
  rateSince : Nat := 0
  follow : Option (Nat × Int) := none
  timeSent : Option Nat := none
  locked : Bool := false
  goodOffsets : Nat := 0
  badOffsets : Nat := 0
  upstreamLost : Option Nat := none
  /-- power evaluations and sensor reads made, whether the last estimate was over the cap, and the arbiter's pointer -/
  evals : Nat := 0
  reads : Nat := 0
  /-- matrix power at the last evaluation in mW, the spans each tenant has released since, and those whose release started the
  fall that filler now slows (R349 to R351) -/
  slopeRef : Nat := 0
  /-- matrix power from which a rise is measured, and since when (R350) -/
  riseRef : Nat := 0
  riseAt : Nat := 0
  fell : Assoc Nat := []
  fillFor : Assoc Nat := []
  overCap : Bool := false
  powerPtr : Nat := 0
  /-- end of the duty imposed for droop; the cap that a low input has put aside (R470) -/
  droopUntil : Option Nat := none
  capSaved : Option Nat := none
  /-- reads in a row whose hottest was critical; the module's `hotspot`, on die 0 -/
  critReads : Nat := 0
  hotModule : Word := 0
  halted : Option Nat := none
  stage : Nat := 2
  /-- physical ranges of memory channels that start disabled (R93, R485) -/
  deadRanges : List (Nat × Nat) := []
  powered : Bool := true
  /-- rows in the suspect tables, rows whose sparing is on its way, and banks whose record is written (R479 to R482) -/
  suspects : List Suspect := []
  sparing : List Suspect := []
  bankWarned : List Nat := []
  /-- physical position in its cluster of each logical tile that is not at its own (R18, R475) -/
  phys : Assoc Nat := []
  /-- the last sequence number of a signed command (R486) -/
  maintSeq : Nat := 0
  /-- when power became good; the die has stopped at stage 1; it is held unpowered (R485) -/
  startAt : Nat := 0
  safeOnly : Bool := false
  heldOff : Bool := false
  /-- the die has met a lock since power good (R339) -/
  everLocked : Bool := false
  /-- times its memory has lost its contents (R365, R386) -/
  lost : Nat := 0
  deriving DecidableEq, Repr

/-- An L2 line (R97, R145): its bytes, whether dirty, and the tenant whose write made it so. -/
structure Line where
  data : List Byte
  dirty : Bool := false
  tenant : Nat := 0
  deriving DecidableEq, Repr

/-- Host states of a line of a host-coherent window (R338), and a recall on its way. -/
structure HostLine where
  state : Nat
  /-- when the recall was sent, and the state it asks for -/
  recalled : Option Nat := none
  wanted : Nat := 0
  /-- when the recall ended, whose access has still to be performed before the host's next message is served -/
  claim : Option Nat := none
  deriving DecidableEq, Repr

/-- What moves in one step: an engine's head entry, an event, or a choice the hardware is free to make. -/
inductive Act where
  | issue (e : Engine)
  | event (i : Instr)
  /-- an L1 line of the tile is dropped -/
  | evictL1 (line : Nat)
  /-- an L2 line is written back if dirty and dropped -/
  | evictL2 (line : Nat)
  /-- a TLB of the tile drops its entries of one page -/
  | evictTlb (e : Engine) (vbase : Nat)
  /-- the environment spoils a 64-byte granule: in memory or in its L2 line, uncorrected or correctable (R408) -/
  | upset (granule : Nat) (l2 uncorrected : Bool)
  /-- the environment spoils a 64-bit word of the place's scratchpad allotment (R408) -/
  | upsetSpad (word : Nat) (uncorrected : Bool)
  /-- the environment spoils an element of a vector register or an accumulator of the place (R408) -/
  | upsetReg (e : BadElem)
  /-- the environment spoils an element of a row of a load or store queue of the place (R408) -/
  | upsetRow (store : Bool) (queue row elem : Nat) (uncorrected : Bool)
  /-- the environment spoils a line of the tile's L1 data or instruction cache (R408) -/
  | upsetCache (code : Bool) (line : Nat)
  /-- the oldest C store of the place that waits is performed (R129) -/
  | storePerform
  /-- L or X walks ahead for the next page of binding or copy `k` (R93, R116) -/
  | prefetch (e : Engine) (k : Nat)
  /-- the host sends a command or line message to the focused die, by port B or port A (R334) -/
  | hostSend (i : Instr) (portB : Bool)
  /-- a command or line message that has reached the focused die is performed (R335) -/
  | hostCommand
  deriving DecidableEq, Repr

/-- One turn: nanoseconds that pass first, the place it concerns, and what moves. -/
structure Turn where
  dt : Nat := 0
  place : Nat
  act : Act
  inp : Input := {}
  deriving DecidableEq, Repr

/-- The state of the system. -/
structure State where
  /-- the focused place and its context -/
  cur : Nat
  cx : Ctx
  iss : Issue
  /-- the inputs of the event that moves now -/
  inp : Input
  /-- the contexts of the other slots, by place -/
  ctxs : Assoc Ctx
  /-- tiles by place / 2^15, dies by place / 2^22 -/
  tiles : Assoc Tile
  dies : Assoc Die
  /-- number of modules of the system (R313) -/
  z : Nat
  /-- device memory by module × 2^44 + physical address -/
  mem : Mem
  /-- edition tags of sheets (R112), by (module × 2^44 + physical address) / 4096 -/
  tags : Mem
  /-- L2 lines by (module × 2^44 + physical address) / 64 -/
  l2 : Assoc Line
  hostLines : Assoc HostLine
  /-- 64-byte granules that hold an error (R408): in memory 1 correctable or 2 uncorrected, plus 4 times the same of
  the granule's L2 line -/
  ecc : Assoc Nat
  /-- flash slots of each module, two a module (R366) -/
  flash : Assoc (List Byte)
  /-- nanoseconds elapsed -/
  now : Nat
  schedule : List Turn
  rr : Nat
  /-- running number of free values -/
  free : Nat
  deriving DecidableEq, Repr

/-- Why the machine stops. -/
inductive Fault where
  /-- Raised by no definition: the spec gives every condition of this machine an effect. Safe. -/
  | undecodable
  deriving DecidableEq, Repr

/-- Why the model gives no meaning. -/
inductive Refusal where
  /-- Raised by an arm of `exec` whose instruction the model does not describe. Safe. -/
  | notModelled (mnemonic : String)
  deriving DecidableEq, Repr

/-- The system right after start stage 2 (R365; DESIGN CHOICE, log 2), nothing enqueued: no context, task or group; every register
at the value its Reset column gives (a tile, die, port or context that is not listed stands at its default value). The system has
one module, of the 1 to 64 that R313 allows: DESIGN CHOICE, log 22. -/
def State.reset : State :=
  { cur := 0, cx := {}, iss := {}, inp := {}, ctxs := [], tiles := [], dies := [], z := 1, mem := [], tags := [], l2 := [],
    hostLines := [], ecc := [], flash := [], now := 0, schedule := [], rr := 0, free := 0 }

end Sys2Proof.Machine
end

