-- ==== Sys2Proof/Machine/Place.lean ====
section
/-! DEFINITION. Places and accessors: the context, tile and die a place names, the registers of a context, and
the control registers that are computed when read. -/
namespace Sys2Proof.Machine

/-! ### Places (Table 1.4) -/

/-- The tile a place lies on. -/
def tileOf (p : Nat) : Nat := p / 2 ^ 15
/-- The die a place lies on: module × 16 + die. -/
def dieOf (p : Nat) : Nat := p / 2 ^ 22
/-- The module a place lies on. -/
def moduleOf (p : Nat) : Nat := p / 2 ^ 26
/-- The slot of a place. -/
def slotOf (p : Nat) : Nat := bits p 12 3
/-- The logical tile number of a place on its die. -/
def tileNo (p : Nat) : Nat := bits p 15 7
/-- The place of slot `k` of the tile of `p`. -/
def slotPlace (p k : Nat) : Nat := tileOf p * 2 ^ 15 + k * 2 ^ 12
/-- The place of slot `k` of tile `t` of die `d`. -/
def placeOf (d t k : Nat) : Nat := 2 ^ 22 * d + 2 ^ 15 * t + 2 ^ 12 * k
/-- The die's own place: its tile 0, slot 0. -/
def diePlace (d : Nat) : Nat := 2 ^ 22 * d
/-- The die and module a word of `ctxid` layout names (R38, R271). -/
def dieOfId (id : Nat) : Nat := id / 2 ^ 22 % 2 ^ 10
/-- A die number is in the system (R313). -/
def dieExists (s : State) (d : Nat) : Bool := d / 16 < s.z

/-! ### Contexts, tiles and dies -/

/-- The context at a place: an empty slot where none is. -/
def ctxAt (s : State) (p : Nat) : Ctx := if p = s.cur then s.cx else (alook s.ctxs p).getD {}
/-- The state with the context at a place replaced. -/
def setCtx (s : State) (p : Nat) (c : Ctx) : State :=
  if p = s.cur then { s with cx := c } else { s with ctxs := aset s.ctxs p c }
/-- The state with the context at a place changed. -/
def updCtx (s : State) (p : Nat) (f : Ctx → Ctx) : State := setCtx s p (f (ctxAt s p))
/-- The state with the focused context changed. -/
def updCx (s : State) (f : Ctx → Ctx) : State := { s with cx := f s.cx }
/-- The state with another place focused. -/
def focus (s : State) (p : Nat) : State :=
  if p = s.cur then s
  else { s with cur := p, cx := ctxAt s p, ctxs := adel (aset s.ctxs s.cur s.cx) p }
/-- Every place that holds a context, the focused one included. -/
def places (s : State) : List Nat := s.cur :: s.ctxs.map (·.1)
/-- The places of a tile that hold a resident context, by slot. -/
def residents (s : State) (t : Nat) : List Nat :=
  ((List.range 8).map fun k => t * 2 ^ 15 + k * 2 ^ 12).filter fun p => (ctxAt s p).phase ≠ .empty
/-- The resident contexts of a die. -/
def dieResidents (s : State) (d : Nat) : List Nat :=
  (places s).filter fun p => dieOf p = d && (ctxAt s p).phase ≠ .empty

/-- The tile of that number: as after reset where none is listed. -/
def tileAt (s : State) (t : Nat) : Tile := (alook s.tiles t).getD {}
def setTile (s : State) (t : Nat) (x : Tile) : State := { s with tiles := aset s.tiles t x }
def updTile (s : State) (t : Nat) (f : Tile → Tile) : State := setTile s t (f (tileAt s t))
/-- The tile of the focused context. -/
def myTile (s : State) : Tile := tileAt s (tileOf s.cur)

/-- The port codes of Table 10.13 a die has: +X −X +Y −Y +Z −Z and, on dies 0 and 15, Zoengline. -/
def portsOf (d : Nat) : List Nat := if d % 16 = 0 || d % 16 = 15 then [0, 1, 2, 3, 4, 5, 6] else [1, 2, 3, 4, 5, 6]
/-! ### Topology (R312, R313, Table 10.1) -/

/-- Ring index of a column or row, and the column or row of a ring index: the folded order exchanges 2 and 3. -/
def fold (x : Nat) : Nat := if x = 2 then 3 else if x = 3 then 2 else x
/-- Column and row of a die. -/
def colOf (d : Nat) : Nat := d % 4
def rowOf (d : Nat) : Nat := d % 16 / 4
/-- The column or row after or before one in its ring. -/
def ringNext (x : Nat) : Nat := fold ((fold x + 1) % 4)
def ringPrev (x : Nat) : Nat := fold ((fold x + 3) % 4)
/-- The die and port a torus port is joined to, in a system of `z` modules; Zoengline's peer is the host. -/
def peerOf (z d k : Nat) : Option (Nat × Nat) :=
  let m := d / 16
  match k with
  | 1 => some (m * 16 + rowOf d * 4 + ringNext (colOf d), 2)
  | 2 => some (m * 16 + rowOf d * 4 + ringPrev (colOf d), 1)
  | 3 => some (m * 16 + ringNext (rowOf d) * 4 + colOf d, 4)
  | 4 => some (m * 16 + ringPrev (rowOf d) * 4 + colOf d, 3)
  | 5 => if z ≤ 1 then none else some ((m + 1) % z * 16 + d % 16, 6)
  | 6 => if z ≤ 1 then none else some ((m + z - 1) % z * 16 + d % 16, 5)
  | _ => none

/-! ### Ports and dies after start -/

/-- The link end at a port of a die (R326): the direction identifier of its sender. -/
def dirId (d k : Nat) : Nat := d / 16 * 2 ^ 26 + d % 16 * 2 ^ 22 + k * 2 ^ 19
/-- The kind of a port (Table 10.12): 0 UCIe, 1 Z, 2 Zoengline. -/
def portKind (k : Nat) : Nat := if k = 0 then 2 else if k ≤ 4 then 0 else 1
/-- Codes of a port's state (Table 10.12). -/
def PortState.code : PortState → Nat
  | .down => 0 | .training => 1 | .keying => 2 | .up => 3 | .retraining => 4 | .failed => 5
/-- The reset value of `lkthr` (Table 18.6). -/
def lkthrReset : Word := BitVec.ofNat 64 (0x100000 * 2 ^ 40 + 4 * 2 ^ 32 + 2 ^ 24 + 2 ^ 16 + 20 * 2 ^ 8)
/-- A port after start (R365): trained at full width and keyed; the Z ports down where the system has one module (R313);
its registers at their Reset columns (Tables 10.12, 18.5, 18.6). -/
def portDefault (z d k : Nat) : Port :=
  let st : PortState := if (k = 5 || k = 6) && z ≤ 1 then .down else .up
  { state := st
    vdport := BitVec.ofNat 64 (16 * 2 ^ 40 + (if k = 0 then 1 else if k ≤ 4 then 4 else 1) * 2 ^ 32
      + (if portKind k = 0 then 32 else 0) * 2 ^ 24 + st.code * 2 ^ 8 + portKind k)
    lkthr := lkthrReset
    lanes := if k = 0 then 1 else 8
    peerId := match peerOf z d k with
      | some (e, j) => dirId e j
      | none => 2 ^ 32 + dirId d k
    keyTx := if portKind k = 0 then none else some (Config.startKey (dirId d k))
    keyRx := if portKind k = 0 then none else match peerOf z d k with
      | some (e, j) => some (Config.startKey (dirId e j))
      | none => some (Config.startKey (2 ^ 32 + dirId d k)) }
/-- A die after start stage 2, nothing enqueued: the Reset columns of its registers (Tables 11.1 to 11.4, 15.9,
17.2, 18.6, 19.5, 19.8). -/
def dieDefault : Die :=
  { pwrcap := BitVec.ofNat 64 (520 + 20 * 2 ^ 16)
    slewcfg := BitVec.ofNat 64 (40 + 40 * 2 ^ 16)
    thermcfg := BitVec.ofNat 64 (840 + 920 * 2 ^ 12)
    bkthr := BitVec.ofNat 64 (4096 * 2 ^ 16 + 4)
    startst := BitVec.ofNat 64 2 }
/-- The die of that number: as after reset where none is listed. -/
def dieAt (s : State) (d : Nat) : Die := (alook s.dies d).getD dieDefault
def setDie (s : State) (d : Nat) (x : Die) : State := { s with dies := aset s.dies d x }
def updDie (s : State) (d : Nat) (f : Die → Die) : State := setDie s d (f (dieAt s d))
/-- The die of the focused context. -/
def myDie (s : State) : Die := dieAt s (dieOf s.cur)
/-- The die that holds a module's controller: die 0, or die 15 where die 0 has failed (Table 19.7). -/
def controllerOf (s : State) (m : Nat) : Nat := if (dieAt s (m * 16)).heldOff then m * 16 + 15 else m * 16
/-- A port of a die. -/
def portAt (s : State) (d k : Nat) : Port := (alook (dieAt s d).ports k).getD (portDefault s.z d k)
def updPort (s : State) (d k : Nat) (f : Port → Port) : State :=
  updDie s d fun x => { x with ports := aset x.ports k (f (portAt s d k)) }
/-- A tenant's entry of a die's tenant table. -/
def tenantAt (s : State) (d t : Nat) : Tenant := (alook (dieAt s d).tenants t).getD {}
def updTenant (s : State) (d t : Nat) (f : Tenant → Tenant) : State :=
  updDie s d fun x => { x with tenants := aset x.tenants t (f ((alook x.tenants t).getD {})) }
/-- A cluster of a die. -/
def clusterAt (s : State) (d c : Nat) : Cluster := (alook (dieAt s d).clusters c).getD {}
def updCluster (s : State) (d c : Nat) (f : Cluster → Cluster) : State :=
  updDie s d fun x => { x with clusters := aset x.clusters c (f ((alook x.clusters c).getD {})) }
/-- The cluster of a tile on its die (R18). -/
def clusterOf (p : Nat) : Nat := tileNo p / 8

/-- The physical index of a tile: cluster × 9 + position; position 8 is the spare (R18, R475, R483). -/
def physOf (s : State) (t : Nat) : Nat := t % 128 / 8 * 9 + (alook (dieAt s (t / 128)).phys (t % 128)).getD (t % 8)
/-- A die's clock as its own counter gives it (R339). -/
def ownClock (s : State) (d : Nat) : Nat :=
  let x := dieAt s d
  ((s.now : Int) + x.datumOff + x.rate * ((s.now : Int) - x.rateSince) / 1000000000).toNat
/-- Datum time of a die in nanoseconds (R339): of a locked die, the source's clock and a difference within the bounds of R341. -/
def datumOf (s : State) (d : Nat) : Nat :=
  match (dieAt s d).follow with
  | none => ownClock s d
  | some (e, r) => ((ownClock s e : Int) + r).toNat
/-- Datum time where the focused context runs. -/
def datum (s : State) : Nat := datumOf s (dieOf s.cur)

/-! ### Free values -/

/-- A free word and the state with the next one in place. -/
def freeW (s : State) : Word × State := (Config.freeWord s.free, { s with free := s.free + 1 })
/-- A free number and the state with the next one in place. -/
def freeN (s : State) : Nat × State := (Config.freeNat s.free, { s with free := s.free + 1 })

/-! ### Registers of a context -/

/-- `g` register `n`: `g0` reads zero (R204). -/
def Ctx.gr (c : Ctx) (n : Nat) : Word := if n = 0 then 0 else zlook 0 c.g n
/-- A write of `g` register `n`: discarded for `g0` (R204). -/
def Ctx.setG (c : Ctx) (n : Nat) (v : Word) : Ctx := if n = 0 then c else { c with g := zset 0 c.g n v }
/-- Access register `n` (R249). -/
def Ctx.ar (c : Ctx) (n : Nat) : Word := zlook 0 c.a n
def Ctx.setA (c : Ctx) (n : Nat) (v : Word) : Ctx := { c with a := zset 0 c.a n v }
/-- A control register as it is stored (Table 7.5). -/
def Ctx.cr (c : Ctx) (n : Nat) : Word := zlook 0 c.csr n
def Ctx.setCr (c : Ctx) (n : Nat) (v : Word) : Ctx := { c with csr := zset 0 c.csr n v }
/-- Completion counter `k` (R30). -/
def Ctx.counter (c : Ctx) (k : Nat) : Nat := zlook 0 c.cc k
def Ctx.setCounter (c : Ctx) (k v : Nat) : Ctx := { c with cc := zset 0 c.cc k v }
/-- The channel key of a token (R28). -/
def tokKey (e f : Engine) (ch : Nat) : Nat :=
  let code : Engine → Nat := fun x => match x with
    | .c => 1 | .l => 2 | .s => 3 | .v => 4 | .m => 5 | .x => 6
  code e * 64 + code f * 8 + ch
def Ctx.tokens (c : Ctx) (k : Nat) : Nat := zlook 0 c.tok k
def Ctx.setTokens (c : Ctx) (k v : Nat) : Ctx := { c with tok := zset 0 c.tok k v }
/-- Predicate `n`: `p0` reads all-true (R276). -/
def Ctx.pr (c : Ctx) (n : Nat) : BitVec 1024 := if n = 0 then BitVec.allOnes 1024 else zlook 0 c.p n
/-- A write of predicate `n`: `p0` is never a destination (R276). -/
def Ctx.setP (c : Ctx) (n : Nat) (v : BitVec 1024) : Ctx := if n = 0 then c else { c with p := zset 0 c.p n v }
/-- The zero vector register. -/
def zeroV : List Elem := List.replicate 1024 0
/-- Vector register `n` as stored, element (r, c) at 64 r + c (R276). -/
def Ctx.vr (c : Ctx) (n : Nat) : List Elem := fit 1024 0 ((alook c.v n).getD [])
def Ctx.setV (c : Ctx) (n : Nat) (v : List Elem) : Ctx := { c with v := aset c.v n v }
/-- Accumulator `n`, element (i, j) at 16 i + j (R297). -/
def Ctx.ac (c : Ctx) (n : Nat) : List Elem := fit 256 0 ((alook c.acc n).getD [])
def Ctx.setAc (c : Ctx) (n : Nat) (v : List Elem) : Ctx :=
  { c with acc := aset c.acc n v, badR := c.badR.filter fun b => !(b.array = 1 && b.reg = n) }
/-- The rows of a load queue, head first. -/
def Ctx.lrows (c : Ctx) (q : Nat) : List Row := (alook c.lq q).getD []
def Ctx.setL (c : Ctx) (q : Nat) (l : List Row) : Ctx := { c with lq := zset [] c.lq q l }
/-- The rows of a store queue, head first. -/
def Ctx.srows (c : Ctx) (q : Nat) : List Row := (alook c.sq q).getD []
def Ctx.setS (c : Ctx) (q : Nat) (l : List Row) : Ctx := { c with sq := zset [] c.sq q l }
/-- The tenant of a context (Table 7.6). -/
def Ctx.tenant (c : Ctx) : Nat := wbits (c.cr 0x001) 4 4
/-- The requested gear of a context (Table 5.7). -/
def Ctx.req (c : Ctx) : Nat := wbits (c.cr 0x000) 0 2
/-- The context is a member of a chart group (Table 5.7). -/
def Ctx.inChart (c : Ctx) : Bool := bitOf (c.cr 0x000).toNat 12
/-- Bytes of the scratchpad allotment (R21). -/
def Ctx.spadSize (c : Ctx) : Nat := c.spadUnits * 65536
/-- Accumulators of the allotment (R20). -/
def Ctx.accCount (c : Ctx) : Nat := c.accUnits * 16

/-- The queue of an engine. -/
def Ctx.queue (c : Ctx) : Engine → List Entry
  | .c => c.qC | .l => c.qL | .s => c.qS | .v => c.qV | .m => c.qM | .x => c.qX
def Ctx.setQueue (c : Ctx) (e : Engine) (q : List Entry) : Ctx :=
  match e with
  | .c => { c with qC := q } | .l => { c with qL := q } | .s => { c with qS := q }
  | .v => { c with qV := q } | .m => { c with qM := q } | .x => { c with qX := q }
/-- The repeat state of an engine: only L, S and V repeat. -/
def Ctx.rep (c : Ctx) : Engine → RepState
  | .l => c.repL | .s => c.repS | .v => c.repV | _ => {}
def Ctx.setRep (c : Ctx) (e : Engine) (r : RepState) : Ctx :=
  match e with
  | .l => { c with repL := r } | .s => { c with repS := r } | .v => { c with repV := r } | _ => c
/-- Entries of 64 bits take two places of a queue (R175). -/
def entriesOf (q : List Entry) : Nat := (q.map fun e => if e.ext.isSome then 2 else 1).sum

/-! ### Gears and control registers computed at a read -/

/-- A tile's demand: the highest request of its running contexts (R171). -/
def demand (s : State) (t : Nat) : Nat :=
  (((residents s t).filter fun p => (ctxAt s p).phase = .running).map fun p => (ctxAt s p).req).foldl max 0
/-- The gear the tile runs at: gear 3 only under the cluster's bias (R171). -/
def tileGear (s : State) (t : Nat) : Nat := (tileAt s t).gear
/-- The `gear` register of the context at a place (Table 5.7). -/
def gearValue (s : State) (p : Nat) : Word :=
  let c := ctxAt s p
  let t := tileOf p
  BitVec.ofNat 64 (c.req + 16 * demand s t + 256 * tileGear s t + (if c.inChart then 2 ^ 12 else 0)
    + (if (clusterAt s (dieOf p) (clusterOf p)).bias then 2 ^ 13 else 0))
/-- The `survey` register (Table 11.9). -/
def surveyValue (s : State) (p : Nat) : Word :=
  let x := dieAt s (dieOf p)
  BitVec.ofNat 64 (2 ^ 32 * (x.survSeq % 2 ^ 32) + wbits x.surv.cfg 0 6)
/-- A control register of the context at a place as an instruction reads it (R244). -/
def csrValue (s : State) (p n : Nat) : Word :=
  if n = 0x000 then gearValue s p
  else if n = 0x080 then BitVec.ofNat 64 p
  else if n = 0x081 then BitVec.ofNat 64 (datumOf s (dieOf p))
  else if n = 0x082 then surveyValue s p
  else (ctxAt s p).cr n

/-! ### Survey counts (R358, Table 11.7) -/

/-- A survey count of a die, named by its offset in the record, rises while the survey runs: 32 bits, saturating. -/
def surveyCount (s : State) (d off n : Nat) : State :=
  if !bitOf (dieAt s d).surv.cfg.toNat 0 then s
  else updDie s d fun x => { x with counts := zset 0 x.counts off (min (2 ^ 32 - 1) (zlook 0 x.counts off + n)) }
/-- Offsets of the counts of a tile, a port (1 to 6, 7 the local one) and an L2 slice. -/
def tileCounts (t : Nat) : Nat := 0x40 + 64 * (t % 128)
def portCounts (k : Nat) : Nat := 0x2040 + 64 * (k - 1)
def sliceCounts (i : Nat) : Nat := 0x2200 + 32 * i
/-- The offset of the sum of estimates, and the key of their number, from which the record's mean is formed. -/
def powerCounts : Nat := 0x2440
def evalCount : Nat := 0x10000

/-! ### Accounts (R353 to R355, Table 5.4) -/

/-- The clock of a gear in MHz (Table 0.2). -/
def gearMHz : Nat → Nat
  | 0 => 0 | 1 => 600 | 2 => 2000 | _ => 2300
/-- The clock of a tile now: stopped during a change (R344). -/
def clockMHz (s : State) (t : Nat) : Nat := if (tileAt s t).change.isSome then 0 else gearMHz (tileGear s t)
/-- A tile hosts a member of a chart group. -/
def hostsChart (s : State) (t : Nat) : Bool := (residents s t).any fun p => (ctxAt s p).chartGrp.isSome
/-- The duty of a tile for the cap and for droop, in eighths: no cap duty where it hosts a chart member (R347, R470). -/
def capDuty (s : State) (t : Nat) : Nat :=
  min (if hostsChart s t then 8 else (tileAt s t).dutyCap) (if (dieAt s (t / 2 ^ 7)).droopUntil.isSome then 4 else 8)
/-- The duty a tile issues at: the lesser of the two (R357). -/
def dutyOf (s : State) (t : Nat) : Nat := min (capDuty s t) (tileAt s t).dutyTherm
/-- The tile issues in this cycle: in the first k of every 8 (R347; which of the 8 is a DESIGN CHOICE, log 28). -/
def dutyOpen (s : State) (t : Nat) : Bool := 8 ≤ dutyOf s t || s.now * clockMHz s t / 1000 % 8 < dutyOf s t
/-- Datum time of a die that has passed since a time. -/
def datumSince (s : State) (d t : Nat) : Nat := datumOf s d - datumOf { s with now := t } d
/-- An account over `dt` ns, `dd` ns of datum time: cycles at `mhz` while running, and each instant under the first throttle
reason that applies (Table 11.4), in quarters of reference cycles: 8 of them a ns. -/
def Acct.charge (x : Acct) (t : Tile) (running : Bool) (dt dd mhz tilegear req duty : Nat) (slope : Bool) : Acct :=
  let x1 : Acct := if running then { x with cycles := x.cycles + dt * mhz, ran := x.ran + dd } else x
  let left := min 8 t.dutyTherm
  let x2 : Acct := { x1 with thermal := x1.thermal + (8 - left) * dd }
  if slope then { x2 with slope := x2.slope + left * dd }
  else if t.revoked then { x2 with cap := x2.cap + left * dd }
  else
    let open' := min left duty
    let x3 : Acct := { x2 with cap := x2.cap + (left - open') * dd }
    if tilegear < req then { x3 with gear := x3.gear + open' * dd } else x3
/-- Cycles that an issued matrix instruction has held its spans for since they were last charged. -/
def MOp.cycles (m : MOp) (now mhz : Nat) : Nat := (now - m.since) * mhz / 1000
/-- The accounts of the context at a place are brought up to now: its cycles and the spans it holds are charged to its tenant
(R160), and its matrix engine's cycles counted (R353). -/
def settle (s : State) (p : Nat) : State :=
  let c := ctxAt s p
  if c.phase = .empty then s
  else
    let t := tileOf p
    let dt := s.now - c.since
    let f := clockMHz s t
    let spans := (c.mops.map fun m => m.spans * m.cycles s.now f).sum
    let s1 := updTenant s (dieOf p) c.tenant fun x => { x with
      ctxused := x.ctxused + dt * f / 1000, spanused := x.spanused + spans }
    updCtx s1 p fun c => { c with
      since := s.now
      mops := c.mops.map fun m => { m with since := s.now }
      occupied := c.occupied + (c.mops.map fun m => m.cycles s.now f).foldl max 0
      acct := c.acct.charge (tileAt s t) (c.phase = .running) dt (datumSince s (dieOf p) c.since) f (tileGear s t) c.req
        (capDuty s t) c.slopeWait }
/-- Cycles of its tile that the context at a place has run (R378, R395). -/
def cyclesAt (s : State) (p : Nat) : Nat := (ctxAt (settle s p) p).acct.cycles / 1000
/-- The accounts of every resident context of a tile are brought up to now. -/
def settleTile (s : State) (t : Nat) : State := (residents s t).foldl settle s

/-- The name of a group's member: die, task handle and instance. -/
def memberKey (d task inst : Nat) : Nat := (d * 2 ^ 32 + task) * 2 ^ 16 + inst
/-- The name of the context at a place as a member. -/
def memberAt (s : State) (p : Nat) : Nat := memberKey (dieOf p) (ctxAt s p).task (ctxAt s p).inst
/-- The freeze of a chart group up to now (R43). -/
def freezeOf (s : State) (id : Nat) : Nat :=
  match alook (dieAt s (dieOfId id)).groups (id % 256) with
  | none => 0
  | some g => g.freeze + if g.frozenBy = [] then 0 else datumOf s (dieOfId id) - g.frozenAt
/-- Chart time of a context: datum time less the freeze of its chart group (R43, R239). -/
def chartTime (s : State) (p : Nat) : Nat :=
  match (ctxAt s p).chartGrp with
  | none => datumOf s (dieOf p)
  | some id => datumOf s (dieOf p) - freezeOf s id
/-- A chart group is frozen (R43). -/
def chartFrozen (s : State) (p : Nat) : Bool :=
  match (ctxAt s p).chartGrp with
  | none => false
  | some id =>
    match alook (dieAt s (dieOfId id)).groups (id % 256) with
    | none => false
    | some g => g.frozenBy ≠ []

end Sys2Proof.Machine
end

