-- ==== Sys2Proof/Machine/Memory.lean ====
section
/-! DEFINITION. Device memory: physical ranges, the L2 home slices, the L1 and instruction caches, host-coherent
lines, page-table walks and the TLBs (03, R93 to R101, R114 to R117; 04, R131, R145). -/
namespace Sys2Proof.Machine

/-! ### Physical addresses -/

/-- The key of a byte of device memory: module × 2^44 + physical address. -/
def devKey (m pa : Nat) : Nat := m * 2 ^ 44 + pa
/-- The die (module × 16 + die) whose memory holds a key (R93). -/
def homeDie (key : Nat) : Nat := key / 2 ^ 40
/-- The home slice of a line (R97). -/
def homeSlice (key : Nat) : Nat :=
  ((bits key 6 4 ^^^ bits key 10 4) ^^^ bits key 14 4) ^^^ bits key 18 4
/-- A byte lies in near DRAM (Table 3.5). -/
def inNear (key : Nat) : Bool := key % 2 ^ 40 < 0x0800000000
/-- A byte lies in LPDDR-6 (Table 3.5). -/
def inLpddr (key : Nat) : Bool := 0x2000000000 ≤ key % 2 ^ 40 && key % 2 ^ 40 ≤ 0x3FFFFFFFFF
/-- A byte lies in the host-coherent window of its die (Table 3.5). -/
def inWindow (key : Nat) : Bool := 0xF000000000 ≤ key % 2 ^ 40 && key % 2 ^ 40 ≤ 0xF0000FFFFF
/-- The `n` bytes from a physical address lie in one range of Table 3.5 (a reserved range holds nothing). -/
def rangeOk (pa n : Nat) : Bool :=
  let last := pa + n - 1
  pa / 2 ^ 40 = last / 2 ^ 40 && pa < 2 ^ 44
    && ((inNear pa && inNear last) || (inLpddr pa && inLpddr last) || (inWindow pa && inWindow last))

/-! ### Memory whose contents were lost (R365, R386) -/

/-- What the memory of a die holds after it has lost its contents is undefined: the byte is kept against a free mask. -/
def lostMask (s : State) (key : Nat) : Byte :=
  let n := (dieAt s (homeDie key)).lost
  if n = 0 then 0 else BitVec.ofNat 8 (Config.lostByte n key)
/-- The tags of its sheets are lost with it. -/
def lostTag (s : State) (key : Nat) : Byte :=
  let n := (dieAt s (homeDie key)).lost
  if n = 0 then 0 else BitVec.ofNat 8 (Config.lostByte n (2 ^ 60 + key / 4096))
/-- A byte of memory, behind the L2. -/
def dramByte (s : State) (key : Nat) : Byte := memGet s.mem key ^^^ lostMask s key
/-- `n` bytes of memory from a key. -/
def dramRead (s : State) (key : Nat) : Nat → List Byte
  | 0 => []
  | n + 1 => dramByte s key :: dramRead s (key + 1) n
/-- A byte of memory written. -/
def dramSet (s : State) (key : Nat) (b : Byte) : State := { s with mem := memSet s.mem key (b ^^^ lostMask s key) }
/-- Bytes of memory written from a key. -/
def dramWrite (s : State) (key : Nat) : List Byte → State
  | [] => s
  | b :: r => dramWrite (dramSet s key b) (key + 1) r

/-! ### L2 and the bytes the K16 sees -/

/-- A byte of device memory as the K16 sees it: from its home slice where held, else from memory (R97, R145). -/
def peekByte (s : State) (key : Nat) : Byte :=
  match alook s.l2 (key / 64) with
  | some l => l.data.getD (key % 64) 0
  | none => dramByte s key
/-- `n` bytes of device memory as the K16 sees them. -/
def peek (s : State) (key : Nat) : Nat → List Byte
  | 0 => []
  | n + 1 => peekByte s key :: peek s (key + 1) n
/-- The lines that hold `n` bytes from a key. -/
def linesOf (key n : Nat) : List Nat :=
  if n = 0 then [] else (List.range ((key + n - 1) / 64 - key / 64 + 1)).map fun k => key / 64 + k
/-- The tenant number of accesses that are made for no tenant: those of the management core and the scheduler (R162). -/
def noTenant : Nat := 255
/-- Bytes moved to or from the near DRAM of a die for a tenant (Table 5.4, dramused). -/
def chargeDram (s : State) (key n tenant : Nat) : State :=
  if inNear key && tenant ≠ noTenant then updTenant s (homeDie key) tenant fun t => { t with dramused := t.dramused + n } else s
/-- The error a 64-byte granule holds in memory, and in its L2 line: 0 none, 1 correctable, 2 uncorrected (R408). -/
def eccMem (s : State) (line : Nat) : Nat := (alook s.ecc line).getD 0 % 4
def eccL2 (s : State) (line : Nat) : Nat := (alook s.ecc line).getD 0 / 4
def setEcc (s : State) (line m l : Nat) : State := { s with ecc := zset 0 s.ecc line (m + 4 * l) }
/-- A count of a line's home slice, by its offset among the slice's counts (Table 11.7). -/
def countSlice (s : State) (line off : Nat) : State :=
  surveyCount s (homeDie (64 * line)) (sliceCounts (homeSlice (64 * line)) + off) 1
/-- A granule read from, or written to, near DRAM or LPDDR-6 (Table 11.7; a line written back counts in its slice too). -/
def countRead (s : State) (line : Nat) : State :=
  surveyCount s (homeDie (64 * line)) (if inNear (64 * line) then 0x2400 else 0x2408) 1
def countWrite (s : State) (line : Nat) : State :=
  surveyCount (countSlice s line 12) (homeDie (64 * line)) (if inNear (64 * line) then 0x2404 else 0x240C) 1
/-- A line is written back if dirty, and dropped from its slice unless kept (R145). -/
def writeBack (s : State) (line : Nat) (keep : Bool) : State :=
  match alook s.l2 line with
  | none => s
  | some l =>
    let s1 := if l.dirty then
        setEcc (countWrite (chargeDram (dramWrite s (line * 64) ((padTo 64 l.data).take 64)) (line * 64) 64 l.tenant) line) line
          (eccL2 s line) (eccL2 s line)
      else s
    let s2 := if keep then s1 else setEcc s1 line (eccMem s1 line) 0
    { s2 with l2 := if keep then aset s2.l2 line { l with dirty := false } else adel s2.l2 line }
/-- Lines that a slice of L2, the L1 data cache and the instruction cache of a tile hold (Table 0.1: 8 MiB, 64 KiB and
128 KiB). -/
def l2Lines : Nat := 131072
def l1Lines : Nat := 1024
def icLines : Nat := 2048
/-- The lines that a line's home slice holds. -/
def sliceOf (s : State) (line : Nat) : Assoc Line :=
  s.l2.filter fun e => homeDie (64 * e.1) = homeDie (64 * line) && homeSlice (64 * e.1) = homeSlice (64 * line)
/-- A line leaves its slice, and memory holds its bytes: a dirty one is written back, of a clean one they stand there already. -/
def evictLine (s : State) (line : Nat) : State :=
  match alook s.l2 line with
  | none => s
  | some l =>
    let s1 := if l.dirty then countWrite (chargeDram s (line * 64) 64 l.tenant) line else s
    let s2 := setEcc (dramWrite s1 (line * 64) ((padTo 64 l.data).take 64)) line (if l.dirty then eccL2 s line else eccMem s line) 0
    { s2 with l2 := adel s2.l2 line }
/-- A slice that is full makes room for a line: it drops the lowest one that it may drop. A dirty line with an uncorrected
error stays held (R408). Which line goes is the hardware's choice: the schedule may drop any other one first. -/
def makeRoomL2 (s : State) (line : Nat) : State :=
  if s.l2.length < l2Lines || (sliceOf s line).length < l2Lines then s
  else
    match (sliceOf s line).find? fun e => !(e.2.dirty && eccL2 s e.1 = 2) with
    | some e => evictLine s e.1
    | none => s
/-- A line is read from memory into its home slice; an uncorrected granule stays marked in its line. -/
def fetchLine (s : State) (tenant line : Nat) : State :=
  let s1 := if eccMem s line = 2 then setEcc s line 2 2 else s
  let s2 := chargeDram { s1 with l2 := aset s1.l2 line { data := dramRead s1 (line * 64) 64, tenant := tenant } }
    (line * 64) 64 tenant
  countRead (countSlice s2 line 4) line
/-- The access for which a line was recalled from the host is performed (R338). -/
def claimed (s : State) (line : Nat) : State :=
  match alook s.hostLines line with
  | none => s
  | some h =>
    if h.claim.isNone then s
    else { s with hostLines := if h.state = 0 then adel s.hostLines line else aset s.hostLines line { h with claim := none } }
/-- A line is brought into its home slice, if it is not there and not of a host-coherent window. -/
def fillLine (s : State) (tenant line : Nat) : State :=
  if inWindow (line * 64) then claimed s line
  else if (alook s.l2 line).isSome then countSlice s line 0
  else fetchLine (makeRoomL2 s line) tenant line
/-- A cache of a tile with a line put into it: it holds `cap` at most. -/
def cachePut (cap : Nat) (m : Assoc (List Byte)) (line : Nat) (d : List Byte) : Assoc (List Byte) :=
  aset (if m.length < cap || (alook m line).isSome then m else m.tail) line d
/-- The lines of a range are brought into their home slices. -/
def touch (s : State) (tenant key n : Nat) : State := (linesOf key n).foldl (fun s l => fillLine s tenant l) s
/-- A write of one byte at its home. -/
def pokeByte (s : State) (tenant key : Nat) (b : Byte) : State :=
  match alook s.l2 (key / 64) with
  | some l =>
    { s with l2 := aset s.l2 (key / 64) { data := (padTo 64 l.data).set (key % 64) b, dirty := true, tenant := tenant } }
  | none => dramSet s key b
/-- Writes of bytes from a key at their homes, the lines held. -/
def pokeBytes (s : State) (tenant key : Nat) : List Byte → State
  | [] => s
  | b :: r => pokeBytes (pokeByte s tenant key b) tenant (key + 1) r
/-- Lines drop out of the instruction caches, and where `l1` is set out of the L1 data caches, of the tiles of
their home die (R98, R181). -/
def dropLines (s : State) (lines : List Nat) (l1 : Bool) : State :=
  { s with
    tiles := s.tiles.map fun e =>
      (e.1, { e.2 with
        ic := e.2.ic.filter fun x => !(lines.contains x.1)
        icBad := e.2.icBad.filter fun x => !(lines.contains x)
        l1 := if l1 then e.2.l1.filter fun x => !(lines.contains x.1) else e.2.l1
        l1Bad := if l1 then e.2.l1Bad.filter fun x => !(lines.contains x) else e.2.l1Bad }) }
/-- Lines whose copies the home invalidates in some L1 count in their slices (Table 11.7). -/
def countDropped (s : State) (lines : List Nat) : State :=
  lines.foldl (fun s l => if s.tiles.any fun e => (alook e.2.l1 l).isSome then countSlice s l 16 else s) s
/-- A write performed at the home slice: the line is held, copies are invalidated (L1 copies only where the write
is not a C store of a tile), and the bytes are written (R98, R181). -/
def poke (s : State) (tenant key : Nat) (d : List Byte) (cStore : Bool) : State :=
  let lines := linesOf key d.length
  let s0 := touch s tenant key d.length
  let s1 := pokeBytes (dropLines (if cStore then s0 else countDropped s0 lines) lines (!cStore)) tenant key d
  lines.foldl (fun s l =>
    if key ≤ 64 * l && 64 * (l + 1) ≤ key + d.length then
      if (alook s.l2 l).isSome then setEcc s l (eccMem s l) 0 else setEcc s l 0 0
    else s) s1
/-- A write of the management core or the scheduler, for no tenant: at the home, and through to memory; a dirty line with
an uncorrected error stays as it is in its slice (R409). -/
def pokeThrough (s : State) (key : Nat) (d : List Byte) : State :=
  let s1 := poke s noTenant key d false
  (linesOf key d.length).foldl (fun s l => if eccL2 s l = 2 then s else writeBack s l true) s1

/-! ### Errors of memory (R408) -/

/-- What a read of a line meets: 0 none, 1 an error that is corrected (a clean line is refetched), 2 uncorrected. -/
def eccLine (s : State) (line : Nat) : Nat :=
  match alook s.l2 line with
  | none => eccMem s line
  | some l => if eccL2 s line = 2 then (if l.dirty || eccMem s line = 2 then 2 else 1) else eccL2 s line
/-- The worst error a read of `n` bytes from a key meets. -/
def eccLevel (s : State) (key n : Nat) : Nat := (linesOf key n).foldl (fun a l => max a (eccLine s l)) 0
/-- Corrected errors of a range are written back corrected, a clean spoiled line is fetched again (Table 16.5). -/
def eccFix (s : State) (key n : Nat) : State :=
  (linesOf key n).foldl (fun s l =>
    if eccLine s l ≠ 1 then s
    else
      let s1 := setEcc s l (if eccMem s l = 1 then 0 else eccMem s l) 0
      match alook s1.l2 l with
      | some x => if x.dirty then s1 else { s1 with l2 := aset s1.l2 l { x with data := dramRead s1 (l * 64) 64 } }
      | none => s1) s

/-! ### Host-coherent lines (R100, R338) -/

/-- A K16 access to `n` bytes of a host-coherent window may be performed now: no line is held by the host in a
state that must be recalled first. -/
def windowReady (s : State) (key n : Nat) (wr : Bool) : Bool :=
  !inWindow key || (linesOf key n).all fun l =>
    match alook s.hostLines l with
    | none => true
    | some h => h.recalled.isNone && (h.state = 0 || (h.state = 1 && !wr))
/-- The recalls or invalidations such an access sends to the host. -/
def windowRecall (s : State) (key n : Nat) (wr : Bool) : State :=
  { s with
    hostLines := s.hostLines.map fun e =>
      if (linesOf key n).contains e.1 && e.2.recalled.isNone && (e.2.state = 2 || (e.2.state = 1 && wr))
      then (e.1, { e.2 with recalled := some s.now, wanted := if wr then 0 else 1 }) else e }

/-! ### Translation (R94 to R96, R114 to R117) -/

/-- A virtual address operand is canonical (R94). -/
def canonical (va : Word) : Bool := (bits va.toNat 57 7 = 0 && !bitOf va.toNat 56) || (bits va.toNat 57 7 = 127 && bitOf va.toNat 56)
/-- A virtual address in 57 bits. -/
def va57 (va : Nat) : Nat := va % 2 ^ 57
/-- Bits of a page of a size code of Table 3.13. -/
def pageBits : Nat → Nat
  | 0 => 16 | 1 => 21 | 2 => 30 | _ => 33
/-- A translation holds an address. -/
def Tlb.covers (t : Tlb) (va : Nat) : Bool := t.vbase = va57 va / 2 ^ pageBits t.size * 2 ^ pageBits t.size
/-- The physical address a translation gives. -/
def Tlb.phys (t : Tlb) (va : Nat) : Nat := t.pbase + va57 va % 2 ^ pageBits t.size

/-- The index of an address at a level: shift and width (Table 3.6). -/
def levelIndex : Nat → Nat × Nat
  | 0 => (16, 5) | 1 => (21, 9) | 2 => (30, 3) | 3 => (33, 12) | _ => (45, 12)
/-- Bytes of a table of a level (Table 3.6). -/
def tableSize (l : Nat) : Nat := 8 * 2 ^ (levelIndex l).2
/-- The size code of a leaf at a level. -/
def leafSize (l : Nat) : Nat := l

/-- What a walk ends in: a translation, or a page fault's cause and level (Table 16.7). -/
inductive Walk where
  | page (t : Tlb)
  | fault (cause level : Nat)
  deriving DecidableEq, Repr

/-- `n` bytes from a physical address of a module lie in one range, clear of disabled channels (R93, R485). -/
def rangeLive (s : State) (m pa n : Nat) : Bool :=
  rangeOk pa n && (dieAt s (m * 16 + pa / 2 ^ 40)).deadRanges.all fun r =>
    pa % 2 ^ 40 + n ≤ r.1 || r.1 + r.2 ≤ pa % 2 ^ 40
/-- A page-table entry that is valid and well formed at a level (R96). -/
def pteOk (s : State) (m e level : Nat) : Bool :=
  let leaf := bitOf e 1
  let base := bits e 6 38 * 64
  bits e 44 20 = 0 && bits e 4 2 = 0
    && (if leaf then
          level ≤ 3 && base % 2 ^ pageBits (leafSize level) = 0 && rangeLive s m base (2 ^ pageBits (leafSize level))
            && !(inWindow base && bitOf e 3)
        else 1 ≤ level && base % tableSize (level - 1) = 0 && rangeLive s m base (tableSize (level - 1)))

/-- The walk from a table of a level (R95), with the entries it reads. -/
def walkFrom (s : State) (m tenant va : Nat) : Nat → Nat → Walk × List Nat
  | level, base =>
    let (sh, w) := levelIndex level
    let key := devKey m (base + 8 * bits va sh w)
    let e := leNat (peek s key 8)
    if !bitOf e 0 then (.fault 1 level, [key])
    else if !pteOk s m e level then (.fault 2 level, [key])
    else if bitOf e 1 then
      (.page ⟨tenant, va57 va / 2 ^ pageBits (leafSize level) * 2 ^ pageBits (leafSize level), leafSize level,
        bits e 6 38 * 64, bitOf e 2, bitOf e 3⟩, [key])
    else
      match level with
      | 0 => (.fault 2 0, [key])
      | l + 1 =>
        let (r, ks) := walkFrom s m tenant va l (bits e 6 38 * 64)
        (r, key :: ks)

/-- The walk of a tenant's page table on a die (R95). -/
def walk (s : State) (d tenant va : Nat) : Walk × List Nat :=
  walkFrom s (d / 16) tenant va 4 (wbits (tenantAt s d tenant).ptroot 15 29 * 2 ^ 15)

/-- The TLB of an engine on a tile: V has none and uses C's. -/
def Tile.tlb (t : Tile) : Engine → List Tlb
  | .l => t.tlbL | .s => t.tlbS | .m => t.tlbM | .x => t.tlbX | _ => t.tlbC
def Tile.setTlb (t : Tile) (e : Engine) (l : List Tlb) : Tile :=
  match e with
  | .l => { t with tlbL := l } | .s => { t with tlbS := l } | .m => { t with tlbM := l } | .x => { t with tlbX := l }
  | _ => { t with tlbC := l }
/-- A TLB with one entry added, the oldest dropped where it is full: 128 entries for C, 64 for the others. -/
def tlbAdd (e : Engine) (l : List Tlb) (t : Tlb) : List Tlb :=
  let cap := match e with
    | .c => 128
    | _ => 64
  (t :: l).take cap

/-- What an access's translation ends in. -/
inductive Xlat where
  | ok (key : Nat) (s : State)
  | trap (code : Nat)
  | fault (cause level : Nat)
  /-- the walk read an uncorrected entry at a key (R409) -/
  | spoiled (key : Nat)
  deriving DecidableEq, Repr

/-- A translation is used: the w and x bits are checked last (R115). -/
def useTlb (s : State) (m : Nat) (t : Tlb) (va : Nat) (wr fetch : Bool) : Xlat :=
  if wr && !t.w then .fault 3 (t.size)
  else if fetch && !t.x then .fault 4 (t.size)
  else .ok (devKey m (t.phys va)) s

/-- Control register `n` as an instruction at position `seq` sees it: the value before the first write at a later
position (R247). -/
def seenCr (c : Ctx) (n seq : Nat) : Word :=
  match c.hist.find? fun h => h.num = n && seq < h.seq with
  | some h => h.old
  | none => c.cr n
/-- The locked region as engine `e` sees it: C as it stands, another engine as its instruction's position says (R247). -/
def inLocked (s : State) (c : Ctx) (e : Engine) (va : Nat) : Bool :=
  let r : Nat → Nat := fun n => (if e = .c then c.cr n else seenCr c n s.iss.seq).toNat
  r 0x048 ≤ va57 va && va57 va < r 0x049
/-- `translate` of R115 for the context at a place: lock entries, the locked region, the engine's TLB, a walk. -/
def translate (s : State) (p : Nat) (e : Engine) (va : Nat) (wr fetch : Bool) : Xlat :=
  let c := ctxAt s p
  let m := moduleOf p
  match c.lockTr.find? fun t => t.2.covers va with
  | some t => useTlb s m t.2 va wr fetch
  | none =>
    if inLocked s c e va then .trap 0x709
    else
      let tile := tileAt s (tileOf p)
      match (tile.tlb e).find? fun t => t.tenant = c.tenant && t.covers va with
      | some t => useTlb s m t va wr fetch
      | none =>
        let (r, ks) := walk s (dieOf p) c.tenant va
        let s1 := ks.foldl (fun s k => touch s c.tenant k 8) s
        match ks.find? fun k => eccLevel s k 8 = 2 with
        | some k => .spoiled k
        | none =>
        match r with
        | .fault cause level => .fault cause level
        | .page t => useTlb (updTile s1 (tileOf p) fun x => x.setTlb e (tlbAdd e (x.tlb e) t)) m t va wr fetch

/-- The granule-sized pieces of a range of virtual addresses: address and length, none crossing a 64-byte line. -/
def pieces (va n : Nat) : List (Nat × Nat) :=
  if n = 0 then [] else
    (List.range ((va + n - 1) / 64 - va / 64 + 1)).map fun k =>
      let lo := max va ((va / 64 + k) * 64)
      let hi := min (va + n) ((va / 64 + k + 1) * 64)
      (lo, hi - lo)

/-- The keys of a range of virtual addresses, piece by piece, or the first failure and its address. -/
def translateRange (s : State) (p : Nat) (e : Engine) (wr : Bool) :
    List (Nat × Nat) → Except (Nat × Xlat) (List (Nat × Nat) × State)
  | [] => .ok ([], s)
  | (va, n) :: r =>
    match translate s p e va wr false with
    | .ok key s1 =>
      match translateRange s1 p e wr r with
      | .ok (l, s2) => .ok ((key, n) :: l, s2)
      | .error x => .error x
    | x => .error (va, x)

/-- The bytes of translated pieces. -/
def peekPieces (s : State) (l : List (Nat × Nat)) : List Byte := l.flatMap fun (k, n) => peek s k n
/-- The lines of translated pieces are brought into their slices. -/
def touchPieces (s : State) (tenant : Nat) (l : List (Nat × Nat)) : State :=
  l.foldl (fun s x => touch s tenant x.1 x.2) s
/-- Bytes written to translated pieces at their homes. -/
def pokePieces (s : State) (tenant : Nat) : List (Nat × Nat) → List Byte → State
  | [], _ => s
  | (k, n) :: r, d => pokePieces (poke s tenant k (d.take n) false) tenant r (d.drop n)

end Sys2Proof.Machine
end

