-- ==== Sys2Proof/Machine/Ops.lean ====
section
/-! DEFINITION. The shared operations of every meaning: error records, task stops, taking a trap and the return
from one, page faults, and how an instruction leaves its queue (R28 to R33, R45, R52, R177, R185, R375 to R397). -/
namespace Sys2Proof.Machine

/-- What a meaning answers. -/
abbrev Res := Host.Outcome State Fault Refusal

/-! ### Packets -/

/-- A packet travels under reliable ordered delivery where its modules differ (Table 10.9): a posted write, or the answer
to a read. -/
def Body.ordered : Body → Bool
  | .posted .. | .readResp .. => true
  | _ => false
/-- An end-to-end acknowledgement that carries nothing else (R333). -/
def Body.confirms : Body → Bool
  | .delivered _ => true
  | _ => false
/-- The source and destination of a packet lie on different modules (R332). -/
def Packet.crosses (p : Packet) : Bool := moduleOf p.src ≠ moduleOf p.dst
/-- The flow of a packet of reliable ordered delivery: destination die and class (Table 10.9). -/
def Packet.flow (p : Packet) : Nat := dieOf p.dst * 4 + p.cls
/-- The numbers a packet carries end to end, with the least of each that is still unacknowledged. -/
def uetBase (x : Die) (p : Packet) : Packet :=
  let least : Nat → List Nat → Nat := fun n l => l.foldl min n
  let psns := (x.uet.filter fun q => dieOf q.dst = dieOf p.dst).filterMap fun q => q.psn.map (·.1)
  let rods := (x.uet.filter fun q => q.flow = p.flow).filterMap fun q => q.rod.map (·.1)
  { p with psn := p.psn.map fun (n, _) => (n, least n psns), rod := p.rod.map fun (n, _) => (n, least n rods) }
/-- A packet between modules takes its numbers, and is kept until it is acknowledged (R333, R457). -/
def registerUet (x : Die) (p : Packet) : Packet × Die :=
  let to' := dieOf p.dst
  let n := zlook 0 x.uetNext to'
  let m := zlook 0 x.rodNext p.flow
  let q := uetBase x { p with psn := some (n, n), rod := if p.body.ordered then some (m, m) else none }
  (q, { x with uet := x.uet ++ [q], uetNext := aset x.uetNext to' (n + 1),
               rodNext := if p.body.ordered then aset x.rodNext p.flow (m + 1) else x.rodNext })
/-- A packet leaves a place: within a die it reaches its inbox, and otherwise it waits at the router; between modules it is
numbered, but for an acknowledgement, which is kept to be sent again (R333). -/
def sendPacket (s : State) (p0 : Packet) : State :=
  let p := { p0 with last := s.now }
  if dieOf p.src = dieOf p.dst then updDie s (dieOf p.dst) fun x => { x with inbox := x.inbox ++ [p] }
  else updDie s (dieOf p.src) fun x =>
    if !p.crosses || p.body.confirms then { x with outbox := x.outbox ++ [p] }
    else if p.conf.isSome then { x with outbox := x.outbox ++ [p], uetAcks := x.uetAcks ++ [p] }
    else
      let (q, y) := registerUet x p
      { y with outbox := y.outbox ++ [q] }

/-! ### Records (R387 to R391) -/

/-- Fields of an error record that differ from record to record (Table 15.6). -/
structure ErrRec where
  kind : Nat
  sev : Nat
  unit : Nat := 0
  eng : Nat := 0
  array : Nat := 0xFFFF
  bank : Nat := 0
  row : Nat := 0
  col : Nat := 0
  cause : Nat := 0
  addr : Nat := 0
  value : Nat := 0
  action : Nat := 0
  count : Nat := 1
  physTile : Nat := 0xFF
  physSpan : Nat := 0xFF
  detail : List Byte := []
  /-- the place concerned: of a context, of a tile (slot not valid), or of the die only -/
  place : Nat := 0
  tileValid : Bool := false
  slotValid : Bool := false
  seq : Nat := 0
  pc : Nat := 0
  task : Nat := 0xFFFFFFFF
  inst : Nat := 0
  tenant : Nat := 0xFF
  /-- datum time of detection, where it is not that of writing -/
  time : Option Nat := none
  deriving DecidableEq, Repr

/-- The place word of a record (Table 15.6, 0x18). -/
def placeWord (x : ErrRec) : Nat :=
  x.place / 2 ^ 22 * 2 ^ 22
    + (if x.tileValid then bits x.place 15 7 * 2 ^ 15 + clusterOf x.place * 2 ^ 8 + 2 ^ 7 else 0)
    + (if x.slotValid then bits x.place 12 3 * 2 ^ 12 + 2 ^ 6 else 0)
/-- The 128 bytes of an error record (Table 15.6). -/
def recordBytes (time number : Nat) (x : ErrRec) : List Byte :=
  leBytes 4 0x45524331 ++ leBytes 2 1 ++ leBytes 1 x.kind ++ leBytes 1 x.sev ++ leBytes 8 time ++ leBytes 8 number
    ++ leBytes 4 (placeWord x) ++ leBytes 1 x.physTile ++ leBytes 1 x.unit ++ leBytes 1 x.physSpan ++ leBytes 1 x.eng
    ++ leBytes 2 x.array ++ leBytes 2 x.bank ++ leBytes 4 x.row ++ leBytes 2 x.col ++ leBytes 2 x.count
    ++ leBytes 4 x.cause ++ leBytes 8 x.addr ++ leBytes 8 x.value ++ leBytes 4 x.task ++ leBytes 4 x.inst
    ++ leBytes 8 x.seq ++ leBytes 8 x.pc ++ leBytes 1 x.tenant ++ leBytes 1 x.action ++ leBytes 6 0
    ++ padTo 32 x.detail

/-- Slots of a ring (Table 15.9). -/
def ringSlots (r : Ring) : Nat := wbits r.cfg 8 12 + 1
/-- A ring is full (R390). -/
def ringFull (r : Ring) : Bool := (r.wr + 2 * ringSlots r - r.rd) % (2 * ringSlots r) = ringSlots r
/-- The key of slot `i` of a ring on a die, for records of `size` bytes: `errcfg` and `pfcfg` hold a physical
address of the die's module. -/
def ringKey (d : Nat) (r : Ring) (size i : Nat) : Nat := devKey (d / 16) (wbits r.cfg 32 32 * 4096 + size * (i % ringSlots r))
/-- A record goes into a ring: written, kept in the buffer of 64, or dropped and counted (R390). -/
def ringPut (s : State) (d : Nat) (r : Ring) (size : Nat) (b : List Byte) : State × Ring :=
  let drop : Ring := { r with dropped := min 65535 (r.dropped + 1) }
  if !bitOf r.cfg.toNat 0 then
    (s, if r.waiting.length < 64 then { r with waiting := r.waiting ++ [b] } else drop)
  else if ringFull r then (s, drop)
  else
    (pokeThrough s (ringKey d r size r.wr) b,
      { r with wr := (r.wr + 1) % (2 * ringSlots r), last := some (b, r.wr, datumOf s d) })
/-- A Zoengline port of a module is up (R334, R463). -/
def hostUp (s : State) (m : Nat) : Bool := (portAt s (m * 16) 0).state = .up || (portAt s (m * 16 + 15) 0).state = .up
/-- The die of a module whose Zoengline port serves a die: its own, else that of die 0, else that of die 15 (R334). -/
def hostDie (s : State) (d : Nat) : Nat :=
  if (d % 16 = 0 || d % 16 = 15) && (portAt s d 0).state = .up then d
  else if (portAt s (d / 16 * 16) 0).state = .up then d / 16 * 16
  else d / 16 * 16 + 15
/-- A message of a die to the host, which leaves at a Zoengline port and travels there as a packet (R334, R335); while neither port
is up, 64 of them wait (R390, R463). -/
def tellHost (s : State) (d : Nat) (b : List Byte) : State :=
  if !hostUp s (d / 16) then
    updDie s d fun x => if x.hostHeld.length < 64 then { x with hostHeld := x.hostHeld ++ [b] } else x
  else if hostDie s d = d then updDie s d fun x => { x with answers := x.answers ++ [b] }
  else sendPacket s { src := diePlace d, dst := diePlace (hostDie s d), cls := if b.headD 0 = 0x0B then 0 else 2, tenant := 0, task := 0,
                      body := .host b, since := s.now }
/-- A written record and a new one name one physical place: module and die, cluster and position in it, span, bank (R391). -/
def samePlace (b : List Byte) (x : ErrRec) : Bool :=
  fieldAt b 0x18 4 / 2 ^ 22 = placeWord x / 2 ^ 22 && bits (fieldAt b 0x18 4) 7 5 = bits (placeWord x) 7 5
    && fieldAt b 0x1C 1 = x.physTile && fieldAt b 0x1E 1 = x.physSpan && fieldAt b 0x22 2 = x.bank
/-- A corrected event may be folded into the last record of the ring (R391). -/
def foldable (s : State) (d : Nat) (r : Ring) (x : ErrRec) : Bool :=
  match r.last with
  | none => false
  | some (b, i, t) =>
    bitOf r.cfg.toNat 1 && x.sev = 1 && fieldAt b 7 1 = 1 && fieldAt b 6 1 = x.kind && fieldAt b 0x1D 1 = x.unit
      && samePlace b x && fieldAt b 0x20 2 = x.array && fieldAt b 0x24 4 = x.row
      && (r.wr + 2 * ringSlots r - r.rd) % (2 * ringSlots r) ≠ 0 && (i + 1) % (2 * ringSlots r) = r.wr
      && datumOf s d < t + 1000000
/-- An error record of a die is written under a number, folded or dropped (R390, R391); of severity 3 or more it also
goes to the host as a management packet of type 0x0E. -/
def writeNumbered (s : State) (d n : Nat) (x0 : ErrRec) : State :=
  let x := if x0.tileValid && x0.physTile = 0xFF then { x0 with physTile := physOf s (tileOf x0.place) % 9 } else x0
  let r := (dieAt s d).err
  if foldable s d r x then
    match r.last with
    | none => s
    | some (b, i, t) =>
      let b' := splice b 0x2A (leBytes 2 (min 65535 (fieldAt b 0x2A 2 + 1)))
      updDie (pokeThrough s (ringKey d r 128 i) b') d fun y => { y with err := { r with last := some (b', i, t) } }
  else
    let b := recordBytes (x.time.getD (datumOf s d)) n x
    let (s1, r1) := ringPut s d { r with number := max r.number (n + 1) } 128 b
    let s2 := updDie s1 d fun y => { y with err := r1 }
    if 3 ≤ x.sev then tellHost s2 d (leBytes 1 0x0E ++ b) else s2
/-- An error record of a die is written under the next number. -/
def writeRecord (s : State) (d : Nat) (x : ErrRec) : State := writeNumbered s d (dieAt s d).err.number x
/-- A record about the context at a place. -/
def ctxRecord (s : State) (p : Nat) (x : ErrRec) : ErrRec :=
  let c := ctxAt s p
  { x with
    place := p, tileValid := true, slotValid := true, task := c.task, inst := c.inst, tenant := c.tenant,
    pc := if c.handler then (c.cr 0x007).toNat else c.fetch.toNat }

/-! ### Task stops (R384) -/

/-- The task of a handle on a die. -/
def taskAt (s : State) (d h : Nat) : Option Task := (dieAt s d).tasks.find? fun t => t.handle = h
def updTask (s : State) (d h : Nat) (f : Task → Task) : State :=
  updDie s d fun x => { x with tasks := x.tasks.map fun t => if t.handle = h then f t else t }
/-- A context belongs to a task of a die. -/
def ofTask (s : State) (d h p : Nat) : Bool := dieOf p = d && (ctxAt s p).phase ≠ .empty && (ctxAt s p).task = h
/-- A context is to be dumped: it joins the die's queue of 8, or is dropped with a record (R441). -/
def queueDump (s : State) (d name : Nat) : State :=
  if (dieAt s d).dumps.length < 8 then updDie s d fun x => { x with dumps := x.dumps ++ [name] }
  else
    let r : ErrRec := { kind := 8, sev := 2, unit := 0x44, value := 2, task := name / 2 ^ 16 % 2 ^ 32, inst := name % 2 ^ 16,
                        place := diePlace d, detail := leBytes 1 8 }
    writeRecord (updDie s d fun x => { x with dumpsDropped := x.dumpsDropped + 1 }) d r
/-- The contexts of a task that its stop dumps: the faulting one first, then the others by slot, then saved ones (R439). -/
def dumpsOf (s : State) (d : Nat) (k : Task) (reason : Nat) (culprit : Option Nat) (here : List Nat) : List Nat :=
  let v := (tenantAt s d k.tenant).dumpcfg.toNat
  if !bitOf v 0 || !bitOf v (8 + reason) then []
  else
    let first := (culprit.filter here.contains).toList
    let all := if bitOf v 1 then (here.filter fun p => !first.contains p) else []
    (first ++ all).map (memberAt s)
      ++ if bitOf v 1 then ((dieAt s d).saved.filter fun x => x.task = k.handle).map fun x => memberKey d x.task x.inst else []
/-- The record of a data-format fault of the context at a place (R401): at trap entry with severity 2, or at the stop that
replaces it with severity 3. -/
def formatRecord (s : State) (p : Nat) (t : Trap) (sev : Nat) : State :=
  if t.sub = 0 then s
  else
    writeRecord s (dieOf p) (ctxRecord s p
      { kind := 4, sev := sev, unit := t.eng, eng := t.eng, cause := t.code, addr := t.addr, value := t.value,
        action := if sev = 3 then 4 else 0, seq := t.seq, detail := leBytes 1 t.sub, time := some t.time })
/-- An asynchronous data-format fault of the context at a place (R401, R403): its trap becomes due. Where one is pending already
its record is its only report; where the task stops, the record has severity 3 and the dump holds the fault (R440). -/
def dataFault (s : State) (p : Nat) (t0 : Trap) : State :=
  let t := { t0 with time := datumOf s (dieOf p) }
  let c := ctxAt s p
  match c.due with
  | some (.stop _) =>
    let n := (dieAt s (dieOf p)).err.number
    updCtx (formatRecord s p t 3) p fun c => { c with nested := c.nested ++ [{ t with recNo := some n }] }
  | _ => if c.asyncDue.isSome then formatRecord s p t 2 else updCtx s p fun c => { c with asyncDue := some t }
/-- The traps that a stop finds pending in the context at a place are not entered: their records are written (R401). -/
def recordPending (s : State) (p : Nat) : State :=
  let c := ctxAt s p
  (c.trapDue.toList ++ c.asyncDue.toList).foldl (fun s t => formatRecord s p t 3) s
/-- A task begins to stop: the first reason counts, and its contexts issue nothing more (R384, step 1). The stop
ends at TASK_STOP. -/
def stopTask (s : State) (d h reason : Nat) (culprit : Option Nat) (t : Option Trap) : State :=
  match taskAt s d h with
  | none => s
  | some k =>
    if k.stopping.isSome || k.state = .retired then s
    else
      let c := ctxAt s (culprit.getD s.cur)
      let pc := if culprit.isNone then 0 else if c.handler then (c.cr 0x007).toNat else c.fetch.toNat
      let s1 := updTask s d h fun k => { k with
        stopping := some reason, culprit := culprit, stopTrap := t, stopPc := pc,
        stopInst := if culprit.isNone then 0 else c.inst, stopTime := datumOf s d }
      let here := (dieResidents s1 d).filter (ofTask s1 d h)
      let s2 := here.foldl (fun s p => updCtx (recordPending s p) p fun c => { c with
        due := some (.stop reason), asyncDue := none, trapDue := none }) s1
      (dumpsOf s2 d k reason culprit here).foldl (fun s n => queueDump s d n) s2
/-- The task of the focused context is stopped. -/
def stopMine (s : State) (reason : Nat) (t : Option Trap) : State :=
  stopTask s (dieOf s.cur) s.cx.task reason (some s.cur) t

/-! ### Chart freeze (R43) -/

/-- A member of a chart group freezes it. -/
def freezeChart (s : State) (p : Nat) : State :=
  match (ctxAt s p).chartGrp with
  | none => s
  | some id =>
    let d := dieOfId id
    let m := memberAt s p
    updDie s d fun x =>
      match alook x.groups (id % 256) with
      | none => x
      | some g =>
        let g1 : Group := { g with
          frozenBy := if g.frozenBy.contains m then g.frozenBy else m :: g.frozenBy,
          frozenAt := if g.frozenBy = [] then datumOf s d else g.frozenAt }
        { x with groups := aset x.groups (id % 256) g1 }
/-- A member no longer freezes its chart group, for it leaves; the freeze ends when no member does. -/
def unfreezeChart (s : State) (p : Nat) : State :=
  match (ctxAt s p).chartGrp with
  | none => s
  | some id =>
    let d := dieOfId id
    let m := memberAt s p
    updDie s d fun x =>
      match alook x.groups (id % 256) with
      | none => x
      | some g =>
        let rest := g.frozenBy.filter (· ≠ m)
        let g1 : Group := { g with
          frozenBy := rest,
          freeze := if g.frozenBy ≠ [] && rest = [] then g.freeze + (datumOf s d - g.frozenAt) else g.freeze }
        { x with groups := aset x.groups (id % 256) g1 }

/-- A member that runs again no longer freezes its chart group: no page fault, pre-emption or debug stop holds it (R43, R44). -/
def thawChart (s : State) (p : Nat) : State :=
  let c := ctxAt s p
  let faulted := match c.fault with
    | some f => !f.retry
    | none => false
  if faulted || c.debugHeld || c.due.isSome then s else unfreezeChart s p

/-! ### Draining (R45, steps 1 to 3) -/

/-- Granules written through windows and not acknowledged (Table 3.3). -/
def Ctx.outstanding (c : Ctx) : Nat :=
  ((c.csr.filter fun e => 0x021 ≤ e.1 && e.1 ≤ 0x02F).map fun e => wbits e.2 32 16).sum
/-- The sequence number of an issued X operation. -/
def XOp.seq : XOp → Nat
  | .flushh _ _ n => n
  | .tlbpre _ _ _ x => x.seq
  | .tlbinv _ _ _ n => n
/-- Every issued operation is performed, copies apart (R45, step 3). -/
def Ctx.drained (c : Ctx) : Bool :=
  c.sbuf = [] && c.mops = [] && c.exposed = [] && c.statq = [] && c.xops = [] && c.outstanding = 0 && !c.asked
/-- Sequence numbers of an engine's operations that are issued and not performed. -/
def Ctx.inFlight (c : Ctx) (e : Engine) : List Nat :=
  (c.statq.filter fun x => x.eng = e).map (·.seq)
    ++ match e with
      | .c => c.sbuf.map (·.seq)
      | .l => c.strm.map (·.2.seq)
      | .v => (c.exposed.filter fun x => x.eng = .v).map (·.seq)
      | .m => c.mops.map (·.seq) ++ (c.exposed.filter fun x => x.eng = .m).map (·.seq)
      | .x => c.copies.map (·.2.seq) ++ c.xops.map XOp.seq
      | _ => []
/-- The engines, in the order of their codes. -/
def engines : List Engine := [.c, .l, .s, .v, .m, .x]

/-! ### Queues and counters -/

/-- The instruction an entry holds: a marker holds a C instruction's word (Table 1.6). -/
def decodeEntry (e : Engine) (x : Entry) : Option Instr := decode (if x.marker then .c else e) x.word x.ext
/-- The counter an instruction names (R30). -/
def Instr.counter : Instr → Option Nat
  | .stqLong _ _ _ _ k _ _ _ | .stqs _ _ _ _ _ _ k | .stqx _ _ _ _ _ k | .strw _ _ _ _ _ _ k
  | .upd _ _ _ _ _ _ _ _ k | .mma _ _ _ _ _ _ _ _ k | .mmav _ _ _ _ _ _ _ _ k | .flushh _ _ k
  | .tlbpre _ _ k | .send _ _ _ _ _ k => k
  | .cpy _ _ _ _ x | .cpylLd _ _ x | .cpylSt _ _ x | .cpyn _ _ _ x | .cpyr _ _ x | .cpyrIp _ x => x.cc
  | _ => none
/-- The line-ending instructions (R178). -/
def Instr.endsLine : Instr → Bool
  | .bc .. | .jmp .. | .call .. | .loop .. | .jmpr .. | .callr .. | .ret .. | .eret | .sysc .. | .brk ..
  | .idle | .done => true
  | _ => false
/-- The `g` registers C supplies to an instruction (R185, R242), in the order of R430. -/
def Instr.supplied : Instr → List Nat
  | .puta _ a => [a]
  | .mmav _ _ _ a b _ _ _ _ => [a, b]
  | .cpy _ _ a b x | .cpyn _ a b x | .cpyr a b x => [a, b, x.len, x.aux, x.ring, x.bb]
  | .cpylLd _ a x | .cpylSt _ a x => [a, 0, x.len, x.aux, x.ring, x.bb]
  | .cpyrIp b x => [0, b, x.len, x.aux, x.ring, x.bb]
  | .send a b t h _ _ => [a, b, t, h]
  | .pref a b | .flushh a b _ | .ringi a b | .ringr a b | .bbset a b | .tlbpre a b _ | .tlblk a b
  | .tlbinv _ a b => [a, b]
  | .ringw a _ | .bbwait a => [a]
  | _ => []
/-- Entries that take supplied values (R185, R242): instructions of X and M that name a `g` register, and `PUTA` markers. -/
def needsSupply (e : Engine) (x : Entry) : Bool :=
  match e with
  | .x | .m => !x.marker && (match decodeEntry e x with
    | some i => Instr.supplied i ≠ []
    | none => false)
  | .l | .s => x.marker && (match decodeEntry e x with
    | some (.puta _ _) => true
    | _ => false)
  | _ => false
/-- The values C holds for an entry. -/
def Ctx.operands (c : Ctx) (e : Engine) (x : Entry) : List Word :=
  match decodeEntry e x with
  | none => []
  | some i => (Instr.supplied i).map c.gr
/-- `IDLE` and `DONE` count as later than the C lanes of their line (R178). -/
def isClosing (x : Entry) : Bool :=
  match decodeEntry .c x with
  | some .idle | some .done => true
  | _ => false
/-- `performed_before` of Table 1.5, as seen from position `n`: an `IDLE` or `DONE` of C's queue counts as later (R178). -/
def Ctx.performedBefore (c : Ctx) (e : Engine) (n : Nat) : Bool :=
  ((c.queue e).all fun x => n ≤ x.seq || (e = .c && isClosing x)) && (c.inFlight e).all fun k => n ≤ k
/-- C has performed every C instruction before a position (R185). -/
def Ctx.passed (c : Ctx) (n : Nat) : Bool := c.qC.all fun x => isClosing x || n < x.seq
/-- C supplies the values of every entry whose position it has passed (R185, R242). -/
def Ctx.supply (c : Ctx) : Ctx :=
  let f : Engine → List Entry → List Entry := fun e q => q.map fun x =>
    if needsSupply e x && x.vals.isNone && c.passed x.seq then { x with vals := some (c.operands e x) } else x
  { c with qL := f .l c.qL, qS := f .s c.qS, qM := f .m c.qM, qX := f .x c.qX }

/-- An asynchronous trap becomes due for a context; where one is pending, the first is kept (R403). A stop of the task keeps
it for the dump (R440). -/
def Ctx.asyncTrap (c : Ctx) (t : Trap) : Ctx :=
  if c.phase = .empty then c
  else
    match c.due with
    | some (.stop _) => { c with nested := c.nested ++ [t] }
    | _ => if c.asyncDue.isSome then c else { c with asyncDue := some t }
/-- Engine codes of Table 6.6. -/
def engCode (e : Engine) : Nat := Engine.code e
/-- A counter is lowered as an operation is performed; below 0 it stays 0 and the context traps (R396). -/
def Ctx.ccComplete (c : Ctx) (k : Option Nat) (e : Engine) (seq : Nat) : Ctx :=
  match k with
  | none => c
  | some n =>
    if c.counter n = 0 then
      c.asyncTrap { cls := 1, code := 0x70B, eng := engCode e, seq := seq, tval := BitVec.ofNat 64 n }
    else c.setCounter n (c.counter n - 1)
/-- The engine whose queue the issued entry heads is popped; C's frozen queue stays where its handler runs. -/
def Ctx.pop (c : Ctx) (e : Engine) : Ctx :=
  if e = .c && c.handler then { c with hq := c.hq.tail } else c.setQueue e (c.queue e).tail
/-- The context marked as having issued, an engine being occupied for `n` cycles (R353, R427). -/
def Ctx.markIssue (c : Ctx) (n : Nat := 1) : Ctx := { c with issuedAny := true, occupied := c.occupied + n }
/-- Cycles for which an issue occupies its engine: of V, its beats (R280); the cycles of a matrix instruction are counted as it
is performed. -/
def issueCycles (e : Engine) : Nat := if e = .v then 8 else 1
/-- The issued instruction of an engine is performed as far as its queue goes: a repeat steps or ends (R33, R250),
the entry leaves, its counter `k` is lowered at the last iteration, and C supplies what it has now passed. A marker of
a C instruction takes no part in a repeat. -/
def Ctx.retire (c : Ctx) (e : Engine) (k : Option Nat) (i : Issue) : Ctx :=
  let r := c.rep e
  let c := c.markIssue (issueCycles e)
  if i.marker then (c.pop e).supply
  else if r.active && 1 < r.remaining then c.setRep e { r with remaining := r.remaining - 1, k := r.k + 1 }
  else
    let c1 := ((c.setRep e {}).pop e).ccComplete k e i.seq
    if e = .c then c1.supply else c1
/-- The issued instruction of an engine is performed. -/
def done (e : Engine) (s : State) : Res := .next { s with cx := s.cx.retire e none s.iss }
/-- The issued instruction is performed and lowers its counter. -/
def doneCC (e : Engine) (k : Option Nat) (s : State) : Res := .next { s with cx := s.cx.retire e k s.iss }
/-- An instruction that waits: it has not issued, and nothing changes (R207). -/
def wait (s : State) : Res := .next s

/-- The value of a supplied operand: what C supplied, or the register where the model is asked directly. -/
def operand (s : State) (k reg : Nat) : Word :=
  match s.iss.vals with
  | some l => l.getD k 0
  | none => s.cx.gr reg

/-! ### Taking a trap (R377) and the return (R219, R380) -/

/-- `trapcause` of a trap (Table 15.2). -/
def trapWord (t : Trap) : Word :=
  BitVec.ofNat 64 (t.code + 2 ^ 12 * t.cls + 2 ^ 16 * t.eng + 2 ^ 20 * t.lane + 2 ^ 24 * (t.seq % 2 ^ 24))
/-- `trap_entry` of R377 for the focused context, its drain done. -/
def trapEntry (s : State) (t : Trap) : State :=
  let c := { s.cx with trapDue := none }
  let tvec := c.cr 0x009
  let s := { s with cx := c }
  if c.handler then stopMine (formatRecord s s.cur t 3) (if t.cls = 2 || t.cls = 3 then 3 else 2) (some t)
  else if tvec = 0 || tvec.toNat % 32 ≠ 0 then stopMine (formatRecord s s.cur t 3) 1 (some t)
  else
    let s := formatRecord s s.cur t 2
    let c := if t.own then ((s.cx.pop .c).markIssue).supply else s.cx
    { s with
      cx := { ((((c.setCr 0x006 (trapWord t)).setCr 0x00A t.tval).setCr 0x007 t.epc).setCr 0x008
                (wput (c.cr 0x008) 0 1 1)) with
        vlast := [], handler := true, hq := [], fetch := tvec, fetchHold := false, trapTime := cyclesAt s s.cur } }
/-- A trap is due: it is entered at once where nothing is left to drain, and otherwise at TRAP_ENTRY. -/
def takeTrap (s : State) (t0 : Trap) : State :=
  let t := { t0 with time := datum s }
  if s.cx.drained then trapEntry s t else { s with cx := { s.cx with trapDue := some t } }
/-- A fault is already to be reported whose instruction has an earlier position: a later one stays unissued (R381). -/
def Ctx.faultBefore (c : Ctx) (seq : Nat) : Bool :=
  match c.trapDue with
  | some t => !c.lineTrap && t.seq ≤ seq
  | none => false
/-- A synchronous trap at the issued instruction, which stays unissued (R206, R377); spans granted to it are free again (R159). -/
def trapAt (e : Engine) (cls code : Nat) (tval : Word) (s : State) : State :=
  let t : Trap := { cls := cls, code := code, eng := engCode e, lane := s.iss.lane, seq := s.iss.seq, tval := tval,
                    epc := s.cx.fetch }
  if s.cx.faultBefore s.iss.seq then s
  else
    let c := { s.cx with report := some (e, s.iss.seq), lineTrap := false, granted := if e = .m then 0 else s.cx.granted }
    takeTrap { s with cx := c } t
/-- A program-error trap of the issued instruction (R394). -/
def trap (e : Engine) (code : Nat) (tval : Word) (s : State) : Res := .next (trapAt e 1 code tval s)
/-- A program-error trap whose `tval` is a number. -/
def trapN (e : Engine) (code v : Nat) (s : State) : Res := trap e code (BitVec.ofNat 64 v) s

/-- The reported instruction of an engine is discarded without effect (R397): a repeat body with its repeat, a mark with its
place in the pairing. -/
def Ctx.discard (c : Ctx) (e : Engine) (seq : Nat) : Ctx :=
  match c.queue e with
  | [] => c
  | x :: r =>
    if x.seq ≠ seq then c
    else
      let k := match decodeEntry e x with
        | some i => Instr.counter i
        | none => none
      let c1 := (if x.marker then c else c.setRep e {}).setQueue e r
      let c2 : Ctx := match decodeEntry e x with
        | some .markL => if 0 < c1.skipS then { c1 with skipS := c1.skipS - 1 } else { c1 with skipL := c1.skipL + 1 }
        | some .markS => if 0 < c1.skipL then { c1 with skipL := c1.skipL - 1 } else { c1 with skipS := c1.skipS + 1 }
        | _ => c1
      c2.ccComplete k e seq
/-- The values supplied to the reported instruction are supplied again (R380). -/
def Ctx.resupply (c : Ctx) (e : Engine) (seq : Nat) : Ctx :=
  c.setQueue e ((c.queue e).map fun x =>
    if x.seq = seq && needsSupply e x then { x with vals := some (c.operands e x) } else x)
/-- A line-ending instruction is distributed and not performed. -/
def Ctx.lineHeld (c : Ctx) : Bool :=
  c.qC.any fun x => match decodeEntry .c x with
    | some i => Instr.endsLine i
    | none => false
/-- Handler mode is left: `estat.inh` and `trapcause.skip` fall and fetch resumes at `epc`, or past a line that failed and is
to be skipped (R219, R380). -/
def leaveHandler (c : Ctx) : Ctx :=
  let epc := c.cr 0x007
  { ((c.setCr 0x008 (wput (c.cr 0x008) 0 1 0)).setCr 0x006 (wput (c.cr 0x006) 63 1 0)) with
    handler := false, hq := [], fetch := if bitOf (c.cr 0x006).toNat 63 && c.lineTrap then epc + 32 else epc, report := none,
    lineTrap := false }
/-- The reported instruction is issued again, or discarded where it is to be skipped (R380). -/
def Ctx.settleReport (c : Ctx) (skip : Bool) (report : Option (Engine × Nat)) : Ctx :=
  match report with
  | none => c
  | some (e, n) => if skip then c.discard e n else c.resupply e n
/-- The return of `ERET` in handler mode (R219, R380): handler mode is left, the queues thaw, and the reported instruction is
issued again or discarded as `trapcause.skip` says. Lanes after the `ERET` in its line are executed, ahead of C's thawed
entries (R178). -/
def trapReturn (c : Ctx) : Ctx :=
  let c1 := (leaveHandler c).settleReport (bitOf (c.cr 0x006).toNat 63) c.report
  let c2 : Ctx := { c1 with qC := c.hq.tail ++ c1.qC }
  { c2.supply with fetchHold := c2.lineHeld }

/-! ### Page faults (R411) -/

/-- A fault record (Table 16.7). -/
def faultRecord (s : State) (p number cause access : Nat) (e : Engine) (va level : Nat) : List Byte :=
  leBytes 4 number ++ leBytes 1 cause ++ leBytes 1 access ++ leBytes 1 (engCode e) ++ leBytes 1 (ctxAt s p).tenant
    ++ leBytes 8 va ++ leBytes 8 p ++ leBytes 4 (ctxAt s p).task ++ leBytes 4 level
/-- A page fault of the focused context: the fault record goes to the ring and to the host, the context is
fault-held and its chart group frozen. A handler's page fault is a nested fault (R378); while an earlier number is
outstanding no new record is written (R412). -/
def pageFault (s : State) (e : Engine) (va cause access level : Nat) : State :=
  let d := dieOf s.cur
  if s.cx.handler && e = .c then stopMine s 2 none
  else
    match s.cx.fault with
    | some f => freezeChart { s with cx := { s.cx with fault := some { f with retry := false } } } s.cur
    | none =>
      let r := (dieAt s d).pf
      let b := faultRecord s s.cur (r.number % 2 ^ 32) cause access e va level
      let (s1, r1) := ringPut s d { r with number := r.number + 1 } 32 b
      let s2 := tellHost (updDie s1 d fun x => { x with pf := r1 }) d (leBytes 1 0x0E ++ b)
      freezeChart { s2 with cx := { s2.cx with fault := some { number := r.number % 2 ^ 32 } } } s.cur
/-- The unit a key lies in (Table 15.7). -/
def unitOfKey (key : Nat) : Nat := if inWindow key then 0x23 else if inNear key then 0x21 else 0x22
/-- The unit that holds the error a read of a line meets: its L2 slice, or the memory behind it. -/
def unitOfLine (s : State) (l : Nat) : Nat :=
  match alook s.l2 l with
  | some x => if eccL2 s l = 0 || (eccL2 s l = 2 && eccMem s l = 2 && !x.dirty) then unitOfKey (64 * l) else 0x20
  | none => unitOfKey (64 * l)
/-- The bank, by its index of R481, and the row of a key: which bytes share a row is the controllers' own mapping. -/
def bankRow (key : Nat) : Nat × Nat :=
  (if inLpddr key then 2048 + Config.dramBank key % 128 else Config.dramBank key % 2048, Config.dramRow key)

/-! ### The repair map, and DRAM rows that err (R479 to R484) -/

/-- An entry is appended to a die's repair map of 512; where it is full, the finding is recorded instead. -/
def mapAppend (s : State) (d : Nat) (e : Word) : State :=
  if (dieAt s d).repairMap.length < 512 then updDie s d fun x => { x with repairMap := x.repairMap ++ [e] }
  else writeRecord s d { kind := 12, sev := 3, unit := 0x44, value := e.toNat, place := diePlace d, detail := leBytes 1 8 }
/-- A repair map entry (Table 19.6). -/
def mapEntry (kind cluster position unit array row spare : Nat) : Word :=
  BitVec.ofNat 64 (kind * 2 ^ 60 + cluster * 2 ^ 52 + position * 2 ^ 48 + unit * 2 ^ 40 + array * 2 ^ 24 + row % 2 ^ 20 * 16 + spare)
/-- Spare rows built into a bank, by its index of R481 (Table 19.2), and `bkpred` at its reset values. -/
def bankSpares (b : Nat) : Nat := if b < 2048 then 4 else 2
def bkpredAt (x : Die) (b : Nat) : Word := (alook x.bkpred b).getD (BitVec.ofNat 64 (bankSpares b * 2 ^ 24))
/-- The channel of a bank: its suspect table (R479). -/
def channelOf (b : Nat) : Nat := if b < 2048 then bits b 5 4 else 16 + bits b 5 2
/-- A count raised, saturating in its field. -/
def bumpField (w : Word) (lo n : Nat) : Word := wput w lo n (min (2 ^ n - 1) (wbits w lo n + 1))
/-- The record of a bank whose errors or spares have reached their threshold, once (R482). -/
def bankCheck (s : State) (d b key : Nat) : State :=
  let x := dieAt s d
  let v := bkpredAt x b
  let lim := wbits x.bkthr 16 24
  if x.bankWarned.contains b || !((lim ≠ 0 && lim ≤ wbits v 40 24) || wbits v 24 4 ≤ wbits v 28 4) then s
  else
    let s1 := updDie s d fun x => { x with bankWarned := b :: x.bankWarned }
    writeRecord s1 d { kind := 12, sev := 1, unit := unitOfKey key, bank := b, addr := key % 2 ^ 44, value := v.toNat,
                       place := diePlace d, detail := leBytes 1 7 }
/-- A row is to be spared: its copy begins, or its bank has no spare left (R479, R480). -/
def beginSparing (s : State) (d : Nat) (r : Suspect) : State :=
  let x := dieAt s d
  let v := bkpredAt x r.bank
  let begun := (x.sparing.filter fun y => y.bank = r.bank).length
  if x.sparing.any fun y => y.bank = r.bank && y.row = r.row then s
  else if wbits v 28 4 + begun < wbits v 24 4 then updDie s d fun x => { x with sparing := x.sparing ++ [r] }
  else writeRecord s d { kind := 12, sev := 2, unit := unitOfKey r.addr, bank := r.bank, row := r.row, addr := r.addr % 2 ^ 44,
                         value := v.toNat, place := diePlace d, detail := leBytes 1 6 }
/-- The suspect rows with one more, or with the times of one changed; a channel's table holds 64, the row with the fewest
errors leaving it (R479). -/
def noteSuspect (l : List Suspect) (r : Suspect) : List Suspect :=
  if l.any fun y => y.bank = r.bank && y.row = r.row then
    l.map fun y => if y.bank = r.bank && y.row = r.row then r else y
  else
    let mine := l.filter fun y => channelOf y.bank = channelOf r.bank
    if mine.length < 64 then l ++ [r]
    else
      match minBy (fun y => y.times.length) mine with
      | none => l ++ [r]
      | some z => l.filter (fun y => !(y.bank = z.bank && y.row = z.row)) ++ [r]
/-- The `suspect` counts of a die's banks follow its tables. -/
def countSuspects (x : Die) (b : Nat) : Die :=
  let n := (x.suspects.filter fun y => y.bank = b).length
  { x with bkpred := aset x.bkpred b (wput (bkpredAt x b) 16 8 n) }
/-- A row of near DRAM or LPDDR-6 has yielded an error: the bank's counts, the suspect table, and its sparing where it is
due (R479, R481). -/
def rowError (s : State) (key : Nat) (uncorrected : Bool) : State :=
  let d := homeDie key
  if !(inNear key || inLpddr key) || !dieExists s d then s
  else
    let (b, r) := bankRow key
    let now := datumOf s d
    let s1 := updDie s d fun x => { x with
      bkpred := aset x.bkpred b (if uncorrected then bumpField (bkpredAt x b) 32 8 else bumpField (bkpredAt x b) 40 24) }
    let old := ((dieAt s1 d).suspects.find? fun y => y.bank = b && y.row = r).getD { bank := b, row := r, addr := key }
    let times := (old.times.filter fun t => now < t + 86400000000000) ++ if uncorrected then [] else [now]
    let lim := wbits (dieAt s1 d).bkthr 0 8
    let row : Suspect := { old with times := times }
    let s2 := if uncorrected then s1 else updDie s1 d fun x => countSuspects { x with suspects := noteSuspect x.suspects row } b
    let s3 := bankCheck s2 d b key
    if uncorrected || (lim ≠ 0 && lim ≤ times.length) then beginSparing s3 d row else s3
/-- A free ECC syndrome for a record. -/
def syndrome (s : State) : Nat := Config.freeNat s.free
/-- The record of an error of an array: its syndrome is free, and so are the array, row and column of the cell, which are the
part's own wiring. -/
def arrayRecord (s : State) (unit sev addr : Nat) : ErrRec :=
  let (a, r, k) := Config.arrayCell unit addr
  { kind := 5, sev := sev, unit := unit, array := a, row := r, col := k, addr := addr, value := syndrome s,
    action := if sev = 3 then 4 else 1, detail := leBytes 1 1 }
/-- The same of an error of L2 or device memory, by its key. -/
def memoryRecord (s : State) (unit sev key : Nat) : ErrRec :=
  if 0x21 ≤ unit && unit ≤ 0x22 then
    { arrayRecord s unit sev (key % 2 ^ 44) with array := 0xFFFF, bank := (bankRow key).1, row := (bankRow key).2 }
  else arrayRecord s unit sev (key % 2 ^ 44)
/-- A record is written and its syndrome used up. -/
def freeRecord (s : State) (d : Nat) (x : ErrRec) : State := { writeRecord s d x with free := s.free + 1 }
/-- The errors a read of a line meets are corrected and recorded (R408): severity 1, or 2 where a clean L2 line with an
uncorrected error is fetched again. -/
def eccCorrectLine (s : State) (l : Nat) : State :=
  if eccLine s l ≠ 1 then s
  else
    let x := memoryRecord s (unitOfLine s l) (if (alook s.l2 l).isSome && eccL2 s l = 2 then 2 else 1) (64 * l)
    let s1 := if eccMem s l = 1 && (alook s.l2 l).isNone then rowError s (64 * l) false else s
    freeRecord (eccFix s1 (64 * l) 64) (homeDie (64 * l)) x
/-- A corrected error met by an access is written back and recorded (R408). -/
def eccCorrect (s : State) (key n : Nat) : State := (linesOf key n).foldl eccCorrectLine s

/-! ### Consumed errors (R408, R409) -/

/-- A consuming access of the focused context meets an uncorrected error of a unit at an address of the unit: its record, and
the stop of its task with reason 8 (R408). -/
def eccStop (s : State) (unit addr : Nat) : State :=
  stopMine (freeRecord s (dieOf s.cur) (ctxRecord s s.cur (arrayRecord s unit 3 addr))) 8 none
/-- The same of an access to `n` bytes of device memory from a key: the first line that is spoiled. -/
def eccStopAt (s0 : State) (key n : Nat) : State :=
  let l := ((linesOf key n).find? fun l => eccLine s0 l = 2).getD (key / 64)
  let unit := unitOfLine s0 l
  let s := if 0x21 ≤ unit && unit ≤ 0x22 && eccMem s0 l = 2 then rowError s0 (64 * l) true else s0
  stopMine (freeRecord s (dieOf s.cur) (ctxRecord s s.cur (memoryRecord s unit 3 (64 * l)))) 8 none
/-- A page-table walk reads an uncorrected entry: reason 8 (R409, Table 16.8). -/
def walkStop (s : State) (va : Nat) : State :=
  stopMine (writeRecord s (dieOf s.cur) (ctxRecord s s.cur
    { kind := 6, sev := 3, unit := 1, addr := va, action := 4, detail := leBytes 1 3 })) 8 none
/-- A translation that failed at the issued instruction of an engine: a trap, or a page fault at it (R115). -/
def badXlat (e : Engine) (va access : Nat) (x : Xlat) (s : State) : Res :=
  match x with
  | .trap code => trapN e code va s
  | .fault cause level => .next (pageFault s e va cause access level)
  | .spoiled _ => .next (walkStop s va)
  | .ok _ s1 => .next s1

/-- The arithmetic flags of a mask are set (R399). -/
def setFlags (c : Ctx) (mask : Nat) : Ctx := c.setCr 0x00B (c.cr 0x00B ||| BitVec.ofNat 64 mask)

end Sys2Proof.Machine
end

