-- ==== Sys2Proof/Machine/Shape.lean ====
section
/-! DEFINITION. Contour order, layout words and the shapes of matrix operand tiles (03, R103 to R105; 09, R300, R301, R303). -/
namespace Sys2Proof.Machine

/-! ### Contour order (R103, R104) -/

/-- `contour_index` from bit `k` on, with `left` bits still to come. -/
def contourFrom (r c rb cb : Nat) : Nat → Nat → Nat → Nat
  | 0, _, _ => 0
  | left + 1, k, pos =>
    let n1 := if k < cb then 1 else 0
    let n2 := if k < rb then 1 else 0
    (if k < cb then bits c k 1 * 2 ^ pos else 0) + (if k < rb then bits r k 1 * 2 ^ (pos + n1) else 0)
      + contourFrom r c rb cb left (k + 1) (pos + n1 + n2)
/-- `contour_index` (R103). -/
def contourIndex (r c rb cb : Nat) : Nat := contourFrom r c rb cb (max rb cb) 0 0
/-- The row and column of a contour position, from bit `k` on. -/
def uncontourFrom (x rb cb : Nat) : Nat → Nat → Nat → Nat × Nat
  | 0, _, _ => (0, 0)
  | left + 1, k, pos =>
    let n1 := if k < cb then 1 else 0
    let n2 := if k < rb then 1 else 0
    let (r, c) := uncontourFrom x rb cb left (k + 1) (pos + n1 + n2)
    (r + (if k < rb then bits x (pos + n1) 1 * 2 ^ k else 0), c + (if k < cb then bits x pos 1 * 2 ^ k else 0))
/-- The row and column at a contour position. -/
def uncontour (x rb cb : Nat) : Nat × Nat := uncontourFrom x rb cb (max rb cb) 0 0

/-- A layout word (Table 3.9). -/
structure Layout where
  tr : Bool
  contour : Bool
  blk : Bool
  unit : Nat
  rb : Nat
  cb : Nat
  base : Nat
  deriving DecidableEq, Repr
/-- A layout word read; none where R105 refuses it. The bytes of a transposed tile of blocks, whose rows and columns count
elements, follow from its legend: `CPYR` alone takes one (R265). -/
def layoutOf (w : Nat) : Option Layout :=
  let l : Layout := { tr := bitOf w 59, contour := bits w 57 2 = 1, blk := bitOf w 56, unit := bits w 48 8 + 1,
                      rb := bits w 44 4, cb := bits w 40 4, base := bits w 0 40 }
  if bits w 60 4 = 0 && bits w 57 2 < 2 && 2 ≤ l.rb && l.rb ≤ 10 && 2 ≤ l.cb && l.cb ≤ 10
    && ((l.tr && l.blk) || l.unit * 2 ^ (l.rb + l.cb) ≤ 2 ^ 20) && l.base % 256 = 0 then some l
  else none
/-- Bytes of a tile. -/
def Layout.bytes (l : Layout) : Nat := l.unit * 2 ^ (l.rb + l.cb)
/-- The offset in a tile of the unit at logical (r, c) (R103 to R105). -/
def Layout.unitAt (l : Layout) (r c : Nat) : Nat :=
  l.unit * (match l.contour, l.tr with
    | true, false => contourIndex r c l.rb l.cb
    | true, true => contourIndex c r l.cb l.rb
    | false, false => r * 2 ^ l.cb + c
    | false, true => c * 2 ^ l.rb + r)

/-! ### Matrix operand tiles (R300, R301) -/

/-- The class of a matrix type code; `.mx` takes its class from a header. -/
def mtyClass : MTy → Option Nat
  | .bf16 | .f16 | .b16 => some 16
  | .mx => none
  | .e2m1 => some 4
  | _ => some 8
/-- The format a fixed block type is checked against. -/
def mtyFmt : MTy → Option EFmt
  | .e4m3 => some .e4m3 | .e5m2 => some .e5m2 | .e2m3 => some .e2m3 | .e3m2 => some .e3m2 | .e2m1 => some .e2m1
  | .i8 => some .i8 | _ => none
/-- A class-16 type. -/
def isPlain (t : MTy) : Bool := mtyClass t = some 16
/-- What the first bytes of a tile show: a plain tile, the first header's format, block size and scale, or a
malformed header. -/
inductive Shape where
  | plain
  | blk (f : EFmt) (n : Nat)
  | bad
  deriving DecidableEq, Repr
/-- The shape of a tile whose first row is `row`; none where it is not yet there. -/
def shapeOf (t : MTy) (row : Option Row) : Option Shape :=
  if isPlain t then some .plain
  else
    match row with
    | none => none
    | some r =>
      match readHeader (fieldAt r.data 0 1) with
      | some (f, n) => some (.blk f n)
      | none => some .bad
/-- The class of an operand of a type and shape. -/
def classOf (t : MTy) (x : Shape) : Option Nat :=
  match mtyClass t with
  | some c => some c
  | none => match x with
    | .blk f _ => some (efmtClass f)
    | _ => none
/-- The run class (R300, R303): the wider of the two; where A and B come from one queue and B is `.mx`, A's. -/
def runClass (ta tb : MTy) (same : Bool) (a : Shape) (b : Option Shape) : Option Nat :=
  if same && mtyClass tb = none then classOf ta a
  else
    match mtyClass tb with
    | some cb => (classOf ta a).map (max cb)
    | none => match b with
      | none => none
      | some b => match classOf ta a, classOf tb b with
        | some x, some y => some (max x y)
        | _, _ => none
/-- K of a run class (R300). -/
def tileK (cls kq : Nat) : Nat := 4096 / cls / 2 ^ kq
/-- Bytes of a unit and units of a row of a tile. -/
def unitShape (x : Shape) (k : Nat) : Nat × Nat :=
  match x with
  | .blk f n => (blockBytes f n, k / n)
  | _ => (2, k)
/-- Queue rows of a tile of K indices; a tile whose length cannot be formed ends with the row of its header. -/
def tileRows (x : Shape) (k : Option Nat) : Nat :=
  match x, k with
  | .bad, _ => 1
  | _, none => 1
  | x, some k => max 1 (ceilDiv (16 * (unitShape x k).1 * (unitShape x k).2) 256)
/-- Rows the two tiles of an `MMA` take, as far as its rows so far show; `none` where that is not yet known. -/
def mmaNeeds (ta tb : MTy) (kq : Nat) (same : Bool) (ra rb : List Row) : Option Nat × Option Nat :=
  match shapeOf ta ra.head? with
  | none => (none, none)
  | some a =>
    let b := shapeOf tb rb.head?
    let k := (runClass ta tb same a b).map fun c => tileK c kq
    let known := k.isSome || (b.isSome || a = .bad) || (same && mtyClass tb = none)
    (if known then some (tileRows a k) else none, b.map fun b => tileRows b k)
/-- Rows of queue `q` that an issued matrix instruction still lacks; one where that is not yet known. -/
def MOp.lacks (m : MOp) (q : Nat) : Nat :=
  match m.instr with
  | .mma _ ta tb qa qb kq _ _ _ =>
    let (na, nb) := mmaNeeds ta tb kq (qa = qb) m.rowsA m.rowsB
    let rem : Option Nat → Nat → Nat := fun n have' => match n with
      | some n => n - have'
      | none => if have' = 0 then 1 else 0
    (if qa = q then rem na m.rowsA.length else 0) + (if qb = q then rem nb m.rowsB.length else 0)
  | _ => 0
/-- Issued matrix instructions lack rows of queue `q`. -/
def lacksRows (c : Ctx) (q : Nat) : Bool := (c.lrows q).length < (c.mops.map fun m => m.lacks q).sum

end Sys2Proof.Machine
end

