-- ==== Sys2Proof/Machine/Issue.lean ====
section
/-! DEFINITION. Issue from an engine queue (R180, R207, R250, R251, R280): when an engine may issue for a context,
the stepping of a repeat, and the instruction the head entry stands for. -/
namespace Sys2Proof.Machine

/-- The tile of the focused context runs: powered, not halted, at a gear above 0 (R237, R386). -/
def tileRuns (s : State) : Bool :=
  (myDie s).powered && (myDie s).halted.isNone && 0 < (myTile s).gear && (myTile s).change.isNone && !(myTile s).fenced
/-- The load queue an L instruction pushes into. -/
def Instr.loadsInto : Instr → Option Nat
  | .ldq q _ _ => some q
  | .ldqs q _ _ _ _ => some q
  | .ldqg q _ _ _ _ => some q
  | _ => none
/-- A first word with the stepped fields raised by `k` (R250). -/
def steppedWord (w mask k : Nat) : Nat :=
  w + k * ((if bitOf mask 0 then 2 ^ 20 else 0) + (if bitOf mask 1 then 2 ^ 14 else 0)
    + (if bitOf mask 2 then 2 ^ 8 else 0) + (if bitOf mask 3 then 2 ^ 4 else 0))
/-- The instruction that the head of an engine's queue stands for now: of a repeat, the body as its iteration has it. -/
def headInstr (c : Ctx) (e : Engine) : Option Instr :=
  match (c.queue e).head? with
  | none => none
  | some x =>
    if x.marker || !(c.rep e).active then decodeEntry e x
    else decode e (steppedWord x.word (c.rep e).mask (c.rep e).k) x.ext
/-- The head of L's queue feeds an issued `MMA` that lacks rows (R45, step 3). -/
def feedsMma (c : Ctx) : Bool :=
  match headInstr c .l with
  | none => false
  | some i =>
    match Instr.loadsInto i with
    | none => false
    | some q => lacksRows c q
/-- No page fault holds the context back: none is outstanding, or the operation may walk again (R411, R412). -/
def Ctx.faultFree (c : Ctx) : Bool :=
  match c.fault with
  | none => true
  | some f => f.retry
/-- A task stop is due: it does not wait for a handler (R379, R384). -/
def Ctx.stopDue (c : Ctx) : Bool :=
  match c.due with
  | some (.stop _) => true
  | _ => false
/-- Nothing holds the context back: no stop, trap, fault or hold is due. In handler mode pre-emption, debug stops and
asynchronous traps wait for the `ERET` (R378, R379). -/
def Ctx.unheld (c : Ctx) : Bool :=
  c.trapDue.isNone && c.faultFree
    && (if c.handler then !c.stopDue else c.due.isNone && c.asyncDue.isNone && !c.debugHeld)
/-- The entry engine `e` issues next. -/
def headOf (c : Ctx) (e : Engine) : Option Entry := if e = .c && c.handler then c.hq.head? else (c.queue e).head?

/-- A held context is stepped and engine `e` may issue: C until its queue is empty, another engine the one
instruction (R364). -/
def Ctx.steps (c : Ctx) (e : Engine) : Bool :=
  c.debugHeld && c.stepping = some e && c.trapDue.isNone && c.due.isNone && c.faultFree
    && (e = .c || match headOf c e with
        | none => false
        | some x => x.seq = c.stepSeq)
/-- Engine `e` may issue for the focused context. In handler mode C runs alone (R378). -/
def mayIssue (s : State) (e : Engine) : Bool :=
  s.cx.phase = .running && tileRuns s && dutyOpen s (tileOf s.cur)
    && (if s.cx.handler then e = .c && s.cx.unheld
        else s.cx.unheld || s.cx.steps e || (e = .l && feedsMma s.cx && s.cx.fault.isNone))

/-- Position and width of the field of a mask bit. -/
def stepField : Nat → Nat × Nat
  | 0 => (20, 6) | 1 => (14, 6) | 2 => (8, 6) | _ => (4, 4)
/-- An instruction of I form: its imm14 takes the place of b, guard and minor (Table 6.3). -/
def Instr.formI : Instr → Bool
  | .aaddi .. | .ashli .. | .vmovi .. => true
  | _ => false
/-- The body uses a field: its form has the field, and some other value of it makes an instruction too. -/
def usesField (e : Engine) (w : Nat) (ext : Option Nat) (k : Nat) : Bool :=
  let (lo, n) := stepField k
  let short := match decode e w ext with
    | some i => Instr.formI i
    | none => false
  !(short && 2 ≤ k) && (List.range (2 ^ n)).any fun v => v ≠ bits w lo n && (decode e (putBits w lo n v) ext).isSome
/-- A stepped field keeps its role's set and, for V, its cluster, up to the last iteration (R251, R280). -/
def stepOk (e : Engine) (w : Nat) (ext : Option Nat) (mask last : Nat) : Bool :=
  let fits := (List.range 4).all fun k =>
    !bitOf mask k || (bits w (stepField k).1 (stepField k).2 + last < 2 ^ (stepField k).2 && usesField e w ext k)
  let w' := steppedWord w mask last
  fits && (decode e w' ext).isSome
    && (e ≠ .v || (List.range 3).all fun k =>
          !bitOf mask k || (bits w (stepField k).1 6 < 32 || 32 ≤ bits w' (stepField k).1 6)
            && (32 ≤ bits w (stepField k).1 6 || bits w' (stepField k).1 6 < 32))
/-- Bodies a repeat may not have (R251). -/
def Instr.repeatable : Instr → Bool
  | .repL _ | .repS _ | .repV _ | .markL | .markS | .strm .. | .strmc .. | .strmxWait _ | .strmxStop _
  | .strmxRem .. | .wstep _ => false
  | _ => true
/-- Registers that other engines of the context read when they issue (R247). -/
def csrShared (n : Nat) : Bool :=
  n = 0x002 || n = 0x003 || (0x011 ≤ n && n ≤ 0x01F) || (0x021 ≤ n && n ≤ 0x02F) || (0x031 ≤ n && n ≤ 0x03F)
    || n = 0x048 || n = 0x049
/-- The shared registers an instruction of another engine uses: scratchpad addressing the stack bounds, stores and
copies the windows, virtual addressing the locked region. -/
def Instr.usesCsr : Instr → Nat → Bool
  | .ldq .., n | .ldqs .., n | .ldqg .., n | .strm .., n | .strmc .., n => n = 0x002 || n = 0x003 || n = 0x048 || n = 0x049
  | .stq .., n | .stqLong .., n | .stqs .., n | .stqx .., n | .strw .., n | .upd .., n => n ≤ 0x03F
  | .wstep w, n => n = 0x030 + w
  | .mmav .., n => n = 0x048 || n = 0x049
  | .cpy .., _ | .cpylLd .., _ | .cpylSt .., _ | .cpyn .., _ | .cpyr .., _ | .cpyrIp .., _ => true
  | .send .., n | .ringi .., n | .ringr .., n | .ringw .., n => n = 0x002 || n = 0x003
  | .pref .., n | .tlbpre .., n | .tlblk .., n => n = 0x048 || n = 0x049
  | _, _ => false
/-- An instruction waits for a CSR write at an earlier position to a register that it uses (R247). -/
def csrPending (c : Ctx) (i : Instr) (seq : Nat) : Bool :=
  c.qC.any fun x => x.seq < seq && match decodeEntry .c x with
    | some (.csrw _ _ n) => csrShared n && Instr.usesCsr i n
    | some (.csrs _ _ n) => csrShared n && Instr.usesCsr i n
    | _ => false
/-- The slots of the focused tile that have an instruction for an engine to issue. -/
def claimants (s : State) (e : Engine) : List Nat :=
  ((residents s (tileOf s.cur)).filter fun p => (headOf (ctxAt s p) e).isSome && mayIssue (focus s p) e).map slotOf
/-- The engine's arbiter grants the focused context (R156): of the slots that claim it, the first from its pointer on. -/
def issueGranted (s : State) (e : Engine) : Bool :=
  let l := claimants s e
  l.length ≤ 1 || !l.contains (slotOf s.cur) || rotate (zlook 0 (myTile s).issPtr (Engine.code e)) 8 l.contains = some (slotOf s.cur)
/-- The arbiter's pointer moves past the slot it has granted, where others claimed the engine too. -/
def issuePassed (s : State) (e : Engine) : State :=
  if (claimants s e).length ≤ 1 then s
  else updTile s (tileOf s.cur) fun x => { x with issPtr := zset 0 x.issPtr (Engine.code e) ((slotOf s.cur + 1) % 8) }
/-- What a marker does in the queue it was placed in (R28, R29). -/
def markerAct : Instr → Instr
  | .tokp e f ch => .tokenPost e f ch
  | .tokw e f ch => .tokenTake e f ch
  | i => i
/-- The state as the meaning of an entry sees it. -/
def issuing (s : State) (x : Entry) (k : Nat) : State :=
  { s with iss := { seq := x.seq, lane := x.lane, line := x.line, rsN := x.rsN, vals := x.vals, marker := x.marker, k := k } }
/-- The instruction engine `e` issues now and the state it acts on; or, where it issues none, the answer. A word that is no
instruction of its engine, which the line check lets into no queue, has the fate R11 and R393 give it: a program-error trap. -/
def prepare (s : State) (e : Engine) : Except Res (Instr × State) :=
  if !mayIssue s e then .error (wait s)
  else
    match headOf s.cx e with
    | none => .error (wait s)
    | some x =>
      match decodeEntry e x with
      | none => .error (trapN e (if admitsShort e (x.word / 2 ^ 26) || admitsLong e (x.word / 2 ^ 26) then 0x008 else 0x007) x.word (issuing s x 0))
      | some i =>
        if needsSupply e x && x.vals.isNone then .error (wait s)
        else if x.marker then .ok (markerAct i, issuing s x 0)
        else if e ≠ .c && csrPending s.cx i x.seq then .error (wait s)
        else
          let r := s.cx.rep e
          if !r.active then .ok (i, issuing s x 0)
          else if r.remaining = 0 then .error (.next { s with cx := s.cx.discard e x.seq })
          else if r.k = 0 && (65535 < r.remaining || !Instr.repeatable i || !stepOk e x.word x.ext r.mask (r.remaining - 1))
          then .error (trapN e 0x706 r.remaining (issuing s x 0))
          else
            match decode e (steppedWord x.word r.mask r.k) x.ext with
            | none => .error (trapN e 0x706 r.remaining (issuing s x 0))
            | some j => .ok (j, issuing s x r.k)

end Sys2Proof.Machine
end

