-- ==== Sys2Proof/Machine/Integer.lean ====
section
/-! DEFINITION. Integer and logic instructions of C (07, R208 to R210). -/
namespace Sys2Proof.Machine

/-- C writes a result to `g[d]` and issues on (R204, R206). -/
def result (d : Nat) (v : Word) (s : State) : Res := done .c { s with cx := s.cx.setG d v }

/-- One or zero. -/
def flag (b : Bool) : Word := if b then 1 else 0
/-- The signed lesser. -/
def smin (x y : Word) : Word := if x.slt y then x else y
/-- The signed greater. -/
def smax (x y : Word) : Word := if x.slt y then y else x
/-- The unsigned lesser. -/
def umin (x y : Word) : Word := if x < y then x else y
/-- The unsigned greater. -/
def umax (x y : Word) : Word := if x < y then y else x
/-- Bits [127:64] of the signed product. -/
def mulHigh (x y : Word) : Word := BitVec.ofInt 64 (x.toInt * y.toInt / 2 ^ 64)
/-- Bits [127:64] of the unsigned product. -/
def mulHighU (x y : Word) : Word := BitVec.ofNat 64 (x.toNat * y.toNat / 2 ^ 64)
/-- `DIV` (R210). -/
def divS (x y : Word) : Word :=
  if y = 0 then BitVec.allOnes 64
  else if x = BitVec.ofNat 64 (2 ^ 63) && y = BitVec.allOnes 64 then BitVec.ofNat 64 (2 ^ 63)
  else BitVec.ofInt 64 (x.toInt.tdiv y.toInt)
/-- `REM` (R210). -/
def remS (x y : Word) : Word :=
  if y = 0 then x
  else if x = BitVec.ofNat 64 (2 ^ 63) && y = BitVec.allOnes 64 then 0
  else BitVec.ofInt 64 (x.toInt.tmod y.toInt)
/-- `DIVN` (R210). -/
def divU (x y : Word) : Word := if y = 0 then BitVec.allOnes 64 else BitVec.ofNat 64 (x.toNat / y.toNat)
/-- `REMN` (R210). -/
def remU (x y : Word) : Word := if y = 0 then x else BitVec.ofNat 64 (x.toNat % y.toNat)
/-- Leading zero bits, 0 to 64. -/
def leadingZeros (x : Word) : Nat := if x = 0 then 64 else 63 - Nat.log2 x.toNat
/-- One bits, 0 to 64. -/
def popCount (x : Word) : Nat := ((List.range 64).filter fun k => bitOf x.toNat k).length
/-- An immediate as a 64-bit value. -/
def immW (i : Int) : Word := BitVec.ofInt 64 i

/-- `ADD` (R208, Table 7.1). -/
def execAdd (d a b : Nat) (s : State) : Res := result d ((s.cx.gr a) + (s.cx.gr b)) s
/-- `SUB` (R208, Table 7.1). -/
def execSub (d a b : Nat) (s : State) : Res := result d ((s.cx.gr a) - (s.cx.gr b)) s
/-- `AND` (R208, Table 7.1). -/
def execAnd (d a b : Nat) (s : State) : Res := result d ((s.cx.gr a) &&& (s.cx.gr b)) s
/-- `OR` (R208, Table 7.1). -/
def execOr (d a b : Nat) (s : State) : Res := result d ((s.cx.gr a) ||| (s.cx.gr b)) s
/-- `XOR` (R208, Table 7.1). -/
def execXor (d a b : Nat) (s : State) : Res := result d ((s.cx.gr a) ^^^ (s.cx.gr b)) s
/-- `SHL` (R208, Table 7.1). -/
def execShl (d a b : Nat) (s : State) : Res := result d ((s.cx.gr a) <<< ((s.cx.gr b).toNat % 64)) s
/-- `SHR` (R208, Table 7.1). -/
def execShr (d a b : Nat) (s : State) : Res := result d ((s.cx.gr a) >>> ((s.cx.gr b).toNat % 64)) s
/-- `SRA` (R208, Table 7.1). -/
def execSra (d a b : Nat) (s : State) : Res := result d ((s.cx.gr a).sshiftRight ((s.cx.gr b).toNat % 64)) s
/-- `MIN` (R208, Table 7.1). -/
def execMin (d a b : Nat) (s : State) : Res := result d (smin (s.cx.gr a) (s.cx.gr b)) s
/-- `MAX` (R208, Table 7.1). -/
def execMax (d a b : Nat) (s : State) : Res := result d (smax (s.cx.gr a) (s.cx.gr b)) s
/-- `MINN` (R208, Table 7.1). -/
def execMinn (d a b : Nat) (s : State) : Res := result d (umin (s.cx.gr a) (s.cx.gr b)) s
/-- `MAXN` (R208, Table 7.1). -/
def execMaxn (d a b : Nat) (s : State) : Res := result d (umax (s.cx.gr a) (s.cx.gr b)) s
/-- `SLT` (R208, Table 7.1). -/
def execSlt (d a b : Nat) (s : State) : Res := result d (flag ((s.cx.gr a).slt (s.cx.gr b))) s
/-- `SLTN` (R208, Table 7.1). -/
def execSltn (d a b : Nat) (s : State) : Res := result d (flag (decide ((s.cx.gr a) < (s.cx.gr b)))) s
/-- `SEQ` (R208, Table 7.1). -/
def execSeq (d a b : Nat) (s : State) : Res := result d (flag (decide ((s.cx.gr a) = (s.cx.gr b)))) s
/-- `MUL` (R208, Table 7.1). -/
def execMul (d a b : Nat) (s : State) : Res := result d ((s.cx.gr a) * (s.cx.gr b)) s
/-- `MULH` (R208, Table 7.1). -/
def execMulh (d a b : Nat) (s : State) : Res := result d (mulHigh (s.cx.gr a) (s.cx.gr b)) s
/-- `MULHN` (R208, Table 7.1). -/
def execMulhn (d a b : Nat) (s : State) : Res := result d (mulHighU (s.cx.gr a) (s.cx.gr b)) s
/-- `DIV` (R210). -/
def execDiv (d a b : Nat) (s : State) : Res := result d (divS (s.cx.gr a) (s.cx.gr b)) s
/-- `DIVN` (R210). -/
def execDivn (d a b : Nat) (s : State) : Res := result d (divU (s.cx.gr a) (s.cx.gr b)) s
/-- `REM` (R210). -/
def execRem (d a b : Nat) (s : State) : Res := result d (remS (s.cx.gr a) (s.cx.gr b)) s
/-- `REMN` (R210). -/
def execRemn (d a b : Nat) (s : State) : Res := result d (remU (s.cx.gr a) (s.cx.gr b)) s
/-- `CLZ` (R208). -/
def execClz (d a : Nat) (s : State) : Res := result d (BitVec.ofNat 64 (leadingZeros (s.cx.gr a))) s
/-- `POPC` (R208). -/
def execPopc (d a : Nat) (s : State) : Res := result d (BitVec.ofNat 64 (popCount (s.cx.gr a))) s
/-- `MOV` (R208). -/
def execMov (d a : Nat) (s : State) : Res := result d (s.cx.gr a) s
/-- `SEL` (R208): with c = 0 always g[b]. -/
def execSel (d c a b : Nat) (s : State) : Res := result d (if s.cx.gr c ≠ 0 then s.cx.gr a else s.cx.gr b) s
/-- `ADDI` (R209, Table 7.2). -/
def execAddi (d a : Nat) (imm : Int) (s : State) : Res := result d ((s.cx.gr a) + (immW imm)) s
/-- `ADDI` with an imm32 (R209, Table 7.2). -/
def execAddiLong (d a : Nat) (imm : Int) (s : State) : Res := result d ((s.cx.gr a) + (immW imm)) s
/-- `ANDI` (R209, Table 7.2). -/
def execAndi (d a : Nat) (imm : Int) (s : State) : Res := result d ((s.cx.gr a) &&& (immW imm)) s
/-- `ANDI` with an imm32 (R209, Table 7.2). -/
def execAndiLong (d a : Nat) (imm : Int) (s : State) : Res := result d ((s.cx.gr a) &&& (immW imm)) s
/-- `ORI` (R209, Table 7.2). -/
def execOri (d a : Nat) (imm : Int) (s : State) : Res := result d ((s.cx.gr a) ||| (immW imm)) s
/-- `ORI` with an imm32 (R209, Table 7.2). -/
def execOriLong (d a : Nat) (imm : Int) (s : State) : Res := result d ((s.cx.gr a) ||| (immW imm)) s
/-- `XORI` (R209, Table 7.2). -/
def execXori (d a : Nat) (imm : Int) (s : State) : Res := result d ((s.cx.gr a) ^^^ (immW imm)) s
/-- `XORI` with an imm32 (R209, Table 7.2). -/
def execXoriLong (d a : Nat) (imm : Int) (s : State) : Res := result d ((s.cx.gr a) ^^^ (immW imm)) s
/-- `SLTI` (R209, Table 7.2). -/
def execSlti (d a : Nat) (imm : Int) (s : State) : Res := result d (flag ((s.cx.gr a).slt (immW imm))) s
/-- `SLTI` with an imm32 (R209, Table 7.2). -/
def execSltiLong (d a : Nat) (imm : Int) (s : State) : Res := result d (flag ((s.cx.gr a).slt (immW imm))) s
/-- `SHLI` (R209). -/
def execShli (d a n : Nat) (s : State) : Res := result d (s.cx.gr a <<< (n % 64)) s
/-- `SHRI` (R209). -/
def execShri (d a n : Nat) (s : State) : Res := result d (s.cx.gr a >>> (n % 64)) s
/-- `SRAI` (R209). -/
def execSrai (d a n : Nat) (s : State) : Res := result d ((s.cx.gr a).sshiftRight (n % 64)) s
/-- `MOVI` (R209). -/
def execMovi (d : Nat) (imm : Int) (s : State) : Res := result d (immW imm) s
/-- `MOVI` with an imm32 (R209). -/
def execMoviLong (d : Nat) (imm : Int) (s : State) : Res := result d (immW imm) s

end Sys2Proof.Machine
end

