-- ==== Sys2Proof/Machine/Legend.lean ====
section
/-! DEFINITION. Legends, sheets and re-encoding on first touch (03, R102, R106 to R113; 05, R169, R170; 16, R404, R405,
R414). -/
namespace Sys2Proof.Machine

/-- A legend (Table 3.11). -/
structure Legend where
  base : Nat
  low : Nat
  size : Nat
  ext0 : Nat
  ext1 : Nat
  ext2 : Nat
  ext3 : Nat
  s1 : Int
  s2 : Int
  s3 : Int
  cur : Nat
  prev : Nat
  edition : Nat
  scale : Elem
  version : Nat
  layer : Nat
  role : Nat
  laggard : Nat
  valid : Bool
  governed : Bool
  writable : Bool
  deriving DecidableEq, Repr
/-- The legend of 64 bytes. -/
def legendOf (b : List Byte) : Legend :=
  let w := fieldAt b 0x36 2
  let f := fieldAt b 0x3C 4
  { base := fieldAt b 0 8 % 2 ^ 57, low := fieldAt b 8 8 % 2 ^ 57 / 4096 * 4096, size := fieldAt b 0x10 4,
    ext0 := fieldAt b 0x14 4, ext1 := fieldAt b 0x18 4, ext2 := fieldAt b 0x1C 2, ext3 := fieldAt b 0x1E 2,
    s1 := toSigned 32 (fieldAt b 0x20 4), s2 := toSigned 32 (fieldAt b 0x24 4), s3 := toSigned 32 (fieldAt b 0x28 4),
    cur := fieldAt b 0x2C 1, prev := fieldAt b 0x2D 1, edition := fieldAt b 0x2E 2,
    scale := BitVec.ofNat 32 (fieldAt b 0x30 4), version := fieldAt b 0x34 2, layer := bits w 0 12,
    role := bits w 12 3, laggard := fieldAt b 0x38 4, valid := bitOf f 0, governed := bitOf f 1, writable := bitOf f 2 }
/-- An extent of 0 stands for 1 (R102). -/
def dim (n : Nat) : Nat := if n = 0 then 1 else n
/-- Rows of a legend (R102). -/
def Legend.rows (l : Legend) : Nat := dim l.ext1 * dim l.ext2 * dim l.ext3
/-- The address of row `k`, counting the first outer index fastest (R102). -/
def Legend.rowVa (l : Legend) (k : Nat) : Nat :=
  let i1 := k % dim l.ext1
  let i2 := k / dim l.ext1 % dim l.ext2
  let i3 := k / dim l.ext1 / dim l.ext2
  (((l.base : Int) + i1 * l.s1 + i2 * l.s2 + i3 * l.s3) % (2 ^ 57 : Nat)).toNat
/-- A range lies in the bounds of a legend (R109). -/
def Legend.covers (l : Legend) (va n : Nat) : Bool := l.low ≤ va57 va && va57 va + n ≤ l.low + 4096 * l.size
/-- Bytes of a row under a setting byte. -/
def rowLen (setting ext0 : Nat) : Nat :=
  match settingOf setting with
  | some x => x.rowBytes ext0
  | none => 0

/-! ### The atlas (R106, R405) -/

/-- What reading a legend, or a touch through one, may end in. -/
inductive TouchErr where
  | trap (code tval : Nat)
  | xlat (va : Nat) (x : Xlat)
  /-- a tag that is neither edition: where, and the tag (R169) -/
  | tag (va tag : Nat)
  /-- a malformed block of the previous setting: where, its format and scale bytes, and the tag of its sheet -/
  | header (va value tag : Nat)
  | ecc (key : Nat)
  deriving DecidableEq, Repr

/-- The governor's translation of an address of a tenant's governor table (R163). -/
def govKey (s : State) (d tenant va : Nat) : Option Nat :=
  ((tenantAt s d tenant).govTr.find? fun t => t.covers va).map fun t => devKey (d / 16) (t.phys va)
/-- The ladder of a tenant's policy block (Table 5.6), where it has a governor table. -/
def ladderOf (s : State) (d tenant : Nat) : List Nat :=
  let g := (tenantAt s d tenant).govbase
  if !bitOf g.toNat 0 then []
  else
    match govKey s d tenant (wbits g 22 35 * 2 ^ 22 + 0x300000) with
    | none => []
    | some k => ((peek s k 8).map (·.toNat)).takeWhile fun b => b ≠ 0xFF
/-- The address of a legend in a tenant's atlas; none beyond it (R106). -/
def legendVa (atlas : Word) (id : Nat) : Option Nat :=
  if id < 64 * (wbits atlas 0 10 + 1) then some (wbits atlas 12 45 * 4096 + 64 * id) else none
/-- The rows of a legend that begin in a range of addresses. -/
def Legend.rowsIn (l : Legend) (lo n : Nat) : List Nat :=
  (List.range (dim l.ext2 * dim l.ext3)).flatMap fun j =>
    let start := l.rowVa (j * dim l.ext1)
    let cand := if 0 < l.s1 then
        let first := if lo ≤ start then 0 else ceilDiv (lo - start) l.s1.toNat
        (List.range (min (dim l.ext1 - first) (n / l.s1.toNat + 1))).map fun k => first + k
      else List.range (dim l.ext1)
    (cand.map fun i => l.rowVa (j * dim l.ext1 + i)).filter fun va => lo ≤ va && va < lo + n
/-- Bytes of a row under the wider of a legend's two settings. -/
def Legend.rowMax (l : Legend) : Nat := max (rowLen l.cur l.ext0) (rowLen l.prev l.ext0)
/-- The least address of a legend's rows, and the end of the one that ends last. -/
def Legend.extent (l : Legend) : Int × Int :=
  [(dim l.ext1, l.s1), (dim l.ext2, l.s2), (dim l.ext3, l.s3)].foldl (fun (lo, hi) (n, t) =>
    if t < 0 then (lo + (n - 1 : Int) * t, hi) else (lo, hi + (n - 1 : Int) * t)) ((l.base : Int), (l.base + l.rowMax : Int))
/-- Some row of a legend shares a byte with some row of another (R110). -/
def Legend.sharesRows (a b : Legend) : Bool :=
  0 < a.rowMax && 0 < b.rowMax && a.extent.1 < b.extent.2 && b.extent.1 < a.extent.2
    && (List.range a.rows).any fun k =>
      let va := a.rowVa k
      !(b.rowsIn (va + 1 - b.rowMax) (va + a.rowMax - (va + 1 - b.rowMax))).isEmpty
/-- Legend `id` of an atlas, where the tenant's page table maps it. -/
def atlasLegend (s : State) (d tenant : Nat) (atlas : Word) (id : Nat) : Option Legend :=
  match legendVa atlas id with
  | none => none
  | some va =>
    match (walk s d tenant va).1 with
    | .page t => some (legendOf (peek s (devKey (d / 16) (t.phys va)) 64))
    | .fault _ _ => none
/-- Another valid legend of the atlas shares a row's bytes with legend `id` (R110). -/
def atlasShares (s : State) (d tenant : Nat) (atlas : Word) (id : Nat) (l : Legend) : Bool :=
  (List.range (64 * (wbits atlas 0 10 + 1))).any fun k => k ≠ id && match atlasLegend s d tenant atlas k with
    | some m => m.valid && l.sharesRows m
    | none => false
/-- A governed legend meets R110: stride1 a power of two from 256 bytes to 64 KiB, base aligned to it, every setting's row
fits in it, and no row is shared with another legend. -/
def governedOk (s : State) (d tenant : Nat) (atlas : Word) (id : Nat) (l : Legend) : Bool :=
  let s1 := l.s1.toNat
  !l.governed ||
    ((List.range 9).any (fun k => l.s1 = ((256 * 2 ^ k : Nat) : Int)) && l.base % s1 = 0
      && ((l.cur :: l.prev :: ladderOf s d tenant).all fun b => rowLen b l.ext0 ≤ s1)
      && !atlasShares s d tenant atlas id l)
/-- A legend may be named by a command (R405). -/
def Legend.usable (s : State) (d tenant : Nat) (atlas : Word) (id : Nat) (l : Legend) : Bool :=
  l.valid && (settingOf l.cur).isSome && (settingOf l.prev).isSome && governedOk s d tenant atlas id l
/-- A legend read once at issue, through an engine's translation (R106, R111, R405). -/
def readLegend (s : State) (p : Nat) (e : Engine) (id : Nat) : Except TouchErr (List Byte × State) :=
  match legendVa ((ctxAt s p).cr 0x00E) id with
  | none => .error (.trap 0x708 id)
  | some va =>
    match translate s p e va false false with
    | .ok key s1 =>
      let s2 := touch s1 (ctxAt s p).tenant key 64
      if eccLevel s2 key 64 = 2 then .error (.ecc key)
      else
        let b := peek s2 key 64
        if (legendOf b).usable s2 (dieOf p) (ctxAt s p).tenant ((ctxAt s p).cr 0x00E) id then .ok (b, s2) else .error (.trap 0x712 id)
    | x => .error (.xlat va x)

/-! ### Sheets and re-encoding (R112, R113, R169, R170) -/

/-- The edition tag of the sheet of a key. -/
def sheetTag (s : State) (key : Nat) : Nat := (memGet s.tags (key / 4096) ^^^ lostTag s key).toNat
def setTag (s : State) (key tag : Nat) : State :=
  { s with tags := memSet s.tags (key / 4096) (BitVec.ofNat 8 tag ^^^ lostTag s key) }
/-- Bytes of a re-encoding unit (R113). -/
def Legend.unit (l : Legend) : Nat := if l.s1 ≤ 4096 then 4096 else l.s1.toNat
/-- The offset of the first block of a row whose header is not the setting's; 0 where none is. -/
def badBlock (x : Setting) (n : Nat) (b : List Byte) : Nat :=
  match x with
  | .plain _ => 0
  | .block f k =>
    let size := blockBytes f k
    size * ((List.range (ceilDiv n k)).find? fun i => readHeader (fieldAt b (size * i) 1) ≠ some (f, k)).getD 0
/-- The bytes of a governed row's slot beyond its new encoding, `n` of them from number `from'` of the free values: they are
undefined (R110): free values (DESIGN CHOICE, log 23). -/
def slotRest (l : Legend) (n free : Nat) : List Byte :=
  if l.governed then (List.range (l.s1.toNat - n)).map fun j => BitVec.ofNat 8 (Config.freeWord (free + j)).toNat else []
/-- The rows of a unit in their new encoding: address and bytes; or the first malformed block. -/
def reencodeRows (s : State) (l : Legend) (old new : Setting) (uva ukey : Nat) :
    List Nat → Except TouchErr (List (Nat × List Byte))
  | [] => .ok []
  | va :: r =>
    let key := ukey + (va - uva)
    let b := peek s key (old.rowBytes l.ext0)
    match old.decodeRow l.ext0 b with
    | none =>
      let o := badBlock old l.ext0 b
      .error (.header (va + o) (fieldAt b o 2) (sheetTag s (key + o)))
    | some v =>
      match reencodeRows s l old new uva ukey r with
      | .ok rest =>
        let q := (new.encodeRow v).bytes
        .ok ((key, q ++ slotRest l q.length (s.free + (va - uva))) :: rest)
      | .error x => .error x
/-- The laggard count of legend `id` is lowered, on the governor's authority (R107, R169). -/
def lowerLaggard (s : State) (p : Nat) (e : Engine) (id n : Nat) : Except TouchErr State :=
  match legendVa ((ctxAt s p).cr 0x00E) id with
  | none => .ok s
  | some va =>
    match translate s p e (va + 0x38) false false with
    | .ok key s1 =>
      let c := leNat (peek s1 key 4)
      .ok (poke s1 (ctxAt s p).tenant key (leBytes 4 (c - n)) false)
    | x => .error (.xlat va x)
/-- The sheets of a unit, and the first of them, by its offset, whose tag is neither of a snapshot's two editions. -/
def Legend.sheets (l : Legend) (ukey : Nat) : List Nat := (List.range (l.unit / 4096)).map fun k => ukey + 4096 * k
def strayTag (s : State) (l : Legend) (ukey : Nat) : Option Nat :=
  (l.sheets ukey).find? fun k => sheetTag s k ≠ l.edition % 256 && sheetTag s k ≠ (l.edition + 255) % 256
/-- A touch of the unit that holds an address, through a snapshot of legend `id` (R169): a unit of the previous
edition is re-encoded whole, retagged and counted off; one with any other tag is left as it is (R414). -/
def touchUnit (s : State) (p : Nat) (e : Engine) (snap : List Byte) (id va : Nat) : Except TouchErr State :=
  let l := legendOf snap
  let uva := va57 va / l.unit * l.unit
  match translate s p e uva false false with
  | .ok ukey s1 =>
    match strayTag s1 l ukey with
    | some k => .error (.tag (uva + (k - ukey)) (sheetTag s1 k))
    | none =>
      if (l.sheets ukey).all fun k => sheetTag s1 k = l.edition % 256 then .ok s1
      else
        match settingOf l.prev, settingOf l.cur with
        | some old, some new =>
          let at' := l.rowsIn uva l.unit
          let t := (ctxAt s p).tenant
          let s2 := at'.foldl (fun s va => touch s t (ukey + (va - uva)) (old.rowBytes l.ext0)) s1
          match (linesOf ukey l.unit).find? fun k => eccLine s2 k = 2 with
          | some k => .error (.ecc (64 * k))
          | none =>
            let s3 := eccCorrect s2 ukey l.unit
            match reencodeRows s3 l old new uva ukey at' with
            | .error x => .error x
            | .ok rows =>
              let lag := ((l.sheets ukey).filter fun k => sheetTag s1 k ≠ l.edition % 256).length
              match lowerLaggard s3 p e id lag with
              | .error x => .error x
              | .ok s4 =>
                let s5 := rows.foldl (fun s x => poke s t x.1 x.2 false) s4
                .ok { (l.sheets ukey).foldl (fun s k => setTag s k (l.edition % 256)) s5 with free := s4.free + l.unit }
        | _, _ => .error (.trap 0x712 id)
  | x => .error (.xlat uva x)
/-- The addresses of the units that a range touches: a row of no bytes (R102) touches none (DESIGN CHOICE, log 13). -/
def Legend.unitsOf (l : Legend) (va n : Nat) : List Nat :=
  if n = 0 then [] else
    (List.range ((va + n - 1) / l.unit - va / l.unit + 1)).map fun k => max va ((va / l.unit + k) * l.unit)
/-- A touch of every unit of a range. -/
def touchUnits (s : State) (p : Nat) (e : Engine) (snap : List Byte) (id : Nat) : List Nat → Except TouchErr State
  | [] => .ok s
  | va :: r =>
    match touchUnit s p e snap id va with
    | .ok s1 => touchUnits s1 p e snap id r
    | .error x => .error x
/-- The record of a failed re-encoding and the stop of the task: reason 9, or 8 for a memory error (R414, R417). -/
def reencodeStop (s : State) (subkind va value cause : Nat) : State :=
  stopMine (writeRecord s (dieOf s.cur) (ctxRecord s s.cur
    { kind := 4, sev := 3, unit := 6, addr := va, value := value, cause := cause, action := 4,
      detail := leBytes 1 subkind })) 9 none
/-- A touch that failed at the issued instruction of an engine; `subkind` names the record of a re-encoding. -/
def badTouch (e : Engine) (subkind : Nat) (snap : List Byte) (x : TouchErr) (s : State) : Res :=
  match x with
  | .trap code tval => trapN e code tval s
  | .xlat va x => badXlat e va 1 x s
  | .tag va t => .next (reencodeStop s subkind va (t * 2 ^ 16 + (legendOf snap).edition * 2 ^ 24) 0x712)
  | .header va v tag => .next (reencodeStop s subkind va (v + tag * 2 ^ 16 + (legendOf snap).edition * 2 ^ 24) 0x714)
  | .ecc key => .next (eccStopAt s key 1)

end Sys2Proof.Machine
end

