-- ==== Sys2Proof/Machine/Scratch.lean ====
section
/-! DEFINITION. The scratchpad: addresses and windows, the checks an access meets, reads and writes of an allotment and
the errors they meet, and posted writes and packets leaving a place (03, R84 to R92; 08, R258, R275; 16, R408). -/
namespace Sys2Proof.Machine

/-! ### Registers as an engine sees them (R247) -/

/-- The window of a scratchpad address (R85). -/
def spWin (v : Word) : Nat := wbits v 36 4
/-- The offset of a scratchpad address. -/
def spOff (v : Word) : Nat := wbits v 0 20
/-- Window `w`'s `winbase` as an instruction at position `seq` sees it; the register of window 0 is none. -/
def winReg (c : Ctx) (seq w : Nat) : Nat := (seenCr c (0x010 + w) seq).toNat
/-- Bytes of a window of a `winbase` value (R88). -/
def winBytes (wb : Nat) : Nat := 65536 * (bits wb 12 4 + 1)
/-- The tile's place that a `winbase` value aims at (Table 3.2). -/
def winPlace (wb : Nat) : Nat := bits wb 45 17 * 2 ^ 15
/-- A window is enabled and names a module of the system (R88). -/
def winOn (s : State) (wb : Nat) : Bool := bitOf wb 63 && bits wb 56 6 < s.z
/-- A range of window 0 overlaps the stack region (R86). -/
def onStack (c : Ctx) (seq off n : Nat) : Bool :=
  let lo := (seenCr c 0x002 seq).toNat
  let hi := (seenCr c 0x003 seq).toNat
  0 < n && lo < hi && off < hi && lo < off + n

/-- A failed check: code and `tval`. -/
abbrev Fail := Nat × Word
/-- The checks of R85 to R88 on an access of `n` bytes at a scratchpad address, by an instruction at `seq`. -/
def spFault (s : State) (seq : Nat) (v : Word) (n : Nat) : Option Fail :=
  if n = 0 then none
  else if wbits v 40 24 ≠ 0 || wbits v 20 16 ≠ 0 || 2 ^ 20 < spOff v + n then some (0x701, v)
  else if spWin v = 0 then
    if s.cx.spadSize < spOff v + n || onStack s.cx seq (spOff v) n then some (0x701, v) else none
  else
    let wb := winReg s.cx seq (spWin v)
    if !winOn s wb then some (0x704, BitVec.ofNat 64 (spWin v))
    else if winBytes wb < spOff v + n then some (0x701, v)
    else none
/-- The checks of a window-0 access: `other` is the code where the address is in another window (0x201 for L, 0x301
for S, 0x701 for X). -/
def spFault0 (s : State) (seq other : Nat) (v : Word) (n : Nat) : Option Fail :=
  if spWin v ≠ 0 then some (other, v) else spFault s seq v n
/-- An address is a multiple of `n`, or fails with 0x702. -/
def alignFault (v : Word) (n : Nat) : Option Fail := if v.toNat % n = 0 then none else some (0x702, v)
/-- The first of several checks that fails. -/
def firstFault : List (Option Fail) → Option Fail
  | [] => none
  | some f :: _ => some f
  | none :: r => firstFault r
/-- A trap where a check failed, and otherwise what follows. -/
def checked (e : Engine) (f : Option Fail) (k : State → Res) (s : State) : Res :=
  match f with
  | some (code, tval) => trap e code tval s
  | none => k s

/-! ### Bytes of the allotment -/

/-- Bytes of the focused context's allotment. -/
def spadRead (c : Ctx) (off n : Nat) : List Byte := memRead c.spad off n
/-- Bytes written to an allotment; words that are written whole lose their errors. -/
def spadWrite (c : Ctx) (off : Nat) (d : List Byte) : Ctx :=
  { c with
    spad := memWrite c.spad off d
    bad := c.bad.filter fun b => !(off ≤ 8 * (b / 2) && 8 * (b / 2) + 8 ≤ off + d.length) }
/-- Listed bytes written to an allotment, later ones winning; words that are written whole lose their errors. -/
def spadPut (c : Ctx) (l : List Host.Cell) : Ctx :=
  { c with
    spad := l.foldl (fun m x => memSet m x.1 x.2) c.spad
    bad := c.bad.filter fun b => !(List.range 8).all fun i => l.any fun x => x.1 = 8 * (b / 2) + i }
/-- A word of the allotment lies in one of the ranges. -/
def inRanges (l : List (Nat × Nat)) (word : Nat) : Bool := l.any fun x => 0 < x.2 && x.1 < 8 * word + 8 && 8 * word < x.1 + x.2
/-- What reads of ranges of the focused allotment meet: an uncorrected word stops the task; a corrected one is written
back and recorded (R408). -/
def spadMeet (s : State) (l : List (Nat × Nat)) : Except State State :=
  match s.cx.bad.find? fun b => b % 2 = 1 && inRanges l (b / 2) with
  | some b => .error (eccStop s 0x10 (s.cx.spadBase + 8 * (b / 2)))
  | none =>
    match s.cx.bad.find? fun b => inRanges l (b / 2) with
    | none => .ok s
    | some b =>
      let s1 := freeRecord s (dieOf s.cur) (ctxRecord s s.cur (arrayRecord s 0x10 1 (s.cx.spadBase + 8 * (b / 2))))
      .ok { s1 with cx := { s1.cx with bad := s1.cx.bad.filter fun b => !inRanges l (b / 2) } }
/-- Ranges of the focused allotment are read: the task stops on an uncorrected word, and otherwise `k` follows. -/
def consuming (l : List (Nat × Nat)) (k : State → Res) (s : State) : Res :=
  match spadMeet s l with
  | .ok s1 => k s1
  | .error s1 => .next s1

/-! ### Guards of S (R257) -/

/-- Element `k` of size `e` of a row is enabled. -/
def enabledAt (p : BitVec 1024) (tag e k : Nat) : Bool := p.getLsbD (64 * tag + k * e / 4)
/-- The enabled elements of a row, ascending. -/
def enabledOf (c : Ctx) (g tag e : Nat) : List Nat := (List.range (256 / e)).filter (enabledAt (c.pr g) tag e)

/-! ### Packets -/

/-- A packet of the focused context. -/
def myPacket (s : State) (dst cls : Nat) (b : Body) : Packet :=
  { src := s.cur, dst := dst, cls := cls, tenant := s.cx.tenant, task := s.cx.task, inst := s.cx.inst, body := b, since := s.now }

/-! ### Posted writes (R88 to R91) -/

/-- The granules that bytes at offsets fall in. -/
def granulesOf (l : List Host.Cell) : List Nat := (l.map fun x => x.1 / 64).eraseDups
/-- Granules outstanding through a window, and its allowance (Table 3.3). -/
def winOut (c : Ctx) (w : Nat) : Nat := wbits (c.cr (0x020 + w)) 32 16
def winAllow (c : Ctx) (seq w : Nat) : Nat := wbits (seenCr c (0x020 + w) seq) 0 16
def setWinOut (c : Ctx) (w n : Nat) : Ctx := c.setCr (0x020 + w) (wput (c.cr (0x020 + w)) 32 16 n)
/-- A posted write of `n` granules may depart (R90). -/
def mayDepart (c : Ctx) (seq w n : Nat) : Bool := winOut c w = 0 || winOut c w + n ≤ winAllow c seq w
/-- A posted write departs: bytes by window offset, in the window's class and with its step. -/
def depart (s : State) (w : Nat) (l : List Host.Cell) : State :=
  let wb := winReg s.cx s.iss.seq w
  let n := (granulesOf l).length
  if n = 0 then s
  else
    let cells := l.map fun x => (65536 * bits wb 16 4 + x.1, x.2)
    let step := (seenCr s.cx (0x030 + w) s.iss.seq).toNat % 65536
    let s1 := { s with cx := setWinOut s.cx w (winOut s.cx w + n) }
    sendPacket s1 (myPacket s1 (winPlace wb) (bits wb 62 1) (.posted w step cells n none none s.iss.seq))

end Sys2Proof.Machine
end

