-- ==== Sys2Proof/Machine/Access.lean ====
section
/-! DEFINITION. The access engine L: address arithmetic, queue loads, streams, marks and repeats (08, R249 to R256; 04, R128). -/
namespace Sys2Proof.Machine

/-! ### Address arithmetic (Table 8.1) -/

/-- An access register is written in an engine's order. -/
def setAcc (e : Engine) (d : Nat) (v : Word) (s : State) : Res := done e { s with cx := s.cx.setA d v }
/-- `AADD` (R249). -/
def execAadd (d a b : Nat) (s : State) : Res := setAcc .l d (s.cx.ar a + s.cx.ar b) s
/-- `AMOVG` (R249). -/
def execAmovg (d a : Nat) (s : State) : Res := setAcc .l d (s.cx.ar a) s
/-- `AADDI` (R249). -/
def execAaddi (d a : Nat) (imm : Int) (s : State) : Res := setAcc .l d (s.cx.ar a + immW imm) s
/-- `ASHLI` (R249). -/
def execAshli (d a n : Nat) (s : State) : Res := setAcc .l d (s.cx.ar a <<< n) s
/-- `SADD` (R249). -/
def execSadd (d a b : Nat) (s : State) : Res := setAcc .s d (s.cx.ar a + s.cx.ar b) s

/-! ### Repeats (R33, R190, R250) -/

/-- The step mask of a repeat. -/
def Rep.mask (r : Rep) : Nat := (if r.sd then 1 else 0) + (if r.sa then 2 else 0) + (if r.sb then 4 else 0) + (if r.sg then 8 else 0)
/-- The count of a repeat: a register counts whole, so that one above 65,535 traps at its body (R251). -/
def repCount (c : Ctx) (r : Rep) : Nat :=
  match r.count with
  | .imm n => n
  | .reg a => (c.ar a).toNat
/-- A repeat arms its engine: it counts for the next instruction; a repeat of a repeat traps (R251). -/
def armRepeat (e : Engine) (r : Rep) (s : State) : Res :=
  .next { s with cx := ((s.cx.pop e).setRep e { active := true, remaining := repCount s.cx r, k := 0, mask := Rep.mask r }) }
/-- `REP.L` (R250). -/
def execRepL (r : Rep) (s : State) : Res := armRepeat .l r s
/-- `REP.S` (R250). -/
def execRepS (r : Rep) (s : State) : Res := armRepeat .s r s
/-- `REP.V` (R280). -/
def execRepV (r : Rep) (s : State) : Res := armRepeat .v r s

/-! ### Queue loads (Table 8.2) -/

/-- A live binding pushes into a load queue. -/
def bound (c : Ctx) (q : Nat) : Bool := c.strm.any fun e => e.2.queue = q
/-- A row is pushed at the tail of a load queue. -/
def pushRow (c : Ctx) (q : Nat) (d : List Byte) : Ctx := c.setL q (c.lrows q ++ [{ data := padTo 256 d }])
/-- An explicit load waits for room and for a binding on its queue. -/
def loadWaits (c : Ctx) (q : Nat) : Bool := 32 ≤ (c.lrows q).length || bound c q
/-- The checks of window-0 reads of `n` bytes each, naturally aligned to `al` (Table 8.11). -/
def loadFaults (s : State) (n al : Nat) (l : List Word) : Option Fail :=
  firstFault (l.flatMap fun v => [spFault0 s s.iss.seq 0x201 v n, alignFault v al])
/-- Elements of `n` bytes are read and pushed as one row, and a register is raised. -/
def loadElems (q n al : Nat) (l : List Word) (post : Option (Nat × Word)) (s : State) : Res :=
  checked .l (loadFaults s n al l) (consuming (l.map fun v => (spOff v, n)) fun s =>
    let c := pushRow s.cx q (l.flatMap fun v => spadRead s.cx (spOff v) n)
    done .l { s with cx := match post with
      | some (a, v) => c.setA a v
      | none => c }) s
/-- The post-increment of a register. -/
def post (pi : Bool) (a : Nat) (v : Word) : Option (Nat × Word) := if pi then some (a, v) else none

/-- `LDQ` (R252). -/
def execLdq (q a : Nat) (pi : Bool) (s : State) : Res :=
  if loadWaits s.cx q then wait s
  else loadElems q 256 64 [s.cx.ar a] (post pi a (s.cx.ar a + 256)) s
/-- `LDQS` (R252). -/
def execLdqs (q a b lg : Nat) (pi : Bool) (s : State) : Res :=
  let e := 2 ^ lg
  if loadWaits s.cx q then wait s
  else
    loadElems q e e ((List.range (256 / e)).map fun k => s.cx.ar a + BitVec.ofNat 64 k * s.cx.ar b)
      (post pi a (s.cx.ar a + BitVec.ofNat 64 (256 / e) * s.cx.ar b)) s
/-- The signed 32-bit index at position `k` of bytes. -/
def indexAt (b : List Byte) (k : Nat) : Int := toSigned 32 (fieldAt b (4 * k) 4)
/-- `LDQG` (R252). -/
def execLdqg (q a b lg : Nat) (pi : Bool) (s : State) : Res :=
  let e := 2 ^ lg
  let n := 256 / e
  if loadWaits s.cx q then wait s
  else
    checked .l (loadFaults s 4 4 ((List.range n).map fun k => s.cx.ar b + BitVec.ofNat 64 (4 * k)))
      (consuming [(spOff (s.cx.ar b), 4 * n)] fun s =>
        let x := spadRead s.cx (spOff (s.cx.ar b)) (4 * n)
        loadElems q e e ((List.range n).map fun k => s.cx.ar a + BitVec.ofInt 64 (indexAt x k * e))
          (post pi b (s.cx.ar b + BitVec.ofNat 64 (4 * n))) s) s

/-! ### Reads of device memory by an engine -/

/-- What a read of device memory ends in. -/
inductive VRead where
  | ok (b : List Byte) (s : State)
  | xlat (va : Nat) (x : Xlat)
  | window (s : State)
  | ecc (key : Nat) (s : State)
  deriving DecidableEq, Repr
/-- A read of pieces of virtual memory by the focused context through an engine's TLB (R115, R100, R408). -/
def virtRead (s : State) (e : Engine) (l : List (Nat × Nat)) : VRead :=
  match translateRange s s.cur e false l with
  | .error (va, f) => .xlat va f
  | .ok (keys, s1) =>
    if keys.any fun x => !windowReady s1 x.1 x.2 false then .window (keys.foldl (fun s x => windowRecall s x.1 x.2 false) s1)
    else
      let s2 := touchPieces s1 s.cx.tenant keys
      match keys.find? fun x => eccLevel s2 x.1 x.2 = 2 with
      | some (key, _) => .ecc key s2
      | none =>
        let s3 := keys.foldl (fun s x => eccCorrect s x.1 x.2) s2
        .ok (peekPieces s3 keys) s3
/-- A read that did not end in bytes: the fault, the wait or the stop it means for the focused context. -/
def badRead (e : Engine) (r : VRead) (s : State) : Res :=
  match r with
  | .ok _ s1 => .next s1
  | .xlat va x => badXlat e va 1 x s
  | .window s1 => .next s1
  | .ecc key s1 => .next (eccStopAt s1 key 1)

/-! ### Stream descriptors (Table 8.3) -/

/-- A stream descriptor. -/
structure StreamDesc where
  base : Nat
  counts : List Nat
  strides : List Int
  e : Nat
  virt : Bool
  legend : Nat
  layout : Nat
  deriving DecidableEq, Repr
def streamDesc (b : List Byte) : StreamDesc :=
  { base := fieldAt b 0 8, counts := [0, 1, 2, 3].map fun k => fieldAt b (8 + 4 * k) 4
    strides := [0, 1, 2, 3].map fun k => toSigned 32 (fieldAt b (0x18 + 4 * k) 4)
    e := 2 ^ (fieldAt b 0x28 1 % 4), virt := bitOf (fieldAt b 0x28 1) 2, legend := fieldAt b 0x2A 2
    layout := fieldAt b 0x30 8 }
/-- A reserved value or a zero count (code 0x203). -/
def descBad (b : List Byte) (contour : Bool) : Bool :=
  let d := streamDesc b
  fieldAt b 0x28 1 / 8 ≠ 0 || fieldAt b 0x29 1 ≠ 0 || fieldAt b 0x2C 4 ≠ 0 || fieldAt b 0x38 8 ≠ 0
    || d.counts.contains 0
    || (if contour then d.virt || d.counts.head? ≠ some 1 else d.layout ≠ 0)
    || (if d.virt then 2 ^ 57 ≤ d.base else d.legend ≠ 0xFFFF)
/-- Dimensions, outermost first. -/
def StreamDesc.dims (d : StreamDesc) : List (Nat × Int) := (d.counts.zip d.strides).reverse
/-- Σ ik × stridek of the element at delivery position `k`. -/
def patternOff : List Nat → List Int → Nat → Int
  | c :: cs, t :: ts, k => (k % c : Nat) * t + patternOff cs ts (k / c)
  | _, _, _ => 0
/-- Units the pattern delivers: elements of `STRM`, tiles of `STRMC`. -/
def StreamDesc.total (d : StreamDesc) : Nat := d.counts.foldl (· * ·) 1
/-- The base of the pattern: the tile position of a `STRMC` is that of its layout word. -/
def StreamDesc.start (d : StreamDesc) (contour : Bool) : Nat := if contour then d.layout % 2 ^ 40 else d.base
/-- The address of the unit at delivery position `k`. -/
def StreamDesc.addr (d : StreamDesc) (contour : Bool) (k : Nat) : Word :=
  let v := BitVec.ofInt 64 (d.start contour + patternOff d.counts d.strides k)
  if d.virt then BitVec.ofInt 64 (toSigned 57 (d.base) + patternOff d.counts d.strides k) else v
/-- Rows of one tile of a layout. -/
def Layout.rows (l : Layout) : Nat := ceilDiv l.bytes 256
/-- Rows a binding pushes in all (R254). -/
def Stream.rows (x : Stream) : Nat :=
  let d := streamDesc x.desc
  if x.contour then
    match layoutOf d.layout with
    | some l => d.total * l.rows
    | none => 0
  else ceilDiv (d.total * d.e) 256

/-! ### The checks at issue of a stream (R254, R255, R404) -/

/-- The first failing position of a loop. -/
def firstUp {α : Type} (f : Int → Option α) : Nat → Int → Int → Option α
  | 0, _, _ => none
  | n + 1, a, st => match f a with
    | some x => some x
    | none => if st = 0 then none else firstUp f n (a + st) st
/-- The least and the greatest address of a pattern from `a`. -/
def hull (l : List (Nat × Int)) (a : Int) : Int × Int :=
  l.foldl (fun (lo, hi) (n, t) => if t < 0 then (lo + (n - 1 : Int) * t, hi) else (lo, hi + (n - 1 : Int) * t)) (a, a)
/-- The first unit of a pattern, in delivery order, that fails `bad`; parts whose hull is sound are passed over. -/
def patternFault (bad : Int → Option Fail) (sound : Int → Int → Bool) : List (Nat × Int) → Int → Option Fail
  | [], a => bad a
  | (n, t) :: r, a =>
    let (lo, hi) := hull ((n, t) :: r) a
    if sound lo hi then none else firstUp (patternFault bad sound r) n a t
/-- An address of `n` bytes lies within a legend's bounds, or fails with code 0x711 at its first byte outside. -/
def boundsFault (l : Legend) (v : Word) (n : Nat) : Option Fail :=
  if l.covers v.toNat n then none
  else if va57 v.toNat < l.low then some (0x711, v)
  else some (0x711, v + BitVec.ofNat 64 (l.low + 4096 * l.size - va57 v.toNat))
/-- A unit has a natural alignment where its size is a power of two. -/
def naturalAlign (n : Nat) : Nat := if pow2Below n = n then n else 1
/-- The checks of one element of a stream in device memory. -/
def virtElem (l : Option Legend) (n : Nat) (v : Word) : Option Fail :=
  firstFault [if canonical v then none else some (0x703, v),
    match l with
    | some l => boundsFault l v n
    | none => none,
    alignFault v n]
/-- The checks of one tile of a `STRMC`: its units in delivery order where the tile as a whole fails. -/
def tileFault (s : State) (l : Layout) (v : Word) : Option Fail :=
  let one : Word → Option Fail := fun v =>
    firstFault [spFault0 s s.iss.seq 0x201 v l.unit, alignFault v (naturalAlign l.unit)]
  if (spFault0 s s.iss.seq 0x201 v l.bytes).isNone && (alignFault v (naturalAlign l.unit)).isNone then none
  else
    match firstFault ((List.range (2 ^ (l.rb + l.cb))).map fun k =>
        let (r, c) := uncontour k l.rb l.cb
        one (v + BitVec.ofNat 64 (l.unitAt r c))) with
    | some f => some f
    | none => some (0x701, v)
/-- Every address of a stream's pattern is sound, or the first that is not. -/
def streamFault (s : State) (d : StreamDesc) (contour : Bool) (leg : Option Legend) : Option Fail :=
  let stepsAligned := (d.strides.zip d.counts).all fun x => x.2 = 1 || x.1 % d.e = 0
  let word : Int → Word := fun a => BitVec.ofInt 64 a
  if contour then
    match layoutOf d.layout with
    | none => none
    | some l =>
      patternFault (fun a => tileFault s l (word a)) (fun _ _ => false) (d.dims) (d.layout % 2 ^ 40 : Nat)
  else if d.virt then
    patternFault (fun a => virtElem leg d.e (word a))
      (fun lo hi => stepsAligned && lo % d.e = 0 && canonical (word lo) && canonical (word hi) && lo < 2 ^ 56 && hi < 2 ^ 56
        && -2 ^ 56 ≤ lo && match leg with
          | some l => l.covers (word lo).toNat ((hi - lo).toNat + d.e)
          | none => true)
      d.dims (toSigned 57 d.base)
  else
    patternFault (fun a => firstFault [spFault0 s s.iss.seq 0x201 (word a) d.e, alignFault (word a) d.e])
      (fun lo hi => stepsAligned && lo % d.e = 0 && 0 ≤ lo && hi < 2 ^ 64
        && (spFault0 s s.iss.seq 0x201 (word lo) ((hi - lo).toNat + d.e)).isNone)
      d.dims (d.base : Int)

/-! ### STRM, STRMC and STRMX -/

/-- A binding becomes live (R254): it is performed when it ends, so its instruction leaves the queue unperformed. -/
def bindStream (k : Nat) (x : Stream) (s : State) : Res :=
  done .l { s with cx := { s.cx with strm := aset s.cx.strm k x } }
/-- The rest of a stream's issue, its descriptor sound: layout, legend and addresses (R104, R105, R255). -/
def issueStream (q k : Nat) (contour : Bool) (b : List Byte) (s : State) : Res :=
  let d := streamDesc b
  let x : Stream := { desc := b, queue := q, contour := contour, seq := s.iss.seq }
  if contour && (match layoutOf d.layout with
      | none => true
      | some l => l.tr && l.blk) then trapN .l 0x204 d.layout s
  else if d.virt && d.legend ≠ 0xFFFF then
    match readLegend s s.cur .l d.legend with
    | .error f => badTouch .l 5 [] f s
    | .ok (leg, s1) =>
      checked .l (streamFault s1 d contour (some (legendOf leg))) (bindStream k { x with snap := some leg }) s1
  else checked .l (streamFault s d contour none) (bindStream k x) s
/-- A `STRM` or `STRMC` at its issue (R254). -/
def stream (q a k : Nat) (contour : Bool) (s : State) : Res :=
  if (alook s.cx.strm k).isSome || bound s.cx q then trapN .l 0x202 k s
  else
    checked .l (loadFaults s 64 64 [s.cx.ar a]) (consuming [(spOff (s.cx.ar a), 64)] fun s =>
      let b := spadRead s.cx (spOff (s.cx.ar a)) 64
      if descBad b contour then trap .l 0x203 (s.cx.ar a) s else issueStream q k contour b s) s
/-- `STRM` (R254). -/
def execStrm (q a k : Nat) (s : State) : Res := stream q a k false s
/-- `STRMC` (R254). -/
def execStrmc (q a k : Nat) (s : State) : Res := stream q a k true s
/-- `STRMX.wait` (R256). -/
def execStrmxWait (k : Nat) (s : State) : Res := if (alook s.cx.strm k).isSome then wait s else done .l s
/-- `STRMX.stop` (R256). -/
def execStrmxStop (k : Nat) (s : State) : Res := done .l { s with cx := { s.cx with strm := adel s.cx.strm k } }
/-- `STRMX.rem` (R256). -/
def execStrmxRem (d k : Nat) (s : State) : Res :=
  setAcc .l d (BitVec.ofNat 64 (match alook s.cx.strm k with
    | some x => x.rows - x.pushed
    | none => 0)) s

/-! ### STREAM_ROW_PUSH -/

/-- L waits at a `MARK.L`: every binding halts (R128). -/
def atMark (c : Ctx) : Bool :=
  match c.qL with
  | [] => false
  | x :: _ => !x.marker && decodeEntry .l x = some .markL
/-- A binding may push its next row: there is room, L is at no mark, and nothing holds the context back, but that an
issued `MMA` lacks rows of the queue (R45, R128, R254). -/
def mayPush (s : State) (x : Stream) : Bool :=
  tileRuns s && s.cx.phase = .running && (s.cx.lrows x.queue).length < 32 && !atMark s.cx && s.cx.faultFree
    && ((s.cx.unheld && !s.cx.handler) || lacksRows s.cx x.queue
      || (s.cx.debugHeld && s.cx.stepping = some .l && x.seq = s.cx.stepSeq))
/-- The bytes of a row of a `STRMC`: the units of its tile in contour order, packed, zero past the tile's end. -/
def contourRow (c : Ctx) (d : StreamDesc) (l : Layout) (row : Nat) : List Byte :=
  let v := spOff (d.addr true (row / l.rows))
  (List.range 256).map fun j =>
    let b := 256 * (row % l.rows) + j
    if l.bytes ≤ b then 0
    else
      let (r, cl) := uncontour (b / l.unit) l.rb l.cb
      memGet c.spad (v + l.unitAt r cl + b % l.unit)
/-- Ranges of the allotment a row of a `STRMC` reads. -/
def contourRanges (d : StreamDesc) (l : Layout) (row : Nat) : List (Nat × Nat) :=
  let v := spOff (d.addr true (row / l.rows))
  (List.range 256).filterMap fun j =>
    let b := 256 * (row % l.rows) + j
    if l.bytes ≤ b then none
    else
      let (r, cl) := uncontour (b / l.unit) l.rb l.cb
      some (v + l.unitAt r cl + b % l.unit, 1)
/-- The addresses of the elements of a row of a `STRM`. -/
def rowAddrs (d : StreamDesc) (row : Nat) : List Word :=
  let per := 256 / d.e
  (List.range (min per (d.total - per * row))).map fun j => d.addr false (per * row + j)
/-- A row has been read: it is pushed, and the binding ends with its last (R254). -/
def rowRead (k : Nat) (x : Stream) (b : List Byte) (s : State) : Res :=
  let y := { x with pushed := x.pushed + 1 }
  .next { s with cx :=
    let c := pushRow s.cx x.queue b
    { c with strm := if y.rows ≤ y.pushed then adel c.strm k else aset c.strm k y } }
/-- The elements of a row in device memory: units brought to the snapshot's edition, then translated and read through
L's stream TLB (R255). -/
def virtRow (k : Nat) (x : Stream) (l : List Word) (s : State) : Res :=
  let d := streamDesc x.desc
  let units : Except TouchErr State :=
    match x.snap with
    | none => .ok s
    | some snap => touchUnits s s.cur .l snap d.legend (l.flatMap fun v => (legendOf snap).unitsOf v.toNat d.e)
  match units with
  | .error f => badTouch .l 5 (x.snap.getD []) f s
  | .ok s1 => match virtRead s1 .l (l.map fun v => (v.toNat, d.e)) with
    | .ok b s2 => rowRead k x b s2
    | r => badRead .l r s1
/-- `STREAM_ROW_PUSH` (R254): the binding that the event names reads its next row and pushes it. -/
def execStreamRowPush (s : State) : Res :=
  match alook s.cx.strm s.inp.sel with
  | none => wait s
  | some x =>
    if !mayPush s x then wait s
    else
      let d := streamDesc x.desc
      let s1 := { s with iss := { seq := x.seq } }
      if x.contour then
        match layoutOf d.layout with
        | none => wait s
        | some l =>
          consuming (contourRanges d l x.pushed) (fun s => rowRead s.inp.sel x (contourRow s.cx d l x.pushed) s) s1
      else
        let l := rowAddrs d x.pushed
        if d.virt then virtRow s.inp.sel x l s1
        else
          consuming (l.map fun v => (spOff v, d.e))
            (fun s => rowRead s.inp.sel x (l.flatMap fun v => spadRead s.cx (spOff v) d.e) s) s1

/-! ### Marks (R128) -/

/-- S's stores before position `n` are performed (L's explicit loads are performed as they issue, and a live binding
halts at the mark and counts for nothing): stores are performed or departed as they issue, and the additions of
statistics are in flight until their event. -/
def markReadyS (c : Ctx) (n : Nat) : Bool := (c.statq.filter fun x => x.eng = .s).all fun x => n ≤ x.seq
/-- The mark at the head of a queue. -/
def markHead (c : Ctx) (e : Engine) (i : Instr) : Option Entry :=
  match c.queue e with
  | [] => none
  | x :: _ => if !x.marker && decodeEntry e x = some i then some x else none
/-- Both marks stand at the heads of their queues and their conditions hold: both pass together (R128). A mark whose
partner was discarded passes as soon as its own condition holds (R397). -/
def passMarks (s : State) : Res :=
  let c := s.cx
  match markHead c .l .markL, markHead c .s .markS with
  | some _, some y =>
    if 0 < c.skipS then .next { s with cx := { c with skipS := c.skipS - 1, qL := c.qL.tail }.supply }
    else if !markReadyS c y.seq then wait s
    else if 0 < c.skipL then .next { s with cx := { c with skipL := c.skipL - 1, qS := c.qS.tail }.supply }
    else .next { s with cx := { c with qL := c.qL.tail, qS := c.qS.tail }.supply }
  | some _, none =>
    if 0 < c.skipS then .next { s with cx := { c with skipS := c.skipS - 1, qL := c.qL.tail }.supply } else wait s
  | none, some y =>
    if 0 < c.skipL && markReadyS c y.seq then .next { s with cx := { c with skipL := c.skipL - 1, qS := c.qS.tail }.supply }
    else wait s
  | none, none => wait s
/-- `MARK.L` (R128). -/
def execMarkL (s : State) : Res := passMarks s
/-- `MARK.S` (R128). -/
def execMarkS (s : State) : Res := passMarks s
/-- `MARK_PAIR_RELEASE` (R128): the marks that meet pass in the same cycle. -/
def execMarkPairRelease (s : State) : Res :=
  if mayIssue s .l && mayIssue s .s && !(s.cx.rep .l).active && !(s.cx.rep .s).active then passMarks s else wait s

end Sys2Proof.Machine
end

