-- ==== Sys2Proof/Machine/Store.lean ====
section
/-! DEFINITION. The store engine S: queue stores, posted writes, row accumulation, the optimiser update and window
steps (08, R257 to R262; 02, R79 to R81). -/
namespace Sys2Proof.Machine

/-! ### Statistics on their way (R163, R259) -/

/-- The tenant has a governor table (R163). -/
def governed (c : Ctx) : Bool := bitOf (c.cr 0x010).toNat 0
/-- The issued instruction is not repeated again. -/
def lastIteration (c : Ctx) (e : Engine) : Bool := !((c.rep e).active && decide (1 < (c.rep e).remaining))
/-- The issued instruction leaves its queue with an addition on its way; its counter falls when that is performed. -/
def doneStat (e : Engine) (k : Option Nat) (x : StatAdd) (s : State) : Res :=
  let y : StatAdd := { x with tenant := s.cx.tenant, eng := e, seq := s.iss.seq,
                              cc := if lastIteration s.cx e then k else none }
  let c : Ctx := { s.cx with statq := s.cx.statq ++ [y] }
  .next { s with cx := c.retire e none s.iss }

/-! ### Elements of a store -/

/-- One element of a store: its address and its bytes. -/
abbrev Elt := Word × List Byte
/-- The first enabled element that fails a check, then the row's own alignment (R394). -/
def storeFault (s : State) (e : Nat) (l : List Elt) (row : Option (Word × Nat)) : Option Fail :=
  if l = [] then none
  else
    firstFault ((l.flatMap fun x => [spFault s s.iss.seq x.1 e, alignFault x.1 e])
      ++ [match row with
        | some (v, n) => alignFault v n
        | none => none])
/-- Bytes by offset that elements write in a window, in element order. -/
def cellsIn (l : List Elt) (w : Nat) : List Host.Cell :=
  (l.filter fun x => spWin x.1 = w).flatMap fun x => x.2.zipIdx.map fun (b, j) => (spOff x.1 + j, b)
/-- The windows that elements write through, window 0 apart. -/
def postedWins (l : List Elt) : List Nat := ((l.map fun x => spWin x.1).filter (· ≠ 0)).eraseDups
/-- A window whose allowance, as position `seq` sees it, is 0 (code 0x705). -/
def allowFault (c : Ctx) (seq : Nat) (l : List Elt) : Option Fail :=
  (postedWins l).findSome? fun w => if winAllow c seq w = 0 then some (0x705, BitVec.ofNat 64 w) else none
/-- Every posted write may depart (R90). -/
def allDepart (c : Ctx) (seq : Nat) (l : List Elt) : Bool :=
  (postedWins l).all fun w => mayDepart c seq w (granulesOf (cellsIn l w)).length
/-- The elements are written: those of window 0 at tile scope, the others depart. -/
def storeElems (s : State) (l : List Elt) : State :=
  (postedWins l).foldl (fun s w => depart s w (cellsIn l w)) { s with cx := spadPut s.cx (cellsIn l 0) }
/-- Element `k` of size `e` of a row. -/
def rowElem (r : Row) (e k : Nat) : List Byte := slice r.data (e * k) e
/-- What follows a store's effect on bytes: its queues popped, its register raised. -/
def afterStore (c : Ctx) (q pops : Nat) (inc : Option (Nat × Word)) : Ctx :=
  let c1 := c.setS q ((c.srows q).drop pops)
  match inc with
  | some (a, v) => c1.setA a v
  | none => c1
/-- A store's checks, its wait for allowance, and its effect. -/
def storeRow (e : Nat) (l : List Elt) (row : Option (Word × Nat)) (gov : Option Fail) (k : State → Res) (s : State) : Res :=
  checked .s (firstFault [storeFault s e l row, gov, allowFault s.cx s.iss.seq l])
    (fun s => if allDepart s.cx s.iss.seq l then k (storeElems s l) else wait s) s
/-- x² of an FP32 element in units of 2^-64; 2^128 − 1 for a NaN or an infinity (R259). -/
def squareTerm (x : Elem) : Nat :=
  match val32 x with
  | .fin n m e => fixed64 (.fin n m e)
  | _ => 2 ^ 128 - 1
/-- Element `k` of a row as 32 bits. -/
def rowWord (r : Row) (k : Nat) : Elem := BitVec.ofNat 32 (fieldAt r.data (4 * k) 4)

/-- `STQ` and its long form (R258, R259). With no element enabled it raises no fault, and without a governor table it then adds
nothing (Table 15.19). -/
def storeQ (a q g : Nat) (pi : Bool) (cc : Option Nat) (stat : StqStat) (first : Bool) (layer : Nat) (s : State) : Res :=
  match s.cx.srows q with
  | [] => wait s
  | r :: _ =>
    let on := enabledOf s.cx g r.tag 4
    let base := s.cx.ar a
    let l := on.map fun k => (base + BitVec.ofNat 64 (4 * k), rowElem r 4 k)
    let gov := if stat ≠ .none && on ≠ [] && !governed s.cx then some (0x70D, BitVec.ofNat 64 (layer + 3 * 4096)) else none
    storeRow 4 l (some (base, 64)) gov (fun s =>
      let s1 := { s with cx := afterStore s.cx q 1 (post pi a (base + 256)) }
      let sum := (on.map fun k => squareTerm (rowWord r k)).sum
      match (if governed s.cx then stat else .none) with
      | .none => doneCC .s cc s1
      | .part => doneStat .s cc { tenant := 0, layer := layer, role := 3, eng := .s, part := sum,
                                  first := if first then 1 else 0 } s1
      | .whole => doneStat .s cc { tenant := 0, layer := layer, role := 3, eng := .s, whole := sum } s1) s
/-- `STQ` (R258). -/
def execStq (a q g : Nat) (pi : Bool) (s : State) : Res := storeQ a q g pi none .none false 0 s
/-- `STQ`, long (R259). -/
def execStqLong (a q g : Nat) (pi : Bool) (cc : Option Nat) (stat : StqStat) (first : Bool) (layer : Nat) (s : State) : Res :=
  storeQ a q g pi cc stat first layer s
/-- `STQS` (R258). -/
def execStqs (a b q g : Nat) (pi : Bool) (lg : Nat) (cc : Option Nat) (s : State) : Res :=
  match s.cx.srows q with
  | [] => wait s
  | r :: _ =>
    let e := 2 ^ lg
    let l := (enabledOf s.cx g r.tag e).map fun k => (s.cx.ar a + BitVec.ofNat 64 k * s.cx.ar b, rowElem r e k)
    let inc := post pi a (s.cx.ar a + BitVec.ofNat 64 (256 / e) * s.cx.ar b)
    storeRow e l none none (fun s => doneCC .s cc { s with cx := afterStore s.cx q 1 inc }) s
/-- `STQX` (R258): the index rows are popped first. -/
def execStqx (a i q g lg : Nat) (cc : Option Nat) (s : State) : Res :=
  let e := 2 ^ lg
  let ni := max 1 (4 / e)
  let idx := (s.cx.srows i).take ni
  let data := if i = q then (s.cx.srows q)[ni]? else (s.cx.srows q).head?
  if idx.length < ni then wait s
  else
    match data with
    | none => wait s
    | some r =>
      let x := idx.flatMap (·.data)
      let l := (enabledOf s.cx g r.tag e).map fun k => (s.cx.ar a + BitVec.ofInt 64 (indexAt x k * e), rowElem r e k)
      storeRow e l none none (fun s =>
        let c := s.cx.setS i ((s.cx.srows i).drop ni)
        doneCC .s cc { s with cx := afterStore c q 1 none }) s

/-! ### STRW (R260) -/

/-- The new value of an element, and its flags. -/
def accumulate (op : RedOp) (ty : Ty) (old x : Elem) : Elem × Nat :=
  if ty = .f32 then
    match op with
    | .add => addFp32 old x
    | .min => minFp32 old x
    | .max => maxFp32 old x
  else
    (match op with
      | .add => old + x
      | .min => if old.slt x then old else x
      | .max => if old.slt x then x else old, 0)
/-- Flags that `STRW.f32` sets (Table 16.2). -/
def strwFlags : Nat := flagInvalid ||| flagOverflow ||| flagUnderflow ||| flagInexact
/-- `STRW` (R260). -/
def execStrw (a q g : Nat) (pi : Bool) (op : RedOp) (ty : Ty) (cc : Option Nat) (s : State) : Res :=
  match s.cx.srows q with
  | [] => wait s
  | r :: _ =>
    let on := enabledOf s.cx g r.tag 4
    let addr : Nat → Word := fun k => s.cx.ar a + BitVec.ofNat 64 (4 * k)
    checked .s (if on = [] then none else firstFault
        ((if spWin (s.cx.ar a) ≠ 0 then some (0x301, s.cx.ar a) else none)
          :: on.flatMap fun k => [spFault0 s s.iss.seq 0x301 (addr k) 4, alignFault (addr k) 4]))
      (consuming (on.map fun k => (spOff (addr k), 4)) fun s =>
        let new := on.map fun k =>
          let (v, f) := accumulate op ty (BitVec.ofNat 32 (leNat (spadRead s.cx (spOff (addr k)) 4))) (rowWord r k)
          (spOff (addr k), v, f)
        let c := new.foldl (fun c x => spadWrite c x.1 (leBytes 4 x.2.1.toNat)) s.cx
        let c1 := setFlags c (orFlags (new.map (·.2.2)) &&& strwFlags)
        doneCC .s cc { s with cx := afterStore c1 q 1 (post pi a (s.cx.ar a + 256)) }) s

/-! ### UPD (R261, R79 to R81) -/

/-- A parameter block (Table 8.5). -/
structure UpdBlock where
  eta : Elem
  mu : Elem
  beta1 : Elem
  c1 : Elem
  beta2 : Elem
  c2 : Elem
  eps : Elem
  lam : Elem
  wf : Nat
  mf : Nat
  vf : Nat
  moff : Int
  voff : Int
  deriving DecidableEq, Repr
def updBlock (b : List Byte) : UpdBlock :=
  let f : Nat → Elem := fun k => BitVec.ofNat 32 (fieldAt b (4 * k) 4)
  { eta := f 0, mu := f 1, beta1 := f 2, c1 := f 3, beta2 := f 4, c2 := f 5, eps := f 6, lam := f 7
    wf := fieldAt b 0x20 1, mf := fieldAt b 0x21 1, vf := fieldAt b 0x22 1
    moff := toSigned 32 (fieldAt b 0x24 4), voff := toSigned 32 (fieldAt b 0x28 4) }
/-- A block with a reserved format or a non-zero reserved byte (code 0x303). -/
def updBlockBad (b : List Byte) : Bool :=
  let p := updBlock b
  2 < p.wf || 2 < p.mf || 2 < p.vf || fieldAt b 0x23 1 ≠ 0 || fieldAt b 0x2C 20 ≠ 0
/-- The format of a storage code and its bytes. -/
def storeFmt : Nat → Fmt
  | 0 => fmtF32 | 1 => fmtBf16 | _ => fmtF16
def storeBytes : Nat → Nat
  | 0 => 4 | _ => 2
/-- What an update gives: the new w, m and v, and flags; or a NaN, which leaves all unchanged (R80). -/
inductive UpdOut where
  | nan (flags : Nat)
  | new (w m v : Elem) (flags : Nat)
  deriving DecidableEq, Repr
/-- `apply` of R79: decoupled decay folded into the step. -/
def updApply (p : UpdBlock) (w u m v : Elem) (fl : Nat) : UpdOut :=
  if isNan32 u then .nan fl
  else
    let (t, f1) := fmaFp32 p.lam w u
    let (w', f2) := fmaFp32 (neg32 p.eta) t w
    .new w' m v (fl ||| f1 ||| f2)
/-- `upd_sgd`, `upd_momentum` and `upd_adam` (R79, R80). -/
def update (fn : UpdFn) (p : UpdBlock) (w g m v : Elem) : UpdOut :=
  match fn with
  | .sgd => updApply p w g m v 0
  | .mom =>
    let (m', f) := fmaFp32 p.mu m g
    updApply p w m' m' v f
  | .adam =>
    let (a, f1) := mulFp32 p.c1 g
    let (m', f2) := fmaFp32 p.beta1 m a
    let (b, f3) := mulFp32 g g
    let (c, f4) := mulFp32 p.c2 b
    let (v1, f5) := fmaFp32 p.beta2 v c
    let fl := f1 ||| f2 ||| f3 ||| f4 ||| f5
    if isNan32 v1 || isNan32 m' then .nan fl
    else
      let v' := if v1.msb then 0 else v1
      let (r, f6) := sqrtFp32 v'
      let (d, f7) := addFp32 r p.eps
      if abs32 d = 0 then updApply p w 0 m' v' (fl ||| f6 ||| f7 ||| flagZden)
      else
        let (u, f8) := divFp32 m' d
        updApply p w u m' v' (fl ||| f6 ||| f7 ||| f8)
/-- The addresses of element `k`'s w, m and v that a function uses, with their bytes. -/
def updAddrs (fn : UpdFn) (p : UpdBlock) (wa : Word) (k : Nat) : List (Word × Nat) :=
  let w := (wa + BitVec.ofNat 64 (k * storeBytes p.wf), storeBytes p.wf)
  let m := (wa + BitVec.ofInt 64 (p.moff + k * storeBytes p.mf), storeBytes p.mf)
  let v := (wa + BitVec.ofInt 64 (p.voff + k * storeBytes p.vf), storeBytes p.vf)
  match fn with
  | .sgd => [w]
  | .mom => [w, m]
  | .adam => [w, m, v]
/-- A stored operand read as FP32 (R78), and one converted for storage. -/
def loadStored (c : Ctx) (f : Nat) (x : Option (Word × Nat)) : Elem :=
  match x with
  | some (v, n) => (roundFp32 .rn 0 ((storeFmt f).decode (leNat (spadRead c (spOff v) n)))).1
  | none => 0
def storeStored (c : Ctx) (f : Nat) (mode : Rnd) (d : Nat) (x : Option (Word × Nat)) (e : Elem) : Ctx × Nat :=
  match x with
  | some (v, n) =>
    let (code, fl) := (storeFmt f).convert mode d (val32 e)
    (spadWrite c (spOff v) (leBytes n code), fl)
  | none => (c, 0)
/-- One element of an `UPD`: the context after it, its flags and the NaNs it counts. -/
def updElem (fn : UpdFn) (p : UpdBlock) (mode : Rnd) (wa : Word) (r : Row) (draw : Nat → Nat) (c : Ctx) (k : Nat) :
    Ctx × Nat × Nat :=
  let l := updAddrs fn p wa k
  match update fn p (loadStored c p.wf l[0]?) (rowWord r k) (loadStored c p.mf l[1]?) (loadStored c p.vf l[2]?) with
  | .nan fl => (c, fl, 1)
  | .new w m v fl =>
    let (c1, f1) := storeStored c p.wf mode (draw k) l[0]? w
    let (c2, f2) := storeStored c1 p.mf mode (draw (64 + k)) l[1]? m
    let (c3, f3) := storeStored c2 p.vf mode (draw (128 + k)) l[2]? v
    (c3, fl ||| f1 ||| f2 ||| f3, 0)
/-- The draw of element index `e` of the issued instruction (R74). -/
def drawOf (s : State) (e : Nat) : Nat := srDraw (s.cx.cr 0x00C) s.iss.rsN e s.iss.k
/-- The elements of an `UPD`, its block read and its checks passed. -/
def updRow (fn : UpdFn) (p : UpdBlock) (mode : Rnd) (on : List Nat) (a q layer : Nat) (pi : Bool) (cc : Option Nat) (r : Row)
    (s : State) : Res :=
  let wa := s.cx.ar a
  let (c, fl, nans) := on.foldl (fun (c, fl, n) k =>
    let (c1, f1, n1) := updElem fn p mode wa r (drawOf s) c k
    (c1, fl ||| f1, n + n1)) (s.cx, 0, 0)
  let mask := flagInvalid ||| flagDivzero ||| flagOverflow ||| flagUnderflow ||| flagInexact ||| flagZden
  let inc := post pi a (wa + BitVec.ofNat 64 (64 * storeBytes p.wf))
  let s1 := { s with cx := afterStore (setFlags c (fl &&& mask)) q 1 inc }
  if nans = 0 then doneCC .s cc s1
  else doneStat .s cc { tenant := 0, layer := layer, role := 0, eng := .s, nans := nans } s1
/-- Bytes that an `UPD` with no element enabled raises its register by: 64 times the size its parameter block gives a weight.
It raises no fault (Table 15.19): where the block cannot be read, or its format is reserved, the size is a free choice. -/
def idleStep (pb : Word) (s : State) : Nat :=
  let f := (spadRead s.cx (spOff pb) 64).getD 0x20 0
  let sound := (firstFault [spFault0 s s.iss.seq 0x301 pb 64, alignFault pb 64]).isNone && f.toNat ≤ 2
    && s.cx.bad.all fun b => !inRanges [(spOff pb, 64)] (b / 2)
  64 * if sound then storeBytes f.toNat else storeBytes (Config.freeNat s.free % 3)
/-- `UPD` (R261). -/
def execUpd (a b q g : Nat) (fn : UpdFn) (pi : Bool) (rnd : Rnd) (layer : Nat) (cc : Option Nat) (s : State) : Res :=
  match s.cx.srows q with
  | [] => wait s
  | r :: _ =>
    let on := enabledOf s.cx g r.tag 4
    let pb := s.cx.ar b
    if on = [] then
      let inc := post pi a (s.cx.ar a + BitVec.ofNat 64 (idleStep pb s))
      doneCC .s cc { s with cx := afterStore s.cx q 1 inc, free := s.free + 1 }
    else if !governed s.cx then trapN .s 0x70D layer s
    else
      checked .s (firstFault [if spWin (s.cx.ar a) ≠ 0 then some (0x301, s.cx.ar a) else none,
          spFault0 s s.iss.seq 0x301 pb 64, alignFault pb 64])
        (consuming [(spOff pb, 64)] fun s =>
          let blk := spadRead s.cx (spOff pb) 64
          let p := updBlock blk
          if updBlockBad blk then trap .s 0x303 pb s
          else
            let l := on.flatMap (updAddrs fn p (s.cx.ar a))
            checked .s (firstFault (l.flatMap fun x => [spFault0 s s.iss.seq 0x301 x.1 x.2, alignFault x.1 x.2]))
              (consuming (l.map fun x => (spOff x.1, x.2)) (updRow fn p rnd on a q layer pi cc r)) s) s

/-! ### WSTEP (R262) -/

/-- `WSTEP`: the step that the position sees is raised, whether it is the register's or the value kept for earlier
positions (R247). -/
def execWstep (w : Nat) (s : State) : Res :=
  let n := 0x030 + w
  let up : Word → Word := fun v => wput v 0 16 (wbits v 0 16 + 1)
  let later := s.cx.hist.findIdx? fun h => h.num = n && s.iss.seq < h.seq
  done .s { s with cx := match later with
    | some k => { s.cx with hist := s.cx.hist.modify k fun h => { h with old := up h.old } }
    | none => s.cx.setCr n (up (s.cx.cr n)) }

end Sys2Proof.Machine
end

