-- ==== Sys2Proof/Machine/VOperand.lean ====
section
/-! DEFINITION. Operands and results of V: registers, queues, guards, exposed results (09, R276 to R281). -/
namespace Sys2Proof.Machine

/-- Elements chosen one by one between an old and a new value, by free choices from number `n` on. -/
def pickEach (n : Nat) (mask : BitVec 1024) (old new : List Elem) : List Elem :=
  (old.zip new).zipIdx.map fun ((x, y), i) => if mask.getLsbD i && Config.freeBool (n + i) then y else x
/-- The exposed results on their way to a register. -/
def exposedTo (c : Ctx) (v : Nat) : List Exposed := c.exposed.filter fun x => x.dest = .reg v
/-- Elements written where a mask holds. -/
def merge (mask : BitVec 1024) (old new : List Elem) : List Elem :=
  (old.zip new).zipIdx.map fun ((x, y), i) => if mask.getLsbD i then y else x
/-- A register as an instruction of V reads it: before the bound of an exposed result each element is old or new, and from then
on new (R281, R297). -/
def readReg (s : State) (v : Nat) : List Elem × State :=
  (exposedTo s.cx v).foldl (fun (l, s) x =>
    (if x.bound ≤ cyclesAt s s.cur then merge x.mask l (fit 1024 0 x.data) else pickEach s.free x.mask l (fit 1024 0 x.data),
      { s with free := s.free + 1024 })) (s.cx.vr v, s)
/-- A register as M reads it: elements of a write of V whose beats are under way, and which no token or rendezvous orders
before the read, are old or new too (R297). -/
def readRegM (s : State) (v : Nat) : List Elem × State :=
  let (l, s1) := readReg s v
  ((s.cx.vlast.filter fun x => x.reg = v && cyclesAt s s.cur < x.till).foldl (fun (l, s) x =>
    (pickEach s.free x.mask l (fit 1024 0 x.old), { s with free := s.free + 1024 })) (l, s1))
/-- The 64 elements of a queue row. -/
def rowElems (r : Row) : List Elem := (List.range 64).map fun k => rowWord r k
/-- The bytes of elements. -/
def elemBytes (l : List Elem) : List Byte := l.flatMap fun x => leBytes 4 x.toNat
/-- A source is read: a queue gives up 16 rows (R279). -/
def readSrc (s : State) : VLoc → List Elem × State
  | .reg v => readReg s v
  | .queue q => (((s.cx.lrows q).take 16).flatMap rowElems, { s with cx := s.cx.setL q ((s.cx.lrows q).drop 16) })
/-- Sources are read in order. -/
def readSrcs (s : State) : List VLoc → List (List Elem) × State
  | [] => ([], s)
  | x :: r =>
    let (v, s1) := readSrc s x
    let (l, s2) := readSrcs s1 r
    (v :: l, s2)
/-- Every source queue holds the rows it needs. -/
def srcsReady (c : Ctx) (l : List VLoc) : Bool :=
  l.all fun x => match x with
    | .queue q => 16 * (l.filter fun y => y = .queue q).length ≤ (c.lrows q).length
    | .reg _ => true
/-- The destination may be written: a queue has room for `n` rows and no result on its way, a register has no exposed
result of V on its way (R279, R281). -/
def dstReady (c : Ctx) (d : VLoc) (n : Nat) : Bool :=
  match d with
  | .queue q => (c.srows q).length + n ≤ 32 && c.exposed.all fun x => x.dest ≠ .queue q
  | .reg v => c.exposed.all fun x => x.eng ≠ .v || x.dest ≠ .reg v
/-- Elements of a register that are written whole hold no error any more (R408); results of the other of V and M on their way to
them are in no order with the write (R297). -/
def overwrite (c : Ctx) (e : Engine) (v : Nat) (mask : BitVec 1024) : Ctx :=
  { c with
    badR := c.badR.filter fun b => !(b.array = 0 && b.reg = v && mask.getLsbD b.elem)
    exposed := c.exposed.map fun x => if x.dest = .reg v && x.eng ≠ e then { x with raced := x.raced ||| mask } else x }
/-- Sixteen rows pushed into a store queue, row r with tag r. -/
def pushRows (c : Ctx) (q : Nat) (l : List Elem) : Ctx :=
  c.setS q (c.srows q ++ (chunks 64 l).zipIdx.map fun (x, r) => { data := elemBytes x, tag := r })
/-- A result of V is written to its destination under a mask; `now` is the cycles run. The eight beats of a register's write
begin now (R280). -/
def writeDst (now : Nat) (c : Ctx) (d : VLoc) (mask : BitVec 1024) (l : List Elem) : Ctx :=
  match d with
  | .reg v =>
    let w : VWrite := { reg := v, mask := mask, old := c.vr v, till := now + 8 }
    let c1 := overwrite c .v v mask
    { c1.setV v (merge mask (c.vr v) l) with vlast := w :: c.vlast.filter fun x => now < x.till }
  | .queue q => pushRows c q l
/-- The mask of a destination: an instruction that writes a queue is unguarded (R279). -/
def dstMask (c : Ctx) (d : VLoc) (g : Nat) : BitVec 1024 :=
  match d with
  | .reg _ => c.pr g
  | .queue _ => BitVec.allOnes 1024
/-- Flags of the enabled elements. -/
def maskFlags (mask : BitVec 1024) (l : List (Elem × Nat)) : Nat :=
  l.zipIdx.foldl (fun a (x, i) => if mask.getLsbD i then a ||| x.2 else a) 0
/-- A destination of V as that of an exposed result. -/
def expDest : VLoc → ExpDest
  | .reg v => .reg v
  | .queue q => .queue q
/-- A V instruction: sources read, `f` of them written under the guard; or, where `lat` is not 0, exposed with that bound, which
counts from the last of its eight beats (R277 to R281). -/
def vInstr (srcs : List VLoc) (d : VLoc) (g : Nat) (lat : Nat) (f : List (List Elem) → List (Elem × Nat)) (s : State) :
    Res :=
  if !srcsReady s.cx srcs || !dstReady s.cx d 16 then wait s
  else
    let (xs, s1) := readSrcs s srcs
    let l := f xs
    let mask := dstMask s1.cx d g
    let c := setFlags s1.cx (maskFlags mask l)
    let vals := l.map (·.1)
    let now := cyclesAt s s.cur
    done .v { s1 with cx :=
      if lat = 0 then writeDst now c d mask vals
      else { c with exposed := c.exposed ++ [{ dest := expDest d, mask := mask, data := vals, eng := .v, seq := s.iss.seq, bound := now + 7 + lat }] } }
/-- A value without flags. -/
def plain (x : Elem) : Elem × Nat := (x, 0)
/-- One source, element by element. -/
def vMap1 (d a : VLoc) (g : Nat) (lat : Nat) (f : Elem → Elem × Nat) (s : State) : Res :=
  vInstr [a] d g lat (fun xs => (xs.getD 0 []).map f) s
/-- Two sources, element by element. -/
def vMap2 (d a b : VLoc) (g : Nat) (lat : Nat) (f : Elem → Elem → Elem × Nat) (s : State) : Res :=
  vInstr [a, b] d g lat (fun xs => ((xs.getD 0 []).zip (xs.getD 1 [])).map fun (x, y) => f x y) s
/-- Three sources, the third of them the destination's old value. -/
def vMap3 (d a b : VLoc) (g : Nat) (f : Elem → Elem → Elem → Elem × Nat) (s : State) : Res :=
  vInstr [a, b, d] d g 0
    (fun xs => (((xs.getD 0 []).zip (xs.getD 1 [])).zip (xs.getD 2 [])).map fun ((x, y), z) => f x y z) s
/-- A predicate of 1,024 bits. -/
def predOf (l : List Bool) : BitVec 1024 := BitVec.ofNat 1024 (l.foldr (fun b a => 2 * a + if b then 1 else 0) 0)
/-- A predicate written under a guard (R278). -/
def setGuarded (c : Ctx) (p g : Nat) (v : BitVec 1024) : Ctx := c.setP p ((c.pr p &&& ~~~c.pr g) ||| (v &&& c.pr g))

/-! ### EXPOSED_RESULT_LAND (R281) -/

/-- `EXPOSED_RESULT_LAND`: an exposed result's bound has passed, and its destination holds the new values; of elements that the
other of V and M has written meanwhile, one of the two (R297). The event names which of the results on their way, none of
them behind another to the same destination. -/
def execExposedResultLand (s : State) : Res :=
  match s.cx.exposed[s.inp.sel]? with
  | none => wait s
  | some x =>
    if !tileRuns s || ((s.cx.exposed.take s.inp.sel).any fun y => y.dest = x.dest) then wait s
    else
      let c := { s.cx with exposed := s.cx.exposed.eraseIdx s.inp.sel }
      match x.dest with
      | .reg v =>
        let sure := merge (x.mask &&& ~~~x.raced) (c.vr v) (fit 1024 0 x.data)
        let c1 := overwrite c x.eng v x.mask
        .next { s with cx := c1.setV v (pickEach s.free (x.mask &&& x.raced) sure (fit 1024 0 x.data)), free := s.free + 1024 }
      | .queue q => .next { s with cx := pushRows c q x.data }

end Sys2Proof.Machine
end

