-- ==== Sys2Proof/Machine/Vector.lean ====
section
/-! DEFINITION. The vector engine V: elementwise arithmetic, comparison, conversion, special functions, axis operations,
moves, predicates, divergence and packing (09, R282 to R296). -/
namespace Sys2Proof.Machine

/-! ### Element functions -/

/-- A comparison of FP32 elements: with a NaN only `.ne` and `.un` hold (R284). -/
def cmpFp32 (c : Cmp) (a b : Elem) : Bool :=
  let un := isNan32 a || isNan32 b
  match c with
  | .eq => eqFp32 a b
  | .ne => !eqFp32 a b
  | .lt => ltFp32 a b
  | .le => ltFp32 a b || eqFp32 a b
  | .gt => ltFp32 b a
  | .ge => ltFp32 b a || eqFp32 a b
  | .un => un
/-- Integer order of `w`-bit values: unsigned for `.b32`. -/
def intBelow (ty : Ty) (w x y : Nat) : Bool :=
  if ty = .b32 then decide (x < y) else decide (toSigned w x < toSigned w y)
/-- A comparison of integer elements (R284). -/
def cmpInt (ty : Ty) (c : Cmp) (a b : Elem) : Bool :=
  match c with
  | .eq => a = b
  | .ne => a ≠ b
  | .lt => intBelow ty 32 a.toNat b.toNat
  | .le => !intBelow ty 32 b.toNat a.toNat
  | .gt => intBelow ty 32 b.toNat a.toNat
  | .ge => !intBelow ty 32 a.toNat b.toNat
  | .un => false
/-- An operation on whole elements, or on each half for `.i16x2`, wrapping (R283). -/
def perLane (ty : Ty) (f : Nat → Nat → Nat → Nat) (a b : Elem) : Elem :=
  if ty = .i16x2 then
    BitVec.ofNat 32 (f 16 (bits a.toNat 0 16) (bits b.toNat 0 16) % 65536
      + f 16 (bits a.toNat 16 16) (bits b.toNat 16 16) % 65536 * 65536)
  else BitVec.ofNat 32 (f 32 a.toNat b.toNat)
/-- A `w`-bit value of an integer type. -/
def laneValue (ty : Ty) (w x : Nat) : Int := if ty = .b32 then (x : Int) else toSigned w x
/-- The exact result of an integer operation clamped to the type, and whether it was. -/
def satLane (ty : Ty) (w : Nat) (i : Int) : Nat × Bool :=
  let lo : Int := if ty = .b32 then 0 else -(2 ^ (w - 1) : Nat)
  let hi : Int := if ty = .b32 then (2 ^ w - 1 : Nat) else (2 ^ (w - 1) - 1 : Nat)
  let c := clampI lo hi i
  (ofSigned w c, c ≠ i)
/-- A saturating operation; a clamped lane sets isat (R283, Table 16.2). -/
def saturating (ty : Ty) (f : Int → Int → Int) (a b : Elem) : Elem × Nat :=
  if ty = .i16x2 then
    let (x, p) := satLane ty 16 (f (laneValue ty 16 (bits a.toNat 0 16)) (laneValue ty 16 (bits b.toNat 0 16)))
    let (y, q) := satLane ty 16 (f (laneValue ty 16 (bits a.toNat 16 16)) (laneValue ty 16 (bits b.toNat 16 16)))
    (BitVec.ofNat 32 (x + y * 65536), flagIf (p || q) flagIsat)
  else
    let (x, p) := satLane ty 32 (f (laneValue ty 32 a.toNat) (laneValue ty 32 b.toNat))
    (BitVec.ofNat 32 x, flagIf p flagIsat)
/-- A signed 16-bit saturating sum. -/
def sadd16 (x y : Int) : Int := clampI (-32768) 32767 (x + y)
/-- One add-compare-select butterfly: the element and its two decisions (R285). -/
def acs (a b : Elem) : Elem × Bool × Bool :=
  let x0 := toSigned 16 a.toNat
  let x1 := toSigned 16 (a.toNat / 65536)
  let m0 := toSigned 16 b.toNat
  let m1 := toSigned 16 (b.toNat / 65536)
  let s0 := sadd16 x0 m0
  let s1 := sadd16 x1 m1
  let t0 := sadd16 x0 m1
  let t1 := sadd16 x1 m0
  (BitVec.ofNat 32 (ofSigned 16 (if t0 < t1 then t1 else t0) * 65536 + ofSigned 16 (if s0 < s1 then s1 else s0)),
    decide (s0 < s1), decide (t0 < t1))
/-- Bits of an element of a type. -/
def tyWidth (t : Ty) : Nat :=
  match tyFmt t with
  | some f => 1 + f.e + f.m
  | none => match tyInt t with
    | some (w, _) => w
    | none => 32
/-- A conversion of `VCVT`; between identical types the identity, but for a NaN (R286). -/
def convertElem (dst src : Ty) (mode : Rnd) (draw : Nat) (x : Elem) : Elem × Nat :=
  let code := x.toNat % 2 ^ tyWidth src
  let v := tyDecode src code
  if dst = src && v ≠ .nan then plain (BitVec.ofNat 32 code)
  else
    let (r, f) := tyEncode dst mode draw v
    (BitVec.ofNat 32 r, f)
/-- The operation of a reduction or a scan (R291). -/
def accumulateV (op : RedOp) (ty : Ty) (x y : Elem) : Elem × Nat :=
  if ty = .b32 then
    match op with
    | .add => plain (x + y)
    | .min => plain (if x < y then x else y)
    | .max => plain (if x < y then y else x)
  else accumulate op ty x y
/-- Elements moved: element (r, c) comes from a position. -/
def moved (l : List Elem) (f : Nat → Nat → Nat) : List (Elem × Nat) :=
  let a := l.toArray
  (List.range 1024).map fun e => plain (a.getD (f (e / 64) (e % 64)) 0)
/-- Neighbours of a list combined pairwise. -/
def pairUp (op : Elem → Elem → Elem × Nat) : List (Elem × Nat) → List (Elem × Nat)
  | (x, f) :: (y, g) :: r =>
    let (z, h) := op x y
    (z, f ||| g ||| h) :: pairUp op r
  | l => l
/-- `tree_red` (R291), `n` levels. -/
def treeRed (op : Elem → Elem → Elem × Nat) : Nat → List (Elem × Nat) → Elem × Nat
  | 0, l => l.headD (0, 0)
  | n + 1, l => treeRed op n (pairUp op l)
/-- Every row reduced, its result in every column. -/
def reduceRows (op : Elem → Elem → Elem × Nat) (l : List Elem) : List (Elem × Nat) :=
  (chunks 64 l).flatMap fun r => List.replicate 64 (treeRed op 6 (r.map plain))
/-- Every column reduced, its result in every row. -/
def reduceCols (op : Elem → Elem → Elem × Nat) (l : List Elem) : List (Elem × Nat) :=
  let a := l.toArray
  let sums := (List.range 64).map fun c => treeRed op 4 ((List.range 16).map fun r => plain (a.getD (64 * r + c) 0))
  (List.replicate 16 sums).flatten
/-- A running combination of a row from a value on. -/
def scanFrom (op : Elem → Elem → Elem × Nat) (acc : Elem) : List Elem → List (Elem × Nat)
  | [] => []
  | x :: r =>
    let (z, f) := op acc x
    (z, f) :: scanFrom op z r
/-- Every row scanned. -/
def scanRows (op : Elem → Elem → Elem × Nat) (l : List Elem) : List (Elem × Nat) :=
  (chunks 64 l).flatMap fun r => match r with
    | [] => []
    | x :: r => plain x :: scanFrom op x r
/-- True bits of a predicate in a range. -/
def predCount (p : BitVec 1024) (lo n : Nat) : Nat := ((List.range n).filter fun k => p.getLsbD (lo + k)).length
/-- The first true bit of a predicate in a range, or its length. -/
def predFirst (p : BitVec 1024) (lo n : Nat) : Nat := ((List.range n).find? fun k => p.getLsbD (lo + k)).getD n
/-- A row of 64 elements as a number, element c at bits [32c + 31 : 32c]. -/
def rowNat (l : List Elem) : Nat := l.foldr (fun x a => a * 2 ^ 32 + x.toNat) 0
/-- `VPACK` of elements of `w` bits (R296). -/
def packV (w : Nat) (l : List Elem) : List (Elem × Nat) :=
  let f := 32 / w
  let a := l.toArray
  (List.range 16).flatMap fun j =>
    let x := ((List.range f).reverse.flatMap fun i => (List.range 64).reverse.map fun c =>
      if f * j + i < 16 then (a.getD (64 * (f * j + i) + c) 0).toNat % 2 ^ w else 0).foldl (fun s v => s * 2 ^ w + v) 0
    (List.range 64).map fun c => plain (BitVec.ofNat 32 (x / 2 ^ (32 * c)))
/-- `VUNPK` of elements of `w` bits (R296). -/
def unpackV (w : Nat) (sx : Bool) (l : List Elem) : List (Elem × Nat) :=
  let f := 32 / w
  let rows := (chunks 64 l).map rowNat
  (List.range 1024).map fun e =>
    let x := bits (rows.getD (e / 64 / f) 0) (64 * w * (e / 64 % f) + w * (e % 64)) w
    plain (if sx then BitVec.ofInt 32 (toSigned w x) else BitVec.ofNat 32 x)
/-- A comparison of two sources into a predicate under the guard (R284). -/
def vCompare (p : Nat) (a b : VLoc) (g : Nat) (f : Elem → Elem → Bool) (s : State) : Res :=
  if !srcsReady s.cx [a, b] then wait s
  else
    let (xs, s1) := readSrcs s [a, b]
    done .v { s1 with cx := setGuarded s1.cx p g (predOf (((xs.getD 0 []).zip (xs.getD 1 [])).map fun (x, y) => f x y)) }

/-! ### Instructions -/

/-- `VADD` (R282, Table 9.1). -/
def execVadd (d a b : VLoc) (g : Nat) (s : State) : Res :=
  vMap2 d a b g 0 addFp32 s
/-- `VSUB` (R282, Table 9.1). -/
def execVsub (d a b : VLoc) (g : Nat) (s : State) : Res :=
  vMap2 d a b g 0 subFp32 s
/-- `VMUL` (R282, Table 9.1). -/
def execVmul (d a b : VLoc) (g : Nat) (s : State) : Res :=
  vMap2 d a b g 0 mulFp32 s
/-- `VMIN` (R282, Table 9.1). -/
def execVmin (d a b : VLoc) (g : Nat) (s : State) : Res :=
  vMap2 d a b g 0 minFp32 s
/-- `VMAX` (R282, Table 9.1). -/
def execVmax (d a b : VLoc) (g : Nat) (s : State) : Res :=
  vMap2 d a b g 0 maxFp32 s
/-- `VFMA` (R282, Table 9.1). -/
def execVfma (d a b : VLoc) (g : Nat) (s : State) : Res :=
  vMap3 d a b g (fun x y z => fmaFp32 x y z) s
/-- `VFMS` (R282, Table 9.1). -/
def execVfms (d a b : VLoc) (g : Nat) (s : State) : Res :=
  vMap3 d a b g (fun x y z => fmaFp32 x y (neg32 z)) s
/-- `VNMA` (R282, Table 9.1). -/
def execVnma (d a b : VLoc) (g : Nat) (s : State) : Res :=
  vMap3 d a b g (fun x y z => fmaFp32 (neg32 x) y z) s
/-- `VABS` (R282, Table 9.1). -/
def execVabs (d a : VLoc) (g : Nat) (s : State) : Res :=
  vMap1 d a g 0 (fun x => plain (if isNan32 x then nan32 else abs32 x)) s
/-- `VNEG` (R282, Table 9.1). -/
def execVneg (d a : VLoc) (g : Nat) (s : State) : Res :=
  vMap1 d a g 0 (fun x => plain (if isNan32 x then nan32 else neg32 x)) s
/-- `VCMP` (R284). -/
def execVcmp (cond : Cmp) (p : Nat) (a b : VLoc) (g : Nat) (s : State) : Res :=
  vCompare p a b g (cmpFp32 cond) s
/-- `VSEL` (R282). -/
def execVsel (d a b : VLoc) (k : Nat) (s : State) : Res :=
  vInstr [a, b] d 0 0 (fun xs =>
    ((xs.getD 0 []).zip (xs.getD 1 [])).zipIdx.map fun ((x, y), i) => plain (if (s.cx.pr k).getLsbD i then x else y)) s
/-- `VIADD` (R283, Table 9.2). -/
def execViadd (ty : Ty) (d a b : VLoc) (g : Nat) (s : State) : Res :=
  vMap2 d a b g 0 (fun x y => plain (perLane ty (fun _w x y => x + y) x y)) s
/-- `VISUB` (R283, Table 9.2). -/
def execVisub (ty : Ty) (d a b : VLoc) (g : Nat) (s : State) : Res :=
  vMap2 d a b g 0 (fun x y => plain (perLane ty (fun w x y => x + 2 ^ w - y) x y)) s
/-- `VIMUL` (R283, Table 9.2). -/
def execVimul (ty : Ty) (d a b : VLoc) (g : Nat) (s : State) : Res :=
  vMap2 d a b g 0 (fun x y => plain (perLane ty (fun _w x y => x * y) x y)) s
/-- `VAND` (R283, Table 9.2). -/
def execVand (ty : Ty) (d a b : VLoc) (g : Nat) (s : State) : Res :=
  vMap2 d a b g 0 (fun x y => plain (perLane ty (fun _w x y => x &&& y) x y)) s
/-- `VOR` (R283, Table 9.2). -/
def execVor (ty : Ty) (d a b : VLoc) (g : Nat) (s : State) : Res :=
  vMap2 d a b g 0 (fun x y => plain (perLane ty (fun _w x y => x ||| y) x y)) s
/-- `VXOR` (R283, Table 9.2). -/
def execVxor (ty : Ty) (d a b : VLoc) (g : Nat) (s : State) : Res :=
  vMap2 d a b g 0 (fun x y => plain (perLane ty (fun _w x y => x ^^^ y) x y)) s
/-- `VSHL` (R283, Table 9.2). -/
def execVshl (ty : Ty) (d a b : VLoc) (g : Nat) (s : State) : Res :=
  vMap2 d a b g 0 (fun x y => plain (perLane ty (fun w x y => x * 2 ^ (y % w)) x y)) s
/-- `VSHR` (R283, Table 9.2). -/
def execVshr (ty : Ty) (d a b : VLoc) (g : Nat) (s : State) : Res :=
  vMap2 d a b g 0 (fun x y => plain (perLane ty (fun w x y => x / 2 ^ (y % w)) x y)) s
/-- `VSRA` (R283, Table 9.2). -/
def execVsra (ty : Ty) (d a b : VLoc) (g : Nat) (s : State) : Res :=
  vMap2 d a b g 0 (fun x y => plain (perLane ty (fun w x y => ofSigned w (toSigned w x / 2 ^ (y % w))) x y)) s
/-- `VIMIN` (R283, Table 9.2). -/
def execVimin (ty : Ty) (d a b : VLoc) (g : Nat) (s : State) : Res :=
  vMap2 d a b g 0 (fun x y => plain (perLane ty (fun w x y => if intBelow ty w x y then x else y) x y)) s
/-- `VIMAX` (R283, Table 9.2). -/
def execVimax (ty : Ty) (d a b : VLoc) (g : Nat) (s : State) : Res :=
  vMap2 d a b g 0 (fun x y => plain (perLane ty (fun w x y => if intBelow ty w x y then y else x) x y)) s
/-- `VIMAD` (R283, Table 9.2). -/
def execVimad (ty : Ty) (d a b : VLoc) (g : Nat) (s : State) : Res :=
  vMap3 d a b g (fun x y z => plain (perLane ty (fun _w x y => x + y) (perLane ty (fun _w x y => x * y) x y) z)) s
/-- `VNOT` (R283, Table 9.2). -/
def execVnot (_ty : Ty) (d a : VLoc) (g : Nat) (s : State) : Res :=
  vMap1 d a g 0 (fun x => plain (~~~x)) s
/-- `VICMP` (R284). -/
def execVicmp (ty : Ty) (cond : Cmp) (p : Nat) (a b : VLoc) (g : Nat) (s : State) : Res :=
  vCompare p a b g (cmpInt ty cond) s
/-- `VSADD` (R283, Table 9.2). -/
def execVsadd (ty : Ty) (d a b : VLoc) (g : Nat) (s : State) : Res :=
  vMap2 d a b g 0 (saturating ty fun x y => x + y) s
/-- `VSSUB` (R283, Table 9.2). -/
def execVssub (ty : Ty) (d a b : VLoc) (g : Nat) (s : State) : Res :=
  vMap2 d a b g 0 (saturating ty fun x y => x - y) s
/-- `VACS` (R285): the butterflies of each element, and the decisions in a pair of predicates. -/
def execVacs (d a b : VLoc) (p : Nat) (s : State) : Res :=
  if !srcsReady s.cx [a, b] || !dstReady s.cx d 16 then wait s
  else
    let (xs, s1) := readSrcs s [a, b]
    let l := ((xs.getD 0 []).zip (xs.getD 1 [])).map fun (x, y) => acs x y
    let c := writeDst (cyclesAt s s.cur) s1.cx d (BitVec.allOnes 1024) (l.map (·.1))
    let c1 := if p = 0 then c else (c.setP p (predOf (l.map (·.2.1)))).setP (p + 1) (predOf (l.map (·.2.2)))
    done .v { s1 with cx := c1 }
/-- `VCVT` (R286). -/
def execVcvt (dst src : Ty) (mode : Rnd) (d a : VLoc) (g : Nat) (s : State) : Res :=
  vInstr [a] d g 0 (fun xs => (xs.getD 0 []).zipIdx.map fun (x, i) => convertElem dst src mode (drawOf s i) x) s
/-- `VSQRT` (R290). -/
def execVsqrt (d a : VLoc) (g : Nat) (s : State) : Res :=
  vMap1 d a g 14 sqrtFp32 s
/-- `VRSQ` (R290). -/
def execVrsq (d a : VLoc) (g : Nat) (s : State) : Res :=
  vMap1 d a g 10 rsqFp32 s
/-- `VRCP` (R290). -/
def execVrcp (d a : VLoc) (g : Nat) (s : State) : Res :=
  vMap1 d a g 10 rcpFp32 s
/-- `VEXP2` (R290). -/
def execVexp2 (d a : VLoc) (g : Nat) (s : State) : Res :=
  vMap1 d a g 12 exp2Fp32 s
/-- `VLOG2` (R290). -/
def execVlog2 (d a : VLoc) (g : Nat) (s : State) : Res :=
  vMap1 d a g 12 log2Fp32 s
/-- `VDIV` (R290). -/
def execVdiv (d a b : VLoc) (g : Nat) (s : State) : Res :=
  vMap2 d a b g 14 divFp32 s
/-- `VROTR` (R291, Table 9.4). -/
def execVrotr (d a : VLoc) (k g : Nat) (s : State) : Res :=
  vInstr [a] d g 2 (fun xs => moved (xs.getD 0 []) (fun r c => 64 * r + (c + k) % 64)) s
/-- `VROTC` (R291, Table 9.4). -/
def execVrotc (d a : VLoc) (k g : Nat) (s : State) : Res :=
  vInstr [a] d g 6 (fun xs => moved (xs.getD 0 []) (fun r c => 64 * ((r + k) % 16) + c)) s
/-- `VBCR` (R291, Table 9.4). -/
def execVbcr (d a : VLoc) (k g : Nat) (s : State) : Res :=
  vInstr [a] d g 2 (fun xs => moved (xs.getD 0 []) (fun r _ => 64 * r + k)) s
/-- `VBCC` (R291, Table 9.4). -/
def execVbcc (d a : VLoc) (k g : Nat) (s : State) : Res :=
  vInstr [a] d g 6 (fun xs => moved (xs.getD 0 []) (fun _ c => 64 * k + c)) s
/-- `VREDR` (R291, Table 9.4). -/
def execVredr (op : RedOp) (ty : Ty) (d a : VLoc) (g : Nat) (s : State) : Res :=
  vInstr [a] d g 4 (fun xs => reduceRows (accumulateV op ty) (xs.getD 0 [])) s
/-- `VREDC` (R291, Table 9.4). -/
def execVredc (op : RedOp) (ty : Ty) (d a : VLoc) (g : Nat) (s : State) : Res :=
  vInstr [a] d g 8 (fun xs => reduceCols (accumulateV op ty) (xs.getD 0 [])) s
/-- `VSCNR` (R291, Table 9.4). -/
def execVscnr (op : RedOp) (ty : Ty) (d a : VLoc) (g : Nat) (s : State) : Res :=
  vInstr [a] d g 4 (fun xs => scanRows (accumulateV op ty) (xs.getD 0 [])) s
/-- `VMOV` (R292). -/
def execVmov (d a : VLoc) (g : Nat) (s : State) : Res :=
  vMap1 d a g 0 plain s
/-- `VXFER` (R292). -/
def execVxfer (d a : VLoc) (g : Nat) (s : State) : Res :=
  vMap1 d a g 0 plain s
/-- `VMOVI` (R292). -/
def execVmovi (d : Nat) (imm : Int) (s : State) : Res :=
  vInstr [] (.reg d) 0 0 (fun _ => List.replicate 1024 (plain (BitVec.ofInt 32 imm))) s
/-- `VIOTA` (R292). -/
def execViota (d : VLoc) (g : Nat) (s : State) : Res :=
  vInstr [] d g 0 (fun _ => (List.range 1024).map fun e => plain (BitVec.ofNat 32 e)) s
/-- `PSETNONE` (R293, Table 9.5). -/
def execPsetNone (p : Nat) (s : State) : Res :=
  done .v { s with cx := s.cx.setP p (0) }
/-- `PSETALL` (R293, Table 9.5). -/
def execPsetAll (p : Nat) (s : State) : Res :=
  done .v { s with cx := s.cx.setP p (BitVec.allOnes 1024) }
/-- `PSETROW` (R293, Table 9.5). -/
def execPsetRow (p k : Nat) (s : State) : Res :=
  done .v { s with cx := s.cx.setP p (predOf ((List.range 1024).map fun e => e / 64 = k)) }
/-- `PSETCOL` (R293, Table 9.5). -/
def execPsetCol (p k : Nat) (s : State) : Res :=
  done .v { s with cx := s.cx.setP p (predOf ((List.range 1024).map fun e => e % 64 = k)) }
/-- `PAND` (R293, Table 9.5). -/
def execPand (p a b : Nat) (n : Bool) (s : State) : Res :=
  done .v { s with cx := s.cx.setP p (s.cx.pr a &&& (if n then ~~~s.cx.pr b else s.cx.pr b)) }
/-- `POR` (R293, Table 9.5). -/
def execPor (p a b : Nat) (n : Bool) (s : State) : Res :=
  done .v { s with cx := s.cx.setP p (s.cx.pr a ||| (if n then ~~~s.cx.pr b else s.cx.pr b)) }
/-- `PXOR` (R293, Table 9.5). -/
def execPxor (p a b : Nat) (n : Bool) (s : State) : Res :=
  done .v { s with cx := s.cx.setP p (s.cx.pr a ^^^ (if n then ~~~s.cx.pr b else s.cx.pr b)) }
/-- `PNOT` (R293, Table 9.5). -/
def execPnot (p a : Nat) (s : State) : Res :=
  done .v { s with cx := s.cx.setP p (~~~s.cx.pr a) }
/-- `PCNTROW` (R293, Table 9.5). -/
def execPcntRow (d p : Nat) (s : State) : Res :=
  vInstr [] (.reg d) 0 0 (fun _ => (List.range 1024).map fun e => plain (BitVec.ofNat 32 (predCount (s.cx.pr p) (64 * (e / 64)) 64))) s
/-- `PCNTALL` (R293, Table 9.5). -/
def execPcntAll (d p : Nat) (s : State) : Res :=
  vInstr [] (.reg d) 0 0 (fun _ => List.replicate 1024 (plain (BitVec.ofNat 32 (predCount (s.cx.pr p) 0 1024)))) s
/-- `PFSTROW` (R293, Table 9.5). -/
def execPfstRow (d p : Nat) (s : State) : Res :=
  vInstr [] (.reg d) 0 0 (fun _ => (List.range 1024).map fun e => plain (BitVec.ofNat 32 (predFirst (s.cx.pr p) (64 * (e / 64)) 64))) s
/-- `PFSTALL` (R293, Table 9.5). -/
def execPfstAll (d p : Nat) (s : State) : Res :=
  vInstr [] (.reg d) 0 0 (fun _ => List.replicate 1024 (plain (BitVec.ofNat 32 (predFirst (s.cx.pr p) 0 1024)))) s
/-- `VPART` (R294): every element of the list and every bit of pd is written. -/
def execVpart (d : VLoc) (p a g : Nat) (s : State) : Res :=
  if !dstReady s.cx d 16 then wait s
  else
    let on := (List.range 1024).filter fun e => (s.cx.pr g).getLsbD e
    let t := on.filter fun e => (s.cx.pr a).getLsbD e
    let f := on.filter fun e => !(s.cx.pr a).getLsbD e
    let l := (t ++ f).map (BitVec.ofNat 32) ++ List.replicate (1024 - on.length) (BitVec.allOnes 32)
    done .v { s with cx := (writeDst (cyclesAt s s.cur) s.cx d (BitVec.allOnes 1024) l).setP p (predOf ((List.range 1024).map fun e => e < t.length)) }
/-- `VGATH` (R295). -/
def execVgath (d a b : VLoc) (g : Nat) (s : State) : Res :=
  vInstr [a, b] d g 0 (fun xs =>
    (xs.getD 1 []).map fun i => plain (if i.toNat < 1024 then (xs.getD 0 []).getD i.toNat 0 else 0)) s
/-- `VSCAT` (R295): in ascending order, so that a higher element wins. -/
def execVscat (d a b : VLoc) (g : Nat) (s : State) : Res :=
  vInstr [a, b, d] d 0 0 (fun xs =>
    let pairs := ((xs.getD 0 []).zip (xs.getD 1 [])).zipIdx
    (pairs.foldl (fun l ((x, i), e) => if (s.cx.pr g).getLsbD e && i.toNat < 1024 then l.set i.toNat x else l)
      (xs.getD 2 [])).map plain) s
/-- `VPACK` (R296). -/
def execVpack (d a : VLoc) (w : Nat) (s : State) : Res :=
  vInstr [a] d 0 0 (fun xs => packV (16 / 2 ^ w) (xs.getD 0 [])) s
/-- `VUNPK` (R296). -/
def execVunpk (d a : VLoc) (w : Nat) (sx : Bool) (s : State) : Res :=
  vInstr [a] d 0 0 (fun xs => unpackV (16 / 2 ^ w) sx (xs.getD 0 [])) s

end Sys2Proof.Machine
end

