-- ==== Sys2Proof/Machine/Quant.lean ====
section
/-! DEFINITION. Quantisation and dequantisation of V (09, R287 to R289; 02, R76 to R78). -/
namespace Sys2Proof.Machine

/-- Elements of a block of a size code (Table 2.2). -/
def blockSize (code : Nat) : Nat := if code = 1 then 16 else if code = 2 then 64 else 32
/-- A governor addition of element statistics (R165). -/
def statOf (layer role : Nat) (x : ElemStat) : StatAdd :=
  { tenant := 0, layer := layer, role := role, eng := .v, lost := x.lost, kept := x.kept, elements := x.elements,
    sat := x.sat, under := x.under }
/-- The blocks of a row of values from column `c` on, `n` columns each: bytes and statistics and flags. -/
def quantiseRow (f : EFmt) (n : Nat) (mode : Rnd) (draw : Nat → Nat) (row : List FVal) : List Byte × ElemStat × Nat :=
  let q := (chunks n row).zipIdx.map fun (v, b) => (v, quantiseBlock f n mode (fun i => draw (b * n + i)) v)
  (q.flatMap fun x => x.2.bytes, q.foldl (fun a x => a.add (blockStat x.1 x.2.elems)) {},
    orFlags (q.map fun x => orFlags (x.2.elems.map (·.2))))
/-- `VQNT` (R287, R288). -/
def execVqnt (f : EFmt) (bs : Nat) (mode : Rnd) (role : Option Nat) (layer : Nat) (d a : VLoc) (s : State) : Res :=
  if !srcsReady s.cx [a] || !dstReady s.cx d 16 then wait s
  else if role.isSome && !governed s.cx then trapN .v 0x70D (layer + 4096 * role.getD 0) s
  else
    let (xs, s1) := readSrcs s [a]
    let rows := (chunks 64 (xs.getD 0 [])).zipIdx.map fun (r, i) =>
      quantiseRow f (blockSize bs) mode (fun c => drawOf s (64 * i + c)) (r.map val32)
    let l := rows.flatMap fun r => rowElems { data := padTo 256 r.1 }
    let c := writeDst (cyclesAt s s.cur) (setFlags s1.cx (orFlags (rows.map (·.2.2)))) d (BitVec.allOnes 1024) l
    let s2 := { s1 with cx := c }
    match role with
    | none => done .v s2
    | some k => doneStat .v none (statOf layer k (rows.foldl (fun a r => a.add r.2.1) {})) s2
/-- `k` consecutive blocks of one class and size decoded; or the header that cannot be (R63, R289). -/
def blocksFrom (cls n : Nat) : Nat → List Byte → Except Nat (List FVal)
  | 0, _ => .ok []
  | k + 1, b =>
    match readHeader (fieldAt b 0 1) with
    | none => .error (fieldAt b 0 2)
    | some (f, m) =>
      if m ≠ n || efmtClass f ≠ cls || b.length < blockBytes f n then .error (fieldAt b 0 2)
      else
        match blocksFrom cls n k (b.drop (blockBytes f n)) with
        | .ok r => .ok (blockValues f n (b.take (blockBytes f n)) ++ r)
        | .error x => .error x
/-- The 64 values of a row of blocks (R289). -/
def dequantiseRow (b : List Byte) : Except Nat (List FVal) :=
  match readHeader (fieldAt b 0 1) with
  | none => .error (fieldAt b 0 2)
  | some (f, n) => blocksFrom (efmtClass f) n (64 / n) b
/-- The rows of a register decoded, or the first that cannot be and its header. -/
def dequantise : List (List Elem) → Nat → Except (Nat × Nat) (List Elem)
  | [], _ => .ok []
  | r :: rest, i =>
    match dequantiseRow (elemBytes r) with
    | .error h => .error (i, h)
    | .ok v =>
      match dequantise rest (i + 1) with
      | .ok l => .ok (v.map (fun x => (roundFp32 .rn 0 x).1) ++ l)
      | .error x => .error x
/-- `VDQNT` (R289): a malformed row is a synchronous data-format fault (R401). -/
def execVdqnt (d a : VLoc) (s : State) : Res :=
  if !srcsReady s.cx [a] || !dstReady s.cx d 16 then wait s
  else
    let (xs, s1) := readSrcs s [a]
    match dequantise (chunks 64 (xs.getD 0 [])) 0 with
    | .ok l => done .v { s1 with cx := writeDst (cyclesAt s s.cur) s1.cx d (BitVec.allOnes 1024) l }
    | .error (row, h) =>
      let t : Trap := { cls := 1, code := 0x710, eng := 4, lane := s.iss.lane, seq := s.iss.seq, tval := BitVec.ofNat 64 row,
                        epc := s.cx.fetch, sub := 1, addr := row, value := h }
      .next (takeTrap { s with cx := { s.cx with report := some (.v, s.iss.seq), lineTrap := false } } t)

end Sys2Proof.Machine
end

