-- ==== Sys2Proof/Machine/Matrix.lean ====
section
/-! DEFINITION. The matrix engine M: spans, operand tiles, the cell-operation pattern, `MMA`, `MMAV` and the accumulator
transfers (09, R297 to R310; 02, R64 to R68; 05, R159; 16, R401). -/
namespace Sys2Proof.Machine

/-! ### Arithmetic of a unit (R66, R67, R302) -/

/-- A step of the pattern. -/
def patStep (pat s : Nat) : Nat := bits pat (2 * s) 2
def isInf : FVal → Bool
  | .inf _ => true
  | _ => false
/-- A value above zero. -/
def positive : FVal → Bool
  | .fin neg m _ => !neg && m ≠ 0
  | .inf neg => !neg
  | .nan => false
/-- The magnitude of a value. -/
def absV : FVal → FVal
  | .fin _ m e => .fin false m e
  | .inf _ => .inf false
  | .nan => .nan
/-- The term of one pair of element values: exact (R302). -/
def termV (op : Nat) (x y : FVal) : FVal :=
  if x = .nan || y = .nan then .nan
  else if op = 0 then mulV x y
  else if op = 1 then absV (diffV x y)
  else if positive x then y else .fin false 0 0
/-- `term_block`: the exact sum of a unit's terms, an exactly zero sum +0. -/
def termBlock (op : Nat) (l : List (FVal × FVal)) : FVal :=
  match l.foldl (fun a (x, y) => addV a (termV op x y)) (.fin false 0 0) with
  | .fin _ 0 _ => .fin false 0 0
  | v => v
/-- `term16`: one product, difference or selection, rounded. -/
def term16 (op : Nat) (x y : Elem) : Elem :=
  if isNan32 x || isNan32 y then nan32
  else if op = 0 then (mulFp32 x y).1
  else if op = 1 then abs32 (subFp32 x y).1
  else if positive (val32 x) then y else 0
/-- The flags of adding a unit's term to an accumulator (Table 16.2): `clean` says that the unit's operands hold no NaN,
`finite` that they hold no infinity either. -/
def accFlags (acc term new : Elem) (clean finite : Bool) : Nat :=
  flagIf ((isNan32 term && clean) || (isNan32 new && !isNan32 acc && !isNan32 term)) flagInvalid
    ||| flagIf (isInf (val32 new) && isFin (val32 acc) && finite) flagOverflow
/-- One block of A and B added to an accumulator (R66, R302). -/
def addBlock (op : Nat) (l : List (FVal × FVal)) (acc : Elem) : Elem × Nat :=
  let term := (roundFp32 .rn 0 (termBlock op l)).1
  let new := (addFp32 acc term).1
  (new, accFlags acc term new (l.all fun x => x.1 ≠ .nan && x.2 ≠ .nan) (l.all fun x => isFin x.1 && isFin x.2))
/-- A group of up to 32 plain elements added to an accumulator (R67). -/
def addGroup (op : Nat) (l : List (Elem × Elem)) (acc : Elem) : Elem × Nat :=
  let p := (l.map fun x => plain (term16 op x.1 x.2)) ++ List.replicate (32 - l.length) (plain 0)
  let term := (treeRed addFp32 5 p).1
  let new := (addFp32 acc term).1
  (new, accFlags acc term new (l.all fun x => !isNan32 x.1 && !isNan32 x.2)
    (l.all fun x => isFin (val32 x.1) && isFin (val32 x.2)))

/-! ### Operand rows -/

/-- A row of an operand: blocks of values, or plain codes. -/
inductive OpRow where
  | blocks (l : List (List FVal))
  | plain (codes : List Nat)
  deriving DecidableEq, Repr
/-- A plain code as FP32. -/
def plainVal (t : MTy) (x : Nat) : Elem :=
  match t with
  | .bf16 => (roundFp32 .rn 0 (fmtBf16.decode x)).1
  | _ => (roundFp32 .rn 0 (fmtF16.decode x)).1
/-- A `PASS` over a unit: the bits of A where B is not zero, a raw test for `.b16` (R302). -/
def passUnit (tb : MTy) (l : List (Nat × Nat)) (acc : Elem) : Elem :=
  l.foldl (fun acc (x, y) =>
    if (if tb = .b16 then y ≠ 0 else y % 2 ^ 15 ≠ 0) then BitVec.ofNat 32 x else acc) acc
/-- `mma_elem` (R302): one output element and its flags. -/
def mmaElem (ta tb : MTy) (pat k : Nat) (a b : OpRow) (acc : Elem) : Elem × Nat :=
  match a, b with
  | .blocks la, .blocks lb =>
    (la.zip lb).zipIdx.foldl (fun (acc, f) ((x, y), u) =>
      let (v, g) := addBlock (patStep pat (u * x.length * 8 / k)) (x.zip y) acc
      (v, f ||| g)) (acc, 0)
  | .plain la, .plain lb =>
    ((chunks 32 la).zip (chunks 32 lb)).zipIdx.foldl (fun (acc, f) ((x, y), u) =>
      let op := patStep pat (u * 32 * 8 / k)
      if op = 3 then (passUnit tb (x.zip y) acc, f)
      else
        let (v, g) := addGroup op ((x.map (plainVal ta)).zip (y.map (plainVal tb))) acc
        (v, f ||| g)) (acc, 0)
  | _, _ => (acc, 0)
/-- A block of a tile that is as its first is: width, size and, of a fixed type, the format (R63, R301). -/
def unitOk (t : MTy) (f : EFmt) (n : Nat) (b : List Byte) : Option EFmt :=
  match readHeader (fieldAt b 0 1) with
  | some (g, m) =>
    if m = n && efmtWidth g = efmtWidth f && (match mtyFmt t with
        | some h => g = h
        | none => true) then some g else none
  | none => none
/-- The units of a row laid contiguously, or the offset of the first that is malformed. -/
def rowUnits (t : MTy) (x : Shape) (k : Nat) (unit : Nat → List Byte) : Except Nat OpRow :=
  match x with
  | .blk f n =>
    let u := k / n
    match (List.range u).find? fun c => (unitOk t f n (unit c)).isNone with
    | some c => .error c
    | none => .ok (.blocks ((List.range u).map fun c => blockValues ((unitOk t f n (unit c)).getD f) n (unit c)))
  | _ => .ok (.plain ((List.range k).map fun c => fieldAt (unit c) 0 2))
/-- Bytes of the unit at (r, c) of a tile in contour order (R300). -/
def tileUnit (x : Shape) (k : Nat) (b : List Byte) (r c : Nat) : List Byte :=
  let (w, u) := unitShape x k
  slice b (w * contourIndex r c 4 (Nat.log2 u)) w
/-- A malformed header: its queue row, and its bytes. -/
structure BadUnit where
  row : Nat
  header : Nat
  deriving DecidableEq, Repr
/-- The sixteen rows of a tile, or the first malformed header in stored order. -/
def tileOfRows (t : MTy) (x : Shape) (k : Nat) (rows : List Row) : Except BadUnit (List OpRow) :=
  let b := rows.flatMap (·.data)
  let (w, u) := unitShape x k
  let broken := match x with
    | .blk f n => (List.range (16 * u)).find? fun i => (unitOk t f n (slice b (w * i) w)).isNone
    | .bad => some 0
    | .plain => none
  match broken with
  | some i => .error ⟨w * i / 256, fieldAt b (w * i) 2⟩
  | none => .ok ((List.range 16).map fun r => match rowUnits t x k (tileUnit x k b r) with
      | .ok v => v
      | .error _ => .plain [])
/-- Conditions on the headers of the two operands (R301): classes, one block size, u at least 4. -/
def pairOk (ta tb : MTy) (a b : Shape) (k : Nat) : Bool :=
  match a, b with
  | .plain, .plain => true
  | .blk _ n, .blk _ m => n = m && 4 ≤ k / n && !isPlain ta && !isPlain tb
  | _, _ => false

/-! ### Static checks and spans -/

/-- Classes or formats that the types alone show to break R301 (code 0x501). -/
def classMix (ta tb : MTy) : Bool :=
  match mtyClass ta, mtyClass tb with
  | some x, some y =>
    if x = 16 && y = 16 then ta ≠ tb && ta ≠ .b16 && tb ≠ .b16 else x = 16 || y = 16
  | _, _ => false
/-- A `PASS` step with a type outside codes 0 to 2, or `.b16` with another step (code 0x502). -/
def passMisuse (ta tb : MTy) (pat : Nat) : Bool :=
  let steps := (List.range 8).map (patStep pat)
  (steps.contains 3 && !(isPlain ta && isPlain tb)) || ((ta = .b16 || tb = .b16) && steps.any (· ≠ 3))
/-- The accumulators from `n`, `k` of them, lie in the allotment, or code 0x707 with the first past it (R297). -/
def accFault (c : Ctx) (n k : Nat) : Option Fail :=
  if n + k ≤ c.accCount then none else some (0x707, BitVec.ofNat 64 (max n c.accCount))
/-- The extension word of an instruction. -/
def extOf (i : Instr) : Word := BitVec.ofNat 64 (((words i true).bind (·.ext)).getD 0)
/-- The accumulators an issued matrix instruction names. -/
def MOp.acc (m : MOp) : List Nat :=
  match m.instr with
  | .mma n .. => [n]
  | _ => []
/-- The queues it takes rows from. -/
def MOp.queues (m : MOp) : List Nat :=
  match m.instr with
  | .mma _ _ _ a b .. => [a, b]
  | _ => []
/-- An issued instruction that is not performed names one of the accumulators from `n`, `k` of them (R298). -/
def accBusy (c : Ctx) (n k : Nat) : Bool := c.mops.any fun m => m.acc.any fun x => n ≤ x && x < n + k
/-- The span cap of `MSPAN`: 0 none (R305, R306). -/
def spanCap (c : Ctx) : Nat := wbits (c.cr 0x00F) 8 4
/-- The spans an instruction requests: the count it names, or the entitlement under the cap (R159, R306). -/
def spanRequest (c : Ctx) (req : Nat) : Nat :=
  max 1 (if req = 0 then (if spanCap c = 0 then c.entitle else min c.entitle (2 ^ (spanCap c - 1))) else 2 ^ (req - 1))
/-- Rows of a load queue that an instruction at the head of the M queue has to find before it asks for spans (R304, R308): of
`MMAV`, those of its tile as far as its first header shows. -/
def rowsAwaited (c : Ctx) (i : Instr) : Bool :=
  match i with
  | .mmav _ ta tb _ _ q kq _ _ =>
    let sa := shapeOf ta (c.lrows q).head?
    let k := (runClass ta tb false (sa.getD .bad) none).map fun x => tileK x kq
    sa.isNone || (c.lrows q).length < max 1 (if k.isNone then 1 else tileRows (sa.getD .bad) k)
  | .mperm _ _ q _ => (c.lrows q).isEmpty
  | _ => false
/-- The request of the instruction at the head of the M queue of the context at a place, where it waits for spans. -/
def spanWant (s : State) (p : Nat) : Option Nat :=
  let c := ctxAt s p
  if c.phase ≠ .running || c.handler || !(c.unheld || c.steps .m) || c.granted ≠ 0 then none
  else
    match c.qM with
    | [] => none
    | x :: _ =>
      match decodeEntry .m x with
      | none => none
      | some i => if x.marker || rowsAwaited c i then none else
        match i with
        | .mma _ _ _ _ _ _ req _ _ => some (spanRequest c req)
        | .mmav _ _ _ _ _ _ _ req _ => some (spanRequest c req)
        | .mperm .. => some 1
        | _ => none
/-- Spans of a tile held by its contexts. -/
def spansHeld (s : State) (t : Nat) : Nat :=
  ((residents s t).map fun p => (ctxAt s p).granted + ((ctxAt s p).mops.map (·.spans)).sum).sum
/-- Spans of a tile that are offered and free; lent ones return at once to a request. -/
def spansFree (s : State) (t : Nat) : Nat := (tileAt s t).spans - spansHeld s t
/-- Matrix power of a die in mW: of the spans held on its tiles, and of those lent to filler. -/
def heldPower (s : State) (d : Nat) : Nat :=
  ((s.tiles.filter fun e => e.1 / 2 ^ 7 = d).map fun e => spansHeld s e.1 * Config.spanPower e.2.gear).sum
def matrixPower (s : State) (d : Nat) : Nat :=
  heldPower s d + ((s.tiles.filter fun e => e.1 / 2 ^ 7 = d).map fun e => e.2.lent * Config.spanPower e.2.gear).sum
/-- A grant of `g` spans on a tile would let the die's matrix power rise faster than `slewcfg.rise` (R350): above the ramp of
that rate from the power last measured with no grant held back, one µs ahead (DESIGN CHOICE, log 29). -/
def riseHeld (s : State) (t g : Nat) : Bool :=
  let x := dieAt s (t / 2 ^ 7)
  let rise := wbits x.slewcfg 16 16
  let gain := (g - min g (tileAt s t).lent) * Config.spanPower (tileAt s t).gear
  rise ≠ 0 && gain ≠ 0 && x.riseRef + rise * (1000 + (s.now - x.riseAt)) < matrixPower s (t / 2 ^ 7) + gain
/-- A context begins or ends to wait on a grant that is held back: its time until now stands under the reason before. -/
def slopeMark (s : State) (p : Nat) (on : Bool) : State :=
  if (ctxAt s p).slopeWait = on then s else updCtx (settle s p) p fun c => { c with slopeWait := on }
/-- One grant: the waiting context of highest priority, by rotation over slots, gets the largest power of two not above
its request and the free spans, once the current slope allows it. -/
def grantOne (s : State) : State :=
  let t := tileOf s.cur
  let waiting := (residents s t).filter fun p => (spanWant s p).isSome
  let top := waiting.foldl (fun a p => max a (ctxAt s p).priority) 0
  let claims : Nat → Bool := fun k => waiting.contains (slotPlace s.cur k) && (ctxAt s (slotPlace s.cur k)).priority = top
  let free := spansFree s t
  if free = 0 then s
  else
    match rotate (tileAt s t).spanPtr 8 claims with
    | none => s
    | some k =>
      let p := slotPlace s.cur k
      let g := pow2Below (min ((spanWant s p).getD 0) free)
      if riseHeld s t g then slopeMark s p true
      else
        updTile (updCtx (slopeMark s p false) p fun c => { c with granted := g }) t fun x => { x with
          spanPtr := k + 1, lent := min x.lent (free - g) }
/-- `SPAN_ARBITRATION` (R159): the free spans of the tile go to the instructions that wait for them. -/
def execSpanArbitration (s : State) : Res :=
  if !tileRuns s then wait s
  else .next ((List.range 8).foldl (fun s _ => grantOne s) s)
/-- The limiter's record that it could not hold a fall, with the fall in W per µs (R471). -/
def slopeRecord (s : State) (d w : Nat) : State :=
  writeRecord s d { kind := 11, sev := 1, unit := 0x42, value := w % 65536, place := diePlace d, detail := leBytes 1 7 }
/-- Spans of a tile that may be lent: neither held nor requested (R159, R349). -/
def lendable (s : State) (t : Nat) : Nat :=
  if (residents s t).any fun p => (spanWant s p).isSome then 0 else spansFree s t - (tileAt s t).lent
/-- Filler on the free spans of a die's tiles, one tile after the other, until `need` mW are made up: what is still lacking. -/
def lendSpans (s : State) (d need : Nat) : State × Nat :=
  (s.tiles.filter fun e => e.1 / 2 ^ 7 = d).foldl (fun (s, need) e =>
    let w := Config.spanPower e.2.gear
    let k := if w = 0 then 0 else min (lendable s e.1) (ceilDiv need w)
    (updTile s e.1 fun x => { x with lent := x.lent + k }, need - k * w)) (s, need)
/-- Spans of the focused tile have been released by a tenant: where the die's matrix power would fall faster than
`slewcfg.fall`, filler keeps it up on lent spans (R349, R471); what started the fall is noted (R351). -/
def afterRelease (s : State) (tenant n : Nat) : State :=
  let d := dieOf s.cur
  let fresh := (s.tiles.filter fun e => e.1 / 2 ^ 7 = d).all fun e => e.2.lent = 0
  let s1 := updDie s d fun x => { x with fell := zset 0 x.fell tenant (zlook 0 x.fell tenant + n) }
  let x := dieAt s1 d
  let fall := wbits x.slewcfg 0 16
  let least := x.slopeRef - 1000 * fall
  let now := matrixPower s1 d
  if fall = 0 || least ≤ now then s1
  else
    let (s2, lack) := lendSpans s1 d (least - now)
    let s3 := updDie s2 d fun y => { y with fillFor := if fresh then y.fell else y.fillFor }
    if lack = 0 then s3 else slopeRecord s3 d ((x.slopeRef - matrixPower s3 d) / 1000)
/-- Span cycles are charged to the tenant: spans × cycles held (Table 5.4). -/
def chargeSpans (s : State) (spans cycles : Nat) : State :=
  updTenant s (dieOf s.cur) s.cx.tenant fun x => { x with spanused := x.spanused + spans * cycles }
/-- The spans granted to the focused context's instruction return after `n` cycles, charged and counted as its engine's. -/
def giveSpans (n : Nat) (s : State) : State :=
  let c : Ctx := { s.cx with granted := 0, occupied := s.cx.occupied + n }
  afterRelease (chargeSpans { s with cx := c } s.cx.granted n) s.cx.tenant s.cx.granted
/-- An asynchronous data-format fault of a matrix instruction of the focused context (R401, R403). -/
def matrixFault (s : State) (seq sub : Nat) (tval : Word) (addr header : Nat) : State :=
  dataFault s s.cur { cls := 1, code := 0x714, eng := 5, seq := seq, tval := tval, sub := sub, addr := addr, value := header }
/-- Undefined elements (R12). -/
def freeElems (s : State) (n : Nat) : List Elem × State :=
  ((List.range n).map fun i => BitVec.ofNat 32 (Config.freeWord (s.free + i)).toNat, { s with free := s.free + n })

/-! ### MMA (R303) -/

/-- `MMA` issues with its spans; it is performed at MMA_PERFORM. -/
def execMma (n : Nat) (ta tb : MTy) (qa qb kq req pat : Nat) (cc : Option Nat) (s : State) : Res :=
  let i : Instr := .mma n ta tb qa qb kq req pat cc
  checked .m (firstFault [if classMix ta tb then some (0x501, extOf i) else none,
      if passMisuse ta tb pat then some (0x502, extOf i) else none, accFault s.cx n 1]) (fun s =>
    if s.cx.granted = 0 then wait s
    else
      let m : MOp := { instr := i, seq := s.iss.seq, spans := s.cx.granted, since := s.now }
      done .m { s with cx := { s.cx with mops := s.cx.mops ++ [m], granted := 0 } }) s
/-- Rows an operand still lacks; one where its length is not yet known. -/
def wanted (n : Option Nat) (held : Nat) : Nat :=
  match n with
  | some n => n - held
  | none => if held = 0 then 1 else 0
/-- Rows are taken from the queues as far as they are there (popped as consumed); B's after A's from a common queue. -/
def gather (ta tb : MTy) (qa qb kq : Nat) (m : MOp) (c : Ctx) : MOp × Ctx :=
  let (na, _) := mmaNeeds ta tb kq (qa = qb) m.rowsA m.rowsB
  let ka := min (wanted na m.rowsA.length) (c.lrows qa).length
  let m1 := { m with rowsA := m.rowsA ++ (c.lrows qa).take ka }
  let c1 := c.setL qa ((c.lrows qa).drop ka)
  let (na1, nb) := mmaNeeds ta tb kq (qa = qb) m1.rowsA m1.rowsB
  if qa = qb && (na1.isNone || wanted na1 m1.rowsA.length ≠ 0) then (m1, c1)
  else
    let kb := min (wanted nb m1.rowsB.length) (c1.lrows qb).length
    ({ m1 with rowsB := m1.rowsB ++ (c1.lrows qb).take kb }, c1.setL qb ((c1.lrows qb).drop kb))
/-- The product of two tiles added to an accumulator. -/
def mmaAcc (ta tb : MTy) (pat k : Nat) (a b : List OpRow) (acc : List Elem) : List (Elem × Nat) :=
  acc.zipIdx.map fun (x, e) => mmaElem ta tb pat k (a.getD (e / 16) (.plain [])) (b.getD (e % 16) (.plain [])) x
/-- The tiles of an `MMA` decoded, with K; or the queue and the unit at fault. -/
def mmaTiles (ta tb : MTy) (qa qb kq : Nat) (m : MOp) : Except (Nat × BadUnit) (List OpRow × List OpRow × Nat) :=
  let a := (shapeOf ta m.rowsA.head?).getD .bad
  let b := (shapeOf tb m.rowsB.head?).getD .bad
  let k := ((runClass ta tb (qa = qb) a (some b)).map fun c => tileK c kq).getD 0
  let wide := qa = qb && mtyClass tb = none && (classOf ta a).getD 0 < (classOf tb b).getD 0
  let head : List Row → BadUnit := fun r => ⟨0, fieldAt ((r.head?.map (·.data)).getD []) 0 2⟩
  if a = .bad then .error (qa, head m.rowsA)
  else if b = .bad then .error (qb, head m.rowsB)
  else if !pairOk ta tb a b k || wide then .error (if isPlain tb then (qa, head m.rowsA) else (qb, head m.rowsB))
  else
    match tileOfRows ta a k m.rowsA, tileOfRows tb b k m.rowsB with
    | .error x, _ => .error (qa, x)
    | _, .error x => .error (qb, x)
    | .ok x, .ok y => .ok (x, y, k)
/-- `MMA_PERFORM` (R298, R303): the named issued instruction takes its rows; with both tiles whole it forms the
accumulator, returns its spans and lowers its counter. -/
def execMmaPerform (s : State) : Res :=
  match s.cx.mops[s.inp.sel]? with
  | none => wait s
  | some m =>
    match m.instr with
    | .mma n ta tb qa qb kq _ pat cc =>
      let before := s.cx.mops.take s.inp.sel
      if !tileRuns s || before.any fun x => x.acc.contains n || x.queues.contains qa || x.queues.contains qb then wait s
      else
        let (m1, c1) := gather ta tb qa qb kq m s.cx
        let (m2, c2) := gather ta tb qa qb kq m1 c1
        let (na, nb) := mmaNeeds ta tb kq (qa = qb) m2.rowsA m2.rowsB
        if na.isNone || nb.isNone || wanted na m2.rowsA.length ≠ 0 || wanted nb m2.rowsB.length ≠ 0 then
          .next { s with cx := { c2 with mops := c2.mops.set s.inp.sel m2 } }
        else
          let s0 := settle { s with cx := c2 } s.cur
          let s1 := afterRelease { s0 with cx := { s0.cx with mops := s0.cx.mops.eraseIdx s.inp.sel } } s.cx.tenant m2.spans
          match mmaTiles ta tb qa qb kq m2 with
          | .ok (a, b, k) =>
            let l := mmaAcc ta tb pat k a b (s1.cx.ac n)
            .next { s1 with cx := (setFlags (s1.cx.setAc n (l.map (·.1))) (orFlags (l.map (·.2)))).ccComplete cc .m m2.seq }
          | .error (q, x) =>
            let (l, s2) := freeElems s1 256
            let s3 := matrixFault { s2 with cx := s2.cx.setAc n l } m2.seq 2 (BitVec.ofNat 64 (32 + q + 256 * (x.row % 256))) x.row x.header
            .next { s3 with cx := s3.cx.ccComplete cc .m m2.seq }
    | _ => wait s

/-! ### MMAV (R304) -/

/-- What forming columns of an `MMAV` ends in. -/
inductive MmavEnd where
  | whole
  | malformed (col va header : Nat)
  | touch (col : Nat) (x : TouchErr)
  | read (col : Nat) (r : VRead)
  deriving DecidableEq, Repr
/-- What an `MMAV` works with: B's place, stride, snapshot and legend number, A's rows, the shape of B's rows and K. -/
structure Mmav where
  n : Nat
  ta : MTy
  tb : MTy
  base : Word
  stride : Int
  legend : Nat
  snap : Option (List Byte)
  a : List OpRow
  shape : Shape
  k : Nat
  deriving DecidableEq, Repr
/-- The address of B's row `j`. -/
def Mmav.rowVa (x : Mmav) (j : Nat) : Word := x.base + BitVec.ofInt 64 (j * x.stride)
/-- Bytes of a row of B. -/
def Mmav.rowBytes (x : Mmav) : Nat := (unitShape x.shape x.k).1 * (unitShape x.shape x.k).2
/-- Column `j` of an accumulator formed from a row of B. -/
def mmavColumn (x : Mmav) (j : Nat) (b : OpRow) (c : Ctx) : Ctx :=
  let l := (c.ac x.n).zipIdx.map fun (v, e) =>
    if e % 16 = j then mmaElem x.ta x.tb 0 x.k (x.a.getD (e / 16) (.plain [])) b v else (v, 0)
  setFlags (c.setAc x.n (l.map (·.1))) (orFlags (l.map (·.2)))
/-- The columns from `j` on, `left` of them, each row of B brought to the snapshot's edition and read. -/
def mmavColumns (x : Mmav) : Nat → Nat → State → MmavEnd × State
  | 0, _, s => (.whole, s)
  | left + 1, j, s =>
    let va := (x.rowVa j).toNat
    let touched : Except TouchErr State := match x.snap with
      | none => .ok s
      | some snap => touchUnits s s.cur .m snap x.legend ((legendOf snap).unitsOf va x.rowBytes)
    match touched with
    | .error f => (.touch j f, s)
    | .ok s1 =>
      match virtRead s1 .m (pieces va x.rowBytes) with
      | .ok b s2 =>
        let w := (unitShape x.shape x.k).1
        match rowUnits x.tb x.shape x.k (fun c => slice b (w * c) w) with
        | .error c => (.malformed j (va + w * c) (fieldAt b (w * c) 2), s2)
        | .ok r => mmavColumns x left (j + 1) { s2 with cx := mmavColumn x j r s2.cx }
      | r => (.read j r, s1)
/-- `mrowprog` with its held bit and row (Table 9.8). -/
def setProg (c : Ctx) (held : Bool) (row : Nat) : Ctx :=
  c.setCr 0x00F (wput (wput (c.cr 0x00F) 63 1 (if held then 1 else 0)) 0 5 row)
/-- The instruction ends: A's rows popped, progress cleared, spans returned, the counter lowered. The cycles it held its spans,
here and up to a page fault, are a free number (DESIGN CHOICE, log 14). -/
def mmavEnd (q t : Nat) (cc : Option Nat) (s : State) : Res :=
  let c := setProg { s.cx with heldSnap := none } false 0
  doneCC .m cc (giveSpans (Config.freeNat s.free) { s with cx := c.setL q ((c.lrows q).drop t), free := s.free + 1 })
/-- A page fault holds the instruction with its progress and the snapshot, its spans released. -/
def mmavHold (j : Nat) (snap : Option (List Byte)) (s : State) : State :=
  giveSpans (Config.freeNat s.free) { s with cx := setProg { s.cx with heldSnap := snap } true j, free := s.free + 1 }
/-- What a record of a malformed block under a snapshot adds to the header: the tag of its sheet, which is the edition's once the
touch is made, and the edition (R417). -/
def snapWord : Option (List Byte) → Nat
  | none => 0
  | some b => (legendOf b).edition % 256 * 2 ^ 16 + (legendOf b).edition * 2 ^ 24
/-- Columns `j` to 15 undefined, and the fault reported. -/
def mmavMalformed (n j q t : Nat) (cc : Option Nat) (va header : Nat) (s : State) : Res :=
  let (l, s1) := freeElems s 256
  let acc := ((s1.cx.ac n).zip l).zipIdx.map fun ((x, y), e) => if j ≤ e % 16 then y else x
  mmavEnd q t cc (matrixFault { s1 with cx := s1.cx.setAc n acc } s.iss.seq 3 (BitVec.ofNat 64 va) va header)
/-- An access of an `MMAV` that failed at column `j`: a page fault holds it, anything else leaves it as it was. -/
def mmavFailed (j : Nat) (snap : Option (List Byte)) (va : Nat) (x : Xlat) (before after : State) : Res :=
  match x with
  | .fault .. => badXlat .m va 1 x (mmavHold j snap after)
  | _ => badXlat .m va 1 x { before with cx := { before.cx with granted := 0 } }
/-- The columns of an `MMAV` that has its spans and A's rows. -/
def mmavRun (x : Mmav) (q t j0 : Nat) (cc : Option Nat) (s : State) : Res :=
  match mmavColumns x (16 - j0) j0 s with
  | (.whole, s1) => mmavEnd q t cc s1
  | (.malformed j va h, s1) => mmavMalformed x.n j q t cc va (h + snapWord x.snap) s1
  | (.touch j (.xlat va f), s1) => mmavFailed j x.snap va f s s1
  | (.touch _ f, s1) => badTouch .m 5 (x.snap.getD []) f { s1 with cx := { s1.cx with granted := 0 } }
  | (.read j (.xlat va f), s1) => mmavFailed j x.snap va f s s1
  | (.read _ (.window s2), _) => wait { s2 with cx := { s.cx with granted := s.cx.granted } }
  | (.read _ r, s1) => badRead .m r { s1 with cx := { s1.cx with granted := 0 } }
/-- The first header of B, at row `j` (R300): none of a plain type; its unit is first brought to the snapshot's edition. -/
def mmavShape (tb : MTy) (snap : Option (List Byte)) (id : Nat) (va : Word) (s : State) :
    Except (TouchErr ⊕ VRead) (Shape × Nat × State) :=
  if isPlain tb then .ok (.plain, 0, s)
  else
    let touched : Except TouchErr State := match snap with
      | none => .ok s
      | some b => touchUnits s s.cur .m b id ((legendOf b).unitsOf va.toNat 2)
    match touched with
    | .error f => .error (.inl f)
    | .ok s1 =>
      match virtRead s1 .m (pieces va.toNat 2) with
      | .ok b s2 => .ok ((shapeOf tb (some { data := b })).getD .bad, leNat b, s2)
      | r => .error (.inr r)
/-- A first header that could not be read. -/
def mmavUnread (j : Nat) (snap : Option (List Byte)) (x : TouchErr ⊕ VRead) (s : State) : Res :=
  match x with
  | .inl (.xlat va f) => mmavFailed j snap va f s s
  | .inl f => badTouch .m 5 (snap.getD []) f { s with cx := { s.cx with granted := 0 } }
  | .inr (.xlat va f) => mmavFailed j snap va f s s
  | .inr r => badRead .m r s
/-- An `MMAV` with its snapshot: A's and B's shapes, the wait for rows and spans, bounds, and the columns. -/
def mmavIssue (n : Nat) (ta tb : MTy) (a b q kq : Nat) (cc : Option Nat) (snap : Option (List Byte)) (s : State) : Res :=
  let gb := operand s 1 b
  let base := operand s 0 a
  let stride := toSigned 32 gb.toNat
  let held := bitOf (s.cx.cr 0x00F).toNat 63
  let j0 := if held then wbits (s.cx.cr 0x00F) 0 5 else 0
  let va0 := base + BitVec.ofInt 64 (j0 * stride)
  match (s.cx.lrows q).head? with
  | none => wait s
  | some r =>
    let sa := (shapeOf ta (some r)).getD .bad
    checked .m (firstFault [if canonical va0 then none else some (0x703, va0),
        match snap with
        | some b => boundsFault (legendOf b) va0 (if isPlain tb then 0 else 2)
        | none => none]) (fun s =>
      match mmavShape tb snap (wbits gb 32 16) va0 s with
      | .error x => mmavUnread j0 snap x s
      | .ok (sb, hb, s1) =>
        let k := ((runClass ta tb false sa (some sb)).map fun c => tileK c kq)
        let t := tileRows sa k
        let x : Mmav := { n := n, ta := ta, tb := tb, base := base, stride := stride,
                          legend := wbits gb 32 16, snap := snap, a := [], shape := sb, k := k.getD 0 }
        let rows := (List.range (16 - j0)).map fun j => x.rowVa (j0 + j)
        if 32 < t then trapN .m 0x503 t s
        else if (s.cx.lrows q).length < t then wait s
        else
          checked .m (firstFault (rows.map fun v => firstFault [if canonical v then none else some (0x703, v),
              match snap with
              | some b => boundsFault (legendOf b) v x.rowBytes
              | none => none])) (fun s1 =>
            if s1.cx.granted = 0 then wait s
            else if sa = .bad then mmavMalformed n j0 q t cc (32 + q) (fieldAt r.data 0 2) s1
            else if sb = .bad || !pairOk ta tb sa sb x.k then mmavMalformed n j0 q t cc va0.toNat (hb + snapWord snap) s1
            else
              match tileOfRows ta sa x.k ((s.cx.lrows q).take t) with
              | .error f => mmavMalformed n j0 q t cc (32 + q + 256 * f.row) f.header s1
              | .ok rowsA => mmavRun { x with a := rowsA } q t j0 cc s1) s1) s
/-- Rows of A's tile where its first header, or its plain type, and B's type alone fix the run class (R300, R304). -/
def mmavRowsA (c : Ctx) (ta tb : MTy) (q kq : Nat) : Nat :=
  match shapeOf ta (c.lrows q).head? with
  | none => 0
  | some x => match runClass ta tb false x none with
    | some k => tileRows x (some (tileK k kq))
    | none => 0
/-- `MMAV` (R304). A tile of A of more than 32 rows traps before the legend is read. -/
def execMmav (n : Nat) (ta tb : MTy) (a b q kq req : Nat) (cc : Option Nat) (s : State) : Res :=
  let i : Instr := .mmav n ta tb a b q kq req cc
  let gb := operand s 1 b
  let id := wbits gb 32 16
  checked .m (firstFault [if classMix ta tb then some (0x501, extOf i) else none,
      if passMisuse ta tb 0 then some (0x502, extOf i) else none, accFault s.cx n 1]) (fun s =>
    if accBusy s.cx n 1 || (s.cx.mops.any fun m => m.queues.contains q) then wait s
    else if 32 < mmavRowsA s.cx ta tb q kq then trapN .m 0x503 (mmavRowsA s.cx ta tb q kq) s
    else if (shapeOf ta (s.cx.lrows q).head?).isNone then wait s
    else if bitOf (s.cx.cr 0x00F).toNat 63 then mmavIssue n ta tb a b q kq cc s.cx.heldSnap s
    else if id = 0xFFFF then mmavIssue n ta tb a b q kq cc none s
    else
      match readLegend s s.cur .m id with
      | .error f => badTouch .m 5 [] f s
      | .ok (snap, s1) =>
        let v := (legendOf snap).version
        let given := wbits gb 48 16
        if v ≠ given then
          .next (trapAt .m 4 0xA01 (BitVec.ofNat 64 (id * 2 ^ 32 + v * 2 ^ 16 + given)) s1)
        else mmavIssue n ta tb a b q kq cc (some snap) s1) s

/-! ### Transfers, permutation, cap and statistics (R306 to R309) -/

/-- `MZERO` (R307). -/
def execMzero (n k : Nat) (s : State) : Res :=
  checked .m (accFault s.cx n k) (fun s =>
    if accBusy s.cx n k then wait s
    else done .m { s with cx := (List.range k).foldl (fun c i => c.setAc (n + i) (List.replicate 256 0)) s.cx }) s
/-- The elements of a register that quarter `q` of it covers. -/
def quarterMask (q : Nat) : BitVec 1024 := predOf ((List.range 1024).map fun e => e % 64 / 16 = q)
/-- An accumulator spread over quarter `q` of a register's columns. -/
def spread (acc : List Elem) (q : Nat) : List Elem :=
  let a := acc.toArray
  (List.range 1024).map fun e => if e % 64 / 16 = q then a.getD (e / 64 * 16 + e % 16) 0 else 0
/-- `MRD` into a register (R307): its result is exposed. -/
def execMrd (d n q : Nat) (s : State) : Res :=
  checked .m (accFault s.cx n 1) (fun s =>
    if accBusy s.cx n 1 then wait s
    else
      let x : Exposed := { dest := .reg d, mask := quarterMask q, data := spread (s.cx.ac n) q, eng := .m, seq := s.iss.seq, bound := cyclesAt s s.cur + 8 }
      done .m { s with cx := { s.cx with exposed := s.cx.exposed ++ [x] } }) s
/-- `MRD` into a store queue (R307): four rows, tagged from 4t. -/
def execMrdQueue (q n t : Nat) (s : State) : Res :=
  checked .m (accFault s.cx n 1) (fun s =>
    if accBusy s.cx n 1 || !dstReady s.cx (.queue q) 4 then wait s
    else
      let rows := (chunks 64 (s.cx.ac n)).zipIdx.map fun (l, k) => ({ data := elemBytes l, tag := 4 * t + k } : Row)
      done .m { s with cx := s.cx.setS q (s.cx.srows q ++ rows) }) s
/-- `MWR` (R307). -/
def execMwr (n v q : Nat) (s : State) : Res :=
  checked .m (accFault s.cx n 1) (fun s =>
    if accBusy s.cx n 1 then wait s
    else
      let (l, s1) := readRegM s v
      let a := l.toArray
      done .m { s1 with cx := s1.cx.setAc n ((List.range 256).map fun e => a.getD (e / 16 * 64 + 16 * q + e % 16) 0) }) s
/-- The first selector whose bits [6:4] are not zero (R308). -/
def badSelector (b : List Byte) : Option Nat := (List.range 16).find? fun k => bits (fieldAt b k 1) 4 3 ≠ 0
/-- `MPERM` (R308): holds one span as it permutes columns, or rows. -/
def execMperm (d n q : Nat) (rows : Bool) (s : State) : Res :=
  checked .m (firstFault [accFault s.cx d 1, accFault s.cx n 1]) (fun s =>
    if accBusy s.cx d 1 || accBusy s.cx n 1 || (s.cx.mops.any fun m => m.queues.contains q) then wait s
    else
      match s.cx.lrows q with
      | [] => wait s
      | r :: rest =>
        match badSelector r.data with
        | some k => trapN .m 0x504 k s
        | none =>
          if s.cx.granted = 0 then wait s
          else
            let src := (s.cx.ac n).toArray
            let sel : Nat → Nat := fun k => fieldAt r.data k 1
            let l := (List.range 256).map fun e =>
              let x := if rows then sel (e / 16) else sel (e % 16)
              if 128 ≤ x then 0 else if rows then src.getD (x % 16 * 16 + e % 16) 0 else src.getD (e / 16 * 16 + x % 16) 0
            done .m (giveSpans 16 { s with cx := (s.cx.setAc d l).setL q rest })) s
/-- `MSPAN` (R306). -/
def execMspan (cap : Nat) (s : State) : Res := done .m { s with cx := s.cx.setCr 0x00F (wput (s.cx.cr 0x00F) 8 4 cap) }
/-- `MQSTAT` (R309): statistics of what a setting would store; nothing is stored. -/
def execMqstat (setting n k layer role : Nat) (s : State) : Res :=
  checked .m (firstFault [accFault s.cx n k,
      if governed s.cx then none else some (0x70D, BitVec.ofNat 64 (layer + 4096 * role))]) (fun s =>
    if accBusy s.cx n k then wait s
    else
      match settingOf setting with
      | none => done .m s
      | some x =>
        let v := (List.range k).flatMap fun i => (s.cx.ac (n + i)).map val32
        let q := x.encodeRow v
        let c := setFlags s.cx (orFlags (q.elems.map (·.2)))
        doneStat .m none (statOf layer role (rowStat x v q.elems)) { s with cx := c }) s

end Sys2Proof.Machine
end

