-- ==== Sys2Proof/Machine/Array.lean ====
section
/-! DEFINITION. Errors of the tile's arrays: how the environment spoils an element of a register, an accumulator or a queue row,
or a cache line, and what a read of it meets (16, R408, Table 16.5). -/
namespace Sys2Proof.Machine

/-! ### What an instruction reads -/

/-- The registers (array 0) and accumulators (array 1) an instruction of V or M reads as it issues. -/
def Instr.reads : Instr → List (Nat × Nat)
  | .vadd _ a b _ | .vsub _ a b _ | .vmul _ a b _ | .vmin _ a b _ | .vmax _ a b _ | .vsel _ a b _ | .viadd _ _ a b _
  | .visub _ _ a b _ | .vimul _ _ a b _ | .vand _ _ a b _ | .vor _ _ a b _ | .vxor _ _ a b _ | .vshl _ _ a b _
  | .vshr _ _ a b _ | .vsra _ _ a b _ | .vimin _ _ a b _ | .vimax _ _ a b _ | .vsadd _ _ a b _ | .vssub _ _ a b _
  | .vacs _ a b _ | .vdiv _ a b _ | .vgath _ a b _ | .vcmp _ _ a b _ | .vicmp _ _ _ a b _ => locs [a, b]
  | .vfma d a b _ | .vfms d a b _ | .vnma d a b _ | .vimad _ d a b _ | .vscat d a b _ => locs [a, b, d]
  | .vabs _ a _ | .vneg _ a _ | .vnot _ _ a _ | .vcvt _ _ _ _ a _ | .vqnt _ _ _ _ _ _ a | .vdqnt _ a | .vsqrt _ a _
  | .vrsq _ a _ | .vrcp _ a _ | .vexp2 _ a _ | .vlog2 _ a _ | .vrotr _ a _ _ | .vrotc _ a _ _ | .vbcr _ a _ _
  | .vbcc _ a _ _ | .vredr _ _ _ a _ | .vredc _ _ _ a _ | .vscnr _ _ _ a _ | .vmov _ a _ | .vxfer _ a _
  | .vpack _ a _ | .vunpk _ a _ _ => locs [a]
  | .mmav n .. | .mrd _ n _ | .mrdQueue _ n _ | .mperm _ n _ _ => [(1, n)]
  | .mqstat _ n k _ _ => (List.range k).map fun i => (1, n + i)
  | .mwr _ v _ => [(0, v)]
  | _ => []
where
  locs (l : List VLoc) : List (Nat × Nat) := l.filterMap fun x => match x with
    | .reg v => some (0, v)
    | .queue _ => none

/-! ### Spoiled elements -/

/-- Where an element of an array lies within its unit, and the unit (Table 15.7). -/
def elemUnit (c : Ctx) (b : BadElem) : Nat × Nat :=
  if b.array = 0 then (0x13, 4096 * b.reg + 4 * b.elem) else (0x14, 1024 * (c.accBase + b.reg) + 4 * b.elem)
/-- A spoiled element as a read meets it: unit, address in it, whether it is uncorrected. -/
structure BadRead where
  unit : Nat
  addr : Nat
  uncorrected : Bool
  deriving DecidableEq, Repr
/-- Spoiled elements of registers and accumulators. -/
def badElems (c : Ctx) (l : List BadElem) : List BadRead := l.map fun b => ⟨(elemUnit c b).1, (elemUnit c b).2, b.uncorrected⟩
/-- Spoiled elements of rows of a load (0) or store (1) queue. -/
def badRows (kind q : Nat) (l : List Row) : List BadRead :=
  l.zipIdx.flatMap fun (r, k) => r.bad.map fun b => ⟨0x16, 65536 * kind + 8192 * q + 256 * k + 4 * (b / 2), b % 2 = 1⟩
/-- Rows that have left the heads of queues. -/
def popped (kind : Nat) (a b : Assoc (List Row)) : List BadRead :=
  a.flatMap fun e => badRows kind e.1 (e.2.take (e.2.length - ((alook b e.1).getD []).length))
/-- Every spoiled element of the registers, accumulators and queues of a context. -/
def badArrays (c : Ctx) : List BadRead :=
  badElems c c.badR ++ (c.lq.flatMap fun e => badRows 0 e.1 e.2) ++ c.sq.flatMap fun e => badRows 1 e.1 e.2
/-- The accumulators an instruction read that was issued and has been performed. -/
def performedAccs (s t : State) : List (Nat × Nat) :=
  if t.cx.mops.length < s.cx.mops.length then (((s.cx.mops[s.inp.sel]?).map MOp.acc).getD []).map fun n => (1, n) else []
/-- What was read between two states of the focused context: rows that were popped, and `srcs` where V or M issued. -/
def consumed (srcs : List (Nat × Nat)) (s t : State) : List BadRead :=
  let moved := t.cx.qV ≠ s.cx.qV || t.cx.qM ≠ s.cx.qM || t.cx.repV ≠ s.cx.repV
  let regs := (if moved then srcs else []) ++ performedAccs s t
  badElems s.cx (s.cx.badR.filter fun b => regs.contains (b.array, b.reg)) ++ popped 0 s.cx.lq t.cx.lq ++ popped 1 s.cx.sq t.cx.sq
/-- What was read after the answer `r` to a step from `s`: an uncorrected element ends the task instead, with nothing done; a
corrected one is corrected in place and recorded (R408). -/
def consume (srcs : List (Nat × Nat)) (s : State) (r : Res) : Res :=
  match r with
  | .next t =>
    let l := if t.cur = s.cur then consumed srcs s t else []
    match l.find? (·.uncorrected) with
    | some x => .next (eccStop s x.unit x.addr)
    | none =>
      if l = [] then r
      else
        let t1 := l.foldl (fun t x => freeRecord t (dieOf t.cur) (ctxRecord t t.cur (arrayRecord t x.unit 1 x.addr))) t
        .next { t1 with cx := { t1.cx with badR := t1.cx.badR.filter fun b => !srcs.contains (b.array, b.reg) } }
  | r => r

/-! ### The environment -/

/-- An element of a vector register or an accumulator of the focused context is spoiled. -/
def upsetReg (s : State) (b : BadElem) : State := { s with cx := { s.cx with badR := b :: s.cx.badR } }
/-- An element of a row of a load or store queue of the focused context is spoiled. -/
def upsetRow (s : State) (store : Bool) (q row elem : Nat) (uncorrected : Bool) : State :=
  let l := if store then s.cx.srows q else s.cx.lrows q
  match l[row]? with
  | none => s
  | some r =>
    let l1 := l.set row { r with bad := (2 * elem + if uncorrected then 1 else 0) :: r.bad }
    { s with cx := if store then s.cx.setS q l1 else s.cx.setL q l1 }
/-- A line that the L1 data cache or the instruction cache of the focused tile holds has wrong parity. -/
def upsetCache (s : State) (code : Bool) (line : Nat) : State :=
  updTile s (tileOf s.cur) fun t =>
    if code then (if (alook t.ic line).isSome then { t with icBad := line :: t.icBad } else t)
    else if (alook t.l1 line).isSome then { t with l1Bad := line :: t.l1Bad } else t

end Sys2Proof.Machine
end

