-- ==== Sys2Proof/Machine/CMem.lean ====
section
/-! DEFINITION. Loads, stores, atomics and fences of C (07, R211 to R216, R235; 03, R98 to R100; 04, R129 to R134). -/
namespace Sys2Proof.Machine

/-- Scopes at which an acquire or a release is performed at the home slice (R131). -/
def wideScope : Scope → Bool
  | .c | .t => false
  | _ => true
/-- Bytes of a memory type. -/
def tyBytes : Ty → Nat
  | .i8 | .b8 => 1
  | .i16 | .b16 => 2
  | .i64 | .b64 => 8
  | _ => 4
/-- A memory type is sign-extended by a load. -/
def tySigned : Ty → Bool
  | .i8 | .i16 | .i32 | .i64 => true
  | _ => false
/-- The L1 copies that other tiles hold of lines of C stores that are ordered before this context's next access are
invalidated (R131, R133). -/
def publish (s0 : State) : State :=
  let t := tileOf s0.cur
  let old := s0.cx.stored
  let s := countDropped s0 (old.filter fun l => s0.tiles.any fun e => e.1 ≠ t && (alook e.2.l1 l).isSome)
  { s with
    tiles := s.tiles.map fun e =>
      if e.1 = t then (e.1, { e.2 with released := e.2.released.filter fun l => !(old.contains l) })
      else (e.1, { e.2 with l1 := e.2.l1.filter (fun x => !(old.contains x.1)), l1Bad := e.2.l1Bad.filter fun l => !(old.contains l) })
    cx := { s.cx with stored := [] } }
/-- A release of a scope: a wide one publishes the stores before it; one at `.t` leaves them to the acquires of its tile
(R131, R132). -/
def releaseAt (sc : Option Scope) (s : State) : State :=
  match sc with
  | some .t => updTile s (tileOf s.cur) fun x => { x with released := (s.cx.stored ++ x.released).eraseDups }
  | some x => if wideScope x then publish s else s
  | none => s
/-- An acquire of scope `.t` or wider: the stores released at `.t` on its tile may be ordered before what follows (R132). -/
def acquireAt (sc : Option Scope) (s : State) : State :=
  match sc with
  | none | some .c => s
  | some _ => { s with cx := { s.cx with stored := (s.cx.stored ++ (myTile s).released).eraseDups } }
/-- A C access to `n` bytes: canonical, aligned, translated, allowed by the host-coherent window and free of an
uncorrected error; then `k` is performed at its key (R211, R115, R100, R408). -/
def cAccess (va : Word) (n : Nat) (wr : Bool) (access : Nat) (s : State) (k : Nat → State → Res) : Res :=
  if !canonical va then trap .c 0x703 va s
  else if va.toNat % n ≠ 0 then trap .c 0x702 va s
  else
    match translate s s.cur .c va.toNat wr false with
    | .ok key s1 =>
      if !windowReady s1 key n wr then .next (windowRecall s1 key n wr)
      else if access ≠ 2 && eccLevel s1 key n = 2 then .next (eccStopAt s1 key n)
      else k key (eccCorrect s1 key n)
    | x => badXlat .c va.toNat access x s
/-- A line of the tile's own die may be held in its L1 (R98, R100). -/
def l1Eligible (s : State) (key : Nat) : Bool := homeDie key = dieOf s.cur && !inWindow key
/-- A line of the tile's L1 whose parity is wrong is dropped, to be fetched again (Table 16.5). -/
def refetchL1 (s : State) (line : Nat) : State :=
  if (myTile s).l1Bad.contains line then
    let s1 := updTile s (tileOf s.cur) fun x => { x with l1 := adel x.l1 line, l1Bad := x.l1Bad.filter (· ≠ line) }
    freeRecord s1 (dieOf s.cur) (ctxRecord s1 s.cur (arrayRecord s1 0x11 1 (64 * line)))
  else s
/-- The bytes a C load returns and the caches after it: a plain load may be served from L1, another line is
fetched from its home; an acquire of wide scope reads at the home (R98, R131). -/
def cLoad (s0 : State) (key n : Nat) (home : Bool) : List Byte × State :=
  let s := refetchL1 s0 (key / 64)
  let t := tileOf s.cur
  if !l1Eligible s key then (peek (touch s s.cx.tenant key n) key n, touch s s.cx.tenant key n)
  else
    let s1 := touch s s.cx.tenant key n
    if home then (peek s1 key n, updTile s1 t fun x => { x with l1 := adel x.l1 (key / 64) })
    else
      match alook (myTile s).l1 (key / 64) with
      | some l => (slice l (key % 64) n, s)
      | none => (peek s1 key n, updTile s1 t fun x => { x with l1 := cachePut l1Lines x.l1 (key / 64) (peek s1 (key / 64 * 64) 64) })
/-- A C store is performed: at the home, through the tile's own L1 copy; other tiles' copies stay until a release,
a fence or an atomic (R98, R131). -/
def storeNow (s : State) (key : Nat) (d : List Byte) : State :=
  let s1 := poke s s.cx.tenant key d true
  let s2 := updTile s1 (tileOf s.cur) fun x =>
    match alook x.l1 (key / 64) with
    | some l => { x with l1 := aset x.l1 (key / 64) (splice l (key % 64) d) }
    | none => x
  { s2 with cx := { s2.cx with stored := if s2.cx.stored.contains (key / 64) then s2.cx.stored else key / 64 :: s2.cx.stored } }

/-- The oldest C store that waits is performed; where the host holds its line, the line is recalled and it waits on
(R129, R338). -/
def performOldest (s : State) : State :=
  match s.cx.sbuf with
  | [] => s
  | x :: r =>
    if windowReady s x.key x.data.length true then storeNow { s with cx := { s.cx with sbuf := r } } x.key x.data
    else windowRecall s x.key x.data.length true
/-- What comes after every earlier C store of its context (R129, R131): where one waits, the oldest is performed first. -/
def afterStores (k : State → Res) (s : State) : Res := if s.cx.sbuf = [] then k s else .next (performOldest s)
/-- A C store that waits shares a byte with a range. -/
def storeMeets (s : State) (key n : Nat) : Bool := s.cx.sbuf.any fun x => x.key < key + n && key < x.key + x.data.length
/-- A C store issues (R129): it is performed at once, after those that wait, or where the turn holds it back (`inp.flag`) it
waits itself. -/
def cStore (rel : Option Scope) (key : Nat) (d : List Byte) (s : State) : Res :=
  if s.inp.flag && rel.isNone then
    done .c { s with cx := { s.cx with sbuf := s.cx.sbuf ++ [{ key := key, data := d, seq := s.iss.seq }] } }
  else afterStores (fun s => done .c (releaseAt rel (storeNow s key d))) s

/-- `LD` (R211). A load of bytes that an earlier store has still to write waits for it (R129). -/
def execLd (d a : Nat) (off : Int) (ty : Ty) (acq : Option Scope) (s : State) : Res :=
  let n := tyBytes ty
  cAccess (s.cx.gr a + immW off) n false 1 s fun key s1 =>
    if storeMeets s1 key n then .next (performOldest s1)
    else
    let (b, s0) := cLoad s1 key n (acq.any wideScope)
    let s2 := acquireAt acq s0
    let v := leNat b
    done .c { s2 with cx := s2.cx.setG d (if tySigned ty then BitVec.ofInt 64 (toSigned (8 * n) v) else BitVec.ofNat 64 v) }
/-- `ST` (R212). -/
def execSt (d a : Nat) (off : Int) (ty : Ty) (rel : Option Scope) (s : State) : Res :=
  let n := tyBytes ty
  cAccess (s.cx.gr a + immW off) n true 2 s fun key s1 =>
    cStore rel key (leBytes n (s.cx.gr d).toNat) s1

/-! ### Atomics -/

/-- The operations of Table 7.3 on `n`-byte values. -/
def amoMin' (n x y : Nat) : Nat := if toSigned (8 * n) x < toSigned (8 * n) y then x else y
def amoMax' (n x y : Nat) : Nat := if toSigned (8 * n) x < toSigned (8 * n) y then y else x
/-- Bytes of an atomic. -/
def amoBytes (o : AtomOrd) : Nat := if o.wide then 8 else 4
/-- An atomic at its home: the copies of the line in every L1 are invalidated, the old value is read, and `f` of it
is written where it gives one (R99, R134). It is translated as a write, a `CAS` that will fail among them (log 12). -/
def atomic (d a : Nat) (o : AtomOrd) (f : Nat → Option Nat) (s : State) : Res :=
  let n := amoBytes o
  cAccess (s.cx.gr a) n true 3 s fun key s1 => afterStores (s := s1) fun s1 =>
    let s0 := touch (releaseAt (if o.rel then some o.scope else none) s1) s.cx.tenant key n
    let s2 := dropLines (countDropped (countSlice s0 (key / 64) 8) [key / 64]) [key / 64] true
    let old := leNat (peek s2 key n)
    let s3 := acquireAt (if o.acq then some o.scope else none) (match f old with
      | some v => poke s2 s.cx.tenant key (leBytes n v) false
      | none => s2)
    done .c { s3 with cx := s3.cx.setG d (BitVec.ofNat 64 old) }
/-- The operand of an atomic in its width. -/
def amoOperand (o : AtomOrd) (v : Word) : Nat := v.toNat % 2 ^ (8 * amoBytes o)

/-- `AMO.add` (R214, Table 7.3). -/
def execAmoAdd (d a b : Nat) (o : AtomOrd) (s : State) : Res :=
  let y := amoOperand o (s.cx.gr b)
  atomic d a o (fun x => some ((x + y) % 2 ^ (8 * amoBytes o))) s
/-- `AMO.and` (R214, Table 7.3). -/
def execAmoAnd (d a b : Nat) (o : AtomOrd) (s : State) : Res :=
  let y := amoOperand o (s.cx.gr b)
  atomic d a o (fun x => some (x &&& y)) s
/-- `AMO.or` (R214, Table 7.3). -/
def execAmoOr (d a b : Nat) (o : AtomOrd) (s : State) : Res :=
  let y := amoOperand o (s.cx.gr b)
  atomic d a o (fun x => some (x ||| y)) s
/-- `AMO.xor` (R214, Table 7.3). -/
def execAmoXor (d a b : Nat) (o : AtomOrd) (s : State) : Res :=
  let y := amoOperand o (s.cx.gr b)
  atomic d a o (fun x => some (x ^^^ y)) s
/-- `AMO.min` (R214, Table 7.3). -/
def execAmoMin (d a b : Nat) (o : AtomOrd) (s : State) : Res :=
  let y := amoOperand o (s.cx.gr b)
  atomic d a o (fun x => some (amoMin' (amoBytes o) x y)) s
/-- `AMO.max` (R214, Table 7.3). -/
def execAmoMax (d a b : Nat) (o : AtomOrd) (s : State) : Res :=
  let y := amoOperand o (s.cx.gr b)
  atomic d a o (fun x => some (amoMax' (amoBytes o) x y)) s
/-- `AMO.minn` (R214, Table 7.3). -/
def execAmoMinn (d a b : Nat) (o : AtomOrd) (s : State) : Res :=
  let y := amoOperand o (s.cx.gr b)
  atomic d a o (fun x => some (min x y)) s
/-- `AMO.maxn` (R214, Table 7.3). -/
def execAmoMaxn (d a b : Nat) (o : AtomOrd) (s : State) : Res :=
  let y := amoOperand o (s.cx.gr b)
  atomic d a o (fun x => some (max x y)) s
/-- `AMO.swap` (R214, Table 7.3). -/
def execAmoSwap (d a b : Nat) (o : AtomOrd) (s : State) : Res :=
  let y := amoOperand o (s.cx.gr b)
  atomic d a o (fun _ => some (y)) s
/-- `CAS` (R215): a failed comparison writes nothing. -/
def execCas (d a b c : Nat) (o : AtomOrd) (s : State) : Res :=
  atomic d a o (fun x => if x = amoOperand o (s.cx.gr c) then some (amoOperand o (s.cx.gr b)) else none) s
/-- `FENCE` (R133, R235): at a wide scope the invalidations of earlier stores are completed. -/
def execFence (scope : Scope) (s : State) : Res :=
  afterStores (fun s => done .c (releaseAt (some scope) (acquireAt (some scope) s))) s

end Sys2Proof.Machine
end

