-- ==== Sys2Proof/Machine/Copies.lean ====
section
/-! DEFINITION. The copies of X: issue and its checks, granules, rings, byte barriers and the perform point (08, R263 to
R270; 04, R136). -/
namespace Sys2Proof.Machine

/-! ### Rings and byte barriers in the allotment (R268 to R270) -/

/-- A 4-byte and an 8-byte field of the allotment. -/
def spad4 (c : Ctx) (o : Nat) : Nat := leNat (spadRead c o 4)
def spad8 (c : Ctx) (o : Nat) : Nat := leNat (spadRead c o 8)
/-- The window offset of slot `k` of a ring of `n` slots. -/
def slotAt (h n k : Nat) : Nat := h + 64 + 16 * (k % n)
/-- Claims not released (R269). -/
def ringClaims (c : Ctx) (h : Nat) : Nat := (spad4 c (h + 4) + 2 ^ 32 - spad4 c (h + 8)) % 2 ^ 32
/-- The checks of a ring that an X instruction names: header alignment and place, then n (codes 0x604, 0x701, 0x702). -/
def ringFault (s : State) (h : Word) : Option Fail :=
  firstFault [spFault0 s s.iss.seq 0x701 h 64, alignFault h 64,
    let n := spad4 s.cx (spOff h)
    if !isPow2To4096 n then some (0x604, BitVec.ofNat 64 n)
    else spFault0 s s.iss.seq 0x701 h (64 + 16 * n)]
/-- A slot written: sequence number, bytes, status. -/
def writeSlot (c : Ctx) (o claim n status : Nat) : Ctx :=
  spadWrite c o (leBytes 4 claim ++ leBytes 4 n ++ leBytes 4 status ++ leBytes 4 0)
/-- `n` bytes counted at a byte barrier of an allotment. -/
def barrierAdd (c : Ctx) (o n : Nat) : Ctx := spadWrite c (o + 8) (leBytes 8 (spad8 c (o + 8) + n))

/-! ### Issue -/

/-- The operands of a copy: a, b, len, aux, ring, bb (R430). -/
def copyOperand (s : State) (k reg : Nat) : Word := operand s k reg
/-- The registers of a copy, by operand number. -/
def copyRegs (a b : Nat) (x : CopyExt) : List Nat := [a, b, x.len, x.aux, x.ring, x.bb]
/-- A virtual operand and the range it begins are canonical (R94), or the first address that is not. -/
def virtFault (v : Word) (n : Nat) : Option Fail :=
  if !canonical v then some (0x703, v)
  else if n ≠ 0 && !canonical (v + BitVec.ofNat 64 (n - 1)) then some (0x703, BitVec.ofNat 64 (2 ^ 56))
  else none
/-- The checks of one side of a copy (R85 to R90, R94). -/
def sideFault (s : State) (vm wr : Bool) (v : Word) (n : Nat) : Option Fail :=
  if vm then virtFault v n
  else firstFault [spFault s s.iss.seq v n,
    if wr && spWin v ≠ 0 && n ≠ 0 && winAllow s.cx s.iss.seq (spWin v) = 0 then some (0x705, BitVec.ofNat 64 (spWin v)) else none]
/-- A copy of a length beyond 2^32 − 1 (code 0x601). -/
def lenFault (len : Word) : Option Fail := if 2 ^ 32 ≤ len.toNat then some (0x601, len) else none
/-- The byte barrier a copy names: refused where the destination has no window, and checked in the destination's. -/
def barFault (s : State) (reg : Nat) (v : Word) (has : Bool) (win : Nat) : Option Fail :=
  if reg = 0 then none
  else if !has then some (0x602, v)
  else firstFault [if wbits v 20 44 ≠ 0 then some (0x701, v) else spFault s s.iss.seq (v + BitVec.ofNat 64 (win * 2 ^ 36)) 16,
    alignFault v 16]
/-- The windows that addresses of one side go through, with `winbase` and step as the issued instruction sees them (R267). -/
def sideWins (s : State) (vm : Bool) (l : List Word) (m : Assoc (Nat × Nat)) : Assoc (Nat × Nat) :=
  if vm then m
  else ((l.map spWin).eraseDups.filter (· ≠ 0)).foldl (fun m w =>
    aset m w (winReg s.cx s.iss.seq w, (seenCr s.cx (0x030 + w) s.iss.seq).toNat % 65536)) m
/-- The `winbase` of a copy's window, and the step it carries. -/
def Copy.win (x : Copy) (w : Nat) : Nat := ((alook x.wins w).getD (0, 0)).1
def Copy.step (x : Copy) (w : Nat) : Nat := ((alook x.wins w).getD (0, 0)).2
/-- The tile and the byte of its scratchpad that a scratchpad address of a copy reaches. -/
def tileByte (s : State) (x : Copy) (v : Word) : Nat × Nat :=
  if spWin v = 0 then (tileOf s.cur, s.cx.spadBase + spOff v)
  else (tileOf (winPlace (x.win (spWin v))), 65536 * bits (x.win (spWin v)) 16 4 + spOff v)
/-- Two ranges meet. -/
def meet (a n b m : Nat) : Bool := 0 < n && 0 < m && a < b + m && b < a + n
/-- The rows of the strided side of a `CPYL`. -/
def stridedRows (l : Layout) (a stride : Word) : List Word :=
  (List.range (2 ^ l.rb)).map fun r => a + BitVec.ofNat 64 r * stride
/-- The module a `CPYN` writes to (Table 8.8), as a place's bits, and its class. -/
def netPlace (aux : Word) : Nat := (wbits aux 0 6 * 16 + wbits aux 6 4) * 2 ^ 22
def netClass (aux : Word) : Nat := wbits aux 10 1
/-- The ranges of a copy's source and of its destination, from its start. -/
def Copy.sides (x : Copy) : List (Word × Nat) × List (Word × Nat) :=
  let back := BitVec.ofNat 64 x.moved
  match x.kind, layoutOf x.layout with
  | 2, some l =>
    let rows := (stridedRows l (if x.store then x.dst else x.src) x.aux).map fun v => (v, l.unit * 2 ^ l.cb)
    let tile := [((BitVec.ofNat 64 l.base : Word), l.bytes)]
    if x.store then (tile, rows) else (rows, tile)
  | _, _ => ([(x.src - back, x.moved + x.rest)], [(x.dst - back, x.moved + x.rest)])
/-- A range of the source and one of the destination share bytes: in one scratchpad, reached alike; or elsewhere, where those
bytes are left undefined (R136, R266). -/
def shares (s : State) (x : Copy) (a b : Word × Nat) : Bool × Bool :=
  if x.srcVm && x.dstVm then (false, (x.kind ≠ 3 || moduleOf (netPlace x.aux) = moduleOf s.cur) && meet (va57 a.1.toNat) a.2 (va57 b.1.toNat) b.2)
  else if x.srcVm || x.dstVm then (false, false)
  else
    let (t1, o1) := tileByte s x a.1
    let (t2, o2) := tileByte s x b.1
    let both := t1 = t2 && meet o1 a.2 o2 b.2
    let mixed := (spWin a.1 = 0) != (spWin b.1 = 0)
    (both && !mixed, both && mixed)
/-- A copy with what its overlaps ask of it: the whole source read first, or undefined bytes. -/
def Copy.overlapped (s : State) (x : Copy) : Copy :=
  let (a, b) := x.sides
  { x with ahead := a.any fun u => b.any fun v => (shares s x u v).1, loose := a.any fun u => b.any fun v => (shares s x u v).2 }
/-- A copy takes a slot, or waits for one; its claim of a ring slot is made, or waits for room (R266, R269). One of 0 bytes is
performed at once. -/
def takeSlot (ring : Word) (reg : Nat) (x : Copy) (s : State) : Res :=
  match freeKey s.cx.copies 16 with
  | none => wait s
  | some k =>
    if reg = 0 then
      if x.rest = 0 then doneCC .x x.cc s
      else done .x { s with cx := { s.cx with copies := aset s.cx.copies k { x with seq := s.iss.seq } } }
    else
      let h := spOff ring
      consuming [(h, 12)] (fun s =>
        let n := spad4 s.cx h
        if n ≤ ringClaims s.cx h then wait s
        else
          let claim := spad4 s.cx (h + 4)
          let o := slotAt h n claim
          let c := spadWrite (writeSlot s.cx o claim 0 (if x.rest = 0 then 1 else 0)) (h + 4) (leBytes 4 (claim + 1))
          if x.rest = 0 then doneCC .x x.cc { s with cx := c }
          else done .x { s with cx := { c with
            copies := aset c.copies k { x with seq := s.iss.seq, ring := some o, claim := claim } } }) s
/-- The signal of a performed copy: its ring slot, then its counter (R266). -/
def signal (x : Copy) (c : Ctx) : Ctx :=
  (match x.ring with
    | some o => writeSlot c o x.claim (x.moved - x.refused) 1
    | none => c).ccComplete x.cc .x x.seq
/-- The shared end of a copy's issue: ring checks, and the slot. -/
def startCopy (x : Copy) (ext : CopyExt) (faults : List (Option Fail)) (s : State) : Res :=
  let ring := copyOperand s 4 ext.ring
  checked .x (firstFault (faults ++ [if ext.ring = 0 then none else ringFault s ring])) (takeSlot ring ext.ring x) s
/-- The barrier of a copy. -/
def barrierOf (s : State) (ext : CopyExt) : Option Nat := if ext.bb = 0 then none else some (spOff (copyOperand s 5 ext.bb))

/-- `CPY` (R264, R265). -/
def execCpy (dstVm srcVm : Bool) (a b : Nat) (ext : CopyExt) (s : State) : Res :=
  let dst := copyOperand s 0 a
  let src := copyOperand s 1 b
  let len := copyOperand s 2 ext.len
  let n := len.toNat
  let x : Copy := { kind := 1, src := src, dst := dst, rest := n, cc := ext.cc, bb := barrierOf s ext, srcVm := srcVm,
                    dstVm := dstVm, wins := sideWins s srcVm [src] (sideWins s dstVm [dst] []) }
  startCopy (x.overlapped s) ext
    [lenFault len, barFault s ext.bb (copyOperand s 5 ext.bb) (!dstVm) (spWin dst), sideFault s srcVm false src n,
      sideFault s dstVm true dst n] s
/-- `CPYL` in either direction (R264, R265). -/
def copyLayout (store vm : Bool) (a : Nat) (ext : CopyExt) (s : State) : Res :=
  let side := copyOperand s 0 a
  let stride := copyOperand s 2 ext.len
  let aux := copyOperand s 3 ext.aux
  match layoutOf aux.toNat with
  | none => trap .x 0x204 aux s
  | some l =>
    if l.tr && l.blk then trap .x 0x204 aux s
    else
      let tile : Word := BitVec.ofNat 64 l.base
      let row := l.unit * 2 ^ l.cb
      let rows := stridedRows l side stride
      let x : Copy := { kind := 2, src := if store then tile else side, dst := if store then side else tile, rest := l.bytes,
                        layout := aux.toNat, cc := ext.cc, bb := barrierOf s ext, srcVm := !store && vm,
                        dstVm := store && vm, store := store, aux := stride,
                        wins := sideWins s vm rows (sideWins s false [tile] []) }
      startCopy (x.overlapped s) ext
        ([barFault s ext.bb (copyOperand s 5 ext.bb) (!(store && vm)) (spWin (if store then side else tile)),
            sideFault s false (!store) tile l.bytes] ++ rows.map fun v => sideFault s vm store v row) s
/-- `CPYL.ld` (R265). -/
def execCpylLd (vm : Bool) (a : Nat) (ext : CopyExt) (s : State) : Res := copyLayout false vm a ext s
/-- `CPYL.st` (R265). -/
def execCpylSt (vm : Bool) (a : Nat) (ext : CopyExt) (s : State) : Res := copyLayout true vm a ext s
/-- `CPYN` (R264, R265). -/
def execCpyn (srcVm : Bool) (a b : Nat) (ext : CopyExt) (s : State) : Res :=
  let dst := copyOperand s 0 a
  let src := copyOperand s 1 b
  let len := copyOperand s 2 ext.len
  let n := len.toNat
  let x : Copy := { kind := 3, src := src, dst := dst, rest := n, cc := ext.cc, srcVm := srcVm, dstVm := true,
                    wins := sideWins s srcVm [src] [], aux := copyOperand s 3 ext.aux }
  startCopy (x.overlapped s) ext [lenFault len, if ext.bb ≠ 0 then some (0x602, copyOperand s 5 ext.bb) else none,
    sideFault s srcVm false src n, virtFault dst n] s

/-! ### CPYR (R265) -/

/-- The legend id and the first row of a row selector (Table 8.8). -/
def selLegend (v : Word) : Nat := wbits v 0 16
def selRow (v : Word) : Nat := wbits v 16 32
/-- The first row, from row `r` on, that lies outside a legend's bounds. -/
def rowsFault (l : Legend) (n : Nat) : Nat → Nat → Option Fail
  | 0, _ => none
  | left + 1, r =>
    match if n = 0 then none else boundsFault l (BitVec.ofInt 64 (toSigned 57 (l.rowVa r))) n with
    | some f => some f
    | none => rowsFault l n left (r + 1)
/-- A layout word that does not fit a legend's current setting or the rows (code 0x603). -/
def layoutUnfit (x : Setting) (l : Layout) (ext0 rows : Nat) : Bool :=
  match x with
  | .plain t => l.blk || l.unit ≠ plainBytes t || 2 ^ l.rb < rows || 2 ^ l.cb < ext0
  | .block f n =>
    !l.blk || l.unit ≠ blockBytes f n || 2 ^ l.rb < rows
      || (if l.tr then 2 ^ l.rb < n || 2 ^ l.cb < ext0 else 2 ^ l.cb < ceilDiv ext0 n)
/-- Bytes of the destination tile: of a transposed block tile, 2^cb stored rows of 2^rb / n blocks. -/
def destBytes (x : Setting) (l : Layout) : Nat :=
  match x with
  | .block f n => if l.tr then blockBytes f n * 2 ^ l.cb * (2 ^ l.rb / n) else l.bytes
  | _ => l.bytes
/-- A `CPYR` with its legend: bounds, extents, layout and destination. -/
def issueRows (inPlace : Bool) (a b : Nat) (ext : CopyExt) (snap : List Byte) (s : State) : Res :=
  let leg := legendOf snap
  let sel := copyOperand s 1 b
  let rows := copyOperand s 2 ext.len
  let aux := copyOperand s 3 ext.aux
  let dst := copyOperand s 0 a
  match settingOf leg.cur with
  | none => wait s
  | some set =>
    let n := set.rowBytes leg.ext0
    let packed := ext.aux = 0
    let lay := layoutOf aux.toNat
    let bytes := match lay with
      | some l => if packed then n * rows.toNat else destBytes set l
      | none => n * rows.toNat
    let start : Word := match lay with
      | some l => if packed then dst else BitVec.ofNat 64 l.base
      | none => dst
    let past := leg.rows < selRow sel + rows.toNat
    let unfit := match lay with
      | some l => !packed && !inPlace && layoutUnfit set l leg.ext0 rows.toNat
      | none => false
    let large := match lay with
      | some l => 2 ^ 20 < l.bytes && 2 ^ 20 < destBytes set l
      | none => true
    let x : Copy := { kind := 4, src := sel, dst := start, rest := rows.toNat, layout := if packed then 0 else aux.toNat,
                      cc := ext.cc, bb := barrierOf s ext, packed := packed && !inPlace, inPlace := inPlace, snap := some snap }
    startCopy x ext
      [if !packed && !inPlace && large then some (0x204, aux) else none,
        if inPlace && ext.bb ≠ 0 then some (0x602, copyOperand s 5 ext.bb) else none,
        if inPlace && ext.ring ≠ 0 then some (0x602, copyOperand s 4 ext.ring) else none,
        if past || unfit || wbits sel 48 16 ≠ 0 then some (0x603, sel) else none,
        if rows.toNat = 0 || inPlace then none else spFault0 s s.iss.seq 0x701 start bytes,
        if past then none else rowsFault leg n rows.toNat (selRow sel),
        if inPlace then none else barFault s ext.bb (copyOperand s 5 ext.bb) true 0] s
/-- `CPYR` in either form (R265). -/
def copyRows (inPlace : Bool) (a b : Nat) (ext : CopyExt) (s : State) : Res :=
  if !governed s.cx then trapN .x 0x70D 0 s
  else
    match readLegend s s.cur .x (selLegend (copyOperand s 1 b)) with
    | .error f => badTouch .x 4 [] f s
    | .ok (snap, s1) => issueRows inPlace a b ext snap s1
/-- `CPYR` (R265). -/
def execCpyr (a b : Nat) (ext : CopyExt) (s : State) : Res := copyRows false a b ext s
/-- `CPYR.ip` (R265). -/
def execCpyrIp (b : Nat) (ext : CopyExt) (s : State) : Res := copyRows true 0 b ext s

/-! ### Granules -/

/-- Single bytes at addresses as runs. -/
def runs : List Word → List (Word × Nat)
  | [] => []
  | v :: r =>
    match runs r with
    | (w, n) :: rest => if w = v + 1 then (v, n + 1) :: rest else (v, 1) :: (w, n) :: rest
    | [] => [(v, 1)]
/-- The next granule of a copy: its destination, its bytes and where they come from. -/
structure Granule where
  dst : Word
  n : Nat
  src : List (Word × Nat)
  deriving DecidableEq, Repr
/-- The address on the tile's side of position `p` of a `CPYL`'s strided order. -/
def tileAddr (l : Layout) (p : Nat) : Word :=
  let row := l.unit * 2 ^ l.cb
  BitVec.ofNat 64 (l.base + l.unitAt (p / row) (p % row / l.unit) + p % l.unit)
/-- Bytes from position `p` of a `CPYL`'s strided order that lie together in the tile, `lim` at most. -/
def tileRun (l : Layout) (p lim : Nat) : Nat :=
  ((List.range lim).takeWhile fun j => tileAddr l (p + j) = tileAddr l p + BitVec.ofNat 64 j).length
/-- The address on the strided side of position `p` of a `CPYL`. -/
def stridedAddr (l : Layout) (side stride : Word) (p : Nat) : Word :=
  let row := l.unit * 2 ^ l.cb
  side + BitVec.ofNat 64 (p / row) * stride + BitVec.ofNat 64 (p % row)
/-- The granule a copy has come to: aligned at the destination, head and tail exact (R266). -/
def nextGranule (x : Copy) : Granule :=
  match x.kind, layoutOf x.layout with
  | 2, some l =>
    let row := l.unit * 2 ^ l.cb
    if x.store then
      let d := stridedAddr l x.dst x.aux x.moved
      let n := min (row - x.moved % row) (64 - d.toNat % 64)
      ⟨d, n, runs ((List.range n).map fun j => tileAddr l (x.moved + j))⟩
    else
      let d := tileAddr l x.moved
      let n := tileRun l x.moved (min (row - x.moved % row) (64 - d.toNat % 64))
      ⟨d, n, [(stridedAddr l x.src x.aux x.moved, n)]⟩
  | _, _ =>
    let n := min x.rest (64 - x.dst.toNat % 64)
    ⟨x.dst, n, [(x.src, n)]⟩
/-- The copy after a granule of `n` bytes. -/
def advance (x : Copy) (n : Nat) : Copy :=
  let y := { x with rest := x.rest - n, moved := x.moved + n }
  if x.kind = 2 then y else { y with src := x.src + BitVec.ofNat 64 n, dst := x.dst + BitVec.ofNat 64 n }
/-- A copy as it stands `k` granules further on. -/
def copyAt (x : Copy) : Nat → Copy
  | 0 => x
  | k + 1 => copyAt (advance x (nextGranule x).n) k
/-- Granules written beyond those that follow each other from the start join them as the gaps close. -/
def collapse (x : Copy) : Nat → Copy
  | 0 => x
  | fuel + 1 =>
    if x.rest ≠ 0 && x.done.contains x.moved then
      collapse { advance x (nextGranule x).n with done := x.done.erase x.moved } fuel
    else x
/-- The granule at an offset of a copy is written. -/
def noteGranule (x : Copy) (off : Nat) : Copy :=
  collapse { x with done := off :: x.done, data := adel x.data off } (x.done.length + 1)
/-- A copy kept in its slot. -/
def keepCopy (k : Nat) (x : Copy) (s : State) : State := { s with cx := { s.cx with copies := aset s.cx.copies k x } }
/-- Every source run of a copy, from its start, that is not yet moved. -/
def sourceRuns (x : Copy) : Nat → List (Word × Nat)
  | 0 => []
  | fuel + 1 => if x.rest = 0 then [] else
    let g := nextGranule x
    g.src ++ sourceRuns (advance x g.n) fuel
/-- A request for the source of a granule at an offset from a peer scratchpad (R267). -/
def askWindow (k : Nat) (x : Copy) (off : Nat) (g : Granule) (s : State) : State :=
  let v := (g.src.headD (0, 0)).1
  let w := spWin v
  let wb := x.win w
  let local' := !x.dstVm && spWin g.dst = 0
  let tag : ReadTag := { copy := k, off := off, seq := x.seq, win := w, cls := bits wb 62 1, step := x.step w, src := spOff v
                         dst := if local' then s.cx.spadBase + spOff g.dst else 0
                         bb := if local' then x.bb.map (s.cx.spadBase + ·) else none }
  let ps := g.src.map fun v => (65536 * bits wb 16 4 + spOff v.1, v.2)
  keepCopy k { x with reading := off :: x.reading } (sendPacket s (myPacket s (winPlace wb) 2 (.readReq ps tag)))
/-- The granules not yet written whose source goes through a window all have their bytes. -/
def allRead (x : Copy) : Nat → Copy → Bool
  | 0, _ => true
  | fuel + 1, y =>
    if y.rest = 0 then true
    else
      let g := nextGranule y
      (x.done.contains y.moved || (alook x.data y.moved).isSome || spWin (g.src.headD (0, 0)).1 = 0)
        && allRead x fuel (advance y g.n)
/-- The bytes of the granule `g` at an offset of a copy: from what was read ahead, from device memory, from the allotment, or
asked for through a window; then `f` of them. -/
def withSource (k : Nat) (x : Copy) (off : Nat) (g : Granule) (f : List Byte → State → Res) (s : State) : Res :=
  let remote := !x.srcVm && spWin (g.src.headD (0, 0)).1 ≠ 0
  if x.srcVm then
    match virtRead s .x (g.src.flatMap fun v => pieces v.1.toNat v.2) with
    | .ok b s1 => f b s1
    | r => badRead .x r s
  else if remote then
    match alook x.data off with
    | some b => if x.ahead && !allRead x (x.rest + 1) x then wait s else f b s
    | none => if x.reading.contains off then wait s else .next (askWindow k x off g s)
  else if x.ahead then
    match x.whole with
    | some b => if allRead x (x.rest + 1) x then f (slice b off g.n) s else wait s
    | none =>
      let all := sourceRuns x (x.rest + 1)
      consuming (all.map fun v => (spOff v.1, v.2))
        (fun s => .next (keepCopy k { x with whole := some (List.replicate x.moved 0 ++ all.flatMap fun v => spadRead s.cx (spOff v.1) v.2) } s)) s
  else consuming (g.src.map fun v => (spOff v.1, v.2)) (fun s => f (g.src.flatMap fun v => spadRead s.cx (spOff v.1) v.2) s) s
/-- A destination byte lies where the source overlaps it with undefined bytes: those are free (R266). -/
def loosen (s : State) (x : Copy) (g : Granule) (b : List Byte) : List Byte × State :=
  if !x.loose then (b, s)
  else
    let inSrc : Nat → Bool := fun j => x.sides.1.any fun u => (shares s x u (g.dst + BitVec.ofNat 64 j, 1)).2
    (b.zipIdx.map fun (v, j) => if inSrc j then BitVec.ofNat 8 (Config.freeWord (s.free + j)).toNat else v,
      { s with free := s.free + b.length })
/-- Rows of a `CPYL.st` overlap where they are written: a higher row waits for what a lower one has sent (R265). -/
def rowsOverlap (x : Copy) : Bool :=
  x.store && x.sides.2.any fun u => x.sides.2.any fun v => u.1 ≠ v.1 && meet (spOff u.1) u.2 (spOff v.1) v.2
/-- A granule's bytes reach their destination: device memory, the allotment with its barrier, a window, or the network. -/
def putGranule (k : Nat) (x : Copy) (off : Nat) (g : Granule) (b0 : List Byte) (s0 : State) : Res :=
  let (b, s) := loosen s0 x g b0
  let y := noteGranule x off
  if x.kind = 3 then
    .next (keepCopy k { y with unacked := y.unacked + 1 }
      (sendPacket s (myPacket s (netPlace x.aux) (netClass x.aux) (.netWrite g.dst.toNat b k x.seq))))
  else if x.dstVm then
    match translateRange s s.cur .x true (pieces g.dst.toNat g.n) with
    | .error (va, f) => badXlat .x va 2 f s
    | .ok (keys, s1) =>
      if keys.any fun v => !windowReady s1 v.1 v.2 true then .next (keys.foldl (fun s v => windowRecall s v.1 v.2 true) s1)
      else .next (keepCopy k y (pokePieces s1 s.cx.tenant keys b))
  else if spWin g.dst = 0 then
    let c := spadWrite s.cx (spOff g.dst) b
    .next (keepCopy k y { s with cx := match x.bb with
      | some o => barrierAdd c o g.n
      | none => c })
  else
    let w := spWin g.dst
    let wb := x.win w
    if winAllow s.cx x.seq w = 0 || !mayDepart s.cx x.seq w 1 || (x.unacked ≠ 0 && rowsOverlap x) then wait s0
    else
      let cells := b.zipIdx.map fun (v, j) => (65536 * bits wb 16 4 + spOff g.dst + j, v)
      let bb := x.bb.map fun o => 65536 * bits wb 16 4 + o
      let s1 := { s with cx := setWinOut s.cx w (winOut s.cx w + 1) }
      .next (keepCopy k { y with unacked := y.unacked + 1 }
        (sendPacket s1 (myPacket s1 (winPlace wb) (bits wb 62 1) (.posted w (x.step w) cells 1 (some k) bb x.seq))))

/-! ### Rows of CPYR -/

/-- The statistics of the elements that bringing a unit to the current edition quantises (R165). -/
def unitStat (s : State) (snap : List Byte) (va : Nat) : ElemStat :=
  let l := legendOf snap
  let uva := va57 va / l.unit * l.unit
  match translate s s.cur .x uva false false, settingOf l.prev, settingOf l.cur with
  | .ok ukey s1, some old, some new =>
    if (strayTag s1 l ukey).isSome || (l.sheets ukey).all fun k => sheetTag s1 k = l.edition % 256 then {}
    else (l.rowsIn uva l.unit).foldl (fun a r =>
      match old.decodeRow l.ext0 (peek s1 (ukey + (r - uva)) (old.rowBytes l.ext0)) with
      | some v => a.add (rowStat new v (new.encodeRow v).elems)
      | none => a) {}
  | _, _, _ => {}
/-- The units of a row brought to the current edition one by one, with the statistics of what is quantised. -/
def touchRow (s : State) (snap : List Byte) (id : Nat) : List Nat → ElemStat → Except TouchErr (State × ElemStat)
  | [], a => .ok (s, a)
  | va :: r, a =>
    let x := unitStat s snap va
    match touchUnit s s.cur .x snap id va with
    | .ok s1 => touchRow s1 snap id r (a.add x)
    | .error f => .error f
/-- A statistics addition of a copy on its way. A legend of a reserved role, 6 or 7, has its additions where the entry's address
formula leads (DESIGN CHOICE, log 19). -/
def addStat (s : State) (x : Copy) (snap : List Byte) (a : ElemStat) : State :=
  if a.elements = 0 then s
  else
    let l := legendOf snap
    let y : StatAdd := { statOf' l.layer l.role a with tenant := s.cx.tenant, eng := .x, seq := x.seq }
    { s with cx := { s.cx with statq := s.cx.statq ++ [y] } }
where
  statOf' (layer role : Nat) (x : ElemStat) : StatAdd :=
    { tenant := 0, layer := layer, role := role, eng := .x, lost := x.lost, kept := x.kept, elements := x.elements,
      sat := x.sat, under := x.under }
/-- Bytes written to window 0 at an offset, counted at the copy's barrier. -/
def landRow (x : Copy) (o : Nat) (b : List Byte) (c : Ctx) : Ctx :=
  let c1 := spadWrite c o b
  match x.bb with
  | some k => barrierAdd c1 k b.length
  | none => c1
/-- A row in its current setting written to window 0: packed, or unit by unit into the tile. -/
def writeRow (x : Copy) (set : Setting) (b : List Byte) (c : Ctx) : Ctx :=
  match x.packed, layoutOf x.layout with
  | false, some l =>
    let row := x.moved / max 1 b.length
    let _ := set
    (chunks l.unit b).zipIdx.foldl (fun c (u, k) => landRow x (spOff (x.dst) + l.unitAt row k) u c) c
  | _, _ => landRow x (spOff x.dst + x.moved) b c
/-- The stored rows of a transposed tile of blocks: each formed anew along the rows of the tensor. -/
def transposed (f : EFmt) (n : Nat) (l : Layout) (cols : Nat) (rows : List (List FVal)) : List (Nat × List Byte) × ElemStat :=
  let per := 2 ^ l.rb / n
  (List.range cols).foldl (fun (out, st) c =>
    let v := rows.map fun r => r.getD c (.fin false 0 0)
    (chunks n v).zipIdx.foldl (fun (out, st) (w, k) =>
      let q := quantiseBlock f n .rn (fun _ => 0) w
      let idx := if l.contour then contourIndex c k l.cb (Nat.log2 per) else c * per + k
      (out ++ [(blockBytes f n * idx, q.bytes)], ElemStat.add st (blockStat w q.elems))) (out, st)) ([], {})
/-- One row of a `CPYR` that is not transposed in blocks: touched, read, written. -/
def moveRow (k : Nat) (x : Copy) (snap : List Byte) (set : Setting) (s : State) : Res :=
  let l := legendOf snap
  let va := l.rowVa (selRow x.src)
  let n := set.rowBytes l.ext0
  match touchRow s snap (selLegend x.src) (l.unitsOf va n) {} with
  | .error f => badTouch .x 4 snap f s
  | .ok (s1, st) =>
    match if x.inPlace || n = 0 then .ok [] s1 else virtRead s1 .x (pieces va n) with
    | .ok b s2 =>
      let s3 := addStat s2 x snap st
      let y := { x with rest := x.rest - 1, moved := x.moved + n, src := wput x.src 16 32 (selRow x.src + 1) }
      .next (keepCopy k y { s3 with cx := if x.inPlace then s3.cx else writeRow x set b s3.cx })
    | r => badRead .x r s
/-- The rows of a `CPYR` read whole: touched, read and decoded. -/
def readRows (x : Copy) (snap : List Byte) (set : Setting) (st : ElemStat) :
    Nat → Nat → State → Except Res (List (List FVal) × ElemStat × State)
  | 0, _, s => .ok ([], st, s)
  | left + 1, r, s =>
    let l := legendOf snap
    let n := set.rowBytes l.ext0
    match touchRow s snap (selLegend x.src) (l.unitsOf (l.rowVa r) n) st with
    | .error f => .error (badTouch .x 4 snap f s)
    | .ok (s1, st1) =>
      match virtRead s1 .x (pieces (l.rowVa r) n) with
      | .ok b s2 =>
        match set.decodeRow l.ext0 b with
        | none =>
          let o := badBlock set l.ext0 b
          .error (badTouch .x 4 snap (.header (l.rowVa r + o) (fieldAt b o 2) (l.edition % 256)) s2)
        | some v =>
          match readRows x snap set st1 left (r + 1) s2 with
          | .ok (vs, a, s3) => .ok (v :: vs, a, s3)
          | .error e => .error e
      | e => .error (badRead .x e s1)
/-- A `CPYR` of blocks under transposition: all rows are read, and every stored row is formed by `quantise_block`. -/
def moveTransposed (k : Nat) (x : Copy) (snap : List Byte) (set : Setting) (f : EFmt) (n : Nat) (l : Layout) (s : State) :
    Res :=
  let leg := legendOf snap
  match readRows x snap set {} x.rest (selRow x.src) s with
  | .error r => r
  | .ok (rows, st, s1) =>
    let (out, st1) := transposed f n l leg.ext0 rows
    let c := out.foldl (fun c (o, b) => landRow x (spOff x.dst + o) b c) s1.cx
    let y := { x with rest := 0, moved := (out.map fun v => v.2.length).sum, src := wput x.src 16 32 (selRow x.src + x.rest) }
    .next (keepCopy k y (addStat { s1 with cx := c } x snap (st.add st1)))
/-- The next step of a `CPYR`. -/
def moveRows (k : Nat) (x : Copy) (s : State) : Res :=
  let snap := x.snap.getD []
  match settingOf (legendOf snap).cur with
  | none => wait s
  | some set =>
    match set, layoutOf x.layout with
    | .block f n, some l => if l.tr && !x.packed && !x.inPlace then moveTransposed k x snap set f n l s else moveRow k x snap set s
    | _, _ => moveRow k x snap set s

/-! ### Events -/

/-- Bytes of a logical row of a `CPYL`. -/
def copyRowBytes (x : Copy) : Nat :=
  match layoutOf x.layout with
  | some l => l.unit * 2 ^ l.cb
  | none => 1
/-- A copy that is to stop goes on: data that has arrived is written, gaps before it close, a copy that reads its whole source
first ends, and a `CPYL` ends its row (R429). -/
def mustGo (x : Copy) : Bool :=
  x.data ≠ [] || x.done ≠ [] || (x.whole.isSome && x.rest ≠ 0) || (x.kind = 2 && x.moved % copyRowBytes x ≠ 0)
/-- A granule of a copy may move next: where a stop is due, one whose data has come, or the first. -/
def mayMove (c : Ctx) (x : Copy) (off : Nat) : Bool :=
  !x.done.contains off && (match c.due with
    | none | some (.debug _) => true
    | _ => off = x.moved || (alook x.data off).isSome || x.ahead)
/-- A copy of the context moves: the tile runs, and no save, stop or page fault holds it; a debug stop lets copies run on
(R45, R273, R361, R411). -/
def copiesRun (s : State) (x : Copy) : Bool :=
  tileRuns s && s.cx.phase ≠ .empty && s.cx.faultFree
    && (match s.cx.due with
      | none => true
      | some (.debug _) => true
      | _ => mustGo x)
/-- Every copy has stopped (R45, step 4; R429). -/
def copiesStill (c : Ctx) : Bool :=
  c.copies.all fun e => e.2.unacked = 0 && e.2.reading = [] && (!mustGo e.2 || !c.faultFree)
/-- `COPY_GRANULE_WRITE` (R136, R266): a granule of the copy in the named slot moves, `unit` granules beyond the first that is
not yet written; rows that overlap are written in their order. -/
def execCopyGranuleWrite (s : State) : Res :=
  match alook s.cx.copies s.inp.sel with
  | none => wait s
  | some x =>
    if x.rest = 0 || !copiesRun s x then wait s
    else
      let s1 := { s with iss := { seq := x.seq } }
      if x.kind = 4 then moveRows s.inp.sel x s1
      else
        let y := copyAt x s.inp.unit
        if y.rest = 0 || !mayMove s.cx x y.moved || (s.inp.unit ≠ 0 && rowsOverlap x) then wait s
        else
          let g := nextGranule y
          withSource s.inp.sel x y.moved g (putGranule s.inp.sel x y.moved g) s1
/-- `COPY_PERFORM` (R266): every byte has been written and acknowledged; the ring slot is written, then the counter
falls, once. -/
def execCopyPerform (s : State) : Res :=
  match alook s.cx.copies s.inp.sel with
  | none => wait s
  | some x =>
    if tileRuns s && x.rest = 0 && x.unacked = 0 && x.reading = [] && (s.cx.statq.all fun y => y.eng ≠ .x || y.seq ≠ x.seq) then
      let c := { s.cx with copies := adel s.cx.copies s.inp.sel }
      .next { s with cx := signal x c }
    else wait s

end Sys2Proof.Machine
end

