-- ==== Sys2Proof/Machine/Async.lean ====
section
/-! DEFINITION. The other instructions of X: prefetch and flush, messages, rings, byte barriers, translation control and
quiesce (08, R269 to R272, R275; 04, R145; 03, R114 to R117). -/
namespace Sys2Proof.Machine

/-! ### Ranges of virtual addresses -/

/-- The pieces of a range of virtual addresses, none crossing a 64 KiB page. -/
def pagesOf (va n : Nat) : List (Nat × Nat) :=
  if n = 0 then [] else
    (List.range ((va + n - 1) / 65536 - va / 65536 + 1)).map fun k =>
      let lo := max va ((va / 65536 + k) * 65536)
      let hi := min (va + n) ((va / 65536 + k + 1) * 65536)
      (lo, hi - lo)

/-- `PREF` (R272): the lines of each page that translates are brought into their home slices; a failed walk and a
locked miss are dropped. -/
def prefPages : List (Nat × Nat) → State → State
  | [], s => s
  | (va, n) :: r, s =>
    match translate s s.cur .x va false false with
    | .ok key s1 => prefPages r (touch s1 s.cx.tenant key n)
    | _ => prefPages r s
/-- `PREF` (R272): performed at issue. -/
def execPref (a b : Nat) (s : State) : Res :=
  let va := operand s 0 a
  let n := (operand s 1 b).toNat
  checked .x (virtFault va n) (fun s => done .x (prefPages (pagesOf va.toNat n) s)) s

/-- `FLUSHH` (R145, R272): its range is translated at issue; the lines are written back when it is performed. -/
def execFlushh (a b : Nat) (cc : Option Nat) (s : State) : Res :=
  let va := operand s 0 a
  let n := (operand s 1 b).toNat
  checked .x (virtFault va n) (fun s =>
    match translateRange s s.cur .x false (pagesOf va.toNat n) with
    | .error (v, x) => badXlat .x v 1 x s
    | .ok (keys, s1) =>
      done .x { s1 with cx := { s1.cx with xops := s1.cx.xops ++ [.flushh keys cc s.iss.seq] } }) s
/-- The dirty lines of physical ranges are written back and stay valid; one that holds an uncorrected error stays held
(R145, R409). -/
def flushKeys (l : List (Nat × Nat)) (s : State) : State :=
  (l.flatMap fun x => linesOf x.1 x.2).foldl (fun s k => if eccL2 s k = 2 then s else writeBack s k true) s

/-! ### Messages -/

/-- `SEND` (R271): the payload is read, and the packet leaves the tile. C stores performed before it are made visible to the
handler's loads on any tile (R142). -/
def execSend (a b t h : Nat) (urgent : Bool) (cc : Option Nat) (s : State) : Res :=
  let at' := operand s 0 a
  let n := operand s 1 b
  let target := operand s 2 t
  let line := operand s 3 h
  let faults : List (Option Fail) :=
    [if 256 < n.toNat then some (0x606, n) else none,
      if line.toNat % 32 ≠ 0 then some (0x606, line) else none,
      if s.z ≤ wbits target 26 6 then some (0x606, target) else none,
      spFault0 s s.iss.seq 0x701 at' n.toNat,
      if canonical line then none else some (0x703, line)]
  checked .x (firstFault faults) (consuming [(spOff at', n.toNat)] fun s =>
    let p := spadRead s.cx (spOff at') n.toNat
    let dst := wbits target 15 17 * 2 ^ 15
    doneCC .x cc (sendPacket (publish s) (myPacket s dst (if urgent then 3 else 2) (.send p line dst s.iss.seq)))) s

/-! ### Rings (R269) -/

/-- `RINGI`: the header and every slot written. -/
def execRingi (a b : Nat) (s : State) : Res :=
  let h := operand s 0 a
  let n := operand s 1 b
  checked .x (firstFault [if isPow2To4096 n.toNat then none else some (0x604, n),
      spFault0 s s.iss.seq 0x701 h (64 + 16 * n.toNat), alignFault h 64])
    (fun s => done .x { s with
      cx := spadWrite s.cx (spOff h) (leBytes 4 n.toNat ++ List.replicate (60 + 16 * n.toNat) 0) }) s
/-- The claims from release on, `count` of them, all hold status 1. -/
def ringComplete (c : Ctx) (h count : Nat) : Bool :=
  let n := spad4 c h
  (List.range count).all fun k => spad4 c (slotAt h n (spad4 c (h + 8) + k) + 8) = 1
/-- The slots of those claims, as ranges read. -/
def ringRanges (c : Ctx) (h count : Nat) : List (Nat × Nat) :=
  (h, 12) :: (List.range count).map fun k => (slotAt h (spad4 c h) (spad4 c (h + 8) + k), 16)
/-- `RINGW`: X waits until the slots are complete. -/
def execRingw (a count : Nat) (s : State) : Res :=
  let h := operand s 0 a
  checked .x (firstFault [ringFault s h,
      if ringClaims s.cx (spOff h) < count then some (0x605, BitVec.ofNat 64 count) else none])
    (fun s => consuming (ringRanges s.cx (spOff h) count)
      (fun s => if ringComplete s.cx (spOff h) count then done .x s else wait s) s) s
/-- `RINGR`: slots released. -/
def execRingr (a b : Nat) (s : State) : Res :=
  let h := operand s 0 a
  let n := operand s 1 b
  let o := spOff h
  checked .x (firstFault [ringFault s h,
      if ringClaims s.cx o < n.toNat then some (0x605, n)
      else if ringComplete s.cx o n.toNat then none else some (0x605, n)])
    (fun s => consuming (ringRanges s.cx o n.toNat)
      (fun s => done .x { s with cx := spadWrite s.cx (o + 8) (leBytes 4 (spad4 s.cx (o + 8) + n.toNat)) }) s) s

/-! ### Byte barriers (R270) -/

/-- The checks of a barrier in window 0. -/
def barrierFault (s : State) (v : Word) : Option Fail :=
  firstFault [spFault0 s s.iss.seq 0x701 v 16, alignFault v 16]
/-- `BBSET`: expected set, arrived cleared. -/
def execBbset (a b : Nat) (s : State) : Res :=
  let v := operand s 0 a
  checked .x (barrierFault s v)
    (fun s => done .x { s with cx := spadWrite s.cx (spOff v) (leBytes 8 (operand s 1 b).toNat ++ leBytes 8 0) }) s
/-- `BBWAIT`: X waits until arrived is at least expected. -/
def execBbwait (a : Nat) (s : State) : Res :=
  let v := operand s 0 a
  checked .x (barrierFault s v) (consuming [(spOff v, 16)] fun s =>
    if spad8 s.cx (spOff v) ≤ spad8 s.cx (spOff v + 8) then done .x s else wait s) s

/-! ### Translation control (R114 to R117, R272) -/

/-- A lock entry as `tlblk` holds it (Table 3.13). -/
def lockWord (t : Tlb) : Word := BitVec.ofNat 64 (2 ^ 63 + t.size * 2 ^ 61 + t.vbase)
/-- A page of a translation ends here. -/
def Tlb.limit (t : Tlb) : Nat := t.vbase + 2 ^ pageBits t.size
/-- A `TLBPRE` is issued and not performed: the lock state is not yet as its position in X order leaves it. -/
def lockPending (c : Ctx) : Bool := c.xops.any fun x =>
  match x with
  | .tlbpre .. => true
  | _ => false
/-- The pages of a range that no lock entry holds, in ascending order, by their walks: more than `room` of them is the
trap 0x607. `fuel` counts pages, held or not. -/
def lockPages (s : State) (base : Word) (limit room : Nat) : Nat → Nat → List Tlb → State → Except Res (List Tlb × State)
  | 0, _, l, t => .ok (l, t)
  | fuel + 1, va, l, t =>
    if limit ≤ va then .ok (l, t)
    else
      match s.cx.lockTr.find? fun x => x.2.covers va with
      | some x => lockPages s base limit room fuel (va / 2 ^ pageBits x.2.size * 2 ^ pageBits x.2.size + 2 ^ pageBits x.2.size) l t
      | none =>
        let (r, ks) := walk t (dieOf s.cur) s.cx.tenant va
        let t1 := ks.foldl (fun s k => touch s s.cx.tenant k 8) t
        if l.length = room then .error (trap .x 0x607 base s)
        else if ks.any fun k => eccLevel t1 k 8 = 2 then .error (.next (walkStop t1 va))
        else
          match r with
          | .fault cause level => .error (.next (pageFault t1 .x va cause 5 level))
          | .page x =>
            lockPages s base limit room fuel (va / 2 ^ pageBits x.size * 2 ^ pageBits x.size + 2 ^ pageBits x.size) (l ++ [x]) t1
/-- `TLBPRE` (R272): the pages are walked, and more of them than free entries trap; the entries are filled when it is
performed, by a walk of that time (R117). -/
def execTlbpre (a b : Nat) (cc : Option Nat) (s : State) : Res :=
  let va := operand s 0 a
  let n := (operand s 1 b).toNat
  if lockPending s.cx then wait s
  else
    checked .x (virtFault va n) (fun s =>
      match lockPages s va (va.toNat + n) (16 - s.cx.lockTr.length) 40 va.toNat [] s with
      | .error r => r
      | .ok (_, s1) =>
        let x : Entry := { s.cx.qX.headD { word := 0 } with seq := s.iss.seq, vals := s.iss.vals }
        done .x { s1 with cx := { s1.cx with xops := s1.cx.xops ++ [.tlbpre va.toNat n cc x] } }) s
/-- A page in the lowest free lock entry. -/
def lockPage (c : Ctx) (t : Tlb) : Ctx :=
  match freeKey c.lockTr 16 with
  | none => c
  | some k => { c.setCr (0x050 + k) (lockWord t) with lockTr := aset c.lockTr k t }
/-- The first address of a range that no lock entry holds. -/
def unlocked (c : Ctx) (limit : Nat) : Nat → Nat → Option Nat
  | 0, va => if limit ≤ va then none else some va
  | fuel + 1, va =>
    if limit ≤ va then none
    else
      match c.lockTr.find? fun x => x.2.covers va with
      | some x => unlocked c limit fuel (va / 2 ^ pageBits x.2.size * 2 ^ pageBits x.2.size + 2 ^ pageBits x.2.size)
      | none => some va
/-- `TLBLK` (R272): the bounds of the locked region. -/
def execTlblk (a b : Nat) (s : State) : Res :=
  let va := operand s 0 a
  let n := (operand s 1 b).toNat
  if lockPending s.cx then wait s
  else
    checked .x (firstFault [virtFault va n,
        (unlocked s.cx (va.toNat + n) 17 va.toNat).map fun v => (0x608, BitVec.ofNat 64 (v / 65536 * 65536))])
      (fun s => done .x { s with
        cx := (s.cx.setCr 0x048 (BitVec.ofNat 64 (va57 va.toNat))).setCr 0x049 (BitVec.ofNat 64 (va57 (va.toNat + n))) }) s
/-- Every lock entry invalid. -/
def clearLocks (c : Ctx) : Ctx :=
  { ((List.range 16).foldl (fun c k => c.setCr (0x050 + k) 0) ((c.setCr 0x048 0).setCr 0x049 0)) with lockTr := [] }
/-- `TLBUL` (R272). -/
def execTlbul (s : State) : Res := if lockPending s.cx then wait s else done .x { s with cx := clearLocks s.cx }
/-- `TLBINV` (R272): performed when every TLB of the scope has dropped the entries. -/
def execTlbinv (scope : Scope) (a b : Nat) (s : State) : Res :=
  let va := operand s 0 a
  let n := (operand s 1 b).toNat
  checked .x (virtFault va n) (fun s =>
    done .x { s with cx := { s.cx with xops := s.cx.xops ++ [.tlbinv scope va.toNat n s.iss.seq] } }) s
/-- Entries of a tenant that overlap a range are dropped. -/
def tlbDrop (tenant lo n : Nat) (l : List Tlb) : List Tlb :=
  l.filter fun t => !(t.tenant = tenant && meet t.vbase (2 ^ pageBits t.size) (va57 lo) n)
/-- The TLBs of the tiles of a predicate drop a tenant's entries that overlap a range. -/
def tlbDropOn (s : State) (on : Nat → Bool) (tenant lo n : Nat) : State :=
  { s with tiles := s.tiles.map fun e => if !on e.1 then e else
      (e.1, { e.2 with
        tlbC := tlbDrop tenant lo n e.2.tlbC, tlbL := tlbDrop tenant lo n e.2.tlbL, tlbS := tlbDrop tenant lo n e.2.tlbS,
        tlbM := tlbDrop tenant lo n e.2.tlbM, tlbX := tlbDrop tenant lo n e.2.tlbX }) }
/-- A tile lies in a scope around a tile. -/
def tileInScope (scope : Scope) (here t : Nat) : Bool :=
  match scope with
  | .c | .t => t = here
  | .k => t / 8 = here / 8
  | _ => t / 128 = here / 128
/-- `QSCE` (R272): X waits until its earlier operations are performed. -/
def execQsce (s : State) : Res := if s.cx.performedBefore .x s.iss.seq then done .x s else wait s

/-! ### The performed events -/

/-- The candidate operation of a kind, by the event's selector among those of the kind. -/
def pickOp (s : State) (p : XOp → Bool) : Option XOp := (s.cx.xops.filter p)[s.inp.sel]?
/-- An operation leaves the list of those issued and not performed. -/
def dropOp (c : Ctx) (x : XOp) : Ctx := { c with xops := c.xops.erase x }
/-- `FLUSHH_PERFORMED` (R145): the dirty lines are in memory; the counter falls. -/
def execFlushhPerformed (s : State) : Res :=
  match pickOp s (fun x => match x with
    | .flushh .. => true
    | _ => false) with
  | some (.flushh l cc seq) =>
    let s1 := flushKeys l s
    .next { s1 with cx := (dropOp s1.cx (.flushh l cc seq)).ccComplete cc .x seq }
  | _ => wait s
/-- `TLBPRE_PERFORMED` (R117, R272): the pages are walked again, so that no translation dropped meanwhile is used; the lock
entries hold them and the counter falls. A page fault is taken at the `TLBPRE`; where the pages have become too many, it
stands again in X's queue and traps. -/
def execTlbprePerformed (s : State) : Res :=
  match pickOp s (fun x => match x with
    | .tlbpre .. => true
    | _ => false) with
  | some (.tlbpre lo n cc x) =>
    if !tileRuns s || !s.cx.faultFree then wait s
    else
      let gone := dropOp s.cx (.tlbpre lo n cc x)
      let back : State := { s with cx := gone.setQueue .x (x :: gone.qX), iss := { seq := x.seq, lane := x.lane, vals := x.vals } }
      match lockPages back (BitVec.ofNat 64 lo) (lo + n) (16 - s.cx.lockTr.length) 40 lo [] s with
      | .error r => r
      | .ok (l, s1) => .next { s1 with cx := (l.foldl lockPage (dropOp s1.cx (.tlbpre lo n cc x))).ccComplete cc .x x.seq }
  | _ => wait s
/-- `TLBINV_PERFORMED` (R117): the tenant's entries that cover the range are gone from every TLB of the scope. -/
def execTlbinvPerformed (s : State) : Res :=
  match pickOp s (fun x => match x with
    | .tlbinv .. => true
    | _ => false) with
  | some (.tlbinv scope lo n seq) =>
    let s1 := tlbDropOn s (tileInScope scope (tileOf s.cur)) s.cx.tenant lo n
    .next { s1 with cx := dropOp s1.cx (.tlbinv scope lo n seq) }
  | _ => wait s

end Sys2Proof.Machine
end

