-- ==== Sys2Proof/Machine/Control.lean ====
section
/-! DEFINITION. Control transfer, the stack, markers, counters, time and the gear request of C (07, R217 to R224,
R229, R233 to R239, R242, R243). -/
namespace Sys2Proof.Machine

/-! ### Branches, calls and loops -/

/-- The issued line-ending instruction is performed and fetch goes on at `next` (R178). -/
def transfer (next : Word) (s : State) : Res :=
  done .c { s with cx := { s.cx with fetch := next, fetchHold := false } }
/-- The line after the issued one (R179). -/
def nextLine (s : State) : Word := s.iss.line + 32
/-- The target of a B-form transfer (R179). -/
def target (off : Int) (s : State) : Word := s.iss.line + immW (32 * off)
/-- A branch condition on a register value (Table 6.6). -/
def condHolds (c : Cond) (x : Word) : Bool :=
  match c with
  | .eqz => x = 0
  | .nez => x ≠ 0
  | .ltz => x.slt 0
  | .gez => !x.slt 0
  | .gtz => (0 : Word).slt x
  | .lez => !(0 : Word).slt x
/-- A saturating call depth (R363). -/
def deepen (by' : Int) (s : State) : State :=
  { s with cx := { s.cx with depth := clampI (-32768) 32767 (s.cx.depth + by') } }
/-- A register target whose low five bits are not zero traps when performed (R179, R218). -/
def aligned32 (x : Word) : Bool := x.toNat % 32 = 0

/-- `BC` (R217). -/
def execBc (cond : Cond) (a : Nat) (off : Int) (s : State) : Res :=
  transfer (if condHolds cond (s.cx.gr a) then target off s else nextLine s) s
/-- `JMP` (R217). -/
def execJmp (off : Int) (s : State) : Res := transfer (target off s) s
/-- `CALL` (R217). -/
def execCall (a : Nat) (off : Int) (s : State) : Res :=
  transfer (target off s) (deepen 1 { s with cx := s.cx.setG a (nextLine s) })
/-- `LOOP` (R217). -/
def execLoop (a : Nat) (off : Int) (s : State) : Res :=
  let n := s.cx.gr a - 1
  transfer (if n ≠ 0 then target off s else nextLine s) { s with cx := s.cx.setG a n }
/-- `JMPR` (R218). -/
def execJmpr (a : Nat) (s : State) : Res :=
  if aligned32 (s.cx.gr a) then transfer (s.cx.gr a) s else trap .c 0x101 (s.cx.gr a) s
/-- `CALLR` (R218): a misaligned target leaves the link unwritten. -/
def execCallr (d a : Nat) (s : State) : Res :=
  if aligned32 (s.cx.gr a) then
    transfer (s.cx.gr a) (deepen 1 { s with cx := s.cx.setG d (nextLine s) })
  else trap .c 0x101 (s.cx.gr a) s
/-- `RET` (R218). -/
def execRet (a : Nat) (s : State) : Res :=
  if aligned32 (s.cx.gr a) then transfer (s.cx.gr a) (deepen (-1) s) else trap .c 0x101 (s.cx.gr a) s
/-- `ERET` (R219, R380). Outside handler mode it is a jump to `epc` under `estat.inh`; in handler mode it returns
from the trap, and with `estat.inh` clear it is a nested fault. -/
def execEret (s : State) : Res :=
  let inh := bitOf (s.cx.cr 0x008).toNat 0
  let epc := s.cx.cr 0x007
  if !inh then trap .c 0x102 0 s
  else if !aligned32 epc then trap .c 0x101 epc s
  else if s.cx.handler then .next { s with cx := trapReturn s.cx }
  else transfer epc { s with cx := s.cx.setCr 0x008 (wput (s.cx.cr 0x008) 0 1 0) }
/-- `SYSC` (R220): a system-call trap with code n; `epc` is the line after. The entry performs it: where another cause is
entered first it stays unissued (R381). -/
def execSysc (n : Nat) (s : State) : Res :=
  let t : Trap := { cls := 2, code := 0x800 + n, eng := 1, lane := s.iss.lane, seq := s.iss.seq, epc := nextLine s, own := true }
  .next (takeTrap { s with cx := { s.cx with report := none, lineTrap := false } } t)

/-! ### The stack (R222 to R224) -/

def stkbase (c : Ctx) : Nat := (c.cr 0x002).toNat
def stklim (c : Ctx) : Nat := (c.cr 0x003).toNat
def stkptr (c : Ctx) : Nat := (c.cr 0x004).toNat
/-- Eight bytes of the stack. -/
def stackRead (c : Ctx) (o : Nat) : Word := BitVec.ofNat 64 (leNat (spadRead c o 8))
def stackWrite (c : Ctx) (o : Nat) (v : Word) : Ctx := spadWrite c o (leBytes 8 v.toNat)
def setStkptr (c : Ctx) (o : Nat) : Ctx := c.setCr 0x004 (BitVec.ofNat 64 o)
/-- One push. -/
def push (c : Ctx) (v : Word) : Ctx := stackWrite (setStkptr c (stkptr c - 8)) (stkptr c - 8) v
/-- `ENTER`: registers `g63` downwards, `n` of them, from index `k`. -/
def pushRegs (c : Ctx) (k : Nat) : Nat → Ctx
  | 0 => c
  | n + 1 => pushRegs (push c (c.gr (63 - k))) (k + 1) n
/-- `LEAVE`: the registers back, the last saved first. -/
def popRegs (c : Ctx) : Nat → Ctx
  | 0 => c
  | n + 1 => popRegs (setStkptr (c.setG (63 - n) (stackRead c (stkptr c))) (stkptr c + 8)) n

/-- `SPUSH` (R223). -/
def execSpush (a : Nat) (s : State) : Res :=
  if stkptr s.cx < stkbase s.cx + 8 then trapN .c 0x103 (stkptr s.cx) s
  else done .c { s with cx := push s.cx (s.cx.gr a) }
/-- `SPOP` (R223). -/
def execSpop (d : Nat) (s : State) : Res :=
  if stklim s.cx < stkptr s.cx + 8 then trapN .c 0x104 (stkptr s.cx) s
  else
    consuming [(stkptr s.cx, 8)] (fun s =>
      done .c { s with cx := (setStkptr s.cx (stkptr s.cx + 8)).setG d (stackRead s.cx (stkptr s.cx)) }) s
/-- `ENTER` (R224). -/
def execEnter (n : Nat) (s : State) : Res :=
  if stkptr s.cx < stkbase s.cx + 8 * n then trapN .c 0x103 (stkptr s.cx) s
  else done .c { s with cx := pushRegs s.cx 0 n }
/-- `LEAVE` (R224). -/
def execLeave (n : Nat) (s : State) : Res :=
  if stklim s.cx < stkptr s.cx + 8 * n then trapN .c 0x104 (stkptr s.cx) s
  else consuming [(stkptr s.cx, 8 * n)] (fun s => done .c { s with cx := popRegs s.cx n }) s

/-! ### Markers (R28, R29, R32, R233, R242) -/

/-- A marker of a C instruction at the tail of an engine's queue. -/
def putMarker (c : Ctx) (e : Engine) (i : Instr) (iss : Issue) : Ctx :=
  match words i false with
  | none => c
  | some w =>
    c.setQueue e (c.queue e ++
      [{ word := w.word, marker := true, seq := iss.seq, lane := iss.lane, line := iss.line, vals := iss.vals }])
/-- The layout of imm14 of a token instruction (R233). -/
def tokTval (e f : Engine) (ch : Nat) : Nat := tokImm e f ch
/-- `TOKP` (R233): distribution places its marker in the source engine's queue. -/
def execTokp (e f : Engine) (ch : Nat) (s : State) : Res :=
  if e = f then trapN .c 0x00D (((words (.tokp e f ch) false).map (·.word)).getD 0) s
  else .next { s with cx := putMarker (s.cx.retire .c none s.iss) e (.tokp e f ch) s.iss }
/-- `TOKW` (R233): distribution places its marker in the destination engine's queue. -/
def execTokw (e f : Engine) (ch : Nat) (s : State) : Res :=
  if e = f then trapN .c 0x00D (((words (.tokw e f ch) false).map (·.word)).getD 0) s
  else .next { s with cx := putMarker (s.cx.retire .c none s.iss) f (.tokw e f ch) s.iss }
/-- A `TOKP` marker posts its token once its engine has performed what is earlier (R28, R396). -/
def execTokenPost (e f : Engine) (ch : Nat) (s : State) : Res :=
  if !s.cx.performedBefore e s.iss.seq then wait s
  else if 255 ≤ s.cx.tokens (tokKey e f ch) then trapN e 0x70C (tokTval e f ch) s
  else
    let c := s.cx.setTokens (tokKey e f ch) (s.cx.tokens (tokKey e f ch) + 1)
    done e { s with cx := if e = .v then { c with vlast := [] } else c }
/-- A `TOKW` marker takes a token once one is there (R29). -/
def execTokenTake (e f : Engine) (ch : Nat) (s : State) : Res :=
  if s.cx.tokens (tokKey e f ch) = 0 then wait s
  else done f { s with cx := s.cx.setTokens (tokKey e f ch) (s.cx.tokens (tokKey e f ch) - 1) }
/-- The rendezvous marker of position `n` heads a queue. -/
def rdvHead (n : Nat) (q : List Entry) : Bool :=
  match q with
  | [] => false
  | x :: _ => x.marker && x.seq = n && decodeEntry .c x = some .rdv
/-- `RDV` (R32): in the stream it places its markers; six markers at the heads of all queues, with every engine's
earlier work performed, are released together. -/
def execRdv (s : State) : Res :=
  if !s.iss.marker then
    .next { s with cx := engines.foldl (fun c e => putMarker c e .rdv s.iss) (s.cx.retire .c none s.iss) }
  else if engines.all fun e => rdvHead s.iss.seq (s.cx.queue e) && s.cx.performedBefore e s.iss.seq then
    let c : Ctx := { s.cx with vlast := [] }
    .next { s with cx := (engines.foldl (fun (c : Ctx) e => c.setQueue e (c.queue e).tail) c).supply }
  else wait s
/-- The engine that owns an access register (R249). -/
def ownerOf (n : Nat) : Engine := if n < 16 then .l else .s
/-- `PUTA` (R242): in the stream it places its marker in the owner's queue, with the value C holds; the marker
writes the register. -/
def execPuta (n a : Nat) (s : State) : Res :=
  if s.iss.marker then done (ownerOf n) { s with cx := s.cx.setA n (operand s 0 a) }
  else
    .next { s with
      cx := putMarker (s.cx.retire .c none s.iss) (ownerOf n) (.puta n a) { s.iss with vals := some [s.cx.gr a] } }
/-- `GETA` (R243). -/
def execGeta (d n : Nat) (s : State) : Res :=
  if s.cx.performedBefore (ownerOf n) s.iss.seq then result d (s.cx.ar n) s else wait s

/-! ### Counters, gear and time -/

/-- `CCADD` (R31, R234): the counter moves at distribution; one that would leave 0 to 65,535 traps (R393). -/
def execCcadd (n : Nat) (amount : Int) (s : State) : Res :=
  let v := (s.cx.counter n : Int) + amount
  if v < 0 || 65535 < v then trapN .c 0x00E (n + ofSigned 16 v * 65536) s
  else done .c { s with cx := s.cx.setCounter n v.toNat }
/-- `CCWAIT` (R31). -/
def execCcwait (n k : Nat) (s : State) : Res := if s.cx.counter n < k then done .c s else wait s
/-- `GEAR` (R236): the time until now stands under the gear asked for before (R355). -/
def execGear (n : Nat) (s : State) : Res :=
  if s.cx.inChart then trapN .c 0x10B n s
  else done .c (updCx (settle s s.cur) fun c => c.setCr 0x000 (wput (c.cr 0x000) 0 2 n))
/-- The time a `WAITT` waits on: chart time in a chart-group member (R238). -/
def waitTime (s : State) : Nat := if s.cx.inChart then chartTime s s.cur else datum s
/-- `WAITT` (R238). -/
def execWaitt (a : Nat) (s : State) : Res := if (s.cx.gr a).toNat ≤ waitTime s then done .c s else wait s
/-- The time of a waiting `WAITT` at the head of C reaches its target (R238). -/
def execWaittTargetReached (s : State) : Res :=
  match headOf s.cx .c with
  | none => wait s
  | some x =>
    match decodeEntry .c x with
    | some (.waitt a) =>
      if mayIssue s .c && (s.cx.gr a).toNat ≤ waitTime s then
        done .c { s with iss := { seq := x.seq, lane := x.lane, line := x.line } }
      else wait s
    | _ => wait s
/-- `TIME` (R239). -/
def execTime (d : Nat) (chart : Bool) (s : State) : Res :=
  result d (BitVec.ofNat 64 (if chart then chartTime s s.cur else datum s)) s

end Sys2Proof.Machine
end

