-- ==== Sys2Proof/Machine/System.lean ====
section
/-! DEFINITION. Control registers: the access codes of their fields and the CSR instructions (07, R244 to R247; 03, R87). -/
namespace Sys2Proof.Machine

/-- Bits [hi : lo] as a mask. -/
def maskOf (hi lo : Nat) : Nat := 2 ^ (hi + 1) - 2 ^ lo
/-- Bits that software writes (RW). -/
def csrRw (n : Nat) : Nat :=
  if 0x002 ≤ n && n ≤ 0x004 then maskOf 20 0
  else if n = 0x005 then maskOf 19 8 + 1
  else if n = 0x007 then maskOf 63 0
  else if n = 0x008 then 1
  else if 0x011 ≤ n && n ≤ 0x01F then maskOf 63 45 + maskOf 19 12
  else if 0x021 ≤ n && n ≤ 0x02F then maskOf 15 0
  else if 0x031 ≤ n && n ≤ 0x03F then maskOf 15 0
  else if 0x040 ≤ n && n ≤ 0x043 then maskOf 63 19
  else if n = 0x048 || n = 0x049 then maskOf 56 0
  else 0
/-- Bits cleared by writing one (W1C): `aflags` (Table 16.1). -/
def csrW1c (n : Nat) : Nat := if n = 0x00B then maskOf 7 0 else 0
/-- Bits set by writing one (W1S): `trapcause.skip` (Table 15.2). -/
def csrW1s (n : Nat) : Nat := if n = 0x006 then 2 ^ 63 else 0
/-- Bits only the supervisor writes (SV): `tvec`, `atlasbase`, `govbase`. -/
def csrSv (n : Nat) : Nat :=
  if n = 0x009 then maskOf 63 0
  else if n = 0x00E then maskOf 56 12 + maskOf 9 0
  else if n = 0x010 then maskOf 56 22 + 1
  else 0
/-- A register with the bits of a mask taken from another value. -/
def mixWord (old v : Word) (mask : Nat) : Word := (old &&& ~~~(BitVec.ofNat 64 mask)) ||| (v &&& BitVec.ofNat 64 mask)
/-- The value of a register after a write presents `rw` to its RW fields and `w` to its W1C and W1S fields. -/
def csrAfter (n : Nat) (old rw w : Word) : Word :=
  (mixWord old rw (csrRw n) &&& ~~~(w &&& BitVec.ofNat 64 (csrW1c n))) ||| (w &&& BitVec.ofNat 64 (csrW1s n))
/-- The conditions of R222 hold of a context's stack registers. -/
def stackOk (c : Ctx) : Bool :=
  stkbase c % 8 = 0 && stklim c % 8 = 0 && stkptr c % 8 = 0 && decide (stkbase c ≤ stkptr c)
    && decide (stkptr c ≤ stklim c) && decide (stklim c ≤ c.spadSize)
/-- The arrival buffer lies in the allotment and outside the stack region (R41, Table 7.6). -/
def arrBufOk (c : Ctx) : Bool :=
  let o := wbits (c.cr 0x005) 8 12 * 256
  decide (o + 256 ≤ c.spadSize) && (stkbase c = stklim c || decide (stklim c ≤ o) || decide (o + 256 ≤ stkbase c))
/-- What a register may not be set to (code 0x10F): stack registers that break R222, a window past 16 units, an arrival
buffer out of place. -/
def csrRefused (c : Ctx) (n : Nat) : Bool :=
  if 0x002 ≤ n && n ≤ 0x004 then !stackOk c
  else if n = 0x005 then !arrBufOk c
  else if 0x011 ≤ n && n ≤ 0x01F then 16 < wbits (c.cr n) 16 4 + wbits (c.cr n) 12 4 + 1
  else false
/-- The value kept for instructions at earlier positions that are not performed; a handler's write serves them too. -/
def keepOld (c : Ctx) (n seq : Nat) (old : Word) : List CsrOld :=
  if !csrShared n then c.hist
  else if c.handler then c.hist.filter fun h => h.num ≠ n
  else if [Engine.l, .s, .m, .x].any fun e => (c.queue e).any (fun x => x.seq < seq) || (c.inFlight e).any fun k => k < seq then c.hist ++ [⟨n, seq, old⟩]
  else c.hist
/-- A write to `winbaseN` waits while granules are outstanding through the window (R87). -/
def winBusy (c : Ctx) (n : Nat) : Bool := 0x011 ≤ n && n ≤ 0x01F && wbits (c.cr (n + 0x010)) 32 16 ≠ 0
/-- The value `g[a]` of a CSR instruction: `g[d]` holds the old value before it is read (R246). -/
def csrOperand (d a n : Nat) (s : State) : Word := (s.cx.setG d (csrValue s s.cur n)).gr a
/-- A CSR write: `rw` is presented to RW and SV fields, `v`, which is `g[a]`, to W1C and W1S fields; `sv` says that an SV
field is written (R246). -/
def csrWrite (d n : Nat) (rw v : Word) (sv : Bool) (s : State) : Res :=
  let old := csrValue s s.cur n
  if winBusy s.cx n then wait s
  else if sv then trap .c 0x10E v s
  else
    let c := s.cx.setCr n (csrAfter n (s.cx.cr n) rw v)
    if csrRefused c n then trap .c 0x10F rw s
    else done .c { s with cx := { c with hist := keepOld s.cx n s.iss.seq (s.cx.cr n) }.setG d old }

/-- `CSRR` (R246). -/
def execCsrr (d n : Nat) (s : State) : Res := result d (csrValue s s.cur n) s
/-- `CSRW` (R246). -/
def execCsrw (d a n : Nat) (s : State) : Res := csrWrite d n (csrOperand d a n s) (csrOperand d a n s) (csrSv n ≠ 0) s
/-- `CSRS` (R246): old OR g[a] to RW fields. -/
def execCsrs (d a n : Nat) (s : State) : Res :=
  let v := csrOperand d a n s
  csrWrite d n (s.cx.cr n ||| v) v ((v &&& BitVec.ofNat 64 (csrSv n)) ≠ 0) s

end Sys2Proof.Machine
end

