-- ==== Sys2Proof/Machine/Landing.lean ====
section
/-! DEFINITION. Packets at their destination: posted writes, network writes, window reads, their answers, arriving
messages and their delivery (01, R40, R41; 03, R89 to R92; 10, R320; 14, R373; 16, R402, R406; 17, R425; 18, R459, R460). -/
namespace Sys2Proof.Machine

/-! ### The packets that have reached a die -/

/-- The candidate packet of a kind at the focused die, by the event's selector, with its place in the inbox. -/
def pickPacket (s : State) (p : Packet → Nat → Bool) : Option (Packet × Nat) :=
  ((myDie s).inbox.zipIdx.filter fun x => p x.1 x.2)[s.inp.sel]?
/-- The packet at a place of the focused die's inbox has acted. -/
def dropPacket (s : State) (k : Nat) : State := updDie s (dieOf s.cur) fun x => { x with inbox := ldel x.inbox k }
/-- The focused die is halted: its local port answers instead (Table 18.4). -/
def dieHalted (s : State) : Bool := (myDie s).halted.isSome
/-- A write acknowledgement: across modules it acknowledges the write end to end too (R333). -/
def Body.isAck : Body → Bool
  | .ack .. | .netAck .. => true
  | _ => false
/-- An answer to a packet, in a class. -/
def answerIn (s : State) (p : Packet) (cls : Nat) (b : Body) : State :=
  sendPacket s { src := p.dst, dst := p.src, cls := cls, tenant := p.tenant, task := p.task, inst := p.inst, body := b, since := s.now
                 conf := if b.isAck then p.psn.map (·.1) else none }
/-- An answer to a packet, in prompt class. -/
def answerTo (s : State) (p : Packet) (b : Body) : State := answerIn s p 2 b
/-- The place of the context that sent a packet: its source slot, or where a restore has since put it. -/
def senderOf (s : State) (p task inst : Nat) : Option Nat :=
  let here : Nat → Bool := fun q => (ctxAt s q).phase ≠ .empty && (ctxAt s q).task = task && (ctxAt s q).inst = inst
  if here p then some p else (dieResidents s (dieOf p)).find? here
/-- The save area of a context of a task. -/
def savedOf (s : State) (d task inst : Nat) : Option SavedCtx :=
  (dieAt s d).saved.find? fun x => x.task = task && x.inst = inst

/-! ### Counting in a record already written (R402) -/

/-- The count of a record's folded events raised. -/
def bumpBytes (b : List Byte) : List Byte := splice b 0x2A (leBytes 2 (min 65535 (fieldAt b 0x2A 2 + 1)))
/-- Records in a ring that the host has not taken. -/
def ringUsed (r : Ring) : Nat := (r.wr + 2 * ringSlots r - r.rd) % (2 * ringSlots r)
/-- An event is counted in the record of a number, while the die's buffer or ring holds it. -/
def bumpRecord (s : State) (d n : Nat) : State :=
  let r := (dieAt s d).err
  let hit : List Byte → Bool := fun b => fieldAt b 0x10 8 = n
  if r.waiting.any hit then
    updDie s d fun x => { x with err := { r with waiting := r.waiting.map fun b => if hit b then bumpBytes b else b } }
  else
    match (List.range (ringUsed r)).find? fun j => hit (peek s (ringKey d r 128 (r.rd + j)) 24) with
    | none => s
    | some j =>
      let key := ringKey d r 128 (r.rd + j)
      let s1 := pokeThrough s key (bumpBytes (peek s key 128))
      updDie s1 d fun x => { x with err := { x.err with last := x.err.last.map fun (b, i, t) => (if hit b then bumpBytes b else b, i, t) } }
/-- A saved context changed. -/
def updSaved (s : State) (d : Nat) (x : SavedCtx) (f : SavedCtx → SavedCtx) : State :=
  updDie s d fun y => { y with saved := y.saved.map fun z => if z.area = x.area then f z else z }
/-- An asynchronous trap becomes due for a saved context (R403): the first is kept, its `trapcause` and `tval` in the area. -/
def savedTrap (s : State) (d : Nat) (x : SavedCtx) (t : Trap) (r : Option (Nat × Nat)) : State :=
  if x.pending.isSome then s
  else
    updSaved (pokeThrough s (x.area + 0x0A0) (leBytes 8 (trapWord t).toNat ++ leBytes 8 t.tval.toNat)) d x
      fun z => { z with pending := some t, refRec := r }
/-- The trap `code` is pending for a context or its handler has not returned. -/
def trapOpen (c : Ctx) (code : Nat) : Bool :=
  (match c.asyncDue with
    | some t => t.code = code
    | none => false) || (c.handler && wbits (c.cr 0x006) 0 12 = code)
/-- A refusal has come back to the context of a task: where its trap is open the refusal is counted in that trap's
record; otherwise `write` gives the record, and the trap becomes due (R402, R403, R425, R460). -/
def refusalTrap (s : State) (from' task inst : Nat) (t : Trap) (write : State → State × Option (Nat × Nat)) : State :=
  match senderOf s from' task inst with
  | some q =>
    if trapOpen (ctxAt s q) t.code then
      match (ctxAt s q).refRec with
      | some (d, n) => bumpRecord s d n
      | none => s
    else
      let (s1, r) := write s
      if (ctxAt s1 q).asyncDue.isSome then s1
      else updCtx s1 q fun c => { c.asyncTrap { t with recNo := r.map (·.2) } with refRec := r }
  | none =>
    match savedOf s (dieOf from') task inst with
    | none => (write s).1
    | some x =>
      if x.pending.any fun y => y.code = t.code then
        match x.refRec with
        | some (d, n) => bumpRecord s d n
        | none => s
      else
        let (s1, r) := write s
        savedTrap s1 (dieOf from') x { t with recNo := r.map (·.2), time := datumOf s1 (dieOf from') } r
/-- A record of the die of a place, with its number. -/
def numbered (s : State) (d : Nat) (x : ErrRec) : State × Option (Nat × Nat) := (writeRecord s d x, some (d, (dieAt s d).err.number))
/-- A record about the context of a task, wherever it is now. -/
def senderRecord (s : State) (p tenant task inst : Nat) (x : ErrRec) : ErrRec :=
  match senderOf s p task inst with
  | some q =>
    match (ctxAt s q).due with
    | some (.stop _) => ctxRecord s q { x with sev := 3, action := 4 }
    | _ => ctxRecord s q x
  | none => { x with place := p, tileValid := true, slotValid := true, task := task, inst := inst, tenant := tenant }

/-! ### Posted writes (R89 to R92, R402, R406) -/

/-- The resident context of a tenant on a tile whose allotment holds every byte. -/
def allotmentOf (s : State) (t tenant : Nat) (l : List Nat) : Option Nat :=
  (residents s t).find? fun q =>
    let c := ctxAt s q
    c.tenant = tenant && l.all fun a => c.spadBase ≤ a && a < c.spadBase + c.spadSize
/-- A landing register covers an offset of its allotment (Table 3.4). -/
def landCovers (v : Word) (o : Nat) : Bool :=
  bitOf v.toNat 63 && 64 * wbits v 33 14 ≤ o && o < 64 * (wbits v 33 14 + wbits v 19 14 + 1)
/-- The lowest landing register that a write at offsets touches. -/
def landOf (c : Ctx) (l : List Nat) : Option Nat := (List.range 4).find? fun k => l.any (landCovers (c.cr (0x040 + k)))
/-- A write with a step is stale for a register's step (R92). -/
def staleStep (v : Word) (t : Nat) : Bool := 32768 ≤ (t + 65536 - wbits v 47 16) % 65536
/-- The writes of a landing: bytes, and the barrier's count where it lies in an allotment of the tenant. -/
def landBytes (s : State) (t tenant q : Nat) (cells : List Host.Cell) (bb : Option Nat) : State :=
  let s1 := updCtx s q fun c => spadPut c (cells.map fun x => (x.1 - c.spadBase, x.2))
  match bb with
  | none => s1
  | some o =>
    match allotmentOf s1 t tenant [o, o + 15] with
    | none => s1
    | some r => updCtx s1 r fun c => barrierAdd c (o - c.spadBase) cells.length
/-- A saturating 32-bit count. -/
def count32 (n : Nat) : Nat := min (2 ^ 32 - 1) (n + 1)
/-- What becomes of an arriving posted write: the state after it, and whether it was refused. -/
def landPosted (s : State) (p : Packet) (step : Nat) (cells : List Host.Cell) (bb : Option Nat) : State × Bool :=
  let d := dieOf p.dst
  let t := tileOf p.dst
  if dieHalted s then (s, true)
  else
    match allotmentOf s t p.tenant (cells.map (·.1)) with
    | none => (updTenant s d p.tenant fun x => { x with refused := count32 x.refused }, true)
    | some q =>
      let c := ctxAt s q
      match landOf c (cells.map fun x => x.1 - c.spadBase) with
      | none => (landBytes s t p.tenant q cells bb, false)
      | some k =>
        let v := c.cr (0x040 + k)
        if staleStep v step then (updTenant s d p.tenant fun x => { x with stale := count32 x.stale }, false)
        else (landBytes (updCtx s q fun c => c.setCr (0x040 + k) (wput v 47 16 step)) t p.tenant q cells bb, false)
/-- A posted write may land: every earlier one that S of its context sent through its window has (R141). -/
def landsNext (l : List Packet) (p : Packet) (k : Nat) : Bool :=
  match p.body with
  | .posted w _ _ _ none _ _ => (l.take k).all fun q =>
    match q.body with
    | .posted w' _ _ _ none _ _ => !(w' = w && q.src = p.src && q.task = p.task && q.inst = p.inst)
    | _ => true
  | .posted .. => true
  | _ => false
/-- `POSTED_WRITE_LANDING` (R89, R92, R270, R402, R406): the write lands, is discarded as stale or is refused, and is
acknowledged. -/
def execPostedWriteLanding (s : State) : Res :=
  match pickPacket s (fun p k => landsNext (myDie s).inbox p k) with
  | some (p, k) =>
    match p.body with
    | .posted w step cells granules copy bb seq =>
      let (s1, refused) := landPosted (dropPacket s k) p step cells bb
      let off := (cells.map (·.1)).foldl min (2 ^ 20)
      .next (answerTo s1 p (.ack w step granules copy off (if refused then cells.length else 0) refused seq))
    | _ => wait s
  | none => wait s

/-! ### Acknowledgements (R90, R402, R460) -/

/-- A copy's granule is answered. -/
def granuleAnswered (c : Ctx) (k bytes : Nat) : Ctx :=
  match alook c.copies k with
  | none => c
  | some x => { c with copies := aset c.copies k { x with unacked := x.unacked - 1, refused := x.refused + bytes } }
/-- The trap and the record of a refused write or read through a window (R402). -/
def windowRefusal (s : State) (p : Packet) (w step off seq : Nat) (e : Engine) : State :=
  let t : Trap := { cls := 1, code := 0x713, eng := engCode e, seq := seq, tval := BitVec.ofNat 64 (w + step * 65536) }
  refusalTrap s p.dst p.task p.inst t fun s =>
    numbered s (dieOf p.dst) (senderRecord s p.dst p.tenant p.task p.inst
      { kind := 7, sev := 2, unit := engCode e, eng := engCode e, cause := 0x713, addr := off,
        value := w + step * 65536 + p.src / 2 ^ 15 * 2 ^ 47, seq := seq, detail := leBytes 1 1 })
/-- `WRITE_ACKNOWLEDGEMENT` (R90, R402, R460): allowance returns; a refusal sets an asynchronous trap due. -/
def execWriteAcknowledgement (s : State) : Res :=
  match pickPacket s (fun p _ => match p.body with
    | .ack .. => true
    | .netAck .. => true
    | _ => false) with
  | none => wait s
  | some (p, k) =>
    let s0 := dropPacket s k
    match p.body with
    | .ack w step granules copy off bytes refused seq =>
      let q := (senderOf s0 p.dst p.task p.inst).getD p.dst
      let base := 65536 * bits (ctxAt s0 q |>.cr (0x010 + w)).toNat 16 4
      let s1 := updCtx s0 q fun c =>
        let c1 := setWinOut c w (winOut c w - granules)
        match copy with
        | some k => granuleAnswered c1 k bytes
        | none => c1
      .next (if refused then windowRefusal s1 p w step (off - base) seq (if copy.isSome then .x else .s) else s1)
    | .netAck copy bytes refused va seq =>
      let q := (senderOf s0 p.dst p.task p.inst).getD p.dst
      let s1 := updCtx s0 q fun c => granuleAnswered c copy bytes
      match refused with
      | none => .next s1
      | some n =>
        let t : Trap := { cls := 1, code := 0x731, eng := 6, seq := seq, tval := BitVec.ofNat 64 va }
        .next (refusalTrap s1 p.dst p.task p.inst t fun s => (s, some (dieOf p.src, n)))
    | _ => wait s

/-! ### Network writes (R373, R460) -/

/-- The keys of pieces under a tenant's tables on a die, apart from every TLB, or the cause of the failed walk; an entry
with an uncorrected error gives none (R409). -/
def netKeys (s : State) (d tenant : Nat) (wr : Bool) : List (Nat × Nat) → Except (Option Nat) (List (Nat × Nat))
  | [] => .ok []
  | (va, n) :: r =>
    let (w, ks) := walk s d tenant va
    if ks.any fun k => eccLevel s k 8 = 2 then .error none
    else
      match w with
      | .fault cause _ => .error (some cause)
      | .page t =>
        if wr && !t.w then .error (some 3)
        else
          match netKeys s d tenant wr r with
          | .ok l => .ok ((devKey (d / 16) (t.phys va), n) :: l)
          | .error e => .error e
/-- A network write is refused: its record, and the answer. -/
def netRefuse (s : State) (p : Packet) (cause va : Nat) (bytes copy seq : Nat) : State :=
  let d := dieOf p.dst
  let s1 := writeRecord s d { kind := 9, sev := 2, unit := 0x30, cause := 0x731, addr := va, value := cause + p.src * 2 ^ 32,
                              place := p.dst, tenant := p.tenant, detail := leBytes 1 7 }
  answerTo s1 p (.netAck copy bytes (some (dieAt s d).err.number) va seq)
/-- `NETWORK_WRITE_ARRIVAL` (R373, R460): translated by the network port and written, or refused. -/
def execNetworkWriteArrival (s : State) : Res :=
  match pickPacket s (fun p _ => match p.body with
    | .netWrite .. => true
    | _ => false) with
  | none => wait s
  | some (p, k) =>
    match p.body with
    | .netWrite va b copy seq =>
      let d := dieOf p.dst
      if dieHalted s then .next (netRefuse (dropPacket s k) p 0 va b.length copy seq)
      else
        match netKeys s d p.tenant true (pieces va b.length) with
        | .error (some cause) => .next (netRefuse (dropPacket s k) p cause va b.length copy seq)
        | .error none => .next (stopTask (netRefuse (dropPacket s k) p 0 va b.length copy seq) (dieOf p.src) p.task 8 none none)
        | .ok keys =>
          if keys.any fun x => !windowReady s x.1 x.2 true then .next (keys.foldl (fun s x => windowRecall s x.1 x.2 true) s)
          else .next (answerTo (pokePieces (dropPacket s k) p.tenant keys b) p (.netAck copy 0 none va seq))
    | _ => wait s

/-! ### Reads through a window (R267, R320) -/

/-- The bytes of ranges of a tile's scratchpad that lie in one allotment of a tenant. -/
def tileBytes (s : State) (q : Nat) (parts : List (Nat × Nat)) : List Byte :=
  parts.flatMap fun x => spadRead (ctxAt s q) (x.1 - (ctxAt s q).spadBase) x.2
/-- `WINDOW_READ_REQUEST` (R267, R320): the tile serves the read under the check of R89, in the class of the reader's window; a
word with an uncorrected error stops the reading task (R408). -/
def execWindowReadRequest (s : State) : Res :=
  match pickPacket s (fun p _ => match p.body with
    | .readReq .. => true
    | _ => false) with
  | none => wait s
  | some (p, k) =>
    match p.body with
    | .readReq parts tag =>
      let s1 := dropPacket s k
      let n := (parts.map (·.2)).sum
      let refuse : State → State := fun s => answerIn s p tag.cls (.readResp (List.replicate n 0) true tag)
      if dieHalted s then .next (refuse s1)
      else
        match allotmentOf s1 (tileOf p.dst) p.tenant (parts.flatMap fun x => [x.1, x.1 + x.2 - 1]) with
        | none =>
          let s2 := updTenant s1 (dieOf p.dst) p.tenant fun x => { x with refused := count32 x.refused }
          .next (refuse s2)
        | some q =>
          let c := ctxAt s1 q
          let mine := parts.map fun x => (x.1 - c.spadBase, x.2)
          match c.bad.find? fun b => b % 2 = 1 && inRanges mine (b / 2) with
          | some b =>
            let s2 := freeRecord s1 (dieOf p.dst) { arrayRecord s1 0x10 3 (c.spadBase + 8 * (b / 2)) with
              place := p.dst, tileValid := true, task := p.task, inst := p.inst, tenant := p.tenant }
            .next (refuse (stopTask s2 (dieOf p.src) p.task 8 (some p.src) none))
          | none => .next (answerIn s1 p tag.cls (.readResp (tileBytes s1 q parts) false tag))
    | _ => wait s
/-- A copy with the data of the granule at an offset, or with its bytes, refused, left unwritten. -/
def readAnswered (x : Copy) (off : Nat) (data : List Byte) (refused : Bool) : Copy :=
  let y := { x with reading := x.reading.erase off }
  if refused then { noteGranule y off with refused := y.refused + data.length }
  else { y with data := aset y.data off data }
/-- `WINDOW_READ_RESPONSE` (R320, Table 18.4): the data reaches its copy; a refused read is treated as R402 gives. -/
def execWindowReadResponse (s : State) : Res :=
  match pickPacket s (fun p _ => match p.body with
    | .readResp .. => true
    | _ => false) with
  | none => wait s
  | some (p, k) =>
    match p.body with
    | .readResp data refused tag =>
      let s0 := dropPacket s k
      let q := (senderOf s0 p.dst p.task p.inst).getD p.dst
      match alook (ctxAt s0 q).copies tag.copy with
      | none => .next s0
      | some x =>
        let s1 := updCtx s0 q fun c => { c with copies := aset c.copies tag.copy (readAnswered x tag.off data refused) }
        .next (if refused then windowRefusal s1 p tag.win tag.step tag.src tag.seq .x else s1)
    | _ => wait s

/-! ### Messages (R40, R41, R425) -/

/-- The first entry of each tenant's order in an arrival queue: position and entry. -/
def tenantHeads (l : List Arrival) : List (Arrival × Nat) :=
  l.zipIdx.filter fun x => (l.take x.2).all fun y => y.tenant ≠ x.1.tenant
/-- A tile's queue without an entry; the next of its tenant comes to the head of its order. -/
def arrivalLeaves (now : Nat) (l : List Arrival) (k : Nat) : List Arrival :=
  match l[k]? with
  | none => l
  | some x =>
    let r := ldel l k
    match r.findIdx? fun y => y.tenant = x.tenant with
    | none => r
    | some j => r.modify j fun y => { y with since := now }
/-- A message packet is the earliest of its source die and class (R315). -/
def sendNext (l : List Packet) (p : Packet) (k : Nat) : Bool :=
  match p.body with
  | .send .. => (l.take k).all fun q =>
    match q.body with
    | .send .. => !(dieOf q.src = dieOf p.src && q.cls = p.cls)
    | _ => true
  | _ => false
/-- `SEND_ARRIVAL` (R40, R425, Table 18.4): the payload takes an entry of the tile's arrival queue, or is refused. -/
def execSendArrival (s : State) : Res :=
  match pickPacket s (fun p k => sendNext (myDie s).inbox p k) with
  | none => wait s
  | some (p, k) =>
    match p.body with
    | .send payload line target seq =>
      let s1 := dropPacket s k
      let t := tileOf p.dst
      let q := (tileAt s1 t).arrq
      if dieHalted s then .next (answerTo s1 p (.refusal target 3 seq))
      else if 16 ≤ q.length then .next (answerTo s1 p (.refusal target 1 seq))
      else
        let x : Arrival := { payload := payload, handlerLine := line, tenant := p.tenant, src := p.src, task := p.task,
                             inst := p.inst, seq := seq, since := datumOf s1 (dieOf p.dst), target := target }
        .next (updTile s1 t fun y => { y with arrq := y.arrq ++ [x] })
    | _ => wait s
/-- A context is armed (R41). One that is being saved or is held is armed too, and takes its message where it stands (R432). -/
def armedAt (s : State) (q : Nat) : Bool :=
  let c := ctxAt s q
  c.phase = .dormant && bitOf (c.cr 0x005).toNat 0 && arrBufOk c
/-- The slots of a tile that hold an armed context of a tenant. -/
def armedFor (s : State) (t tenant k : Nat) : Bool :=
  let q := t * 2 ^ 15 + k * 2 ^ 12
  armedAt s q && (ctxAt s q).tenant = tenant
/-- A dormant context starts at a line with two registers set (R41, R228); what was released at `.t` on its tile is ordered before
it. -/
def startDormant (s : State) (q : Nat) (line g1 g2 : Word) : State :=
  let l := (tileAt s (tileOf q)).released
  updCtx (settle s q) q fun c => { (c.setG 1 g1).setG 2 g2 with
    phase := .running, fetch := line, fetchHold := false, stored := (c.stored ++ l).eraseDups }
/-- `ARRIVAL_DELIVERY` (R41): the first entry that has an armed context of its tenant is copied to its buffer. -/
def execArrivalDelivery (s : State) : Res :=
  let t := tileOf s.cur
  let x := tileAt s t
  match (tenantHeads x.arrq).find? fun y => (List.range 8).any (armedFor s t y.1.tenant) with
  | none => wait s
  | some (y, k) =>
    match rotate x.arrPtr 8 (armedFor s t y.tenant) with
    | none => wait s
    | some slot =>
      let q := t * 2 ^ 15 + slot * 2 ^ 12
      let o := wbits ((ctxAt s q).cr 0x005) 8 12 * 256
      let s1 := updTile s t fun z => { z with arrq := arrivalLeaves (datumOf s (dieOf q)) z.arrq k, arrPtr := slot + 1 }
      let s2 := updCtx s1 q fun c => spadWrite c o y.payload
      .next (startDormant s2 q y.handlerLine (BitVec.ofNat 64 o) (BitVec.ofNat 64 y.payload.length))
/-- `ARRIVAL_TIMEOUT` (R425): an entry that has waited 1 ms at the head of its tenant's order with no armed context of
that tenant is refused with reason 2. -/
def execArrivalTimeout (s : State) : Res :=
  let t := tileOf s.cur
  let x := tileAt s t
  let now := datumOf s (dieOf s.cur)
  match (tenantHeads x.arrq).find? fun y =>
      y.1.since + 1000000 ≤ now && !(List.range 8).any (armedFor s t y.1.tenant) with
  | none => wait s
  | some (y, k) =>
    let s1 := updTile s t fun z => { z with arrq := arrivalLeaves now z.arrq k }
    .next (sendPacket s1 { src := t * 2 ^ 15, dst := y.src, cls := 2, tenant := y.tenant, task := y.task, inst := y.inst,
                           body := .refusal y.target 2 y.seq, since := s.now })
/-- `SEND_REFUSAL` (R425): the refusal is recorded and raises trap 0x723 in the sending context. -/
def execSendRefusal (s : State) : Res :=
  match pickPacket s (fun p _ => match p.body with
    | .refusal .. => true
    | _ => false) with
  | none => wait s
  | some (p, k) =>
    match p.body with
    | .refusal target reason seq =>
      let t : Trap := { cls := 1, code := 0x723, eng := 6, seq := seq, tval := BitVec.ofNat 64 (target % 2 ^ 32 + reason * 2 ^ 32) }
      .next (refusalTrap (dropPacket s k) p.dst p.task p.inst t fun s =>
        numbered s (dieOf p.dst) (senderRecord s p.dst p.tenant p.task p.inst
          { kind := 8, sev := 2, unit := 0x40, cause := 0x723, addr := target, value := reason + p.dst * 2 ^ 32, seq := seq,
            detail := leBytes 1 2 }))
    | _ => wait s

end Sys2Proof.Machine
end

