-- ==== Sys2Proof/Machine/Groups.lean ====
section
/-! DEFINITION. Groups: joining, leaving and barriers, at the member and at the group's home (01, R38, R39, R42; 05, R172;
07, R230 to R232; 17, R422 to R424; 18, R459). -/
namespace Sys2Proof.Machine

/-! ### Members -/

/-- The membership register that holds a group. -/
def membershipOf (c : Ctx) (id : Nat) : Option Nat := (c.grp.find? fun x => x.2 = id).map (·.1)
/-- The member a packet comes from. -/
def Packet.member (p : Packet) : Nat := memberKey (dieOf p.src) p.task p.inst
/-- Die, task and instance of a member's name. -/
def memberDie (m : Nat) : Nat := m / 2 ^ 48
def memberTask (m : Nat) : Nat := m / 2 ^ 16 % 2 ^ 32
def memberInst (m : Nat) : Nat := m % 2 ^ 16
/-- Where a member is resident. -/
def memberPlace (s : State) (m : Nat) : Option Nat := senderOf s (placeOf (memberDie m) 0 0) (memberTask m) (memberInst m)
/-- A member's saved context. -/
def memberSaved (s : State) (m : Nat) : Option SavedCtx := savedOf s (memberDie m) (memberTask m) (memberInst m)
/-- The home of a group, and the group. -/
def homeOf (id : Nat) : Nat := placeOf (dieOfId id) 0 0
def groupAt (s : State) (id : Nat) : Option Group := alook (dieAt s (dieOfId id)).groups (id % 256)
def setGroup (s : State) (id : Nat) (g : Group) : State :=
  updDie s (dieOfId id) fun x => { x with groups := aset x.groups (id % 256) g }
/-- A message from a group's home to a member, where it is resident. -/
def tellMember (s : State) (id m cls : Nat) (b : Body) : State :=
  match memberPlace s m with
  | none => s
  | some p => sendPacket s { src := homeOf id, dst := p, cls := cls, tenant := (ctxAt s p).tenant, task := memberTask m,
                             inst := memberInst m, body := b, since := s.now }
/-- A request of the focused context to a group's home. -/
def askHome (s : State) (id cls : Nat) (b : Body) : State := sendPacket s (myPacket s (homeOf id) cls b)
/-- The packet is for the focused context. -/
def forMe (s : State) (p : Packet) : Bool := senderOf s p.dst p.task p.inst = some s.cur
/-- The packet is for a context that is no longer resident. -/
def orphan (s : State) (p : Packet) : Bool := (senderOf s p.dst p.task p.inst).isNone
/-- The instruction C waits in, as `exec` sees it. -/
def waitingC (s : State) : Option (Instr × State) :=
  match s.cx.qC with
  | [] => none
  | x :: _ => (decodeEntry .c x).map fun i => (i, issuing s x 0)
/-- The group a C instruction names. -/
def namedGroup (s : State) (i : Instr) : Option Nat :=
  match i with
  | .gjoin a _ | .gleave a | .gbar a => some ((s.cx.gr a).toNat % 2 ^ 32)
  | _ => none

/-! ### The member's side -/

/-- `GJOIN` (R230): the checks, and the request; its answer completes it. -/
def execGjoin (a : Nat) (chart : Bool) (s : State) : Res :=
  let id := (s.cx.gr a).toNat % 2 ^ 32
  if s.cx.asked then wait s
  else if bits id 8 14 ≠ 0 || !dieExists s (dieOfId id) then trapN .c 0x106 id s
  else
    match membershipOf s.cx id with
    | some _ => if (s.cx.chartGrp = some id) ≠ chart then trapN .c 0x109 id s else done .c s
    | none =>
      if 4 ≤ s.cx.grp.length then trapN .c 0x107 id s
      else if chart && s.cx.inChart then trapN .c 0x108 id s
      else .next (askHome { s with cx := { s.cx with asked := true } } id 2 (.join id chart s.cx.req))
/-- A membership recorded in the lowest free register; of a chart group, with its gear (R42). -/
def enterGroup (c : Ctx) (id gear : Nat) (chart : Bool) : Ctx :=
  match freeKey c.grp 4 with
  | none => c
  | some k =>
    let c1 := { c.setCr (0x044 + k) 0 with grp := aset c.grp k id, rel := adel c.rel k }
    if chart then { c1.setCr 0x000 (wput (wput (c1.cr 0x000) 0 2 gear) 12 1 1) with chartGrp := some id } else c1
/-- A membership dropped; of a chart group, `gear.chart` cleared (R231). -/
def quitGroup (c : Ctx) (id : Nat) : Ctx :=
  match membershipOf c id with
  | none => c
  | some k =>
    let c1 := { c.setCr (0x044 + k) 0 with grp := adel c.grp k, rel := adel c.rel k }
    if c.chartGrp = some id then { c1.setCr 0x000 (wput (c1.cr 0x000) 12 1 0) with chartGrp := none } else c1
/-- `GLEAVE` (R231): the request; its acknowledgement completes it. -/
def execGleave (a : Nat) (s : State) : Res :=
  let id := (s.cx.gr a).toNat % 2 ^ 32
  if s.cx.asked then wait s
  else
    match membershipOf s.cx id with
    | none => done .c s
    | some _ => .next (askHome { s with cx := { s.cx with asked := true } } id 2 (.leave id))
/-- The generation a member's arrival is for: the one its home collects, or the next where it joined after that one's
first arrival (R39). -/
def nextGeneration (s : State) (id m : Nat) : Nat :=
  match groupAt s id with
  | none => 0
  | some g => if g.firstArrival.isNone || g.current.contains m then g.generation else (g.generation + 1) % 2 ^ 32
/-- `GBAR` (R232): a release and the arrival, once; then the wait for its generation's release. -/
def execGbar (a : Nat) (s : State) : Res :=
  let id := (s.cx.gr a).toNat % 2 ^ 32
  match membershipOf s.cx id with
  | none => trapN .c 0x10A id s
  | some k =>
    let v := s.cx.cr (0x044 + k)
    if !bitOf v.toNat 63 then
      let gen := nextGeneration s id (memberAt s s.cur)
      let s1 := publish s
      .next (askHome { s1 with cx := { s1.cx.setCr (0x044 + k) (BitVec.ofNat 64 (2 ^ 63 + gen)) with rel := adel s1.cx.rel k } }
        id 3 (.arrive id gen))
    else if alook s.cx.rel k = some (wbits v 0 32) then
      done .c { s with cx := { s.cx.setCr (0x044 + k) (wput v 63 1 0) with rel := adel s.cx.rel k } }
    else wait s

/-- `GROUP_ANSWER` (R230, R231): the home's answer completes the waiting `GJOIN` or `GLEAVE`, or a leave of `DONE` or of
a stop. -/
def execGroupAnswer (s : State) : Res :=
  match pickPacket s (fun p _ => match p.body with
    | .answer .. => forMe s p || orphan s p
    | _ => false) with
  | none => wait s
  | some (p, k) =>
    match p.body with
    | .answer id code gear chart join =>
      let s0 := dropPacket s k
      if !forMe s p then .next s0
      else
      match waitingC s0, membershipOf s0.cx id with
      | some (.gjoin a c, s1), none =>
        if !join || !s1.cx.asked || namedGroup s1 (.gjoin a c) ≠ some id then .next s0
        else
        let s2 := { s1 with cx := { s1.cx with asked := false } }
        if code ≠ 0 then trapN .c code id s2 else done .c { s2 with cx := enterGroup s2.cx id gear chart }
      | some (.gleave a, s1), some _ =>
        if join || !s1.cx.asked then .next s0
        else if !s1.cx.stopDue && namedGroup s1 (.gleave a) ≠ some id then .next s0
        else
        let s2 := { s1 with cx := quitGroup s1.cx id }
        if s2.cx.stopDue then .next { s2 with cx := { s2.cx with asked := s2.cx.grp ≠ [] } }
        else done .c { s2 with cx := { s2.cx with asked := false } }
      | _, _ =>
        let c := quitGroup s0.cx id
        .next (if join || !s0.cx.asked then s0 else { s0 with cx := { c with asked := c.asked && c.grp ≠ [] } })
    | _ => wait s
/-- A leave that is on its way is completed by the group's loss. -/
def lostLeave (s : State) (id : Nat) : State :=
  let c := quitGroup s.cx id
  if s.cx.asked then { s with cx := { c with asked := c.grp ≠ [] } } else s
/-- `GROUP_LOST_ANSWER` (R459, R384): the waiting `GJOIN` or `GBAR` takes trap 0x724; a leave is completed. -/
def execGroupLostAnswer (s : State) : Res :=
  match pickPacket s (fun p _ => match p.body with
    | .groupLost .. => forMe s p || orphan s p
    | _ => false) with
  | none => wait s
  | some (p, k) =>
    match p.body with
    | .groupLost id =>
      let s0 := dropPacket s k
      if !forMe s p then .next s0
      else
      match waitingC s0 with
      | some (.gjoin a c, s1) =>
        if s1.cx.asked && namedGroup s1 (.gjoin a c) = some id then
          trapN .c 0x724 id { s1 with cx := { s1.cx with asked := false } }
        else .next s0
      | some (.gbar a, s1) =>
        if namedGroup s1 (.gbar a) = some id && s1.cx.unheld && !s1.cx.handler then trapN .c 0x724 id s1 else .next s0
      | some (.gleave a, s1) =>
        if s1.cx.stopDue || namedGroup s1 (.gleave a) ≠ some id then .next (lostLeave s0 id)
        else done .c { s1 with cx := { quitGroup s1.cx id with asked := false } }
      | _ => .next (lostLeave s0 id)
    | _ => wait s
/-- `BARRIER_RELEASE` (R232, R455): the release of the generation a member awaits; any other is ignored. -/
def execBarrierRelease (s : State) : Res :=
  match pickPacket s (fun p _ => match p.body with
    | .release .. => forMe s p || orphan s p
    | _ => false) with
  | none => wait s
  | some (p, j) =>
    match p.body with
    | .release id gen =>
      let s0 := dropPacket s j
      if !forMe s p then .next s0
      else
      match membershipOf s0.cx id with
      | none => .next s0
      | some k =>
        let v := s0.cx.cr (0x044 + k)
        .next (if bitOf v.toNat 63 && wbits v 0 32 = gen then { s0 with cx := { s0.cx with rel := aset s0.cx.rel k gen } } else s0)
    | _ => wait s

/-! ### The home's side -/

/-- Membership entries a die holds (R422). -/
def membershipCount (s : State) (d : Nat) : Nat := ((dieAt s d).groups.map fun x => x.2.members.length).sum
/-- The code of a home's answer to a join, and the group after it (R230, R422). -/
def takeJoin (s : State) (d id : Nat) (p : Packet) (chart : Bool) (gear : Nat) : Nat × Option Group :=
  match alook (dieAt s d).groups (id % 256) with
  | none =>
    if 4096 ≤ membershipCount s d then (0x722, none)
    else (0, some { tenant := p.tenant, members := [p.member], generation := zlook 0 (dieAt s d).groupGen (id % 256),
                    chart := chart, gear := if chart then gear else 0 })
  | some g =>
    if g.tenant ≠ p.tenant then (0x721, some g)
    else if g.members.contains p.member then (if g.chart = chart then 0 else 0x109, some g)
    else if 4096 ≤ membershipCount s d then (0x722, some g)
    else if g.chart ≠ chart then (0x109, some g)
    else (0, some { g with members := g.members ++ [p.member] })
/-- A packet to a group homed on a halted die is answered that the group is lost (Table 18.4). -/
def answerLost (s : State) (p : Packet) (id : Nat) : State := answerTo s p (.groupLost id)
/-- `GROUP_JOIN_REQUEST` (R38, R230, R422): the home forms the group, adds the member or refuses. -/
def execGroupJoinRequest (s : State) : Res :=
  match pickPacket s (fun p _ => match p.body with
    | .join .. => true
    | _ => false) with
  | none => wait s
  | some (p, k) =>
    match p.body with
    | .join id chart gear =>
      let s0 := dropPacket s k
      if dieHalted s then .next (answerLost s0 p id)
      else
        let (code, g) := takeJoin s0 (dieOf s.cur) id p chart gear
        let s1 := match g with
          | some x => updDie s0 (dieOf s.cur) fun y => { y with groups := aset y.groups (id % 256) x }
          | none => s0
        let gr := match g with
          | some x => x.gear
          | none => 0
        .next (answerTo s1 p (.answer id code gr chart true))
    | _ => wait s
/-- Every tile that hosts a member of a chart group runs at the chart gear (R473). -/
def gearsReached (s : State) (g : Group) : Bool :=
  g.members.all fun m => match memberPlace s m with
    | some p => tileGear s (tileOf p) = g.gear
    | none => true
/-- A generation has begun and every member of it that has not left has arrived; a chart group's first generation waits for the
chart gear too (R39, R473). -/
def releasable (s : State) (g : Group) : Bool :=
  g.firstArrival.isSome && g.current.all g.arrived.contains && (!g.chart || g.begun || gearsReached s g)
/-- A generation that its gears have held back is released once they are reached (R473). -/
def releaseHeld (s : State) (d : Nat) : Option (Nat × Group) := (dieAt s d).groups.find? fun g => releasable s g.2
/-- A generation whose last member has arrived is released to its members (R39, R172). -/
def releaseIfAll (s : State) (id : Nat) (g : Group) : State :=
  if releasable s g then
    let s1 := setGroup s id { g with generation := (g.generation + 1) % 2 ^ 32, arrived := [], current := [],
                                     firstArrival := none, timeouts := 0, begun := true }
    g.current.foldl (fun s m => tellMember s id m 3 (.release id g.generation)) s1
  else setGroup s id g
/-- A member out of a group: the slot is freed with its last member (R38, R39). -/
def dropMember (s : State) (id m : Nat) : State :=
  match groupAt s id with
  | none => s
  | some g =>
    let h : Group := { g with members := g.members.erase m, current := g.current.erase m, arrived := g.arrived.erase m,
                              frozenBy := g.frozenBy.erase m,
                              freeze := if g.frozenBy ≠ [] && g.frozenBy.erase m = [] then
                                  g.freeze + (datumOf s (dieOfId id) - g.frozenAt) else g.freeze }
    if h.members = [] then
      updDie s (dieOfId id) fun x => { x with groups := adel x.groups (id % 256), groupGen := zset 0 x.groupGen (id % 256) h.generation }
    else releaseIfAll s id h
/-- `GROUP_LEAVE_REQUEST` (R38, R231): the home removes the member and acknowledges. -/
def execGroupLeaveRequest (s : State) : Res :=
  match pickPacket s (fun p _ => match p.body with
    | .leave .. => true
    | _ => false) with
  | none => wait s
  | some (p, k) =>
    match p.body with
    | .leave id =>
      let s0 := dropPacket s k
      if dieHalted s then .next (answerLost s0 p id)
      else .next (answerTo (dropMember s0 id p.member) p (.answer id 0 0 false false))
    | _ => wait s
/-- An arrival may be recorded: it is not for a generation that its home has not reached. -/
def arrivalReady (s : State) (id gen : Nat) : Bool :=
  match alook (myDie s).groups (id % 256) with
  | none => true
  | some g => gen ≠ (g.generation + 1) % 2 ^ 32
/-- `BARRIER_ARRIVAL` (R39, R172, R455, R473): the home records the arrival, and releases the generation with its last one; a
repeat for a released generation is answered by the release again. -/
def execBarrierArrival (s : State) : Res :=
  match pickPacket s (fun p _ => match p.body with
    | .arrive id gen => dieHalted s || arrivalReady s id gen
    | _ => false) with
  | none =>
    match releaseHeld s (dieOf s.cur) with
    | some (k, g) => .next (releaseIfAll s (dieOf s.cur * 2 ^ 22 + k) g)
    | none => wait s
  | some (p, k) =>
    match p.body with
    | .arrive id gen =>
      let s0 := dropPacket s k
      if dieHalted s then .next (answerLost s0 p id)
      else
        match alook (myDie s0).groups (id % 256) with
        | none => .next s0
        | some g =>
          if !g.members.contains p.member then .next s0
          else if gen ≠ g.generation then .next (tellMember s0 id p.member 3 (.release id gen))
          else
            let h : Group := if g.firstArrival.isNone then { g with current := g.members, firstArrival := some (datumOf s (dieOf s.cur)) } else g
            .next (releaseIfAll s0 id { h with arrived := if h.arrived.contains p.member then h.arrived else h.arrived ++ [p.member] })
    | _ => wait s

/-! ### Barrier timeouts (R423, R424) -/

/-- The word of a missing member in a timeout's record: its `ctxid` and state (R443). -/
def missingWord (s : State) (m : Nat) : Nat :=
  match memberPlace s m with
  | some p =>
    let c := ctxAt s p
    p + if c.phase = .dormant then 1 else if (tileAt s (tileOf p)).gear = 0 then 3 else 0
  | none =>
    match memberSaved s m with
    | some x => x.ctxid + 2
    | none => 0
/-- The record of the first timeout of a generation. -/
def timeoutRecord (s : State) (id : Nat) (g : Group) : State :=
  let missing := g.current.filter fun m => !g.arrived.contains m
  let words := (missing.map (missingWord s)).mergeSort
  writeRecord s (dieOfId id)
    { kind := 8, sev := 2, unit := 0x40, cause := 0x720, addr := id, value := g.generation + missing.length % 65536 * 2 ^ 32,
      place := homeOf id, tenant := g.tenant, detail := leBytes 4 1 ++ (words.take 7).flatMap (leBytes 4) }
/-- A multiple of the limit has passed unreleased: the home tells each member that has arrived. -/
def homeTimeout (s : State) (slot : Nat) : Res :=
  let d := dieOf s.cur
  match alook (myDie s).groups slot with
  | none => wait s
  | some g =>
    let limit := wbits (myDie s).bartmo 0 32 * 1000
    let id := d * 2 ^ 22 + slot
    match g.firstArrival with
    | none => wait s
    | some t =>
      if limit = 0 || datumOf s d < t + limit * (g.timeouts + 1) then wait s
      else
        let s1 := if g.timeouts = 0 then timeoutRecord s id g else s
        let s2 := setGroup s1 id { g with timeouts := g.timeouts + 1 }
        .next (g.arrived.foldl (fun s m => tellMember s id m 2 (.barTimeout id g.generation)) s2)
/-- `BARRIER_TIMEOUT` (R423, R424): a timeout that has reached the focused member makes its waiting `GBAR` trap;
otherwise the home's timer of the selected slot runs. -/
def execBarrierTimeout (s : State) : Res :=
  match (myDie s).inbox.zipIdx.find? fun x => match x.1.body with
      | .barTimeout .. => forMe s x.1
      | _ => false with
  | none => homeTimeout s s.inp.sel
  | some (p, j) =>
    match p.body with
    | .barTimeout id gen =>
      let s0 := dropPacket s j
      match waitingC s0, membershipOf s0.cx id with
      | some (.gbar a, s1), some k =>
        let v := s1.cx.cr (0x044 + k)
        if namedGroup s1 (.gbar a) = some id && bitOf v.toNat 63 && wbits v 0 32 = gen && alook s1.cx.rel k ≠ some gen
            && s1.cx.unheld && !s1.cx.handler && s1.cx.phase = .running then
          trap .c 0x720 (BitVec.ofNat 64 (id + gen * 2 ^ 32)) s1
        else .next s0
      | _, _ => .next s0
    | _ => wait s

/-! ### Debug stops (R361, R362) -/

/-- A stop of `cause` becomes due for the context at a place, unless another end of its issue is due. -/
def debugDue (s : State) (p cause : Nat) : State :=
  let c := ctxAt s p
  if c.phase = .empty || c.due.isSome || c.debugHeld then s
  else updCtx s p fun c => { c with due := some (.debug cause) }
/-- The members of the chart group of the context at a place that are resident. -/
def chartMates (s : State) (p : Nat) : List Nat :=
  match (ctxAt s p).chartGrp with
  | none => []
  | some id =>
    match groupAt s id with
    | none => []
    | some g => g.members.filterMap (memberPlace s)
/-- A stop of a context, and of every other member of its chart group with cause 5 (R362). -/
def stopForDebug (s : State) (p cause : Nat) : State :=
  (chartMates s p).foldl (fun s q => if q = p then s else debugDue s q 5) (debugDue s p cause)

end Sys2Proof.Machine
end

