-- ==== Sys2Proof/Machine/Fetch.lean ====
section
/-! DEFINITION. Fetch, the line check and distribution (R25, R30, R173 to R181, R195, R196, R378, R393). -/
namespace Sys2Proof.Machine

/-! ### The line check (Table 15.11) -/

/-- A failed check: its code, the lane and the route it is reported with, and `tval`. -/
structure LineFault where
  code : Nat
  lane : Nat
  eng : Nat
  tval : Nat
  deriving DecidableEq, Repr
/-- A lane that holds an instruction: its engine, its words and what they decode to. -/
structure Lane where
  lane : Nat
  eng : Engine
  word : Nat
  ext : Option Nat
  instr : Instr
  deriving DecidableEq, Repr

/-- The bound field of a long form with its table value in place (Table 6.14). -/
def fixBound (e : Engine) (w x : Nat) : Nat :=
  let m := w / 2 ^ 26
  match e with
  | .m => if m = 3 then putBits x 20 4 8 else x
  | .v =>
    let b := if m = 0x20 || m = 0x21 then 14 else if m = 0x22 || m = 0x23 then 10
      else if m = 0x24 || m = 0x25 then 12 else if m = 0x26 || m = 0x28 then 2
      else if m = 0x2A || m = 0x2C then 4 else if m = 0x27 || m = 0x29 then 6 else if m = 0x2B then 8 else 0
    if b = 0 then x else putBits x 28 4 b
  | _ => x
/-- The low bits of the first-word fields that name registers, queues, predicates or counters in a role with
reserved values (Table 6.5). -/
def roleFields (e : Engine) (w : Nat) : List Nat :=
  let m := w / 2 ^ 26
  match e with
  | .c => if m = 0x1B || m = 0x1C || (m = 0x1E && bits w 0 4 = 2) then [20] else if m = 0x1E && bits w 0 4 = 3 then [14] else []
  | .l => if m = 0x0A then [14] else if m = 1 || m = 2 then [20, 14] else [20, 14, 8]
  | .s => if m = 8 then [14] else [20, 14, 8]
  | .v => if 0x26 ≤ m && m ≤ 0x2C then [20, 14] else if m = 0x31 then [20] else if m = 0x2F || m = 0x3D then []
    else [20, 14, 8]
  | .m => if m = 0 then [14, 8] else if m = 5 then [14] else []
  | .x => []
/-- A word with its role fields at the values of each role's sets, in all combinations. -/
def roleRepairs (w : Nat) : List Nat → List Nat
  | [] => [w]
  | lo :: r => (roleRepairs w r).flatMap fun v => v :: [0, 1, 16, 32].map fun k => putBits v lo 6 k
/-- A field of a word that decodes has more than one value that decodes: it is used. -/
def fieldUsed (e : Engine) (w : Nat) (ext : Option Nat) (lo : Nat) : Bool :=
  (List.range 64).any fun v => v ≠ bits w lo 6 && (decode e (putBits w lo 6 v) ext).isSome
/-- Only a role keeps the word from decoding: some repair of fields that are used decodes (R184, R186). -/
def roleOnly (e : Engine) (w : Nat) (ext : Option Nat) : Bool :=
  (roleRepairs w (roleFields e w)).any fun v =>
    (decode e v ext).isSome && (roleFields e w).all fun lo => bits v lo 6 = bits w lo 6 || fieldUsed e v ext lo
/-- The first word is sound beside some extension word: the extension word is the one at fault. -/
def firstSound (e : Engine) (w : Nat) : Bool :=
  [0, 1, 2 ^ 17, 8 * 2 ^ 20, 2 ^ 24 + 8 * 2 ^ 20].any fun x =>
    (decode e w (some (fixBound e w x))).isSome || roleOnly e w (some (fixBound e w x))
/-- The lowest code of an instruction's words that do not decode: 0x007 to 0x00B. -/
def wordCode (e : Engine) (w : Nat) (ext : Option Nat) : Nat × Nat :=
  let m := w / 2 ^ 26
  let ext1 := ext.map (fixBound e w)
  if !admitsShort e m && !admitsLong e m then (0x007, w)
  else if e = .c && 0x1F ≤ m && m ≤ 0x21 && (decode e (putBits w 0 14 0) ext).isSome then (0x00B, w)
  else if (decode e w ext1).isSome || roleOnly e w ext1 then
    match ext with
    | some x => if some x ≠ ext1 then (0x009, x) else (0x00A, w)
    | none => (0x00A, w)
  else
    match ext with
    | some x => if firstSound e w then (0x008, x) else (0x008, w)
    | none => (0x008, w)
/-- What the lane check finds at lane `k`. -/
def laneFaults (w k : Nat) : List LineFault :=
  let r := routeOf w k
  let first := laneOf w k
  let long := decide (k < 7) && routeOf w (k + 1) = 7
  match engineOfRoute r with
  | none => []
  | some e =>
    let m := first / 2 ^ 26
    if long && !admitsLong e m then [⟨0x005, k, r, first⟩]
    else if !long && !admitsShort e m && admitsLong e m then [⟨0x006, k, r, first⟩]
    else
      let ext := if long then some (laneOf w (k + 1)) else none
      match decode e first ext with
      | none => let (c, v) := wordCode e first ext; [⟨c, k, r, v⟩]
      | some (.tokp a b _) => if a = b then [⟨0x00D, k, r, first⟩] else []
      | some (.tokw a b _) => if a = b then [⟨0x00D, k, r, first⟩] else []
      | some _ => []
/-- The instructions of a line whose lanes decode, in lane order. -/
def lanesOf (w : Nat) : List Lane :=
  [1, 2, 3, 4, 5, 6, 7].filterMap fun k =>
    match engineOfRoute (routeOf w k) with
    | none => none
    | some e =>
      let ext := if k < 7 && routeOf w (k + 1) = 7 then some (laneOf w (k + 1)) else none
      (decode e (laneOf w k) ext).map fun i => ⟨k, e, laneOf w k, ext, i⟩
/-- The counters as distribution leaves them, or the first that would leave 0 to 65,535 (R30, R31, R393). -/
def countUp (c : Ctx) : List Lane → Except LineFault Ctx
  | [] => .ok c
  | x :: r =>
    let step : Nat → Int → Except LineFault Ctx := fun k n =>
      let v := (c.counter k : Int) + n
      if v < 0 || 65535 < v then .error ⟨0x00E, x.lane, engCode x.eng, k + ofSigned 16 v * 65536⟩
      else countUp (c.setCounter k v.toNat) r
    match x.instr with
    | .ccadd k n => step k n
    | i => match Instr.counter i with
      | some k => step k 1
      | none => countUp c r
/-- What the whole check finds (R177, R393): the lowest code, at the first lane that has it. -/
def lineFault (c : Ctx) (w : Nat) : Option LineFault :=
  let header := w % 2 ^ 32
  let hd : Nat → Bool → List LineFault := fun code b => if b then [⟨code, 0, 0, header⟩] else []
  let all := hd 0x001 (routeOf w 0 ≠ 0xA)
    ++ hd 0x002 ([1, 2, 3, 4, 5, 6, 7].any fun k => 8 ≤ routeOf w k)
    ++ hd 0x003 (routeOf w 1 = 7)
    ++ hd 0x004 ([2, 3, 4, 5, 6, 7].any fun k => routeOf w k = 7 && (routeOf w (k - 1) = 0 || routeOf w (k - 1) = 7))
    ++ [1, 2, 3, 4, 5, 6, 7].flatMap (laneFaults w)
    ++ hd 0x00C (1 < ((lanesOf w).filter fun x => Instr.endsLine x.instr).length)
  match minBy (·.code) all with
  | some f => some f
  | none =>
    match countUp c (lanesOf w) with
    | .error f => some f
    | .ok _ => none

/-! ### Distribution (R25, R30, R74, R178, R363) -/

/-- An instruction with mode `.rs` (R74). -/
def Instr.drawsRandom : Instr → Bool
  | .vcvt _ _ m .. => m = .rs
  | .vqnt _ _ m .. => m = .rs
  | .upd _ _ _ _ _ _ m .. => m = .rs
  | _ => false
/-- The queues a lane's entries go to: a marker to the engine that acts, `RDV` to all six, `CCADD` to none
(R28, R29, R31, R32, R242). -/
def Lane.routes (x : Lane) : List Engine :=
  match x.instr with
  | .tokp e _ _ => [e]
  | .tokw _ f _ => [f]
  | .rdv => engines
  | .puta n _ => [ownerOf n]
  | .ccadd _ _ => []
  | _ => [x.eng]
/-- Entries of a queue that a line's lanes take. -/
def needs (l : List Lane) (e : Engine) : Nat :=
  (l.map fun x => if x.routes.contains e then (if x.ext.isSome then 2 else 1) else 0).sum
/-- Every queue has room for the line (R25, R378). -/
def hasRoom (c : Ctx) (l : List Lane) : Bool :=
  if c.handler then entriesOf c.hq + ((l.filter fun x => !x.routes.isEmpty).map fun x => if x.ext.isSome then 2 else 1).sum ≤ 8
  else engines.all fun e => entriesOf (c.queue e) + needs l e ≤ 64
/-- A lane is a marker in the queues it goes to. -/
def Lane.isMarker (x : Lane) : Bool :=
  match x.instr with
  | .tokp .. | .tokw .. | .rdv | .puta .. => true
  | _ => false
/-- A lane goes to the tails of its queues with a sequence number. -/
def placeLane (c : Ctx) (line : Word) (x : Lane) (seq : Nat) : Ctx :=
  let y : Entry := { word := x.word, ext := x.ext, marker := x.isMarker, seq := seq, lane := x.lane, line := line,
                     rsN := if Instr.drawsRandom x.instr then (c.cr 0x00D).toNat else 0 }
  let c1 := if Instr.drawsRandom x.instr then c.setCr 0x00D (c.cr 0x00D + 1) else c
  if x.routes.isEmpty then c1
  else if c.handler then { c1 with hq := c1.hq ++ [y] }
  else x.routes.foldl (fun c e => c.setQueue e (c.queue e ++ [y])) c1
/-- `IDLE` or `DONE`: C issues the C lanes after it in its line ahead of it (R178). -/
def Lane.closing (x : Lane) : Bool := x.instr = .idle || x.instr = .done
/-- The lanes of a line are distributed: numbered in lane order, an `IDLE` or `DONE` placed after the line's other
lanes; fetch goes on to the next line, held where a line-ending instruction went out. -/
def distribute (c : Ctx) (line : Word) (l : List Lane) : Ctx :=
  let base := c.seqNext
  let numbered := l.zipIdx.map fun (x, k) => (x, base + k)
  let inOrder := numbered.filter (fun x => !x.1.closing) ++ numbered.filter (fun x => x.1.closing)
  let c1 := match countUp c l with
    | .ok c1 => c1
    | .error _ => c
  let c2 := inOrder.foldl (fun c x => placeLane c line x.1 x.2) c1
  { c2 with passBreak := false, stepLine := false, seqNext := base + l.length, fetch := line + 32, fetchHold := l.any fun x => Instr.endsLine x.instr }.supply

/-- Instructions that handler mode does not admit (R378). -/
def Instr.noHandler : Instr → Bool
  | .task .. | .trig | .done | .spawn .. | .gjoin .. | .gleave .. | .gbar .. | .rdv | .tokp .. | .tokw .. | .ccwait ..
  | .gear .. | .waitt .. | .govstep .. | .puta .. | .geta .. | .idle => true
  | _ => false

/-! ### CODE_LINE_FETCH -/

/-- Fetch may read the next line: the context runs, nothing holds it, and no line-ending instruction is
outstanding; a held context fetches one line for a step of C (R178, R364). -/
def mayFetch (s : State) : Bool :=
  s.cx.phase = .running && tileRuns s && !s.cx.fetchHold
    && (s.cx.unheld || (s.cx.steps .c && s.cx.stepLine))
/-- A trap at the line at the fetch pointer; `before` is how many of the line's instructions precede the failing one. -/
def fetchTrap (f : LineFault) (before : Nat) (s : State) : Res :=
  let t : Trap := { cls := 1, code := f.code, eng := f.eng, lane := f.lane, tval := BitVec.ofNat 64 f.tval, epc := s.cx.fetch,
                    seq := if f.lane = 0 then 0 else s.cx.seqNext + before }
  .next (takeTrap { s with cx := { s.cx with report := none, lineTrap := true } } t)
/-- A line of the tile's instruction cache whose parity is wrong is dropped, to be fetched again (Table 16.5). -/
def refetchCode (s : State) (line : Nat) : State :=
  if (myTile s).icBad.contains line then
    let s1 := updTile s (tileOf s.cur) fun x => { x with ic := adel x.ic line, icBad := x.icBad.filter (· ≠ line) }
    freeRecord s1 (dieOf s.cur) (ctxRecord s1 s.cur (arrayRecord s1 0x12 1 (64 * line)))
  else s
/-- The 32 bytes of a line: from the tile's instruction cache, or from the home slice, which fills it where the line
is homed on the tile's own die (R181). -/
def readLine (s0 : State) (key : Nat) : List Byte × State :=
  let s := refetchCode s0 (key / 64)
  match alook (myTile s).ic (key / 64) with
  | some l => (slice l (key % 64) 32, s)
  | none =>
    let s1 := touch s s.cx.tenant key 32
    let b := peek s1 key 32
    if homeDie key = dieOf s.cur then
      (b, updTile s1 (tileOf s.cur) fun t => { t with ic := cachePut icLines t.ic (key / 64) (peek s1 (key / 64 * 64) 64) })
    else (b, s1)
/-- A line that has been read is checked whole and distributed, or stalls for room. -/
def takeLine (s : State) (w : Nat) : Res :=
  match lineFault s.cx w with
  | some f => fetchTrap f ((lanesOf w).filter fun x => x.lane < f.lane).length s
  | none =>
    let l := lanesOf w
    if s.cx.handler && l.any (fun x => x.eng ≠ .c || Instr.noHandler x.instr) then .next (stopMine s 2 none)
    else if hasRoom s.cx l then .next { s with cx := distribute s.cx s.cx.fetch l }
    else wait s
/-- `CODE_LINE_FETCH` (R177): an armed context stops at a breakpoint before the line (R361); otherwise the line is
read and distributed. -/
def execCodeLineFetch (s : State) : Res :=
  if !mayFetch s then wait s
  else if s.cx.armed && !s.cx.handler && !s.cx.debugHeld && !s.cx.passBreak && (myTile s).breaks.contains s.cx.fetch then
    .next (stopForDebug s s.cur 2)
  else
    let va := s.cx.fetch.toNat
    if !canonical s.cx.fetch then fetchTrap ⟨0x703, 0, 0, va⟩ 0 s
    else
      match translate s s.cur .c va false true with
      | .trap code => fetchTrap ⟨code, 0, 0, va⟩ 0 s
      | .fault cause level => .next (pageFault s .c va cause 4 level)
      | .spoiled _ => .next (walkStop s va)
      | .ok key s1 =>
        if eccLevel s1 key 32 = 2 then .next (eccStopAt s1 key 32)
        else
          let (b, s2) := readLine (eccCorrect s1 key 32) key
          takeLine s2 (leNat b)

end Sys2Proof.Machine
end

