-- ==== Sys2Proof/Machine/Traps.lean ====
section
/-! DEFINITION. Traps as events: entry after the drain, asynchronous traps, the handler's limit, deadlock and a drain that
starves (01, R45, R52; 15, R377 to R383, R395; 16, R403). -/
namespace Sys2Proof.Machine

/-! ### Entry -/

/-- A pre-emption, a stop or a debug stop is due (R381). -/
def dueSet (c : Ctx) : Bool := c.due.isSome
/-- `TRAP_ENTRY` (R377, R381): a synchronous trap is entered once the context is drained; where an asynchronous trap is
pending or a pre-emption or stop is due, the fault is not reported and its instruction stays unissued. -/
def execTrapEntry (s : State) : Res :=
  match s.cx.trapDue with
  | none => wait s
  | some t =>
    if !s.cx.drained || s.cx.phase ≠ .running || !tileRuns s then wait s
    else if dueSet s.cx || (s.cx.asyncDue.isSome && !s.cx.handler) then
      .next { s with cx := { s.cx with trapDue := none, report := none, lineTrap := false } }
    else .next (trapEntry s t)
/-- A command boundary at which an asynchronous trap may be entered: in handler mode it waits for the `ERET` (R378,
R403). -/
def asyncReady (c : Ctx) : Bool :=
  c.phase = .running && !c.handler && !c.stopDue && !c.debugHeld && c.faultFree && c.drained
/-- `ASYNC_TRAP_ENTRY` (R403): a pending asynchronous trap is entered, ahead of every other cause. Only a deadlock names
an instruction that `trapcause.skip` discards (R395, R403). -/
def execAsyncTrapEntry (s : State) : Res :=
  match s.cx.asyncDue with
  | none => wait s
  | some t =>
    if !asyncReady s.cx || !tileRuns s then wait s
    else
      let e := engines.find? fun e => engCode e = t.eng
      let report := if t.code = 0x70A then e.map fun e => (e, t.seq) else none
      let c := { s.cx with asyncDue := none, trapDue := none, report := report, lineTrap := false }
      .next (trapEntry { s with cx := c } { t with epc := c.fetch, lane := 0 })
/-- `HANDLER_TIMEOUT` (R378): 65,536 cycles without `ERET` stop the task with reason 4. -/
def execHandlerTimeout (s : State) : Res :=
  if s.cx.handler && s.cx.phase = .running && !s.cx.stopDue && s.cx.trapTime + 65536 ≤ cyclesAt s s.cur then .next (stopMine s 4 none)
  else wait s

/-! ### Deadlock (R395) -/

/-- Source locations and destination of a V instruction. -/
def Instr.vUses : Instr → List VLoc × Option VLoc
  | .vadd d a b _ => ([a, b], some d)
  | .vsub d a b _ => ([a, b], some d)
  | .vmul d a b _ => ([a, b], some d)
  | .vfma d a b _ => ([a, b], some d)
  | .vfms d a b _ => ([a, b], some d)
  | .vnma d a b _ => ([a, b], some d)
  | .vmin d a b _ => ([a, b], some d)
  | .vmax d a b _ => ([a, b], some d)
  | .vabs d a _ => ([a], some d)
  | .vneg d a _ => ([a], some d)
  | .vcmp _ _ a b _ => ([a, b], none)
  | .vsel d a b _ => ([a, b], some d)
  | .viadd _ d a b _ => ([a, b], some d)
  | .visub _ d a b _ => ([a, b], some d)
  | .vimul _ d a b _ => ([a, b], some d)
  | .vimad _ d a b _ => ([a, b], some d)
  | .vand _ d a b _ => ([a, b], some d)
  | .vor _ d a b _ => ([a, b], some d)
  | .vxor _ d a b _ => ([a, b], some d)
  | .vnot _ d a _ => ([a], some d)
  | .vshl _ d a b _ => ([a, b], some d)
  | .vshr _ d a b _ => ([a, b], some d)
  | .vsra _ d a b _ => ([a, b], some d)
  | .vimin _ d a b _ => ([a, b], some d)
  | .vimax _ d a b _ => ([a, b], some d)
  | .vicmp _ _ _ a b _ => ([a, b], none)
  | .vsadd _ d a b _ => ([a, b], some d)
  | .vssub _ d a b _ => ([a, b], some d)
  | .vacs d a b _ => ([a, b], some d)
  | .vcvt _ _ _ d a _ => ([a], some d)
  | .vqnt _ _ _ _ _ d a => ([a], some d)
  | .vdqnt d a => ([a], some d)
  | .vdiv d a b _ => ([a, b], some d)
  | .vsqrt d a _ => ([a], some d)
  | .vrsq d a _ => ([a], some d)
  | .vrcp d a _ => ([a], some d)
  | .vexp2 d a _ => ([a], some d)
  | .vlog2 d a _ => ([a], some d)
  | .vrotr d a _ _ => ([a], some d)
  | .vrotc d a _ _ => ([a], some d)
  | .vbcr d a _ _ => ([a], some d)
  | .vbcc d a _ _ => ([a], some d)
  | .vredr _ _ d a _ => ([a], some d)
  | .vredc _ _ d a _ => ([a], some d)
  | .vscnr _ _ d a _ => ([a], some d)
  | .vmov d a _ => ([a], some d)
  | .vxfer d a _ => ([a], some d)
  | .viota d _ => ([], some d)
  | .vpart d _ _ _ => ([], some d)
  | .vgath d a b _ => ([a, b], some d)
  | .vscat d a b _ => ([a, b], some d)
  | .vpack d a _ => ([a], some d)
  | .vunpk d a _ _ => ([a], some d)
  | _ => ([], none)
/-- The head instruction of an engine lacks a row, or room for one, in a load or store queue. -/
def Instr.lacksQueue (c : Ctx) : Instr → Bool
  | .ldq q _ _ => loadWaits c q
  | .ldqs q _ _ _ _ => loadWaits c q
  | .ldqg q _ _ _ _ => loadWaits c q
  | .strm _ q .. => loadWaits c q
  | .strmc _ q .. => loadWaits c q
  | .stq _ q .. => c.srows q = []
  | .stqLong _ q .. => c.srows q = []
  | .stqs _ _ q .. => c.srows q = []
  | .stqx _ i q .. => c.srows q = [] || c.srows i = []
  | .strw _ q .. => c.srows q = []
  | .upd _ _ q .. => c.srows q = []
  | .mrdQueue q _ _ => 28 < (c.srows q).length
  | .mmav _ _ _ _ _ q .. => c.lrows q = []
  | .mperm _ _ q _ => c.lrows q = []
  | i =>
    let (src, dst) := Instr.vUses i
    !srcsReady c src || (match dst with
      | some d => !dstReady c d 16
      | none => false)
/-- No row of a live binding can be pushed: its queue is full, or L stands at a mark (R128). -/
def bindingsHeld (c : Ctx) : Bool :=
  c.strm.all fun x => 32 ≤ (c.lrows x.2.queue).length || (match headOf c .l with
    | some y => decodeEntry .l y = some .markL
    | none => false)
/-- The head of an engine's queue waits only on a row or room, a token, a drained counter, a mark partner, the rendezvous
or the end of a live binding. -/
def headStuck (c : Ctx) (e : Engine) : Bool :=
  match (c.queue e).head? with
  | none => true
  | some x =>
    match headInstr c e with
    | none => false
    | some i =>
      if x.marker then
        match i with
        | .tokw a b ch => c.tokens (tokKey a b ch) = 0
        | .rdv => !(engines.all fun f => rdvHead x.seq (c.queue f))
        | _ => false
      else
        match i with
        | .ccwait n k => k ≤ c.counter n
        | .markL => c.skipS = 0 && (markHead c .s .markS).isNone
        | .markS => c.skipL = 0 && (markHead c .l .markL).isNone
        | .idle => c.strm ≠ []
        | .strmxWait n => (alook c.strm n).isSome
        | _ => e ≠ .c && e ≠ .x && Instr.lacksQueue c i
/-- Nothing of the context is in flight. -/
def nothingInFlight (c : Ctx) : Bool :=
  c.drained && c.copies = [] && bindingsHeld c
/-- Fetch is held by a full queue, or not held at all, where no line-ending instruction holds it. -/
def fetchFull (s : State) : Option Bool :=
  if s.cx.fetchHold then some false
  else
    match translate s s.cur .c s.cx.fetch.toNat false true with
    | .ok key s1 =>
      let w := leNat (readLine s1 key).1
      if (lineFault s.cx w).isNone && !hasRoom s.cx (lanesOf w) then some true else none
    | _ => none
/-- The deadlock that holds now: the waiting heads, earliest first, and whether fetch is held by a full queue. -/
def deadlocked (s : State) : Option (List (Engine × Entry) × Bool) :=
  let c := s.cx
  let heads := engines.filterMap fun e => (c.queue e).head?.map fun x => (e, x)
  if c.phase = .running && tileRuns s && c.unheld && !c.handler && !c.debugHeld && heads ≠ []
      && engines.all (headStuck c) && nothingInFlight c then
    (fetchFull s).map fun b => (heads, b)
  else none
/-- `DEADLOCK_DETECT` (R395): a context found deadlocked, with the same heads, over 1,024 cycles takes the asynchronous
trap 0x70A. -/
def execDeadlockDetect (s : State) : Res :=
  match deadlocked s with
  | none => if s.cx.stuck.isNone then wait s else .next { s with cx := { s.cx with stuck := none } }
  | some (heads, full) =>
    let sig := heads.map fun x => x.2.seq
    let now := cyclesAt s s.cur
    let restart := { s with cx := { s.cx with stuck := some (now, sig) } }
    match s.cx.stuck with
    | none => .next restart
    | some (t, l) =>
      if l ≠ sig then .next restart
      else if now < t + 1024 then wait s
      else
        match minBy (fun x : Engine × Entry => x.2.seq) heads with
        | none => wait s
        | some (e, x) =>
          let v := (heads.map fun y => 2 ^ engCode y.1).sum + if full then 1 else 0
          let t : Trap := { cls := 1, code := 0x70A, eng := engCode e, seq := x.seq, tval := BitVec.ofNat 64 v }
          .next { s with cx := { s.cx.asyncTrap t with stuck := none } }

/-! ### A drain that starves (R45, step 3) -/

/-- A trap, a pre-emption, a stop or a debug stop drains the context. -/
def draining (c : Ctx) : Bool := c.trapDue.isSome || c.due.isSome || (c.asyncDue.isSome && !c.handler)
/-- L's head is a load into a queue that waits on nothing but queue room. -/
def headFeeds (c : Ctx) (q : Nat) : Bool :=
  match c.qL.head?, headInstr c .l with
  | some x, some i => !x.marker && Instr.loadsInto i = some q && !csrPending c i x.seq
  | _, _ => false
/-- An issued `MMA` lacks rows that cannot arrive: no binding that may push feeds the queue, and L's head does not. -/
def starved (c : Ctx) : Bool :=
  (List.range 8).any fun q => lacksRows c q && !headFeeds c q && (atMark c || c.strm.all fun x => x.2.queue ≠ q)
/-- `DRAIN_TIMEOUT` (R45): after 65,536 cycles in that state the task is stopped with reason 18, and the instruction never
performs. -/
def execDrainTimeout (s : State) : Res :=
  let c := s.cx
  if !(draining c && starved c && c.phase = .running) then
    (if c.starve.isNone then wait s else .next { s with cx := { c with starve := none } })
  else
    let now := cyclesAt s s.cur
    match c.starve with
    | none => .next { s with cx := { c with starve := some now } }
    | some t =>
      if now < t + 65536 then wait s
      else
        let s1 := { s with cx := { c with starve := none, mops := [] } }
        .next (stopMine s1 18 none)

end Sys2Proof.Machine
end

