-- ==== Sys2Proof/Machine/Tasks.lean ====
section
/-! DEFINITION. Tasks: records and their checks, handles, edges, enqueue, trigger, retirement and the completion record;
and the context's own ends: `TASK`, `TRIG`, `DONE`, `IDLE`, `SPAWN` (01, R34 to R37; 05, R147 to R152; 07, R221, R225 to
R228; 11, R352 to R355; 17, R418 to R421). -/
namespace Sys2Proof.Machine

/-! ### Task records (Tables 5.1 and 5.2) -/

/-- The fields of a record's flag bytes. -/
def recPriority (r : List Byte) : Nat := bits (fieldAt r 0x2A 1) 0 2
def recGear (r : List Byte) : Nat := bits (fieldAt r 0x2A 1) 2 2
def recTenant (r : List Byte) : Nat := bits (fieldAt r 0x2A 1) 4 4
def recSpad (r : List Byte) : Nat := bits (fieldAt r 0x2B 1) 0 5
def recAcc (r : List Byte) : Nat := bits (fieldAt r 0x2C 1) 0 5
/-- The reference width in bits. -/
def recWidth (r : List Byte) : Nat := 16 / 2 ^ bits (fieldAt r 0x2B 1) 6 2
/-- The stack in bytes. -/
def recStack (r : List Byte) : Nat := if fieldAt r 0x2D 1 = 0 then 8192 else 4096 * fieldAt r 0x2D 1
/-- A record with its priority and tenant written (R147, R225). -/
def recSet (r : List Byte) (priority tenant : Nat) : List Byte :=
  splice r 0x2A (leBytes 1 (putBits (putBits (fieldAt r 0x2A 1) 0 2 priority) 4 4 tenant))
/-- A footprint region: first granule of 256 bytes, granules, and whether written. -/
structure Region where
  base : Nat
  n : Nat
  w : Bool
  deriving DecidableEq, Repr
/-- The region held in eight bytes. -/
def regionOf (v : Nat) : Region := { base := bits v 0 49, n := (bits v 49 9 + 1) * 2 ^ bits v 58 5, w := bitOf v 63 }
/-- The regions of a record that are read. -/
def recRegions (r : List Byte) : List Region :=
  (List.range (min 8 (bits (fieldAt r 0x2E 1) 0 4))).map fun k => regionOf (fieldAt r (0x40 + 8 * k) 8)
/-- The explicit predecessors of a record. -/
def recPreds (r : List Byte) : List Nat := (List.range (bits (fieldAt r 0x2E 1) 4 2)).map fun k => fieldAt r (0x30 + 4 * k) 4
/-- The permitted shapes: rows and columns. -/
def recShapes (r : List Byte) : List (Nat × Nat) :=
  ((List.range 16).filter fun k => bitOf (fieldAt r 0x26 2) k).map fun k => (2 ^ (4 + k / 4), 2 ^ (4 + k % 4))
/-- Instances of a shape (R155). -/
def shapeCount (r : List Byte) (x : Nat × Nat) : Nat := ceilDiv (fieldAt r 0x18 4) x.1 * ceilDiv (fieldAt r 0x1C 4) x.2
/-- Two regions conflict (R151). -/
def Region.conflicts (a b : Region) : Bool := (a.w || b.w) && a.base < b.base + b.n && b.base < a.base + a.n

/-! ### The tenant's memory as the scheduler reads it -/

/-- Bytes of a tenant's virtual memory, where they are mapped and free of errors. -/
def tenantRead (s : State) (d tenant va n : Nat) : Option (List Byte) :=
  match netKeys s d tenant false (pieces va n) with
  | .ok keys => if keys.any fun x => eccLevel s x.1 x.2 = 2 then none else some (peekPieces s keys)
  | .error _ => none
/-- A legend of a tenant's atlas, as the scheduler reads it. -/
def tenantLegend (s : State) (d tenant id : Nat) : Option Legend :=
  match legendVa (tenantAt s d tenant).atlasbase id with
  | none => none
  | some va => (tenantRead s d tenant va 64).map legendOf

/-! ### Enqueue (R147 to R152, R418 to R420) -/

/-- An address of a record is aligned and canonical. -/
def recAddr (r : List Byte) (o al : Nat) : Bool := fieldAt r o 8 % al = 0 && canonical (BitVec.ofNat 64 (fieldAt r o 8))
/-- The pool, generation and entry of a handle (R149). -/
def handlePool (h : Nat) : Nat := h / 2 ^ 30
def handleGen (h : Nat) : Nat := h / 2 ^ 12 % 2 ^ 18
def handleEntry (h : Nat) : Nat := h % 2 ^ 12
/-- The generation a pool entry has. -/
def genOf (x : Die) (pool entry : Nat) : Nat := zlook 0 x.gens (pool * 4096 + entry)
/-- The tasks of a pool. -/
def poolTasks (x : Die) (pool : Nat) : List Task := x.tasks.filter fun t => handlePool t.handle = pool
/-- The handle a new task of a pool gets: its lowest free entry (DESIGN CHOICE, log 16). -/
def newHandle (x : Die) (pool : Nat) : Option Nat :=
  let used := (poolTasks x pool).map fun t => handleEntry t.handle
  ((List.range 4096).find? fun k => !used.contains k).map fun k => pool * 2 ^ 30 + genOf x pool k * 2 ^ 12 + k
/-- A task has triggered. -/
def Task.isTriggered (t : Task) : Bool := t.state = .triggered || t.state = .retired
/-- An explicit predecessor is satisfied at enqueue (R152). So is a handle that names no task, its entry free: nothing enqueued
before can ever trigger it, and no task enqueued later may gain an edge to this one (DEDUCED, log 15). -/
def predMet (x : Die) (tenant own h : Nat) : Bool :=
  handleGen h ≠ genOf x (handlePool h) (handleEntry h) || h = own
    || match x.tasks.find? fun t => t.handle = h with
      | some t => t.isTriggered || t.tenant ≠ tenant
      | none => true
/-- The unsatisfied edges of a new task (R151, R152), each predecessor once. -/
def edgesOf (x : Die) (r : List Byte) (tenant own : Nat) : List Nat :=
  let derived := (x.tasks.filter fun t => t.tenant = tenant && !t.isTriggered
    && (recRegions r).any fun a => (recRegions t.record).any fun b => a.conflicts b).map (·.handle)
  (derived ++ (recPreds r).filter fun h => !predMet x tenant own h).eraseDups
/-- A task of a die is stopped. -/
def stoppedTask (x : Die) (h : Nat) : Bool := x.tasks.any fun t => t.handle = h && t.stopping.isSome
/-- Edges in the store of a die: an unsatisfied edge takes an entry until either of its tasks is stopped (R420). -/
def edgesUsed (x : Die) : Nat :=
  (x.tasks.map fun t => if t.stopping.isSome then 0 else (t.preds.filter fun h => !stoppedTask x h).length).sum
/-- The first failing row of Table 17.1. -/
def refusalCode (s : State) (d tenant : Nat) (r : List Byte) : Option Nat :=
  let x := dieAt s d
  let cnt := fieldAt r 0x24 2
  let own := (newHandle x (recPriority r)).getD 0
  let checks : List (Nat × Bool) :=
    [(0x01, !recAddr r 0 32), (0x02, !recAddr r 8 64),
      (0x03, cnt = 0 && (fieldAt r 0x26 2 = 0 || fieldAt r 0x18 4 = 0 || fieldAt r 0x1C 4 = 0)),
      (0x04, recSpad r = 0 || 16 < recSpad r || 16 < recAcc r || 65536 * recSpad r < recStack r),
      (0x05, 8 < bits (fieldAt r 0x2E 1) 0 4),
      (0x06, (recRegions r).any fun a => 2 ^ 49 < a.base + a.n),
      (0x07, fieldAt r 0x28 2 ≠ 0xFFFF && !(match tenantLegend s d tenant (fieldAt r 0x28 2) with
        | some l => l.valid
        | none => false)),
      (0x08, bitOf (fieldAt r 0x2B 1) 5 || bits (fieldAt r 0x2C 1) 5 3 ≠ 0 || bits (fieldAt r 0x2E 1) 6 2 ≠ 0
        || fieldAt r 0x2F 1 ≠ 0 || fieldAt r 0x3C 4 ≠ 0),
      (0x09, 4096 ≤ (poolTasks x (recPriority r)).length),
      (0x0A, 65536 < edgesUsed x + (edgesOf x r tenant own).length),
      (0x0B, cnt = 0 && (recShapes r).all fun q => 65535 < shapeCount r q)]
  (checks.find? (·.2)).map (·.1)
/-- A record, its tenant and priority written, is enqueued on a die or refused: its handle or the code (R151, R418). -/
def enqueue (s : State) (d tenant va : Nat) (r : List Byte) : Except Nat (Nat × State) :=
  match refusalCode s d tenant r with
  | some c => .error c
  | none =>
    let x := dieAt s d
    match newHandle x (recPriority r) with
    | none => .error 0x09
    | some h =>
      let preds := edgesOf x r tenant h
      let t : Task := { handle := h, record := r, recordVa := va, tenant := tenant, priority := recPriority r, preds := preds,
                        state := if preds = [] then .ready else .waiting, count := fieldAt r 0x24 2 }
      .ok (h, setDie s d { x with tasks := x.tasks ++ [t] })
/-- The turn of a source of records in its cycle: tiles from the pointer on, then the host (R419). -/
def sourceRank (base k : Nat) : Nat := if k < 128 then (k + 128 - base) % 128 else 128
/-- A record of a source of a die, a tile or 128 for the host, may be taken now: those of one nanosecond are taken in the order
of R419, and one that comes after its turn reaches the scheduler in the next (log 26). -/
def sourceTaken (s : State) (d k : Nat) : Bool :=
  let o := (dieAt s d).enq
  o.time ≠ s.now || match o.last with
    | none => true
    | some r => r ≤ sourceRank o.base k
/-- A record of a source has been taken: the tiles' pointer stands after it (R156, R419). -/
def takeSource (s : State) (d k : Nat) : State :=
  let o := (dieAt s d).enq
  let base := if o.time = s.now && o.last.isSome then o.base else o.ptr
  updDie s d fun x => { x with
    enq := { ptr := if k < 128 then (k + 1) % 128 else o.ptr, time := s.now, base := base, last := some (sourceRank base k) } }
/-- The value `TASK` returns for a refusal (R418). -/
def refusalWord (code : Nat) : Word := BitVec.ofNat 64 (2 ^ 63 + code)
/-- `TASK` (R225, R418, R419): a record that comes out of turn is taken in a later cycle. -/
def execTask (d a : Nat) (s : State) : Res :=
  let va := s.cx.gr a
  if va.toNat % 128 ≠ 0 then trap .c 0x105 va s
  else if !canonical va then trap .c 0x703 va s
  else if !sourceTaken s (dieOf s.cur) (tileOf s.cur % 128) then wait s
  else afterStores (s := s) fun s =>
    match virtRead s .c (pieces va.toNat 128) with
    | .ok b s1 =>
      let s2 := takeSource (publish s1) (dieOf s.cur) (tileOf s.cur % 128)
      let r := recSet b (min (recPriority b) (wbits (s2.cx.cr 0x001) 0 2)) s2.cx.tenant
      match enqueue s2 (dieOf s.cur) s2.cx.tenant va.toNat r with
      | .ok (h, s3) => done .c { s3 with cx := s3.cx.setG d (BitVec.ofNat 64 h) }
      | .error c => done .c { s2 with cx := s2.cx.setG d (refusalWord c) }
    | x => badRead .c x s

/-! ### Trigger and retirement (R35, R36, R352) -/

/-- A task with an edge satisfied. -/
def Task.satisfied (t : Task) (h : Nat) : Task :=
  if t.preds.contains h then
    let p := t.preds.erase h
    { t with preds := p, state := if t.state = .waiting && p = [] then .ready else t.state }
  else t
/-- Every edge from a task of a die is satisfied; tasks with no edge left become ready (R36, R151). -/
def satisfyEdges (s : State) (d h : Nat) : State :=
  updDie s d fun x => { x with tasks := x.tasks.map fun t => t.satisfied h }
/-- A task whose instances have all triggered or retired is triggered (R36). -/
def checkTrigger (s : State) (d h : Nat) : State :=
  match taskAt s d h with
  | none => s
  | some t =>
    if t.isTriggered || t.stopping.isSome || t.count = 0 || t.triggeredN < t.count then s
    else satisfyEdges (updTask s d h fun t => { t with state := .triggered, trigTime := datumOf s d }) d h
/-- An instance of a task triggers (R35). -/
def trigInstance (s : State) (d h : Nat) : State :=
  checkTrigger (updTask s d h fun t => { t with triggeredN := t.triggeredN + 1 }) d h
/-- The sum of two accounts. -/
def Acct.plus (a b : Acct) : Acct :=
  { energy := a.energy + b.energy, cycles := a.cycles + b.cycles, ran := a.ran + b.ran, thermal := a.thermal + b.thermal,
    slope := a.slope + b.slope, cap := a.cap + b.cap, gear := a.gear + b.gear, budget := a.budget + b.budget }
/-- A completion record (Table 11.3): of a task that retired (status 1) or was stopped (2), at datum time `now`. Throttled times
are kept in quarters of the reference cycles it counts. -/
def completionBytes (t : Task) (status now : Nat) : List Byte :=
  leBytes 4 status ++ leBytes 4 t.handle ++ leBytes 4 t.count ++ leBytes 2 t.g3 ++ leBytes 2 t.g4 ++ leBytes 1 t.g5
    ++ leBytes 1 t.g6 ++ List.replicate 14 0 ++ leBytes 8 t.trigTime ++ leBytes 8 now ++ leBytes 8 t.acct.energy
    ++ leBytes 4 (if t.acct.ran = 0 then 0 else t.acct.cycles / t.acct.ran) ++ leBytes 4 0 ++ leBytes 8 (t.acct.thermal / 4)
    ++ leBytes 8 (t.acct.slope / 4) ++ leBytes 8 (t.acct.cap / 4) ++ leBytes 8 (t.acct.gear / 4) ++ leBytes 8 (t.acct.budget / 4)
    ++ List.replicate 24 0
/-- Where a task's completion record goes. -/
def completionKeys (s : State) (d : Nat) (t : Task) : Except (Option Nat) (List (Nat × Nat)) :=
  netKeys s d t.tenant true (pieces (fieldAt t.record 8 8) 128)
/-- The host's lines the completion record is written to are ready, or are recalled (R338). -/
def completionReady (s : State) (d : Nat) (t : Task) : Bool :=
  match completionKeys s d t with
  | .ok keys => keys.all fun x => windowReady s x.1 x.2 true
  | .error _ => true
def completionRecall (s : State) (d : Nat) (t : Task) : State :=
  match completionKeys s d t with
  | .ok keys => keys.foldl (fun s x => windowRecall s x.1 x.2 true) s
  | .error _ => s
/-- The completion record is written through the tenant's tables, or its failure is recorded (R352, R421). -/
def writeCompletion (s : State) (d : Nat) (t : Task) (status : Nat) : State :=
  match completionKeys s d t with
  | .ok keys => pokePieces s t.tenant keys (completionBytes t status (if status = 1 then t.endTime else datumOf s d))
  | .error cause =>
    let v := match cause with
      | some c => c
      | none => syndrome s
    writeRecord { s with free := if cause.isNone then s.free + 1 else s.free } d
      { kind := 8, sev := 2, unit := 0x40, addr := fieldAt t.record 8 8, value := v, task := t.handle, tenant := t.tenant,
        place := diePlace d, detail := leBytes 1 6 }
/-- A task's pool entry is freed, its generation raised (R149). -/
def freeEntry (s : State) (d h : Nat) : State :=
  updDie s d fun x => { x with
    tasks := x.tasks.filter fun t => t.handle ≠ h
    gens := zset 0 x.gens (handlePool h * 4096 + handleEntry h) ((handleGen h + 1) % 2 ^ 18) }
/-- A retired task's completion record is written and its entry freed; where the host holds a line of the record, the line is
recalled and the task stays retired until it has come (R149, R150, R338, R352). -/
def finishRetired (s : State) (d h : Nat) : State :=
  match taskAt s d h with
  | none => s
  | some t =>
    if t.state ≠ .retired then s
    else if !completionReady s d t then completionRecall s d t
    else freeEntry (writeCompletion s d t 1) d h
/-- A task whose instances have all retired is retired (R36, R150). -/
def checkRetire (s : State) (d h : Nat) : State :=
  match taskAt s d h with
  | none => s
  | some t =>
    if t.stopping.isSome || t.state = .retired || t.count = 0 || t.retiredN < t.count then s
    else finishRetired (updTask s d h fun t => { t with state := .retired, endTime := datumOf s d }) d h
/-- The completion records that waited for lines of the host's on the dies of a module are taken up again. -/
def finishWaiting (s : State) (m : Nat) : State :=
  (s.dies.filter fun e => e.1 / 16 = m).foldl (fun s e => (e.2.tasks.filter fun t => t.state = .retired).foldl
    (fun s t => finishRetired s e.1 t.handle) s) s

/-! ### Slots -/

/-- A slot becomes empty: its allotment's bytes stay behind in the tile, with the tenant that left them (R23). -/
def vacate (s : State) (p : Nat) : State :=
  let s0 := settle s p
  let c := ctxAt s0 p
  let s1 := updTile s0 (tileOf p) fun x => { x with
    left := memPut (memClear x.left c.spadBase c.spadSize) (memCut c.spad 0 c.spadSize c.spadBase)
    leftTenant := (List.range c.spadUnits).foldl (fun l k => aset l (c.spadBase / 65536 + k) c.tenant) x.leftTenant
    leftBad := x.leftBad.filter (fun b => !(c.spadBase ≤ 8 * (b / 2) && 8 * (b / 2) < c.spadBase + c.spadSize))
      ++ c.bad.map fun b => b + 2 * (c.spadBase / 8)
    gone := if c.occupied = 0 then x.gone else x.gone ++ [(memberAt s0 p, c.occupied)] }
  let s1 := if c.issuedAny then updTenant s1 (dieOf p) c.tenant fun t => { t with issued := true } else s1
  if p = s1.cur then { s1 with cx := {} } else { s1 with ctxs := adel s1.ctxs p }
/-- The instance at a place retires: its accounts go to its task, its slot empties, and its task may trigger and retire
(R35, R36). -/
def retireInstance (s : State) (p : Nat) : State :=
  let d := dieOf p
  let s0 := settle s p
  let c := ctxAt s0 p
  let s1 := updTask s0 d c.task fun t => { t with acct := t.acct.plus c.acct, retiredN := t.retiredN + 1 }
  let s2 := vacate s1 p
  let s3 := if c.triggered then s2 else trigInstance s2 d c.task
  checkRetire s3 d c.task

/-! ### TRIG, DONE, IDLE, SPAWN -/

/-- `TRIG` (R226). -/
def execTrig (s : State) : Res :=
  if (engines.all fun e => s.cx.performedBefore e s.iss.seq) && s.cx.outstanding = 0 then
    let s1 := publish s
    let s2 := if s.cx.triggered then s1
      else trigInstance { s1 with cx := { s1.cx with triggered := true } } (dieOf s.cur) s1.cx.task
    done .c s2
  else wait s
/-- Nothing of the context but the instruction that closes it is unissued or in flight. -/
def allPerformed (c : Ctx) : Bool :=
  c.qC.length ≤ 1 && c.qL = [] && c.qS = [] && c.qV = [] && c.qM = [] && c.qX = [] && c.mops = [] && c.exposed = []
    && c.statq = [] && c.xops = [] && c.copies = [] && c.granted = 0 && c.strm = []
/-- The leaves of a context's groups are sent to their homes, and awaited (R227). -/
def leaveAll (s : State) : State :=
  s.cx.grp.foldl (fun s g => askHome s g.2 2 (.leave g.2)) { s with cx := { s.cx with asked := true } }
/-- Instructions that can still take rows of a load queue are left: of V, or of M. -/
def readersLeft (c : Ctx) : Bool := c.qV ≠ [] || c.qM ≠ [] || c.mops ≠ []
/-- The other engines wait on what only the end of a binding can bring, and nothing moves. -/
def boundStill (c : Ctx) : Bool := (engines.all fun e => e = .c || headStuck c e) && nothingInFlight c
/-- `DONE` (R227): the bindings stop, at once where no instruction is left that their rows could serve or nothing else can
move, else when that comes about: the programs of chapter 13 reach `DONE` with instructions left that take rows of theirs, and
end in states that need every row (DEDUCED, log 25). Then, once everything is performed and acknowledged, a release, the
leaves, and the instance retires. -/
def execDone (s : State) : Res :=
  if s.cx.strm ≠ [] then
    (if readersLeft s.cx && !boundStill s.cx then wait s else .next { s with cx := { s.cx with strm := [] } })
  else if !(allPerformed s.cx && s.cx.outstanding = 0) then wait s
  else if s.cx.grp ≠ [] then (if s.cx.asked then wait s else .next (leaveAll (publish s)))
  else .next (retireInstance (publish s) s.cur)
/-- `IDLE` (R221): the context becomes dormant. -/
def execIdle (s : State) : Res :=
  if !allPerformed s.cx then wait s
  else
    let s1 := settle s s.cur
    .next { s1 with cx := { s1.cx.retire .c none s.iss with phase := .dormant, fetchHold := false } }
/-- A save or a stop has begun on a context (R432). -/
def leavingSlot (c : Ctx) : Bool :=
  match c.due with
  | none | some (.debug _) => false
  | _ => true
/-- `SPAWN` (R228, R432): a dormant context of the tile and tenant, that no save has begun on, starts at a line. -/
def execSpawn (d a b : Nat) (s : State) : Res :=
  let h := s.cx.gr b
  let p := slotPlace s.cur (wbits (s.cx.gr a) 0 3)
  let c := ctxAt s p
  if h.toNat % 32 ≠ 0 then trap .c 0x101 h s
  else if p ≠ s.cur && c.phase = .dormant && c.tenant = s.cx.tenant && !leavingSlot c then
    let s1 := startDormant (releaseAt (some .t) s) p h (BitVec.ofNat 64 (wbits (s.cx.gr a) 32 32)) (BitVec.ofNat 64 (slotOf s.cur))
    done .c { s1 with cx := s1.cx.setG d 1 }
  else done .c { s with cx := s.cx.setG d 0 }

end Sys2Proof.Machine
end

