-- ==== Sys2Proof/Machine/Debug.lean ====
section
/-! DEFINITION. Debug: arming, breakpoints, stops, holds, single steps and their records (07, R220; 11, R361 to R364). -/
namespace Sys2Proof.Machine

/-! ### Records (Table 11.10) -/

/-- The number of an engine's next unissued instruction, or of the next to be distributed. -/
def nextSeq (c : Ctx) (e : Engine) : Nat :=
  match (c.queue e).head? with
  | some x => x.seq
  | none => c.seqNext
/-- A debug record of the context at a place. -/
def debugBytes (s : State) (p cause eng : Nat) : List Byte :=
  let c := ctxAt s p
  leBytes 8 (datumOf s (dieOf p)) ++ leBytes 8 p ++ leBytes 4 c.task ++ leBytes 4 c.inst ++ leBytes 1 cause ++ leBytes 1 eng
    ++ leBytes 2 (ofSigned 16 c.depth) ++ leBytes 4 0 ++ leBytes 8 c.fetch.toNat
    ++ (engines.flatMap fun e => leBytes 8 (nextSeq c e)) ++ List.replicate 40 0
/-- A debug record is written. -/
def debugRecord (s : State) (p cause eng : Nat) : State :=
  updDie s (dieOf p) fun x => { x with debugRecords := x.debugRecords ++ [debugBytes s p cause eng] }

/-! ### Stops and holds (R361, R362) -/

/-- The engine that stopped first: C at a `BRK` or a breakpoint; otherwise free. -/
def firstStopped (s : State) (cause : Nat) : Nat := if cause ≤ 2 then 1 else Config.freeNat s.free % 6 + 1
/-- A stop that is due ends in a hold once every issued operation is performed; the record is written, and its chart
group stays frozen. -/
def debugHold (s : State) : Option State :=
  match s.cx.due with
  | some (.debug cause) =>
    if s.cx.handler || !s.cx.drained || s.cx.trapDue.isSome || s.cx.asyncDue.isSome then none
    else
      let s1 := debugRecord { s with free := s.free + 1 } s.cur cause (firstStopped s cause)
      some (freezeChart { s1 with cx := { s1.cx with due := none, debugHeld := true } } s.cur)
  | _ => none
/-- `BRK` (R220, R361, R378): a debug stop where the context is armed, else a breakpoint trap with code n. -/
def execBrk (n : Nat) (s : State) : Res :=
  if s.cx.armed && !s.cx.handler then
    let s1 := { s with cx := { s.cx.retire .c none s.iss with fetchHold := false, report := none, lineTrap := false } }
    let s2 := stopForDebug s1 s.cur 1
    .next ((debugHold s2).getD s2)
  else
    let t : Trap := { cls := 3, code := 0x900 + n, eng := 1, lane := s.iss.lane, seq := s.iss.seq, epc := nextLine s, own := true }
    .next (takeTrap { s with cx := { s.cx with report := none, lineTrap := false } } t)
/-- `DEBUG_ARM` (R361): the context is armed (`flag`) or disarmed; with `flag2` the tile's breakpoints are set to the
lines of `values`, four at most. -/
def execDebugArm (s : State) : Res :=
  let s1 := { s with cx := { s.cx with armed := s.inp.flag && s.cx.phase ≠ .empty } }
  .next (if s.inp.flag2 then updTile s1 (tileOf s.cur) fun t => { t with breaks := s.inp.values.take 4 } else s1)
/-- The contexts of a task of a die stop: resident ones at their boundaries, saved ones are held when restored. -/
def stopTaskForDebug (s : State) (d h : Nat) : State :=
  let s1 := (places s).foldl (fun s p => if ofTask s d h p then stopForDebug s p 3 else s) s
  updDie s1 d fun x => { x with saved := x.saved.map fun y => if y.task = h then { y with debugHeld := true } else y }
/-- A trap that a debug stop overtakes is not reported; its instruction stays unissued (R381). -/
def dropTrap (s : State) : State :=
  match s.cx.due with
  | some (.debug _) =>
    if s.cx.handler then s else { s with cx := { s.cx with trapDue := none, report := none, lineTrap := false } }
  | _ => s
/-- `DEBUG_STOP_COMMAND` (R361, R362): a stop that is due ends in the hold; otherwise the host stops the context, or with
`flag` the task of handle `value`. -/
def execDebugStopCommand (s : State) : Res :=
  let s0 := dropTrap s
  match debugHold s0 with
  | some s1 => .next s1
  | none =>
    if s.inp.flag then .next (stopTaskForDebug s0 (dieOf s.cur) (wbits s.inp.value 0 32))
    else
      let s1 := stopForDebug s0 s.cur 3
      .next ((debugHold s1).getD s1)
/-- `DEBUG_RESUME` (R361, R362): the context issues again, past the line of its breakpoint; its chart group's freeze ends
when every member is resumed. -/
def execDebugResume (s : State) : Res :=
  if !s.cx.debugHeld then wait s
  else
    .next (thawChart { s with cx := { s.cx with debugHeld := false, stepping := none, passBreak := true } } s.cur)

/-! ### Single steps (R364) -/

/-- `SINGLE_STEP`: of the engine named. -/
def execSingleStep (s : State) : Res :=
  if !s.cx.debugHeld then wait s
  else
    let e := s.inp.engine
    let n := if e = .c then s.cx.seqNext else nextSeq s.cx e
    .next { s with cx := { s.cx with stepping := some e, stepSeq := n, stepLine := decide (e = .c) } }
/-- Every asynchronous effect of the instructions that `p` names has ended. -/
def effectsEnded (c : Ctx) (p : Nat → Bool) : Bool :=
  (c.copies.all fun x => !p x.2.seq) && (c.xops.all fun x => !p x.seq) && (c.mops.all fun x => !p x.seq)
    && (c.exposed.all fun x => !p x.seq) && (c.statq.all fun x => !p x.seq) && c.outstanding = 0
    && c.strm.all fun x => !p x.2.seq || 32 ≤ (c.lrows x.2.queue).length
/-- The stepped instruction has issued, or of C the line is distributed and its C instructions have issued. -/
def stepIssued (c : Ctx) (e : Engine) : Bool :=
  if e = .c then !c.stepLine && c.qC = [] else c.stepSeq < c.seqNext && nextSeq c e ≠ c.stepSeq
/-- `STEP_DONE` (R364): the step is reported once its effects have ended. -/
def execStepDone (s : State) : Res :=
  match s.cx.stepping with
  | none => wait s
  | some e =>
    let n := s.cx.stepSeq
    let mine : Nat → Bool := fun k => if e = .c then n ≤ k else k = n
    if stepIssued s.cx e && effectsEnded s.cx mine && !s.cx.handler && s.cx.trapDue.isNone then
      let s1 := debugRecord s s.cur 4 (engCode e)
      .next { s1 with cx := { s1.cx with stepping := none } }
    else wait s
/-- `STEP_CANCEL` (R364): the context is held with the instruction unissued. -/
def execStepCancel (s : State) : Res :=
  if s.cx.stepping.isNone then wait s else .next { s with cx := { s.cx with stepping := none } }

end Sys2Proof.Machine
end

