-- ==== Sys2Proof/Machine/Crypto.lean ====
section
/-! DEFINITION. The algorithms that the links and the start of a die name: SHA-512, HKDF-SHA-512, X25519, Ed25519 and AES-256-GCM
(10, R325, R326, R329; 11, R366, R367). The spec names them; what they compute is taken from their standards, FIPS 180-4, RFC 5869,
RFC 7748, RFC 8032, FIPS 197 and NIST SP 800-38D (PRESUMED, log 32). -/
namespace Sys2Proof.Machine

/-! ### SHA-512 -/

/-- The number whose bytes, highest first, are `l`. -/
def beNat (l : List Byte) : Nat := leNat l.reverse
/-- The `n` lowest bytes of a number, highest first. -/
def beBytes (n v : Nat) : List Byte := (leBytes n v).reverse
/-- The integer root of order `k`, below 2^68. -/
def intRoot (k n : Nat) : Nat :=
  (List.range 68).foldl (fun a i => let b := a + 2 ^ (67 - i); if b ^ k ≤ n then b else a) 0
/-- The first 80 primes. -/
def primes80 : List Nat := ((List.range 410).filter fun n => 2 ≤ n && (List.range 21).all fun k => k < 2 || k = n || n % k ≠ 0).take 80
/-- The round constants: the fractions of the cube roots of the primes; and the first state, of the square roots of eight. -/
def shaRounds : List (BitVec 64) := primes80.map fun p => BitVec.ofNat 64 (intRoot 3 (p * 2 ^ 192))
def shaStart : List (BitVec 64) := (primes80.take 8).map fun p => BitVec.ofNat 64 (intRoot 2 (p * 2 ^ 128))
/-- One more word of the message schedule, latest first. -/
def shaNext (w : List (BitVec 64)) : List (BitVec 64) :=
  let x := w.getD 14 0
  let y := w.getD 1 0
  let s0 := x.rotateRight 1 ^^^ x.rotateRight 8 ^^^ (x >>> 7)
  let s1 := y.rotateRight 19 ^^^ y.rotateRight 61 ^^^ (y >>> 6)
  (w.getD 15 0 + s0 + w.getD 6 0 + s1) :: w
/-- One round on the working variables a to h. -/
def shaRound (v : List (BitVec 64)) (k w : BitVec 64) : List (BitVec 64) :=
  match v with
  | [a, b, c, d, e, f, g, h] =>
    let t1 := h + (e.rotateRight 14 ^^^ e.rotateRight 18 ^^^ e.rotateRight 41) + ((e &&& f) ^^^ (~~~e &&& g)) + k + w
    let t2 := (a.rotateRight 28 ^^^ a.rotateRight 34 ^^^ a.rotateRight 39) + ((a &&& b) ^^^ (a &&& c) ^^^ (b &&& c))
    [t1 + t2, a, b, c, d + t1, e, f, g]
  | _ => v
/-- A block of 128 bytes taken into a state. -/
def shaBlock (h : List (BitVec 64)) (b : List Byte) : List (BitVec 64) :=
  let w0 := ((chunks 8 b).map fun x => BitVec.ofNat 64 (beNat x)).reverse
  let w := ((List.range 64).foldl (fun w _ => shaNext w) w0).reverse
  (h.zip ((shaRounds.zip w).foldl (fun v x => shaRound v x.1 x.2) h)).map fun x => x.1 + x.2
/-- SHA-512. -/
def sha512 (m : List Byte) : List Byte :=
  let pad := m ++ [0x80] ++ List.replicate ((239 - m.length % 128) % 128) 0 ++ beBytes 16 (8 * m.length)
  ((chunks 128 pad).foldl shaBlock shaStart).flatMap fun x => beBytes 8 x.toNat

/-! ### HKDF-SHA-512 -/

/-- HMAC-SHA-512. -/
def hmac512 (key m : List Byte) : List Byte :=
  let k := padTo 128 (if 128 < key.length then sha512 key else key)
  sha512 ((k.map (· ^^^ 0x5C)) ++ sha512 ((k.map (· ^^^ 0x36)) ++ m))
/-- The key of the direction from `a` to `b` (R329): HKDF of the shared secret, with no salt and the two direction identifiers as
info, the first its own. -/
def directionKey (secret a b : Nat) : Nat :=
  let prk := hmac512 (List.replicate 64 0) (leBytes 32 secret)
  leNat ((hmac512 prk (leBytes 4 a ++ leBytes 4 b ++ [1])).take 32)

/-! ### Curve arithmetic -/

/-- The field's prime, and the order of the base point. -/
def fieldP : Nat := 2 ^ 255 - 19
def orderL : Nat := 2 ^ 252 + 27742317777372353535851937790883648493
/-- Differences, powers and inverses in the field. -/
def fsub (a b : Nat) : Nat := (a + fieldP - b % fieldP) % fieldP
def fpow (a n : Nat) : Nat :=
  (List.range 256).foldl (fun r i => let q := r * r % fieldP; if bitOf n (255 - i) then q * a % fieldP else q) 1
def finv (a : Nat) : Nat := fpow a (fieldP - 2)
/-- A private number in its form: the low three bits clear, bit 254 set. -/
def clampKey (k : Nat) : Nat := k % 2 ^ 254 / 8 * 8 + 2 ^ 254
/-- One step of the ladder: two points by their x and z, and whether they are exchanged. -/
structure Ladder where
  x2 : Nat := 1
  z2 : Nat := 0
  x3 : Nat
  z3 : Nat := 1
  deriving DecidableEq, Repr
def Ladder.swap (l : Ladder) (b : Bool) : Ladder := if b then { x2 := l.x3, z2 := l.z3, x3 := l.x2, z3 := l.z2 } else l
def Ladder.step (u : Nat) (l : Ladder) : Ladder :=
  let a := (l.x2 + l.z2) % fieldP
  let b := fsub l.x2 l.z2
  let aa := a * a % fieldP
  let bb := b * b % fieldP
  let e := fsub aa bb
  let da := fsub l.x3 l.z3 * a % fieldP
  let cb := (l.x3 + l.z3) % fieldP * b % fieldP
  let s := (da + cb) % fieldP
  let d := fsub da cb
  { x2 := aa * bb % fieldP, z2 := e * (aa + 121665 * e) % fieldP, x3 := s * s % fieldP, z3 := u * (d * d) % fieldP }
/-- X25519 of a private number and a public one. -/
def x25519 (k u0 : Nat) : Nat :=
  let u := u0 % 2 ^ 255 % fieldP
  let n := clampKey k
  let l := (List.range 255).foldl (fun (l : Ladder) i => ((l.swap (bitOf n (254 - i))).step u).swap (bitOf n (254 - i))) { x3 := u }
  l.x2 * finv l.z2 % fieldP
/-- The public number of a private one. -/
def x25519Public (k : Nat) : Nat := x25519 k 9

/-! ### Ed25519 -/

/-- A point of the curve, in projective form: x, y and z. -/
structure Pt where
  x : Nat := 0
  y : Nat := 1
  z : Nat := 1
  deriving DecidableEq, Repr
/-- The constant d of the curve. -/
def curveD : Nat := fsub 0 (121665 * finv 121666 % fieldP)
/-- The sum of two points: the law has no exception. -/
def Pt.add (p q : Pt) : Pt :=
  let a := p.z * q.z % fieldP
  let b := a * a % fieldP
  let c := p.x * q.x % fieldP
  let d := p.y * q.y % fieldP
  let e := curveD * (c * d % fieldP) % fieldP
  let f := fsub b e
  let g := (b + e) % fieldP
  let m := fsub (fsub ((p.x + p.y) * (q.x + q.y) % fieldP) c) d
  { x := a * f % fieldP * m % fieldP, y := a * g % fieldP * (d + c) % fieldP, z := f * g % fieldP }
/-- A multiple of a point. -/
def Pt.mul (n : Nat) (p : Pt) : Pt :=
  (List.range 512).foldl (fun r i => let q := r.add r; if bitOf n (511 - i) then q.add p else q) {}
/-- The 32 bytes of a point: y, with the lowest bit of x on top. -/
def Pt.bytes (p : Pt) : List Byte :=
  let i := finv p.z
  leBytes 32 (p.y * i % fieldP + 2 ^ 255 * (p.x * i % fieldP % 2))
/-- The point of 32 bytes, where they are one. -/
def ptOf (v : Nat) : Option Pt :=
  let y := v % 2 ^ 255
  if fieldP ≤ y then none
  else
    let u := fsub (y * y) 1
    let w := (curveD * (y * y % fieldP) + 1) % fieldP
    let x0 := u * fpow w 3 % fieldP * fpow (u * fpow w 7 % fieldP) ((fieldP - 5) / 8) % fieldP
    let t := w * (x0 * x0 % fieldP) % fieldP
    let x := if t = u then some x0 else if t = fsub 0 u then some (x0 * fpow 2 ((fieldP - 1) / 4) % fieldP) else none
    match x with
    | none => none
    | some x =>
      let odd := bitOf v 255
      if x = 0 && odd then none else some { x := if decide (x % 2 = 1) = odd then x else fsub 0 x, y := y }
/-- The base point. -/
def basePt : Pt := (ptOf (4 * finv 5 % fieldP)).getD {}
/-- The public key of a private one. -/
def ed25519Public (key : Nat) : Nat :=
  leNat (Pt.mul (clampKey (leNat ((sha512 (leBytes 32 key)).take 32))) basePt).bytes
/-- The signature of a message under a private key. -/
def ed25519Sign (key : Nat) (m : List Byte) : List Byte :=
  let h := sha512 (leBytes 32 key)
  let a := clampKey (leNat (h.take 32))
  let r := leNat (sha512 (h.drop 32 ++ m)) % orderL
  let rb := (Pt.mul r basePt).bytes
  let k := leNat (sha512 (rb ++ (Pt.mul a basePt).bytes ++ m)) % orderL
  rb ++ leBytes 32 ((r + k * a) % orderL)
/-- A signature of a message verifies under a public key. -/
def ed25519Verify (pub : Nat) (m sig : List Byte) : Bool :=
  let s := fieldAt sig 32 32
  match ptOf pub, ptOf (fieldAt sig 0 32) with
  | some a, some r =>
    let k := leNat (sha512 (sig.take 32 ++ leBytes 32 pub ++ m)) % orderL
    s < orderL && (Pt.mul s basePt).bytes = (r.add (Pt.mul k a)).bytes
  | _, _ => false

/-! ### AES-256-GCM -/

/-- A product in the field of 2^8. -/
def gmul8 (a b : Nat) : Nat :=
  ((List.range 8).foldl (fun (r, a) i =>
    (if bitOf b i then r ^^^ a else r, if 128 ≤ a then (2 * a) ^^^ 0x11B else 2 * a)) (0, a)).1
/-- The substitution of a byte: its inverse, and an affine map. -/
def aesSub (x : Nat) : Nat :=
  let i := ((List.range 256).find? fun y => gmul8 x y = 1).getD 0
  (List.range 5).foldl (fun r k => r ^^^ ((i * 2 ^ k) % 256 + i * 2 ^ k / 256)) 0 ^^^ 0x63
def aesBox : List Nat := (List.range 256).map aesSub
def aesWord (w : List Nat) : List Nat := w.map fun x => aesBox.getD x 0
def xorList (a b : List Nat) : List Nat := a.zipWith (· ^^^ ·) b
/-- The sixty words of the key schedule, four bytes each. -/
def aesKeys (key : List Byte) : List (List Nat) :=
  let w0 := chunks 4 (key.map (·.toNat))
  ((List.range 52).foldl (fun (w, rc) i =>
    let t := w.getD (i + 7) []
    let (u, rc1) := if i % 8 = 0 then
        let v := aesWord (t.drop 1 ++ t.take 1)
        ((v.headD 0 ^^^ rc) :: v.drop 1, gmul8 rc 2)
      else if i % 8 = 4 then (aesWord t, rc) else (t, rc)
    (w ++ [xorList (w.getD i []) u], rc1)) (w0, 1)).1
/-- A column mixed. -/
def mixColumn (c : List Nat) : List Nat :=
  (List.range 4).map fun i => gmul8 (c.getD i 0) 2 ^^^ gmul8 (c.getD ((i + 1) % 4) 0) 3 ^^^ c.getD ((i + 2) % 4) 0 ^^^ c.getD ((i + 3) % 4) 0
/-- AES-256 of a block of 16 bytes. -/
def aes256 (key : List Byte) (b : List Byte) : List Byte :=
  let w := aesKeys key
  let rk : Nat → List Nat := fun r => (slice4 w r).flatMap id
  let s0 := xorList (b.map (·.toNat)) (rk 0)
  let s := (List.range 14).foldl (fun s r =>
    let x := (List.range 16).map fun i => aesBox.getD (s.getD ((i + 4 * (i % 4)) % 16) 0) 0
    xorList (if r = 13 then x else (chunks 4 x).flatMap mixColumn) (rk (r + 1))) s0
  s.map (BitVec.ofNat 8 ·)
where
  slice4 (w : List (List Nat)) (r : Nat) : List (List Nat) := (w.drop (4 * r)).take 4
/-- A product in the field of 2^128, the first bit of a block its highest. -/
def gmul128 (x y : Nat) : Nat :=
  ((List.range 128).foldl (fun (z, v) i =>
    (if bitOf x (127 - i) then z ^^^ v else z, if v % 2 = 1 then v / 2 ^^^ (0xE1 * 2 ^ 120) else v / 2)) (0, y)).1
/-- The hash of a string of whole blocks. -/
def ghash (h : Nat) (b : List Byte) : Nat := (chunks 16 b).foldl (fun y x => gmul128 (y ^^^ beNat x) h) 0
/-- The block of a nonce and a count. -/
def gcmBlock (nonce : List Byte) (n : Nat) : List Byte := nonce ++ beBytes 4 n
/-- The nonce of a direction and a group counter (R326). -/
def groupNonce (dir counter : Nat) : List Byte := beBytes 4 dir ++ beBytes 8 counter
/-- The keystream of the 64-byte payload at a position of a group. -/
def gcmStream (key dir counter pos : Nat) : List Byte :=
  (List.range 4).flatMap fun j => aes256 (leBytes 32 key) (gcmBlock (groupNonce dir counter) (2 + 4 * pos + j))
/-- The tag of additional data and of ciphertext. -/
def gcmTag (key dir counter : Nat) (data aad : List Byte) : List Byte :=
  let k := leBytes 32 key
  let h := beNat (aes256 k (List.replicate 16 0))
  let pad : List Byte → List Byte := fun l => l ++ List.replicate ((16 - l.length % 16) % 16) 0
  let s := ghash h (pad aad ++ pad data ++ beBytes 8 (8 * aad.length) ++ beBytes 8 (8 * data.length))
  (beBytes 16 s).zipWith (· ^^^ ·) (aes256 k (gcmBlock (groupNonce dir counter) 1))

end Sys2Proof.Machine
end

