-- ==== Sys2Proof/Machine/Governor.lean ====
section
/-! DEFINITION. The precision governor: statistics additions, the decision of `GOVSTEP`, and `GOVRD` (05, R163 to R168;
07, R240, R241). -/
namespace Sys2Proof.Machine

/-! ### Entries and policy (Tables 5.5 and 5.6) -/

/-- The virtual address of a tenant's governor table, and of the entry of a layer and role. -/
def govTable (v : Word) : Nat := 2 ^ 22 * wbits v 22 35
def govEntry (v : Word) (layer role : Nat) : Nat := govTable v + 128 * (6 * layer + role)
/-- A governor table entry. -/
structure GovEntry where
  lost : Nat
  kept : Nat
  part : Nat
  whole : Nat
  elements : Nat
  sat : Nat
  under : Nat
  nans : Nat
  batches : Nat
  rung : Nat
  setting : Nat
  votes : Int
  pending : Bool
  frozen : Bool
  target : Nat
  /-- reserved bits and bytes, kept as they are -/
  rest : List Byte
  deriving DecidableEq, Repr
/-- The entry held in 128 bytes. -/
def govEntryOf (b : List Byte) : GovEntry :=
  let f := fieldAt b 0x59 1
  { lost := fieldAt b 0 16, kept := fieldAt b 0x10 16, part := fieldAt b 0x20 16, whole := fieldAt b 0x30 16,
    elements := fieldAt b 0x40 8, sat := fieldAt b 0x48 4, under := fieldAt b 0x4C 4, nans := fieldAt b 0x50 4,
    batches := fieldAt b 0x54 2, rung := fieldAt b 0x56 1, setting := fieldAt b 0x57 1,
    votes := toSigned 8 (fieldAt b 0x58 1), pending := bitOf f 0, frozen := bitOf f 1, target := fieldAt b 0x5A 1,
    rest := leBytes 1 (f / 4) ++ slice b 0x5B 37 }
/-- The 128 bytes of an entry. -/
def GovEntry.bytes (e : GovEntry) : List Byte :=
  leBytes 16 e.lost ++ leBytes 16 e.kept ++ leBytes 16 e.part ++ leBytes 16 e.whole ++ leBytes 8 e.elements
    ++ leBytes 4 e.sat ++ leBytes 4 e.under ++ leBytes 4 e.nans ++ leBytes 2 e.batches ++ leBytes 1 e.rung
    ++ leBytes 1 e.setting ++ leBytes 1 (ofSigned 8 e.votes)
    ++ leBytes 1 (fieldAt e.rest 0 1 * 4 + (if e.frozen then 2 else 0) + if e.pending then 1 else 0) ++ leBytes 1 e.target
    ++ slice e.rest 1 37
/-- A policy block. -/
structure Policy where
  ladder : List Nat
  rn : Elem
  rw : Elem
  h : Nat
  satlimit : Elem
  roles : List Nat
  deriving DecidableEq, Repr
/-- The policy of 64 bytes: the ladder ends at its first byte 0xFF (R166). -/
def policyOf (b : List Byte) : Policy :=
  { ladder := ((slice b 0 8).map (·.toNat)).takeWhile fun x => x ≠ 0xFF
    rn := BitVec.ofNat 32 (fieldAt b 8 4), rw := BitVec.ofNat 32 (fieldAt b 0xC 4), h := max 1 (fieldAt b 0x10 1),
    satlimit := BitVec.ofNat 32 (fieldAt b 0x14 4), roles := (slice b 0x18 6).map (·.toNat) }

/-! ### The decision (R167) -/

/-- `round_fp32(x, rn)` of m × 2^e. -/
def near32 (m : Nat) (e : Int) : Elem := (roundFp32 .rn 0 (.fin false m e)).1
/-- `ratio` of R167. -/
def govRatio (a b : Nat) : Elem :=
  if b = 0 then (if 0 < a then BitVec.ofNat 32 0x7F800000 else 0)
  else (divFp32 (near32 a (-64)) (near32 b (-64))).1
/-- `layer_noise` of R167. -/
def layerNoise (x : GovEntry) : Option Elem :=
  if x.batches < 2 || x.whole = 0 then none else some (govRatio (x.batches * x.part - x.whole) x.whole)
/-- The vote of an entry: −1 widens, +1 narrows. -/
def govVote (p : Policy) (e : GovEntry) (n : Option Elem) : Int :=
  if e.elements = 0 then 0
  else if ltFp32 p.satlimit (divFp32 (near32 e.sat 0) (near32 e.elements 0)).1 then -1
  else
    match n with
    | none => 0
    | some n =>
      let q := govRatio e.lost e.kept
      if ltFp32 (mulFp32 p.rw n).1 q then -1 else if ltFp32 q (mulFp32 p.rn n).1 then 1 else 0
/-- The votes after a vote. -/
def nextVotes (votes vote : Int) : Int :=
  if vote = 0 then 0 else if votes * vote < 0 then vote else clampI (-127) 127 (votes + vote)
/-- What a decision asks for: nothing more, or an advance to a rung, with what becomes of the entry where it is made and
where it is deferred. -/
inductive Wish where
  | none (e : GovEntry)
  | move (t : Nat) (made deferred : GovEntry)
  deriving DecidableEq, Repr
/-- `gov_decide` of R167, apart from `try_advance`. -/
def govDecide (p : Policy) (role : Nat) (e : GovEntry) (n : Option Elem) : Wish :=
  if e.pending then .move e.target { e with pending := false, votes := 0 } e
  else
    let v := nextVotes e.votes (govVote p e n)
    let e1 := { e with votes := v }
    if v.natAbs < p.h then .none e1
    else
      let t : Int := e.rung + (if v < 0 then -1 else if 0 < v then 1 else 0)
      let b := p.roles.getD role 0
      if t < (bits b 0 4 : Nat) || (bits b 4 4 : Nat) < t || p.ladder.length ≤ t.toNat then .none { e1 with votes := 0 }
      else .move t.toNat { e1 with votes := 0 } { e1 with pending := true, target := t.toNat }
/-- The statistics a decided entry loses. -/
def clearStats (role : Nat) (e : GovEntry) : GovEntry :=
  let e1 := { e with lost := 0, kept := 0, elements := 0, sat := 0, under := 0 }
  if role = 3 then { e1 with part := 0, whole := 0, batches := 0 } else e1

/-! ### C accesses of the governor's instructions (R115, R163) -/

/-- What ends an access of the governor's instructions before its bytes: a trap, a translation, lines the host holds, or an
uncorrected error at a key. -/
inductive GovErr where
  | trap (code va : Nat)
  | xlat (va access : Nat) (x : Xlat)
  | window (keys : List (Nat × Nat)) (wr : Bool)
  | ecc (key : Nat)
  deriving DecidableEq, Repr
/-- Its meaning for the focused context, in the state before the instruction: a fault changes nothing else, whatever had been
decided before it was met (R55, R394). -/
def govFail (x : GovErr) (s : State) : Res :=
  match x with
  | .trap code va => trapN .c code va s
  | .xlat va access x => badXlat .c va access x s
  | .window keys wr => .next (keys.foldl (fun s x => windowRecall s x.1 x.2 wr) s)
  | .ecc key => .next (eccStopAt s key 1)
/-- Bytes read by the focused context as C reads them at the home slice, or what the access ends in. -/
def govRead (va n : Nat) (s : State) : Except GovErr (List Byte × State) :=
  match translateRange s s.cur .c false (pieces va n) with
  | .error (v, x) => .error (.xlat v 1 x)
  | .ok (keys, s1) =>
    if keys.any fun x => !windowReady s1 x.1 x.2 false then .error (.window keys false)
    else
      let s2 := touchPieces s1 s.cx.tenant keys
      match keys.find? fun x => eccLevel s2 x.1 x.2 = 2 with
      | some (key, _) => .error (.ecc key)
      | none =>
        let s3 := keys.foldl (fun s x => eccCorrect s x.1 x.2) s2
        .ok (peekPieces s3 keys, s3)
/-- Bytes written on the governor's authority: a page's w does not refuse them. -/
def govWrite (va : Nat) (b : List Byte) (s : State) : Except GovErr State :=
  match translateRange s s.cur .c false (pieces va b.length) with
  | .error (v, x) => .error (.xlat v 2 x)
  | .ok (keys, s1) =>
    if keys.any fun x => !windowReady s1 x.1 x.2 true then .error (.window keys true)
    else .ok (pokePieces s1 s.cx.tenant keys b)
/-- The address of a legend of an atlas is not canonical: it passes 2^56 (R94, Table 7.7). -/
def legendOut (atlas : Word) (va : Nat) : Bool := wbits atlas 12 45 * 4096 < 2 ^ 56 && 2 ^ 56 ≤ va
/-- Legends of an atlas, in ascending id: address and bytes of the valid governed ones of a layer and role. -/
def governedLegends (atlas : Word) (layer role : Nat) : Nat → State → Except GovErr (List (Nat × List Byte) × State)
  | 0, s => .ok ([], s)
  | k + 1, s =>
    match governedLegends atlas layer role k s with
    | .error r => .error r
    | .ok (l, s1) =>
      match legendVa atlas k with
      | none => .ok (l, s1)
      | some va =>
        if legendOut atlas va then .error (.trap 0x703 va)
        else
        match govRead va 64 s1 with
        | .error r => .error r
        | .ok (b, s2) =>
          let g := legendOf b
          .ok (if g.valid && g.governed && g.layer = layer && g.role = role then l ++ [(va, b)] else l, s2)
/-- A legend advanced to a setting (R168). -/
def advanceBytes (b : List Byte) (setting : Nat) : List Byte :=
  let g := legendOf b
  splice (splice b 0x2C (leBytes 1 setting ++ leBytes 1 g.cur ++ leBytes 2 ((g.edition + 1) % 65536))) 0x38 (leBytes 4 g.size)
/-- Legends written in order. -/
def advanceAll (setting : Nat) : List (Nat × List Byte) → State → Except GovErr State
  | [], s => .ok s
  | (va, b) :: r, s =>
    match govWrite va (advanceBytes b setting) s with
    | .error x => .error x
    | .ok s1 => advanceAll setting r s1
/-- `try_advance` of R167: whether it was made. The legends are read anew at each try. -/
def tryAdvance (layer role setting : Nat) (s : State) : Except GovErr (Bool × State) :=
  let atlas := s.cx.cr 0x00E
  match governedLegends atlas layer role ((wbits atlas 0 10 + 1) * 64) s with
  | .error r => .error r
  | .ok (l, s1) =>
    if l.any fun x => (legendOf x.2).laggard ≠ 0 then .ok (false, s1)
    else
      match advanceAll setting l s1 with
      | .error r => .error r
      | .ok s2 => .ok (true, s2)
/-- A decided entry is written back without its statistics; the answer says whether its rung changed. -/
def govPut (va role : Nat) (x : GovEntry) (changed : Bool) (s : State) : Except GovErr (Bool × State) :=
  match govWrite va (clearStats role x).bytes s with
  | .error r => .error r
  | .ok s1 => .ok (changed, s1)
/-- What a decision asks for is done. Where a pending target is a rung that the ladder no longer has, the setting is 0xFF, the byte
that stands for no rung (DESIGN CHOICE, log 21). -/
def govAct (p : Policy) (layer role va rung : Nat) (w : Wish) (s : State) : Except GovErr (Bool × State) :=
  match w with
  | .none x => govPut va role x false s
  | .move t made deferred =>
    match tryAdvance layer role (p.ladder.getD t 0xFF) s with
    | .error r => .error r
    | .ok (true, s1) => govPut va role { made with rung := t, setting := p.ladder.getD t 0xFF } (rung ≠ t) s1
    | .ok (false, s1) => govPut va role deferred false s1
/-- One role of a layer decided: the state, and whether its rung changed. A frozen entry is skipped whole, its sums kept, those of
role 3 among them (DEDUCED, log 20). -/
def govRole (p : Policy) (layer role : Nat) (n : Option Elem) (s : State) : Except GovErr (Bool × State) :=
  match govRead (govEntry (s.cx.cr 0x010) layer role) 128 s with
  | .error r => .error r
  | .ok (b, s1) =>
    if (govEntryOf b).frozen then .ok (false, s1)
    else govAct p layer role (govEntry (s.cx.cr 0x010) layer role) (govEntryOf b).rung (govDecide p role (govEntryOf b) n) s1
/-- The roles of a layer from `role` on, `k` of them: the state and how many rungs changed. -/
def govRoles (p : Policy) (layer : Nat) (n : Option Elem) : Nat → Nat → State → Except GovErr (Nat × State)
  | 0, _, s => .ok (0, s)
  | k + 1, role, s =>
    match govRole p layer role n s with
    | .error r => .error r
    | .ok (ch, s1) =>
      match govRoles p layer n k (role + 1) s1 with
      | .error r => .error r
      | .ok (m, s2) => .ok (m + (if ch then 1 else 0), s2)
/-- The layers from `layer` on, `k` of them. -/
def govLayers (p : Policy) : Nat → Nat → State → Except GovErr (Nat × State)
  | 0, _, s => .ok (0, s)
  | k + 1, layer, s =>
    match govRead (govEntry (s.cx.cr 0x010) layer 3) 128 s with
    | .error r => .error r
    | .ok (b, s1) =>
      match govRoles p layer (layerNoise (govEntryOf b)) 6 0 s1 with
      | .error r => .error r
      | .ok (m, s2) =>
        match govLayers p k (layer + 1) s2 with
        | .error r => .error r
        | .ok (m2, s3) => .ok (m + m2, s3)
/-- `GOVSTEP` (R240): an acquire, the decisions, a release; a fault on the way leaves every entry and legend as it was, so that
the instruction issued again decides each once (R55, R167, R394). -/
def execGovstep (d a b : Nat) (s : State) : Res :=
  let f := (s.cx.gr a).toNat
  let c := (s.cx.gr b).toNat
  if 4095 < f || 4096 < f + c then trapN .c 0x10C f s
  else if !governed s.cx then trapN .c 0x70D f s
  else if c = 0 then done .c { s with cx := s.cx.setG d 0 }
  else afterStores (s := s) fun s =>
    let s0 := acquireAt (some .d) s
    match govRead (govTable (s.cx.cr 0x010) + 0x300000) 64 s0 with
    | .error r => govFail r s
    | .ok (pb, s1) =>
      match govLayers (policyOf pb) c f s1 with
      | .error r => govFail r s
      | .ok (n, s2) =>
        let s3 := publish s2
        done .c { s3 with cx := s3.cx.setG d (BitVec.ofNat 64 n) }
/-- The width class a setting byte gives; a reserved byte gives none. -/
def settingWidth (b : Nat) : Option Nat := (settingOf b).map (·.cls)
/-- `GOVRD` (R241, Table 7.4): the width of a reserved setting is free. It acts as an acquire at scope `.d`. -/
def execGovrd (d a : Nat) (s : State) : Res :=
  let v := s.cx.gr a
  let role := wbits v 12 3
  if 6 ≤ role then trap .c 0x10D v s
  else if !governed s.cx then trapN .c 0x70D (wbits v 0 15) s
  else
    match govRead (govEntry (s.cx.cr 0x010) (wbits v 0 12) role) 128 (acquireAt (some .d) s) with
    | .error r => govFail r s
    | .ok (b, s1) =>
      let e := govEntryOf b
      let (w, s2) := match settingWidth e.setting with
        | some w => (w, s1)
        | none => ((freeW s1).1.toNat % 256, (freeW s1).2)
      let x := e.setting + e.rung * 2 ^ 8 + ofSigned 8 e.votes * 2 ^ 16 + (if e.pending then 2 ^ 24 else 0)
        + (if e.frozen then 2 ^ 25 else 0) + e.target * 2 ^ 32 + w * 2 ^ 40
      done .c { s2 with cx := s2.cx.setG d (BitVec.ofNat 64 x) }

/-! ### Additions (R164, R165) -/

/-- A sum that stays below 2^n. -/
def satAdd (n a b : Nat) : Nat := min (2 ^ n - 1) (a + b)
/-- An entry with an addition made. -/
def GovEntry.add (e : GovEntry) (x : StatAdd) : GovEntry :=
  { e with
    lost := satAdd 128 e.lost x.lost, kept := satAdd 128 e.kept x.kept, part := satAdd 128 e.part x.part,
    whole := satAdd 128 e.whole x.whole, elements := satAdd 64 e.elements x.elements, sat := satAdd 32 e.sat x.sat,
    under := satAdd 32 e.under x.under, nans := satAdd 32 e.nans x.nans, batches := satAdd 16 e.batches x.first }
/-- The addition performed at the home slice of its entry's line, through the governor's own translations. -/
def addAt (s : State) (d : Nat) (x : StatAdd) : State :=
  match govKey s d x.tenant (govEntry (tenantAt s d x.tenant).govbase x.layer x.role) with
  | none => s
  | some key => poke s x.tenant key ((govEntryOf (peek s key 128)).add x).bytes false
/-- `GOVERNOR_STAT_ADD` (R164): the selected addition of the context is performed; its counter falls. -/
def execGovernorStatAdd (s : State) : Res :=
  match s.cx.statq[s.inp.sel]? with
  | none => wait s
  | some x =>
    let s1 := addAt s (dieOf s.cur) x
    .next { s1 with cx := { s1.cx with statq := ldel s1.cx.statq s.inp.sel }.ccComplete x.cc x.eng x.seq }

end Sys2Proof.Machine
end

