-- ==== Sys2Proof/Machine/Save.lean ====
section
/-! DEFINITION. Pre-emption and the save area: its layout, its pool, when a context is saved, and what it is restored to
(01, R44 to R51; 08, R274; 17, R426, R428 to R435). -/
namespace Sys2Proof.Machine

/-! ### Save pools (R433, Table 17.4) -/

/-- Bytes of a save area and of its place in the pool. -/
def areaBytes : Nat := 0x1A6000
def areaStride : Nat := 0x1B0000
/-- The areas of a pool. -/
def poolSize (v : Word) : Nat := if bitOf v.toNat 24 then wbits v 12 12 + 1 else 0
/-- The key of area `k` of a tenant's pool on a die. -/
def areaKey (s : State) (d tenant k : Nat) : Nat :=
  devKey (d / 16) (wbits (tenantAt s d tenant).savepool 36 28 * 65536 + areaStride * k)
/-- The areas of a tenant that hold no context, lowest first. -/
def freeAreas (s : State) (d tenant : Nat) : List Nat :=
  ((List.range (poolSize (tenantAt s d tenant).savepool)).map (areaKey s d tenant)).filter fun a =>
    (dieAt s d).saved.all fun x => x.area ≠ a
/-- `savepool` as it reads (Table 17.4). -/
def savepoolValue (s : State) (d tenant : Nat) : Word :=
  wput (tenantAt s d tenant).savepool 0 12 (min 4095 (freeAreas s d tenant).length)
/-- A save of the context at a place has begun and is not written. -/
def savePending (c : Ctx) : Bool :=
  (match c.due with
    | some (.preempt _ _) => true
    | _ => false) && c.heldReason.isNone
/-- Areas of a tenant that no save has been promised. -/
def areasLeft (s : State) (d tenant : Nat) : Nat :=
  (freeAreas s d tenant).length
    - ((dieResidents s d).filter fun p => (ctxAt s p).tenant = tenant && savePending (ctxAt s p)).length

/-! ### Beginning a pre-emption (R44, R45, R426) -/

/-- The contexts saved with the one at a place: itself, and the resident members of its chart group. -/
def savedWith (s : State) (p : Nat) : List Nat := p :: (chartMates s p).filter fun q => q ≠ p
/-- Every context of a list that no save has begun on has an area. -/
def areasFor (s : State) (l : List Nat) : Bool :=
  let new := l.filter fun p => !savePending (ctxAt s p)
  new.all fun p =>
    (new.filter fun q => dieOf q = dieOf p && (ctxAt s q).tenant = (ctxAt s p).tenant).length
      ≤ areasLeft s (dieOf p) (ctxAt s p).tenant
/-- A save begins on a context, its engines stopping at their next boundaries, unless it is being stopped. -/
def saveDue (s : State) (p reason : Nat) (payer : Option Nat) (held : Bool) : State :=
  updCtx s p fun c =>
    if c.stopDue || savePending c then c
    else { c with due := some (.preempt reason payer), heldReason := if held then some reason else none }
/-- The record that no save area is free (kind 8, subkind 3). -/
def noAreaRecord (s : State) (d tenant : Nat) : State :=
  writeRecord s d { kind := 8, sev := 2, unit := 0x40, value := tenant, tenant := tenant, place := diePlace d,
                    detail := leBytes 1 3 }
/-- The pre-emption of a context, with its chart group, for a reason begins: whether areas were free, and the state. A
group follows the reason that began it: with no areas, reason 1 holds all in their slots, the others leave them. -/
def beginSave (s : State) (p reason : Nat) (payer : Option Nat) : Bool × State :=
  let l := savedWith s p
  let ok := areasFor s l
  if ok || reason = 1 then
    let s1 := l.foldl (fun s q => freezeChart (saveDue s q (if q = p then reason else 4) payer (!ok)) q) s
    (ok, s1)
  else (false, s)
/-- A context of an exhausted tenant is pre-empted with reason 1, or held with one record a period (R161, R426). -/
def saveForBudget (s : State) (p : Nat) : State :=
  let c := ctxAt s p
  let d := dieOf p
  if c.phase = .empty || c.due.isSome then s
  else
    let (ok, s1) := beginSave s p 1 (some c.tenant)
    if ok || (tenantAt s1 d c.tenant).heldRecorded then s1
    else updTenant (noAreaRecord s1 d c.tenant) d c.tenant fun t => { t with heldRecorded := true }
/-- A context of a withdrawn tile is pre-empted with reason 3, or left with one record a test command (R368, R426). -/
def saveForTest (s : State) (p : Nat) : State :=
  let c := ctxAt s p
  if c.phase = .empty || c.due.isSome then s
  else
    let (ok, s1) := beginSave s p 3 none
    if ok || (tileAt s1 (tileOf p)).noArea then s1
    else updTile (noAreaRecord s1 (dieOf p) c.tenant) (tileOf p) fun t => { t with noArea := true }
/-- `PREEMPTION` (R45, R426): the pre-emption of the focused context begins for a reason that holds: its tile is
withdrawn, its tenant is exhausted, or it is debug-held and the management core saves it. A reason 2 begins with the
claimant's placement (R158). -/
def execPreemption (s : State) : Res :=
  let c := s.cx
  if c.phase = .empty || c.due.isSome then wait s
  else if (myTile s).withdrawn then .next (saveForTest s s.cur)
  else if (tenantAt s (dieOf s.cur) c.tenant).exhausted then .next (saveForBudget s s.cur)
  else if c.debugHeld && s.inp.value = 5 then .next (beginSave s s.cur 5 none).2
  else wait s

/-! ### The image (Tables 1.6 to 1.8, R430) -/

/-- The unissued entries of a queue as they are saved: the 64-bit entry, its number, its extension, its operands. -/
structure Saved where
  word : Nat
  seq : Nat
  ext : Nat := 0
  vals : List Nat := []
  lane : Nat := 0
  deriving DecidableEq, Repr
/-- An entry's one or two places. -/
def saveEntry (e : Engine) (x : Entry) : List Saved :=
  let vals := (x.vals.getD []).map (·.toNat)
  let supplied := needsSupply e x && x.vals.isSome
  let ext := if x.marker then (if supplied then vals.headD 0 else 0)
    else match decodeEntry e x with
      | some i => if Instr.drawsRandom i then x.rsN else 0
      | none => 0
  let w := x.word + (if supplied then 2 ^ 61 else 0) + (if x.marker then 2 ^ 63 else 0)
  { word := w, seq := x.seq, ext := ext, vals := if supplied then vals else [], lane := x.lane }
    :: (match x.ext with
      | some y => [{ word := y + 2 ^ 62, seq := x.seq }]
      | none => [])
/-- The places of a queue. -/
def saveQueue (c : Ctx) (e : Engine) : List Saved := (c.queue e).flatMap (saveEntry e)
/-- The rows of a queue, and the row tags of a store queue, two to a byte. -/
def rowsBytes (l : List Row) : List Byte := l.flatMap (·.data)
def tagBytes (l : List Row) : List Byte :=
  padTo 16 ((chunks 2 (l.map (·.tag))).map fun x => BitVec.ofNat 8 (x.getD 0 0 + 16 * x.getD 1 0))
/-- The pairs of distinct engines in the order of the token channels. -/
def enginePairs : List (Engine × Engine) :=
  engines.flatMap fun e => (engines.filter fun f => f ≠ e).map fun f => (e, f)
/-- The sides of a copy at the first byte not yet written (R429). -/
def nextSides (x : Copy) : Word × Word :=
  match x.kind, layoutOf x.layout with
  | 2, some l =>
    if x.store then (tileAddr l x.moved, stridedAddr l x.dst x.aux x.moved)
    else (stridedAddr l x.src x.aux x.moved, tileAddr l x.moved)
  | _, _ => (x.src, x.dst)
/-- A window as a descriptor keeps it: `winbase` bits [63:45] and [19:12]. -/
def packWin (v : Nat) : Nat := bits v 45 19 * 2 ^ 13 + bits v 12 8 * 2 ^ 5
def unpackWin (v : Nat) : Nat := bits v 13 19 * 2 ^ 45 + bits v 5 8 * 2 ^ 12
/-- The windows of a copy's two sides, 0 where a side has none. -/
def sideWindows (x : Copy) : Nat × Nat :=
  let (a, b) := x.sides
  let w : Bool → List (Word × Nat) → Nat := fun vm l => if vm then 0 else spWin (l.headD (0, 0)).1
  (w x.srcVm a, w x.dstVm b)
/-- A pending copy descriptor (Table 1.8): bytes transferred are those that landed (R402, R429); of `CPYL`, whose position they
give, those of the rows that were sent. -/
def copyBytes (x : Copy) : List Byte :=
  let (src, dst) := nextSides x
  let (w, v) := sideWindows x
  let landed := if x.kind = 2 then x.moved else x.moved - x.refused
  let flags := (if x.ring.isSome then 1 else 0) + (if x.srcVm then 2 else 0) + (if x.dstVm then 4 else 0)
    + (if x.store then 8 else 0) + (if x.packed then 16 else 0) + (if x.inPlace then 32 else 0)
  leBytes 8 src.toNat ++ leBytes 8 dst.toNat ++ leBytes 4 x.rest ++ leBytes 4 landed ++ leBytes 8 x.layout
    ++ leBytes 1 x.kind ++ leBytes 1 (x.cc.getD 0xFF) ++ leBytes 2 (x.ring.getD 0 / 16) ++ leBytes 4 (x.bb.getD (2 ^ 32 - 1))
    ++ leBytes 1 flags ++ leBytes 1 0 ++ leBytes 2 (x.step (if v = 0 then w else v)) ++ leBytes 4 (packWin (x.win w))
    ++ leBytes 4 (packWin (x.win v))
    ++ leBytes 4 0 ++ leBytes 8 x.aux.toNat
/-- What is kept of a copy beside its descriptor. -/
def keepOf (x : Copy) : CopyKeep :=
  { seq := x.seq, refused := x.refused, wins := x.wins, done := x.done, data := x.data, ahead := x.ahead, whole := x.whole,
    loose := x.loose }
/-- The copies in issue order. -/
def copiesInOrder (c : Ctx) : List Copy := (c.copies.map (·.2)).mergeSort fun a b => a.seq ≤ b.seq
/-- A live binding (Table 1.6). -/
def streamBytes (x : Option Stream) : List Byte :=
  match x with
  | none => List.replicate 64 0
  | some x =>
    splice (splice x.desc 0x29 (leBytes 1 (x.queue + (if x.contour then 8 else 0) + 128))) 0x38 (leBytes 8 x.pushed)
/-- The header (Table 1.7) of the context at a place, saved for a reason, in a state. Word k of the group ids at 0x060 is
membership k's, 0 where it has none (DESIGN CHOICE, log 24). -/
def headerBytes (s : State) (p reason state : Nat) : List Byte :=
  let c := ctxAt s p
  let rep : List RepState := [c.repL, c.repS, c.repV]
  leBytes 4 0x53564131 ++ leBytes 2 1 ++ leBytes 2 state ++ leBytes 8 c.fetch.toNat ++ leBytes 8 c.record ++ leBytes 4 c.inst
    ++ leBytes 4 c.instCount ++ leBytes 8 p ++ leBytes 8 (datumOf s (dieOf p)) ++ leBytes 1 c.tenant ++ leBytes 1 c.priority
    ++ leBytes 1 c.req ++ leBytes 1 reason ++ leBytes 2 c.spadUnits ++ leBytes 2 c.accUnits
    ++ ((List.range 8).flatMap fun q => leBytes 1 (c.lrows q).length)
    ++ ((List.range 8).flatMap fun q => leBytes 1 (c.srows q).length)
    ++ (engines.flatMap fun e => leBytes 1 (saveQueue c e).length) ++ leBytes 2 0
    ++ (rep.flatMap fun r => leBytes 2 r.remaining)
    ++ leBytes 1 (((List.range 3).map fun k => if (rep.getD k {}).active then 2 ^ k else 0).sum) ++ leBytes 1 0
    ++ leBytes 4 c.copies.length ++ leBytes 4 c.grp.length
    ++ ((List.range 4).flatMap fun k => leBytes 4 ((alook c.grp k).getD 0))
    ++ leBytes 4 (c.chartGrp.getD (2 ^ 32 - 1)) ++ leBytes 4 0 ++ leBytes 8 c.spadBase
    ++ leBytes 8 (match c.chartGrp with
      | some id => freezeOf s id
      | none => 0)
    ++ leBytes 8 c.seqNext ++ leBytes 2 (ofSigned 16 c.depth) ++ (rep.flatMap fun r => leBytes 2 r.k)
    ++ (rep.flatMap fun r => leBytes 1 r.mask) ++ leBytes 5 0
    ++ (match c.asyncDue with
      | some t => leBytes 8 (trapWord t).toNat ++ leBytes 8 t.tval.toNat
      | none => leBytes 16 0)
    ++ List.replicate 0x50 0
/-- A 128-byte predicate. -/
def predBytes (v : BitVec 1024) : List Byte := leBytes 128 v.toNat
/-- The pieces of an image: offset and bytes. -/
def imagePieces (s : State) (p reason state : Nat) : List (Nat × List Byte) :=
  let c := ctxAt s p
  let copies := copiesInOrder c
  let queues := engines.map fun e => padSaved (saveQueue c e)
  let ops : Engine → Nat → List Byte := fun e n =>
    (padSaved (saveQueue c e)).flatMap fun x => (List.range n).flatMap fun k => leBytes 8 (x.vals.getD k 0)
  let snaps : List (Option (List Byte)) → List Byte := fun l => l.flatMap fun x => padTo 64 (x.getD [])
  [(0, headerBytes s p reason state),
    (0x100, (List.range 64).flatMap fun k => leBytes 8 (c.gr k).toNat),
    (0x300, (List.range 32).flatMap fun k => leBytes 8 (c.ar k).toNat),
    (0x400, (List.range 128).flatMap fun k => leBytes 8 (csrValue s p k).toNat),
    (0x800, (List.range 32).flatMap fun k => leBytes 2 (c.counter k)),
    (0x840, enginePairs.flatMap fun x => (List.range 8).flatMap fun ch => leBytes 1 (c.tokens (tokKey x.1 x.2 ch))),
    (0x930, (List.range 8).flatMap fun q => tagBytes (c.srows q)),
    (0xA00, (List.range 8).flatMap fun k => streamBytes (alook c.strm k)),
    (0xC00, copies.flatMap copyBytes),
    (0x1000, queues.flatMap fun q => q.flatMap fun x => leBytes 8 x.word),
    (0x1C00, (List.range 16).flatMap fun k => predBytes (c.pr k)),
    (0x2400, ops .x 6), (0x3000, ops .m 2),
    (0x3400, queues.flatMap fun q => q.flatMap fun x => leBytes 8 x.seq)]
  ++ ((List.range 8).map fun q => (0x4000 + 0x2000 * q, rowsBytes (c.lrows q)))
  ++ ((List.range 8).map fun q => (0x14000 + 0x2000 * q, rowsBytes (c.srows q)))
  ++ ((List.range 64).map fun k => (0x24000 + 0x1000 * k, elemBytes (c.vr k)))
  ++ ((List.range c.accCount).map fun k => (0x64000 + 0x400 * k, elemBytes (c.ac k)))
  ++ [(0xA4000, memRead c.spad 0 c.spadSize),
    (0x1A4000, queues.flatMap fun q => q.flatMap fun x => leBytes 8 x.ext),
    (0x1A4C00, snaps ((List.range 8).map fun k => (alook c.strm k).bind (·.snap))),
    (0x1A4E00, snaps (copies.map (·.snap))),
    (0x1A5200, padTo 64 (c.heldSnap.getD []))]
where
  padSaved (l : List Saved) : List Saved := l ++ List.replicate (64 - l.length) { word := 0, seq := 0 }

/-! ### Writing it (R45, step 5; R48) -/

/-- The focused context, at a place, is saved into an area, the lines of its stores published first (R123, R139); its slot
becomes empty. -/
def writeArea (s : State) (p area reason : Nat) : State :=
  let s0 := settle (publish s) p
  let c := ctxAt s0 p
  let d := dieOf p
  let s1 := (imagePieces s0 p reason (if c.phase = .dormant then 2 else 1)).foldl
    (fun s x => poke s c.tenant (area + x.1) x.2 false) s0
  let x : SavedCtx := {
    area := area, tenant := c.tenant, task := c.task, inst := c.inst, priority := c.priority, time := datumOf s0 d,
    ctxid := p, fault := c.fault, chartGrp := c.chartGrp, grp := c.grp, strmSeq := c.strm.map fun y => (y.1, y.2.seq),
    copies := (copiesInOrder c).map keepOf, lanes := engines.flatMap fun e => (saveQueue c e).map (·.lane),
    skipL := c.skipL, skipS := c.skipS, pending := c.asyncDue, refRec := c.refRec, spadUnits := c.spadUnits, accUnits := c.accUnits, hist := c.hist, debugHeld := c.debugHeld,
    armed := c.armed, triggered := c.triggered, dormant := c.phase = .dormant, reason := reason, since := s0.now,
    acct := c.acct }
  vacate (updDie s1 d fun y => { y with saved := y.saved ++ [x] }) p
/-- The save of the focused context may be written: it is drained, its copies have stopped, and it is in no handler; an
asynchronous trap that can be entered is entered first (R45, R379, R381). -/
def saveReady (s : State) : Bool :=
  !s.cx.handler && s.cx.drained && copiesStill s.cx && s.cx.trapDue.isNone && s.cx.heldReason.isNone
    && !(s.cx.asyncDue.isSome && asyncReady s.cx)
/-- What the image reads that holds an uncorrected error: a scratchpad word, an element of a register, an accumulator or a row
(R408); its unit and address. -/
def badImage (c : Ctx) : Option (Nat × Nat) :=
  ((c.bad.find? fun b => b % 2 = 1).map fun b => (0x10, c.spadBase + 8 * (b / 2))).or
    (((badArrays c).find? (·.uncorrected)).map fun b => (b.unit, b.addr))
/-- `SAVE_AREA_WRITE` (R45, step 5): the context is written to the lowest free area, its time charged to the payer;
where no area is left it is held. -/
def execSaveAreaWrite (s : State) : Res :=
  match s.cx.due with
  | some (.preempt reason payer) =>
    if !saveReady s then wait s
    else
      let d := dieOf s.cur
      match badImage s.cx with
      | some (unit, addr) => .next (eccStop s unit addr)
      | none =>
        match freeAreas s d s.cx.tenant with
        | [] => .next { s with cx := { s.cx with heldReason := some reason } }
        | a :: _ =>
          let n := Config.freeNat s.free
          let s1 := writeArea { s with free := s.free + 1 } s.cur a reason
          .next (match payer with
            | some t => updTenant s1 d t fun x => { x with ctxused := x.ctxused + n }
            | none => s1)
  | _ => wait s

/-! ### Reading it back (R46, R47, R431, R435) -/

/-- `n` bytes at an offset of an area, as a number. -/
def areaNat (s : State) (area o n : Nat) : Nat := leNat (peek s (area + o) n)
/-- The counts of a header are in their ranges, the magic and version as written. -/
def headerOk (s : State) (area : Nat) : Bool :=
  let f := areaNat s area
  f 0 4 = 0x53564131 && f 4 2 = 1 && 1 ≤ f 0x34 2 && f 0x34 2 ≤ 16 && f 0x36 2 ≤ 16
    && (List.range 16).all (fun k => f (0x38 + k) 1 ≤ 32) && (List.range 6).all (fun k => f (0x48 + k) 1 ≤ 64)
    && f 0x58 4 ≤ 16 && f 0x5C 4 ≤ 4
/-- The entries of a queue from its places; an entry's line is read from the fetch pointer, which a line-ending
instruction holds (R178). -/
def readEntries (e : Engine) (line : Word) : List (Saved × Nat) → List Entry
  | [] => []
  | (x, lane) :: r =>
    if bitOf x.word 62 then readEntries e line r
    else
      let marker := bitOf x.word 63
      let ext := match r with
        | (y, _) :: _ => if bitOf y.word 62 then some (y.word % 2 ^ 32) else none
        | [] => none
      let y : Entry := { word := x.word % 2 ^ 32, ext := ext, marker := marker, seq := x.seq, lane := lane, line := line,
                         rsN := if marker then 0 else x.ext }
      let n := match decodeEntry e y with
        | some i => (Instr.supplied i).length
        | none => 0
      let vals := if marker then [x.ext] else x.vals.take n
      { y with vals := if bitOf x.word 61 then some (vals.map (BitVec.ofNat 64 ·)) else none } :: readEntries e line r
/-- The saved places of queue `k`, with their lanes. -/
def readPlaces (s : State) (area k : Nat) (lanes : List Nat) : List (Saved × Nat) :=
  let f := areaNat s area
  (List.range (f (0x48 + k) 1)).map fun j =>
    ({ word := f (0x1000 + 512 * k + 8 * j) 8, seq := f (0x3400 + 512 * k + 8 * j) 8, ext := f (0x1A4000 + 512 * k + 8 * j) 8
       vals := if k = 5 then (List.range 6).map fun v => f (0x2400 + 48 * j + 8 * v) 8
         else if k = 4 then (List.range 2).map fun v => f (0x3000 + 16 * j + 8 * v) 8 else [] }, lanes.getD j 0)
/-- The rows of a queue from an area. -/
def readRowsAt (s : State) (area o n tags : Nat) : List Row :=
  (List.range n).map fun k =>
    { data := peek s (area + o + 256 * k) 256
      tag := if tags = 0 then 0 else bits (areaNat s area (tags + k / 2) 1) (4 * (k % 2)) 4 }
/-- A snapshot from an area, where the binding or copy names a legend. -/
def readSnap (s : State) (area o : Nat) (named : Bool) : Option (List Byte) := if named then some (peek s (area + o) 64) else none
/-- A live binding from an area. -/
def readStream (s : State) (area k seq : Nat) : Option Stream :=
  let b := peek s (area + 0xA00 + 64 * k) 64
  let x := fieldAt b 0x29 1
  if !bitOf x 7 then none
  else
    let desc := splice (splice b 0x29 (leBytes 1 0)) 0x38 (leBytes 8 0)
    let d := streamDesc desc
    some { desc := desc, queue := x % 8, contour := bitOf x 3, pushed := fieldAt b 0x38 8,
           snap := readSnap s area (0x1A4C00 + 64 * k) (d.virt && d.legend ≠ 0xFFFF), seq := seq }
/-- A pending copy from its descriptor and what is kept beside it, reissued with what is left of it (R46, R429). -/
def readCopy (s : State) (area k : Nat) (kept : CopyKeep) : Copy :=
  let b := peek s (area + 0xC00 + 64 * k) 64
  let flags := fieldAt b 0x28 1
  let kind := fieldAt b 0x20 1
  let moved := fieldAt b 0x14 4 + if kind = 2 then 0 else kept.refused
  let aux := BitVec.ofNat 64 (fieldAt b 0x38 8)
  let layout := fieldAt b 0x18 8
  let src := BitVec.ofNat 64 (fieldAt b 0 8)
  let dst := BitVec.ofNat 64 (fieldAt b 8 8)
  let ring := if bitOf flags 0 then some (16 * fieldAt b 0x22 2) else none
  let back : Word → Word := fun v =>
    match layoutOf layout with
    | some l => v - stridedAddr l 0 aux moved
    | none => v
  let tile : Word := match layoutOf layout with
    | some l => BitVec.ofNat 64 l.base
    | none => 0
  let store := bitOf flags 3
  let x : Copy := {
    kind := kind
    src := if kind = 2 then (if store then tile else back src) else src
    dst := if kind = 2 then (if store then back dst else tile) else dst
    rest := fieldAt b 0x10 4, moved := moved, layout := layout
    cc := if fieldAt b 0x21 1 = 0xFF then none else some (fieldAt b 0x21 1 % 32), ring := ring
    claim := match ring with
      | some o => areaNat s area (0xA4000 + o) 4
      | none => 0
    bb := if fieldAt b 0x24 4 = 2 ^ 32 - 1 then none else some (fieldAt b 0x24 4), srcVm := bitOf flags 1
    dstVm := bitOf flags 2, store := store, packed := bitOf flags 4, inPlace := bitOf flags 5, aux := aux
    snap := readSnap s area (0x1A4E00 + 64 * k) (kind = 4), seq := kept.seq, refused := kept.refused, wins := kept.wins
    done := kept.done, data := kept.data, ahead := kept.ahead, whole := kept.whole, loose := kept.loose }
  let (w, v) := sideWindows x
  let given : Assoc (Nat × Nat) := [(w, unpackWin (fieldAt b 0x2C 4), fieldAt b 0x2A 2), (v, unpackWin (fieldAt b 0x30 4), fieldAt b 0x2A 2)]
  { x with wins := (given.filter fun y => y.1 ≠ 0).foldl (fun m y => aset m y.1 y.2) x.wins }
/-- The trap a word of `trapcause` and a `tval` stand for. -/
def trapOfWord (w v : Nat) : Trap :=
  { cls := bits w 12 4, code := bits w 0 12, eng := bits w 16 4, lane := bits w 20 4, seq := bits w 24 24,
    tval := BitVec.ofNat 64 v }
/-- A map from the values of the first `n` keys, those equal to `z` left out. -/
def tableOf {α : Type} [DecidableEq α] (z : α) (n : Nat) (f : Nat → α) : Assoc α :=
  (List.range n).filterMap fun k => if f k = z then none else some (k, f k)
/-- The elements of 4 bytes from an area. -/
def readElems (s : State) (area o n : Nat) : List Elem := (chunks 4 (peek s (area + o) (4 * n))).map fun b => BitVec.ofNat 32 (leNat b)
/-- The bytes of an allotment, those that are zero left out. -/
def readImage (s : State) (area n : Nat) : Mem :=
  ((peek s (area + 0xA4000) n).zipIdx.filter fun x => x.1 ≠ 0).map fun x => (x.2, x.1)
/-- The lanes of queue `k` among those of all. -/
def lanesAt (s : State) (area k : Nat) (l : List Nat) : List Nat :=
  l.drop ((List.range k).map fun j => areaNat s area (0x48 + j) 1).sum
/-- The membership whose release came while the context was away (R232). -/
def releasedAway (s : State) (v : Word) (id : Nat) : Option Nat :=
  match groupAt s id with
  | none => none
  | some g =>
    let n := (g.generation + 2 ^ 32 - wbits v 0 32) % 2 ^ 32
    if bitOf v.toNat 63 && 0 < n && n < 2 ^ 31 then some (wbits v 0 32) else none
/-- The accounts of a restored context: time saved with reason 1 is throttled by the budget (Table 11.4). -/
def savedAcct (s : State) (x : SavedCtx) : Acct :=
  if x.reason = 1 then { x.acct with budget := x.acct.budget + 8 * datumSince s (dieOf x.ctxid) x.since } else x.acct
/-- The context an area holds, placed with its allotments at two addresses (R46, R47, R431). -/
def readArea (s : State) (x : SavedCtx) (spadBase accBase : Nat) (t : Option Task) : Ctx :=
  let a := x.area
  let f := areaNat s a
  let fetch := BitVec.ofNat 64 (f 8 8)
  let rep : Nat → RepState := fun k =>
    { active := bitOf (f 0x56 1) k, remaining := f (0x50 + 2 * k) 2, k := f (0x92 + 2 * k) 2, mask := f (0x98 + k) 1 }
  let q : Engine → Nat → List Entry := fun e k => readEntries e (fetch - 32) (readPlaces s a k (lanesAt s a k x.lanes))
  let word : Nat → Nat → Word := fun o k => BitVec.ofNat 64 (f (o + 8 * k) 8)
  let grpgen : Nat → Word := word (0x400 + 8 * 0x44)
  let c : Ctx := {
    phase := if f 6 2 = 2 then .dormant else .running
    g := tableOf 0 64 fun k => if k = 0 then 0 else word 0x100 k
    a := tableOf 0 32 (word 0x300)
    csr := tableOf 0 128 (word 0x400)
    cc := tableOf 0 32 fun k => f (0x800 + 2 * k) 2
    tok := (enginePairs.zipIdx.flatMap fun y => (List.range 8).map fun ch =>
      (tokKey y.1.1 y.1.2 ch, f (0x840 + 8 * y.2 + ch) 1)).filter fun y => y.2 ≠ 0
    fetch := fetch, qC := q .c 0, qL := q .l 1, qS := q .s 2, qV := q .v 3, qM := q .m 4, qX := q .x 5
    lq := tableOf [] 8 fun k => readRowsAt s a (0x4000 + 0x2000 * k) (f (0x38 + k) 1) 0
    sq := tableOf [] 8 fun k => readRowsAt s a (0x14000 + 0x2000 * k) (f (0x40 + k) 1) (0x930 + 16 * k)
    strm := (List.range 8).filterMap fun k => (readStream s a k ((alook x.strmSeq k).getD 0)).map fun y => (k, y)
    v := tableOf zeroV 64 fun k => readElems s a (0x24000 + 0x1000 * k) 1024
    p := tableOf 0 16 fun k => if k = 0 then 0 else BitVec.ofNat 1024 (f (0x1C00 + 128 * k) 128)
    acc := (List.range (16 * f 0x36 2)).map fun k => (k, readElems s a (0x64000 + 0x400 * k) 256)
    accUnits := f 0x36 2, accBase := accBase, spad := readImage s a (65536 * f 0x34 2), spadUnits := f 0x34 2
    spadBase := spadBase, grp := x.grp, chartGrp := if f 0x70 4 = 2 ^ 32 - 1 then none else some (f 0x70 4)
    repL := rep 0, repS := rep 1, repV := rep 2
    copies := (List.range (f 0x58 4)).map fun k => (k, readCopy s a k (x.copies.getD k { seq := 0 }))
    entitle := match t with
      | some t => t.g5
      | none => 0
    heldSnap := if bitOf (word 0x400 0x00F).toNat 63 then readSnap s a 0x1A5200 (leNat (peek s (a + 0x1A5200) 64) ≠ 0) else none
    asyncDue := if f 0xA0 8 = 0 then none
      else some ((x.pending.filter fun t => (trapWord t).toNat = f 0xA0 8).getD (trapOfWord (f 0xA0 8) (f 0xA8 8)))
    skipL := x.skipL, skipS := x.skipS, refRec := x.refRec, debugHeld := x.debugHeld, fault := x.fault.map fun y => { y with retry := true }
    seqNext := f 0x88 8, depth := toSigned 16 (f 0x90 2), armed := x.armed, task := x.task, inst := f 0x18 4
    instCount := f 0x1C 4, record := f 0x10 8, triggered := x.triggered, acct := savedAcct s x, since := s.now
    priority := f 0x31 1, hist := x.hist, freeze := f 0x80 8
    rel := x.grp.filterMap fun y => (releasedAway s (grpgen y.1) y.2).map fun g => (y.1, g) }
  { c with fetchHold := c.lineHeld }

end Sys2Proof.Machine
end

