-- ==== Sys2Proof/Machine/Sched.lean ====
section
/-! DEFINITION. The scheduler: claimants, resolution, placement, priority pre-emption, restore and tenant budgets (01, R18
to R23, R34, R47; 05, R150, R153 to R162; 17, R426, R427, R431, R435; 19, R473, R476, R478). -/
namespace Sys2Proof.Machine

/-! ### Where an instance fits (R21, R157) -/

/-- The scheduler may place on a tile: its die runs at stage 2, and the tile is not withdrawn, fenced, lost or critical. -/
def tileOpen (s : State) (t : Nat) : Bool :=
  let x := tileAt s t
  let d := dieAt s (t / 2 ^ 7)
  d.powered && d.halted.isNone && d.stage = 2 && !x.withdrawn && !x.fenced && x.testing.isNone && !x.critical
/-- The lowest place of `n` units among 16 that meets none of the ranges in use. -/
def lowestFit (used : List (Nat × Nat)) (n : Nat) : Option Nat :=
  (List.range (17 - n)).find? fun k => used.all fun u => u.2 = 0 || n = 0 || k + n ≤ u.1 || u.1 + u.2 ≤ k
/-- The slot, scratchpad base and first accumulator an instance gets on a tile, the contexts of `gone` apart. -/
def fitsOn (s : State) (t spad acc : Nat) (gone : List Nat) : Option (Nat × Nat × Nat) :=
  if !tileOpen s t then none
  else
    let here := (residents s t).filter fun p => !gone.contains p
    match (List.range 8).find? fun k => !here.contains (t * 2 ^ 15 + k * 2 ^ 12),
        lowestFit (here.map fun p => ((ctxAt s p).spadBase / 65536, (ctxAt s p).spadUnits)) spad,
        lowestFit (here.map fun p => ((ctxAt s p).accBase / 16, (ctxAt s p).accUnits)) acc with
    | some k, some a, some b => some (t * 2 ^ 15 + k * 2 ^ 12, 65536 * a, 16 * b)
    | _, _, _ => none
/-- The tiles of a die. -/
def tilesOf (d : Nat) : List Nat := (List.range 128).map fun k => d * 2 ^ 7 + k

/-! ### Claimants (R157) -/

/-- What the scheduler serves: a saved context, or the next instance of a task. -/
inductive Claim where
  | restore (x : SavedCtx)
  | place (t : Task)
  deriving DecidableEq, Repr
/-- A task has an unplaced instance. -/
def unplaced (t : Task) : Bool :=
  (t.state = .ready || t.state = .dispatching) && t.stopping.isNone && (!t.resolved || t.placed < t.count)
/-- The claimant of a tenant at a priority: saved contexts first, by their save times; then tasks in enqueue order. -/
def tenantClaim (s : State) (d pri tenant : Nat) : Option Claim :=
  let x := dieAt s d
  match x.saved.find? fun y => y.tenant = tenant && y.priority = pri with
  | some y => some (.restore y)
  | none => (x.tasks.find? fun t => t.tenant = tenant && t.priority = pri && unplaced t).map .place
/-- The tenants with a claimant at a priority that are not exhausted. -/
def claims (s : State) (d pri tenant : Nat) : Bool :=
  !(tenantAt s d tenant).exhausted && (tenantClaim s d pri tenant).isSome
/-- The claimant that is served: its priority, its tenant and what it is. -/
def nextClaim (s : State) (d : Nat) : Option (Nat × Nat × Claim) :=
  match [3, 2, 1, 0].find? fun pri => (List.range 16).any (claims s d pri) with
  | none => none
  | some pri =>
    match rotate (zlook 0 (dieAt s d).tenantPtr pri) 16 (claims s d pri) with
    | none => none
    | some t => (tenantClaim s d pri t).map fun c => (pri, t, c)
/-- The allotments of a claimant, in units. -/
def Claim.units : Claim → Nat × Nat
  | .restore x => (x.spadUnits, x.accUnits)
  | .place t => (recSpad t.record, recAcc t.record)
/-- A chart member is not restored on a tile that cannot reach its group's gear, once that was found (R473). -/
def gearFits (s : State) (t : Nat) : Claim → Bool
  | .place _ => true
  | .restore x =>
    match x.chartGrp with
    | none => true
    | some id =>
      match groupAt s id with
      | none => true
      | some g =>
        let y := tileAt s t
        let most := if (clusterAt s (t / 128) (t % 128 / 8)).biasFailed then min 2 y.gearMax else y.gearMax
        g.gearTraps = 0 || g.gear ≤ most
/-- The tile a claimant is placed on, by rotation among those it fits on, with its slot and allotments. -/
def chooseTile (s : State) (d : Nat) (c : Claim) (gone : List Nat) : Option (Nat × Nat × Nat × Nat) :=
  let (sp, ac) := c.units
  let ok : Nat → Bool := fun k => gearFits s (d * 128 + k) c && (fitsOn s (d * 128 + k) sp ac gone).isSome
  match rotate (dieAt s d).tilePtr 128 ok with
  | none => none
  | some k => (fitsOn s (d * 128 + k) sp ac gone).map fun (p, a, b) => (k, p, a, b)
/-- The pointers after a grant. -/
def granted (s : State) (d pri tenant tile : Nat) : State :=
  updDie s d fun x => { x with tilePtr := tile + 1, tenantPtr := zset 0 x.tenantPtr pri (tenant + 1) }

/-! ### Resolution (R153 to R155) -/

/-- The governor width of a task (R153): 16 where no legend is named; free where the setting is reserved, or where the legend
cannot be read now (DESIGN CHOICE, log 17). -/
def governorWidth (s : State) (d : Nat) (t : Task) : Nat :=
  if fieldAt t.record 0x28 2 = 0xFFFF then 16
  else
    match (tenantLegend s d t.tenant (fieldAt t.record 0x28 2)).bind fun l => settingWidth l.cur with
    | some w => w
    | none => Config.freeNat s.free
/-- Spans wanted at a width and a reference width. -/
def spansWanted (w rw : Nat) : Nat := if w < rw then max 1 (16 / 4 ^ Nat.log2 (rw / w)) else 16
/-- The first element under an order of preference. -/
def best {α : Type} (better : α → α → Bool) : List α → Option α
  | [] => none
  | x :: r =>
    match best better r with
    | none => some x
    | some y => if better y x then some y else some x
/-- The shape of a task and its instance count, with `f` tiles free for it (R155). -/
def chooseShape (r : List Byte) (f : Nat) : Option ((Nat × Nat) × Nat) :=
  let area : Nat × Nat → Nat := fun x => x.1 * x.2
  let larger : Nat × Nat → Nat × Nat → Bool := fun a b => area b < area a || (area a = area b && b.1 < a.1)
  let smaller : Nat × Nat → Nat × Nat → Bool := fun a b => area a < area b || (area a = area b && b.1 < a.1)
  let n := fieldAt r 0x24 2
  if n = 0 then
    let l := (recShapes r).filter fun x => shapeCount r x ≤ 65535
    let m := min f ((l.map (shapeCount r)).foldl max 0)
    (best larger (l.filter fun x => m ≤ shapeCount r x)).map fun x => (x, shapeCount r x)
  else if recShapes r = [] then some ((0, 0), n)
  else
    match best smaller ((recShapes r).filter fun x => shapeCount r x ≤ n) with
    | some x => some (x, n)
    | none => (best larger (recShapes r)).map fun x => (x, n)
/-- Tiles of the die with an empty slot where a task fits. -/
def freeTiles (s : State) (d : Nat) (t : Task) : Nat :=
  ((tilesOf d).filter fun k => (fitsOn s k (recSpad t.record) (recAcc t.record) []).isSome).length
/-- A task resolved with its instance 0 going to a tile (R153 to R155). -/
def resolve (s : State) (d tile : Nat) (t : Task) : Task :=
  if t.resolved then t
  else
    let w := governorWidth s d t
    let p := max 1 (pow2Below (spansFree s tile))
    let (x, n) := (chooseShape t.record (freeTiles s d t)).getD ((0, 0), t.count)
    { t with resolved := true, g3 := x.1, g4 := x.2, g5 := min (spansWanted w (recWidth t.record)) p, g6 := w, count := n }

/-! ### Placement (R23, R34, R222) -/

/-- The bytes an allotment starts with: what the same tenant left, zero elsewhere (R23). -/
def inherited (s : State) (t base units tenant : Nat) : Mem :=
  let x := tileAt s t
  (memCut x.left base (65536 * units) 0).filter fun e => alook x.leftTenant ((base + e.1) / 65536) = some tenant
/-- The spoiled words an allotment takes over with its bytes. -/
def inheritedBad (s : State) (t base units tenant : Nat) : List Nat :=
  let x := tileAt s t
  (x.leftBad.filter fun b => base ≤ 8 * (b / 2) && 8 * (b / 2) < base + 65536 * units
    && alook x.leftTenant (8 * (b / 2) / 65536) = some tenant).map fun b => b - 2 * (base / 8)
/-- The context of an instance at its placement (Table 1.3, R75, R222, Table 7.6). -/
def freshCtx (s : State) (d : Nat) (t : Task) (i place spadBase accBase : Nat) : Ctx :=
  let r := t.record
  let x := tenantAt s d t.tenant
  let g : List (Nat × Nat) := [(1, i), (2, t.count), (3, t.g3), (4, t.g4), (5, t.g5), (6, t.g6), (7, t.recordVa)]
  let size := 65536 * recSpad r
  let csr : List (Nat × Word) :=
    [(0x000, BitVec.ofNat 64 (recGear r)), (0x001, BitVec.ofNat 64 (16 * t.tenant + t.priority)),
      (0x002, BitVec.ofNat 64 (size - recStack r)), (0x003, BitVec.ofNat 64 size), (0x004, BitVec.ofNat 64 size),
      (0x009, x.tvec),
      (0x00C, mix64 (BitVec.ofNat 64 (fieldAt r 0x10 8) + BitVec.ofNat 64 ((i + 1) * 0x9E3779B97F4A7C15))),
      (0x00E, x.atlasbase), (0x010, x.govbase)]
  let c : Ctx := {
    phase := .running, fetch := BitVec.ofNat 64 (fieldAt r 0 8), accUnits := recAcc r, accBase := accBase
    spad := inherited s (tileOf place) spadBase (recSpad r) t.tenant, spadUnits := recSpad r, spadBase := spadBase
    bad := inheritedBad s (tileOf place) spadBase (recSpad r) t.tenant, entitle := t.g5, task := t.handle, inst := i
    instCount := t.count, record := t.recordVa, since := s.now, priority := t.priority }
  let c1 := g.foldl (fun c x => c.setG x.1 (BitVec.ofNat 64 x.2)) c
  csr.foldl (fun c x => c.setCr x.1 x.2) c1
/-- An allotment is taken out of what its tile keeps of departed contexts. -/
def takeAllotment (s : State) (t base units : Nat) : State :=
  updTile s t fun x => { x with
    left := memClear x.left base (65536 * units)
    leftTenant := x.leftTenant.filter fun e => e.1 < base / 65536 || base / 65536 + units ≤ e.1
    leftBad := x.leftBad.filter fun b => !(base ≤ 8 * (b / 2) && 8 * (b / 2) < base + 65536 * units) }
/-- The next instance of a task goes to a slot. -/
def placeAt (s : State) (d : Nat) (t : Task) (tile place spadBase accBase : Nat) : State :=
  let u := resolve s d (d * 128 + tile) t
  let c := freshCtx s d u u.placed place spadBase accBase
  let s1 := takeAllotment { s with free := s.free + 1 } (tileOf place) spadBase (recSpad u.record)
  let v := { u with placed := u.placed + 1, state := if u.placed + 1 = u.count then .placed else .dispatching }
  setCtx (updTask s1 d t.handle fun _ => v) place c

/-! ### Priority pre-emption (R158, R426) -/

/-- The contexts of a tile that a claimant of priority `p` may displace, lowest priority first, then highest slot. -/
def victims (s : State) (t p : Nat) : List Nat :=
  [0, 1, 2].flatMap fun k => (residents s t).reverse.filter fun q =>
    (ctxAt s q).priority = k && k < p && !(ctxAt s q).stopDue && !savePending (ctxAt s q)
/-- Contexts on their way out of a tile. -/
def leaving (s : State) (t : Nat) : List Nat := (residents s t).filter fun q => savePending (ctxAt s q) || (ctxAt s q).stopDue
/-- The fewest of the victims, in order, whose departure lets a claimant fit. -/
def toFree (s : State) (t sp ac : Nat) (l : List Nat) : Option (List Nat) :=
  ((List.range (l.length + 1)).find? fun n => (fitsOn s t sp ac (leaving s t ++ l.take n)).isSome).map fun n => l.take n
/-- What is saved on a tile for a claimant: the victims, and whether every one, with its group, has an area. -/
def freeingPlan (s : State) (t pri : Nat) (c : Claim) : Option (List Nat × Bool) :=
  let (sp, ac) := c.units
  if !gearFits s t c then none
  else (toFree s t sp ac (victims s t pri)).map fun l => (l, areasFor s ((l.flatMap (savedWith s)).eraseDups))
/-- A claimant that fits nowhere pre-empts with reason 2, or has one record written that areas are lacking. -/
def makeRoom (s : State) (d pri tenant : Nat) (c : Claim) : State :=
  let plan : Nat → Option (List Nat × Bool) := fun k => freeingPlan s (d * 128 + k) pri c
  if (List.range 128).any fun k => plan k = some ([], true) then s
  else
  match rotate (dieAt s d).tilePtr 128 fun k => (plan k).any (·.2) with
  | some k =>
    let l := ((plan k).map (·.1)).getD []
    l.foldl (fun s q => if savePending (ctxAt s q) then s else (beginSave s q 2 (some tenant)).2) s
  | none =>
    let lacking := (List.range 128).any fun k => (plan k).isSome
    match c with
    | .place t =>
      if lacking && !t.noArea then updTask (noAreaRecord s d tenant) d t.handle fun t => { t with noArea := true } else s
    | .restore x =>
      if lacking && !x.noArea then
        updDie (noAreaRecord s d tenant) d fun y => { y with
          saved := y.saved.map fun z => if z.area = x.area then { z with noArea := true } else z }
      else s
/-- `PLACE_INSTANCE` (R155, R157, R158): the next claimant of the focused die is placed, where it is an instance; where it
fits nowhere, contexts of lower priority are pre-empted for it. -/
def execPlaceInst (s : State) : Res :=
  let d := dieOf s.cur
  match nextClaim s d with
  | none => wait s
  | some (pri, tenant, c) =>
    match chooseTile s d c [] with
    | some (tile, p, a, b) =>
      (match c with
        | .place t => .next (placeAt (granted s d pri tenant tile) d t tile p a b)
        | .restore _ => wait s)
    | none => .next (makeRoom s d pri tenant c)

/-! ### Restore (R118, R431, R435) -/

/-- The lock entries that hold no translation are walked before anything issues; a walk that fails is a page fault. -/
def relock : List Nat → State → State
  | [], s => s
  | k :: r, s =>
    let v := s.cx.cr (0x050 + k)
    if !bitOf v.toNat 63 || (alook s.cx.lockTr k).isSome then relock r s
    else
      let va := v.toNat % 2 ^ 57 / 2 ^ 16 * 2 ^ 16
      let (w, ks) := walk s (dieOf s.cur) s.cx.tenant va
      let s1 := ks.foldl (fun s k => touch s s.cx.tenant k 8) s
      if ks.any fun k => eccLevel s1 k 8 = 2 then walkStop s1 va
      else
        match w with
        | .page t => relock r { s1 with cx := { s1.cx with lockTr := aset s1.cx.lockTr k t } }
        | .fault cause level => pageFault s1 .x va cause 5 level
/-- A saved context whose area cannot be used is lost: its record, and the stop of its task with reason 13. -/
def areaLost (s : State) (d : Nat) (x : SavedCtx) (ecc : Bool) : State :=
  let s1 := writeRecord { s with free := if ecc then s.free + 1 else s.free } d
    { kind := 8, sev := 3, unit := 0x40, addr := x.area % 2 ^ 44, value := if ecc then syndrome s else areaNat s x.area 0 4,
      action := 4, place := diePlace d, task := x.task, inst := x.inst, tenant := x.tenant, detail := leBytes 1 4 }
  stopTask (updDie s1 d fun y => { y with saved := y.saved.filter fun z => z.area ≠ x.area }) d x.task 13 none none
/-- A group that is gone answers a restored member that waits for it. -/
def tellLost (s : State) : State :=
  s.cx.grp.foldl (fun s y =>
    if (groupAt s y.2).isSome then s
    else sendPacket s { src := homeOf y.2, dst := s.cur, cls := 2, tenant := s.cx.tenant, task := s.cx.task, inst := s.cx.inst,
                        body := .groupLost y.2, since := s.now }) s
/-- The copies of the focused context as its new tile has them: bytes that overlap there too are undefined (R266). -/
def reissue (s : State) : State :=
  { s with cx := { s.cx with copies := s.cx.copies.map fun e => (e.1, { e.2 with loose := e.2.loose || (e.2.overlapped s).loose }) } }
/-- The saved context takes its slot: loaded, its locks walked, its chart group unfrozen on its part where nothing holds it. The
tile's L1 lines are dropped: they may be older than what it has read or written (R129, R139). -/
def restoreAt (s : State) (d : Nat) (x : SavedCtx) (place spadBase accBase : Nat) : State :=
  let s1 := takeAllotment s (tileOf place) spadBase x.spadUnits
  let c := readArea s1 x spadBase accBase (taskAt s1 d x.task)
  let n := Config.freeNat s1.free
  let s2 := updTenant { s1 with free := s1.free + 1 } d x.tenant fun t => { t with ctxused := t.ctxused + n }
  let s3 := updDie s2 d fun y => { y with saved := y.saved.filter fun z => z.area ≠ x.area }
  let s4 := updTile (focus (setCtx s3 place c) place) (tileOf place) fun t => { t with l1 := [], l1Bad := [] }
  tellLost (thawChart (relock (List.range 16) (reissue s4)) place)
/-- `CONTEXT_RESTORE` (R431, R435): the next claimant, where it is a saved context, is restored on the tile chosen. -/
def execContextRestore (s : State) : Res :=
  let d := dieOf s.cur
  match nextClaim s d with
  | some (pri, tenant, .restore x) =>
    match chooseTile s d (.restore x) [] with
    | none => wait s
    | some (tile, p, a, b) =>
      if eccLevel s x.area areaBytes = 2 then .next (areaLost s d x true)
      else if !headerOk s x.area then .next (areaLost s d x false)
      else .next (restoreAt (granted s d pri tenant tile) d x p a b)
  | _ => wait s

/-! ### Budgets (R160, R161, R426, R427) -/

/-- The accounts of every context of a die are brought up to now. -/
def settleDie (s : State) (d : Nat) : State := (dieResidents s d).foldl settle s
/-- A context held in its slot runs again at the period start. -/
def unhold (s : State) (p : Nat) : State :=
  if (ctxAt s p).heldReason = some 1 then thawChart (updCtx s p fun c => { c with due := none, heldReason := none }) p
  else s
/-- A tenant's entry at a period start: used counters zero, and the periods it has starved counted (R427). -/
def newPeriod (s : State) (d t : Nat) (x : Tenant) : Tenant :=
  let ran := x.issued || (dieResidents s d).any fun p => (ctxAt s p).tenant = t && (ctxAt s p).issuedAny
  let waits := [3, 2, 1, 0].any fun pri => (tenantClaim s d pri t).isSome
  { x with
    ctxused := 0, spanused := 0, dramused := 0, linkused := 0, exhausted := false, heldRecorded := false, issued := false
    starved := if x.exhausted && waits && !ran then x.starved + 1 else 0 }
/-- `BUDGET_PERIOD_START` (R160, R161, R426): the focused die's datum time reaches a multiple of 100,000 ns. -/
def execBudgetPeriodStart (s : State) : Res :=
  let d := dieOf s.cur
  let n := datumOf s d / 100000
  if n ≤ (dieAt s d).period then wait s
  else
    let s1 := settleDie s d
    let s2 := updDie s1 d fun x => { x with period := n, tenants := x.tenants.map fun e => (e.1, newPeriod s1 d e.1 e.2) }
    let s3 := (dieResidents s2 d).foldl (fun s p => updCtx s p fun c => { c with issuedAny := false }) s2
    .next ((dieResidents s3 d).foldl (fun s p => (savedWith s p).foldl unhold s) s3)
/-- A used counter has reached its budget. -/
def overBudget (x : Tenant) : Bool :=
  let spent : Nat → Nat → Bool := fun used bud => bud ≠ 2 ^ 64 - 1 && bud ≤ used
  spent x.ctxused x.ctxbud || spent x.spanused x.spanbud || spent x.dramused x.drambud || spent x.linkused x.linkbud
/-- `BUDGET_EXHAUSTED` (R161): the tenant of the event is exhausted, and its contexts on the die are pre-empted. -/
def execBudgetExhausted (s : State) : Res :=
  let d := dieOf s.cur
  let s1 := settleDie s d
  let t := s.inp.tenant
  let x := tenantAt s1 d t
  if x.exhausted || !overBudget x then .next s1
  else
    let s2 := updTenant s1 d t fun x => { x with exhausted := true }
    .next (((dieResidents s2 d).filter fun p => (ctxAt s2 p).tenant = t).foldl saveForBudget s2)
/-- `TENANT_STARVATION` (R427): after 64 periods the tenant's earliest task on the die is stopped with reason 12. -/
def execTenantStarvation (s : State) : Res :=
  let d := dieOf s.cur
  let t := s.inp.tenant
  if (tenantAt s d t).starved < 64 then wait s
  else
    let s1 := updTenant s d t fun x => { x with starved := 0 }
    match (dieAt s d).tasks.find? fun y => y.tenant = t with
    | none => .next s1
    | some y =>
      let r : ErrRec := { kind := 8, sev := 3, unit := 0x40, value := t + y.handle * 2 ^ 32, action := 4, task := y.handle,
                          tenant := t, place := diePlace d, detail := leBytes 1 5 }
      .next (stopTask (writeRecord s1 d r) d y.handle 12 none none)

end Sys2Proof.Machine
end

