-- ==== Sys2Proof/Machine/Stop.lean ====
section
/-! DEFINITION. The end of a stopped task, its dumps, the halt of a die and the host's answers to page faults (15, R384 to
R386, R389; 16, R411, R412; 17, R436 to R442; 18, R459). -/
namespace Sys2Proof.Machine

/-! ### The stop of a task (R384, R385) -/

/-- The error record of a stop (R389, Table 15.6): kind 1 where a trap ended in it, else kind 2. -/
def stopRecord (s : State) (d : Nat) (t : Task) (reason halt : Nat) : ErrRec :=
  let tr := t.stopTrap
  let x : Trap := tr.getD { cls := 0, code := 0 }
  { kind := if tr.isSome then 1 else 2, sev := 3, unit := if tr.isSome && x.eng ≠ 0 then x.eng else 0x40, eng := x.eng,
    cause := x.code, value := x.tval.toNat, action := 4, place := t.culprit.getD (diePlace d), tileValid := t.culprit.isSome,
    slotValid := t.culprit.isSome, seq := x.seq, pc := t.stopPc, task := t.handle, inst := t.stopInst, tenant := t.tenant,
    time := some t.stopTime,
    detail := leBytes 8 (if tr.isSome then (trapWord x).toNat else 0) ++ leBytes 1 reason ++ leBytes 1 halt }
/-- The record of a locked miss that ended in a stop (Table 16.8). -/
def lockedRecord (s : State) (d : Nat) (t : Task) (reason : Nat) : State :=
  match t.stopTrap with
  | some x =>
    if x.code = 0x709 then
      writeRecord s d { stopRecord s d t reason 0 with kind := 6, value := 0, addr := x.tval.toNat, detail := leBytes 1 1 }
    else s
  | none => s
/-- The memberships of a saved context are left at their homes. -/
def leaveSaved (s : State) (d : Nat) (x : SavedCtx) : State :=
  x.grp.foldl (fun s y =>
    sendPacket s { src := diePlace d, dst := homeOf y.2, cls := 2, tenant := x.tenant, task := x.task, inst := x.inst,
                   body := .leave y.2, since := s.now }) s
/-- A context of a task waits to be dumped. -/
def inDumps (s : State) (d h : Nat) : Bool := (dieAt s d).dumps.any fun n => n / 2 ^ 16 % 2 ^ 32 = h
/-- The saved contexts of a stopped task are discarded, those to be dumped apart (R384, step 2). -/
def discardSaved (s : State) (d h : Nat) : State :=
  let gone := (dieAt s d).saved.filter fun x => x.task = h && !(dieAt s d).dumps.contains (memberKey d x.task x.inst)
  let s1 := gone.foldl (fun s x => unfreezeSaved (leaveSaved s d x) d x) s
  updDie s1 d fun x => { x with
    saved := x.saved.filter fun y => !(gone.any fun z => z.area = y.area)
    tasks := x.tasks.map fun t => if t.handle = h then { t with acct := (gone.map (·.acct)).foldl Acct.plus t.acct } else t }
where
  unfreezeSaved (s : State) (d : Nat) (x : SavedCtx) : State :=
    match x.chartGrp with
    | none => s
    | some id =>
      match groupAt s id with
      | none => s
      | some g =>
        let m := memberKey d x.task x.inst
        let rest := g.frozenBy.filter (· ≠ m)
        setGroup s id { g with
          frozenBy := rest
          freeze := if g.frozenBy ≠ [] && rest = [] then g.freeze + (datumOf s (dieOfId id) - g.frozenAt) else g.freeze }
/-- A context of a stopped task has ended its drain: it leaves its groups, and, once every home has answered and no dump of
it is due, its slot empties (R384, steps 1 to 4). -/
def stopContext (s : State) : Option State :=
  let d := dieOf s.cur
  let c := s.cx
  if !(c.drained && copiesStill c) then none
  else if c.grp ≠ [] then (if c.asked then none else some (leaveAll (publish s)))
  else if (dieAt s d).dumps.contains (memberAt s s.cur) then none
  else
    let s1 := unfreezeChart (settle (publish s) s.cur) s.cur
    some (vacate (updTask s1 d c.task fun t => { t with acct := t.acct.plus s1.cx.acct }) s.cur)
/-- The last step of a stop: the error record, the completion record, the entry freed and the dependants stopped, once no
context of the task is left and every dump of it is written or dropped (R384, step 5; R385, R392, R439). -/
def finishStop (s : State) (d h : Nat) : State :=
  match taskAt s d h with
  | none => s
  | some t =>
    match t.stopping with
    | none => s
    | some reason =>
      let s1 := discardSaved s d h
      if (dieResidents s1 d).any (ofTask s1 d h) || inDumps s1 d h then s1
      else if !completionReady s1 d t then completionRecall s1 d t
      else
        match taskAt s1 d h with
        | none => s1
        | some u =>
          let s2 := writeNumbered s1 d (u.stopNo.getD (dieAt s1 d).err.number) (stopRecord s1 d u reason 0)
          let s3 := freeEntry (writeCompletion (lockedRecord s2 d u reason) d u 2) d h
          if u.isTriggered then s3
          else
            let deps := ((dieAt s3 d).tasks.filter fun x => x.preds.contains h).map (·.handle)
            deps.foldl (fun s k => stopTask s d k 5 none none) s3
/-- `TASK_STOP` (R384): the stop of the focused context's task goes on; of a task with no context here, the handle is
`value`. -/
def execTaskStop (s : State) : Res :=
  let d := dieOf s.cur
  if s.cx.stopDue then
    let h := s.cx.task
    match stopContext s with
    | none => wait s
    | some s1 => .next (if s1.cx.phase = .empty then finishStop s1 d h else s1)
  else .next (finishStop s d (wbits s.inp.value 0 32))

/-! ### The halt of a die (R386, R459) -/

/-- A completion record lies in memory that the management core still reaches: its own die's, or that of a die that is
not halted. -/
def reachable (s : State) (d : Nat) (t : Task) : Bool :=
  match completionKeys s d t with
  | .ok keys => keys.all fun x => homeDie x.1 = d || (dieAt s (homeDie x.1)).halted.isNone
  | .error _ => true
/-- A task of a halting die ends: reason 7, its record, its completion record where it can be written, its entry freed. One that
had retired is not stopped: its completion record, which waited for the host's lines, says so. -/
def haltTask (reason d : Nat) (s : State) (t : Task) : State :=
  let retired := t.state = .retired
  let u := { t with stopping := some 7, stopTrap := none, culprit := none, stopTime := datumOf s d }
  let s1 := if retired then s else writeRecord s d (stopRecord s d u 7 reason)
  freeEntry (if reachable s1 d u then writeCompletion s1 d u (if retired then 1 else 2) else s1) d t.handle
/-- A resident context of a halting die is lost; its memberships are left. -/
def loseContext (s : State) (p : Nat) : State :=
  let c := ctxAt s p
  let s1 := c.grp.foldl (fun s y =>
    sendPacket s { src := p, dst := homeOf y.2, cls := 2, tenant := c.tenant, task := c.task, inst := c.inst,
                   body := .leave y.2, since := s.now }) s
  let s2 := settle (unfreezeChart s1 p) p
  let s3 := updTask s2 (dieOf p) c.task fun t => { t with acct := t.acct.plus (ctxAt s2 p).acct }
  vacate s3 p
/-- The halt record (kind 3). -/
def haltRecord (d reason : Nat) : ErrRec :=
  { kind := 3, sev := 5, unit := 0x44, action := 6, place := diePlace d, detail := leBytes 8 0 ++ leBytes 1 0 ++ leBytes 1 reason }
/-- A die halts: its clocks stop, its contexts are lost, its tasks stop with reason 7, and the groups homed on it are lost
(R386, R459). -/
def haltDie (s : State) (d reason : Nat) : State :=
  if (dieAt s d).halted.isSome || !(dieAt s d).powered || !dieExists s d then s
  else
    let s0 := writeRecord s d (haltRecord d reason)
    let s1 := (dieAt s0 d).groups.foldl (fun s g => g.2.members.foldl (fun s m => tellMember s (groupId d g.1) m 2 (.groupLost (groupId d g.1))) s) s0
    let s2 := (dieResidents s1 d).foldl loseContext (updDie s1 d fun x => { x with groups := [], dumps := [] })
    let s3 := (dieAt s2 d).saved.foldl (fun s x => leaveSaved s d x) s2
    let s4 := updDie s3 d fun x => { x with saved := [], halted := some reason }
    let s5 := (dieAt s4 d).tasks.foldl (haltTask reason d) s4
    (tilesOf d).foldl (fun s t =>
      match alook s.tiles t with
      | none => s
      | some x => setTile s t { x with gear := 0, change := none, arrq := [] }) s5
where
  /-- The id of group slot `k` of a die. -/
  groupId (d k : Nat) : Nat := d * 2 ^ 22 + k
/-- `DIE_HALT` (R386): an uncorrected error in scheduler, governor, tenant-table or management-core state halts the die with
reason 2; the other reasons halt it in their own events. -/
def execDieHalt (s : State) : Res := .next (haltDie s (dieOf s.cur) 2)

/-! ### Dumps (R438 to R442) -/

/-- The key of a dump slot. -/
def dumpKey (s : State) (d tenant k : Nat) : Nat := devKey (d / 16) (wbits (tenantAt s d tenant).dumpcfg 44 20 * 2 ^ 24 + areaStride * k)
/-- Slots of a tenant's dump area. -/
def dumpSlots (s : State) (d tenant : Nat) : Nat := wbits (tenantAt s d tenant).dumpcfg 40 4 + 1
/-- The first free slot, from `next` on. -/
def freeDump (s : State) (d tenant : Nat) : Option Nat :=
  let n := dumpSlots s d tenant
  ((List.range n).map fun j => (wbits (tenantAt s d tenant).dumpcfg 4 4 + j) % n).find? fun k =>
    leNat (peek s (dumpKey s d tenant k) 4) = 0
/-- A nested entry of a dump header: record number, time, cause, unit and kind (Table 17.11). -/
structure Nested where
  number : Nat
  time : Nat
  cause : Nat
  unit : Nat
  kind : Nat
  deriving DecidableEq, Repr
/-- An entry's 32 bytes. -/
def Nested.bytes (x : Nested) : List Byte :=
  leBytes 8 x.number ++ leBytes 8 x.time ++ leBytes 8 x.cause ++ leBytes 1 x.unit ++ leBytes 1 x.kind ++ leBytes 6 0
/-- The record kind of an asynchronous fault's code. -/
def kindOfCode (code : Nat) : Nat :=
  if code = 0x713 then 7 else if code = 0x723 then 8 else if code = 0x731 then 9 else if code = 0x732 then 10
  else if 0x710 ≤ code && code ≤ 0x714 then 4 else 1
/-- The nested faults of a context, each with its own record of severity 3 (R440), at the times they were found. -/
def nestedFaults (d p : Nat) : List Trap → State → List Nested × State
  | [], s => ([], s)
  | t :: r, s =>
    let found := if t.time = 0 then datumOf s d else t.time
    let mk : Nat → Nested := fun n =>
      { number := n, time := found, cause := (trapWord t).toNat, unit := t.eng, kind := kindOfCode t.code }
    match t.recNo with
    | some n =>
      let (l, s1) := nestedFaults d p r s
      (mk n :: l, s1)
    | none =>
      let n := (dieAt s d).err.number
      let s1 := writeRecord s d (ctxRecord s p
        { kind := kindOfCode t.code, sev := 3, unit := t.eng, eng := t.eng, cause := t.code, addr := t.addr,
          value := if t.sub = 0 then t.tval.toNat else t.value, action := 4, seq := t.seq, detail := leBytes 1 t.sub,
          time := some found })
      let (l, s2) := nestedFaults d p r s1
      (mk n :: l, s2)
/-- What the image reads with an uncorrected error: units, and addresses in them. -/
def unreadable (c : Ctx) : List (Nat × Nat) :=
  ((c.bad.filter fun b => b % 2 = 1).map fun b => (0x10, c.spadBase + 8 * (b / 2)))
    ++ (((badArrays c).filter (·.uncorrected)).map fun b => (b.unit, b.addr))
/-- Uncorrected errors read for the image: each gives a nested entry and a record. -/
def nestedWords (d p : Nat) : List (Nat × Nat) → State → List Nested × State
  | [], s => ([], s)
  | (unit, addr) :: r, s =>
    let n := (dieAt s d).err.number
    let (l, s2) := nestedWords d p r (freeRecord s d (ctxRecord s p (arrayRecord s unit 3 addr)))
    ({ number := n, time := datumOf s d, cause := 0, unit := unit, kind := 5 } :: l, s2)
/-- Elements with those of uncorrected errors zero. -/
def blank (l : List Elem) (bad : List Nat) : List Elem := bad.foldl (fun l k => l.set k 0) l
/-- A row with its unreadable elements zero. -/
def blankRow (r : Row) : Row :=
  { r with data := (r.bad.filter fun b => b % 2 = 1).foldl (fun l b => splice l (4 * (b / 2)) (List.replicate 4 0)) r.data }
/-- A context without the bytes that cannot be read. -/
def readableCtx (c : Ctx) : Ctx :=
  let ws := (c.bad.filter fun b => b % 2 = 1).map fun b => b / 2
  let at' : Nat → Nat → List Nat := fun a n =>
    (c.badR.filter fun b => b.uncorrected && b.array = a && b.reg = n).map (·.elem)
  { c with
    spad := c.spad.filter fun e => !ws.contains (e.1 / 8)
    v := c.v.map fun e => (e.1, blank e.2 (at' 0 e.1))
    acc := c.acc.map fun e => (e.1, blank e.2 (at' 1 e.1))
    lq := c.lq.map fun e => (e.1, e.2.map blankRow)
    sq := c.sq.map fun e => (e.1, e.2.map blankRow) }
/-- The dump header (Table 17.11). -/
def dumpHeader (s : State) (d : Nat) (t : Task) (inst queued : Nat) (l : List Nested) : List Byte :=
  let x := t.stopTrap
  leBytes 4 0x444D5031 ++ leBytes 2 1 ++ leBytes 2 (min 65535 l.length) ++ leBytes 8 t.stopTime ++ leBytes 4 t.handle
    ++ leBytes 4 inst ++ leBytes 1 (t.stopping.getD 0) ++ leBytes 1 t.tenant ++ leBytes 6 0 ++ leBytes 8 (t.stopNo.getD 0)
    ++ leBytes 8 (match x with
      | some x => (trapWord x).toNat
      | none => 0)
    ++ leBytes 8 (match x with
      | some x => x.tval.toNat
      | none => 0)
    ++ leBytes 8 t.stopPc ++ leBytes 4 queued ++ leBytes 4 (dieAt s d).dumpsDropped ++ List.replicate 56 0
    ++ padTo 256 ((l.take 8).flatMap Nested.bytes) ++ List.replicate 0xE80 0
/-- The image of the context of a name, as pieces, with the nested faults found: of a resident context, or the copy of a
save area with its reason byte replaced. -/
def dumpImage (s : State) (d name : Nat) : Option ((List (Nat × List Byte) × List Nested) × State) :=
  let h := name / 2 ^ 16 % 2 ^ 32
  let i := name % 2 ^ 16
  match (dieResidents s d).find? fun p => (ctxAt s p).task = h && (ctxAt s p).inst = i with
  | some p =>
    let c := ctxAt s p
    if !(c.drained && copiesStill c) then none
    else
      let (l1, s1) := nestedFaults d p c.nested s
      let (l2, s2) := nestedWords d p (unreadable c) s1
      let s3 := setCtx s2 p (readableCtx c)
      some ((imagePieces s3 p 6 (if c.phase = .dormant then 2 else 1), l1 ++ l2), s2)
  | none =>
    match savedOf s d h i with
    | none => none
    | some x =>
      let lines := linesOf x.area areaBytes
      let lost := lines.filter fun k => eccLine s k = 2
      let l := lost.map fun k => { number := (dieAt s d).err.number, time := datumOf s d, cause := 0, unit := unitOfLine s k, kind := 5 : Nested }
      let s1 := lost.foldl (fun s k =>
        freeRecord s d { memoryRecord s (unitOfLine s k) 3 (64 * k) with
          place := diePlace d, task := h, inst := i, tenant := x.tenant }) s
      let data := lines.map fun k => (64 * k - x.area, if lost.contains k then List.replicate 64 0 else peek s (64 * k) 64)
      let l' := l.zipIdx.map fun (n, j) => { n with number := n.number + j }
      some ((data ++ [(0x33, [6])], l'), s1)
/-- The dump of a name is off the queue. -/
def undump (s : State) (d name : Nat) : State := updDie s d fun x => { x with dumps := x.dumps.filter (· ≠ name) }
/-- A dump is dropped with a record of subkind 8. -/
def dropDump (s : State) (d name why : Nat) : State :=
  let r : ErrRec := { kind := 8, sev := 2, unit := 0x44, value := why, task := name / 2 ^ 16 % 2 ^ 32, inst := name % 2 ^ 16,
                      place := diePlace d, detail := leBytes 1 8 }
  writeRecord (updDie (undump s d name) d fun x => { x with dumpsDropped := x.dumpsDropped + 1 }) d r
/-- The short record of a dump writer that failed, at the end of the die's host-coherent window, and the halt (R442); where the
host holds that line it is recalled first (R338). -/
def writerFailed (s : State) (d name place cause written key : Nat) : State :=
  let at' := devKey (d / 16) (d % 16 * 2 ^ 40 + 0xF0000FFFC0)
  if !windowReady s at' 64 true then windowRecall s at' 64 true
  else
  let b := leBytes 4 0x44504654 ++ leBytes 4 cause ++ leBytes 8 (datumOf s d) ++ leBytes 8 place
    ++ leBytes 4 (name / 2 ^ 16 % 2 ^ 32) ++ leBytes 4 written ++ leBytes 8 (key % 2 ^ 44)
    ++ leBytes 8 ((dieAt s d).err.number - 1) ++ List.replicate 16 0
  haltDie (pokeThrough s at' b) d 1
/-- The number of the error record of a task's stop is kept for it, before its dumps are written. -/
def keepNumber (s : State) (d h : Nat) : State :=
  match taskAt s d h with
  | none => s
  | some t =>
    if t.stopNo.isSome then s
    else
      let n := (dieAt s d).err.number
      updDie (updTask s d h fun t => { t with stopNo := some n }) d fun x => { x with err := { x.err with number := n + 1 } }
/-- `DUMP_WRITE` (R439 to R442): the head of the die's dump queue is written to its tenant's next free slot, or dropped; with
`flag` the writer fails after `len` bytes. -/
def execDumpWrite (s : State) : Res :=
  let d := dieOf s.cur
  match (dieAt s d).dumps with
  | [] => wait s
  | name :: rest =>
    let h := name / 2 ^ 16 % 2 ^ 32
    match taskAt s d h with
    | none => .next (undump s d name)
    | some t0 =>
      match freeDump s d t0.tenant with
      | none => .next (dropDump s d name 1)
      | some k =>
        match dumpImage (keepNumber s d h) d name with
        | none => wait s
        | some ((pieces, l), s1) =>
          let t := (taskAt s1 d h).getD t0
          let key := dumpKey s1 d t.tenant k
          let queued := (rest.filter fun n => n / 2 ^ 16 % 2 ^ 32 = h).length
          let all := (0, dumpHeader s1 d t (name % 2 ^ 16) queued l) :: pieces.map fun x => (x.1 + 0x1000, x.2)
          let place := ((dieResidents s1 d).find? fun p => memberAt s1 p = name).getD (diePlace d)
          if !rangeLive s1 (d / 16) (key % 2 ^ 44) (0x1000 + areaBytes) then .next (writerFailed s1 d name place 2 0 key)
          else if s.inp.flag then
            let part := all.filterMap fun x =>
              if x.1 < s.inp.len then some (x.1, x.2.take (s.inp.len - x.1)) else none
            let s2 := part.foldl (fun s x => pokeThrough s (key + x.1) x.2) s1
            .next (writerFailed s2 d name place 1 s.inp.len (key + s.inp.len))
          else
            let s2 := all.foldl (fun s x => pokeThrough s (key + x.1) x.2) s1
            let s3 := updTenant s2 d t.tenant fun x => { x with dumpcfg := wput x.dumpcfg 4 4 ((k + 1) % dumpSlots s d t.tenant) }
            let r : ErrRec := { kind := 8, sev := 2, unit := 0x44, addr := key % 2 ^ 44, value := min 65535 l.length, task := h,
                                inst := name % 2 ^ 16, tenant := t.tenant, place := diePlace d, detail := leBytes 1 7 }
            .next (updDie (writeRecord (undump s3 d name) d r) d fun x => { x with dumpsDropped := 0 })

/-! ### The host's answers to page faults (R411, R412) -/

/-- The resident context that holds a fault number. -/
def faultHolder (s : State) (d n : Nat) : Option Nat :=
  (dieResidents s d).find? fun p =>
    match (ctxAt s p).fault with
    | some f => f.number = n
    | none => false
/-- The saved context that holds it. -/
def faultSaved (s : State) (d n : Nat) : Option SavedCtx :=
  (dieAt s d).saved.find? fun x =>
    match x.fault with
    | some f => f.number = n
    | none => false
/-- `PAGE_FAULT_RESUME` (R411): the fault number `value` is answered; the pending operation may issue again. -/
def execPageFaultResume (s : State) : Res :=
  let d := dieOf s.cur
  let n := wbits s.inp.value 0 32
  match faultHolder s d n with
  | some p =>
    let s1 := focus (updCtx s p fun c => { c with fault := none }) p
    .next (thawChart (relock (List.range 16) s1) p)
  | none =>
    match faultSaved s d n with
    | none => wait s
    | some x =>
      .next (updDie s d fun y => { y with
        saved := y.saved.map fun z => if z.area = x.area then { z with fault := none } else z })
/-- `PAGE_FAULT_STOP` (R411, R412): the task of the context that holds the fault number is stopped with reason 11. -/
def execPageFaultStop (s : State) : Res :=
  let d := dieOf s.cur
  let n := wbits s.inp.value 0 32
  match faultHolder s d n with
  | some p => .next (stopTask (updCtx s p fun c => { c with fault := none }) d (ctxAt s p).task 11 (some p) none)
  | none =>
    match faultSaved s d n with
    | none => wait s
    | some x => .next (stopTask s d x.task 11 none none)

end Sys2Proof.Machine
end

