-- ==== Sys2Proof/Machine/Power.lean ====
section
/-! DEFINITION. The power controller: gears, bias, grants and throttles, sensors, supply conditions and the survey (05, R171;
07, R237; 11, R344 to R360; 19, R468 to R473). What is measured (activity, energy, readings) comes with the event. -/
namespace Sys2Proof.Machine

/-! ### Gears (R171, R344, R345) -/

/-- The key of a tile's cluster: its die and its number. -/
def clusterKey (t : Nat) : Nat × Nat := (t / 128, t % 128 / 8)
/-- The cluster of a tile. -/
def tileCluster (s : State) (t : Nat) : Cluster := clusterAt s (t / 128) (t % 128 / 8)
/-- The tiles of a cluster. -/
def clusterTiles (d c : Nat) : List Nat := (List.range 8).map fun k => d * 128 + c * 8 + k
/-- The highest gear of the chart groups whose members a tile hosts (R42). -/
def chartGear (s : State) (t : Nat) : Nat :=
  ((residents s t).map fun p => (((ctxAt s p).chartGrp.bind (groupAt s)).map (·.gear)).getD 0).foldl max 0
/-- The gear a tile asks for: that of the chart groups it hosts while they exist (R42), else its demand (R171), as far as it can
be reached (R472). That a chart gear stands whatever its co-residents ask is DEDUCED from R42 (log 31). -/
def wantedGear (s : State) (t : Nat) : Nat :=
  let most := if (tileCluster s t).biasFailed then min 2 (tileAt s t).gearMax else (tileAt s t).gearMax
  min most (if chartGear s t = 0 then demand s t else chartGear s t)
/-- The cluster's bias is set and is not being cleared. -/
def biasOn (x : Cluster) : Bool := x.bias && x.clearing.isNone
/-- The cluster after a grant of one of its tiles moved to `g`: bias is commanded for gear 3, and the time without a
gear 3 grant begins (R345). -/
def clusterAfter (s : State) (t g old : Nat) : State :=
  let (d, c) := clusterKey t
  if g = 3 then
    updCluster s d c fun x => { x with
      idleSince := none
      setting := if !x.bias && x.setting.isNone && x.clearing.isNone && !x.biasFailed then some s.now else x.setting }
  else if old = 3 && (clusterTiles d c).all fun u => (tileAt s u).grant ≠ 3 then
    updCluster s d c fun x => { x with idleSince := some s.now }
  else s
/-- A tile is granted a gear: its clock stops for the change to the gear it can run at. -/
def setGrant (s : State) (t g : Nat) : State :=
  let s0 := settleTile s t
  let x := tileAt s0 t
  let run := if g = 3 && !biasOn (tileCluster s0 t) then 2 else g
  let y : Tile := { x with grant := g, change := if run = x.gear then none else some (run, s0.now) }
  clusterAfter (setTile s0 t y) t g x.grant
/-- The record that a gear cannot be reached (kind 11, subkind 8). -/
def gearRecord (s : State) (t gear case' sev : Nat) : State :=
  writeRecord s (t / 128) { kind := 11, sev := sev, unit := 0x42, value := gear + case' * 256, place := t * 2 ^ 15,
                            tileValid := true, action := if sev = 4 then 5 else 0, detail := leBytes 1 8 }
/-- `GEAR_CHANGE_COMPLETE` (R3, R171, R344): the focused tile's clock restarts at the new gear, within 250 ns; where no change is
on its way and the tile asks for less than it is granted, the lowering begins. -/
def execGearChangeComplete (s : State) : Res :=
  let t := tileOf s.cur
  match (tileAt s t).change with
  | some (g, t0) =>
    if t0 + 250 < s.now then wait s
    else .next (updTile (settleTile s t) t fun x => { x with gear := g, change := none, changeTries := 0 })
  | none =>
    if wantedGear s t < (tileAt s t).grant && (tileAt s t).retryAt ≤ s.now then .next (setGrant s t (wantedGear s t)) else wait s
/-- A tile whose clock is lost: its contexts are lost, their tasks stopped with reason 17, and it is fenced (R472, R478). -/
def loseTile (s : State) (t gear : Nat) : State :=
  let s1 := gearRecord s t gear 3 4
  let s2 := (residents s1 t).foldl (fun s p =>
    let h := (ctxAt s p).task
    loseContext (stopTask s (dieOf p) h 17 (some p) none) p) s1
  clusterAfter (updTile s2 t fun x => { x with fenced := true, gear := 0, grant := 0, change := none }) t 0 (tileAt s2 t).grant
/-- `GEAR_CHANGE_TIMEOUT` (R472): a clock that has not restarted 250 ns after a change began goes back to the previous gear;
the change is tried once more after 1 µs, and a second failure limits the tile. With `flag` no gear restarts the clock. -/
def execGearChangeTimeout (s : State) : Res :=
  let t := tileOf s.cur
  let x := tileAt s t
  match x.change with
  | none => wait s
  | some (g, t0) =>
    if s.now < t0 + 250 then wait s
    else if s.inp.flag then .next (loseTile (settleTile s t) t g)
    else
      let s1 := settleTile s t
      let back : Tile := { x with change := none, grant := x.gear }
      let keep : Tile → State := fun y => clusterAfter (setTile s1 t y) t y.grant x.grant
      if x.changeTries = 0 then .next (keep { back with changeTries := 1, retryAt := s.now + 1000 })
      else .next (gearRecord (keep { back with changeTries := 0, gearMax := x.gear }) t g 2 2
        |> fun s => mapAppend s (t / 128) (mapEntry 8 (t % 128 / 8) (physOf s t % 9) 0 0 x.gear 0))

/-! ### Bias (R345, R472) -/

/-- The cluster the event names, of the focused die. -/
def eventCluster (s : State) : Nat := s.inp.sel % 16
/-- `BIAS_SET_COMPLETE` (R3, R345): within 2 µs of the command bias is set, and tiles granted gear 3 change to it. -/
def execBiasSetComplete (s : State) : Res :=
  let d := dieOf s.cur
  let c := eventCluster s
  match (clusterAt s d c).setting with
  | none => wait s
  | some t0 =>
    if t0 + 2000 < s.now then wait s
    else
      let s1 := updCluster s d c fun x => { x with bias := true, setting := none }
      .next ((clusterTiles d c).foldl (fun s t => if (tileAt s t).grant = 3 then setGrant s t 3 else s) s1)
/-- `BIAS_SET_TIMEOUT` (R472): bias that does not report set within 2 µs fails; the cluster's tiles run at gear 2. -/
def execBiasSetTimeout (s : State) : Res :=
  let d := dieOf s.cur
  let c := eventCluster s
  match (clusterAt s d c).setting with
  | none => wait s
  | some t0 =>
    if s.now < t0 + 2000 then wait s
    else
      let s1 := updCluster s d c fun x => { x with setting := none, biasFailed := true, bias := false }
      let s2 := (clusterTiles d c).foldl (fun s t => if (tileAt s t).grant = 3 then setGrant s t 2 else s) s1
      let r : ErrRec := { kind := 11, sev := 2, unit := 0x42, value := 3 + 256, place := (d * 128 + c * 8) * 2 ^ 15,
                          tileValid := true, detail := leBytes 1 8 }
      .next (mapAppend (writeRecord s2 d r) d (mapEntry 9 c 15 0 0 0 0))
/-- `BIAS_CLEAR_TIMEOUT` (R345): after 100 µs with no gear 3 grant in the cluster, clearing begins once every tile of it that
still runs at gear 3 has been lowered to gear 2. -/
def execBiasClearTimeout (s : State) : Res :=
  let d := dieOf s.cur
  let c := eventCluster s
  let x := clusterAt s d c
  match x.idleSince with
  | some t0 =>
    let high := (clusterTiles d c).filter fun t => (tileAt s t).gear = 3
    if !(biasOn x && t0 + 100000 ≤ s.now) then wait s
    else if high ≠ [] then
      .next (high.foldl (fun s t => if (tileAt s t).change.isSome then s else setGrant s t (min 2 (tileAt s t).grant)) s)
    else .next (updCluster s d c fun x => { x with clearing := some s.now, idleSince := none })
  | none => wait s
/-- `BIAS_CLEAR_COMPLETE` (R345): 2 µs later bias is clear; it is set anew where gear 3 has been granted meanwhile. -/
def execBiasClearComplete (s : State) : Res :=
  let d := dieOf s.cur
  let c := eventCluster s
  match (clusterAt s d c).clearing with
  | none => wait s
  | some t0 =>
    if s.now < t0 + 2000 then wait s
    else
      let again := (clusterTiles d c).any fun t => (tileAt s t).grant = 3
      .next (updCluster s d c fun x => { x with bias := false, clearing := none, setting := if again then some s.now else none })

/-! ### Evaluations (R346 to R351, R353) -/

/-- Fields of `pwrcap` (Table 11.1). -/
def capOf (x : Die) : Nat := wbits x.pwrcap 0 10
def reserveOf (x : Die) : Nat := wbits x.pwrcap 16 10
/-- The dies of a module. -/
def diesOf (m : Nat) : List Nat := (List.range 16).map fun k => m * 16 + k
/-- The least equal step by which caps are lowered, none below 200 W, so that their sum with `extra` is at most 9,000 W. -/
def capStep (caps : List Nat) (extra : Nat) : Nat :=
  ((List.range 321).find? fun k => (caps.map fun c => max (min c 200) (c - k)).sum + extra ≤ 9000).getD 320
/-- The module controller lowers the caps of its dies in equal steps (R348). -/
def moduleCaps (s : State) (m extra : Nat) : State :=
  let k := capStep ((diesOf m).map fun d => capOf (dieAt s d)) extra
  if k = 0 then s
  else (diesOf m).foldl (fun s d => updDie s d fun x => { x with
    pwrcap := wput x.pwrcap 0 10 (max (min (capOf x) 200) (capOf x - k)) }) s
/-- The highest priority of a tile's running contexts. -/
def tilePriority (s : State) (t : Nat) : Nat :=
  (((residents s t).filter fun p => (ctxAt s p).phase = .running).map fun p => (ctxAt s p).priority).foldl max 0
/-- Tiles of a die that hold gear 3 and may be revoked: lowest priority first, then highest number. -/
def revocable (s : State) (d : Nat) : List Nat :=
  [0, 1, 2, 3].flatMap fun k => (tilesOf d).reverse.filter fun t =>
    (tileAt s t).grant = 3 && !hostsChart s t && tilePriority s t = k
/-- Gear 3 grants are revoked, as many as bring the estimate to the cap at `inc` W each (R347). -/
def revokeGears (s : State) (d p inc : Nat) : State :=
  let l := (revocable s d).take (ceilDiv (p - capOf (dieAt s d)) (max 1 inc))
  surveyCount (l.foldl (fun s t => updTile (setGrant s t 2) t fun x => { x with revoked := true }) s) d (powerCounts + 8) l.length
/-- Cap duty of the tiles that host no chart member falls or rises by 1/8. -/
def moveDuty (s : State) (d : Nat) (down : Bool) : State :=
  (tilesOf d).foldl (fun s t =>
    let x := tileAt s t
    if hostsChart s t || (!down && x.dutyCap = 8) then s
    else updTile (settleTile s t) t fun x => { x with dutyCap := if down then max 1 (x.dutyCap - 1) else min 8 (x.dutyCap + 1) }) s
/-- A tile waits for a raise that may be tried now. -/
def raiseWaits (s : State) (t : Nat) : Bool :=
  let x := tileAt s t
  x.grant < wantedGear s t && x.change.isNone && x.retryAt ≤ s.now && !x.fenced
/-- The estimate P of a die's power (R345, R346): what its activity counters show, `activity` W, with the gear, clock and bias of
every tile, and the leakage of every cluster whose bias is set. -/
def estimate (s : State) (d activity : Nat) : Nat :=
  let biased := ((List.range 16).filter fun c => (clusterAt s d c).bias).length
  let tiles := (tilesOf d).flatMap fun t => [(tileAt s t).gear, clockMHz s t, dutyOf s t]
  activity + Config.powerEstimate (activity :: tiles) + biased * Config.biasPower
/-- The increment of a raise of a tile to gear 3: `inc` W of its own, and the leakage of its cluster where its bias is not set. -/
def raiseStep (s : State) (t inc : Nat) : Nat := inc + if (tileCluster s t).bias then 0 else Config.biasPower
/-- One grant of the evaluation, among the tiles not yet taken: the next tile, and the state with the estimate after it. -/
def raiseOne (d inc : Nat) (x : State × Nat × List Nat) : State × Nat × List Nat :=
  let (s, p, taken) := x
  let waiting := (tilesOf d).filter fun t => raiseWaits s t && !taken.contains t
  let top := (waiting.map (tilePriority s)).foldl max 0
  match rotate (dieAt s d).powerPtr 128 fun k => waiting.contains (d * 128 + k) && tilePriority s (d * 128 + k) = top with
  | none => x
  | some k =>
    let t := d * 128 + k
    let cap := capOf (dieAt s d)
    let want := wantedGear s t
    let step := raiseStep s t inc
    let three := want = 3 && p + step ≤ cap - reserveOf (dieAt s d)
    let g := if three then 3 else if p ≤ cap then max (tileAt s t).grant (min want 2) else (tileAt s t).grant
    if g = (tileAt s t).grant then (s, p, t :: taken)
    else
      let s1 := updDie (setGrant s t g) d fun x => { x with powerPtr := k + 1 }
      (updTile s1 t fun x => { x with revoked := x.revoked && g ≠ 3 }, if g = 3 then p + step else p, t :: taken)
/-- An amount divided in proportion to weights: the parts add up to it. -/
def splitShares (n : Nat) (w : List Nat) : List Nat :=
  (List.range w.length).map fun i => n * (w.take (i + 1)).sum / w.sum - n * (w.take i).sum / w.sum
/-- Energy goes to the account of a context by its name as a member: resident, saved, or to its task once it has left. -/
def creditEnergy (s : State) (m nj : Nat) : State :=
  let d := memberDie m
  match memberPlace s m, memberSaved s m with
  | some p, _ => updCtx s p fun c => { c with acct := { c.acct with energy := c.acct.energy + nj } }
  | none, some x => updSaved s d x fun x => { x with acct := { x.acct with energy := x.acct.energy + nj } }
  | none, none => updTask s d (memberTask m) fun t => { t with acct := { t.acct with energy := t.acct.energy + nj } }
/-- A tile's energy divided among its resident contexts, and those that left since, in proportion to the cycles in which each
occupied an engine (R353); in equal parts where none did (DESIGN CHOICE, log 30). -/
def divideEnergy (s : State) (t nj : Nat) : State :=
  let ps := residents s t
  let used := (ps.map fun p => (memberAt s p, (ctxAt s p).occupied)) ++ (tileAt s t).gone
  let w := if (used.map (·.2)).sum = 0 then used.map fun _ => 1 else used.map (·.2)
  let s1 := ((used.map (·.1)).zip (splitShares nj w)).foldl (fun s x => creditEnergy s x.1 x.2) s
  ps.foldl (fun s p => updCtx s p fun c => { c with occupied := 0 }) (updTile s1 t fun x => { x with gone := [] })
/-- The energies of the tiles of a die. -/
def divideAll (s : State) (d : Nat) (nj : List Word) : State :=
  nj.zipIdx.foldl (fun s x => if x.2 < 128 && x.1 ≠ 0 then divideEnergy (settleTile s (d * 128 + x.2)) (d * 128 + x.2) x.1.toNat else s)
    (surveyCount s d (powerCounts + 4) (nj.map (·.toNat)).sum)
/-- Filler drawn over `us` µs, in nJ, charged to the tenants whose releases started the fall, in proportion to the spans each
released (R351). -/
def chargeFiller (s : State) (d us : Nat) : State :=
  let x := dieAt s d
  let nj := (matrixPower s d - heldPower s d) * us
  let s1 := surveyCount s d (powerCounts + 12) nj
  ((x.fillFor.map (·.1)).zip (splitShares nj (x.fillFor.map (·.2)))).foldl (fun s y => updTenant s d y.1 fun t => { t with
    tenergy := (t.tenergy + y.2) % 2 ^ 64 }) s1
/-- The slopes are measured anew `us` µs after the last time: filler is kept up as far as the fall's rate still asks for it (R349),
and a rise is measured from here where no grant is held back (R350). -/
def measureSlope (s : State) (d us : Nat) : State :=
  let x := dieAt s d
  let fall := wbits x.slewcfg 0 16
  let bare := s.tiles.foldl (fun s e => if e.1 / 2 ^ 7 = d && e.2.lent ≠ 0 then updTile s e.1 fun y => { y with lent := 0 } else s) s
  let s1 := if fall = 0 then bare else (lendSpans bare d (x.slopeRef - 1000 * fall * us - matrixPower bare d)).1
  let held := (dieResidents s1 d).any fun p => (ctxAt s1 p).slopeWait
  updDie s1 d fun y => { y with
    slopeRef := matrixPower s1 d
    riseRef := if held then y.riseRef else matrixPower s1 d
    riseAt := if held then y.riseAt else s1.now
    fell := []
    fillFor := if matrixPower s1 d = heldPower s1 d then [] else y.fillFor }
/-- `POWER_EVALUATION` (R346 to R351, R353), each µs of the focused die's datum time. The event brings what the activity counters
make of the power (`value`, W), the increment of a gear 3 grant (`addr`), the module's memory and optics (`len`) and each
tile's energy (`values`, nJ). -/
def execPowerEvaluation (s : State) : Res :=
  let d := dieOf s.cur
  let n := datumOf s d / 1000
  if n ≤ (dieAt s d).evals || !(dieAt s d).powered || (dieAt s d).halted.isSome then wait s
  else
    let us := n - (dieAt s d).evals
    let p := min 65535 (estimate s d (wbits s.inp.value 0 16))
    let inc := s.inp.addr
    let s1 := if d = controllerOf s (d / 16) then moduleCaps s (d / 16) s.inp.len else s
    let s2 := surveyCount (surveyCount (divideAll s1 d s.inp.values) d powerCounts p) d evalCount 1
    let s3 := measureSlope (chargeFiller s2 d us) d us
    let x := dieAt s3 d
    let above := decide (capOf x < p)
    let s4 := updDie s3 d fun x => { x with evals := n, pwrcap := wput x.pwrcap 32 16 p, overCap := above }
    let s5 := if above then (if x.overCap then moveDuty (revokeGears s4 d p inc) d true else revokeGears s4 d p inc)
      else if p < capOf x - reserveOf x then moveDuty s4 d false else s4
    .next ((List.range 128).foldl (fun a _ => raiseOne d inc a) (s5, p, [])).1
/-- `CHART_GEAR_TIMEOUT` (R473): while the first `GBAR` of the selected group waits and some member's tile cannot reach the
chart gear, every waiting member takes trap 0x740, at first and again every 1 ms. -/
def execChartGearTimeout (s : State) : Res :=
  let d := dieOf s.cur
  let id := d * 2 ^ 22 + s.inp.sel % 256
  match groupAt s id with
  | none => wait s
  | some g =>
    let short := g.members.any fun m => match memberPlace s m with
      | some p => (tileAt s (tileOf p)).grant < g.gear
      | none => false
    if !(g.chart && !g.begun && g.arrived ≠ [] && short) then .next (setGroup s id { g with gearWait := none })
    else
      let t0 := g.gearWait.getD (datumOf s d)
      if datumOf s d < t0 + g.gearTraps * 1000000 && g.gearWait.isSome then wait s
      else
        let n := (datumOf s d - t0) / 1000000 + 1
        let s1 := setGroup s id { g with gearWait := some t0, gearTraps := max n (if g.gearWait.isSome then g.gearTraps + 1 else 1) }
        .next (g.arrived.foldl (fun s m => trapMember s id m) s1)
where
  /-- The waiting `GBAR` of a member traps. -/
  trapMember (s : State) (id m : Nat) : State :=
    match memberPlace s m with
    | none => s
    | some p =>
      let s1 := focus s p
      match waitingC s1 with
      | some (.gbar a, s2) =>
        if namedGroup s2 (.gbar a) = some id && s2.cx.unheld && !s2.cx.handler then trapAt .c 1 0x740 (BitVec.ofNat 64 id) s2 else s
      | _ => s
/-- `REWRITE_REQ` (R237): the management core rewrites the requested gear of the focused context. -/
def execRewriteReq (s : State) : Res :=
  if s.cx.phase = .empty then wait s
  else .next (updCx (settle s s.cur) fun c => c.setCr 0x000 (wput (c.cr 0x000) 0 2 (wbits s.inp.value 0 2)))

/-! ### Sensors (R356, R357, R468, R469) -/

/-- Thresholds of `thermcfg`. -/
def throttleAt (x : Die) : Int := wbits x.thermcfg 0 12
def criticalAt (x : Die) : Int := wbits x.thermcfg 12 12
/-- A record of kind 11 about a tile's or the die's temperature. -/
def heatRecord (s : State) (d t sub : Nat) (temp : Int) (sev : Nat) : State :=
  writeRecord s d { kind := 11, sev := sev, unit := 0x43, value := ofSigned 12 temp, place := t * 2 ^ 15,
                    tileValid := decide (sub < 3), detail := leBytes 1 sub }
/-- A tile's own sensor is read: one that fails is recorded once. -/
def readSensor (d : Nat) (ints : List Int) (s : State) (t : Nat) : State :=
  let x := tileAt s t
  let r := ints.getD (t % 128) x.temp
  let same := if r = x.temp then x.equalReads + 1 else 1
  let y : Tile := { x with temp := r, equalReads := if x.gear = 0 then 0 else same }
  let bad := r < -320 || 1200 < r || 64 ≤ y.equalReads
  if y.sensorFailed || !bad then setTile s t y
  else heatRecord (setTile s t { y with sensorFailed := true }) d t 1 r 1
/-- The reading a tile uses: of a failed sensor, the hottest other of its cluster plus 5 °C. -/
def readingOf (s : State) (t : Nat) : Int :=
  let x := tileAt s t
  if !x.sensorFailed then x.temp
  else
    match ((clusterTiles (t / 128) (t % 128 / 8)).filter fun u => u ≠ t && !(tileAt s u).sensorFailed).map fun u => (tileAt s u).temp with
    | [] => x.temp
    | a :: r => r.foldl max a + 40
/-- Thermal duty after a read. -/
def thermalDuty (d : Nat) (s : State) (t : Nat) : State :=
  let x := dieAt s d
  let r := readingOf s t
  let y := tileAt s t
  if criticalAt x < r then
    let s1 := updTile (settleTile s t) t fun y => { y with dutyTherm := 1, critical := true }
    if y.critical then s1 else heatRecord s1 d t 2 r 1
  else if throttleAt x < r then updTile (settleTile s t) t fun y => { y with dutyTherm := max 1 (y.dutyTherm - 1) }
  else if r + 24 ≤ throttleAt x then
    (if y.dutyTherm = 8 && !y.critical then s
      else updTile (settleTile s t) t fun y => { y with dutyTherm := min 8 (y.dutyTherm + 1), critical := false })
  else s
/-- `hotspot` (Table 11.5). -/
def hotspotWord (time die tile : Nat) (temp : Int) : Word :=
  BitVec.ofNat 64 (bits time 10 32 * 2 ^ 32 + die * 2 ^ 28 + tile * 2 ^ 21 + ofSigned 12 temp)
/-- The hottest tile of a die, the lowest number on a tie. -/
def hottest (s : State) (d : Nat) : Nat × Int :=
  (tilesOf d).foldl (fun a t => if a.2 < readingOf s t then (t % 128, readingOf s t) else a) (0, readingOf s (d * 128))
/-- The hottest die of a module, by what its dies hold. -/
def hottestDie (s : State) (m : Nat) : Word :=
  let temp : Word → Int := fun v => toSigned 12 (wbits v 0 12)
  (diesOf m).foldl (fun a d => if temp a < temp (dieAt s d).hotspot then (dieAt s d).hotspot else a) (dieAt s (m * 16)).hotspot
/-- `SENSOR_READ` (R356, R357, R468, R469), each 5 µs of datum time: readings by tile in `ints`, 0.125 °C units. -/
def execSensorRead (s : State) : Res :=
  let d := dieOf s.cur
  let n := datumOf s d / 5000
  if n ≤ (dieAt s d).reads || !(dieAt s d).powered then wait s
  else
    let s1 := (tilesOf d).foldl (readSensor d s.inp.ints) (updDie s d fun x => { x with reads := n })
    let s2 := (tilesOf d).foldl (thermalDuty d) s1
    let (k, r) := hottest s2 d
    let s3 := updDie s2 d fun x => { x with
      hotspot := hotspotWord (datumOf s d) (d % 16) k r
      critReads := if criticalAt x < r then x.critReads + 1 else 0 }
    let s4 := updDie s3 (d / 16 * 16) fun x => { x with hotModule := hottestDie s3 (d / 16) }
    .next (if 4 ≤ (dieAt s4 d).critReads then haltDie (heatRecord s4 d (d * 128) 3 r 1) d 3 else s4)

/-! ### Supply (R470) -/

/-- A record of kind 11 about a supply condition, with its millivolts. -/
def supplyRecord (s : State) (d sub sev : Nat) : State :=
  writeRecord s d { kind := 11, sev := sev, unit := 0x42, value := wbits s.inp.value 0 16, place := diePlace d,
                    action := if sev = 5 then 6 else 0, detail := leBytes 1 sub }
/-- `RAIL_DROOP`: every tile of the die is at duty 4/8 for 10 µs from the last such report. -/
def execRailDroop (s : State) : Res :=
  let d := dieOf s.cur
  .next (updDie (supplyRecord (settleDie s d) d 4 1) d fun x => { x with droopUntil := some (s.now + 10000) })
/-- `DROOP_DUTY_EXPIRY`: the duty imposed for droop ends. -/
def execDroopDutyExpiry (s : State) : Res :=
  let d := dieOf s.cur
  match (dieAt s d).droopUntil with
  | some t => if t ≤ s.now then .next (updDie (settleDie s d) d fun x => { x with droopUntil := none }) else wait s
  | none => wait s
/-- `RAIL_FAULT`: the die halts with reason 5. -/
def execRailFault (s : State) : Res := .next (haltDie (supplyRecord s (dieOf s.cur) 5 5) (dieOf s.cur) 5)
/-- `INPUT_LOW`: every die cap of the module is 200 W. -/
def execInputLow (s : State) : Res :=
  let s1 := supplyRecord s (dieOf s.cur / 16 * 16) 6 2
  .next ((diesOf (dieOf s.cur / 16)).foldl (fun s d => updDie s d fun x => { x with
    capSaved := some (x.capSaved.getD (capOf x)), pwrcap := wput x.pwrcap 0 10 200 }) s1)
/-- `INPUT_RECOVER`: the caps put aside return. -/
def execInputRecover (s : State) : Res :=
  .next ((diesOf (dieOf s.cur / 16)).foldl (fun s d => updDie s d fun x =>
    match x.capSaved with
    | some c => { x with capSaved := none, pwrcap := wput x.pwrcap 0 10 c }
    | none => x) s)
/-- `INPUT_CRITICAL`: every die of the module halts with reason 5. -/
def execInputCritical (s : State) : Res :=
  .next ((diesOf (dieOf s.cur / 16)).foldl (fun s d => haltDie (supplyRecord s d 5 5) d 5) s)

/-! ### The survey (R358, R359) -/

/-- Bytes of a survey record. -/
def surveyBytes : Nat := 10240
/-- The counts latched at a tick, laid out from 0x40 on; the estimate's sum becomes its mean. -/
def latched (x : Die) : List Byte :=
  let mean := zlook 0 x.counts powerCounts / max 1 (zlook 0 x.counts evalCount)
  (x.counts.filter fun e => 0x40 ≤ e.1 && e.1 < 0x2480).foldl (fun b e =>
    splice b (e.1 - 0x40) (leBytes 4 (if e.1 = powerCounts then mean else e.2))) (List.replicate (0x2480 - 0x40) 0)
/-- A survey record (Table 11.7): the header, of a tick at datum time `t`, and the counts latched. -/
def surveyRecord (x : Die) (d seq t : Nat) : List Byte :=
  padTo surveyBytes (leBytes 8 t ++ leBytes 8 seq ++ leBytes 4 (d * 2 ^ 22 + wbits x.surv.cfg 1 5)
    ++ leBytes 4 x.survDrop ++ List.replicate 40 0 ++ latched x)
/-- `SURVEY_TICK` (R358, R359): at each multiple of 2^k ns the counts latch and the record is written to the ring, or dropped and
counted; ticks that have passed are made up one after the other. -/
def execSurveyTick (s : State) : Res :=
  let d := dieOf s.cur
  let x := dieAt s d
  let k := wbits x.surv.cfg 1 5
  let n := x.survTick + 1
  if !bitOf x.surv.cfg.toNat 0 || x.stage ≠ 2 || x.halted.isSome || datumOf s d < n * 2 ^ k then wait s
  else
    let seq := x.survSeq + 1
    if ringFull x.surv then
      .next (updDie s d fun x => { x with survSeq := seq, survTick := n, survDrop := x.survDrop + 1, counts := [],
                                          surv := { x.surv with dropped := min 65535 (x.surv.dropped + 1) } })
    else
      let s1 := updDie s d fun x => { x with
        survSeq := seq, survTick := n, survDrop := 0, counts := [],
        surv := { x.surv with wr := (x.surv.wr + 1) % (2 * ringSlots x.surv) } }
      .next (pokeThrough s1 (ringKey d x.surv surveyBytes x.surv.wr) (surveyRecord x d seq (n * 2 ^ k)))

end Sys2Proof.Machine
end

