-- ==== Sys2Proof/Machine/HostIo.lean ====
section
/-! DEFINITION. The host's side: line messages of the host-coherent windows, and the host's commands (10, R335 to R338; 15,
R384, R386; 16, R409, R413, R416, R489; 17, R440). A message or command is an event at the die it is addressed to. -/
namespace Sys2Proof.Machine

/-! ### Line messages (R338, R416) -/

/-- The line a message names: `addr` is a physical address of the focused die's module. -/
def hostLine (s : State) : Nat := devKey (moduleOf s.cur) s.inp.addr / 64
/-- The line lies in the window of the focused die, a Zoengline port is up, no recall of it is on its way, and the access it was
recalled for has been performed: that came first (R338). An access that has not come within 100 µs of the recall's end, as of a
stopped task, holds the line no longer (DESIGN CHOICE, log 33). -/
def lineOpen (s : State) : Bool :=
  let l := hostLine s
  inWindow (64 * l) && homeDie (64 * l) = dieOf s.cur && hostUp s (moduleOf s.cur)
    && (match alook s.hostLines l with
      | some h => h.recalled.isNone && h.claim.all fun t => t + 100000 ≤ s.now
      | none => true)
/-- The host's state of a line: 0 not held, 1 for reading, 2 for writing. -/
def lineState (s : State) (l : Nat) : Nat :=
  match alook s.hostLines l with
  | some h => h.state
  | none => 0
/-- The recall of a line has ended: the host's state, and the access that asked for it is next. What waits for the host's lines on
the module is taken up again. -/
def recallDone (s : State) (l st : Nat) : State :=
  finishWaiting { s with hostLines := aset s.hostLines l { state := st, claim := some s.now } } (moduleOf s.cur)
/-- The host's state of a line set, no recall on its way. -/
def setLine (s : State) (l st : Nat) : State := { s with hostLines := if st = 0 then adel s.hostLines l else aset s.hostLines l { state := st } }
/-- A message to the host that answers a line message: type 0x0C, status, address and data. -/
def lineAnswer (s : State) (l status : Nat) (b : List Byte) : State :=
  tellHost s (dieOf s.cur) (leBytes 1 0x0C ++ leBytes 1 status ++ leBytes 8 (64 * l % 2 ^ 44) ++ b)
/-- The line is sent to the host; one with an uncorrected error is answered by an error (Table 16.5). -/
def sendLine (s : State) (st : Nat) : Res :=
  let l := hostLine s
  if eccMem s l = 2 then .next (lineAnswer s l 1 [])
  else
    let s1 := eccCorrect s (64 * l) 64
    .next (lineAnswer (setLine s1 l st) l 0 (dramRead s1 (64 * l) 64))
/-- A halted die answers host messages with an error (Table 18.4). -/
def lineGuard (s : State) (k : State → Res) : Res :=
  if !lineOpen s then wait s else if dieHalted s then .next (lineAnswer s (hostLine s) 1 []) else k s
/-- `HOST_READ_SHARED` (R338): of a line the host does not hold for writing. -/
def execHostReadShared (s : State) : Res := lineGuard s fun s => if lineState s (hostLine s) = 2 then wait s else sendLine s 1
/-- `HOST_READ_OWN` (R338). -/
def execHostReadOwn (s : State) : Res := lineGuard s fun s => if lineState s (hostLine s) = 2 then wait s else sendLine s 2
/-- The record of a host message that does not fit the line's state: it writes nothing (R416). -/
def protocolRecord (s : State) (l type : Nat) : State :=
  writeRecord s (dieOf s.cur)
    { kind := 5, sev := 2, unit := 0x23, addr := 64 * l % 2 ^ 44, value := type + lineState s l * 256, place := diePlace (dieOf s.cur),
      detail := leBytes 1 2 }
/-- The bytes of a line written at its window, without errors. -/
def putLine (s : State) (l : Nat) (b : List Byte) : State := setEcc (dramWrite s (64 * l) (padTo 64 (b.take 64))) l 0 0
/-- `HOST_WRITE_BACK` (R338, R416): the line in `bytes`; with `flag` the host keeps it for reading. -/
def execHostWriteBack (s : State) : Res :=
  lineGuard s fun s =>
    let l := hostLine s
    if lineState s l ≠ 2 then .next (protocolRecord s l 0x0C)
    else .next (finishWaiting (setLine (putLine s l s.inp.bytes) l (if s.inp.flag then 1 else 0)) (moduleOf s.cur))
/-- `HOST_DROP` (R338, R416). -/
def execHostDrop (s : State) : Res :=
  lineGuard s fun s =>
    let l := hostLine s
    if lineState s l = 2 then .next (protocolRecord s l 0x0C) else .next (setLine s l 0)
/-- `HOST_RECALL_ACK` (R338): the recall or invalidation is acknowledged, with the data of a line held for writing. -/
def execHostRecallAck (s : State) : Res :=
  let l := hostLine s
  match alook s.hostLines l with
  | none => wait s
  | some h =>
    if h.recalled.isNone || !hostUp s (moduleOf s.cur) then wait s
    else
      let s1 := if h.state = 2 then putLine s l s.inp.bytes else s
      .next (recallDone s1 l h.wanted)
/-- `HOST_RECALL_TIMEOUT` (R416, R463): 100 µs after a recall, or with Zoengline down, the host's state is taken as not held,
and the last data written back serves. -/
def execHostRecallTimeout (s : State) : Res :=
  let l := hostLine s
  match alook s.hostLines l with
  | none => wait s
  | some h =>
    match h.recalled with
    | none => wait s
    | some t =>
      if s.now < t + 100000 && hostUp s (moduleOf s.cur) then wait s
      else .next (recallDone (protocolRecord s l 0x0C) l 0)

/-! ### Messages of the host on their way to a die (R334, R335) -/

/-- The events that are commands or answers of the host; line messages are `lineMessages`. -/
def hostCommands : List Instr :=
  [.hostEnqueue, .hostRead, .hostWrite, .hostFlush, .hostInvalidate, .installLegend, .revokePage, .hostTaskStop, .hostHalt, .dieReset,
   .debugArm, .debugStopCommand, .debugResume, .singleStep, .stepCancel, .rewriteReq, .attest, .testTile, .readState, .clearCounts,
   .retireUnit, .spareDramRow, .clearRepairMap, .setThresholds, .romImageWrite, .govbaseValidSet, .vdportModeWrite, .errcfgEnable,
   .errptrRdWrite, .errptrRead, .landcntRead, .savepoolWrite, .dumpcfgWrite, .registerWrite, .portRetrainCommand, .portDisableCommand,
   .powerDown, .pageFaultResume, .pageFaultStop]
/-- The host's line messages (R338). -/
def lineMessages : List Instr := [.hostReadShared, .hostReadOwn, .hostWriteBack, .hostDrop, .hostRecallAck]
/-- The host sends a command or line message with the inputs of the turn to the focused place: it enters at port A or B of the
module and travels as a packet, with data beyond 512 bytes in bulk packets of at most 4 KiB (R320). The packets of one message carry
its number. -/
def hostSend (s : State) (i : Instr) (portB : Bool) : State :=
  let e := dieOf s.cur / 16 * 16 + if portB then 15 else 0
  if (portAt s e 0).state ≠ .up || !(hostCommands ++ lineMessages).contains i then s
  else
    let b := if 512 < s.inp.bytes.length then s.inp.bytes else []
    let p : Nat → Body → Packet := fun cls x => { src := diePlace e, dst := s.cur, cls := cls, tenant := s.inp.tenant % 16, task := 0,
                                                  inst := (dieAt s e).hostSeq, body := x, since := s.now }
    let s1 := (chunks 4096 b).zipIdx.foldl (fun s x => sendPacket s (p 0 (.hostData (4096 * x.2) x.1))) s
    let s2 := sendPacket s1 (p 2 (.command i (if b = [] then s.inp else { s.inp with bytes := [] }) b.length))
    updDie s2 e fun x => { x with hostSeq := x.hostSeq + 1 }
/-- Data that came with a message. -/
def hostBytes (s : State) (p : Packet) : List (Nat × List Byte) :=
  (myDie s).inbox.filterMap fun q => match q.body with
    | .hostData va b => if q.src = p.src && q.inst = p.inst then some (va, b) else none
    | _ => none
/-- The message of the host that is next for the focused die, with its data: its instruction, and the inputs it acts on. -/
def hostMessage (s : State) : Option (Packet × Instr × Input) :=
  match pickPacket s (fun p _ => match p.body with
    | .command .. => true
    | _ => false) with
  | none => none
  | some (p, _) =>
    match p.body with
    | .command i inp n =>
      let l := hostBytes s p
      let b := (List.range (ceilDiv n 4096)).flatMap fun k => ((l.find? fun x => x.1 = 4096 * k).map (·.2)).getD []
      if b.length < n then none else some (p, i, if n = 0 then inp else { inp with bytes := b })
    | _ => none
/-- Responses that a die has sent. -/
def responses (s : State) (d : Nat) : Nat :=
  let x := dieAt s d
  ((x.answers ++ x.hostHeld ++ x.outbox.filterMap fun p => match p.body with
    | .host b => some b
    | _ => none).filter fun b => b.headD 0 = 0x0A).length
/-- What becomes of a message after the answer to it: one that has acted is gone, and one that has still to wait, as for a task that
is being stopped, is kept. -/
def hostActed (p : Packet) (i : Instr) (s s1 : State) : State :=
  let d := dieOf s.cur
  let done := if [Instr.revokePage, .retireUnit, .testTile].contains i then responses s d < responses s1 d else decide (s1 ≠ s)
  if done then updDie s1 d fun x => { x with inbox := x.inbox.filter fun q => !(q.src = p.src && q.inst = p.inst && match q.body with
    | .command .. | .hostData .. => true
    | _ => false) }
  else s1

/-! ### Host commands (R335, Table 10.10) -/

/-- Data for the host in bulk messages of type 0x0B, 4 KiB at most each. -/
def tellData (s : State) (b : List Byte) : State :=
  (chunks 4096 b).foldl (fun s x => tellHost s (dieOf s.cur) (leBytes 1 0x0B ++ x)) s
/-- The response to a command: type 0x0A, the command's place in Table 10.10, its status and data; data beyond 512 bytes go before it
in bulk messages. -/
def respond (s : State) (cmd status : Nat) (b : List Byte) : State :=
  let r := leBytes 1 0x0A ++ leBytes 1 cmd ++ leBytes 2 status
  if b.length ≤ 512 then tellHost s (dieOf s.cur) (r ++ b) else tellHost (tellData s b) (dieOf s.cur) r
/-- A command reaches its die: none does while Zoengline is down (R463), and a halted die answers with an error. -/
def command (cmd : Nat) (k : State → Res) (s : State) : Res :=
  if !hostUp s (moduleOf s.cur) then wait s
  else if dieHalted s || (myDie s).stage ≠ 2 then .next (respond s cmd 1 [])
  else k s
/-- `HOST_ENQUEUE` (R147, R225, R335, R418): the record at virtual address `addr` of a tenant; the management core writes
its tenant, and its priority is at most the tenant's. -/
def execHostEnqueue (s : State) : Res :=
  command 1 (fun s =>
    let d := dieOf s.cur
    let t := s.inp.tenant % 16
    match if s.inp.addr % 128 = 0 then tenantRead s d t s.inp.addr 128 else none with
    | none => .next (respond s 1 1 [])
    | some b =>
      let r := recSet b (min (recPriority b) (tenantAt s d t).priority) t
      match enqueue s d t s.inp.addr r with
      | .ok (h, s1) => .next (respond s1 1 0 (leBytes 4 h))
      | .error c => .next (respond s 1 c [])) s
/-- Bytes of memory at translated pieces, past the L2. -/
def bulkRead (s : State) (keys : List (Nat × Nat)) : List Byte := keys.flatMap fun x => dramRead s x.1 x.2
/-- Bytes written to memory at translated pieces, past the L2; a granule written whole holds no error. -/
def bulkWrite (tenant : Nat) : List (Nat × Nat) → List Byte → State → State
  | [], _, s => s
  | (k, n) :: r, b, s =>
    let s1 := chargeDram (dramWrite s k (b.take n)) k n tenant
    let s2 := if n = 64 && k % 64 = 0 then setEcc s1 (k / 64) 0 (eccL2 s1 (k / 64)) else s1
    bulkWrite tenant r (b.drop n) s2
/-- A granule of pieces holds an uncorrected error in memory. -/
def bulkBad (s : State) (keys : List (Nat × Nat)) : Bool := keys.any fun x => (linesOf x.1 x.2).any fun l => eccMem s l = 2
/-- `HOST_READ` (R335, R145): `len` bytes from `addr` of a tenant's memory, in bulk messages, then the response. -/
def execHostRead (s : State) : Res :=
  command 2 (fun s =>
    let t := s.inp.tenant % 16
    match netKeys s (dieOf s.cur) t false (pieces s.inp.addr s.inp.len) with
    | .error _ => .next (respond s 2 1 [])
    | .ok keys =>
      if bulkBad s keys then .next (respond s 2 1 [])
      else
        let s1 := keys.foldl (fun s x => chargeDram s x.1 x.2 t) s
        .next (respond (tellData s1 (bulkRead s keys)) 2 0 [])) s
/-- `HOST_WRITE` (R335, R145, R489): `bytes` to `addr` of a tenant's memory; lines held in L2 and L1 keep their bytes. -/
def execHostWrite (s : State) : Res :=
  command 3 (fun s =>
    let t := s.inp.tenant % 16
    match netKeys s (dieOf s.cur) t false (pieces s.inp.addr s.inp.bytes.length) with
    | .error _ => .next (respond s 3 1 [])
    | .ok keys => .next (respond (bulkWrite t keys s.inp.bytes s) 3 0 [])) s
/-- The lines of a range drop out of the L1 and instruction caches of a die's tiles. -/
def dropOnDie (d lo n : Nat) (s : State) : State :=
  let keep : Nat → Bool := fun l => !(lo ≤ 64 * l + 63 && 64 * l < lo + n)
  let out : Nat × List Byte → Bool := fun x => keep x.1
  { s with tiles := s.tiles.map fun e =>
      if e.1 / 128 = d then (e.1, { e.2 with
        l1 := e.2.l1.filter out, ic := e.2.ic.filter out, l1Bad := e.2.l1Bad.filter keep, icBad := e.2.icBad.filter keep }) else e }
/-- `HOST_FLUSH` (R337, R409): the dirty lines of `len` bytes from physical address `addr` in the die's slices are written
back as they stand, then the range's lines drop from its slices, L1 and instruction caches. -/
def execHostFlush (s : State) : Res :=
  command 4 (fun s =>
    let d := dieOf s.cur
    let lo := devKey (d / 16) s.inp.addr
    let n := s.inp.len
    let held := (s.l2.map (·.1)).filter fun l => homeDie (64 * l) = d && lo ≤ 64 * l + 63 && 64 * l < lo + n
    let s1 := held.foldl (fun s l => writeBack s l false) s
    .next (respond (dropOnDie d lo n s1) 4 0 [])) s
/-- `HOST_INVALIDATE` (R335, R117): as `TLBINV` at scope `.d`, for a tenant's range. -/
def execHostInvalidate (s : State) : Res :=
  command 5 (fun s =>
    let d := dieOf s.cur
    .next (respond (tlbDropOn s (fun t => t / 128 = d) (s.inp.tenant % 16) s.inp.addr s.inp.len) 5 0 [])) s

/-! ### Install legend (R336) -/

/-- The sheets of two legends' bounds meet. -/
def Legend.meets (a b : Legend) : Bool := meet a.low (4096 * a.size) b.low (4096 * b.size)
/-- Another valid legend of the atlas shares a sheet with a legend that is to be installed under an id. -/
def atlasMeets (s : State) (d tenant id : Nat) (l : Legend) : Bool :=
  (List.range (64 * (wbits (tenantAt s d tenant).atlasbase 0 10 + 1))).any fun k =>
    k ≠ id && (match tenantLegend s d tenant k with
      | some m => m.valid && l.meets m
      | none => false)
/-- The keys of `n` sheets from a virtual address, where each is mapped by a valid leaf. -/
def sheetKeys (s : State) (d tenant : Nat) : Nat → Nat → Option (List Nat)
  | _, 0 => some []
  | va, n + 1 =>
    match walk s d tenant va with
    | (.page t, _) => (sheetKeys s d tenant (va + 4096) n).map fun l => devKey (d / 16) (t.phys va) :: l
    | _ => none
/-- What an accepted install writes: the legend's key, and the keys of the sheets to be tagged. -/
def installable (s : State) (d tenant id : Nat) (l : Legend) : Option (Nat × List Nat) :=
  match legendVa (tenantAt s d tenant).atlasbase id with
  | none => none
  | some va =>
    if (l.valid && atlasMeets s d tenant id l) || !governedOk s d tenant (tenantAt s d tenant).atlasbase id l then none
    else
      match netKeys s d tenant false [(va, 64)], sheetKeys s d tenant l.low (if l.valid then l.size else 0) with
      | .ok [(key, _)], some sheets => some (key, sheets)
      | _, _ => none
/-- `INSTALL_LEGEND` (R336): the legend `bytes` at id `sel` of a tenant's atlas. -/
def execInstallLegend (s : State) : Res :=
  command 6 (fun s =>
    let d := dieOf s.cur
    let t := s.inp.tenant % 16
    let b := padTo 64 (s.inp.bytes.take 64)
    let l := legendOf b
    match installable s d t (s.inp.sel % 65536) l with
    | none => .next (respond s 6 2 [])
    | some (key, sheets) =>
      let s1 := pokeThrough s key (splice b 0x38 (leBytes 4 0))
      .next (respond (sheets.foldl (fun s k => setTag s k (l.edition % 256)) s1) 6 0 [])) s

/-! ### Revoke page (R336, R413) -/

/-- A lock entry, as `tlblk` holds it, holds a byte of a page. -/
def locksPage (v : Word) (lo n : Nat) : Bool :=
  bitOf v.toNat 63 && meet (wbits v 0 57 / 65536 * 65536) (2 ^ pageBits (wbits v 61 2)) lo n
/-- The lock entries of a save area. -/
def savedLocks (s : State) (x : SavedCtx) : List Word :=
  (List.range 16).map fun k => BitVec.ofNat 64 (leNat (peek s (x.area + 0x400 + 8 * (0x50 + k)) 8))
/-- The tasks of a tenant on a die that have a context, resident or saved, with a lock entry on a page: each with the
resident place, if any. -/
def pageHolders (s : State) (d tenant lo n : Nat) : List (Nat × Option Nat) :=
  (((dieResidents s d).filter fun p => (ctxAt s p).tenant = tenant
      && (List.range 16).any fun k => locksPage ((ctxAt s p).cr (0x050 + k)) lo n).map fun p => ((ctxAt s p).task, some p))
    ++ (((dieAt s d).saved.filter fun x => x.tenant = tenant && (savedLocks s x).any fun v => locksPage v lo n).map
        fun x => (x.task, none))
/-- The stop of a task for a revoked page, with its record (kind 6, subkind 2). -/
def revokeStop (s : State) (d va tenant h : Nat) (p : Option Nat) : State :=
  match taskAt s d h with
  | none => s
  | some t =>
    if t.stopping.isSome then s
    else
      let r : ErrRec := { kind := 6, sev := 3, unit := 0x44, addr := va, action := 4, place := p.getD (diePlace d),
                          tileValid := p.isSome, slotValid := p.isSome, task := h, tenant := tenant, detail := leBytes 1 2 }
      stopTask (writeRecord s d r) d h 10 p none
/-- `REVOKE_PAGE` (R336, R413): the page of size code `sel` at `addr`; the tasks that lock it are stopped with reason 10, and
the die answers once none of their contexts holds it. -/
def execRevokePage (s : State) : Res :=
  command 7 (fun s =>
    let d := dieOf s.cur
    let t := s.inp.tenant % 16
    let n := 2 ^ pageBits (s.inp.sel % 4)
    let lo := va57 s.inp.addr / n * n
    match pageHolders s d t lo n with
    | [] => .next (respond s 7 0 [])
    | l => .next (l.foldl (fun s x => revokeStop s d lo t x.1 x.2) s)) s

/-! ### Stopping a task, halting a die -/

/-- `HOST_TASK_STOP` (R384, R440): the task of handle `value` stops with reason 6. Where one of its contexts is held for a
dump, the dump is cancelled and the task is stopped with reason 14. -/
def execHostTaskStop (s : State) : Res :=
  command 8 (fun s =>
    let d := dieOf s.cur
    let h := wbits s.inp.value 0 32
    match taskAt s d h with
    | none => .next (respond s 8 1 [])
    | some _ =>
      let mine := (dieAt s d).dumps.filter fun n => n / 2 ^ 16 % 2 ^ 32 = h
      if mine = [] then .next (respond (stopTask s d h 6 none none) 8 0 [])
      else
        let s1 := mine.foldl (fun s n => dropDump s d n 3) s
        .next (respond (updTask s1 d h fun t => { t with stopping := some 14 }) 8 0 [])) s
/-- `HOST_HALT` (R386): the focused die halts with reason 4. -/
def execHostHalt (s : State) : Res := if !hostUp s (moduleOf s.cur) then wait s else .next (haltDie s (dieOf s.cur) 4)

end Sys2Proof.Machine
end

