-- ==== Sys2Proof/Machine/Route.lean ====
section
/-! DEFINITION. The fabric's topology and routes, and the bytes of packets and flits (10, R311 to R320; 18, R456). -/
namespace Sys2Proof.Machine

/-! ### Routes (R314, R456) -/

/-- The way around a ring of `n` from index `i` to `j`: whether positive, and whether it is the other direction, taken
because the shorter one crosses a cut link (link `t` joins indices `t` and `t + 1`). -/
def ringWay (n i j : Nat) (cut : Nat → Bool) : Bool × Bool :=
  let up := (j + n - i) % n
  let down := (i + n - j) % n
  let links := if up ≤ down then (List.range up).map fun t => (i + t) % n else (List.range down).map fun t => (i + n - 1 - t) % n
  if links.any cut then (!decide (up ≤ down), true) else (decide (up ≤ down), false)
/-- The virtual channel at index `c` of a ring entered at `i`: 0 until the dateline is crossed; 0 throughout on a path that
avoids a failed link. -/
def ringChannel (i c : Nat) (way : Bool × Bool) : Nat :=
  if way.2 then 0 else if way.1 then (if c < i then 1 else 0) else (if i < c then 1 else 0)
/-- A die knows a link end to be cut: it has been told, or the port is its own. -/
def knowsCut (s : State) (d e k : Nat) : Bool := (dieAt s d).cut.contains (e * 8 + k) || (e = d && (portAt s d k).state = .failed)
/-- A link, named by the end at a port of a die, is cut as die `d` knows it. -/
def linkCut (s : State) (d e k : Nat) : Bool :=
  knowsCut s d e k || (match peerOf s.z e k with
    | some (e', k') => knowsCut s d e' k'
    | none => false)
/-- The output port (7: this die) and channel of a packet at a die: dimension Z first, then X, then Y. -/
def route (s : State) (d : Nat) (p : Packet) : Nat × Nat :=
  let src := dieOf p.src
  let dst := dieOf p.dst
  let m := dst / 16
  if d / 16 ≠ m then
    let w := ringWay s.z (src / 16) m fun t => linkCut s d (t * 16 + src % 16) 5
    (if w.1 then 5 else 6, ringChannel (src / 16) (d / 16) w)
  else if colOf d ≠ colOf dst then
    let w := ringWay 4 (fold (colOf src)) (fold (colOf dst)) fun t => linkCut s d (m * 16 + rowOf src * 4 + fold t) 1
    (if w.1 then 1 else 2, ringChannel (fold (colOf src)) (fold (colOf d)) w)
  else if rowOf d ≠ rowOf dst then
    let w := ringWay 4 (fold (rowOf src)) (fold (rowOf dst)) fun t => linkCut s d (m * 16 + fold t * 4 + colOf dst) 3
    (if w.1 then 3 else 4, ringChannel (fold (rowOf src)) (fold (rowOf d)) w)
  else (7, 0)
/-- The link ends a packet leaves by on its way from a die, as that die knows the fabric. -/
def pathFrom (s : State) (p : Packet) : Nat → Nat → List (Nat × Nat)
  | 0, _ => []
  | fuel + 1, d =>
    let k := (route s d p).1
    if k = 7 then []
    else
      match peerOf s.z d k with
      | none => [(d, k)]
      | some (e, _) => (d, k) :: pathFrom s p fuel e
/-- The path of a packet uses a link, named by its end at a port of a die. -/
def pathUses (s : State) (p : Packet) (e k : Nat) : Bool :=
  (pathFrom s p 80 (dieOf p.src)).any fun x => x = (e, k) || peerOf s.z x.1 x.2 = some (e, k)

/-! ### Packets as bytes (R318 to R320, Tables 10.3 to 10.5) -/

/-- The type of a packet. The notices of dies, among them the refusal of a `SEND`, are management packets. -/
def Body.type : Body → Nat
  | .posted .. => 0x01
  | .ack .. | .netAck .. | .delivered _ => 0x02
  | .netWrite .. => 0x03
  | .readReq .. => 0x04
  | .readResp .. => 0x05
  | .send .. => 0x06
  | .join .. | .leave _ | .answer .. | .groupLost _ => 0x07
  | .arrive .. => 0x08
  | .release .. => 0x09
  | .command i _ _ => if lineMessages.contains i then 0x0C else 0x0A
  | .hostData .. => 0x0B
  | .host b => (b.headD 0).toNat
  | .time => 0x0D
  | .barTimeout .. | .taint _ | .loss _ | .failure .. | .refusal .. => 0x0E
/-- The address field. -/
def Body.addr : Body → Nat
  | .posted _ _ cells _ _ _ _ => (cells.map (·.1)).headD 0
  | .netWrite va _ _ _ => va57 va
  | .netAck _ _ _ va _ => va57 va
  | .readReq parts _ => (parts.map (·.1)).headD 0
  | .readResp _ _ tag => tag.dst
  | .hostData va _ => va57 va
  | _ => 0
/-- The step tag. -/
def Body.stepTag : Body → Nat
  | .posted _ st _ _ _ _ _ => st
  | .readResp _ _ tag => tag.step
  | _ => 0
/-- The aux field. A network write names no byte barrier (R264). -/
def Body.aux : Body → Nat
  | .posted _ _ _ _ _ (some bb) _ => bb + 2 ^ 63
  | .ack _ _ granules _ _ _ _ _ => granules
  | .send _ line _ _ => line.toNat
  | .readReq parts _ => (parts.map (·.2)).sum % 2 ^ 13
  | .readResp _ _ tag => match tag.bb with
    | some bb => bb + 2 ^ 63
    | none => 0
  | .arrive id gen | .release id gen => id + gen % 2 ^ 32 * 2 ^ 32
  | .join id _ _ | .leave id | .answer id _ _ _ _ | .groupLost id => id
  | _ => 0
/-- Bytes follow each other from the first address on. -/
def oneRun (l : List Host.Cell) : Bool := l.zipIdx.all fun (x, k) => x.1 = (l.map (·.1)).headD 0 + k
/-- The payload. Of a posted write or a read request whose bytes do not lie in one run, which the header's one address cannot
give, it holds the places too; the layouts of commands and notices, which the spec does not give, are the model's (DESIGN CHOICE,
log 27). -/
def Body.payload : Body → List Byte
  | .posted _ _ cells _ _ _ _ =>
    if oneRun cells then cells.map (·.2) else cells.flatMap fun x => leBytes 4 x.1 ++ [x.2]
  | .netWrite _ b _ _ => b
  | .readReq parts _ => if parts.length ≤ 1 then [] else parts.flatMap fun x => leBytes 4 x.1 ++ leBytes 4 x.2
  | .readResp b _ _ => b
  | .send b _ _ _ => b
  | .release .. => List.replicate 64 0
  | .join _ chart gear => leBytes 1 1 ++ leBytes 1 (if chart then 1 else 0) ++ leBytes 1 gear
  | .leave _ => leBytes 1 2
  | .answer _ code gear chart _ => leBytes 1 3 ++ leBytes 1 (if chart then 1 else 0) ++ leBytes 1 gear ++ leBytes 2 code
  | .groupLost _ => leBytes 1 4
  | .refusal target reason _ => leBytes 4 target ++ leBytes 4 reason
  | .taint x => leBytes 1 1 ++ leBytes 4 x.src ++ leBytes 4 x.dst ++ leBytes 4 x.task
  | .loss x => leBytes 1 2 ++ leBytes 4 x.src ++ leBytes 4 x.dst ++ leBytes 4 x.task
  | .failure die port _ => leBytes 1 3 ++ leBytes 2 die ++ leBytes 1 port
  | .command _ x _ => leBytes 4 x.sel ++ leBytes 4 x.unit ++ leBytes 8 x.addr ++ leBytes 4 x.len ++ leBytes 8 x.value.toNat ++ x.bytes
  | .hostData _ b => b
  | .host b => b.tail
  | _ => []
/-- The header flit's payload (Table 10.4). -/
def headerFlit (p : Packet) : List Byte :=
  let n := p.body.payload.length
  let step := p.body.stepTag
  padTo 64 (leBytes 1 p.body.type ++ leBytes 1 (p.tenant % 16 + p.cls * 16) ++ leBytes 1 (ceilDiv n 64)
    ++ leBytes 1 (if n = 0 then 0 else (n - 1) % 64 + 1) ++ leBytes 4 p.dst ++ leBytes 4 p.src ++ leBytes 2 step ++ leBytes 2 0
    ++ leBytes 8 p.body.addr ++ leBytes 8 p.body.aux
    ++ if p.crosses then (padTo 28 (Config.uetFields (dieOf p.src) (dieOf p.dst) (match p.psn with
        | some (n, _) => n
        | none => 0))).take 28 else List.replicate 28 0)

/-! ### Flits (R316, Table 10.2) -/

/-- A control word without its sequence number, acknowledgement, credits and CRC. -/
def ctlWord (kind cls : Nat) (sop eop : Bool) (vc tgpos : Nat) : Nat :=
  kind + tgpos * 2 ^ 4 + vc * 2 ^ 10 + (if eop then 2 ^ 20 else 0) + (if sop then 2 ^ 21 else 0) + cls * 2 ^ 22
/-- Fields of a control word. -/
def Flit.kind (f : Flit) : Nat := bits f.ctl 0 4
def Flit.tgpos (f : Flit) : Nat := bits f.ctl 4 4
def Flit.vc (f : Flit) : Nat := bits f.ctl 10 1
def Flit.cls (f : Flit) : Nat := bits f.ctl 22 2
def Flit.eop (f : Flit) : Bool := bitOf f.ctl 20
def Flit.sop (f : Flit) : Bool := bitOf f.ctl 21
def Flit.seq (f : Flit) : Nat := bits f.ctl 36 12
def Flit.ack (f : Flit) : Nat := bits f.ctl 24 12
/-- Credits returned: index (class × 2 + channel) and number. -/
def Flit.credit (f : Flit) : Nat × Nat := (bits f.ctl 18 2 * 2 + bits f.ctl 11 1, bits f.ctl 12 6)
/-- CRC-16, polynomial 0x8BB7: one bit, and one byte. -/
def crcBit (c : Nat) : Nat := if 32768 ≤ c then (c * 2 % 65536) ^^^ 0x8BB7 else c * 2
def crcByte (c : Nat) (b : Byte) : Nat :=
  crcBit (crcBit (crcBit (crcBit (crcBit (crcBit (crcBit (crcBit (c ^^^ (b.toNat * 256)))))))))
def crc16 (l : List Byte) : Nat := l.foldl crcByte 0
/-- The CRC of a flit: of its payload and of control bits [47:0]. -/
def flitCrc (payload : List Byte) (ctl : Nat) : Nat := crc16 (payload ++ leBytes 6 (ctl % 2 ^ 48))
/-- The CRC of a received flit checks, and its kind and code are no reserved ones (R444, R447). -/
def Flit.good (f : Flit) : Bool :=
  f.payload.length = 64 && bits f.ctl 48 16 = flitCrc f.payload f.ctl && f.kind ≤ 3
/-- A control word completed: sequence number, acknowledgement, credits, CRC. -/
def finishCtl (payload : List Byte) (ctl seq ack : Nat) (credit : Nat × Nat) : Nat :=
  let w := ctl + credit.1 % 2 * 2 ^ 11 + credit.2 % 64 * 2 ^ 12 + credit.1 / 2 % 4 * 2 ^ 18 + ack % 4096 * 2 ^ 24 + seq % 4096 * 2 ^ 36
  w + flitCrc payload w * 2 ^ 48
/-- The flits of a packet in clear, to leave on a channel (R318). -/
def flitsOf (p : Packet) (vc : Nat) : List Flit :=
  let parts := chunks 64 p.body.payload
  let n := parts.length
  { payload := headerFlit p, ctl := ctlWord 1 p.cls true (n = 0) vc 0, pkt := some p }
    :: parts.zipIdx.map fun (b, k) => { payload := padTo 64 b, ctl := ctlWord 1 p.cls false (k + 1 = n) vc 0, pkt := some p }
/-- Payload bytes of a packet that one of its flits carries. -/
def flitBytes (f : Flit) : Nat :=
  match f.pkt with
  | none => 0
  | some p =>
    if f.sop then 0
    else if f.eop then (p.body.payload.length - 1) % 64 + 1
    else 64
/-- A flit with another channel. -/
def Flit.onVc (f : Flit) (vc : Nat) : Flit := { f with ctl := ctlWord f.kind f.cls f.sop f.eop vc 0 }

end Sys2Proof.Machine
end

