-- ==== Sys2Proof/Machine/Links.lean ====
section
/-! DEFINITION. Losing a packet, and a failed port: notices, regeneration and end-to-end resend (18, R449, R453 to R458; 10,
R333). -/
namespace Sys2Proof.Machine

/-! ### What a lost packet was (R449, R455) -/

/-- What a packet's header names, and what of its sender waits for it. -/
def Packet.named (p : Packet) : Named :=
  let x : Named := { type := p.body.type, src := p.src, dst := p.dst, tenant := p.tenant, task := p.task, inst := p.inst, addr := p.body.addr }
  match p.body with
  | .posted w _ cells granules copy _ _ => { x with win := w, granules := granules, copy := copy, bytes := cells.length }
  | .ack w _ granules copy _ b _ _ => { x with win := w, granules := granules, copy := copy, bytes := b }
  | .netWrite _ b copy _ => { x with copy := some copy, bytes := b.length }
  | .netAck copy b _ _ _ => { x with copy := some copy, bytes := b }
  | .readReq parts tag => { x with copy := some tag.copy, off := tag.off, bytes := (parts.map (·.2)).sum }
  | .readResp data _ tag => { x with copy := some tag.copy, off := tag.off, bytes := data.length }
  | .arrive id _ | .release id _ => { x with group := id }
  | _ => x
/-- The place of the context that waits for the packet's answer. -/
def Named.owner (x : Named) : Nat := if x.type = 0x02 || x.type = 0x05 then x.dst else x.src
/-- What waited for the answer of a lost packet waits no more: its granules count as answered, its read as refused. -/
def endLost (s : State) (x : Named) : State :=
  match senderOf s x.owner x.task x.inst with
  | none => s
  | some q =>
    updCtx s q fun c =>
      let c1 := if x.granules = 0 then c else setWinOut c x.win (winOut c x.win - x.granules)
      match x.copy with
      | none => c1
      | some k =>
        if x.type = 0x04 || x.type = 0x05 then
          match alook c1.copies k with
          | some y => { c1 with copies := aset c1.copies k (readAnswered y x.off (List.replicate x.bytes 0) true) }
          | none => c1
        else granuleAnswered c1 k x.bytes
/-- The contexts of a die that a header names: the sender's, and the one at the place it is addressed to. -/
def namedHere (s : State) (d : Nat) (x : Named) : List Nat :=
  let fits : Nat → Bool := fun q => dieOf q = d && (ctxAt s q).phase ≠ .empty && (ctxAt s q).tenant = x.tenant
  let sender := if x.type = 0x02 || x.type = 0x05 then x.dst else x.src
  let other := if x.type = 0x02 || x.type = 0x05 then x.src else x.dst
  ((if dieOf sender = d then (senderOf s sender x.task x.inst).toList.filter fits else []) ++ [other].filter fits).eraseDups
/-- The tasks of the contexts of a die that a header names are stopped. -/
def stopNamed (s : State) (d reason : Nat) (x : Named) : State :=
  (namedHere s d x).foldl (fun s q => stopTask s d (ctxAt s q).task reason (some q) none) s
/-- A record of kind 9 about a packet: its address field, source and destination. -/
def packetRecord (s : State) (d sub sev : Nat) (x : Named) (action : Nat) : State :=
  writeRecord s d { kind := 9, sev := sev, unit := 0x30, addr := x.addr, value := x.src + x.dst * 2 ^ 32, action := action,
                    place := diePlace d, tenant := x.tenant, task := x.task, inst := x.inst, detail := leBytes 1 sub }
/-- A die learns that a packet was lost: the tasks it hosts that the header names stop with reason 15, each stop with a
record (R455). -/
def lossHere (s : State) (d : Nat) (x : Named) : State :=
  let going := (namedHere s d x).filter fun q => match taskAt s d (ctxAt s q).task with
    | some t => t.stopping.isNone
    | none => false
  let s1 := going.foldl (fun s _ => packetRecord s d 6 3 x 4) s
  let s2 := stopNamed s1 d 15 x
  if dieOf x.owner = d then endLost s2 x else s2
/-- A notice from one die to another, or taken where it is made. -/
def notify (s : State) (d e : Nat) (b : Body) (here : State → State) : State :=
  if d = e then here s
  else sendPacket s { src := diePlace d, dst := diePlace e, cls := 2, tenant := 0, task := 0, body := b, since := s.now }
/-- The members of a tainted group's packet are stopped with reason 16, from its home (Table 18.2). -/
def taintGroup (s : State) (d : Nat) (x : Named) : State :=
  match groupAt s x.group with
  | none => s
  | some g =>
    g.members.foldl (fun s m =>
      let y : Named := { x with type := 0, src := diePlace (memberDie m), dst := diePlace (memberDie m), task := memberTask m, inst := memberInst m }
      notify s d (memberDie m) (.taint y) fun s => stopTask s d (memberTask m) 16 none none) s
/-- A die learns that a packet was tainted (R449): its tasks that the header names stop with reason 16; of a group's packet,
the home stops the members. -/
def taintHere (s : State) (d : Nat) (x : Named) : State :=
  if x.type = 0 then stopTask s d x.task 16 none none
  else if x.type = 0x08 || x.type = 0x09 then (if dieOfId x.group = d then taintGroup s d x else s)
  else stopNamed s d 16 x
/-- The dies that a packet's source and destination fields name. -/
def namedDies (x : Named) : List Nat := [dieOf x.src, dieOf x.dst].eraseDups
/-- A packet is discarded at a die (R455): between modules it is sent again end to end; of the same module its loss is
named to its dies; a regenerated type and a time message are dropped, the host's messages are reported to it, and a message to the
host or a notice is sent anew. -/
def losePacket (s : State) (d : Nat) (p : Packet) : State :=
  let x := p.named
  if p.crosses then s
  else if 0x07 ≤ x.type && x.type ≤ 0x09 || x.type = 0x0D then s
  else if x.type = 0x0A || x.type = 0x0B || x.type = 0x0C then
    match p.body with
    | .host b => tellHost s d b
    | _ => tellHost s d (leBytes 1 0x0E ++ leBytes 4 x.src ++ leBytes 4 x.dst)
  else if x.type = 0x0E then
    notify s d (dieOf p.dst) p.body fun s => updDie s d fun y => { y with inbox := y.inbox ++ [p] }
  else (namedDies x).foldl (fun s e => notify s d e (.loss x) fun s => lossHere s d x) s
/-- A packet with a flit in a failed group of a skid link (Table 18.2), at a die. -/
def taintPacket (s : State) (d : Nat) (p : Packet) : State :=
  let x := p.named
  let s1 := packetRecord s d 4 3 x 0
  if x.type = 0x0D then s1
  else if 0x0A ≤ x.type then tellHost s1 d (leBytes 1 0x0E ++ leBytes 4 x.src ++ leBytes 4 x.dst)
  else if x.type = 0x08 || x.type = 0x09 then notify s1 d (dieOfId x.group) (.taint x) fun s => taintHere s d x
  else (namedDies x).foldl (fun s e => notify s d e (.taint x) fun s => taintHere s d x) s1

/-! ### A failed link's notices (R455 to R457) -/

/-- Barrier arrivals, join and leave requests of a die's contexts are sent again. -/
def resendContext (s : State) (p : Nat) : State :=
  let c := ctxAt s p
  let from' : State → Nat → Nat → Body → State := fun s id cls b =>
    sendPacket s { src := p, dst := homeOf id, cls := cls, tenant := c.tenant, task := c.task, inst := c.inst, body := b, since := s.now }
  let s1 := c.grp.foldl (fun s g =>
    let v := c.cr (0x044 + g.1)
    if bitOf v.toNat 63 && (alook c.rel g.1).isNone then from' s g.2 3 (.arrive g.2 (wbits v 0 32)) else s) s
  if !c.asked then s1
  else
    match c.qC.head?.bind (decodeEntry .c) with
    | some (.gjoin a ch) => if c.stopDue then s1 else from' s1 ((c.gr a).toNat % 2 ^ 32) 2 (.join ((c.gr a).toNat % 2 ^ 32) ch c.req)
    | some (.gleave a) =>
      if c.stopDue then c.grp.foldl (fun s g => from' s g.2 2 (.leave g.2)) s1
      else from' s1 ((c.gr a).toNat % 2 ^ 32) 2 (.leave ((c.gr a).toNat % 2 ^ 32))
    | _ => c.grp.foldl (fun s g => from' s g.2 2 (.leave g.2)) s1
/-- The last release of each group homed on a die is sent to every member again. -/
def resendReleases (s : State) (d : Nat) : State :=
  (dieAt s d).groups.foldl (fun s g =>
    let id := d * 2 ^ 22 + g.1
    g.2.members.foldl (fun s m => tellMember s id m 3 (.release id ((g.2.generation + 2 ^ 32 - 1) % 2 ^ 32))) s) s
/-- An unacknowledged end-to-end packet leaves its source again. -/
def resendUet (s : State) (d : Nat) (p : Packet) : State :=
  updDie s d fun x =>
    let q := uetBase x { p with last := s.now }
    { x with uet := x.uet.map fun y => if y.psn.map (·.1) = p.psn.map (·.1) && dieOf y.dst = dieOf p.dst then q else y
             outbox := x.outbox ++ [q] }
/-- An end-to-end packet waits at its source's router already. -/
def inOutbox (x : Die) (p : Packet) : Bool :=
  x.outbox.any fun y => y.psn.map (·.1) = p.psn.map (·.1) && dieOf y.dst = dieOf p.dst && y.psn.isSome
/-- A die learns that the link at a die's port has failed, or is up again: its routes follow, and what the failure may have
lost is sent again. -/
def learnLink (s : State) (d e k : Nat) (up : Bool) : State :=
  let ends := (e * 8 + k) :: match peerOf s.z e k with
    | some (e', k') => [e' * 8 + k']
    | none => []
  let hit := if up then [] else (dieAt s d).uet.filter fun p => pathUses s p e k && !inOutbox (dieAt s d) p
  let s1 := updDie s d fun x => { x with cut := if up then x.cut.filter fun c => !ends.contains c else (x.cut ++ ends).eraseDups }
  if up then s1
  else
    let s2 := hit.foldl (fun s p => resendUet s d p) s1
    resendReleases ((dieResidents s2 d).foldl resendContext s2) d
/-- Every die of the system is told of a link (R455, R456). -/
def tellLink (s : State) (d k : Nat) (up : Bool) : State :=
  (List.range (16 * s.z)).foldl (fun s e => notify s d e (.failure d k up) fun s => learnLink s d d k up) s

/-! ### A port that fails (R453, R454) -/

/-- The unit of a port (Table 15.7), and a record of kind 9 about it (R466). -/
def portUnit (k : Nat) : Nat := 0x31 + portKind k
def portRecord (s : State) (d k sub value sev : Nat) : State :=
  writeRecord s d { kind := 9, sev := sev, unit := portUnit k, eng := k, array := if k = 0 then d % 16 / 15 else 0xFFFF, value := value,
                    action := if sev = 4 then 5 else 0, place := diePlace d, detail := leBytes 1 sub }
/-- The state of a port, in `vdport` too. -/
def setPort (s : State) (d k : Nat) (st : PortState) : State :=
  updPort s d k fun x => { x with state := st, vdport := wput x.vdport 8 4 st.code }
/-- A credit is owed to the sender of an input buffer. -/
def oweCredit (x : Port) (i n : Nat) : Port := if n = 0 then x else { x with owed := zset 0 x.owed i (zlook 0 x.owed i + n) }
/-- A flit of a packet, by what names it within the fabric. -/
def sameFlit (p : Packet) (f : Flit) : Bool := f.pkt = some p
/-- A packet's flits leave the input buffers of a die, their credits owed; what of it is still to come is discarded. -/
def purge (s : State) (d : Nat) (p : Packet) : State :=
  ([1, 2, 3, 4, 5, 6] : List Nat).foldl (fun s k =>
    let x := portAt s d k
    let mine : Held → Bool := fun h => sameFlit p h.flit
    if !(x.bufs.any fun b => b.2.any mine) && !(x.slots.any fun y => y.2.pkt = p) then s
    else
      let y := x.bufs.foldl (fun y b => oweCredit y b.1 (b.2.filter mine).length) x
      updPort s d k fun _ => { y with
        bufs := x.bufs.map fun b => (b.1, b.2.filter fun h => !mine h)
        slots := x.slots.map fun z => (z.1, if z.2.pkt = p then { z.2 with drop := true } else z.2) }) s
/-- An abort flit for a class and channel waits on an output, and counts in the survey (R447, R454). -/
def sendAbort (s : State) (d k cls vc : Nat) : State :=
  updPort (if k = 0 then s else surveyCount s d (portCounts k + 52) 1) d k fun x => { x with
    ctlOut := x.ctlOut ++ [padTo 64 (leBytes 1 3 ++ leBytes 1 cls ++ leBytes 1 vc)] }
/-- The outputs on which a packet is unfinished end it with an abort. -/
def abortOutputs (s : State) (d : Nat) (p : Packet) : State :=
  ([1, 2, 3, 4, 5, 6] : List Nat).foldl (fun s k =>
    match (portAt s d k).sending.find? fun x => x.2.pkt = p with
    | none => s
    | some (c, x) => sendAbort (updPort s d k fun y => { y with sending := adel y.sending c }) d k c x.vc) s
/-- The slot of a class on an input is discarded whole: a local packet never acts, a transit packet is aborted onward. -/
def dropSlot (s : State) (d k cls : Nat) : State :=
  match alook (portAt s d k).slots cls with
  | none => s
  | some x =>
    let s1 := updPort s d k fun y => { y with slots := adel y.slots cls }
    if x.out = 7 then s1 else purge (abortOutputs s1 d x.pkt) d x.pkt
/-- The packets that a failing output has not wholly sent, or that are not wholly acknowledged. -/
def unsent (s : State) (d k : Nat) : List Packet :=
  let x := portAt s d k
  let waiting := ([1, 2, 3, 4, 5, 6] : List Nat).flatMap fun j =>
    (portAt s d j).bufs.flatMap fun b => (b.2.filter fun h => h.out = k).filterMap fun h => h.flit.pkt
  (x.sending.map (·.2.pkt) ++ (x.retry.filterMap fun y => y.flit.pkt) ++ waiting).eraseDups
/-- A port that starts afresh: nothing on its wire, in its buffers or unacknowledged. -/
def Port.cleared (x : Port) : Port :=
  { x with
    wire := [], txSeq := 0, rxSeq := 0, retry := [], resend := none, ctlOut := [], ctlIn := [], used := [], owed := [], slots := []
    sending := [], since := [], idles := 0, groupTx := [], groupRx := [], counterTx := 0, counterRx := 0, keyTx := none, keyRx := none
    copies := [], backlog := [], nextTx := none, nextRx := none, exchanging := false, peerReady := none, halfSig := [], asked := none, asks := [], reqRun := 0, tagFails := [] }
/-- One end of a failing link (R454). -/
def failPort (s : State) (d k cause : Nat) : State :=
  let x := portAt s d k
  let s1 := portRecord (setPort s d k .failed) d k 5 cause 4
  let s2 := x.slots.foldl (fun s y => losePacket (dropSlot s d k y.1) d y.2.pkt) s1
  let s3 := (unsent s2 d k).foldl (fun s p => losePacket (purge s d p) d p) s2
  updPort s3 d k Port.cleared
/-- A link fails at both its ends; every die is told. -/
def failLink (s : State) (d k cause : Nat) : State :=
  if (portAt s d k).state = .failed then s
  else
    let s1 := tellLink (failPort s d k cause) d k false
    match peerOf s.z d k with
    | some (e, j) => if (portAt s1 e j).state = .failed then s1 else tellLink (failPort s1 e j cause) e j false
    | none => s1

/-! ### Notices arriving -/

/-- The candidate notice of a kind in the focused die's inbox acts. -/
def onNotice (pick : Body → Bool) (k : State → Body → Res) (s : State) : Res :=
  match pickPacket s (fun p _ => pick p.body) with
  | none => wait s
  | some (p, j) => k (dropPacket s j) p.body
/-- `TAINT_NOTICE` (R449). -/
def execTaintNotice (s : State) : Res :=
  onNotice (fun b => match b with
    | .taint _ => true
    | _ => false) (fun s b => match b with
    | .taint x => .next (taintHere s (dieOf s.cur) x)
    | _ => wait s) s
/-- `LOSS_NOTICE` (R455). -/
def execLossNotice (s : State) : Res :=
  onNotice (fun b => match b with
    | .loss _ => true
    | _ => false) (fun s b => match b with
    | .loss x => .next (lossHere s (dieOf s.cur) x)
    | _ => wait s) s
/-- `FAILURE_NOTICE` (R455 to R457). -/
def execFailureNotice (s : State) : Res :=
  onNotice (fun b => match b with
    | .failure .. => true
    | _ => false) (fun s b => match b with
    | .failure e k up => .next (learnLink s (dieOf s.cur) e k up)
    | _ => wait s) s

/-! ### End-to-end delivery (R333, R457) -/

/-- The floor of the numbers of a source die, below which every packet was delivered or given up, and the flow of a
packet at its destination. -/
def floorKey (p : Packet) : Nat := dieOf p.src * 8 + 7
def rodKey (p : Packet) : Nat := dieOf p.src * 8 + p.cls
/-- A packet between modules is acknowledged to its source. -/
def confirm (s : State) (p : Packet) (n : Nat) : State :=
  sendPacket s { src := p.dst, dst := p.src, cls := 2, tenant := p.tenant, task := p.task, inst := p.inst, body := .delivered n, since := s.now }
/-- A packet of number `n` has been delivered once: the destination's store follows. -/
def noteDelivered (x : Die) (p : Packet) (n base : Nat) : Die :=
  let floor := max base (zlook 0 x.rodSeen (floorKey p))
  let seen := ((alook x.uetSeen (dieOf p.src)).getD []).filter fun k => floor ≤ k
  let y : Die := { x with
    uetSeen := aset x.uetSeen (dieOf p.src) (seen ++ [n]), rodSeen := zset 0 x.rodSeen (floorKey p) floor
    uetAcks := x.uetAcks.filter fun q => !(dieOf q.dst = dieOf p.src) || q.conf.any fun k => floor ≤ k }
  match p.rod with
  | some (m, _) => { y with rodSeen := aset y.rodSeen (rodKey p) (m + 1) }
  | none => y
/-- A type that is answered by an acknowledgement (0x02), which across modules is its end-to-end acknowledgement (R333). -/
def Body.acked : Body → Bool
  | .posted .. | .netWrite .. => true
  | _ => false
/-- The packet that number `n` of a die names is acknowledged to this one. -/
def endUet (p : Packet) (n : Nat) (x : Die) : Die :=
  { x with uet := x.uet.filter fun q => !(dieOf q.dst = dieOf p.src && q.psn.map (·.1) = some n) }
/-- The packet of number `n` waits for its acknowledgement at its source. -/
def waitsFor (x : Die) (p : Packet) (n : Nat) : Bool := x.uet.any fun q => dieOf q.dst = dieOf p.src && q.psn.map (·.1) = some n
/-- A packet has come again: its acknowledgement goes again, where it has been sent. -/
def ackAgain (s : State) (d : Nat) (p : Packet) (n : Nat) : State :=
  if !p.body.acked then confirm s p n
  else
    match (dieAt s d).uetAcks.find? fun q => dieOf q.dst = dieOf p.src && q.conf = some n with
    | some q => updDie s d fun x => { x with outbox := x.outbox ++ [{ q with last := s.now }] }
    | none => s
/-- A packet reaches what it is for at its die: a message to the host leaves it at the Zoengline port, another waits to act. -/
def handOver (p : Packet) (x : Die) : Die :=
  match p.body with
  | .host b => { x with answers := x.answers ++ [b] }
  | _ => { x with inbox := x.inbox ++ [p] }
/-- A packet wholly received at its die: delivered once, in its flow's order where it has one; an acknowledgement ends the packet it
names, and acts the first time it comes. -/
def deliver (s : State) (d : Nat) (p : Packet) : State :=
  match p.body, p.conf, p.psn with
  | .delivered n, _, _ => updDie s d (endUet p n)
  | _, some n, _ => if waitsFor (dieAt s d) p n then updDie s d fun x => handOver p (endUet p n x) else s
  | _, none, none => updDie s d (handOver p)
  | _, none, some (n, base) =>
    let x := dieAt s d
    let late := n < zlook 0 x.rodSeen (floorKey p) || ((alook x.uetSeen (dieOf p.src)).getD []).contains n
    match p.rod with
    | none => if late then ackAgain s d p n else accept n base
    | some (m, b) =>
      let next := max b (zlook 0 x.rodSeen (rodKey p))
      if late || m < next then ackAgain s d p n else if next < m then s else accept n base
where
  /-- The packet acts; one that no acknowledgement of its own will answer is acknowledged. -/
  accept (n base : Nat) : State :=
    let s1 := updDie s d fun x => handOver p (noteDelivered x p n base)
    if p.body.acked then s1 else confirm s1 p n
/-- `UET_RETRANSMIT_TIMEOUT` (R457): a packet unacknowledged for 2 ms is sent again. -/
def execUetRetransmitTimeout (s : State) : Res :=
  let d := dieOf s.cur
  let x := dieAt s d
  match (x.uet.filter fun p => p.last + 2000000 ≤ s.now && !inOutbox x p)[s.inp.sel]? with
  | none => wait s
  | some p => .next (resendUet s d p)
/-- `UET_GIVE_UP` (R457): a packet unacknowledged for 64 ms is given up, the sending context's task stopped with reason 15. -/
def execUetGiveUp (s : State) : Res :=
  let d := dieOf s.cur
  let x := dieAt s d
  match (x.uet.filter fun p => p.since + 64000000 ≤ s.now)[s.inp.sel]? with
  | none => wait s
  | some p =>
    let same : Packet → Bool := fun q => q.psn.map (·.1) = p.psn.map (·.1) && dieOf q.dst = dieOf p.dst && q.psn.isSome
    let s1 := updDie s d fun x => { x with uet := x.uet.filter (fun q => !same q), outbox := x.outbox.filter fun q => !same q }
    let s2 := packetRecord s1 d 10 3 p.named 4
    let s3 := match senderOf s2 p.src p.task p.inst with
      | some q => stopTask s2 d (ctxAt s2 q).task 15 (some q) none
      | none => s2
    .next (endLost s3 p.named)

end Sys2Proof.Machine
end

