-- ==== Sys2Proof/Machine/Flits.lean ====
section
/-! DEFINITION. Flits on the links: what a port sends, what it accepts, tag groups, and link-level retry (10, R316, R317, R321
to R328; 18, R444 to R450, R458). -/
namespace Sys2Proof.Machine

/-! ### Sending (R316, R325 to R327, R445) -/

/-- The port is protected, and keyed. -/
def Port.keyed (x : Port) : Bool := x.keyTx.isSome
/-- A payload under a keystream; the same operation takes it off. -/
def cipher (key dir counter pos : Nat) (b : List Byte) : List Byte :=
  b.zipWith (· ^^^ ·) (padTo 64 (gcmStream key dir counter pos))
/-- The additional data of a group: of each flit, control bits [23:20], then bits [7:0]. -/
def groupAad (l : List Flit) : List Byte := l.flatMap fun f => leBytes 1 (bits f.ctl 20 4) ++ leBytes 1 (bits f.ctl 0 8)
/-- The tag of a group, 96 bits. -/
def groupTag (key dir counter : Nat) (l : List Flit) : List Byte :=
  (padTo 12 (gcmTag key dir counter (l.flatMap (·.payload)) (groupAad l))).take 12
/-- The credits a flit returns: of the first buffer that owes some, 63 at most. -/
def takeCredit (x : Port) : (Nat × Nat) × Port :=
  match x.owed with
  | [] => ((0, 0), x)
  | (i, n) :: _ => ((i, min 63 n), { x with owed := zset 0 x.owed i (n - min 63 n) })
/-- A flit goes on the wire to the peer of a port; to the host it leaves the system. -/
def onWire (s : State) (d k : Nat) (f : Flit) : State :=
  match peerOf s.z d k with
  | none => s
  | some (e, j) => updPort s e j fun x => { x with wire := x.wire ++ [f] }
/-- The tag group of a kept flit goes out under its key: payload as the link carries it. -/
def carried (d k : Nat) (y : Sent) : List Byte :=
  match y.key with
  | some key => if y.flit.kind = 2 then y.flit.payload else cipher key (dirId d k) y.group y.flit.tgpos y.flit.payload
  | none => y.flit.payload
/-- A kept flit is put on the wire, with the acknowledgement of now. -/
def emit (s : State) (d k : Nat) (y : Sent) : State :=
  let x := portAt s d k
  let b := carried d k y
  let f : Flit := { payload := b, ctl := finishCtl b y.flit.ctl y.seq (x.rxSeq + 4095) y.credit, pkt := y.flit.pkt }
  let charged := match y.flit.pkt with
    | some p => if dieOf p.src = d && 1 ≤ k then updTenant s d p.tenant fun t => { t with linkused := t.linkused + flitBytes y.flit } else s
    | none => s
  onWire charged d k f
/-- The new key of the sending direction takes effect at its counter, which returns to 0 (R329). -/
def rollTx (x : Port) : Port :=
  match x.nextTx with
  | some (key, n) => if x.keyTx.isSome && n ≤ x.counterTx then { x with keyTx := some key, counterTx := 0, nextTx := none } else x
  | none => x
/-- The new key of the receiving direction takes effect at the counter its sender named. -/
def rollRx (x : Port) : Port :=
  match x.nextRx, x.peerReady with
  | some key, some n =>
    if x.keyRx.isNone || n ≤ x.counterRx then { x with keyRx := some key, counterRx := 0, nextRx := none, peerReady := none } else x
  | _, _ => x
/-- A count of a port in the survey (Table 11.7): of the six torus ports and, as 7, the local one. -/
def countPort (s : State) (d k off n : Nat) : State := if k = 0 then s else surveyCount s d (portCounts k + off) n
/-- A new packet, tag or link-control flit: numbered, kept, joined to its tag group, and put on the wire. -/
def sendNew (s : State) (d k : Nat) (f : Flit) : State :=
  let (cr, x) := takeCredit (portAt s d k)
  let isTag := f.kind = 2
  let g : Flit := if x.keyed && !isTag then { f with ctl := f.ctl + x.groupTx.length * 2 ^ 4 } else f
  let y : Sent := { flit := g, seq := x.txSeq, group := x.counterTx, credit := cr, key := x.keyTx }
  let z : Port := { x with
    txSeq := (x.txSeq + 1) % 4096, retry := x.retry ++ [y], idles := 0
    groupTx := if x.keyed then (if isTag then [] else x.groupTx ++ [g]) else []
    counterTx := if isTag then x.counterTx + 1 else x.counterTx }
  let s1 := updPort s d k fun _ => rollTx z
  emit (if isTag then countPort s1 d k 40 1 else s1) d k y
/-- The tag flit of the open group (R325). -/
def tagFlit (x : Port) (d k key : Nat) : Flit :=
  { payload := padTo 64 (groupTag key (dirId d k) x.counterTx x.groupTx ++ leBytes 8 x.counterTx), ctl := ctlWord 2 0 false false 0 0 }
/-- A link-control flit. -/
def controlFlit (b : List Byte) : Flit := { payload := padTo 64 b, ctl := ctlWord 3 0 false false 0 0 }
/-- An idle flit: the number of the next flit, an acknowledgement and credits. -/
def sendIdle (s : State) (d k : Nat) : State :=
  let (cr, x) := takeCredit (portAt s d k)
  let b : List Byte := List.replicate 64 0
  onWire (updPort s d k fun _ => { x with idles := x.idles + 1 }) d k
    { payload := b, ctl := finishCtl b (ctlWord 0 0 false false 0 0) x.txSeq (x.rxSeq + 4095) cr }

/-! ### Choosing a packet flit (R317, R321, R322, R156) -/

/-- Flits an input buffer holds (R317). -/
def bufferSize (k : Nat) : Nat := if portKind k = 0 then 32 else 128
/-- A credit for a class and channel is held. -/
def hasCredit (x : Port) (k cls vc : Nat) : Bool := zlook 0 x.used (cls * 2 + vc) < bufferSize k
/-- The first packet of a class that waits at a die's router for an output, with its channel. -/
def localHead (s : State) (d k cls : Nat) : Option (Packet × Nat) :=
  ((dieAt s d).outbox.find? fun p => p.cls = cls && (route s d p).1 = k).map fun p => (p, (route s d p).2)
/-- The first flit of an input buffer. -/
def bufHead (s : State) (d j i : Nat) : Option Held := ((alook (portAt s d j).bufs i).getD []).head?
/-- The header that claimant `a` (input × 2 + channel; input 0 is the die itself) offers an output in a class: its packet,
and the channel it leaves on. -/
def offer (s : State) (d k cls a : Nat) : Option (Packet × Nat) :=
  if a / 2 = 0 then (if a = 0 then localHead s d k cls else none)
  else
    match bufHead s d (a / 2) (cls * 2 + a % 2) with
    | some h => if h.flit.sop && h.out = k then h.flit.pkt.map fun p => (p, h.vc) else none
    | none => none
/-- The input whose header starts next in a class on an output: by the rotating tie-break, among those with a credit. -/
def nextStart (s : State) (d k cls : Nat) : Option Nat :=
  let x := portAt s d k
  rotate x.arbPtr 14 fun a => match offer s d k cls a with
    | some (_, vc) => hasCredit x k cls vc
    | none => false
/-- A class holds a ready flit on an output. -/
def classReady (s : State) (d k cls : Nat) : Bool :=
  let x := portAt s d k
  match alook x.sending cls with
  | some y => hasCredit x k cls y.vc && (if y.src = 0 then y.rest ≠ []
      else match bufHead s d y.src (cls * 2 + y.vcIn) with
        | some h => sameFlit y.pkt h.flit
        | none => false)
  | none => (nextStart s d k cls).isSome
/-- The class that sends: the lowest ready one where it has missed S − 1 packet flits, and else the highest (R321, R322). -/
def chooseClass (s : State) (d k : Nat) : Option Nat :=
  let x := portAt s d k
  let ready := ([0, 1, 2, 3] : List Nat).filter (classReady s d k)
  match ready with
  | [] => none
  | low :: _ => if wbits x.vdport 40 8 ≤ zlook 0 x.since low + 1 then some low else ready.getLast?
/-- Some class has a flit for an output and no credit for it. -/
def creditStall (s : State) (d k : Nat) : Bool :=
  let x := portAt s d k
  ([0, 1, 2, 3] : List Nat).any fun cls =>
    match alook x.sending cls with
    | some y => !hasCredit x k cls y.vc && (y.src = 0 || (bufHead s d y.src (cls * 2 + y.vcIn)).isSome)
    | none => (List.range 14).any fun a => match offer s d k cls a with
      | some (_, vc) => !hasCredit x k cls vc
      | none => false
/-- Unfinished packets of lower classes that a flit of a class suspends: no higher class has sent since their last flit (R323). -/
def suspends (x : Port) (cls : Nat) : Nat :=
  ((List.range cls).filter fun c => (alook x.sending c).isSome
    && !([0, 1, 2, 3] : List Nat).any fun h => c < h && zlook 0 x.since h < zlook 0 x.since c).length
/-- The counts of packet flits since each class last sent. -/
def countSince (x : Port) (cls : Nat) : Port :=
  { x with since := ([0, 1, 2, 3] : List Nat).foldl (fun m c => zset 0 m c (if c = cls then 0 else zlook 0 m c + 1)) x.since }
/-- The head of an input buffer leaves it, its credit owed. -/
def popBuf (s : State) (d j i : Nat) : State :=
  updPort s d j fun x => oweCredit { x with bufs := aset x.bufs i ((alook x.bufs i).getD []).tail } i 1
/-- A packet flit of a class goes out, its credit taken. -/
def sendOne (s : State) (d k cls vc : Nat) (f : Flit) (next : Option Sending) : State :=
  let s0 := countPort (countPort s d k (4 * cls) 1) d k 32 (suspends (portAt s d k) cls)
  let s1 := updPort s0 d k fun x =>
    let y := countSince x cls
    { y with
      used := zset 0 y.used (cls * 2 + vc) (zlook 0 y.used (cls * 2 + vc) + 1)
      sending := match next with
        | some z => aset y.sending cls z
        | none => adel y.sending cls }
  sendNew s1 d k (f.onVc vc)
/-- The next flit of a class: of its unfinished packet, or the header of the next. -/
def sendPacketFlit (s : State) (d k cls : Nat) : State :=
  match alook (portAt s d k).sending cls with
  | some y =>
    if y.src = 0 then
      match y.rest with
      | [] => s
      | f :: r => sendOne (countPort s d 7 (16 + 4 * cls) 1) d k cls y.vc f (if r = [] then none else some { y with rest := r })
    else
      match bufHead s d y.src (cls * 2 + y.vcIn) with
      | none => s
      | some h => sendOne (popBuf s d y.src (cls * 2 + y.vcIn)) d k cls y.vc h.flit (if h.flit.eop then none else some y)
  | none =>
    match nextStart s d k cls with
    | none => s
    | some a =>
      match offer s d k cls a with
      | none => s
      | some (p, vc) =>
        let s1 := updPort s d k fun x => { x with arbPtr := a + 1 }
        if a / 2 = 0 then
          let s2 := countPort (updDie s1 d fun x => { x with outbox := x.outbox.erase p }) d 7 (16 + 4 * cls) 1
          match flitsOf p vc with
          | [] => s2
          | f :: r => sendOne s2 d k cls vc f (if r = [] then none else some { src := 0, vcIn := 0, vc := vc, pkt := p, rest := r })
        else
          match bufHead s1 d (a / 2) (cls * 2 + a % 2) with
          | none => s1
          | some h =>
            sendOne (popBuf s1 d (a / 2) (cls * 2 + a % 2)) d k cls vc h.flit
              (if h.flit.eop then none else some { src := a / 2, vcIn := a % 2, vc := vc, pkt := p })
/-- A port sends packet flits: it is up, fewer than 1,024 flits are unacknowledged, and its keys serve (R329, R445). -/
def mayStart (x : Port) : Bool := x.state = .up && x.retry.length < 1024 && x.counterTx < 2 ^ 32
/-- What a port sends in one flit time: a flit that is sent again, a tag that is due, a link-control flit, a packet flit, or
an idle flit. -/
def sendFlit (s : State) (d k : Nat) : State :=
  let x := portAt s d k
  match x.resend.bind fun i => x.retry[i]? with
  | some y =>
    let i := x.resend.getD 0
    emit (updPort (countPort s d k 44 1) d k fun x => { x with
      resend := if i + 1 < x.retry.length then some (i + 1) else none, idles := 0 }) d k y
  | none =>
    let s0 := updPort s d k fun x => { x with resend := none }
    match x.keyTx with
    | some key =>
      if x.groupTx.length = 5 then sendNew s0 d k (tagFlit x d k key) else rest s0 x
    | none => rest s0 x
where
  /-- Past resent flits and tags. -/
  rest (s : State) (x : Port) : State :=
    match if x.state = .up then x.backlog else [] with
    | g :: l => sendNew (updPort s d k fun y => { y with backlog := l }) d k g
    | [] =>
    match x.ctlOut with
    | b :: r => sendNew (updPort s d k fun y => { y with ctlOut := r }) d k (controlFlit b)
    | [] =>
      match if mayStart x then chooseClass s d k else none with
      | some c => sendPacketFlit s d k c
      | none => sendIdle (if mayStart x && creditStall s d k then countPort s d k 36 1 else s) d k
/-- The port that an event names, of the focused die. -/
def eventPort (s : State) : Nat := s.inp.sel % 7
/-- A die has the port. -/
def hasPort (d k : Nat) : Bool := (portsOf d).contains k
/-- `FLIT_SEND` (R321, R322, R325, R445): one flit time of the port `sel`. A port that retrains or has failed sends nothing. -/
def execFlitSend (s : State) : Res :=
  let d := dieOf s.cur
  let k := eventPort s
  let st := (portAt s d k).state
  if hasPort d k && (dieAt s d).powered && (st = .up || st = .keying) then .next (sendFlit s d k) else wait s
/-- `TAG_GROUP_PAD` (R325): a group left open for 4 flit times with no packet flit to send is completed with pads. -/
def execTagGroupPad (s : State) : Res :=
  let d := dieOf s.cur
  let k := eventPort s
  let x := portAt s d k
  if x.keyed && x.groupTx ≠ [] && x.groupTx.length < 5 && 4 ≤ x.idles && x.ctlOut = [] then
    .next (updPort s d k fun x => { x with ctlOut := List.replicate (5 - x.groupTx.length) (padTo 64 (leBytes 1 2)) })
  else wait s

/-! ### Predictive counters (R464, R465) -/

/-- The fields of `lkpred` with a threshold: low bit and width. -/
def lkFields : List (Nat × Nat) := [(40, 24), (32, 8), (24, 8), (16, 8), (8, 8)]
/-- A field of `lkpred` has met its threshold: a count at or above it, the margin below it; 0 disables the check. -/
def lkOver (x : Port) (lo n : Nat) : Bool :=
  let lim := wbits x.lkthr lo n
  lim ≠ 0 && (if lo = 8 then wbits x.lkpred lo n < lim else lim ≤ wbits x.lkpred lo n)
/-- The record of each field that has met its threshold, once (R465). The margin is checked where it was measured. -/
def lkCheck (s : State) (d k : Nat) (margin : Bool) : State :=
  (lkFields.filter fun f => f.1 ≠ 8 || margin).foldl (fun s f =>
    let x := portAt s d k
    if !lkOver x f.1 f.2 || x.warned.contains f.1 then s
    else portRecord (updPort s d k fun x => { x with warned := f.1 :: x.warned }) d k 9 (f.1 + wbits x.lkpred f.1 f.2 * 2 ^ 32) 1) s
/-- A count of `lkpred` raised. -/
def lkBump (s : State) (d k lo n : Nat) : State :=
  lkCheck (updPort s d k fun x => { x with lkpred := bumpField x.lkpred lo n }) d k false

/-! ### Retry requests (R444, R446) -/

/-- A retraining of a link begins, at both ends (R446, R451): a record at each; a fourth within 1 s of the first fails it. -/
def retrainPort (s : State) (d k cause : Nat) (fresh : Bool) : State :=
  let x := portAt s d k
  let recent := x.trains.filter fun t => s.now < t + 1000000000
  let s1 := portRecord (setPort s d k .retraining) d k 1 (cause + 256) 1
  lkBump (updPort s1 d k fun x => { x with
    wire := [], attempts := 1, trainAt := s.now, cause := cause, fresh := fresh, trains := recent ++ [s.now] }) d k 32 8
def retrainLink (s : State) (d k cause : Nat) (fresh : Bool) : State :=
  let x := portAt s d k
  if x.state = .retraining || x.state = .down then s
  else if 3 ≤ (x.trains.filter fun t => s.now < t + 1000000000).length then failLink s d k cause
  else
    let s1 := retrainPort s d k cause fresh
    match peerOf s.z d k with
    | some (e, j) => retrainPort s1 e j cause fresh
    | none => s1

/-- A retry request is sent, naming a sequence number; more than 256 within 1 ms retrain the port. -/
def askRetry (s : State) (d k n : Nat) : State :=
  let s1 := updPort s d k fun x => { x with
    ctlOut := x.ctlOut ++ [padTo 64 (leBytes 1 1 ++ leBytes 1 0 ++ leBytes 2 n)], asked := some n, askedAt := s.now
    asks := (x.asks.filter fun t => s.now < t + 1000000) ++ [s.now] }
  if 256 < (portAt s1 d k).asks.length then retrainLink (updPort s1 d k fun x => { x with asks := [] }) d k 1 false else s1
/-- The first flit that a request names: on a protected port that of the open tag group. -/
def retryFrom (x : Port) : Nat := if x.keyRx.isSome then (x.rxSeq + 4096 - x.groupRx.length % 4096) % 4096 else x.rxSeq
/-- The port's mode is skid. -/
def Port.skid (x : Port) : Bool := bitOf x.vdport.toNat 16
/-- The copies of released flits of a group that is to come again: in skid mode, of all that were released. -/
def keptCopies (x : Port) : List Flit := if x.skid && x.copies.length < x.groupRx.length then x.groupRx else x.copies
/-- A flit is discarded: it is counted, and on the first the port asks for the expected one; of a protected group none is
kept. -/
def discardFlit (s : State) (d k : Nat) : State :=
  let s1 := lkBump s d k 40 24
  let x := portAt s1 d k
  if x.asked.isSome then s1
  else
    let n := retryFrom x
    askRetry (updPort s1 d k fun x => { x with rxSeq := n, groupRx := [], copies := keptCopies x }) d k n

/-! ### Accepting (R317, R324, R328, R444, R445) -/

/-- Flits up to an acknowledged number leave the retry buffer: on a protected port whole tag groups. -/
def takeAck (x : Port) (a : Nat) : Port :=
  match x.retry.findIdx? fun y => y.seq = a with
  | none => x
  | some i =>
    let n := if !x.keyed then i + 1
      else ((x.retry.take (i + 1)).zipIdx.filter fun y => y.1.flit.kind = 2).foldl (fun _ y => y.2 + 1) 0
    let r := x.retry.drop n
    { x with retry := r, resend := x.resend.bind fun j => if n ≤ j && j - n < r.length then some (j - n) else if j < n && r ≠ [] then some 0 else none
             reqRun := if n = 0 then x.reqRun else 0 }
/-- Credits come back. -/
def takeBack (x : Port) (c : Nat × Nat) : Port :=
  if c.2 = 0 then x else { x with used := zset 0 x.used c.1 (zlook 0 x.used c.1 - c.2) }
/-- A header comes into its slot, its route found. -/
def openSlot (s : State) (d : Nat) (p : Packet) : Slot :=
  let (out, vc) := if dieOf p.dst = d then (7, 0) else route s d p
  { pkt := p, out := out, vc := vc, drop := out ≠ 7 && (portAt s d out).state = .failed }
/-- A router buffer's error (R458) concerns a flit: `flag` of the event past correction, `flag2` within it, at place `unit` of
its tag group. -/
def routerBad (s : State) (f : Flit) : Bool := s.inp.flag && f.tgpos = s.inp.unit
def routerSoft (s : State) (f : Flit) : Bool := s.inp.flag2 && f.tgpos = s.inp.unit
/-- The record of a corrected error of a router buffer. -/
def softRecord (s : State) (d k : Nat) : State :=
  writeRecord { s with free := s.free + 1 } d
    { kind := 5, sev := 1, unit := 0x30, eng := k, value := syndrome s, action := 1, place := diePlace d, detail := leBytes 1 1 }
/-- An uncorrected error drops the packet at this router, and the slot of its class on an input discards what follows. -/
def dropPacketHere (s : State) (d k : Nat) (p : Packet) : State :=
  let s1 := portRecord { s with free := s.free + 1 } d k 8 (syndrome s) 2
  losePacket (purge (abortOutputs s1 d p) d p) d p
/-- A packet flit is released to the router from the input of a port (R311, R324). -/
def routerFlit (s : State) (d k : Nat) (f : Flit) : State :=
  let i := f.cls * 2 + f.vc
  let owe : State → State := fun s => updPort s d k fun x => oweCredit x i 1
  let s := countPort s d k (16 + 4 * f.cls) 1
  let s0 := match f.pkt with
    | some p => if f.sop then
        let y := openSlot s d p
        let s1 := updPort s d k fun x => { x with slots := aset x.slots f.cls y }
        if y.drop then losePacket s1 d p else s1
      else s
    | none => s
  let s0 := match alook (portAt s0 d k).slots f.cls with
    | some y => if routerBad s f && !y.drop then dropPacketHere s0 d k y.pkt else if routerSoft s f then softRecord s0 d k else s0
    | none => s0
  match alook (portAt s0 d k).slots f.cls with
  | none => owe s0
  | some y =>
    let s1 := updPort s0 d k fun x => { x with
      slots := if f.eop then adel x.slots f.cls
        else if y.out = 7 then aset x.slots f.cls { y with recv := y.recv ++ f.payload } else x.slots }
    if y.drop then owe s1
    else if y.out = 7 then
      let s2 := countPort (owe s1) d 7 (4 * f.cls) 1
      if f.eop then deliver s2 d y.pkt else s2
    else updPort s1 d k fun x => { x with bufs := aset x.bufs i (((alook x.bufs i).getD []) ++ [{ flit := f, out := y.out, vc := y.vc }]) }
/-- A flit is released: a packet flit to the router, a link-control flit to its event; a pad is dropped. -/
def releaseFlit (s : State) (d k : Nat) (f : Flit) : State :=
  let s1 := updPort s d k fun x => takeBack x f.credit
  if f.kind = 1 then routerFlit s1 d k f
  else if f.kind = 3 && f.payload.headD 0 ≠ 2 then
    updPort s1 d k fun x =>
      let y : Port := { x with ctlIn := x.ctlIn ++ [f.payload] }
      if f.payload.headD 0 = 8 then rollRx { y with peerReady := some (fieldAt f.payload 8 8) } else y
  else s1
/-! ### Tag groups at the receiver (R328, R448 to R450) -/

/-- A flit of a group, taken out of its cipher. -/
def opened (x : Port) (key : Nat) (f : Flit) : Flit := { f with payload := cipher key x.peerId x.counterRx f.tgpos f.payload }
/-- The group's tag flit fits the five flits received and the counter. -/
def tagFits (x : Port) (key : Nat) (tag : Flit) : Bool :=
  x.groupRx.length = 5 && tag.payload = padTo 64 (groupTag key x.peerId x.counterRx x.groupRx ++ leBytes 8 x.counterRx)
/-- A flit sent again is the one that was released. -/
def sameCopy (a b : Flit) : Bool := a.payload = b.payload && bits a.ctl 0 8 = bits b.ctl 0 8 && bits a.ctl 20 4 = bits b.ctl 20 4
/-- A group is closed: a written mode, and a new key at its counter, take effect. -/
def nextGroup (x : Port) : Port :=
  rollRx { x with
    groupRx := [], copies := [], counterRx := x.counterRx + 1, modeNext := none
    vdport := match x.modeNext with
      | some m => wput x.vdport 16 1 m
      | none => x.vdport }
/-- A tag has failed (R448 to R450): nothing of the group is kept but, in skid mode, copies of what was released; retry is
asked from its first flit; the fourth failure within 1 ms makes the port a containment port and retrains it. -/
def tagFailed (s : State) (d k : Nat) : State :=
  let x := portAt s d k
  let first := (x.rxSeq + 4096 - x.groupRx.length) % 4096
  let s1 := lkBump (countPort s d k 48 1) d k 24 8
  let s2 := if x.skid then
      ((x.groupRx.filterMap (·.pkt)).eraseDups).foldl (fun s p => taintPacket s d p)
        (updPort s1 d k fun y => { y with copies := keptCopies x })
    else portRecord s1 d k 3 x.counterRx 1
  let fails := (x.tagFails.filter fun t => s.now < t + 1000000) ++ [s.now]
  let s3 := askRetry (updPort s2 d k fun y => { y with groupRx := [], rxSeq := first, tagFails := fails }) d k first
  if 4 ≤ fails.length then
    retrainLink (updPort s3 d k fun y => { y with vdport := wput y.vdport 16 1 0, tagFails := [] }) d k 2 true
  else s3
/-- An accepted flit of a protected port: held until its group's tag checks, or, in skid mode, released as it arrives. -/
def groupFlit (s : State) (d k key : Nat) (f : Flit) : State :=
  let x := portAt s d k
  if f.kind = 2 then
    if tagFits x key f then
      let s1 := updPort s d k fun y => takeBack (nextGroup y) f.credit
      if x.skid then s1 else x.groupRx.foldl (fun s g => releaseFlit s d k g) s1
    else tagFailed s d k
  else
    let g := opened x key f
    let s1 := updPort s d k fun y => { y with groupRx := y.groupRx ++ [g] }
    if 5 ≤ x.groupRx.length then tagFailed s d k
    else if !x.skid then s1
    else
      match x.copies[x.groupRx.length]? with
      | some c => if sameCopy c g then s1 else tagFailed s1 d k
      | none => releaseFlit s1 d k g
/-- A flit with the expected number and a good CRC (R444). -/
def acceptFlit (s : State) (d k : Nat) (f : Flit) : State :=
  let s1 := updPort s d k fun x => takeAck { x with rxSeq := (x.rxSeq + 1) % 4096, asked := none } f.ack
  match (portAt s1 d k).keyRx with
  | some key => groupFlit s1 d k key f
  | none => releaseFlit s1 d k f
/-- The flit as the wire delivers it: with the bits of a mask spoiled. -/
def spoiled (f : Flit) (mask : List Byte) : Flit :=
  { f with payload := f.payload.zipWith (· ^^^ ·) (padTo 64 (mask.take 64)), ctl := f.ctl ^^^ leNat (mask.drop 64) }
/-- What a port does with a flit that arrives. -/
def receiveFlit (s : State) (d k : Nat) (f : Flit) : State :=
  let code := (f.payload.headD 0).toNat
  let reserved := f.kind = 3 && (portAt s d k).keyRx.isNone && (code = 0 || 9 ≤ code)
  if f.kind = 0 then
    if f.good then updPort s d k fun x => takeBack (takeAck x f.ack) f.credit else s
  else if f.good && !reserved && f.seq = (portAt s d k).rxSeq then acceptFlit s d k f
  else discardFlit s d k
/-- The flits that stand before a port: on its wire, or from the host the 72 bytes of the event. -/
def arriving (s : State) (d k : Nat) : List Flit :=
  if k ≠ 0 then (portAt s d k).wire
  else [{ payload := padTo 64 (s.inp.bytes.take 64), ctl := leNat (padTo 8 (slice s.inp.bytes 64 8)) }]
/-- `FLIT_RECEIVE` (R444, R328, R448 to R450, R458): the first flit on the wire to port `sel`, spoiled by the bits of `bytes`; from
the host, the flit `bytes`. -/
def execFlitReceive (s : State) : Res :=
  let d := dieOf s.cur
  let k := eventPort s
  let x := portAt s d k
  match arriving s d k with
  | [] => wait s
  | f :: r =>
    if !(hasPort d k && (dieAt s d).powered && (x.state = .up || x.state = .keying)) then wait s
    else if k = 0 then .next (receiveFlit s d k f)
    else .next (receiveFlit (updPort s d k fun x => { x with wire := r }) d k (spoiled f s.inp.bytes))
/-- 64 flit times of a port at full rate (Table 10.6), in whole ns. -/
def repeatTime (k : Nat) : Nat :=
  match portKind k with
  | 0 => 4 | 1 => 23 | _ => 184
/-- `RETRY_REQUEST_REPEAT` (R444): a request that waits is repeated every 64 flit times. -/
def execRetryRequestRepeat (s : State) : Res :=
  let d := dieOf s.cur
  let k := eventPort s
  match (portAt s d k).asked with
  | none => wait s
  | some n => if s.now < (portAt s d k).askedAt + repeatTime k then wait s else .next (askRetry s d k n)

/-! ### Link-control flits that act (R445, R446, R454) -/

/-- The first link-control payload received on the event's port, where its code is `c`; the host's are the event's bytes. -/
def takeControl (s : State) (c : Nat) : Option (List Byte × State) :=
  let d := dieOf s.cur
  let k := eventPort s
  if k = 0 then (if fieldAt s.inp.bytes 0 1 = c && hasPort d 0 then some (padTo 64 (s.inp.bytes.take 64), s) else none)
  else
    match (portAt s d k).ctlIn with
    | [] => none
    | b :: r => if fieldAt b 0 1 = c then some (b, updPort s d k fun x => { x with ctlIn := r }) else none
/-- `RETRY_REQUEST` (R445, R446): flits go again from the named number, on a protected port from the first of its group; the
eighth request for one number without progress retrains the port. -/
def execRetryRequest (s : State) : Res :=
  let d := dieOf s.cur
  let k := eventPort s
  match takeControl s 1 with
  | none => wait s
  | some (b, s1) =>
    let n := fieldAt b 2 2 % 4096
    let x := portAt s1 d k
    let run := if x.reqSeq = n then x.reqRun + 1 else 1
    let from' := (x.retry.findIdx? fun y => y.seq = n).map fun i =>
      if !x.keyed then i
      else
        match x.retry[i]? with
        | some y => (x.retry.findIdx? fun z => z.group = y.group).getD i
        | none => i
    let s2 := updPort s1 d k fun x => { x with resend := from', reqSeq := n, reqRun := run }
    .next (if 8 ≤ run then retrainLink (updPort s2 d k fun x => { x with reqRun := 0 }) d k 1 false else s2)
/-- `ABORT_FLIT` (R454): the slot of the named class is discarded whole, and the abort goes on where the packet had begun. -/
def execAbortFlit (s : State) : Res :=
  match takeControl s 3 with
  | none => wait s
  | some (b, s1) => .next (dropSlot s1 (dieOf s.cur) (eventPort s) (fieldAt b 1 1 % 4))

end Sys2Proof.Machine
end

