-- ==== Sys2Proof/Machine/Train.lean ====
section
/-! DEFINITION. Retraining of links, keys, the eye margin, and commands to ports (10, R329, R331; 18, R446, R450 to R453, R463,
R464). What training measures comes with the event. -/
namespace Sys2Proof.Machine

/-! ### Keys (R329, R447) -/

/-- An end of a link offers its half of a key exchange: its public number and its random value. -/
def offerKeys (s : State) (d k : Nat) : State :=
  let priv := Config.freeNat s.free
  let rand := leBytes 32 (Config.freeNat (s.free + 1))
  let first := leBytes 1 4 ++ leBytes 3 0 ++ leBytes 32 (x25519Public priv) ++ rand.take 28
  let second := padTo 64 (leBytes 1 5 ++ leBytes 3 0 ++ rand.drop 28 ++ leBytes 4 (dirId d k))
  updPort { s with free := s.free + 2 } d k fun x => { x with
    priv := priv, rand := rand, halfSig := [], exchanging := true, ctlOut := x.ctlOut ++ [first, second] }
/-- The number a link's own party is known by in the identity lists: its die, or past every die the host. -/
def partyOf (z d k : Nat) : Nat :=
  match peerOf z d k with
  | some (e, _) => e
  | none => 1024
/-- The number of the maintenance key in an identity list. -/
def maintenanceParty : Nat := 1025
/-- The public key of a party in the identity list of a die (R329): as the management core installed it; until then each part's own,
and the maintenance key of the module (DESIGN CHOICE, log 32). -/
def identityAt (s : State) (d party : Nat) : Nat :=
  (alook (dieAt s d).identity party).getD (if party = maintenanceParty then Config.maintenanceKey else ed25519Public (Config.identityKey party))
/-- The bytes of a die's identity list: the key of every die of the system, of the host, and of maintenance. -/
def identityList (s : State) (d : Nat) : List Byte :=
  (List.range (16 * s.z) ++ [1024, maintenanceParty]).flatMap fun k => leBytes 32 (identityAt s d k)
/-- What a party signs: its public number and random value, its port's identifier, and its peer's random value. -/
def keyBody (pub : Nat) (rand : List Byte) (dir : Nat) (other : List Byte) : List Byte := leBytes 32 pub ++ rand ++ leBytes 4 dir ++ other
/-- Both ends of a link take up fresh keys: nothing of the old ones is left but the flits that are to be sent again. -/
def keyPort (s : State) (d k : Nat) : State :=
  let s1 := setPort s d k .keying
  offerKeys (updPort s1 d k fun x => { x with
    txSeq := 0, rxSeq := 0, ctlOut := [], ctlIn := [], groupTx := [], groupRx := [], counterTx := 0, counterRx := 0, keyTx := none
    keyRx := none, nextTx := none, nextRx := none, peerReady := none, copies := [], asked := none }) d k
/-- `KEY_SHARE_FIRST` (R329): the peer's public number; an end that has begun no exchange offers its own half. -/
def execKeyShareFirst (s : State) : Res :=
  let d := dieOf s.cur
  let k := eventPort s
  match takeControl s 4 with
  | none => wait s
  | some (b, s1) =>
    let s2 := if (portAt s1 d k).exchanging then s1 else offerKeys s1 d k
    .next (updPort s2 d k fun x => { x with peerKey := fieldAt b 4 32, peerRand := slice b 36 28 })
/-- `KEY_SHARE_SECOND` (R329): the rest of the peer's random value and its identifier; the signature is sent. -/
def execKeyShareSecond (s : State) : Res :=
  let d := dieOf s.cur
  let k := eventPort s
  match takeControl s 5 with
  | none => wait s
  | some (b, s1) =>
    let x := portAt s1 d k
    let rand := x.peerRand.take 28 ++ slice b 4 4
    let sig := padTo 64 (ed25519Sign (Config.identityKey d) (keyBody (x25519Public x.priv) x.rand (dirId d k) rand))
    .next (updPort s1 d k fun x => { x with
      peerRand := rand, peerId := fieldAt b 8 4
      ctlOut := x.ctlOut ++ [padTo 64 (leBytes 1 6 ++ leBytes 3 0 ++ sig.take 32), padTo 64 (leBytes 1 7 ++ leBytes 3 0 ++ slice sig 32 32)] })
/-- The keys of both directions from a checked exchange: when the own one is to apply is told to the peer. -/
def makeKeys (s : State) (d k : Nat) : State :=
  updPort s d k fun x =>
    let secret := x25519 x.priv x.peerKey
    let at' := if x.keyTx.isNone then 0 else max (2 ^ 32) (x.counterTx + x.ctlOut.length + 2)
    let y : Port := { x with
      nextTx := some (directionKey secret (dirId d k) x.peerId, at'), nextRx := some (directionKey secret x.peerId (dirId d k))
      ctlOut := x.ctlOut ++ [padTo 64 (leBytes 1 8 ++ leBytes 7 0 ++ leBytes 8 at')] }
    if x.keyRx.isNone then rollRx y else y
/-- `KEY_SIGNATURE` (R329): the halves of the peer's signature; one that does not verify under the identity list refuses the
link. -/
def execKeySignature (s : State) : Res :=
  let d := dieOf s.cur
  let k := eventPort s
  match takeControl s 6 with
  | some (b, s1) => .next (updPort s1 d k fun x => { x with halfSig := slice b 4 32 })
  | none =>
    match takeControl s 7 with
    | none => wait s
    | some (b, s1) =>
      let x := portAt s1 d k
      if ed25519Verify (identityAt s d (partyOf s.z d k)) (keyBody x.peerKey x.peerRand x.peerId x.rand) (x.halfSig ++ slice b 4 32)
      then .next (makeKeys s1 d k)
      else .next (failLink s1 d k 4)
/-- A port is up: every die is told where it had been told of its failure; held messages go to the host. -/
def portUp (s : State) (d k : Nat) : State :=
  let s1 := setPort s d k .up
  let s2 := if (dieAt s1 d).cut.contains (d * 8 + k) then tellLink s1 d k true else s1
  if k ≠ 0 then s2
  else (diesOf (d / 16)).foldl (fun s e =>
    (dieAt s e).hostHeld.foldl (fun s b => tellHost s e b) (updDie s e fun x => { x with hostHeld := [] })) s2
/-- `KEYS_READY` (R329): the peer's keys apply from the counter it names; once the own half is sent, a port that was being
keyed is up under the new ones. -/
def execKeysReady (s : State) : Res :=
  let d := dieOf s.cur
  let k := eventPort s
  let x := portAt s d k
  if x.nextTx.isNone || (x.keyTx.isNone && x.ctlOut ≠ []) then wait s
  else
    match takeControl s 8 with
    | none => wait s
    | some (b, s1) =>
      let s2 := updPort s1 d k fun x =>
        let y : Port := { x with exchanging := false, peerReady := if k = 0 then some (fieldAt b 8 8) else x.peerReady }
        if k = 0 && x.keyRx.isNone then rollRx y else y
      match x.keyTx, x.nextTx with
      | none, some (key, _) =>
        .next (portUp (updPort s2 d k fun x => { x with keyTx := some key, counterTx := 0, groupTx := [], nextTx := none }) d k)
      | _, _ => .next s2
/-- `KEY_RENEWAL_START` (R329): renewal starts when a counter reaches 2^32 − 2^20. -/
def execKeyRenewalStart (s : State) : Res :=
  let d := dieOf s.cur
  let k := eventPort s
  let x := portAt s d k
  if x.keyed && x.state = .up && !x.exchanging && x.nextTx.isNone && 2 ^ 32 - 2 ^ 20 ≤ max x.counterTx x.counterRx then
    .next (offerKeys s d k)
  else wait s

/-! ### Attempts (R451, R452) -/

/-- What an attempt finds: the best configuration of Table 18.3, as modules or lanes and rate; none where none passes.
`values` holds the highest rate each UCIe module passes at, `value` the number of lanes of another port that pass. -/
def bestConfig (k : Nat) (rates : List Nat) (lanes : Nat) : Option (Nat × Nat) :=
  match portKind k with
  | 0 =>
    let each := ([4, 3, 2, 1] : List Nat).flatMap fun n => (([32, 16, 8, 4] : List Nat).filter fun r =>
      n ≤ (rates.filter fun x => r ≤ x).length).map fun r => (n, r)
    each.foldl (fun a x => match a with
      | none => some x
      | some y => if y.1 * y.2 < x.1 * x.2 then some x else some y) none
  | 1 => (([8, 4, 2] : List Nat).find? fun n => n ≤ lanes).map fun n => (n, 0)
  | _ => if 1 ≤ lanes then some (1, 0) else none
/-- The configuration a port runs at. -/
def configOf (x : Port) (k : Nat) : Nat × Nat := if portKind k = 0 then (wbits x.vdport 32 3, wbits x.vdport 24 8) else (x.lanes, 0)
/-- A configuration set: a change is recorded, a reduction or a lane repair counted (R452, R464). -/
def setConfig (s : State) (d k : Nat) (c : Nat × Nat) (repaired : Bool) (margin : Nat) : State :=
  let old := configOf (portAt s d k) k
  let s1 := updPort s d k fun x => { x with
    lanes := if portKind k = 0 then x.lanes else c.1
    vdport := if portKind k = 0 then wput (wput x.vdport 32 3 c.1) 24 8 c.2 else x.vdport
    lkpred := wput x.lkpred 8 8 (min 100 margin) }
  let s2 := lkCheck s1 d k true
  let s3 := if c = old then s2 else portRecord s2 d k 2 (c.1 + c.2 * 256) 1
  if repaired || c.1 < old.1 || c.2 < old.2 then lkBump s3 d k 16 8 else s3
/-- The bound of an attempt (R451). -/
def attemptBound (k : Nat) : Nat :=
  match portKind k with
  | 0 => 100000 | 1 => 5000000 | _ => 10000000
/-- A port whose training has passed with its keys kept: it asks for the flit it expects. -/
def resumePort (s : State) (d k : Nat) : State :=
  let s1 := portUp s d k
  let x := portAt s1 d k
  let n := retryFrom x
  askRetry (updPort s1 d k fun x => { x with rxSeq := n, groupRx := [], copies := keptCopies x, resend := none }) d k n
/-- The flits of an end that its peer has not had are to be sent again under fresh keys, credits they returned with them. -/
def refreshFlits (s : State) (d k : Nat) : State :=
  match peerOf s.z d k with
  | none => s
  | some (e, j) =>
    let y := portAt s e j
    let want := if y.skid then y.rxSeq else retryFrom y
    updPort s d k fun x =>
      let lost := match x.retry.findIdx? fun z => z.seq = want with
        | some i => x.retry.drop i
        | none => []
      let owed := lost.foldl (fun x z => oweCredit x z.credit.1 z.credit.2) x
      { owed with retry := [], resend := none
                  backlog := (lost.filter fun z => z.flit.kind ≠ 2).map (fun z =>
                    { z.flit with ctl := ctlWord z.flit.kind z.flit.cls z.flit.sop z.flit.eop z.flit.vc 0 }) ++ x.backlog }
/-- The ends of a link. -/
def linkEnds (s : State) (d k : Nat) : List (Nat × Nat) := (d, k) :: (peerOf s.z d k).toList
/-- An attempt has passed at a configuration: both ends go on, under the old keys or to fresh ones. -/
def passAttempt (s : State) (d k : Nat) (c : Nat × Nat) (repaired : Bool) (margin : Nat) : State :=
  let ends := linkEnds s d k
  let s1 := ends.foldl (fun s x => setConfig s x.1 x.2 c repaired margin) s
  if (portAt s1 d k).fresh && portKind k ≠ 0 then
    let s2 := ends.foldl (fun s x => refreshFlits s x.1 x.2) s1
    ends.foldl (fun s x => keyPort s x.1 x.2) s2
  else ends.foldl (fun s x => resumePort s x.1 x.2) s1
/-- An attempt has failed: the next begins, or after the third the link fails. -/
def nextAttempt (s : State) (d k : Nat) : State :=
  let x := portAt s d k
  if 3 ≤ x.attempts then failLink s d k x.cause
  else
    (linkEnds s d k).foldl (fun s y =>
      portRecord (updPort s y.1 y.2 fun z => { z with attempts := x.attempts + 1, trainAt := s.now }) y.1 y.2 1
        (x.cause + (x.attempts + 1) * 256) 1) s
/-- `RETRAIN_ATTEMPT_COMPLETE` (R451, R452): what passed is in `values` and `value`, `flag2` says that a lane was repaired,
and `len` is the eye margin. -/
def execRetrainAttemptComplete (s : State) : Res :=
  let d := dieOf s.cur
  let k := eventPort s
  let x := portAt s d k
  if x.state ≠ .retraining || x.trainAt + attemptBound k ≤ s.now then wait s
  else
    match bestConfig k (s.inp.values.map (·.toNat)) s.inp.value.toNat with
    | some c => .next (passAttempt s d k c s.inp.flag2 s.inp.len)
    | none => .next (nextAttempt s d k)
/-- `RETRAIN_ATTEMPT_TIMEOUT` (R451, R453, R454, R456). -/
def execRetrainAttemptTimeout (s : State) : Res :=
  let d := dieOf s.cur
  let k := eventPort s
  let x := portAt s d k
  if x.state ≠ .retraining || s.now < x.trainAt + attemptBound k then wait s else .next (nextAttempt s d k)
/-- `LOSS_OF_SIGNAL` (R446, R451): the port retrains. -/
def execLossOfSignal (s : State) : Res :=
  let d := dieOf s.cur
  let k := eventPort s
  let st := (portAt s d k).state
  if hasPort d k && (st = .up || st = .keying) then .next (retrainLink s d k 3 (st = .keying)) else wait s
/-- A port that was down or failed begins a retraining, with fresh keys; the earlier ones no longer count. -/
def reviveLink (s : State) (d k cause : Nat) : State :=
  (linkEnds s d k).foldl (fun s x => retrainPort (updPort s x.1 x.2 fun y => { y with trains := [] }) x.1 x.2 cause true) s
/-- `HOST_LIGHT_RETURN` (R463): a Zoengline port that has failed retrains. -/
def execHostLightReturn (s : State) : Res :=
  let d := dieOf s.cur
  let st := (portAt s d 0).state
  if hasPort d 0 && (st = .failed || st = .down) then .next (reviveLink s d 0 3) else wait s
/-- `PORT_RETRAIN_COMMAND` (R453). -/
def execPortRetrainCommand (s : State) : Res :=
  let d := dieOf s.cur
  let k := eventPort s
  if !hasPort d k || (peerOf s.z d k = none && k ≠ 0) then wait s
  else
    match (portAt s d k).state with
    | .failed => .next (reviveLink s d k 4)
    | .up => .next (retrainLink s d k 4 false)
    | _ => wait s
/-- `PORT_DISABLE_COMMAND` (R453, R454). -/
def execPortDisableCommand (s : State) : Res :=
  let d := dieOf s.cur
  let k := eventPort s
  if hasPort d k && (portAt s d k).state ≠ .down then .next (failLink s d k 4) else wait s
/-- `EYE_MARGIN_MEASURE` (R464, R465): the worst lane's margin of port `sel`, in percent, is `value`. -/
def execEyeMarginMeasure (s : State) : Res :=
  let d := dieOf s.cur
  let k := eventPort s
  if !hasPort d k then wait s
  else .next (lkCheck (updPort s d k fun x => { x with lkpred := wput x.lkpred 8 8 (min 100 (wbits s.inp.value 0 8)) }) d k true)
/-- `VDPORT_MODE_WRITE` (R328, R342): the mode written to a protected port takes effect at the next group boundary. -/
def execVdportModeWrite (s : State) : Res :=
  let d := dieOf s.cur
  let k := eventPort s
  if !hasPort d k || portKind k = 0 then wait s
  else
    .next (updPort s d k fun x =>
      if x.groupRx = [] then { x with vdport := wput x.vdport 16 1 (wbits s.inp.value 0 1), modeNext := none }
      else { x with modeNext := some (wbits s.inp.value 0 1) })

end Sys2Proof.Machine
end

