-- ==== Sys2Proof/Machine/Time.lean ====
section
/-! DEFINITION. The datum clocks: the upstream port, time messages, lock and its loss (10, R339 to R341, R343; 18, R461,
R462). What a message measures comes with the event. -/
namespace Sys2Proof.Machine

/-! ### The upstream port (R340) -/

/-- The die whose src bit is set. -/
def timeSource (s : State) : Option Nat := (s.dies.find? fun e => bitOf e.2.timelock.toNat 62).map (·.1)
/-- A time message from a die to another. -/
def timePacket (d e : Nat) : Packet := { src := diePlace d, dst := diePlace e, cls := 3, tenant := 0, task := 0, body := .time }
/-- The port a die synchronises to: of the source Zoengline; in its module the first of the route to it; elsewhere the Z
port on the side with fewer hops to its module, or the other where that way is cut. -/
def upstreamPort (s : State) (d : Nat) : Option Nat :=
  match timeSource s with
  | none => none
  | some e =>
    if d = e then (if hostUp s (d / 16) then some 0 else none)
    else
      let k := if d / 16 = e / 16 then (route s d (timePacket d e)).1
        else if (ringWay s.z (d / 16) (e / 16) fun t => linkCut s d (t * 16 + d % 16) 5).1 then 5 else 6
      if (portAt s d k).state = .up then some k else none

/-! ### Loss of lock (R461, R462) -/

/-- A record of kind 10 (R466). -/
def timeRecord (s : State) (d sub value sev : Nat) : State :=
  writeRecord s d { kind := 10, sev := sev, unit := 0x45, value := value, place := diePlace d, detail := leBytes 1 sub }
/-- The chart groups with a member on a die, resident or saved. -/
def chartGroupsOn (s : State) (d : Nat) : List Nat :=
  (((dieResidents s d).filterMap fun p => (ctxAt s p).chartGrp) ++ (dieAt s d).saved.filterMap fun x => x.chartGrp).eraseDups
/-- The trap of a member of a group that has a member on a die whose lock was lost. -/
def lockTrap (id d now : Nat) : Trap := { cls := 1, code := 0x732, tval := BitVec.ofNat 64 (id + diePlace d * 2 ^ 32), time := now }
/-- Every member of the chart groups of a die takes trap 0x732, once per group. -/
def lockTraps (s : State) (d : Nat) : State :=
  (chartGroupsOn s d).foldl (fun s id =>
    match groupAt s id with
    | none => s
    | some g =>
      g.members.foldl (fun s m =>
        match memberPlace s m with
        | some p => updCtx s p fun c => c.asyncTrap (lockTrap id d (datumOf s (dieOf p)))
        | none =>
          match memberSaved s m with
          | some x => savedTrap s (memberDie m) x (lockTrap id d (datumOf s (memberDie m))) none
          | none => s) s) s
/-- The accounts of every listed die are brought up to now, before a clock changes. -/
def settleDies (s : State) : State := s.dies.foldl (fun s e => settleDie s e.1) s
/-- A die that kept to the source's clock goes on from now by its own, at the same rate. -/
def holdClock (s : State) (d : Nat) : State :=
  match (dieAt s d).follow with
  | none => s
  | some (e, _) => updDie s d fun x => { x with
      datumOff := (datumOf s d : Int) - s.now, rateSince := s.now, rate := (dieAt s e).rate, follow := none }
/-- A die loses lock for a cause (1 upstream down, 2 offset): its clock goes on at its last rate, and the chart members are
told; the source keeps its src bit. -/
def loseLock (s0 : State) (d cause : Nat) : State :=
  let s := holdClock (settleDies s0) d
  let x := dieAt s d
  let s1 := updDie s d fun x => { x with timelock := wput x.timelock 63 1 0, locked := false, goodOffsets := 0, badOffsets := 0 }
  let last := ofSigned 32 (toSigned 16 (wbits x.timelock 16 16))
  lockTraps (if bitOf x.timelock.toNat 62 then timeRecord s1 d 3 0 2 else timeRecord s1 d 1 (last + cause * 2 ^ 32) 2) d
/-- `LOCK_LOSS_UPSTREAM` (R461): the upstream port is not up and no other gives a path; after 1 ms lock is lost. -/
def execLockLossUpstream (s : State) : Res :=
  let d := dieOf s.cur
  let x := dieAt s d
  if !x.locked || (upstreamPort s d).isSome then wait s
  else
    match x.upstreamLost with
    | none => .next (updDie s d fun x => { x with upstreamLost := some s.now })
    | some t => if s.now < t + 1000000 then wait s else .next (loseLock s d 1)

/-! ### Time messages (R339 to R341, R461) -/

/-- The delay of a link from the four stamps of a peer-delay exchange: the request's departure and arrival, the answer's departure
and arrival (R340). -/
def peerDelay (t1 t2 t3 t4 : Int) : Int := ((t4 - t1) - (t3 - t2)) / 2
/-- The offset of a die's clock from its upstream neighbour's that an exchange measures: the message and the request take `out`
and `back` ns on the link, and every stamp is taken at the PHY. -/
def measuredOffset (s : State) (d e : Nat) (out back : Int) : Int :=
  let a : Int := datumOf s d
  let b : Int := datumOf s e
  (a + out) - (b + peerDelay a (b + back) (b + back) (a + back + out))
/-- The clock goes on from now at another rate, in parts per 10^9, at most 200 ppm; a die that keeps to the source's clock goes on
with it. -/
def setRate (s0 : State) (d : Nat) (rate : Int) : State :=
  if (dieAt s0 d).follow.isSome then s0
  else
    let s := settleDies s0
    updDie s d fun x => { x with datumOff := (datumOf s d : Int) - s.now, rateSince := s.now, rate := clampI (-200000) 200000 rate }
/-- The bound of R341 between the clocks of two locked dies, in ns. -/
def skewBound (d e : Nat) : Nat := if d / 16 = e / 16 then 2 else 20
/-- A die's clock agrees with the source's and with those of the dies that report lock. -/
def clockAgrees (s : State) (d : Nat) : Bool :=
  s.dies.all fun e => e.1 = d || !(e.2.locked || bitOf e.2.timelock.toNat 62)
    || decide (((datumOf s d : Int) - datumOf s e.1).natAbs ≤ skewBound d e.1)
/-- From now on a locked die keeps to the source's clock, with the difference of now: so the clocks of dies that report lock stay
within the bounds of R341 (DEDUCED, log 34). -/
def keepTo (s : State) (d : Nat) : State :=
  match timeSource s with
  | none => s
  | some e => if e = d then s else updDie s d fun x => { x with follow := some (e, (datumOf s d : Int) - ownClock s e) }
/-- An offset of 10 ns or less, 16 times in a row, gives lock, where the clock agrees as a locked one's does. -/
def noteGood (s : State) (d k : Nat) : State :=
  let x := dieAt s d
  if x.goodOffsets + 1 < 16 || !clockAgrees s d then updDie s d fun x => { x with goodOffsets := x.goodOffsets + 1 }
  else
    let s1 := updDie (keepTo s d) d fun x => { x with
      timelock := wput x.timelock 63 1 1, locked := true, everLocked := true, goodOffsets := 0, badOffsets := 0 }
    if x.everLocked then timeRecord s1 d 2 k 1 else s1
/-- What an offset does to the lock: four in a row above 100 ns lose it. -/
def noteOffset (s : State) (d k : Nat) (off : Int) : State :=
  let x := dieAt s d
  if x.locked then
    if off.natAbs ≤ 100 then updDie s d fun x => { x with badOffsets := 0 }
    else if x.badOffsets + 1 < 4 then updDie s d fun x => { x with badOffsets := x.badOffsets + 1 }
    else loseLock s d 2
  else if off.natAbs ≤ 10 then noteGood s d k
  else updDie s d fun x => { x with goodOffsets := 0 }
/-- A measurement over an upstream port: the offset is shown and judged, and the servo sets the rate. -/
def measureTime (s : State) (d k : Nat) (off rate : Int) : State :=
  let s1 := setRate s d rate
  let s2 := updDie s1 d fun x => { x with
    upstreamLost := none, timeSent := none
    timelock := wput (wput x.timelock 16 16 (ofSigned 16 (clampI (-32768) 32767 off))) 0 3 k }
  noteOffset s2 d k off
/-- The first time message that has reached a die. -/
def timeArrived (s : State) (d : Nat) : Option Nat := (dieAt s d).inbox.findIdx? fun p => p.body = .time
/-- `TIME_MESSAGE` (R340, R461): the upstream neighbour of the focused die sends it a time message, or the one that has come gives a
measurement. The servo's rate is the first of `ints`, and the next two are the ns that a message takes on the link to the die
and back; of the source, the second is its offset from the host's time, which it has over Zoengline. -/
def execTimeMessage (s : State) : Res :=
  let d := dieOf s.cur
  match upstreamPort s d with
  | none => wait s
  | some k =>
    let rate := s.inp.ints.getD 0 0
    if !(dieAt s d).powered then wait s
    else
      match peerOf s.z d k with
      | none => .next (measureTime s d k (s.inp.ints.getD 1 0) rate)
      | some (e, _) =>
        match timeArrived s d with
        | some j =>
          let off := measuredOffset s d e (s.inp.ints.getD 1 0) (s.inp.ints.getD 2 0)
          .next (measureTime (updDie s d fun x => { x with inbox := ldel x.inbox j }) d k off rate)
        | none =>
          if (dieAt s d).timeSent.any fun t => s.now < t + 1000000 then wait s
          else .next (sendPacket (updDie s d fun x => { x with timeSent := some s.now }) { timePacket e d with since := s.now })
/-- `timelock.src` of a die is written (R343): the dies that report lock keep to the new source's clock with the differences of now;
without a source each goes on by its own. -/
def writeSource (s0 : State) (d : Nat) (v : Word) : State :=
  let s := updDie (settleDies s0) d fun x => { x with timelock := mixWord x.timelock v (2 ^ 62) }
  let s1 := s.dies.foldl (fun s e => holdClock s e.1) s
  s1.dies.foldl (fun s e => if e.2.locked then keepTo s e.1 else s) s1

end Sys2Proof.Machine
end

