-- ==== Sys2Proof/Machine/Repair.lean ====
section
/-! DEFINITION. Self-test and repair of tiles, DRAM rows, the scrubber and the contractor's commands (11, R368, R369; 16, R409;
19, R474 to R486). What a test finds comes with its event. -/
namespace Sys2Proof.Machine

/-! ### Tile state (R483) -/

/-- `tlpred` of physical tile `i` after stage 1 with nothing repaired: 17 good spans, position 8 an unused spare. -/
def tlDefault (i : Nat) : Word :=
  BitVec.ofNat 64 (17 + (if i % 9 = 8 then 2 ^ 16 + 2 ^ 20 else (i / 9 * 8 + i % 9) * 2 ^ 8) + 3 * 2 ^ 18)
def tlAt (x : Die) (i : Nat) : Word := (alook x.tlpred i).getD (tlDefault i)
def updTl (s : State) (d i : Nat) (f : Word → Word) : State := updDie s d fun x => { x with tlpred := aset x.tlpred i (f (tlAt x i)) }
/-- State and good spans of an entry. -/
def tlState (w : Word) : Nat := wbits w 20 4
def tlSpans (w : Word) : Nat := wbits w 0 8
/-- The highest gear a tile may be granted (R472). -/
def gearLimit (s : State) (t : Nat) : Nat := if (tileCluster s t).biasFailed then min 2 (tileAt s t).gearMax else (tileAt s t).gearMax
/-- `tlpred` as it reads: the gear limit and the sensor of the tile in use at the position. -/
def tlValue (s : State) (d i : Nat) : Word :=
  let w := tlAt (dieAt s d) i
  if bitOf w.toNat 16 then w
  else
    let t := d * 128 + wbits w 8 7
    let g := gearLimit s t
    let v := wput (wput w 18 2 g) 17 1 (if (tileAt s t).sensorFailed then 1 else 0)
    if tlState w = 0 && g < 3 then wput v 20 4 3 else v
/-- Spans offered by a tile with so many good ones: 16 with 16 or 17, else the largest power of two (R475). -/
def offered (good : Nat) : Nat := if 16 ≤ good then 16 else pow2Below good
/-- Spare rows and columns of an array of a unit (Table 19.2). -/
def arraySpares (unit : Nat) : Nat × Nat :=
  if unit = 0x10 then (4, 2) else if unit = 0x13 || unit = 0x14 || unit = 0x16 then (2, 1)
  else if unit = 0x11 || unit = 0x12 then (2, 0) else (0, 0)
/-- Fields of a repair map entry (Table 19.6). -/
def entKind (e : Word) : Nat := wbits e 60 4
def entCluster (e : Word) : Nat := wbits e 52 4
def entPos (e : Word) : Nat := wbits e 48 4
def entUnit (e : Word) : Nat := wbits e 40 8
def entArray (e : Word) : Nat := wbits e 24 16
def entRow (e : Word) : Nat := wbits e 4 20
/-- Entries of a kind for an array of a physical tile: its spares of that kind in use. -/
def sparesUsed (x : Die) (kind c pos unit array : Nat) : Nat :=
  (x.repairMap.filter fun e => entKind e = kind && entCluster e = c && entPos e = pos && entUnit e = unit && entArray e = array).length
/-- The repair map has room. -/
def mapRoom (x : Die) : Bool := x.repairMap.length < 512

/-! ### Repairing a finding (R475) -/

/-- A record of kind 12 about a tile. -/
def repairRecord (s : State) (t sub sev action : Nat) (e : Word) (r : ErrRec) : State :=
  writeRecord s (t / 128) { r with kind := 12, sev := sev, action := action, value := e.toNat, place := t * 2 ^ 15, tileValid := true,
                                   detail := leBytes 1 sub }
/-- The count of fenced tiles in `startst`. -/
def countFenced (s : State) (d : Nat) : State :=
  let n := ((tilesOf d).filter fun t => (tileAt s t).fenced).length
  updDie s d fun x => { x with startst := wput x.startst 24 8 n }
/-- A tile is taken out of use where it stands (R478). -/
def fenceTile (s : State) (t : Nat) : State :=
  let d := t / 128
  let i := physOf s t
  let e := mapEntry 2 (i / 9) (i % 9) 0 0 0 0
  let s1 := repairRecord (if mapRoom (dieAt s d) then mapAppend s d e else s) t 1 4 5 e { kind := 12, sev := 4, unit := 0x44 }
  countFenced (updTl (updTile s1 t fun x => { x with fenced := true }) d i fun w => wput w 20 4 5) d
/-- A tile of other silicon under a logical number: nothing of the old one is left. -/
def freshTile (x : Tile) (spans : Nat) : Tile :=
  { x with spans := offered spans, gearMax := 3, sensorFailed := false, equalReads := 0, l1 := [], ic := [], tlbC := [], tlbL := []
           tlbS := [], tlbM := [], tlbX := [], left := [], leftTenant := [], leftBad := [] }
/-- The cluster's spare takes a tile's number, where it is unused and passes; else `other` (R475, items 3 and 4). -/
def retireTile (s : State) (t : Nat) (passes : Bool) (other : State → State) : State :=
  let d := t / 128
  let i := physOf s t
  let j := i / 9 * 9 + 8
  let x := dieAt s d
  if tlState (tlAt x j) = 1 && passes && mapRoom x then
    let e := mapEntry 1 (i / 9) (i % 9) 0 0 0 0
    let s1 := repairRecord (mapAppend s d e) t 1 4 5 e { kind := 12, sev := 4, unit := 0x44 }
    let s2 := updTl (updTl s1 d i fun w => wput (wput w 20 4 4) 16 1 1) d j fun w => wput (wput (wput w 20 4 0) 16 1 0) 8 7 (t % 128)
    updTile (updDie s2 d fun x => { x with phys := aset x.phys (t % 128) 8 }) t fun y => freshTile y (tlSpans (tlAt x j))
  else other s
/-- A failed SRAM cell takes a spare row of its array, or failing that a spare column. -/
def repairCell (s : State) (t unit array row col : Nat) (passes : Bool) : State :=
  let d := t / 128
  let i := physOf s t
  let x := dieAt s d
  let (rows, cols) := arraySpares unit
  let r := sparesUsed x 4 (i / 9) (i % 9) unit array
  let c := sparesUsed x 5 (i / 9) (i % 9) unit array
  let rec' : ErrRec := { kind := 12, sev := 2, unit := unit, array := if unit = 0x10 then 0xFFFF else array,
                         bank := if unit = 0x10 then array else 0, row := row, col := col }
  let byRow := mapEntry 4 (i / 9) (i % 9) unit array row r
  if !mapRoom x then retireTile (mapAppend s d byRow) t passes fun s => fenceTile s t
  else if r < rows then
    updTl (repairRecord (mapAppend s d byRow) t 2 2 3 byRow rec') d i fun w => bumpField w 48 16
  else if c < cols then
    let e := mapEntry 5 (i / 9) (i % 9) unit array col c
    updTl (repairRecord (mapAppend s d e) t 2 2 3 e rec') d i fun w => bumpField w 40 8
  else retireTile s t passes fun s => fenceTile s t
/-- A tile runs with fewer spans, or without any is fenced. -/
def degradeTile (s : State) (t span : Nat) : State :=
  let d := t / 128
  let i := physOf s t
  let good := tlSpans (tlAt (dieAt s d) i) - 1
  let e := mapEntry 3 (i / 9) (i % 9) 0x15 span 0 15
  if good = 0 then fenceTile s t
  else
    let s1 := repairRecord (if mapRoom (dieAt s d) then mapAppend s d e else s) t 3 4 5 e { kind := 12, sev := 4, unit := 0x15, physSpan := span }
    let s2 := updTl s1 d i fun w => wput (wput (bumpField w 32 8) 0 8 good) 20 4 (if good < 16 then 2 else tlState w)
    updTile s2 t fun x => { x with spans := offered good }
/-- A failed span takes the spare span; a second one retires or degrades the tile. -/
def repairSpan (s : State) (t span : Nat) (passes : Bool) : State :=
  let d := t / 128
  let i := physOf s t
  let x := dieAt s d
  let w := tlAt x i
  let e := mapEntry 3 (i / 9) (i % 9) 0x15 span 0 0
  if 17 ≤ tlSpans w && mapRoom x then
    let s1 := repairRecord (mapAppend s d e) t 3 2 3 e { kind := 12, sev := 2, unit := 0x15, physSpan := span }
    updTl s1 d i fun w => wput (bumpField w 32 8) 0 8 (tlSpans w - 1)
  else retireTile (if mapRoom x then s else mapAppend s d e) t passes fun s => degradeTile s t span
/-- A finding is repaired, unless its tile has already left use: kind 3 a span, kind 4 a cell, kind 8 a gear, kind 9 the
cluster's bias, kind 1 the whole tile; `col` is the cell's column. -/
def repairFinding (passes : Bool) (t i0 : Nat) (s : State) (f : Word × Nat) : State :=
  let (e, col) := f
  let d := t / 128
  if (tileAt s t).fenced || physOf s t ≠ i0 then s
  else
    match entKind e with
    | 1 => retireTile s t passes fun s => fenceTile s t
    | 3 => repairSpan s t (entArray e) passes
    | 4 => repairCell s t (entUnit e) (entArray e) (entRow e) col passes
    | 8 =>
      let s1 := updTile s t fun x => { x with gearMax := min 3 (entRow e) }
      mapAppend (gearRecord s1 t (min 3 (entRow e + 1)) 2 2) d (mapEntry 8 (i0 / 9) (i0 % 9) 0 0 (entRow e) 0)
    | 9 =>
      let s1 := updCluster s d (t % 128 / 8) fun c => { c with biasFailed := true, bias := false, setting := none }
      mapAppend (gearRecord s1 t 3 1 2) d (mapEntry 9 (t % 128 / 8) 15 0 0 0 0)
    | _ => s
/-- The findings of a test, each with its column, are repaired in order. -/
def repairAll (s : State) (t : Nat) (l : List (Word × Nat)) (passes : Bool) : State :=
  let i := physOf s t
  let s1 := if l = [] then s else updTl s (t / 128) i fun w => bumpField w 24 8
  l.foldl (repairFinding passes t i) s1
/-- What a test clears (R468, R472, R477): a sensor's failure, a gear limit and a bias failure that it does not find again, and
with no finding the fence of a tile. -/
def testPassed (s : State) (t : Nat) (l : List (Word × Nat)) : State :=
  let d := t / 128
  let i := physOf s t
  let found : Nat → Bool := fun k => l.any fun f => entKind f.1 = k
  let s1 := updTile s t fun x => { x with
    sensorFailed := false, equalReads := 0, gearMax := if found 8 then x.gearMax else 3, fenced := x.fenced && l ≠ [] }
  let s2 := if found 9 then s1 else updCluster s1 d (t % 128 / 8) fun c => { c with biasFailed := false }
  let s3 := if l = [] && tlState (tlAt (dieAt s2 d) i) = 5 then
      updTl s2 d i fun w => wput w 20 4 (if tlSpans w < 16 then 2 else 0) else s2
  countFenced s3 d
/-- The findings an event carries, with their columns. -/
def findings (s : State) : List (Word × Nat) := s.inp.values.zipIdx.map fun (e, k) => (e, (s.inp.ints.getD k 0).toNat)

/-! ### The between-kernel test (R368, R369, R477) -/

/-- The tile a command names, of the focused die. -/
def namedTile (s : State) : Nat := dieOf s.cur * 128 + s.inp.sel % 128
/-- A tile may be withdrawn now: no other of its cluster is, and fewer than four of its die (R369). -/
def mayWithdraw (s : State) (t : Nat) : Bool :=
  (clusterTiles (t / 128) (t % 128 / 8)).all (fun u => !(tileAt s u).withdrawn)
    && ((tilesOf (t / 128)).filter fun u => (tileAt s u).withdrawn).length < 4
/-- A tile is withdrawn, its contexts pre-empted with reason 3. -/
def withdraw (s : State) (t : Nat) : State :=
  let s1 := updTile s t fun x => { x with withdrawn := true, noArea := false }
  (residents s1 t).foldl saveForTest s1
/-- A command to the management core reaches a powered die of a module whose Zoengline is up. -/
def coreUp (s : State) : Bool := hostUp s (moduleOf s.cur) && (myDie s).powered
/-- Commands on the management core's tables: a die that has not reached stage 2 has the safe function only (R365, R485). -/
def manage (k : State → Res) (s : State) : Res :=
  if !coreUp s then wait s else if (myDie s).stage ≠ 2 then .next (respond s 9 1 []) else k s
/-- `TEST_TILE` (R368, R369, R477): the tile `sel` is withdrawn; status 2 for one of a halted die or already withdrawn. -/
def execTestTile (s : State) : Res :=
  manage (fun s =>
    let t := namedTile s
    if dieHalted s || (tileAt s t).withdrawn then .next (respond s 9 2 [])
    else if !mayWithdraw s t then wait s
    else .next (withdraw s t)) s
/-- A tile returns from its test. -/
def returnTile (s : State) (t : Nat) : State :=
  updTile s t fun x => freshCaches { x with withdrawn := false, testing := none, noArea := false }
where
  /-- Nothing that the arrays held is left. -/
  freshCaches (x : Tile) : Tile :=
    { x with l1 := [], ic := [], tlbC := [], tlbL := [], tlbS := [], tlbM := [], tlbX := [], left := [], leftTenant := [], leftBad := [] }
/-- `SELF_TEST_RUN` (R368, R475, R477): once the slots of the focused withdrawn tile are empty its test begins; then it ends
with the findings of `values`, and the tile returns; with `flag`, or after 5 ms, it is retired or fenced. `flag2` says that
the cluster's spare passes. -/
def execSelfTestRun (s : State) : Res :=
  let t := tileOf s.cur
  let x := tileAt s t
  if !x.withdrawn || residents s t ≠ [] then wait s
  else
    match x.testing with
    | none => .next (updTile s t fun x => { x with testing := some s.now })
    | some t0 =>
      let s1 := if s.inp.flag || t0 + 5000000 < s.now then retireTile s t s.inp.flag2 (fun s => if (tileAt s t).fenced then s else fenceTile s t)
        else testPassed (repairAll s t (findings s) s.inp.flag2) t (findings s)
      .next (respond (returnTile s1 t) 9 0 [])

/-! ### DRAM rows and the scrubber (R409, R479, R480) -/

/-- `DRAM_ROW_SPARE_COMPLETE` (R479): the copy of a row onto a spare is complete. -/
def execDramRowSpareComplete (s : State) : Res :=
  let d := dieOf s.cur
  match (dieAt s d).sparing[s.inp.sel]? with
  | none => wait s
  | some r =>
    let gone : Suspect → Bool := fun y => y.bank = r.bank && y.row = r.row
    let s1 := updDie s d fun x => countSuspects { x with
      sparing := x.sparing.filter (fun y => !gone y), suspects := x.suspects.filter (fun y => !gone y)
      bkpred := aset x.bkpred r.bank (bumpField (bkpredAt x r.bank) 28 4) } r.bank
    let s2 := mapAppend s1 d (mapEntry 6 0 15 (unitOfKey r.addr) r.bank r.row (wbits (bkpredAt (dieAt s1 d) r.bank) 28 4 - 1))
    .next (bankCheck s2 d r.bank r.addr)
/-- A granule of device memory as the scrubber finds it, in its L2 line or in memory. -/
def scrubGranule (s : State) (l : Nat) : State :=
  let key := 64 * l
  let (b, r) := bankRow key
  match eccLine s l with
  | 0 => s
  | 1 => eccCorrect s key 64
  | _ =>
    let inL2 := (alook s.l2 l).isSome && eccL2 s l = 2
    let s1 := if !inL2 then rowError s key true else s
    writeRecord { s1 with free := s1.free + 1 } (homeDie key)
      { kind := 5, sev := 2, unit := if inL2 then 0x20 else unitOfKey key, bank := b, row := r, addr := key % 2 ^ 44,
        value := syndrome s1, place := diePlace (homeDie key), detail := leBytes 1 1 }
/-- A record of a scratchpad word that the scrubber read. -/
def scrubWord (d t : Nat) (s : State) (w : Nat) : State :=
  writeRecord { s with free := s.free + 1 } d
    { kind := 5, sev := if w % 2 = 1 then 2 else 1, unit := 0x10, addr := 8 * (w / 2), value := syndrome s, action := if w % 2 = 1 then 0 else 1,
      place := t * 2 ^ 15, tileValid := true, detail := leBytes 1 1 }
/-- The scratchpad words of a tile that hold errors: `2 × word + 1` of the tile for an uncorrected one. -/
def spoiledWords (s : State) (t : Nat) : List Nat :=
  (residents s t).flatMap (fun p => (ctxAt s p).bad.map fun b => b + 2 * ((ctxAt s p).spadBase / 8)) ++ (tileAt s t).leftBad
/-- The scrubber over a tile: corrected words are written back, uncorrected ones left. -/
def scrubTile (d : Nat) (s : State) (t : Nat) : State :=
  let s1 := (spoiledWords s t).foldl (scrubWord d t) s
  let s2 := (residents s1 t).foldl (fun s p => updCtx s p fun c => { c with bad := c.bad.filter fun b => b % 2 = 1 }) s1
  if (tileAt s2 t).leftBad = [] then s2 else updTile s2 t fun x => { x with leftBad := x.leftBad.filter fun b => b % 2 = 1 }
/-- `SCRUB_PASS` (R409): every scratchpad word, L2 line and granule of the focused die is read once. -/
def execScrubPass (s : State) : Res :=
  let d := dieOf s.cur
  if !(dieAt s d).powered then wait s
  else
    let lines := (s.ecc.map (·.1)).filter fun l => homeDie (64 * l) = d
    .next ((tilesOf d).foldl (scrubTile d) (lines.foldl scrubGranule s))

/-! ### The contractor's commands (R486) -/

/-- The body of a command, as it is signed: its code, what it names and carries, and its sequence number `len`. -/
def commandBody (s : State) (code : Nat) : List Byte :=
  leBytes 1 code ++ leBytes 4 (diePlace (dieOf s.cur)) ++ leBytes 4 s.inp.sel ++ leBytes 4 s.inp.unit ++ leBytes 8 s.inp.addr
    ++ leBytes 8 s.inp.value.toNat ++ (s.inp.values.flatMap fun v => leBytes 8 v.toNat) ++ leBytes 8 s.inp.len
/-- A signed command: refused with status 3 unless its signature verifies under the maintenance key and its sequence number
passes the last one; else recorded, and performed. -/
def signed (code : Nat) (k : State → Res) (s : State) : Res :=
  manage (fun s =>
    let d := dieOf s.cur
    if ed25519Verify (identityAt s d maintenanceParty) (commandBody s code) s.inp.sig && (dieAt s d).maintSeq < s.inp.len then
      let s1 := updDie s d fun x => { x with maintSeq := s.inp.len }
      k (writeRecord s1 d { kind := 12, sev := 1, unit := 0x44, value := code + s.inp.len % 2 ^ 56 * 256, place := diePlace d,
                            detail := leBytes 1 9 })
    else .next (respond s 9 3 [])) s
/-- A ring's indices as they read (Table 15.10). -/
def ringPtr (r : Ring) : Nat := r.dropped * 2 ^ 48 + r.wr % 2 ^ 13 * 2 ^ 32 + r.rd % 2 ^ 13
/-- `READ_STATE` (R486): from stage 0 on; the read of `errptr` clears its dropped count. -/
def execReadState (s : State) : Res :=
  if !coreUp s then wait s
  else
    let d := dieOf s.cur
    let x := dieAt s d
    .next (respond (updDie s d fun x => { x with err := { x.err with dropped := 0 } }) 9 0 (leBytes 8 x.startst.toNat ++ ((List.range 144).flatMap fun i => leBytes 8 (tlValue s d i).toNat)
      ++ ((List.range 2176).flatMap fun b => leBytes 8 (bkpredAt x b).toNat)
      ++ ((portsOf d).flatMap fun k => leBytes 8 (portAt s d k).lkpred.toNat) ++ leBytes 8 (ringPtr x.err)
      ++ (x.repairMap.flatMap fun e => leBytes 8 e.toNat)))
/-- `CLEAR_COUNTS` (R486): of port `unit` (`sel` 0), bank `unit` (1) or physical tile `unit` (2). -/
def execClearCounts (s : State) : Res :=
  signed 3 (fun s =>
    let d := dieOf s.cur
    let n := s.inp.unit
    let s1 := match s.inp.sel with
      | 0 => updPort s d (n % 7) fun x => { x with lkpred := wput 0 8 8 (wbits x.lkpred 8 8), warned := [] }
      | 1 => updDie s d fun x => { x with
          bkpred := aset x.bkpred (n % 2176) (wput (wput (bkpredAt x (n % 2176)) 40 24 0) 32 8 0)
          bankWarned := x.bankWarned.filter (· ≠ n % 2176) }
      | _ => updTl s d (n % 144) fun w => wput w 24 40 0
    .next (respond s1 9 0 [])) s
/-- `RETIRE_UNIT` (R486, R475): the unit that the entry `value` names, of tile `sel`: the tile is withdrawn first, and once its
slots are empty the unit leaves use as though a test had failed it. -/
def execRetireUnit (s : State) : Res :=
  let t := namedTile s
  if (tileAt s t).withdrawn && residents s t ≠ [] then wait s
  else
    signed 4 (fun s =>
      if dieHalted s then .next (respond s 9 2 [])
      else if residents s t ≠ [] then (if mayWithdraw s t then .next (unaccept (withdraw s t)) else wait (unaccept s))
      else
        let i := physOf s t
        .next (respond (returnTile (repairFinding s.inp.flag2 t i s (s.inp.value, (s.inp.ints.getD 0 0).toNat)) t) 9 0 [])) s
where
  /-- The command is not performed yet: its number serves again. -/
  unaccept (s : State) : State := updDie s (dieOf s.cur) fun x => { x with maintSeq := x.maintSeq - 1 }
/-- `SPARE_DRAM_ROW` (R486, R479): the row of the byte at physical address `addr`. -/
def execSpareDramRow (s : State) : Res :=
  signed 5 (fun s =>
    let d := dieOf s.cur
    let key := devKey (d / 16) s.inp.addr
    let (b, r) := bankRow key
    if !(inNear key || inLpddr key) || homeDie key ≠ d then .next (respond s 9 1 [])
    else .next (respond (beginSparing s d { bank := b, row := r, addr := key }) 9 0 [])) s
/-- `CLEAR_REPAIR_MAP` (R486): erased at the next stage 1. -/
def execClearRepairMap (s : State) : Res :=
  signed 6 (fun s => .next (respond (updDie s (dieOf s.cur) fun x => { x with repairErase := true }) 9 0 [])) s
/-- The writable bits of `lkthr`, `bkthr` and `thermcfg`. -/
def lkthrBits : Nat := maskOf 63 8
def bkthrBits : Nat := maskOf 39 16 + maskOf 7 0
def thermBits : Nat := maskOf 23 0
/-- `SET_THRESHOLDS` (R486): `lkthr` of port `unit`, `bkthr` and `thermcfg` from `values`. -/
def execSetThresholds (s : State) : Res :=
  signed 7 (fun s =>
    let d := dieOf s.cur
    let v := s.inp.values
    let s1 := updPort s d (s.inp.unit % 7) fun x => { x with lkthr := mixWord x.lkthr (v.getD 0 x.lkthr) lkthrBits }
    let s2 := updDie s1 d fun x => { x with
      bkthr := mixWord x.bkthr (v.getD 1 x.bkthr) bkthrBits, thermcfg := mixWord x.thermcfg (v.getD 2 x.thermcfg) thermBits }
    .next (respond s2 9 0 [])) s

end Sys2Proof.Machine
end

