-- ==== Sys2Proof/Machine/Start.lean ====
section
/-! DEFINITION. Start in its stages, start that fails, power down, the reset of a halted die, and attestation (11, R365 to R367;
15, R386; 19, R484, R485). What training and self-test find comes with the event. -/
namespace Sys2Proof.Machine

/-! ### Firmware and measurements (R366, R367) -/

/-- The image in a flash slot of a module: as delivered where none has been written. -/
def flashImage (s : State) (m k : Nat) : List Byte := (alook s.flash (m * 2 + k)).getD (Config.factoryImage k)
/-- Bytes of the header of Table 11.12, and of header and body. -/
def imageHeader : Nat := 0xC0
def imageSize (b : List Byte) : Nat := imageHeader + fieldAt b 0x0C 4
/-- The four checks of an image (R366). -/
def imageOk (b : List Byte) : Bool :=
  let slot := fieldAt b 0x10 1
  sha512 (slice b imageHeader (fieldAt b 0x0C 4)) = slice b 0x40 64
    && slot ≤ 1 && !Config.vendorRevoked slot && ed25519Verify (Config.vendorKey slot) (b.take 0x80) (slice b 0x80 64)
    && Config.fusedVersion ≤ fieldAt b 8 4
    && imageSize b ≤ Config.imageRegion
/-- The slot the ROM takes: 0, else 1, else 15, ROM recovery. -/
def bootSlot (s : State) (m : Nat) : Nat := if imageOk (flashImage s m 0) then 0 else if imageOk (flashImage s m 1) then 1 else 15
/-- The slot a die runs from. -/
def runSlot (x : Die) : Nat := wbits x.startst 4 4
/-- The measurement of an image, and its extension by an item. -/
def measure (b : List Byte) : List Byte := sha512 (b.take (imageSize b))
def extendBy (m item : List Byte) : List Byte := sha512 (m ++ item)
/-- An image's measurement extended with a repair map and the identity list of a die. -/
def measureMap (s : State) (d : Nat) (b : List Byte) (map : List Word) : List Byte :=
  extendBy (extendBy (measure b) (map.flatMap fun e => leBytes 8 e.toNat)) (identityList s d)
/-- The measurement registers of stages 0, 1 and 2 (R367): of a die that has not started anew, those of a start with nothing
repaired. -/
def measured (s : State) (d : Nat) : List Byte :=
  let x := dieAt s d
  let b := flashImage s (d / 16) 0
  let m := measureMap s d b []
  if x.measurements = [] then m ++ m ++ m else x.measurements
/-- A measurement register set. -/
def setMeasure (s : State) (d k : Nat) (m : List Byte) : State :=
  updDie s d fun x => { x with measurements := splice (padTo 192 x.measurements) (64 * k) (padTo 64 (m.take 64)) }
/-- `ATTEST` (R367): the report over the nonce `bytes`, signed. -/
def execAttest (s : State) : Res :=
  if !coreUp s then wait s
  else
    let d := dieOf s.cur
    let version := if runSlot (dieAt s d) = 15 then 0 else fieldAt (flashImage s (d / 16) (runSlot (dieAt s d))) 8 4
    let body := padTo 32 (s.inp.bytes.take 32) ++ leBytes 4 (diePlace d) ++ leBytes 4 version ++ measured s d
    .next (respond s 9 0 (body ++ padTo 64 (ed25519Sign (Config.identityKey d) body)))

/-! ### What a loss of power or a reset leaves -/

/-- The tiles, contexts, caches and memory of the dies that `p` names are as never used; their memory's contents are lost. -/
def wipe (s : State) (p : Nat → Bool) : State :=
  { s with
    cx := if p (dieOf s.cur) then {} else s.cx
    ctxs := s.ctxs.filter fun e => !p (dieOf e.1)
    tiles := s.tiles.filter fun e => !p (e.1 / 128)
    mem := s.mem.filter fun e => !p (homeDie e.1)
    tags := s.tags.filter fun e => !p (homeDie (4096 * e.1))
    l2 := s.l2.filter fun e => !p (homeDie (64 * e.1))
    hostLines := s.hostLines.filter fun e => !p (homeDie (64 * e.1))
    ecc := s.ecc.filter fun e => !p (homeDie (64 * e.1)) }
/-- A port without power. -/
def portOff (z d k : Nat) : Port :=
  let x := portDefault z d k
  { x with state := .down, vdport := wput x.vdport 8 4 0, keyTx := none, keyRx := none }
/-- A die without power: its flash keeps the repair map, the identity list and the last number of a signed command. -/
def dieOff (z d : Nat) (x : Die) : Die :=
  { dieDefault with
    powered := false, stage := 0, startst := 0, ports := (portsOf d).map fun k => (k, portOff z d k), answers := x.answers
    repairMap := x.repairMap, repairErase := x.repairErase, maintSeq := x.maintSeq, identity := x.identity, lost := x.lost + 1 }
/-- `POWER_DOWN` (R365): the focused module loses power; fuses and flash remain. -/
def execPowerDown (s : State) : Res :=
  let m := moduleOf s.cur
  let s0 := s.dies.foldl (fun s e => if e.2.follow.any fun x => x.1 / 16 = m then holdClock s e.1 else s) (settleDies s)
  let s1 := wipe s0 fun d => d / 16 = m
  .next ((diesOf m).foldl (fun s d => updDie s d (dieOff s.z d)) s1)
/-- A die after a reset command: its management core, router, links and datum clock go on; all else starts anew. -/
def dieCold (now : Nat) (x : Die) : Die :=
  { dieDefault with
    stage := 0, startst := wput 0 4 4 (runSlot x), startAt := now, ports := x.ports, cut := x.cut, outbox := x.outbox, inbox := x.inbox
    uet := x.uet, uetNext := x.uetNext, rodNext := x.rodNext, uetSeen := x.uetSeen, rodSeen := x.rodSeen
    uetAcks := x.uetAcks, hostSeq := x.hostSeq
    hostHeld := x.hostHeld, answers := x.answers, err := { waiting := x.err.waiting, number := x.err.number }
    debugRecords := x.debugRecords, debugNumber := x.debugNumber, bkpred := x.bkpred, tlpred := x.tlpred
    repairMap := x.repairMap, repairErase := x.repairErase, maintSeq := x.maintSeq, measurements := x.measurements
    mapUsed := x.mapUsed, identity := x.identity
    timelock := x.timelock, datumOff := x.datumOff, rate := x.rate, rateSince := x.rateSince, follow := x.follow
    timeSent := x.timeSent, locked := x.locked
    goodOffsets := x.goodOffsets, badOffsets := x.badOffsets, upstreamLost := x.upstreamLost, everLocked := x.everLocked
    hotModule := x.hotModule, lost := x.lost + 1 }
/-- `DIE_RESET` (R386): stages 1 and 2 are to run on a halted die. -/
def execDieReset (s : State) : Res :=
  let d := dieOf s.cur
  if !coreUp s then wait s
  else if (myDie s).halted.isNone then .next (respond s 9 1 [])
  else
    let s1 := setMeasure s d 0 ((measured s d).take 64)
    .next (respond (updDie (wipe s1 fun e => e = d) d (dieCold s.now)) 9 0 [])

/-! ### Stage 0 (R365, R366, R485) -/

/-- A field of `startst` set. -/
def setStart (s : State) (d lo n v : Nat) : State := updDie s d fun x => { x with startst := wput x.startst lo n v }
/-- A record of kind 13 (Table 19.7). -/
def startRecord (s : State) (d sub : Nat) (r : ErrRec) : State :=
  writeRecord s d { r with kind := 13, sev := 1, value := (dieAt s d).startst.toNat, detail := leBytes 1 sub }
/-- A record of kind 13 about the die. -/
def startFailed (s : State) (d sub : Nat) : State := startRecord s d sub { kind := 13, sev := 1, unit := 0x44, place := diePlace d }
/-- Power is good on the focused die, which has none and is not held off. -/
def powerOn (s : State) (d : Nat) : State :=
  updDie s d fun x => { x with powered := true, startAt := s.now, datumOff := -(s.now : Int), rateSince := s.now }
/-- `START_STAGE_0`: the ROM checks the firmware; Zoengline trains and is keyed. Until stage 1 has applied the repair map, the
measurement is extended with the map that it will apply. -/
def execStartStage0 (s : State) : Res :=
  let d := dieOf s.cur
  if (myDie s).powered || (myDie s).heldOff || !dieExists s d then wait s
  else
    let s1 := powerOn s d
    let slot := bootSlot s1 (d / 16)
    let s2 := setStart s1 d 4 4 slot
    let s3 := if slot = 15 then startFailed (setMeasure s2 d 0 (List.replicate 64 0)) d 1
      else
        let x := dieAt s2 d
        setMeasure s2 d 0 (measureMap s2 d (flashImage s2 (d / 16) slot) (if x.repairErase then [] else x.repairMap))
    .next (if hasPort d 0 then keyPort s3 d 0 else s3)
/-- A link one of whose dies is held off: both its ends count as failed. -/
def deadLink (d : Nat) (s : State) (k : Nat) : State :=
  (linkEnds s d k).foldl (fun s x => tellLink (setPort s x.1 x.2 .failed) x.1 x.2 false) s
/-- `DIE_START_TIMEOUT` (R485): 20 ms after its module's power is good, the focused die has not reported. -/
def execDieStartTimeout (s : State) : Res :=
  let d := dieOf s.cur
  let late := (diesOf (d / 16)).any fun e => (dieAt s e).powered && (dieAt s e).startAt + 20000000 ≤ s.now
  if (myDie s).powered || (myDie s).heldOff || !late then wait s
  else
    let s1 := updDie s d fun x => { x with heldOff := true }
    let s2 := (portsOf d).foldl (deadLink d) s1
    .next (startRecord s2 (controllerOf s2 (d / 16)) 2 { kind := 13, sev := 1, unit := 0x44, place := diePlace d })
/-- `ROM_IMAGE_WRITE` (R485): in ROM recovery, the image `bytes` is written to flash slot `sel`, if it is signed. -/
def execRomImageWrite (s : State) : Res :=
  if !coreUp s then wait s
  else if runSlot (myDie s) ≠ 15 then .next (respond s 9 1 [])
  else if !imageOk s.inp.bytes then .next (respond s 9 3 [])
  else .next (respond { s with flash := aset s.flash (moduleOf s.cur * 2 + s.inp.sel % 2) s.inp.bytes } 9 0 [])

/-! ### Stage 1 (R365, R475, R484, R485) -/

/-- The logical tile at a physical index of a die. -/
def tileAtPhys (s : State) (d i : Nat) : Option Nat := (tilesOf d).find? fun t => physOf s t = i
/-- A tile that stands at a physical index is changed. -/
def updPhys (s : State) (d i : Nat) (f : Tile → Tile) : State :=
  match tileAtPhys s d i with
  | none => s
  | some t => updTile s t f
/-- An entry of the repair map applied. -/
def applyEntry (d : Nat) (s : State) (e : Word) : State :=
  let i := entCluster e * 9 + entPos e
  match entKind e with
  | 1 =>
    let w := tlAt (dieAt s d) i
    let j := entCluster e * 9 + 8
    let s1 := updTl (updTl s d i fun w => wput (wput w 20 4 4) 16 1 1) d j fun v => wput (wput (wput v 20 4 0) 16 1 0) 8 7 (wbits w 8 7)
    updTile (updDie s1 d fun x => { x with phys := aset x.phys (wbits w 8 7) 8 }) (d * 128 + wbits w 8 7) fun y =>
      freshTile y (tlSpans (tlAt (dieAt s d) j))
  | 2 => updTl (updPhys s d i fun x => { x with fenced := true }) d i fun w => wput w 20 4 5
  | 3 =>
    let good := tlSpans (tlAt (dieAt s d) i) - 1
    updTl (updPhys s d i fun x => { x with spans := offered good }) d i fun w =>
      wput (wput (bumpField w 32 8) 0 8 good) 20 4 (if good < 16 then 2 else tlState w)
  | 4 => updTl s d i fun w => bumpField w 48 16
  | 5 => updTl s d i fun w => bumpField w 40 8
  | 6 => updDie s d fun x => { x with bkpred := aset x.bkpred (entArray e) (bumpField (bkpredAt x (entArray e)) 28 4) }
  | 8 => updPhys s d i fun x => { x with gearMax := min 3 (entRow e) }
  | 9 => updCluster s d (entCluster e) fun c => { c with biasFailed := true }
  | _ => s
/-- The repair map, erased where that was commanded, is applied to the silicon as built; counts of errors stand. -/
def applyMap (s : State) (d : Nat) : State :=
  let s1 := updDie s d fun x => { x with
    repairMap := if x.repairErase then [] else x.repairMap, repairErase := false, phys := []
    tlpred := x.tlpred.map fun e => (e.1, wput (tlDefault e.1) 24 8 (wbits e.2 24 8))
    bkpred := x.bkpred.map fun e => (e.1, wput e.2 28 4 0) }
  countFenced ((dieAt s1 d).repairMap.foldl (applyEntry d) s1) d
/-- Findings of the self-test by the tile they name; a cluster's own go with its first tile. -/
def testTile (d : Nat) (l : List (Word × Nat)) (passes : Bool) (s : State) (t : Nat) : State :=
  let i := physOf s t
  let mine := l.filter fun f => entCluster f.1 = i / 9 && (entPos f.1 = i % 9 || (entPos f.1 = 15 && t % 8 = 0))
  if mine = [] || d ≠ t / 128 then s else repairAll s t mine passes
/-- A memory channel that fails training is disabled, its range reserved: 0 to 15 near DRAM, 16 to 19 LPDDR-6. -/
def disableChannel (d : Nat) (s : State) (k : Nat) : State :=
  let s1 := updDie s d fun x => { x with deadRanges := x.deadRanges ++ [Config.channelRange k] }
  let w := (dieAt s1 d).startst
  let s2 := if k < 16 then setStart s1 d 11 5 (wbits w 11 5 + 1) else setStart s1 d 8 3 (wbits w 8 3 + 1)
  startRecord s2 d 3 { kind := 13, sev := 1, unit := if k < 16 then 0x21 else 0x22, bank := k, place := diePlace d }
/-- A port that has failed in start is recorded. -/
def notePort (d : Nat) (s : State) (k : Nat) : State :=
  if (portAt s d k).state ≠ .failed || bitOf (dieAt s d).startst.toNat (16 + (k - 1)) then s
  else
    startRecord (setStart s d (16 + (k - 1)) 1 1) d 4 { kind := 13, sev := 1, unit := portUnit k, eng := k, place := diePlace d }
/-- The torus ports of a die. -/
def torusPorts : List Nat := [1, 2, 3, 4, 5, 6]
/-- A port trains with its peer: a UCIe link is then up, and a Z link is keyed. A link that is up already stays. -/
def trainPort (d bad : Nat) (s : State) (k : Nat) : State :=
  match peerOf s.z d k with
  | none => s
  | some (e, j) =>
    let st := (portAt s e j).state
    if (portAt s d k).state ≠ .down then s
    else if bitOf bad k || st = .failed then failLink s d k 3
    else if st = .down then setPort s d k .training
    else if portKind k = 0 then portUp (portUp s d k) e j
    else keyPort (keyPort s d k) e j
/-- A die has stopped at stage 1: more than 16 tiles fenced, or no near-DRAM channel. -/
def mayGoOn (x : Die) : Bool := wbits x.startst 24 8 ≤ 16 && wbits x.startst 11 5 < 16
/-- `START_STAGE_1` (R365, R484, R485) of the focused die: memory channels that fail are the bits of `value`, ports those of
`unit` by code; `values` and `ints` are the findings of the self-test, and `flag2` says that spare tiles pass. -/
def execStartStage1 (s : State) : Res :=
  let d := dieOf s.cur
  let x := myDie s
  if !x.powered || x.halted.isSome || x.stage ≠ 0 || runSlot x = 15 then wait s
  else
    let bad := (List.range 20).filter fun k => bitOf s.inp.value.toNat k
    let s1 := bad.foldl (disableChannel d) (applyMap s d)
    let m := measureMap s1 d (flashImage s1 (d / 16) (runSlot x)) (dieAt s1 d).repairMap
    let s2 := setMeasure (setMeasure (updDie s1 d fun x => { x with mapUsed := x.repairMap }) d 0 m) d 1 m
    let s3 := (tilesOf d).foldl (testTile d (findings s) s.inp.flag2) s2
    let s4 := torusPorts.foldl (notePort d) (torusPorts.foldl (trainPort d s.inp.unit) s3)
    let s5 := setStart (updDie s4 d fun x => { x with stage := 1 }) d 0 2 1
    .next (if mayGoOn (dieAt s5 d) then s5 else startFailed (updDie s5 d fun x => { x with safeOnly := true }) d 5)

/-! ### Stage 2 (R365, R485) -/

/-- Training and keying of the die's links have ended; with `flag` a port that still trains has failed. -/
def linksReady (s : State) (d : Nat) : Bool :=
  torusPorts.all fun k => (portAt s d k).state ≠ .keying && (s.inp.flag || (portAt s d k).state ≠ .training)
/-- The die reaches stage 2; the module reports it once every die has. -/
def enterStage2 (s : State) (d : Nat) : State :=
  let s0 := torusPorts.foldl (fun s k => if (portAt s d k).state = .training then failLink s d k 3 else s) s
  let s1 := torusPorts.foldl (notePort d) s0
  let x := dieAt s1 d
  let s2 := setMeasure s1 d 2 (measureMap s1 d (flashImage s1 (d / 16) (runSlot x)) x.mapUsed)
  let ms := min 65535 ((s.now - x.startAt) / 1000000)
  let s3 := setStart (setStart (updDie s2 d fun x => { x with stage := 2 }) d 0 2 2) d 32 16 ms
  if (diesOf (d / 16)).all fun e => (dieAt s3 e).stage = 2 then
    tellHost s3 (controllerOf s3 (d / 16)) (leBytes 1 0x0E ++ leBytes 1 2 ++ leBytes 4 (d / 16))
  else s3
/-- Stage 1 of the focused die is complete. -/
def stage1Done (s : State) : Bool := (myDie s).stage = 1 && (myDie s).powered && !(myDie s).safeOnly && linksReady s (dieOf s.cur)
/-- `START_STAGE_2`: once the die is locked, or is the source. -/
def execStartStage2 (s : State) : Res :=
  if stage1Done s && ((myDie s).locked || bitOf (myDie s).timelock.toNat 62) then .next (enterStage2 s (dieOf s.cur)) else wait s
/-- `TIME_LOCK_START_TIMEOUT` (R485): 2 s after power good without lock, stage 2 is reached with `timelock.lock` clear. -/
def execTimeLockStartTimeout (s : State) : Res :=
  let d := dieOf s.cur
  if stage1Done s && !(myDie s).locked && (myDie s).startAt + 2000000000 ≤ s.now then
    let s1 := enterStage2 s d
    .next (startFailed s1 d 6)
  else wait s

end Sys2Proof.Machine
end

