-- ==== Sys2Proof/Machine/Registers.lean ====
section
/-! DEFINITION. The management core's registers as the host reads and writes them (00, R13; 03, R95; 05, R160, R163; 11, R348,
R358, R359; 15, R390; 16, R406; 17, R422, R433, R438). -/
namespace Sys2Proof.Machine

/-- A register access reaches a die that runs: at stage 2 and not halted, all of them. -/
def settable (k : State → Res) (s : State) : Res := manage (fun s => if dieHalted s then .next (respond s 9 1 []) else k s) s
/-- A write is done. -/
def settled (s : State) : Res := .next (respond s 9 0 [])

/-! ### Rings (Tables 11.8, 15.9, 15.10) -/

/-- The writable bits of `errcfg` and `pfcfg`, and of `survcfg`. -/
def ringBits : Nat := maskOf 63 32 + maskOf 19 8 + maskOf 1 0
def survBits : Nat := maskOf 63 32 + maskOf 19 8 + maskOf 5 0
/-- Records that waited for a ring are written out in order, where it is enabled (R390). -/
def drainRing (s : State) (d size : Nat) (r : Ring) : State × Ring :=
  if !bitOf r.cfg.toNat 0 then (s, r)
  else r.waiting.foldl (fun x b => ringPut x.1 d x.2 size b) (s, { r with waiting := [] })
/-- `errcfg` written. -/
def writeErrcfg (s : State) (d : Nat) (v : Word) : State :=
  let r := (dieAt s d).err
  let (s1, r1) := drainRing s d 128 { r with cfg := mixWord r.cfg v ringBits }
  updDie s1 d fun x => { x with err := r1 }
/-- `pfcfg` written. -/
def writePfcfg (s : State) (d : Nat) (v : Word) : State :=
  let r := (dieAt s d).pf
  let (s1, r1) := drainRing s d 32 { r with cfg := mixWord r.cfg v ringBits }
  updDie s1 d fun x => { x with pf := r1 }
/-- `survcfg` written: a k outside 10 to 24 is ignored; the ticks of the new period count from now. -/
def writeSurvcfg (s : State) (d : Nat) (v : Word) : State :=
  updDie s d fun x =>
    let k := wbits v 1 5
    let w := mixWord x.surv.cfg v survBits
    let cfg := if 10 ≤ k && k ≤ 24 then w else wput w 1 5 (wbits x.surv.cfg 1 5)
    { x with surv := { x.surv with cfg := cfg }, survTick := datumOf s d / 2 ^ wbits cfg 1 5
             counts := if bitOf x.surv.cfg.toNat 0 then x.counts else [] }
/-- The ring whose indices an access names: 0 `errptr`, 1 `survptr`, else `pfptr`. -/
def ringOf (x : Die) (k : Nat) : Ring := if k = 0 then x.err else if k = 1 then x.surv else x.pf
def setRing (x : Die) (k : Nat) (r : Ring) : Die :=
  if k = 0 then { x with err := r } else if k = 1 then { x with surv := r } else { x with pf := r }
/-- `ERRCFG_ENABLE` (R390): `errcfg` takes `value` with `en` set, and the records that waited are written out. -/
def execErrcfgEnable (s : State) : Res :=
  settable (fun s => settled (writeErrcfg s (dieOf s.cur) (s.inp.value ||| 1))) s
/-- `ERRPTR_RD_WRITE` (R390, R359): the host advances rd; an index that would make the ring hold more than its slots is
ignored. -/
def execErrptrRdWrite (s : State) : Res :=
  settable (fun s =>
    let d := dieOf s.cur
    let r := ringOf (dieAt s d) s.inp.sel
    let n := ringSlots r
    let i := wbits s.inp.value 0 13
    settled (if 2 * n ≤ i || n < (r.wr + 2 * n - i) % (2 * n) then s
      else updDie s d fun x => setRing x s.inp.sel { r with rd := i })) s
/-- `ERRPTR_READ` (R390, R359): the read clears the dropped count. -/
def execErrptrRead (s : State) : Res :=
  settable (fun s =>
    let d := dieOf s.cur
    let r := ringOf (dieAt s d) s.inp.sel
    .next (respond (updDie s d fun x => setRing x s.inp.sel { r with dropped := 0 }) 9 0 (leBytes 8 (ringPtr r)))) s

/-! ### The tenant table -/

/-- The tenant an access names. -/
def namedTenant (s : State) : Nat := s.inp.tenant % 16
/-- `LANDCNT_READ` (R406): the read clears both counts. -/
def execLandcntRead (s : State) : Res :=
  settable (fun s =>
    let d := dieOf s.cur
    let x := tenantAt s d (namedTenant s)
    let s1 := updTenant s d (namedTenant s) fun x => { x with stale := 0, refused := 0 }
    .next (respond s1 9 0 (leBytes 8 (x.stale * 2 ^ 32 + x.refused)))) s
/-- `n` areas of a stride from a physical address lie in near DRAM or LPDDR-6, each in one range. -/
def areasFit (base n : Nat) : Bool :=
  (List.range n).all fun k => rangeOk (base + areaStride * k) areaStride && !inWindow (base + areaStride * k)
/-- `SAVEPOOL_WRITE` (R433): ignored whole where an area would lie outside memory. -/
def execSavepoolWrite (s : State) : Res :=
  settable (fun s =>
    let v := s.inp.value
    let ok := areasFit (wbits v 36 28 * 65536) (if bitOf v.toNat 24 then wbits v 12 12 + 1 else 0)
    settled (if ok then updTenant s (dieOf s.cur) (namedTenant s) fun x => { x with
      savepool := mixWord x.savepool v (maskOf 63 36 + maskOf 24 12) } else s)) s
/-- `DUMPCFG_WRITE` (R438): ignored whole where a slot would lie outside memory. -/
def execDumpcfgWrite (s : State) : Res :=
  settable (fun s =>
    let v := s.inp.value
    settled (if areasFit (wbits v 44 20 * 2 ^ 24) (wbits v 40 4 + 1) then
      updTenant s (dieOf s.cur) (namedTenant s) fun x => { x with dumpcfg := mixWord x.dumpcfg v (maskOf 63 9 + maskOf 1 0) }
      else s)) s

/-! ### The governor's translations (R163) -/

/-- The addresses of the pages that hold the 3 MiB + 64 bytes of a governor table, in steps of the least page. -/
def govSteps (base : Nat) : List Nat := (List.range 49).map fun k => base + 65536 * k
/-- The walks of a governor table's pages: the translations, and the state with the entries they read in L2; none where a
walk fails. -/
def govWalk (s : State) (d tenant : Nat) : List Nat → Option (List Tlb × State)
  | [] => some ([], s)
  | va :: r =>
    let (w, ks) := walk s d tenant va
    let s1 := ks.foldl (fun s k => touch s tenant k 8) s
    match w with
    | .fault _ _ => none
    | .page t =>
      if ks.any fun k => eccLevel s1 k 8 = 2 then none
      else (govWalk s1 d tenant r).map fun x => (if x.1.contains t then x.1 else t :: x.1, x.2)
/-- `govbase` of a tenant's table written: valid is set only where every page of the table walks. -/
def writeGovbase (s : State) (d t : Nat) (v : Word) : Res :=
  let base := mixWord 0 v (maskOf 56 22)
  let off : State := updTenant s d t fun x => { x with govbase := base, govTr := [] }
  if !bitOf v.toNat 0 then settled off
  else
    match govWalk s d t (govSteps base.toNat) with
    | some (l, s1) => settled (updTenant s1 d t fun x => { x with govbase := base ||| 1, govTr := l })
    | none => .next (respond off 9 2 [])
/-- `GOVBASE_VALID_SET` (R163): the base of `value`, with valid. -/
def execGovbaseValidSet (s : State) : Res :=
  settable (fun s => writeGovbase s (dieOf s.cur) (namedTenant s) (s.inp.value ||| 1)) s

/-! ### Registers without a row of their own (R13) -/

/-- `pwrcap` written: a cap outside 200 to 520 W is ignored; while a low input holds the cap at 200 W the written one waits;
the module's caps are then kept within its power (R348, R470). -/
def writePwrcap (s : State) (d : Nat) (v : Word) (extra : Nat) : State :=
  let cap := wbits v 0 10
  let ok := 200 ≤ cap && cap ≤ 520
  let s1 := updDie s d fun x =>
    let w := wput x.pwrcap 16 10 (wbits v 16 10)
    if !ok then { x with pwrcap := w }
    else if x.capSaved.isSome then { x with pwrcap := w, capSaved := some cap }
    else { x with pwrcap := wput w 0 10 cap }
  moduleCaps s1 (d / 16) extra
/-- The datum clock set, before its first lock (R339). -/
def writeDatum (s : State) (d v : Nat) : Res :=
  if (dieAt s d).everLocked then .next (respond s 9 1 [])
  else settled (updDie (settleDies s) d fun x => { x with datumOff := (v : Int) - s.now, rateSince := s.now })
/-- A tenant's entry changed. -/
def writeTenant (s : State) (f : Tenant → Tenant) : Res := settled (updTenant s (dieOf s.cur) (namedTenant s) f)
/-- A register of the power controller (0 to 2), the links and the clock (3 to 5), the die and its ports (6 to 11) or the named
tenant (12 to 20) takes a value, or the key of party `unit` is installed in the identity list (21). -/
def writeRegister (s : State) (k : Nat) (v : Word) : Res :=
  let d := dieOf s.cur
  let p := s.inp.unit % 7
  match k with
  | 0 => settled (writePwrcap s d v s.inp.len)
  | 1 => settled (updDie s d fun x => { x with slewcfg := mixWord x.slewcfg v (maskOf 31 0) })
  | 2 => settled (updDie s d fun x => { x with thermcfg := mixWord x.thermcfg v thermBits })
  | 3 =>
    let n := wbits v 40 8
    settled (if 8 ≤ n && n ≤ 64 && hasPort d p then updPort s d p fun x => { x with vdport := wput x.vdport 40 8 n } else s)
  | 4 => settled (writeSource s d v)
  | 5 => writeDatum s d v.toNat
  | 6 => settled (writeSurvcfg s d v)
  | 7 => settled (writeErrcfg s d v)
  | 8 => settled (writePfcfg s d v)
  | 9 => settled (updDie s d fun x => { x with bartmo := mixWord x.bartmo v (maskOf 31 0) })
  | 10 => settled (updDie s d fun x => { x with bkthr := mixWord x.bkthr v bkthrBits })
  | 11 => settled (if hasPort d p then updPort s d p fun x => { x with lkthr := mixWord x.lkthr v lkthrBits } else s)
  | 12 => writeTenant s fun x => { x with ptroot := mixWord 0 v (maskOf 43 15) }
  | 13 => writeTenant s fun x => { x with tvec := v }
  | 14 => writeTenant s fun x => { x with atlasbase := mixWord 0 v (csrSv 0x00E) }
  | 15 => writeGovbase s d (namedTenant s) v
  | 16 => writeTenant s fun x => { x with priority := wbits v 0 2 }
  | 17 => writeTenant s fun x => { x with ctxbud := v.toNat }
  | 18 => writeTenant s fun x => { x with spanbud := v.toNat }
  | 19 => writeTenant s fun x => { x with drambud := v.toNat }
  | 20 => writeTenant s fun x => { x with linkbud := v.toNat }
  | 21 => settled (updDie s d fun x => { x with identity := aset x.identity (s.inp.unit % 1026) (fieldAt s.inp.bytes 0 32) })
  | _ => .next (respond s 9 1 [])
/-- What a register reads as: those that can be written, by the same numbers (21: the public key of party `unit`), then the sensors
(22 the die's `hotspot`, 23 the module's, 24 tile `unit`), and of the named tenant `tenergy`, `savepool`, `dumpcfg` and what it has
used. -/
def readRegister (s : State) (k : Nat) : Option (List Byte) :=
  let d := dieOf s.cur
  let x := dieAt s d
  let p := s.inp.unit % 7
  let t := tenantAt s d (namedTenant s)
  let word : Word → Option (List Byte) := fun v => some (leBytes 8 v.toNat)
  let num : Nat → Option (List Byte) := fun n => some (leBytes 8 n)
  match k with
  | 0 => word x.pwrcap
  | 1 => word x.slewcfg
  | 2 => word x.thermcfg
  | 3 => if hasPort d p then word (portAt s d p).vdport else none
  | 4 => word x.timelock
  | 5 => num (datumOf s d)
  | 6 => word x.surv.cfg
  | 7 => word x.err.cfg
  | 8 => word x.pf.cfg
  | 9 => word x.bartmo
  | 10 => word x.bkthr
  | 11 => if hasPort d p then word (portAt s d p).lkthr else none
  | 12 => word t.ptroot
  | 13 => word t.tvec
  | 14 => word t.atlasbase
  | 15 => word t.govbase
  | 16 => num t.priority
  | 17 => num t.ctxbud
  | 18 => num t.spanbud
  | 19 => num t.drambud
  | 20 => num t.linkbud
  | 21 => some (leBytes 32 (identityAt s d (s.inp.unit % 1026)))
  | 22 => word x.hotspot
  | 23 => word (dieAt s (d / 16 * 16)).hotModule
  | 24 => num (ofSigned 64 (tileAt s (d * 128 + s.inp.unit % 128)).temp)
  | 25 => num t.tenergy
  | 26 => word t.savepool
  | 27 => word t.dumpcfg
  | 28 => num t.ctxused
  | 29 => num t.spanused
  | 30 => num t.dramused
  | 31 => num t.linkused
  | _ => none
/-- The stage from which the management core serves a register: those of the power controller, the identity list and the sensors from
stage 0, those of the links and the clock from stage 1, the others from stage 2 (Table 11.11). -/
def registerStage (k : Nat) : Nat := if k ≤ 2 || (21 ≤ k && k ≤ 24) then 0 else if k ≤ 5 then 1 else 2
/-- `REGISTER_WRITE` (R13): register `sel` of the focused die takes `value`, or with `flag2` is read. -/
def execRegisterWrite (s : State) : Res :=
  if !coreUp s then wait s
  else
    let x := myDie s
    let from' := registerStage s.inp.sel
    if runSlot x = 15 || x.safeOnly && from' ≠ 0 || x.halted.isSome && from' ≠ 0 || x.stage < from' then .next (respond s 9 1 [])
    else if s.inp.flag2 then
      match readRegister s s.inp.sel with
      | some b => .next (respond s 9 0 b)
      | none => .next (respond s 9 1 [])
    else writeRegister s s.inp.sel s.inp.value

end Sys2Proof.Machine
end

