-- ==== Sys2Proof/Machine/Dispatch.lean ====
section
/-! DEFINITION. One arm per constructor of Instr: the meaning of each instruction and event. -/
namespace Sys2Proof.Machine

def exec (i : Instr) (s : State) : Host.Outcome State Fault Refusal :=
  match i with
  | .add d a b => Sys2Proof.Machine.execAdd d a b s
  | .sub d a b => Sys2Proof.Machine.execSub d a b s
  | .and d a b => Sys2Proof.Machine.execAnd d a b s
  | .or d a b => Sys2Proof.Machine.execOr d a b s
  | .xor d a b => Sys2Proof.Machine.execXor d a b s
  | .shl d a b => Sys2Proof.Machine.execShl d a b s
  | .shr d a b => Sys2Proof.Machine.execShr d a b s
  | .sra d a b => Sys2Proof.Machine.execSra d a b s
  | .min d a b => Sys2Proof.Machine.execMin d a b s
  | .max d a b => Sys2Proof.Machine.execMax d a b s
  | .minn d a b => Sys2Proof.Machine.execMinn d a b s
  | .maxn d a b => Sys2Proof.Machine.execMaxn d a b s
  | .slt d a b => Sys2Proof.Machine.execSlt d a b s
  | .sltn d a b => Sys2Proof.Machine.execSltn d a b s
  | .seq d a b => Sys2Proof.Machine.execSeq d a b s
  | .mul d a b => Sys2Proof.Machine.execMul d a b s
  | .mulh d a b => Sys2Proof.Machine.execMulh d a b s
  | .mulhn d a b => Sys2Proof.Machine.execMulhn d a b s
  | .div d a b => Sys2Proof.Machine.execDiv d a b s
  | .divn d a b => Sys2Proof.Machine.execDivn d a b s
  | .rem d a b => Sys2Proof.Machine.execRem d a b s
  | .remn d a b => Sys2Proof.Machine.execRemn d a b s
  | .clz d a => Sys2Proof.Machine.execClz d a s
  | .popc d a => Sys2Proof.Machine.execPopc d a s
  | .mov d a => Sys2Proof.Machine.execMov d a s
  | .sel d c a b => Sys2Proof.Machine.execSel d c a b s
  | .addi d a imm => Sys2Proof.Machine.execAddi d a imm s
  | .addiLong d a imm => Sys2Proof.Machine.execAddiLong d a imm s
  | .andi d a imm => Sys2Proof.Machine.execAndi d a imm s
  | .andiLong d a imm => Sys2Proof.Machine.execAndiLong d a imm s
  | .ori d a imm => Sys2Proof.Machine.execOri d a imm s
  | .oriLong d a imm => Sys2Proof.Machine.execOriLong d a imm s
  | .xori d a imm => Sys2Proof.Machine.execXori d a imm s
  | .xoriLong d a imm => Sys2Proof.Machine.execXoriLong d a imm s
  | .shli d a n => Sys2Proof.Machine.execShli d a n s
  | .shri d a n => Sys2Proof.Machine.execShri d a n s
  | .srai d a n => Sys2Proof.Machine.execSrai d a n s
  | .slti d a imm => Sys2Proof.Machine.execSlti d a imm s
  | .sltiLong d a imm => Sys2Proof.Machine.execSltiLong d a imm s
  | .movi d imm => Sys2Proof.Machine.execMovi d imm s
  | .moviLong d imm => Sys2Proof.Machine.execMoviLong d imm s
  | .ld d a off ty acq => Sys2Proof.Machine.execLd d a off ty acq s
  | .st d a off ty rel => Sys2Proof.Machine.execSt d a off ty rel s
  | .amoAdd d a b o => Sys2Proof.Machine.execAmoAdd d a b o s
  | .amoAnd d a b o => Sys2Proof.Machine.execAmoAnd d a b o s
  | .amoOr d a b o => Sys2Proof.Machine.execAmoOr d a b o s
  | .amoXor d a b o => Sys2Proof.Machine.execAmoXor d a b o s
  | .amoMin d a b o => Sys2Proof.Machine.execAmoMin d a b o s
  | .amoMax d a b o => Sys2Proof.Machine.execAmoMax d a b o s
  | .amoMinn d a b o => Sys2Proof.Machine.execAmoMinn d a b o s
  | .amoMaxn d a b o => Sys2Proof.Machine.execAmoMaxn d a b o s
  | .amoSwap d a b o => Sys2Proof.Machine.execAmoSwap d a b o s
  | .cas d a b c o => Sys2Proof.Machine.execCas d a b c o s
  | .bc cond a off => Sys2Proof.Machine.execBc cond a off s
  | .jmp off => Sys2Proof.Machine.execJmp off s
  | .call a off => Sys2Proof.Machine.execCall a off s
  | .loop a off => Sys2Proof.Machine.execLoop a off s
  | .jmpr a => Sys2Proof.Machine.execJmpr a s
  | .callr d a => Sys2Proof.Machine.execCallr d a s
  | .ret a => Sys2Proof.Machine.execRet a s
  | .sysc n => Sys2Proof.Machine.execSysc n s
  | .brk n => Sys2Proof.Machine.execBrk n s
  | .enter n => Sys2Proof.Machine.execEnter n s
  | .leave n => Sys2Proof.Machine.execLeave n s
  | .spush a => Sys2Proof.Machine.execSpush a s
  | .spop d => Sys2Proof.Machine.execSpop d s
  | .task d a => Sys2Proof.Machine.execTask d a s
  | .gjoin a chart => Sys2Proof.Machine.execGjoin a chart s
  | .gleave a => Sys2Proof.Machine.execGleave a s
  | .gbar a => Sys2Proof.Machine.execGbar a s
  | .spawn d a b => Sys2Proof.Machine.execSpawn d a b s
  | .tokp e f ch => Sys2Proof.Machine.execTokp e f ch s
  | .tokw e f ch => Sys2Proof.Machine.execTokw e f ch s
  | .tokenPost e f ch => Sys2Proof.Machine.execTokenPost e f ch s
  | .tokenTake e f ch => Sys2Proof.Machine.execTokenTake e f ch s
  | .ccadd n amount => Sys2Proof.Machine.execCcadd n amount s
  | .ccwait n k => Sys2Proof.Machine.execCcwait n k s
  | .fence scope => Sys2Proof.Machine.execFence scope s
  | .gear n => Sys2Proof.Machine.execGear n s
  | .waitt a => Sys2Proof.Machine.execWaitt a s
  | .time d chart => Sys2Proof.Machine.execTime d chart s
  | .govstep d a b => Sys2Proof.Machine.execGovstep d a b s
  | .govrd d a => Sys2Proof.Machine.execGovrd d a s
  | .puta n a => Sys2Proof.Machine.execPuta n a s
  | .geta d n => Sys2Proof.Machine.execGeta d n s
  | .csrr d num => Sys2Proof.Machine.execCsrr d num s
  | .csrw d a num => Sys2Proof.Machine.execCsrw d a num s
  | .csrs d a num => Sys2Proof.Machine.execCsrs d a num s
  | .aadd d a b => Sys2Proof.Machine.execAadd d a b s
  | .amovg d a => Sys2Proof.Machine.execAmovg d a s
  | .aaddi d a imm => Sys2Proof.Machine.execAaddi d a imm s
  | .ashli d a n => Sys2Proof.Machine.execAshli d a n s
  | .ldq q a pi => Sys2Proof.Machine.execLdq q a pi s
  | .ldqs q a b lg pi => Sys2Proof.Machine.execLdqs q a b lg pi s
  | .ldqg q a b lg pi => Sys2Proof.Machine.execLdqg q a b lg pi s
  | .strm q a k => Sys2Proof.Machine.execStrm q a k s
  | .strmc q a k => Sys2Proof.Machine.execStrmc q a k s
  | .strmxWait k => Sys2Proof.Machine.execStrmxWait k s
  | .strmxStop k => Sys2Proof.Machine.execStrmxStop k s
  | .strmxRem d k => Sys2Proof.Machine.execStrmxRem d k s
  | .repL r => Sys2Proof.Machine.execRepL r s
  | .sadd d a b => Sys2Proof.Machine.execSadd d a b s
  | .stq a q g pi => Sys2Proof.Machine.execStq a q g pi s
  | .stqLong a q g pi cc stat first layer => Sys2Proof.Machine.execStqLong a q g pi cc stat first layer s
  | .stqs a b q g pi lg cc => Sys2Proof.Machine.execStqs a b q g pi lg cc s
  | .stqx a x q g lg cc => Sys2Proof.Machine.execStqx a x q g lg cc s
  | .strw a q g pi op ty cc => Sys2Proof.Machine.execStrw a q g pi op ty cc s
  | .upd a b q g fn pi rnd layer cc => Sys2Proof.Machine.execUpd a b q g fn pi rnd layer cc s
  | .wstep w => Sys2Proof.Machine.execWstep w s
  | .repS r => Sys2Proof.Machine.execRepS r s
  | .vadd d a b g => Sys2Proof.Machine.execVadd d a b g s
  | .vsub d a b g => Sys2Proof.Machine.execVsub d a b g s
  | .vmul d a b g => Sys2Proof.Machine.execVmul d a b g s
  | .vfma d a b g => Sys2Proof.Machine.execVfma d a b g s
  | .vfms d a b g => Sys2Proof.Machine.execVfms d a b g s
  | .vnma d a b g => Sys2Proof.Machine.execVnma d a b g s
  | .vmin d a b g => Sys2Proof.Machine.execVmin d a b g s
  | .vmax d a b g => Sys2Proof.Machine.execVmax d a b g s
  | .vabs d a g => Sys2Proof.Machine.execVabs d a g s
  | .vneg d a g => Sys2Proof.Machine.execVneg d a g s
  | .vcmp cond p a b g => Sys2Proof.Machine.execVcmp cond p a b g s
  | .vsel d a b k => Sys2Proof.Machine.execVsel d a b k s
  | .viadd ty d a b g => Sys2Proof.Machine.execViadd ty d a b g s
  | .visub ty d a b g => Sys2Proof.Machine.execVisub ty d a b g s
  | .vimul ty d a b g => Sys2Proof.Machine.execVimul ty d a b g s
  | .vimad ty d a b g => Sys2Proof.Machine.execVimad ty d a b g s
  | .vand ty d a b g => Sys2Proof.Machine.execVand ty d a b g s
  | .vor ty d a b g => Sys2Proof.Machine.execVor ty d a b g s
  | .vxor ty d a b g => Sys2Proof.Machine.execVxor ty d a b g s
  | .vnot ty d a g => Sys2Proof.Machine.execVnot ty d a g s
  | .vshl ty d a b g => Sys2Proof.Machine.execVshl ty d a b g s
  | .vshr ty d a b g => Sys2Proof.Machine.execVshr ty d a b g s
  | .vsra ty d a b g => Sys2Proof.Machine.execVsra ty d a b g s
  | .vimin ty d a b g => Sys2Proof.Machine.execVimin ty d a b g s
  | .vimax ty d a b g => Sys2Proof.Machine.execVimax ty d a b g s
  | .vicmp ty cond p a b g => Sys2Proof.Machine.execVicmp ty cond p a b g s
  | .vsadd ty d a b g => Sys2Proof.Machine.execVsadd ty d a b g s
  | .vssub ty d a b g => Sys2Proof.Machine.execVssub ty d a b g s
  | .vacs d a b p => Sys2Proof.Machine.execVacs d a b p s
  | .vcvt dst src mode d a g => Sys2Proof.Machine.execVcvt dst src mode d a g s
  | .vqnt fmt bs mode role layer d a => Sys2Proof.Machine.execVqnt fmt bs mode role layer d a s
  | .vdqnt d a => Sys2Proof.Machine.execVdqnt d a s
  | .vdiv d a b g => Sys2Proof.Machine.execVdiv d a b g s
  | .vsqrt d a g => Sys2Proof.Machine.execVsqrt d a g s
  | .vrsq d a g => Sys2Proof.Machine.execVrsq d a g s
  | .vrcp d a g => Sys2Proof.Machine.execVrcp d a g s
  | .vexp2 d a g => Sys2Proof.Machine.execVexp2 d a g s
  | .vlog2 d a g => Sys2Proof.Machine.execVlog2 d a g s
  | .vrotr d a k g => Sys2Proof.Machine.execVrotr d a k g s
  | .vrotc d a k g => Sys2Proof.Machine.execVrotc d a k g s
  | .vbcr d a k g => Sys2Proof.Machine.execVbcr d a k g s
  | .vbcc d a k g => Sys2Proof.Machine.execVbcc d a k g s
  | .vredr op ty d a g => Sys2Proof.Machine.execVredr op ty d a g s
  | .vredc op ty d a g => Sys2Proof.Machine.execVredc op ty d a g s
  | .vscnr op ty d a g => Sys2Proof.Machine.execVscnr op ty d a g s
  | .vmov d a g => Sys2Proof.Machine.execVmov d a g s
  | .vxfer d a g => Sys2Proof.Machine.execVxfer d a g s
  | .vmovi d imm => Sys2Proof.Machine.execVmovi d imm s
  | .viota d g => Sys2Proof.Machine.execViota d g s
  | .psetNone p => Sys2Proof.Machine.execPsetNone p s
  | .psetAll p => Sys2Proof.Machine.execPsetAll p s
  | .psetRow p k => Sys2Proof.Machine.execPsetRow p k s
  | .psetCol p k => Sys2Proof.Machine.execPsetCol p k s
  | .pand p a b n => Sys2Proof.Machine.execPand p a b n s
  | .por p a b n => Sys2Proof.Machine.execPor p a b n s
  | .pxor p a b n => Sys2Proof.Machine.execPxor p a b n s
  | .pnot p a => Sys2Proof.Machine.execPnot p a s
  | .pcntRow d p => Sys2Proof.Machine.execPcntRow d p s
  | .pcntAll d p => Sys2Proof.Machine.execPcntAll d p s
  | .pfstRow d p => Sys2Proof.Machine.execPfstRow d p s
  | .pfstAll d p => Sys2Proof.Machine.execPfstAll d p s
  | .vpart d p a g => Sys2Proof.Machine.execVpart d p a g s
  | .vgath d a b g => Sys2Proof.Machine.execVgath d a b g s
  | .vscat d a b g => Sys2Proof.Machine.execVscat d a b g s
  | .vpack d a w => Sys2Proof.Machine.execVpack d a w s
  | .vunpk d a w sx => Sys2Proof.Machine.execVunpk d a w sx s
  | .repV r => Sys2Proof.Machine.execRepV r s
  | .mma n ta tb qa qb kq req pat cc => Sys2Proof.Machine.execMma n ta tb qa qb kq req pat cc s
  | .mmav n ta tb a b q kq req cc => Sys2Proof.Machine.execMmav n ta tb a b q kq req cc s
  | .mzero n k => Sys2Proof.Machine.execMzero n k s
  | .mrd d n q => Sys2Proof.Machine.execMrd d n q s
  | .mrdQueue q n t => Sys2Proof.Machine.execMrdQueue q n t s
  | .mwr n k q => Sys2Proof.Machine.execMwr n k q s
  | .mperm accd accs q rows => Sys2Proof.Machine.execMperm accd accs q rows s
  | .mspan cap => Sys2Proof.Machine.execMspan cap s
  | .mqstat setting n k layer role => Sys2Proof.Machine.execMqstat setting n k layer role s
  | .cpy dstVm srcVm a b x => Sys2Proof.Machine.execCpy dstVm srcVm a b x s
  | .cpylLd vm a x => Sys2Proof.Machine.execCpylLd vm a x s
  | .cpylSt vm a x => Sys2Proof.Machine.execCpylSt vm a x s
  | .cpyn srcVm a b x => Sys2Proof.Machine.execCpyn srcVm a b x s
  | .cpyr a b x => Sys2Proof.Machine.execCpyr a b x s
  | .cpyrIp b x => Sys2Proof.Machine.execCpyrIp b x s
  | .pref a b => Sys2Proof.Machine.execPref a b s
  | .flushh a b cc => Sys2Proof.Machine.execFlushh a b cc s
  | .send a b t h urgent cc => Sys2Proof.Machine.execSend a b t h urgent cc s
  | .ringi a b => Sys2Proof.Machine.execRingi a b s
  | .ringw a count => Sys2Proof.Machine.execRingw a count s
  | .ringr a b => Sys2Proof.Machine.execRingr a b s
  | .bbset a b => Sys2Proof.Machine.execBbset a b s
  | .bbwait a => Sys2Proof.Machine.execBbwait a s
  | .tlbpre a b cc => Sys2Proof.Machine.execTlbpre a b cc s
  | .tlblk a b => Sys2Proof.Machine.execTlblk a b s
  | .tlbinv scope a b => Sys2Proof.Machine.execTlbinv scope a b s
  | .codeLineFetch => Sys2Proof.Machine.execCodeLineFetch s
  | .eret => Sys2Proof.Machine.execEret s
  | .idle => Sys2Proof.Machine.execIdle s
  | .trig => Sys2Proof.Machine.execTrig s
  | .done => Sys2Proof.Machine.execDone s
  | .rdv => Sys2Proof.Machine.execRdv s
  | .streamRowPush => Sys2Proof.Machine.execStreamRowPush s
  | .markL => Sys2Proof.Machine.execMarkL s
  | .markS => Sys2Proof.Machine.execMarkS s
  | .markPairRelease => Sys2Proof.Machine.execMarkPairRelease s
  | .exposedResultLand => Sys2Proof.Machine.execExposedResultLand s
  | .mmaPerform => Sys2Proof.Machine.execMmaPerform s
  | .spanArbitration => Sys2Proof.Machine.execSpanArbitration s
  | .governorStatAdd => Sys2Proof.Machine.execGovernorStatAdd s
  | .copyGranuleWrite => Sys2Proof.Machine.execCopyGranuleWrite s
  | .copyPerform => Sys2Proof.Machine.execCopyPerform s
  | .tlbul => Sys2Proof.Machine.execTlbul s
  | .qsce => Sys2Proof.Machine.execQsce s
  | .postedWriteLanding => Sys2Proof.Machine.execPostedWriteLanding s
  | .writeAcknowledgement => Sys2Proof.Machine.execWriteAcknowledgement s
  | .networkWriteArrival => Sys2Proof.Machine.execNetworkWriteArrival s
  | .windowReadRequest => Sys2Proof.Machine.execWindowReadRequest s
  | .windowReadResponse => Sys2Proof.Machine.execWindowReadResponse s
  | .sendArrival => Sys2Proof.Machine.execSendArrival s
  | .arrivalDelivery => Sys2Proof.Machine.execArrivalDelivery s
  | .arrivalTimeout => Sys2Proof.Machine.execArrivalTimeout s
  | .sendRefusal => Sys2Proof.Machine.execSendRefusal s
  | .groupJoinRequest => Sys2Proof.Machine.execGroupJoinRequest s
  | .groupLeaveRequest => Sys2Proof.Machine.execGroupLeaveRequest s
  | .groupAnswer => Sys2Proof.Machine.execGroupAnswer s
  | .barrierArrival => Sys2Proof.Machine.execBarrierArrival s
  | .barrierRelease => Sys2Proof.Machine.execBarrierRelease s
  | .barrierTimeout => Sys2Proof.Machine.execBarrierTimeout s
  | .groupLostAnswer => Sys2Proof.Machine.execGroupLostAnswer s
  | .trapEntry => Sys2Proof.Machine.execTrapEntry s
  | .asyncTrapEntry => Sys2Proof.Machine.execAsyncTrapEntry s
  | .handlerTimeout => Sys2Proof.Machine.execHandlerTimeout s
  | .deadlockDetect => Sys2Proof.Machine.execDeadlockDetect s
  | .drainTimeout => Sys2Proof.Machine.execDrainTimeout s
  | .taskStop => Sys2Proof.Machine.execTaskStop s
  | .dieHalt => Sys2Proof.Machine.execDieHalt s
  | .dumpWrite => Sys2Proof.Machine.execDumpWrite s
  | .pageFaultResume => Sys2Proof.Machine.execPageFaultResume s
  | .pageFaultStop => Sys2Proof.Machine.execPageFaultStop s
  | .placeInst => Sys2Proof.Machine.execPlaceInst s
  | .preemption => Sys2Proof.Machine.execPreemption s
  | .saveAreaWrite => Sys2Proof.Machine.execSaveAreaWrite s
  | .contextRestore => Sys2Proof.Machine.execContextRestore s
  | .budgetPeriodStart => Sys2Proof.Machine.execBudgetPeriodStart s
  | .budgetExhausted => Sys2Proof.Machine.execBudgetExhausted s
  | .tenantStarvation => Sys2Proof.Machine.execTenantStarvation s
  | .powerEvaluation => Sys2Proof.Machine.execPowerEvaluation s
  | .gearChangeComplete => Sys2Proof.Machine.execGearChangeComplete s
  | .gearChangeTimeout => Sys2Proof.Machine.execGearChangeTimeout s
  | .biasSetComplete => Sys2Proof.Machine.execBiasSetComplete s
  | .biasSetTimeout => Sys2Proof.Machine.execBiasSetTimeout s
  | .biasClearTimeout => Sys2Proof.Machine.execBiasClearTimeout s
  | .biasClearComplete => Sys2Proof.Machine.execBiasClearComplete s
  | .chartGearTimeout => Sys2Proof.Machine.execChartGearTimeout s
  | .sensorRead => Sys2Proof.Machine.execSensorRead s
  | .surveyTick => Sys2Proof.Machine.execSurveyTick s
  | .railDroop => Sys2Proof.Machine.execRailDroop s
  | .railFault => Sys2Proof.Machine.execRailFault s
  | .inputLow => Sys2Proof.Machine.execInputLow s
  | .inputRecover => Sys2Proof.Machine.execInputRecover s
  | .inputCritical => Sys2Proof.Machine.execInputCritical s
  | .flitSend => Sys2Proof.Machine.execFlitSend s
  | .tagGroupPad => Sys2Proof.Machine.execTagGroupPad s
  | .flitReceive => Sys2Proof.Machine.execFlitReceive s
  | .taintNotice => Sys2Proof.Machine.execTaintNotice s
  | .retryRequest => Sys2Proof.Machine.execRetryRequest s
  | .retryRequestRepeat => Sys2Proof.Machine.execRetryRequestRepeat s
  | .retrainAttemptComplete => Sys2Proof.Machine.execRetrainAttemptComplete s
  | .retrainAttemptTimeout => Sys2Proof.Machine.execRetrainAttemptTimeout s
  | .abortFlit => Sys2Proof.Machine.execAbortFlit s
  | .lossNotice => Sys2Proof.Machine.execLossNotice s
  | .failureNotice => Sys2Proof.Machine.execFailureNotice s
  | .keyShareFirst => Sys2Proof.Machine.execKeyShareFirst s
  | .keyShareSecond => Sys2Proof.Machine.execKeyShareSecond s
  | .keySignature => Sys2Proof.Machine.execKeySignature s
  | .keysReady => Sys2Proof.Machine.execKeysReady s
  | .keyRenewalStart => Sys2Proof.Machine.execKeyRenewalStart s
  | .uetRetransmitTimeout => Sys2Proof.Machine.execUetRetransmitTimeout s
  | .uetGiveUp => Sys2Proof.Machine.execUetGiveUp s
  | .timeMessage => Sys2Proof.Machine.execTimeMessage s
  | .lockLossUpstream => Sys2Proof.Machine.execLockLossUpstream s
  | .eyeMarginMeasure => Sys2Proof.Machine.execEyeMarginMeasure s
  | .hostReadShared => Sys2Proof.Machine.execHostReadShared s
  | .hostReadOwn => Sys2Proof.Machine.execHostReadOwn s
  | .hostWriteBack => Sys2Proof.Machine.execHostWriteBack s
  | .hostDrop => Sys2Proof.Machine.execHostDrop s
  | .hostRecallAck => Sys2Proof.Machine.execHostRecallAck s
  | .hostRecallTimeout => Sys2Proof.Machine.execHostRecallTimeout s
  | .hostEnqueue => Sys2Proof.Machine.execHostEnqueue s
  | .hostRead => Sys2Proof.Machine.execHostRead s
  | .hostWrite => Sys2Proof.Machine.execHostWrite s
  | .hostFlush => Sys2Proof.Machine.execHostFlush s
  | .hostInvalidate => Sys2Proof.Machine.execHostInvalidate s
  | .installLegend => Sys2Proof.Machine.execInstallLegend s
  | .revokePage => Sys2Proof.Machine.execRevokePage s
  | .hostTaskStop => Sys2Proof.Machine.execHostTaskStop s
  | .hostHalt => Sys2Proof.Machine.execHostHalt s
  | .dieReset => Sys2Proof.Machine.execDieReset s
  | .debugArm => Sys2Proof.Machine.execDebugArm s
  | .debugStopCommand => Sys2Proof.Machine.execDebugStopCommand s
  | .debugResume => Sys2Proof.Machine.execDebugResume s
  | .singleStep => Sys2Proof.Machine.execSingleStep s
  | .stepDone => Sys2Proof.Machine.execStepDone s
  | .stepCancel => Sys2Proof.Machine.execStepCancel s
  | .rewriteReq => Sys2Proof.Machine.execRewriteReq s
  | .attest => Sys2Proof.Machine.execAttest s
  | .testTile => Sys2Proof.Machine.execTestTile s
  | .selfTestRun => Sys2Proof.Machine.execSelfTestRun s
  | .readState => Sys2Proof.Machine.execReadState s
  | .clearCounts => Sys2Proof.Machine.execClearCounts s
  | .retireUnit => Sys2Proof.Machine.execRetireUnit s
  | .spareDramRow => Sys2Proof.Machine.execSpareDramRow s
  | .clearRepairMap => Sys2Proof.Machine.execClearRepairMap s
  | .setThresholds => Sys2Proof.Machine.execSetThresholds s
  | .scrubPass => Sys2Proof.Machine.execScrubPass s
  | .startStage0 => Sys2Proof.Machine.execStartStage0 s
  | .startStage1 => Sys2Proof.Machine.execStartStage1 s
  | .startStage2 => Sys2Proof.Machine.execStartStage2 s
  | .dieStartTimeout => Sys2Proof.Machine.execDieStartTimeout s
  | .timeLockStartTimeout => Sys2Proof.Machine.execTimeLockStartTimeout s
  | .romImageWrite => Sys2Proof.Machine.execRomImageWrite s
  | .govbaseValidSet => Sys2Proof.Machine.execGovbaseValidSet s
  | .vdportModeWrite => Sys2Proof.Machine.execVdportModeWrite s
  | .errcfgEnable => Sys2Proof.Machine.execErrcfgEnable s
  | .errptrRdWrite => Sys2Proof.Machine.execErrptrRdWrite s
  | .errptrRead => Sys2Proof.Machine.execErrptrRead s
  | .landcntRead => Sys2Proof.Machine.execLandcntRead s
  | .savepoolWrite => Sys2Proof.Machine.execSavepoolWrite s
  | .dumpcfgWrite => Sys2Proof.Machine.execDumpcfgWrite s
  | .registerWrite => Sys2Proof.Machine.execRegisterWrite s
  | .waittTargetReached => Sys2Proof.Machine.execWaittTargetReached s
  | .droopDutyExpiry => Sys2Proof.Machine.execDroopDutyExpiry s
  | .dramRowSpareComplete => Sys2Proof.Machine.execDramRowSpareComplete s
  | .flushhPerformed => Sys2Proof.Machine.execFlushhPerformed s
  | .tlbprePerformed => Sys2Proof.Machine.execTlbprePerformed s
  | .tlbinvPerformed => Sys2Proof.Machine.execTlbinvPerformed s
  | .lossOfSignal => Sys2Proof.Machine.execLossOfSignal s
  | .hostLightReturn => Sys2Proof.Machine.execHostLightReturn s
  | .portRetrainCommand => Sys2Proof.Machine.execPortRetrainCommand s
  | .portDisableCommand => Sys2Proof.Machine.execPortDisableCommand s
  | .powerDown => Sys2Proof.Machine.execPowerDown s

end Sys2Proof.Machine
end

