-- ==== Sys2Proof/Machine/Prefetch.lean ====
section
/-! DEFINITION. A stream TLB walks ahead (03, R93, R116): the next page of a live binding of L or of a copy of X. -/
namespace Sys2Proof.Machine

/-- The first of `n` addresses of a command, from the `i`-th on, that lies beyond the page in use. -/
def firstBeyond (t : Tlb) (addr : Nat → Nat) : Nat → Nat → Option Nat
  | 0, _ => none
  | n + 1, i => if t.covers (addr i) then firstBeyond t addr n (i + 1) else some (addr i)
/-- The virtual address of a copy's next granule: of its source, else of its destination. -/
def Copy.virtAddr (x : Copy) : Nat :=
  let g := nextGranule x
  if x.srcVm then (g.src.headD (0, 0)).1.toNat else g.dst.toNat
/-- The first granule's address of a copy, in its order, that lies beyond the page in use. -/
def copyBeyond (t : Tlb) : Nat → Copy → Option Nat
  | 0, _ => none
  | fuel + 1, x =>
    if x.rest = 0 then none
    else if t.covers x.virtAddr then copyBeyond t fuel (advance x (nextGranule x).n) else some x.virtAddr
/-- The address a command of L or X is at, and the first beyond the page `t`. -/
def commandAt (s : State) (e : Engine) (k : Nat) : Option (Nat × (Tlb → Option Nat)) :=
  match e with
  | .l =>
    match alook s.cx.strm k with
    | none => none
    | some x =>
      let d := streamDesc x.desc
      let i := 256 / d.e * x.pushed
      if x.contour || !d.virt then none
      else some ((d.addr false i).toNat, fun t => firstBeyond t (fun j => (d.addr false j).toNat) (d.total - i) i)
  | .x =>
    match alook s.cx.copies k with
    | none => none
    | some x =>
      if x.rest = 0 then none
      else if x.kind = 4 then
        let l := legendOf (x.snap.getD [])
        let r := selRow x.src
        some (l.rowVa r, fun t => firstBeyond t l.rowVa x.rest r)
      else if x.srcVm || x.dstVm then some (x.virtAddr, fun t => copyBeyond t x.rest x)
      else none
  | _ => none
/-- The page that a command of the focused context comes to next is walked and held; a walk that fails, and a locked miss, are
dropped without effect. -/
def prefetch (s : State) (e : Engine) (k : Nat) : State :=
  if s.cx.phase ≠ .running || !tileRuns s then s
  else
    match commandAt s e k with
    | none => s
    | some (va, next) =>
      match ((myTile s).tlb e).find? fun t => t.tenant = s.cx.tenant && t.covers va with
      | none => s
      | some t =>
        match next t with
        | none => s
        | some v =>
          match translate s s.cur e v false false with
          | .ok _ s1 => s1
          | _ => s

end Sys2Proof.Machine
end

