-- ==== Sys2Proof/Machine/Turn.lean ====
section
/-! DEFINITION. Turns: which part of the machine moves next, the choices the hardware is free to make, and how a
decoded word is placed to be issued next. -/
namespace Sys2Proof.Machine

/-- The acts the default turn takes in rotation for a place, with the candidate each concerns. -/
def defaultActs : List (Act × Nat) :=
  [(.event .codeLineFetch, 0), (.issue .c, 0), (.issue .l, 0), (.issue .s, 0), (.issue .v, 0), (.issue .m, 0),
   (.issue .x, 0), (.event .spanArbitration, 0), (.event .mmaPerform, 0), (.event .exposedResultLand, 0),
   (.event .governorStatAdd, 0), (.event .markPairRelease, 0)]
  ++ ((List.range 8).map fun k => (.event .streamRowPush, k))
  ++ ((List.range 16).map fun k => (.event .copyGranuleWrite, k))
  ++ ((List.range 16).map fun k => (.event .copyPerform, k))
  ++ ([.flushhPerformed, .tlbprePerformed, .tlbinvPerformed, .trapEntry, .asyncTrapEntry, .saveAreaWrite, .taskStop,
       .waittTargetReached, .postedWriteLanding, .writeAcknowledgement, .networkWriteArrival, .windowReadRequest,
       .windowReadResponse, .sendArrival, .arrivalDelivery, .sendRefusal, .groupJoinRequest, .groupLeaveRequest,
       .groupAnswer, .barrierArrival, .barrierRelease, .powerEvaluation, .gearChangeComplete,
       .placeInst].map fun i => (.event i, 0))
  ++ [(.storePerform, 0)]
  ++ (([1, 2, 3, 4, 5, 6] : List Nat).flatMap fun k => [(.event .flitSend, k), (.event .flitReceive, k)])
/-- A gear or bias change that has been on its way for 100 ns: it completes within the bound that the spec gives it (R172, R345). -/
def changeDue (s : State) : Option Turn :=
  match s.tiles.find? fun e => e.2.change.any fun x => x.2 + 100 ≤ s.now with
  | some e => some { place := e.1 * 2 ^ 15, act := .event .gearChangeComplete }
  | none =>
    s.dies.findSome? fun e => (e.2.clusters.find? fun c => c.2.setting.any fun t => t + 100 ≤ s.now).map fun c =>
      { place := diePlace e.1, act := .event .biasSetComplete, inp := { sel := c.1 } }
/-- The default turn: a change that is due, or the acts in rotation, for every place that holds a context and every listed die in
turn. -/
def defaultTurn (s : State) : Turn :=
  if let some t := changeDue s then t else
  let n := defaultActs.length
  let ps := (places s ++ s.dies.map fun e => diePlace e.1).eraseDups
  let (a, k) := defaultActs.getD (s.rr % n) (.event .codeLineFetch, 0)
  { dt := 1, place := ps.getD (s.rr / n % ps.length) s.cur, act := a, inp := { sel := k } }
/-- The next turn. -/
def nextTurn (s : State) : Turn :=
  match s.schedule with
  | [] => defaultTurn s
  | t :: _ => t
/-- The cycles of a tile that end in the `dt` ns before now. -/
def cyclesIn (s : State) (t dt : Nat) : Nat := s.now * clockMHz s t / 1000 - (s.now - dt) * clockMHz s t / 1000
/-- What a tile's survey counts rise by as `dt` ns pass (R358, Table 11.7): stall cycles of the engines that had an instruction at
the head of a queue, spans held and lent, cycles, and cycles under a duty. The cycle in which an engine issues is a busy one: the
turn's own issue takes it from the stalled ones. -/
def countTile (dt : Nat) (u : Turn) (s : State) (t : Nat) : State :=
  let n := cyclesIn s t dt
  if n = 0 then s
  else
    let d := t / 128
    let o := tileCounts t
    let s1 := ([Engine.c, .l, .s, .v, .m, .x] : List Engine).foldl (fun s e =>
      if (residents s t).any fun p => (headOf (ctxAt s p) e).isSome then
        surveyCount s d (o + 8 * (Engine.code e - 1) + 4) (n - if u.act = .issue e && tileOf u.place = t then 1 else 0)
      else s) s
    let s2 := surveyCount (surveyCount s1 d (o + 48) (n * spansHeld s t)) d (o + 52) (n * (tileAt s t).lent)
    let s3 := surveyCount s2 d (o + 56) n
    if dutyOf s t < 8 then surveyCount s3 d (o + 60) (n - n * dutyOf s t / 8) else s3
/-- The survey counts what passes with a turn's time, on the dies where it runs. -/
def elapse (s : State) (u : Turn) : State :=
  if u.dt = 0 then s
  else (s.dies.filter fun e => bitOf e.2.surv.cfg.toNat 0).foldl (fun s e => (tilesOf e.1).foldl (countTile u.dt u) s) s
/-- An engine has issued an instruction of the focused context: a busy cycle. -/
def noteBusy (e : Engine) (s : State) (r : Res) : Res :=
  match r with
  | .next t =>
    if t.cx.occupied = s.cx.occupied then r
    else .next (surveyCount t (dieOf s.cur) (tileCounts (tileOf s.cur) + 8 * (Engine.code e - 1)) 1)
  | r => r
/-- The state in which a turn acts: its time has passed and its place is focused. -/
def beginTurn (s : State) (t : Turn) : State :=
  focus (elapse { s with now := s.now + t.dt, schedule := s.schedule.tail,
                         rr := if s.schedule = [] then s.rr + 1 else s.rr, inp := t.inp } t) t.place

/-- An L1 line of the focused tile is dropped: a cache may do so at any time (R98). -/
def evictL1 (s : State) (line : Nat) : State :=
  updTile s (tileOf s.cur) fun t => { t with
    l1 := adel t.l1 line, ic := adel t.ic line, l1Bad := t.l1Bad.filter (· ≠ line), icBad := t.icBad.filter (· ≠ line) }
/-- An L2 line is written back if dirty, and dropped (R145); a dirty line with an uncorrected error stays (R409). -/
def evictL2 (s : State) (line : Nat) : State :=
  match alook s.l2 line with
  | none => s
  | some l => if l.dirty && eccL2 s line = 2 then s else writeBack s line false
/-- A TLB of the focused tile drops the entries of a page. -/
def evictTlb (s : State) (e : Engine) (vbase : Nat) : State :=
  updTile s (tileOf s.cur) fun t => t.setTlb e ((t.tlb e).filter fun x => x.vbase ≠ vbase)
/-- A granule of device memory, or its L2 line, is spoiled (R408). -/
def upset (s : State) (granule : Nat) (l2 uncorrected : Bool) : State :=
  let v := if uncorrected then 2 else 1
  if l2 then (if (alook s.l2 granule).isSome then setEcc s granule (eccMem s granule) v else s)
  else setEcc s granule v (eccL2 s granule)
/-- A word of the focused context's scratchpad allotment is spoiled (R408). -/
def upsetSpad (s : State) (word : Nat) (uncorrected : Bool) : State :=
  { s with cx := { s.cx with bad := (2 * word + if uncorrected then 1 else 0) :: s.cx.bad } }

/-- The instruction of lane 1 of a code line stands at the head of its engine's queue of the focused context,
which is running at gear 2, its operands supplied; the next turn issues it. Nothing else changes. -/
def placeWordNext (s : State) (w : Nat) : State :=
  match engineOfRoute (routeOf w 1) with
  | none => s
  | some e =>
    let x : Entry := { word := laneOf w 1, ext := if routeOf w 2 = 7 then some (laneOf w 2) else none,
                       seq := s.cx.seqNext, line := s.cx.fetch, rsN := (s.cx.cr 0x00D).toNat }
    let k := match decodeEntry e x with
      | some i => Instr.counter i
      | none => none
    let c0 := match k with
      | some n => s.cx.setCounter n (s.cx.counter n + 1)
      | none => s.cx
    let c := { c0 with phase := .running, seqNext := s.cx.seqNext + 1 }
    let x1 : Entry := if needsSupply e x then { x with vals := some (c.operands e x) } else x
    let s1 : State := { s with
      cx := c.setQueue e (x1 :: c.queue e)
      schedule := { place := s.cur, act := .issue e } :: s.schedule }
    updTile s1 (tileOf s.cur) fun t => { t with
      gear := max 2 t.gear, grant := max 2 t.grant, issPtr := zset 0 t.issPtr (Engine.code e) (slotOf s.cur) }

end Sys2Proof.Machine
end

