-- ==== Sys2Proof/Machine/Step.lean ====
section
/-! DEFINITION. One step of the system: the next turn's time passes, its place is focused, and what it names moves. -/
namespace Sys2Proof.Machine

/-- An engine's turn: where its arbiter grants the focused context, the instruction it stands at is executed, and what it read of
the tile's arrays is met. -/
def issueTurn (s0 : State) (e : Engine) : Host.Outcome State Fault Refusal :=
  if !issueGranted s0 e then .next s0
  else
    match prepare (issuePassed s0 e) e with
    | .error r => r
    | .ok (i, s) => noteBusy e s (consume (Instr.reads i) s (exec i s))
/-- A message of the host that has reached the focused die is performed. -/
def hostTurn (s : State) : Host.Outcome State Fault Refusal :=
  match hostMessage s with
  | none => .next s
  | some (p, i, inp) =>
    match exec i { s with inp := inp } with
    | .next t => .next (hostActed p i { s with inp := inp } t)
    | r => r
/-- What a turn does to a state in which its place is focused. -/
def act (a : Act) (s : State) : Host.Outcome State Fault Refusal :=
  match a with
  | .issue e => issueTurn s e
  | .event i => consume [] s (exec i s)
  | .hostCommand => hostTurn s
  | .hostSend i b => .next (hostSend s i b)
  | .prefetch e k => .next (prefetch s e k)
  | .storePerform => .next (performOldest s)
  | .upsetReg b => .next (upsetReg s b)
  | .upsetRow st q row elem u => .next (upsetRow s st q row elem u)
  | .upsetCache code line => .next (upsetCache s code line)
  | .evictL1 line => .next (evictL1 s line)
  | .evictL2 line => .next (evictL2 s line)
  | .evictTlb e v => .next (evictTlb s e v)
  | .upset g l u => .next (upset s g l u)
  | .upsetSpad w u => .next (upsetSpad s w u)

/-- One step: the next turn of the schedule, or the default turn where none is left. -/
def step (s : State) : Host.Outcome State Fault Refusal :=
  let t := nextTurn s
  act t.act (beginTurn s t)

/-- The state with the first instruction of a code line at the head of its engine's queue, its place running, and
that engine's issue as the next turn. -/
def State.withFetchWord (s : State) (_nbits w : Nat) : State := placeWordNext s w

end Sys2Proof.Machine
end

