-- ==== Sys2Proof/Safety.lean ====
section
/-! DEFINITION. The terms the claims use: an instruction performed and what it leaves as it was, and the well-formed states. -/
namespace Sys2Proof.Machine

/-- The outcome is a next state. -/
def isNext (o : Host.Outcome State Fault Refusal) : Bool :=
  match o with
  | .next _ => true
  | _ => false

/-- The issued instruction of an engine is to be repeated once more (R33, R250). -/
def repeats (s : State) (e : Engine) : Bool := !s.iss.marker && (s.cx.rep e).active && decide (1 < (s.cx.rep e).remaining)
/-- Two contexts differ at most in their engine queues, their repeat states and the two marks of issue. -/
def queuesOnly (c d : Ctx) : Prop :=
  d = { c with qC := d.qC, qL := d.qL, qS := d.qS, qV := d.qV, qM := d.qM, qX := d.qX, hq := d.hq, repL := d.repL,
               repS := d.repS, repV := d.repV, issuedAny := d.issuedAny, occupied := d.occupied }
/-- Sequence numbers of the entries of a queue, head first. -/
def seqs (q : List Entry) : List Nat := q.map (·.seq)
/-- The issued instruction of engine `e` has left state `s`, which holds its effect, as `t`: the head of its queue is
gone, or its repeat has advanced; the other queues hold the entries they held; nothing else differs. -/
def Performed (e : Engine) (s t : State) : Prop :=
  t = { s with cx := t.cx } ∧ queuesOnly s.cx t.cx
    ∧ (∀ f, f ≠ e → seqs (t.cx.queue f) = seqs (s.cx.queue f))
    ∧ (if repeats s e then seqs (t.cx.queue e) = seqs (s.cx.queue e) ∧ t.cx.hq = s.cx.hq
        ∧ (t.cx.rep e).remaining = (s.cx.rep e).remaining - 1 ∧ (t.cx.rep e).k = (s.cx.rep e).k + 1
      else if e = .c && s.cx.handler then t.cx.hq = s.cx.hq.tail ∧ t.cx.qC = s.cx.qC
      else seqs (t.cx.queue e) = seqs (s.cx.queue e).tail ∧ t.cx.hq = s.cx.hq)
/-- `exec` answers a next state for the instruction, in which engine `e` has performed it with the effect that `s'` holds. -/
def Completes (e : Engine) (i : Instr) (s s' : State) : Prop := ∃ t, exec i s = .next t ∧ Performed e s' t
/-- The context whose issued instruction lowers counter `k`, unless a repeat of it is still to come (R30, R33). -/
def lowered (s : State) (e : Engine) (k : Option Nat) : Ctx :=
  if s.iss.marker || repeats s e then s.cx else s.cx.ccComplete k e s.iss.seq
/-- The state with the focused context replaced. -/
def withCx (s : State) (c : Ctx) : State := { s with cx := c }

/-- A C access to `n` bytes at a virtual address passes its checks (R94, R115, R211, R100): it is canonical and aligned, it
translates to `key` in state `s1`, and no line of it is held by the host. -/
def Reaches (s : State) (va : Word) (n : Nat) (wr : Bool) (key : Nat) (s1 : State) : Prop :=
  canonical va = true ∧ va.toNat % n = 0 ∧ translate s s.cur .c va.toNat wr false = .ok key s1 ∧ windowReady s1 key n wr = true
/-- The bytes of device memory from `key` on are `d`, and every other byte is what it was. -/
def Stored (s t : State) (key : Nat) (d : List Byte) : Prop :=
  ∀ k, peekByte t k = if key ≤ k ∧ k < key + d.length then d.getD (k - key) 0 else peekByte s k
/-- Every byte of device memory reads as it did. -/
def MemorySame (s t : State) : Prop := ∀ k, peekByte t k = peekByte s k
/-- A program-error trap of the issued instruction of an engine is taken, or its drain begins (R377). -/
def Traps (e : Engine) (i : Instr) (s : State) (code : Nat) (tval : Word) : Prop := exec i s = .next (trapAt e 1 code tval s)

/-- Element `k` of the `n`-th source that a V instruction reads. -/
def srcLanes (s : State) (srcs : List VLoc) (n k : Nat) : Elem := ((readSrcs s srcs).1.getD n []).getD k 0
/-- Elements `val` go to a destination of V: a register takes those its guard enables, a queue all of them as sixteen rows with
tags 0 to 15 (R278, R279); nothing else of the context but control registers differs, save that a register's elements, written
whole, hold no error any more (R408), and that the write is known to M and to results on their way to them (R297). -/
def Delivered (c c' : Ctx) (d : VLoc) (g : Nat) (val : Nat → Elem) : Prop :=
  match d with
  | .reg v => c' = { overwrite c .v v (c.pr g) with v := c'.v, csr := c'.csr, vlast := c'.vlast } ∧ (∀ w, w ≠ v → c'.vr w = c.vr w)
      ∧ ∀ k, k < 1024 → (c'.vr v).getD k 0 = if (c.pr g).getLsbD k then val k else (c.vr v).getD k 0
  | .queue q => c' = { c with sq := c'.sq, csr := c'.csr } ∧ (∀ w, w ≠ q → c'.srows w = c.srows w)
      ∧ c'.srows q = c.srows q ++ (List.range 16).map fun r =>
          { data := (List.range 64).flatMap fun j => leBytes 4 (val (64 * r + j)).toNat, tag := r }
/-- `aflags` gains the flags of the elements a mask enables, and no other control register changes (R400). -/
def Flagged (c c' : Ctx) (mask : BitVec 1024) (fl : Nat → Nat) : Prop :=
  (∀ n, n ≠ 0x00B → c'.cr n = c.cr n)
    ∧ ∀ j, j < 64 → ((c'.cr 0x00B).getLsbD j = true ↔
        (c.cr 0x00B).getLsbD j = true ∨ ∃ k, k < 1024 ∧ mask.getLsbD k = true ∧ (fl k).testBit j = true)
/-- A V instruction waits until its sources hold their rows and its destination may be written, and then delivers elements that
`val` computes from its sources' elements (R277 to R281). -/
def VWrites (i : Instr) (s : State) (srcs : List VLoc) (d : VLoc) (g : Nat) (val : (Nat → Nat → Elem) → Nat → Elem × Nat) : Prop :=
  let r := (readSrcs s srcs).2
  let y := val (srcLanes s srcs)
  if srcsReady s.cx srcs = true ∧ dstReady s.cx d 16 = true then
    ∃ c, Completes .v i s (withCx r c) ∧ Delivered r.cx c d g (fun k => (y k).1) ∧ Flagged r.cx c (dstMask r.cx d g) fun k => (y k).2
  else exec i s = .next s
/-- As `VWrites`, but the elements are on their way to the destination when the instruction has been performed, with a bound of `lat`
cycles after the last of its eight beats (R280, R281). -/
def VExposes (i : Instr) (s : State) (srcs : List VLoc) (d : VLoc) (g lat : Nat) (val : (Nat → Nat → Elem) → Nat → Elem × Nat) : Prop :=
  let r := (readSrcs s srcs).2
  let y := val (srcLanes s srcs)
  if srcsReady s.cx srcs = true ∧ dstReady s.cx d 16 = true then
    ∃ c l, Completes .v i s (withCx r c) ∧ l.length = 1024 ∧ (∀ k, k < 1024 → l.getD k 0 = (y k).1)
      ∧ c = { r.cx with csr := c.csr, exposed := r.cx.exposed ++ [⟨expDest d, dstMask r.cx d g, l, .v, s.iss.seq, cyclesAt s s.cur + 7 + lat, 0⟩] }
      ∧ Flagged r.cx c (dstMask r.cx d g) fun k => (y k).2
  else exec i s = .next s

/-- A comparison of V waits for its source rows; it writes the elements of predicate `p` that its guard enables, and nothing else
(R284); `p0` is never written (R276). -/
def VCompares (i : Instr) (s : State) (p : Nat) (a b : VLoc) (g : Nat) (f : Elem → Elem → Bool) : Prop :=
  let r := (readSrcs s [a, b]).2
  if srcsReady s.cx [a, b] = true then
    ∃ c, Completes .v i s (withCx r c) ∧ c = { r.cx with p := c.p } ∧ (∀ j, j ≠ p ∨ p = 0 → c.pr j = r.cx.pr j)
      ∧ (p ≠ 0 → ∀ k, k < 1024 → (c.pr p).getLsbD k =
          if (r.cx.pr g).getLsbD k then f (srcLanes s [a, b] 0 k) (srcLanes s [a, b] 1 k) else (r.cx.pr p).getLsbD k)
  else exec i s = .next s

/-- A number for each kind of packet. -/
def kindOf : Body → Nat
  | .posted .. => 0 | .ack .. => 1 | .netWrite .. => 2 | .netAck .. => 3 | .readReq .. => 4 | .readResp .. => 5 | .send .. => 6
  | .refusal .. => 7 | .join .. => 8 | .leave .. => 9 | .answer .. => 10 | .arrive .. => 11 | .release .. => 12 | .barTimeout .. => 13
  | .groupLost .. => 14 | .taint .. => 15 | .loss .. => 16 | .failure .. => 17 | .delivered .. => 18
  | .time => 19 | .host .. => 20 | .command .. => 21 | .hostData .. => 22
/-- The packet the event's input selects among those that have reached the focused die and that `f` lets act, with its position. -/
def Arrived (s : State) (f : Packet → Nat → Bool) (p : Packet) (k : Nat) : Prop :=
  ((dieAt s (dieOf s.cur)).inbox.zipIdx.filter fun x => f x.1 x.2)[s.inp.sel]? = some (p, k)
/-- The state in which the packet at position `k` has acted and gone. -/
def acted (s : State) (k : Nat) : State := updDie s (dieOf s.cur) fun x => { x with inbox := x.inbox.eraseIdx k }
/-- An answer to a packet on its way, in prompt class. -/
def answered (u : State) (p : Packet) (b : Body) : State :=
  sendPacket u { src := p.dst, dst := p.src, cls := 2, tenant := p.tenant, task := p.task, inst := p.inst, body := b, since := u.now
                 conf := if b.isAck then p.psn.map (·.1) else none }

/-- Device memory and its tags are in canonical form. -/
def memoryWf (s : State) : Prop := memWf s.mem = true ∧ memWf s.tags = true

/-- The rows that are events of the machine and not instructions of an engine: they have no words. -/
def isEvent : Instr → Bool
  | .codeLineFetch | .tokenPost .. | .tokenTake .. | .streamRowPush | .markPairRelease | .exposedResultLand
  | .mmaPerform | .spanArbitration | .governorStatAdd | .copyGranuleWrite | .copyPerform | .postedWriteLanding
  | .writeAcknowledgement | .networkWriteArrival | .windowReadRequest | .windowReadResponse | .sendArrival
  | .arrivalDelivery | .arrivalTimeout | .sendRefusal | .groupJoinRequest | .groupLeaveRequest | .groupAnswer
  | .barrierArrival | .barrierRelease | .barrierTimeout | .groupLostAnswer | .trapEntry | .asyncTrapEntry
  | .handlerTimeout | .deadlockDetect | .drainTimeout | .taskStop | .dieHalt | .dumpWrite | .pageFaultResume
  | .pageFaultStop | .placeInst | .preemption | .saveAreaWrite | .contextRestore | .budgetPeriodStart
  | .budgetExhausted | .tenantStarvation | .powerEvaluation | .gearChangeComplete | .gearChangeTimeout
  | .biasSetComplete | .biasSetTimeout | .biasClearTimeout | .biasClearComplete | .chartGearTimeout | .sensorRead
  | .surveyTick | .railDroop | .railFault | .inputLow | .inputRecover | .inputCritical | .flitSend | .tagGroupPad
  | .flitReceive | .taintNotice | .retryRequest | .retryRequestRepeat | .retrainAttemptComplete
  | .retrainAttemptTimeout | .abortFlit | .lossNotice | .failureNotice | .keyShareFirst | .keyShareSecond
  | .keySignature | .keysReady | .keyRenewalStart | .uetRetransmitTimeout | .uetGiveUp | .timeMessage
  | .lockLossUpstream | .eyeMarginMeasure | .hostReadShared | .hostReadOwn | .hostWriteBack | .hostDrop
  | .hostRecallAck | .hostRecallTimeout | .hostEnqueue | .hostRead | .hostWrite | .hostFlush | .hostInvalidate
  | .installLegend | .revokePage | .hostTaskStop | .hostHalt | .dieReset | .debugArm | .debugStopCommand
  | .debugResume | .singleStep | .stepDone | .stepCancel | .rewriteReq | .attest | .testTile | .selfTestRun
  | .readState | .clearCounts | .retireUnit | .spareDramRow | .clearRepairMap | .setThresholds | .scrubPass
  | .startStage0 | .startStage1 | .startStage2 | .dieStartTimeout | .timeLockStartTimeout | .romImageWrite
  | .govbaseValidSet | .vdportModeWrite | .errcfgEnable | .errptrRdWrite | .errptrRead | .landcntRead
  | .savepoolWrite | .dumpcfgWrite | .registerWrite | .waittTargetReached | .droopDutyExpiry | .dramRowSpareComplete
  | .flushhPerformed | .tlbprePerformed | .tlbinvPerformed | .lossOfSignal | .hostLightReturn | .portRetrainCommand
  | .portDisableCommand | .powerDown => true
  | _ => false

end Sys2Proof.Machine
end

