-- ==== Sys2Proof/Certificates/Slice0/Obligations.lean ====
section
/-! DEFINITION. The statements about the model: what its instructions and events do, from the numbered rules of the spec. -/
open Sys2Proof Sys2Proof.Machine

/-! ### C: integer, logic and control transfer -/

/-- R208 and R210: every three-register instruction of C is performed with its result in `g[d]`, and nothing else of the
context or of the machine changes (a result for `g0` is discarded, R204). -/
def Obligations.IntegerRegisterForms : Prop :=
  ∀ (s : State) (d a b c : Nat),
    let r : Instr → Word → Prop := fun i v => Completes .c i s (withCx s (s.cx.setG d v))
    let x := s.cx.gr a
    let y := s.cx.gr b
    r (.add d a b) (x + y) ∧ r (.sub d a b) (x - y) ∧ r (.and d a b) (x &&& y) ∧ r (.or d a b) (x ||| y)
      ∧ r (.xor d a b) (x ^^^ y) ∧ r (.shl d a b) (x <<< (y.toNat % 64)) ∧ r (.shr d a b) (x >>> (y.toNat % 64))
      ∧ r (.sra d a b) (x.sshiftRight (y.toNat % 64)) ∧ r (.min d a b) (if x.slt y then x else y)
      ∧ r (.max d a b) (if x.slt y then y else x) ∧ r (.minn d a b) (if x < y then x else y)
      ∧ r (.maxn d a b) (if x < y then y else x) ∧ r (.slt d a b) (if x.slt y then 1 else 0)
      ∧ r (.sltn d a b) (if x < y then 1 else 0) ∧ r (.seq d a b) (if x = y then 1 else 0) ∧ r (.mul d a b) (x * y)
      ∧ r (.mulh d a b) (BitVec.ofInt 64 (x.toInt * y.toInt / 2 ^ 64))
      ∧ r (.mulhn d a b) (BitVec.ofNat 64 (x.toNat * y.toNat / 2 ^ 64))
      ∧ r (.clz d a) (BitVec.ofNat 64 (if x = 0 then 64 else 63 - Nat.log2 x.toNat))
      ∧ r (.popc d a) (BitVec.ofNat 64 ((List.range 64).filter fun k => bitOf x.toNat k).length)
      ∧ r (.mov d a) x ∧ r (.sel d c a b) (if s.cx.gr c ≠ 0 then x else y)

/-- R210: division truncates toward zero; a zero divisor gives all ones and the dividend, and the one overflowing quotient
wraps; no trap is taken. -/
def Obligations.DivisionResults : Prop :=
  ∀ (s : State) (d a b : Nat),
    let r : Instr → Word → Prop := fun i v => Completes .c i s (withCx s (s.cx.setG d v))
    let x := s.cx.gr a
    let y := s.cx.gr b
    (y = 0 → r (.div d a b) (BitVec.allOnes 64) ∧ r (.divn d a b) (BitVec.allOnes 64) ∧ r (.rem d a b) x ∧ r (.remn d a b) x)
      ∧ (y = BitVec.allOnes 64 → x = BitVec.ofNat 64 (2 ^ 63) → r (.div d a b) x ∧ r (.rem d a b) 0)
      ∧ (y ≠ 0 → r (.divn d a b) (BitVec.ofNat 64 (x.toNat / y.toNat)) ∧ r (.remn d a b) (BitVec.ofNat 64 (x.toNat % y.toNat)))
      ∧ (y ≠ 0 → ¬(y = BitVec.allOnes 64 ∧ x = BitVec.ofNat 64 (2 ^ 63)) →
          r (.div d a b) (BitVec.ofInt 64 (x.toInt.tdiv y.toInt)) ∧ r (.rem d a b) (BitVec.ofInt 64 (x.toInt.tmod y.toInt)))

/-- R209: every immediate instruction of C, in its short and its long form. -/
def Obligations.IntegerImmediateForms : Prop :=
  ∀ (s : State) (d a n : Nat) (imm : Int),
    let r : Instr → Word → Prop := fun i v => Completes .c i s (withCx s (s.cx.setG d v))
    let x := s.cx.gr a
    let y := BitVec.ofInt 64 imm
    r (.addi d a imm) (x + y) ∧ r (.addiLong d a imm) (x + y) ∧ r (.andi d a imm) (x &&& y) ∧ r (.andiLong d a imm) (x &&& y)
      ∧ r (.ori d a imm) (x ||| y) ∧ r (.oriLong d a imm) (x ||| y) ∧ r (.xori d a imm) (x ^^^ y) ∧ r (.xoriLong d a imm) (x ^^^ y)
      ∧ r (.slti d a imm) (if x.slt y then 1 else 0) ∧ r (.sltiLong d a imm) (if x.slt y then 1 else 0)
      ∧ r (.shli d a n) (x <<< (n % 64)) ∧ r (.shri d a n) (x >>> (n % 64)) ∧ r (.srai d a n) (x.sshiftRight (n % 64))
      ∧ r (.movi d imm) y ∧ r (.moviLong d imm) y

/-! ### C: memory -/

/-- R98, R129, R211: `LD` writes the value it loads, extended as its type says, to `g[d]`. Where a store of its context has still to write a
byte it reads, the oldest waiting store is performed first. A plain load may be served from the tile's L1, and any other reads what the
line's home holds. Where no error is met every byte of device memory reads as before, and no register but `g[d]` changes; an uncorrected
error stops the task (R408). -/
def Obligations.LoadResults : Prop :=
  ∀ (s s1 : State) (d a : Nat) (off : Int) (ty : Ty) (acq : Option Scope) (key : Nat),
    let n := tyBytes ty
    Reaches s (s.cx.gr a + BitVec.ofInt 64 off) n false key s1 →
    let home := acq.any fun x => x ≠ .c && x ≠ .t
    let s2 := eccCorrect s1 key n
    let r := cLoad s2 key n home
    let u := acquireAt acq r.2
    let v := leNat r.1
    let x : Int := if ty ∈ [.i8, .i16, .i32, .i64] ∧ 2 ^ (8 * n - 1) ≤ v then v - 2 ^ (8 * n) else v
    (eccLevel s1 key n = 2 → exec (.ld d a off ty acq) s = .next (eccStopAt s1 key n))
      ∧ (eccLevel s1 key n ≠ 2 → storeMeets s2 key n = true → exec (.ld d a off ty acq) s = .next (performOldest s2))
      ∧ (eccLevel s1 key n ≠ 2 → storeMeets s2 key n = false →
          Completes .c (.ld d a off ty acq) s (withCx u (u.cx.setG d (BitVec.ofInt 64 x)))
          ∧ ((myTile s2).l1Bad.contains (key / 64) = false → home = true ∨ homeDie key ≠ dieOf s2.cur ∨ inWindow key = true
              ∨ alook (myTile s2).l1 (key / 64) = none → r.1 = peek s2 key n))
      ∧ (eccLevel s1 key n = 0 → storeMeets s key n = false → (myTile s1).l1Bad.contains (key / 64) = false →
          ∃ u v, Completes .c (.ld d a off ty acq) s u ∧ MemorySame s u ∧ u.cx = { s.cx.setG d v with stored := u.cx.stored })
/-- R129, R212: `ST` stores the low bytes of `g[d]` at the address it computes: they are read back at the line's home, and every other
byte of device memory, every register and every flag is as it was. The turn may hold a plain store back behind those that wait; the
oldest of them is performed first, and is then read back. -/
def Obligations.StoreResults : Prop :=
  ∀ (s s1 : State) (d a : Nat) (off : Int) (ty : Ty) (rel : Option Scope) (key : Nat),
    let n := tyBytes ty
    let data := leBytes n (s.cx.gr d).toNat
    Reaches s (s.cx.gr a + BitVec.ofInt 64 off) n true key s1 → (∀ l ∈ linesOf key n, eccLine s1 l ≠ 1) →
    (s.cx.sbuf = [] → (s.inp.flag = false ∨ rel ≠ none) →
        ∃ u, Completes .c (.st d a off ty rel) s u ∧ Stored s u key data ∧ u.cx = { s.cx with stored := u.cx.stored }
          ∧ (rel = none → key / 64 ∈ u.cx.stored))
      ∧ (s.inp.flag = true → rel = none → ∃ u, Completes .c (.st d a off ty rel) s u ∧ MemorySame s u
          ∧ u.cx = { s.cx with sbuf := s.cx.sbuf ++ [{ key := key, data := data, seq := s.iss.seq }] })
      ∧ (s.cx.sbuf ≠ [] → (s.inp.flag = false ∨ rel ≠ none) → exec (.st d a off ty rel) s = .next (performOldest s1))
      ∧ ∀ x r, s.cx.sbuf = x :: r → windowReady s x.key x.data.length true = true →
          Stored s (performOldest s) x.key x.data ∧ (performOldest s).cx = { s.cx with sbuf := r, stored := (performOldest s).cx.stored }
/-- R214, Table 7.3, and R215: an atomic returns the old value of its width, zero-extended, and leaves the new one at the line's home; a
`CAS` whose comparison fails leaves the old one. No other byte changes. The stores of its context that wait come before it (R134). -/
def Obligations.AtomicResults : Prop :=
  ∀ (s s1 : State) (d a b c : Nat) (o : AtomOrd) (key : Nat),
    let n := if o.wide then 8 else 4
    let m := 2 ^ (8 * n)
    Reaches s (s.cx.gr a) n true key s1 → eccLevel s1 key n = 0 →
    let x := leNat (peek s key n)
    let y := (s.cx.gr b).toNat % m
    let z := (s.cx.gr c).toNat % m
    let sx : Nat → Int := fun v => if v < m / 2 then v else v - m
    let r : Instr → Nat → Prop := fun i v =>
      (s.cx.sbuf = [] → ∃ u, Completes .c i s u ∧ Stored s u key (leBytes n v)
        ∧ u.cx = { s.cx.setG d (BitVec.ofNat 64 x) with stored := u.cx.stored })
      ∧ (s.cx.sbuf ≠ [] → exec i s = .next (performOldest s1))
    r (.amoAdd d a b o) ((x + y) % m) ∧ r (.amoAnd d a b o) (x &&& y) ∧ r (.amoOr d a b o) (x ||| y) ∧ r (.amoXor d a b o) (x ^^^ y)
      ∧ r (.amoMin d a b o) (if sx x < sx y then x else y) ∧ r (.amoMax d a b o) (if sx x < sx y then y else x)
      ∧ r (.amoMinn d a b o) (min x y) ∧ r (.amoMaxn d a b o) (max x y) ∧ r (.amoSwap d a b o) y
      ∧ r (.cas d a b c o) (if x = z then y else x)
/-- R131 to R133: a fence comes after the stores of its context that wait; at a scope wider than a tile the L1 copies that other tiles
hold of lines this context has stored, or that were released to it on its tile, go. No byte of memory and no register changes, and of
its own tile only the record of what was released there. -/
def Obligations.FencePublishes : Prop :=
  ∀ (s : State) (sc : Scope),
    (s.cx.sbuf ≠ [] → exec (.fence sc) s = .next (performOldest s))
    ∧ (s.cx.sbuf = [] → ∃ u, Completes .c (.fence sc) s u ∧ MemorySame s u ∧ u.cx = { s.cx with stored := u.cx.stored }
      ∧ (sc ≠ .c → sc ≠ .t → u.cx.stored = [] ∧ ∀ n l, n ≠ tileOf s.cur → l ∈ s.cx.stored ∨ l ∈ (myTile s).released →
          alook (tileAt u n).l1 l = none)
      ∧ (sc = .t → (∀ l, l ∈ u.cx.stored ↔ l ∈ s.cx.stored ∨ l ∈ (myTile s).released)
          ∧ ∀ l, l ∈ (tileAt u (tileOf s.cur)).released ↔ l ∈ s.cx.stored ∨ l ∈ (myTile s).released)
      ∧ (sc = .c → u = s)
      ∧ tileAt u (tileOf s.cur) = { tileAt s (tileOf s.cur) with released := (tileAt u (tileOf s.cur)).released })
/-- R211, R214, R394: a non-canonical address traps with 0x703 and a misaligned one with 0x702, `tval` the address, and nothing is
accessed; R115: a page fault or a locked miss is taken at the instruction. -/
def Obligations.AccessTraps : Prop :=
  ∀ (s : State) (d a b c : Nat) (off : Int) (ty : Ty) (sc : Option Scope) (o : AtomOrd),
    let va := s.cx.gr a + BitVec.ofInt 64 off
    let atomics : List Instr := [.amoAdd d a b o, .amoAnd d a b o, .amoOr d a b o, .amoXor d a b o, .amoMin d a b o, .amoMax d a b o,
      .amoMinn d a b o, .amoMaxn d a b o, .amoSwap d a b o, .cas d a b c o]
    let n := if o.wide then 8 else 4
    (canonical va = false → Traps .c (.ld d a off ty sc) s 0x703 va ∧ Traps .c (.st d a off ty sc) s 0x703 va)
      ∧ (canonical va = true → va.toNat % tyBytes ty ≠ 0 →
          Traps .c (.ld d a off ty sc) s 0x702 va ∧ Traps .c (.st d a off ty sc) s 0x702 va)
      ∧ (canonical (s.cx.gr a) = false → ∀ i ∈ atomics, Traps .c i s 0x703 (s.cx.gr a))
      ∧ (canonical (s.cx.gr a) = true → (s.cx.gr a).toNat % n ≠ 0 → ∀ i ∈ atomics, Traps .c i s 0x702 (s.cx.gr a))
      ∧ (canonical va = true → va.toNat % tyBytes ty = 0 →
          (∀ code, translate s s.cur .c va.toNat false false = .trap code → Traps .c (.ld d a off ty sc) s code (BitVec.ofNat 64 va.toNat))
          ∧ ∀ cause lv, translate s s.cur .c va.toNat true false = .fault cause lv →
              exec (.st d a off ty sc) s = .next (pageFault s .c va.toNat cause 2 lv))

/-! ### C: control transfer, traps and the stack -/

/-- R178, R179, R217, R218: every transfer selects its next line, writes its link and keeps the call depth; a register target whose low
five bits are not zero traps with 0x101 and writes no link. -/
def Obligations.Transfers : Prop :=
  ∀ (s : State) (cond : Cond) (a d : Nat) (off : Int),
    let x := s.cx.gr a
    let dest := s.iss.line + BitVec.ofInt 64 (32 * off)
    let next := s.iss.line + 32
    let go : Instr → Ctx → Word → Prop := fun i c w => Completes .c i s (withCx s { c with fetch := w, fetchHold := false })
    let deep : Int → Ctx → Ctx := fun n c => { c with depth := max (-32768) (min 32767 (c.depth + n)) }
    let holds : Prop := match cond with
      | .eqz => x = 0
      | .nez => x ≠ 0
      | .ltz => x.toInt < 0
      | .gez => 0 ≤ x.toInt
      | .gtz => 0 < x.toInt
      | .lez => x.toInt ≤ 0
    (holds → go (.bc cond a off) s.cx dest) ∧ (¬holds → go (.bc cond a off) s.cx next) ∧ go (.jmp off) s.cx dest
      ∧ go (.call a off) (deep 1 (s.cx.setG a next)) dest
      ∧ (a ≠ 0 → x ≠ 1 → go (.loop a off) (s.cx.setG a (x - 1)) dest) ∧ (a ≠ 0 → x = 1 → go (.loop a off) (s.cx.setG a 0) next)
      ∧ (x.toNat % 32 = 0 → go (.jmpr a) s.cx x ∧ go (.callr d a) (deep 1 (s.cx.setG d next)) x ∧ go (.ret a) (deep (-1) s.cx) x)
      ∧ (x.toNat % 32 ≠ 0 → ∀ i ∈ ([.jmpr a, .callr d a, .ret a] : List Instr), Traps .c i s 0x101 x)
/-- R377, Table 15.2: with nothing left to drain, a trap is entered at once: `trapcause`, `tval` and `epc` are written, `estat.inh` and
handler mode are set and fetch goes on at `tvec`; every queue, row, counter, token and general register keeps its value. -/
def Obligations.TrapEntryRegisters : Prop :=
  ∀ (s : State) (t : Trap),
    s.cx.drained = true → s.cx.handler = false → s.cx.cr 0x009 ≠ 0 → (s.cx.cr 0x009).toNat % 32 = 0 → t.sub = 0 → t.own = false →
    let u := takeTrap s t
    u.cx.cr 0x006 = BitVec.ofNat 64 (t.code + 2 ^ 12 * t.cls + 2 ^ 16 * t.eng + 2 ^ 20 * t.lane + 2 ^ 24 * (t.seq % 2 ^ 24))
      ∧ u.cx.cr 0x00A = t.tval ∧ u.cx.cr 0x007 = t.epc ∧ (u.cx.cr 0x008).getLsbD 0 = true
      ∧ (∀ k, 0 < k → (u.cx.cr 0x008).getLsbD k = (s.cx.cr 0x008).getLsbD k)
      ∧ (∀ n, n ∉ [0x006, 0x007, 0x008, 0x00A] → u.cx.cr n = s.cx.cr n)
      ∧ u.cx.handler = true ∧ u.cx.fetch = s.cx.cr 0x009
      ∧ (∀ e, u.cx.queue e = s.cx.queue e) ∧ u.cx.g = s.cx.g ∧ u.cx.a = s.cx.a ∧ u.cx.lq = s.cx.lq ∧ u.cx.sq = s.cx.sq
      ∧ u.cx.cc = s.cx.cc ∧ u.cx.tok = s.cx.tok ∧ u.cx.v = s.cx.v ∧ u.cx.p = s.cx.p ∧ u.cx.acc = s.cx.acc ∧ u.cx.spad = s.cx.spad
      ∧ MemorySame s u
/-- R377: a trap in handler mode stops the task with reason 2, and one without a handler line with reason 1: the context issues
nothing more. -/
def Obligations.TrapWithoutHandlerStops : Prop :=
  ∀ (s : State) (t : Trap) (k : Task),
    s.cx.drained = true → t.sub = 0 → t.cls = 1 → taskAt s (dieOf s.cur) s.cx.task = some k → k.stopping = none →
    k.state ≠ .retired →
    (s.cx.handler = true ∨ s.cx.cr 0x009 = 0 ∨ (s.cx.cr 0x009).toNat % 32 ≠ 0) →
    (taskAt (takeTrap s t) (dieOf s.cur) s.cx.task).bind (·.stopping) = some (if s.cx.handler then 2 else 1)
/-- R219, R380: `ERET` outside the handler's mark traps with 0x102, with a misaligned `epc` with 0x101; it clears `estat.inh` and goes on at
`epc`. In handler mode it leaves that mode and clears `trapcause.skip`; a reported line is left behind where skip was set, a reported
instruction leaves its queue, and the lanes after the `ERET` come before C's thawed entries (R178). -/
def Obligations.ExceptionReturn : Prop :=
  ∀ (s : State),
    let epc := s.cx.cr 0x007
    let lanes : Engine → List Nat := fun e => if e = .c then (seqs s.cx.hq).tail else []
    ((s.cx.cr 0x008).getLsbD 0 = false → Traps .c .eret s 0x102 0)
      ∧ ((s.cx.cr 0x008).getLsbD 0 = true → epc.toNat % 32 ≠ 0 → Traps .c .eret s 0x101 epc)
      ∧ ((s.cx.cr 0x008).getLsbD 0 = true → epc.toNat % 32 = 0 → s.cx.handler = false →
          Completes .c .eret s (withCx s { s.cx.setCr 0x008 (s.cx.cr 0x008 &&& ~~~(1 : Word)) with fetch := epc, fetchHold := false }))
      ∧ ((s.cx.cr 0x008).getLsbD 0 = true → epc.toNat % 32 = 0 → s.cx.handler = true → ∃ t, exec .eret s = .next t
          ∧ t.cx.handler = false ∧ t.cx.hq = [] ∧ t.cx.cr 0x008 = s.cx.cr 0x008 &&& ~~~(1 : Word)
          ∧ t.cx.cr 0x006 = s.cx.cr 0x006 &&& ~~~(BitVec.ofNat 64 (2 ^ 63)) ∧ t.cx.cr 0x007 = epc ∧ t.cx.g = s.cx.g ∧ t.cx.a = s.cx.a
          ∧ t.cx.fetch = (if (s.cx.cr 0x006).getLsbD 63 ∧ s.cx.lineTrap then epc + 32 else epc)
          ∧ ((s.cx.cr 0x006).getLsbD 63 = false → ∀ e, seqs (t.cx.queue e) = lanes e ++ seqs (s.cx.queue e))
          ∧ (∀ e n, (s.cx.cr 0x006).getLsbD 63 = true → s.cx.report = some (e, n) → (s.cx.queue e).head?.map (·.seq) = some n →
              seqs (t.cx.queue e) = lanes e ++ (seqs (s.cx.queue e)).tail))
/-- R220: `SYSC` is performed and takes a system-call trap of class 2 with code 0x800 + n, and `epc` is the line after. -/
def Obligations.SystemCall : Prop :=
  ∀ (s : State) (n : Nat),
    s.cx.drained = true → s.cx.handler = false → s.cx.cr 0x009 ≠ 0 → (s.cx.cr 0x009).toNat % 32 = 0 →
    ∃ t, exec (.sysc n) s = .next t ∧ t.cx.cr 0x007 = s.iss.line + 32 ∧ t.cx.cr 0x00A = 0 ∧ t.cx.fetch = s.cx.cr 0x009
      ∧ t.cx.cr 0x006 = BitVec.ofNat 64 (0x800 + n + 2 ^ 12 * 2 + 2 ^ 16 * 1 + 2 ^ 20 * s.iss.lane + 2 ^ 24 * (s.iss.seq % 2 ^ 24))
      ∧ (t.cx.cr 0x008).getLsbD 0 = true ∧ t.cx.handler = true ∧ seqs t.cx.qC = (seqs s.cx.qC).tail ∧ t.cx.g = s.cx.g
      ∧ (∀ e, e ≠ .c → seqs (t.cx.queue e) = seqs (s.cx.queue e)) ∧ MemorySame s t
/-- R222, R223: a push writes `g[a]` eight bytes below the stack pointer, a pop reads it back; beyond the region they trap with 0x103 and
0x104 and change nothing. -/
def Obligations.StackPushPop : Prop :=
  ∀ (s : State) (a : Nat),
    let p := (s.cx.cr 0x004).toNat
    let base := (s.cx.cr 0x002).toNat
    let lim := (s.cx.cr 0x003).toNat
    (base + 8 ≤ p → Completes .c (.spush a) s
        (withCx s (spadWrite (s.cx.setCr 0x004 (BitVec.ofNat 64 (p - 8))) (p - 8) (leBytes 8 (s.cx.gr a).toNat))))
      ∧ (p < base + 8 → Traps .c (.spush a) s 0x103 (s.cx.cr 0x004))
      ∧ (∀ s1, p + 8 ≤ lim → spadMeet s [(p, 8)] = .ok s1 → Completes .c (.spop a) s
        (withCx s1 ((s1.cx.setCr 0x004 (BitVec.ofNat 64 (p + 8))).setG a (BitVec.ofNat 64 (leNat (memRead s.cx.spad p 8))))))
      ∧ (lim < p + 8 → Traps .c (.spop a) s 0x104 (s.cx.cr 0x004))
/-- R224: `ENTER n` saves `g63` down to `g(64 − n)` below the stack pointer, `g63` highest, and touches no other byte of the scratchpad;
`LEAVE n` sets the same registers from the same places, and no other. Beyond the region they trap with nothing done. -/
def Obligations.EnterLeave : Prop :=
  ∀ (s : State) (n : Nat),
    let p := (s.cx.cr 0x004).toNat
    n ≤ 63 →
    (p < (s.cx.cr 0x002).toNat + 8 * n → Traps .c (.enter n) s 0x103 (s.cx.cr 0x004))
      ∧ ((s.cx.cr 0x003).toNat < p + 8 * n → Traps .c (.leave n) s 0x104 (s.cx.cr 0x004))
      ∧ ((s.cx.cr 0x002).toNat + 8 * n ≤ p → ∃ c, Completes .c (.enter n) s (withCx s c)
          ∧ c = { s.cx with csr := c.csr, spad := c.spad, bad := c.bad } ∧ (c.cr 0x004).toNat = p - 8 * n
          ∧ (∀ r, r ≠ 0x004 → c.cr r = s.cx.cr r)
          ∧ (∀ k, k < n → leNat (memRead c.spad (p - 8 * (k + 1)) 8) = (s.cx.gr (63 - k)).toNat)
          ∧ ∀ o, o < p - 8 * n ∨ p ≤ o → memGet c.spad o = memGet s.cx.spad o)
      ∧ (∀ s1, p + 8 * n ≤ (s.cx.cr 0x003).toNat → spadMeet s [(p, 8 * n)] = .ok s1 → ∃ c, Completes .c (.leave n) s (withCx s1 c)
          ∧ c = { s1.cx with csr := c.csr, g := c.g } ∧ (c.cr 0x004).toNat = p + 8 * n ∧ (∀ r, r ≠ 0x004 → c.cr r = s.cx.cr r)
          ∧ (∀ k, k < n → (c.gr (63 - k)).toNat = leNat (memRead s.cx.spad (p + 8 * (n - 1 - k)) 8))
          ∧ ∀ r, r < 64 - n ∨ 63 < r → c.gr r = s.cx.gr r)

/-! ### C: markers, counters, time and control registers -/

/-- R28, R29, R32, R233, R242: issued by C, `TOKP`, `TOKW`, `RDV` and `PUTA` are performed by placing their marker, one entry that holds the
instruction and its position, at the tail of the queue it concerns (a rendezvous in all six); the other queues are as they were. A token
between an engine and itself traps. -/
def Obligations.MarkersPlaced : Prop :=
  ∀ (s : State) (e f : Engine) (ch n a : Nat), ch < 8 → n < 32 → a < 64 → s.iss.marker = false →
    let placed : Instr → List Engine → State → Prop := fun i l t => ∃ u, Performed .c s u ∧ t = withCx u t.cx ∧ queuesOnly u.cx t.cx
      ∧ (∀ d, d ∉ l → t.cx.queue d = u.cx.queue d)
      ∧ ∀ d, d ∈ l → ∃ m, t.cx.queue d = u.cx.queue d ++ [m] ∧ m.marker = true ∧ m.seq = s.iss.seq ∧ decodeEntry d m = some i
          ∧ (∀ r k, i = .puta r k → m.vals = some [s.cx.gr k])
    (e ≠ f → ∃ t, exec (.tokp e f ch) s = .next t ∧ placed (.tokp e f ch) [e] t)
      ∧ (e ≠ f → ∃ t, exec (.tokw e f ch) s = .next t ∧ placed (.tokw e f ch) [f] t)
      ∧ (∃ t, exec .rdv s = .next t ∧ placed .rdv [.c, .l, .s, .v, .m, .x] t)
      ∧ (∃ t, exec (.puta n a) s = .next t ∧ placed (.puta n a) [if n < 16 then .l else .s] t)
      ∧ (e = f → (∃ v, Traps .c (.tokp e f ch) s 0x00D v) ∧ ∃ v, Traps .c (.tokw e f ch) s 0x00D v)
/-- R28 to R30, R32, R242, R243: a posted token is added once what is earlier is performed, at most 255; a wait takes one or waits; a rendezvous
releases all six queues together; the owner writes its access register, and `GETA` waits for the owner. -/
def Obligations.MarkersPerformed : Prop :=
  ∀ (s : State) (e f : Engine) (ch n a d : Nat) (v : Word),
    let k := tokKey e f ch
    let o : Engine := if n < 16 then .l else .s
    (s.cx.performedBefore e s.iss.seq = false → exec (.tokenPost e f ch) s = .next s)
      ∧ (s.cx.performedBefore e s.iss.seq = true → s.cx.tokens k < 255 →
          let posted := s.cx.setTokens k (s.cx.tokens k + 1)
          Completes e (.tokenPost e f ch) s (withCx s (if e = .v then { posted with vlast := [] } else posted)))
      ∧ (s.cx.performedBefore e s.iss.seq = true → 255 ≤ s.cx.tokens k → ∃ tval, Traps e (.tokenPost e f ch) s 0x70C tval)
      ∧ (s.cx.tokens k = 0 → exec (.tokenTake e f ch) s = .next s)
      ∧ (0 < s.cx.tokens k → Completes f (.tokenTake e f ch) s (withCx s (s.cx.setTokens k (s.cx.tokens k - 1))))
      ∧ (s.iss.marker = true → (∀ x, rdvHead s.iss.seq (s.cx.queue x) = true ∧ s.cx.performedBefore x s.iss.seq = true) →
          ∃ t, exec .rdv s = .next t ∧ t = withCx s t.cx ∧ queuesOnly { s.cx with vlast := [] } t.cx ∧ ∀ x, seqs (t.cx.queue x) = (seqs (s.cx.queue x)).tail)
      ∧ (s.iss.marker = true → (∃ x, rdvHead s.iss.seq (s.cx.queue x) = false) → exec .rdv s = .next s)
      ∧ (s.iss.marker = true → s.iss.vals = some [v] → Completes o (.puta n a) s (withCx s (s.cx.setA n v)))
      ∧ (s.cx.performedBefore o s.iss.seq = true → Completes .c (.geta d n) s (withCx s (s.cx.setG d (s.cx.ar n))))
      ∧ (s.cx.performedBefore o s.iss.seq = false → exec (.geta d n) s = .next s)
/-- R31, R42, R43, R234, R236, R238, R239, R393: the counters, the gear request and the two times. `CCADD` moves its counter, or traps; `CCWAIT`
and `WAITT` are performed once their condition holds and otherwise change nothing; `GEAR` sets `gear.req`, the time until now standing under the
request before (R355); `TIME` writes the time it names. -/
def Obligations.CountersAndTime : Prop :=
  ∀ (s : State) (n k d a : Nat) (amount : Int) (chart : Bool),
    let v := (s.cx.counter n : Int) + amount
    let mine := if s.cx.inChart then chartTime s s.cur else datumOf s (dieOf s.cur)
    let time := if chart then chartTime s s.cur else datumOf s (dieOf s.cur)
    let now := settle s s.cur
    (0 ≤ v → v ≤ 65535 → Completes .c (.ccadd n amount) s (withCx s (s.cx.setCounter n v.toNat)))
      ∧ (v < 0 ∨ 65535 < v → ∃ tval, Traps .c (.ccadd n amount) s 0x00E tval)
      ∧ (s.cx.counter n < k → Completes .c (.ccwait n k) s s) ∧ (k ≤ s.cx.counter n → exec (.ccwait n k) s = .next s)
      ∧ (s.cx.inChart = false → Completes .c (.gear n) s (withCx now (now.cx.setCr 0 (wput (s.cx.cr 0) 0 2 n))))
      ∧ now.cx = { s.cx with since := now.cx.since, mops := now.cx.mops, occupied := now.cx.occupied, acct := now.cx.acct }
      ∧ MemorySame s now
      ∧ (s.cx.inChart = true → Traps .c (.gear n) s 0x10B (BitVec.ofNat 64 n))
      ∧ ((s.cx.gr a).toNat ≤ mine → Completes .c (.waitt a) s s) ∧ (mine < (s.cx.gr a).toNat → exec (.waitt a) s = .next s)
      ∧ (∀ x, headOf s.cx .c = some x → decodeEntry .c x = some (.waitt a) → mayIssue s .c = true → (s.cx.gr a).toNat ≤ mine →
          ∃ t, exec .waittTargetReached s = .next t ∧ Performed .c { s with iss := { seq := x.seq, lane := x.lane, line := x.line } } t)
      ∧ Completes .c (.time d chart) s (withCx s (s.cx.setG d (BitVec.ofNat 64 time)))
/-- R244, R246: `CSRR`, `CSRW` and `CSRS` set `g[d]` to the old value; each field then takes the value presented by its access code, and a
field that only the supervisor writes, or a value the register may not hold, traps with the register as it was. Where d is a, `g[d]` holds
the old value before it is read. -/
def Obligations.ControlRegisterAccess : Prop :=
  ∀ (s : State) (d a n : Nat),
    let v := if a = d ∧ d ≠ 0 then csrValue s s.cur n else s.cx.gr a
    let old := s.cx.cr n
    let after : Word → Word → Prop := fun rw x => ∀ k, k < 64 → x.getLsbD k =
      (((if (csrRw n).testBit k then rw.getLsbD k else old.getLsbD k) && !((csrW1c n).testBit k && v.getLsbD k))
        || ((csrW1s n).testBit k && v.getLsbD k))
    let writes : Instr → Word → Prop := fun i rw => ∀ x, after rw x →
      (csrRefused (s.cx.setCr n x) n = false → ∃ h, Completes .c i s (withCx s ({ s.cx.setCr n x with hist := h }.setG d (csrValue s s.cur n))))
        ∧ (csrRefused (s.cx.setCr n x) n = true → Traps .c i s 0x10F rw)
    Completes .c (.csrr d n) s (withCx s (s.cx.setG d (csrValue s s.cur n)))
      ∧ (winBusy s.cx n = true → exec (.csrw d a n) s = .next s ∧ exec (.csrs d a n) s = .next s)
      ∧ (winBusy s.cx n = false → n ∈ [0x009, 0x00E, 0x010] → Traps .c (.csrw d a n) s 0x10E v)
      ∧ (winBusy s.cx n = false → v &&& BitVec.ofNat 64 (csrSv n) ≠ 0 → Traps .c (.csrs d a n) s 0x10E v)
      ∧ (winBusy s.cx n = false → n ∉ [0x009, 0x00E, 0x010] → writes (.csrw d a n) v)
      ∧ (winBusy s.cx n = false → v &&& BitVec.ofNat 64 (csrSv n) = 0 → writes (.csrs d a n) (old ||| v))

/-! ### L: addresses, repeats, queue loads, streams and marks -/

/-- R33, R249, R250: the address instructions of L and S write one access register and nothing else; a repeat leaves its engine's queue and
arms it with its count and mask. -/
def Obligations.AddressAndRepeat : Prop :=
  ∀ (s : State) (d a b n : Nat) (imm : Int) (r : Rep),
    let w : Engine → Instr → Word → Prop := fun e i v => Completes e i s (withCx s (s.cx.setA d v))
    let x := s.cx.ar a
    let count := match r.count with
      | .imm m => m
      | .reg k => (s.cx.ar k).toNat
    let bit : Bool → Nat → Nat := fun p v => if p then v else 0
    let armed : RepState := { active := true, remaining := count, k := 0, mask := bit r.sd 1 + bit r.sa 2 + bit r.sb 4 + bit r.sg 8 }
    w .l (.aadd d a b) (x + s.cx.ar b) ∧ w .l (.amovg d a) x ∧ w .l (.aaddi d a imm) (x + BitVec.ofInt 64 imm)
      ∧ w .l (.ashli d a n) (x <<< n) ∧ w .s (.sadd d a b) (x + s.cx.ar b)
      ∧ exec (.repL r) s = .next (withCx s { s.cx with qL := s.cx.qL.tail, repL := armed })
      ∧ exec (.repS r) s = .next (withCx s { s.cx with qS := s.cx.qS.tail, repS := armed })
      ∧ exec (.repV r) s = .next (withCx s { s.cx with qV := s.cx.qV.tail, repV := armed })
/-- R252: a queue load whose queue has room reads its bytes from the scratchpad, pushes them as one row with tag 0 and raises its register;
without room, or with a live binding on the queue, it waits. -/
def Obligations.QueueLoads : Prop :=
  ∀ (s s1 s2 : State) (q a b lg : Nat) (pi : Bool),
    let e : Nat := 2 ^ lg
    let n := 256 / e
    let x := s.cx.ar a
    let y := s.cx.ar b
    let sound : State → Nat → Nat → List Word → Prop := fun s n al l => ∀ v ∈ l, spFault0 s s.iss.seq 0x201 v n = none ∧ v.toNat % al = 0
    let ranges : Nat → List Word → List (Nat × Nat) := fun n l => l.map fun v => (spOff v, n)
    let row : State → Nat → List Word → Row := fun s n l => { data := padTo 256 (l.flatMap fun v => memRead s.cx.spad (spOff v) n) }
    let push : Instr → State → Row → Nat → Word → Prop := fun i u r k v => Completes .l i s
      (withCx u (if pi then (u.cx.setL q (u.cx.lrows q ++ [r])).setA k v else u.cx.setL q (u.cx.lrows q ++ [r])))
    let lanes := (List.range n).map fun k => x + BitVec.ofNat 64 k * y
    let places := (List.range n).map fun k => y + BitVec.ofNat 64 (4 * k)
    let targets := (List.range n).map fun k =>
      x + BitVec.ofInt 64 (toSigned 32 (fieldAt (memRead s1.cx.spad (spOff y) (4 * n)) (4 * k) 4) * e)
    (32 ≤ (s.cx.lrows q).length ∨ bound s.cx q = true →
        exec (.ldq q a pi) s = .next s ∧ exec (.ldqs q a b lg pi) s = .next s ∧ exec (.ldqg q a b lg pi) s = .next s)
      ∧ ((s.cx.lrows q).length < 32 → bound s.cx q = false →
          (sound s 256 64 [x] → spadMeet s [(spOff x, 256)] = .ok s1 → push (.ldq q a pi) s1 (row s1 256 [x]) a (x + 256))
          ∧ (sound s e e lanes → spadMeet s (ranges e lanes) = .ok s1 →
              push (.ldqs q a b lg pi) s1 (row s1 e lanes) a (x + BitVec.ofNat 64 n * y))
          ∧ (sound s 4 4 places → spadMeet s [(spOff y, 4 * n)] = .ok s1 → sound s1 e e targets → spadMeet s1 (ranges e targets) = .ok s2 →
              push (.ldqg q a b lg pi) s2 (row s2 e targets) b (y + BitVec.ofNat 64 (4 * n))))
/-- R254 to R256: a stream instruction with a sound descriptor makes its binding live and leaves the queue; a slot or a queue in use traps with
0x202 and a reserved descriptor with 0x203. `STRMX` waits for, drops or measures a binding. -/
def Obligations.StreamBindings : Prop :=
  ∀ (s s1 s2 : State) (q a k d : Nat) (leg : List Byte),
    let x := s.cx.ar a
    let b := memRead s1.cx.spad (spOff x) 64
    let t := streamDesc b
    let live : Instr → Bool → State → Option (List Byte) → Prop := fun i c u snap =>
      Completes .l i s (withCx u { u.cx with strm := aset u.cx.strm k { desc := b, queue := q, contour := c, snap := snap, seq := s.iss.seq } })
    ((alook s.cx.strm k).isSome ∨ bound s.cx q = true → Traps .l (.strm q a k) s 0x202 (BitVec.ofNat 64 k)
        ∧ Traps .l (.strmc q a k) s 0x202 (BitVec.ofNat 64 k))
      ∧ (alook s.cx.strm k = none → bound s.cx q = false → spFault0 s s.iss.seq 0x201 x 64 = none → x.toNat % 64 = 0 →
          spadMeet s [(spOff x, 64)] = .ok s1 →
          (descBad b false = true → exec (.strm q a k) s = .next (trapAt .l 1 0x203 x s1))
          ∧ (descBad b false = false → t.legend = 0xFFFF → streamFault s1 t false none = none → live (.strm q a k) false s1 none)
          ∧ (descBad b false = false → t.virt = true → t.legend ≠ 0xFFFF → readLegend s1 s1.cur .l t.legend = .ok (leg, s2) →
              streamFault s2 t false (some (legendOf leg)) = none → live (.strm q a k) false s2 (some leg))
          ∧ (descBad b true = false → (∃ l, layoutOf t.layout = some l ∧ (l.tr && l.blk) = false) → streamFault s1 t true none = none →
              live (.strmc q a k) true s1 none))
      ∧ (alook s.cx.strm k = none → Completes .l (.strmxWait k) s s ∧ Completes .l (.strmxRem d k) s (withCx s (s.cx.setA d 0)))
      ∧ (∀ y, alook s.cx.strm k = some y → exec (.strmxWait k) s = .next s
          ∧ Completes .l (.strmxRem d k) s (withCx s (s.cx.setA d (BitVec.ofNat 64 (y.rows - y.pushed)))))
      ∧ Completes .l (.strmxStop k) s (withCx s { s.cx with strm := adel s.cx.strm k })
/-- R254, R255: a binding pushes its rows in order, each the bytes of its next units; after its last row it is gone. -/
def Obligations.StreamRowsPushed : Prop :=
  ∀ (s s1 : State) (x : Stream) (b : List Byte),
    let t := streamDesc x.desc
    let u : State := { s with iss := { seq := x.seq } }
    let addrs := rowAddrs t x.pushed
    let pushes : List Byte → Prop := fun b => ∃ v, exec .streamRowPush s = .next v
      ∧ v.cx.lrows x.queue = s1.cx.lrows x.queue ++ [{ data := padTo 256 b }]
      ∧ (x.rows ≤ x.pushed + 1 → alook v.cx.strm s.inp.sel = none)
      ∧ (x.pushed + 1 < x.rows → alook v.cx.strm s.inp.sel = some { x with pushed := x.pushed + 1 })
      ∧ v = withCx s1 v.cx ∧ v.cx = { s1.cx with lq := v.cx.lq, strm := v.cx.strm }
    alook s.cx.strm s.inp.sel = some x → (mayPush s x = false → exec .streamRowPush s = .next s)
      ∧ (mayPush s x = true →
          (x.contour = false → t.virt = false → spadMeet u (addrs.map fun v => (spOff v, t.e)) = .ok s1 →
              pushes (addrs.flatMap fun v => memRead s1.cx.spad (spOff v) t.e))
          ∧ (x.contour = false → t.virt = true → x.snap = none → virtRead u .l (addrs.map fun v => (v.toNat, t.e)) = .ok b s1 → pushes b)
          ∧ (∀ l, x.contour = true → layoutOf t.layout = some l → spadMeet u (contourRanges t l x.pushed) = .ok s1 →
              pushes (contourRow s1.cx t l x.pushed)))
/-- R128: `MARK.L` and `MARK.S` at the heads of their queues pass together, in one step, once S's stores at earlier positions are performed (L's
loads are performed as they issue); until then, and while either stands alone, both wait, and no binding pushes while L waits at its mark. Where
the partner has been discarded (R397), a mark passes alone. -/
def Obligations.MarksPassTogether : Prop :=
  ∀ (s : State) (x y : Entry),
    let atL := markHead s.cx .l .markL
    let atS := markHead s.cx .s .markS
    let ready := ∀ z ∈ s.cx.statq, z.eng = .s → y.seq ≤ z.seq
    let both := s.cx.skipL = 0 ∧ s.cx.skipS = 0
    (atL = some x → atS = some y → both → ready → ∃ t, t = withCx s t.cx ∧ queuesOnly s.cx t.cx ∧ seqs t.cx.qL = (seqs s.cx.qL).tail
          ∧ seqs t.cx.qS = (seqs s.cx.qS).tail ∧ t.cx.qC = s.cx.qC ∧ t.cx.qV = s.cx.qV
          ∧ exec .markL s = .next t ∧ exec .markS s = .next t
          ∧ (mayIssue s .l = true → mayIssue s .s = true → (s.cx.rep .l).active = false → (s.cx.rep .s).active = false →
              exec .markPairRelease s = .next t))
      ∧ (atL = some x → atS = some y → both → ¬ready → exec .markL s = .next s ∧ exec .markS s = .next s ∧ exec .markPairRelease s = .next s)
      ∧ (atL = some x → atS = none → s.cx.skipS = 0 → exec .markL s = .next s)
      ∧ (atS = some y → atL = none → s.cx.skipL = 0 → exec .markS s = .next s)
      ∧ (atL = some x → 0 < s.cx.skipS → ∃ t, exec .markL s = .next t ∧ t = withCx s t.cx
          ∧ queuesOnly { s.cx with skipS := s.cx.skipS - 1 } t.cx ∧ seqs t.cx.qL = (seqs s.cx.qL).tail ∧ seqs t.cx.qS = seqs s.cx.qS)
      ∧ (atS = some y → atL = none → 0 < s.cx.skipL → ready → ∃ t, exec .markS s = .next t ∧ t = withCx s t.cx
          ∧ queuesOnly { s.cx with skipL := s.cx.skipL - 1 } t.cx ∧ seqs t.cx.qS = (seqs s.cx.qS).tail ∧ seqs t.cx.qL = seqs s.cx.qL)
      ∧ (atL = some x → exec .streamRowPush s = .next s)

/-! ### S: stores -/

/-- R257 to R259, R260, R262: a store takes its rows, writes its enabled elements, raises its register and lowers its counter; one that counts
statistics sends their addition after it. Without a row, or without allowance for its windows, it waits. -/
def Obligations.QueueStores : Prop :=
  ∀ (s : State) (r : Row) (rest : List Row) (a b q g lg layer : Nat) (pi first : Bool) (cc : Option Nat),
    let e : Nat := 2 ^ lg
    let on4 := enabledOf s.cx g r.tag 4
    let one := on4.map fun k => (s.cx.ar a + BitVec.ofNat 64 (4 * k), slice r.data (4 * k) 4)
    let strided := (enabledOf s.cx g r.tag e).map fun k => (s.cx.ar a + BitVec.ofNat 64 k * s.cx.ar b, slice r.data (e * k) e)
    let taken : State → Word → Ctx := fun u v => if pi then (u.cx.setS q ((u.cx.srows q).drop 1)).setA a v else u.cx.setS q ((u.cx.srows q).drop 1)
    let after : List Elt → Word → State := fun l v => let u := storeElems s l; withCx u (taken u v)
    let fine : Nat → List Elt → Option (Word × Nat) → Prop := fun n l w =>
      storeFault s n l w = none ∧ allowFault s.cx s.iss.seq l = none
    let lower : State → Option Nat → State := fun u k => withCx u (lowered u .s k)
    let sum := (on4.map fun k => squareTerm (BitVec.ofNat 32 (fieldAt r.data (4 * k) 4))).sum
    let add : Nat → Nat → Nat → State → State := fun part whole f u =>
      let y : StatAdd := { tenant := u.cx.tenant, layer := layer, role := 3, eng := .s, part := part, whole := whole, first := f,
                           seq := s.iss.seq, cc := if lastIteration u.cx .s then cc else none }
      withCx u { u.cx with statq := u.cx.statq ++ [y] }
    (s.cx.srows q = [] → exec (.stq a q g pi) s = .next s ∧ exec (.stqLong a q g pi cc .none first layer) s = .next s
        ∧ exec (.stqs a b q g pi lg cc) s = .next s)
      ∧ (s.cx.srows q = r :: rest → fine 4 one (some (s.cx.ar a, 64)) →
          (allDepart s.cx s.iss.seq one = false → exec (.stq a q g pi) s = .next s)
          ∧ (allDepart s.cx s.iss.seq one = true →
              Completes .s (.stq a q g pi) s (after one (s.cx.ar a + 256))
              ∧ Completes .s (.stqLong a q g pi cc .none first layer) s (lower (after one (s.cx.ar a + 256)) cc)
              ∧ (governed s.cx = true →
                  Completes .s (.stqLong a q g pi cc .part first layer) s (add sum 0 (if first then 1 else 0) (after one (s.cx.ar a + 256)))
                  ∧ Completes .s (.stqLong a q g pi cc .whole first layer) s (add 0 sum 0 (after one (s.cx.ar a + 256))))
              ∧ (governed s.cx = false → ∀ st, st ≠ .none →
                  (on4 ≠ [] → Traps .s (.stqLong a q g pi cc st first layer) s 0x70D (BitVec.ofNat 64 (layer + 3 * 4096)))
                  ∧ (on4 = [] → Completes .s (.stqLong a q g pi cc st first layer) s (lower (after one (s.cx.ar a + 256)) cc)))))
      ∧ (s.cx.srows q = r :: rest → fine e strided none → allDepart s.cx s.iss.seq strided = true →
          Completes .s (.stqs a b q g pi lg cc) s (lower (after strided (s.cx.ar a + BitVec.ofNat 64 (256 / e) * s.cx.ar b)) cc))
/-- R258, R260 to R262, R398: an indexed store takes its index rows first; `STRW` accumulates each enabled element into its word; an update
without a governor table traps; with nothing enabled a store takes its row, raises its register and touches nothing; a window step counts. -/
def Obligations.OtherStores : Prop :=
  ∀ (s s1 s2 : State) (r : Row) (idx rest : List Row) (a b x q g lg layer w : Nat) (pi : Bool) (op : RedOp) (ty : Ty) (fn : UpdFn)
      (rnd : Rnd) (cc : Option Nat),
    let e : Nat := 2 ^ lg
    let lower : State → State := fun u => withCx u (lowered u .s cc)
    let places := (enabledOf s.cx g r.tag e).map fun k =>
      (s.cx.ar a + BitVec.ofInt 64 (toSigned 32 (fieldAt (idx.flatMap (·.data)) (4 * k) 4) * e), slice r.data (e * k) e)
    let on := enabledOf s.cx g r.tag 4
    let at4 : Nat → Word := fun k => s.cx.ar a + BitVec.ofNat 64 (4 * k)
    let old : Nat → Elem := fun k => BitVec.ofNat 32 (leNat (memRead s1.cx.spad (spOff (at4 k)) 4))
    let row : Nat → Elem := fun k => BitVec.ofNat 32 (fieldAt r.data (4 * k) 4)
    let block := memRead s1.cx.spad (spOff (s.cx.ar b)) 64
    let parts := on.flatMap (updAddrs fn (updBlock block) (s.cx.ar a))
    let up : Word → Word := fun v => wput v 0 16 (wbits v 0 16 + 1)
    let kept := s.cx.hist.findIdx? fun h => h.num = 0x030 + w && s.iss.seq < h.seq
    ((if x = q then (s.cx.srows q)[idx.length]? else (s.cx.srows q).head?) = some r → idx.length = max 1 (4 / e) →
        s.cx.srows x = idx ++ rest → storeFault s e places none = none → allowFault s.cx s.iss.seq places = none →
        allDepart s.cx s.iss.seq places = true →
        let u := storeElems s places
        let c := u.cx.setS x ((u.cx.srows x).drop idx.length)
        Completes .s (.stqx a x q g lg cc) s (lower (withCx u (c.setS q ((c.srows q).drop 1)))))
      ∧ ((s.cx.srows x).length < max 1 (4 / e) → exec (.stqx a x q g lg cc) s = .next s)
      ∧ (s.cx.srows q = [] → exec (.strw a q g pi op ty cc) s = .next s ∧ exec (.upd a b q g fn pi rnd layer cc) s = .next s)
      ∧ (s.cx.srows q = r :: rest → on ≠ [] → spWin (s.cx.ar a) ≠ 0 → Traps .s (.strw a q g pi op ty cc) s 0x301 (s.cx.ar a))
      ∧ (s.cx.srows q = r :: rest → (on ≠ [] → spWin (s.cx.ar a) = 0) →
          (∀ k ∈ on, spFault0 s s.iss.seq 0x301 (at4 k) 4 = none ∧ (at4 k).toNat % 4 = 0) →
          spadMeet s (on.map fun k => (spOff (at4 k), 4)) = .ok s1 → ∃ c, Completes .s (.strw a q g pi op ty cc) s (lower (withCx s1 c))
            ∧ c.srows q = (s1.cx.srows q).drop 1 ∧ c.ar a = (if pi then s1.cx.ar a + 256 else s1.cx.ar a)
            ∧ c = { s1.cx with sq := c.sq, a := c.a, csr := c.csr, spad := c.spad, bad := c.bad } ∧ (∀ n, n ≠ 0x00B → c.cr n = s1.cx.cr n)
            ∧ (∀ k ∈ on, memRead c.spad (spOff (at4 k)) 4 = leBytes 4 (accumulate op ty (old k) (row k)).1.toNat)
            ∧ ∀ o, (∀ k ∈ on, o < spOff (at4 k) ∨ spOff (at4 k) + 4 ≤ o) → memGet c.spad o = memGet s1.cx.spad o)
      ∧ (s.cx.srows q = r :: rest → on ≠ [] → governed s.cx = false → Traps .s (.upd a b q g fn pi rnd layer cc) s 0x70D (BitVec.ofNat 64 layer))
      ∧ (s.cx.srows q = r :: rest → on = [] → ∃ n, (n = 128 ∨ n = 256)
          ∧ (spFault0 s s.iss.seq 0x301 (s.cx.ar b) 64 = none → (s.cx.ar b).toNat % 64 = 0 → s.cx.bad = [] →
              let f := fieldAt (memRead s.cx.spad (spOff (s.cx.ar b)) 64) 0x20 1
              f ≤ 2 → n = 64 * storeBytes f)
          ∧ Completes .s (.upd a b q g fn pi rnd layer cc) s (lower { s with
              cx := if pi then (s.cx.setS q rest).setA a (s.cx.ar a + BitVec.ofNat 64 n) else s.cx.setS q rest, free := s.free + 1 }))
      ∧ (s.cx.srows q = r :: rest → on ≠ [] → governed s.cx = true → spWin (s.cx.ar a) = 0 →
          spFault0 s s.iss.seq 0x301 (s.cx.ar b) 64 = none → (s.cx.ar b).toNat % 64 = 0 →
          spadMeet s [(spOff (s.cx.ar b), 64)] = .ok s1 → updBlockBad block = false →
          (∀ y ∈ parts, spFault0 s1 s1.iss.seq 0x301 y.1 y.2 = none ∧ y.1.toNat % y.2 = 0) →
          spadMeet s1 (parts.map fun y => (spOff y.1, y.2)) = .ok s2 →
          let out := on.foldl (fun (c, fl, m) k =>
            let (c1, f1, m1) := updElem fn (updBlock block) rnd (s2.cx.ar a) r (drawOf s2) c k
            (c1, fl ||| f1, m + m1)) (s2.cx, 0, 0)
          let c1 := setFlags out.1 (out.2.1 &&& (flagInvalid ||| flagDivzero ||| flagOverflow ||| flagUnderflow ||| flagInexact ||| flagZden))
          let c2 := c1.setS q ((c1.srows q).drop 1)
          let c3 := if pi then c2.setA a (s2.cx.ar a + BitVec.ofNat 64 (64 * storeBytes (updBlock block).wf)) else c2
          (out.2.2 = 0 → Completes .s (.upd a b q g fn pi rnd layer cc) s (lower (withCx s2 c3)))
          ∧ (0 < out.2.2 →
              let y : StatAdd := { tenant := c3.tenant, layer := layer, role := 0, eng := .s, nans := out.2.2, seq := s.iss.seq,
                                   cc := if lastIteration c3 .s then cc else none }
              Completes .s (.upd a b q g fn pi rnd layer cc) s (withCx s2 { c3 with statq := c3.statq ++ [y] })))
      ∧ (kept = none → Completes .s (.wstep w) s (withCx s (s.cx.setCr (0x030 + w) (up (s.cx.cr (0x030 + w))))))
      ∧ (∀ k, kept = some k → Completes .s (.wstep w) s
          (withCx s { s.cx with hist := s.cx.hist.modify k fun h => { h with old := up h.old } }))

/-! ### V -/

/-- R279, R281: a register source gives its elements, each the old or the new value while a result is on its way to it and the new value from
the result's bound on; a queue source gives, and loses, sixteen rows; sources are read in order. -/
def Obligations.VectorSources : Prop :=
  ∀ (s : State) (v q : Nat) (x : VLoc) (rest : List VLoc),
    (exposedTo s.cx v = [] → readSrcs s [.reg v] = ([s.cx.vr v], s))
      ∧ (readSrcs s [.reg v]).2 = { s with free := (readSrcs s [.reg v]).2.free }
      ∧ (∀ k, k < 1024 → srcLanes s [.reg v] 0 k = (s.cx.vr v).getD k 0
          ∨ ∃ y ∈ exposedTo s.cx v, y.mask.getLsbD k = true ∧ srcLanes s [.reg v] 0 k = y.data.getD k 0)
      ∧ (∀ y, exposedTo s.cx v = [y] → y.bound ≤ cyclesAt s s.cur → ∀ k, k < 1024 →
          srcLanes s [.reg v] 0 k = if y.mask.getLsbD k then y.data.getD k 0 else (s.cx.vr v).getD k 0)
      ∧ (16 ≤ (s.cx.lrows q).length → (readSrcs s [.queue q]).2 = withCx s (s.cx.setL q ((s.cx.lrows q).drop 16))
          ∧ ∀ k, k < 1024 → srcLanes s [.queue q] 0 k
              = BitVec.ofNat 32 (fieldAt ((s.cx.lrows q).getD (k / 64) { data := [] }).data (4 * (k % 64)) 4))
      ∧ readSrcs s (x :: rest) = ((readSrcs s [x]).1 ++ (readSrcs (readSrcs s [x]).2 rest).1, (readSrcs (readSrcs s [x]).2 rest).2)
/-- R282, R284: V's floating-point instructions give each element its result under the guard, with the flags of the enabled elements. -/
def Obligations.VectorFloat : Prop :=
  ∀ (s : State) (d a b : VLoc) (g k p : Nat) (cond : Cmp),
    let one : Instr → (Elem → Elem) → Prop := fun i f => VWrites i s [a] d g fun x e => (f (x 0 e), 0)
    let two : Instr → (Elem → Elem → Elem × Nat) → Prop := fun i f => VWrites i s [a, b] d g fun x e => f (x 0 e) (x 1 e)
    let three : Instr → (Elem → Elem → Elem → Elem × Nat) → Prop := fun i f =>
      VWrites i s [a, b, d] d g fun x e => f (x 0 e) (x 1 e) (x 2 e)
    let flip : Elem → Elem := fun x => x ^^^ 0x80000000#32
    two (.vadd d a b g) addFp32 ∧ two (.vsub d a b g) subFp32 ∧ two (.vmul d a b g) mulFp32 ∧ two (.vmin d a b g) minFp32
      ∧ two (.vmax d a b g) maxFp32 ∧ three (.vfma d a b g) fmaFp32 ∧ three (.vfms d a b g) (fun x y z => fmaFp32 x y (flip z))
      ∧ three (.vnma d a b g) (fun x y z => fmaFp32 (flip x) y z)
      ∧ one (.vabs d a g) (fun x => if isNan32 x then 0x7FC00000#32 else x &&& 0x7FFFFFFF#32)
      ∧ one (.vneg d a g) (fun x => if isNan32 x then 0x7FC00000#32 else flip x)
      ∧ VWrites (.vsel d a b k) s [a, b] d 0 (fun x e => (if (s.cx.pr k).getLsbD e then x 0 e else x 1 e, 0))
      ∧ VCompares (.vcmp cond p a b g) s p a b g fun x y =>
          match cond with
          | .eq => eqFp32 x y
          | .ne => !eqFp32 x y
          | .lt => ltFp32 x y
          | .le => ltFp32 x y || eqFp32 x y
          | .gt => ltFp32 y x
          | .ge => ltFp32 y x || eqFp32 x y
          | .un => isNan32 x || isNan32 y
/-- R283 to R285: V's integer instructions work on whole elements, or on the two halves of each for `.i16x2`, and wrap; the saturating ones
clamp and set isat; add-compare-select keeps the greater of two saturated sums and records which it was. -/
def Obligations.VectorInteger : Prop :=
  ∀ (s : State) (d a b : VLoc) (g p : Nat) (cond : Cmp) (ty : Ty),
    let hi : Elem → BitVec 16 := fun x => x.extractLsb' 16 16
    let lo : Elem → BitVec 16 := fun x => x.extractLsb' 0 16
    let lanes : ((w : Nat) → BitVec w → BitVec w → BitVec w) → Elem → Elem → Elem := fun f x y =>
      if ty = .i16x2 then f 16 (hi x) (hi y) ++ f 16 (lo x) (lo y) else f 32 x y
    let two : Instr → ((w : Nat) → BitVec w → BitVec w → BitVec w) → Prop := fun i f =>
      VWrites i s [a, b] d g fun x e => (lanes f (x 0 e) (x 1 e), 0)
    let less : (w : Nat) → BitVec w → BitVec w → Bool := fun _ x y => if ty = .b32 then x.ult y else x.slt y
    let num : (w : Nat) → BitVec w → Int := fun _ x => if ty = .b32 then x.toNat else x.toInt
    let clamp : (w : Nat) → Int → BitVec w × Bool := fun w v =>
      let low : Int := if ty = .b32 then 0 else -(2 ^ (w - 1) : Nat)
      let top : Int := if ty = .b32 then (2 ^ w - 1 : Nat) else (2 ^ (w - 1) - 1 : Nat)
      (BitVec.ofInt w (max low (min top v)), decide (v < low ∨ top < v))
    let sat : Instr → (Int → Int → Int) → Prop := fun i f => VWrites i s [a, b] d g fun x e =>
      if ty = .i16x2 then
        let u := clamp 16 (f (num 16 (hi (x 0 e))) (num 16 (hi (x 1 e))))
        let v := clamp 16 (f (num 16 (lo (x 0 e))) (num 16 (lo (x 1 e))))
        (u.1 ++ v.1, if u.2 || v.2 then 64 else 0)
      else
        let v := clamp 32 (f (num 32 (x 0 e)) (num 32 (x 1 e)))
        (v.1, if v.2 then 64 else 0)
    let s16 : Int → Int → Int := fun x y => max (-32768) (min 32767 (x + y))
    let sums : Elem → Elem → (Int × Int) × (Int × Int) := fun x m =>
      ((s16 (lo x).toInt (lo m).toInt, s16 (hi x).toInt (hi m).toInt), (s16 (lo x).toInt (hi m).toInt, s16 (hi x).toInt (lo m).toInt))
    let r := (readSrcs s [a, b]).2
    let butterfly : Nat → (Int × Int) × (Int × Int) := fun k => sums (srcLanes s [a, b] 0 k) (srcLanes s [a, b] 1 k)
    two (.viadd ty d a b g) (fun _ x y => x + y) ∧ two (.visub ty d a b g) (fun _ x y => x - y) ∧ two (.vimul ty d a b g) (fun _ x y => x * y)
      ∧ two (.vand ty d a b g) (fun _ x y => x &&& y) ∧ two (.vor ty d a b g) (fun _ x y => x ||| y)
      ∧ two (.vxor ty d a b g) (fun _ x y => x ^^^ y) ∧ two (.vshl ty d a b g) (fun w x y => x <<< (y.toNat % w))
      ∧ two (.vshr ty d a b g) (fun w x y => x >>> (y.toNat % w)) ∧ two (.vsra ty d a b g) (fun w x y => x.sshiftRight (y.toNat % w))
      ∧ two (.vimin ty d a b g) (fun w x y => if less w x y then x else y)
      ∧ two (.vimax ty d a b g) (fun w x y => if less w x y then y else x)
      ∧ VWrites (.vimad ty d a b g) s [a, b, d] d g
          (fun x e => (lanes (fun _ x y => x + y) (lanes (fun _ x y => x * y) (x 0 e) (x 1 e)) (x 2 e), 0))
      ∧ VWrites (.vnot ty d a g) s [a] d g (fun x e => (~~~x 0 e, 0))
      ∧ sat (.vsadd ty d a b g) (fun x y => x + y) ∧ sat (.vssub ty d a b g) (fun x y => x - y)
      ∧ VCompares (.vicmp ty cond p a b g) s p a b g (fun x y =>
          match cond with
          | .eq => x == y
          | .ne => x != y
          | .lt => less 32 x y
          | .le => !less 32 y x
          | .gt => less 32 y x
          | .ge => !less 32 x y
          | .un => false)
      ∧ (srcsReady s.cx [a, b] = true → dstReady s.cx d 16 = true → ∃ c, Completes .v (.vacs d a b p) s (withCx r c)
          ∧ c.csr = r.cx.csr ∧ Delivered r.cx { c with p := r.cx.p } d 0 (fun k =>
              BitVec.ofInt 16 (max (butterfly k).2.1 (butterfly k).2.2) ++ BitVec.ofInt 16 (max (butterfly k).1.1 (butterfly k).1.2))
          ∧ (p = 0 → c.p = r.cx.p) ∧ (∀ j, j ≠ p → j ≠ p + 1 → c.pr j = r.cx.pr j)
          ∧ (p ≠ 0 → ∀ k, k < 1024 → (c.pr p).getLsbD k = decide ((butterfly k).1.1 < (butterfly k).1.2)
              ∧ (c.pr (p + 1)).getLsbD k = decide ((butterfly k).2.1 < (butterfly k).2.2)))
/-- R286 to R289: conversion converts each element; quantisation writes the rows of blocks and, with a role, sends their statistics to the
governor table, or traps with 0x70D where the tenant has none; dequantisation reads the rows back, or takes a data-format fault (0x710). -/
def Obligations.VectorConversions : Prop :=
  ∀ (s : State) (dst src : Ty) (mode : Rnd) (d a : VLoc) (g bs layer ro : Nat) (f : EFmt) (role : Option Nat),
    let r := (readSrcs s [a]).2
    let x := srcLanes s [a] 0
    let row := fun k => quantiseRow f (blockSize bs) mode (fun c => drawOf s (64 * k + c)) ((List.range 64).map fun c => val32 (x (64 * k + c)))
    let total : StatAdd := statOf layer ro (((List.range 16).map row).foldl (fun m q => m.add q.2.1) {})
    let rows := (List.range 16).map fun k => (List.range 64).map fun c => x (64 * k + c)
    let ready := srcsReady s.cx [a] = true ∧ dstReady s.cx d 16 = true
    VWrites (.vcvt dst src mode d a g) s [a] d g (fun x e =>
        let code := (x 0 e).toNat % 2 ^ tyWidth src
        let v := tyDecode src code
        if dst = src ∧ v ≠ .nan then (BitVec.ofNat 32 code, 0)
        else (BitVec.ofNat 32 (tyEncode dst mode (drawOf s e) v).1, (tyEncode dst mode (drawOf s e) v).2))
      ∧ (¬ready → exec (.vqnt f bs mode role layer d a) s = .next s ∧ exec (.vdqnt d a) s = .next s)
      ∧ (ready → governed s.cx = false → Traps .v (.vqnt f bs mode (some ro) layer d a) s 0x70D (BitVec.ofNat 64 (layer + 4096 * ro)))
      ∧ (ready → ∃ c, Delivered r.cx c d 0 (fun k => BitVec.ofNat 32 (fieldAt (padTo 256 (row (k / 64)).1) (4 * (k % 64)) 4))
          ∧ Flagged r.cx c (BitVec.allOnes 1024) (fun k => (row (k / 64)).2.2)
          ∧ Completes .v (.vqnt f bs mode none layer d a) s (withCx r c)
          ∧ (governed s.cx = true → Completes .v (.vqnt f bs mode (some ro) layer d a) s
              (withCx r { c with statq := c.statq ++ [{ total with tenant := r.cx.tenant, seq := s.iss.seq }] })))
      ∧ (ready → match dequantise rows 0 with
          | .ok l => ∃ c, Completes .v (.vdqnt d a) s (withCx r c) ∧ Delivered r.cx c d 0 (fun k => l.getD k 0) ∧ c.csr = r.cx.csr
          | .error (k, header) => exec (.vdqnt d a) s = .next (takeTrap
              (withCx s { s.cx with report := some (.v, s.iss.seq), lineTrap := false })
              { cls := 1, code := 0x710, eng := 4, lane := s.iss.lane, seq := s.iss.seq, tval := BitVec.ofNat 64 k, epc := s.cx.fetch,
                sub := 1, addr := k, value := header }))
/-- R281, R290, R291: special functions and axis operations expose their results with the bound of Table 6.14; they are on their way when the
instruction has been performed and land later, in order for each destination; an element that the other of V and M has written meanwhile then
holds one of the two values (R297). -/
def Obligations.VectorExposed : Prop :=
  ∀ (s : State) (d a b : VLoc) (k g : Nat) (op : RedOp) (ty : Ty) (e : Exposed),
    let one : Instr → Nat → (Elem → Elem × Nat) → Prop := fun i l f => VExposes i s [a] d g l fun x n => f (x 0 n)
    let from' : Instr → Nat → (Nat → Nat → Nat) → Prop := fun i l f => VExposes i s [a] d g l fun x n => (x 0 (f (n / 64) (n % 64)), 0)
    let o := accumulateV op ty
    let rest := s.cx.exposed.eraseIdx s.inp.sel
    one (.vsqrt d a g) 14 sqrtFp32 ∧ one (.vrsq d a g) 10 rsqFp32 ∧ one (.vrcp d a g) 10 rcpFp32 ∧ one (.vexp2 d a g) 12 exp2Fp32
      ∧ one (.vlog2 d a g) 12 log2Fp32 ∧ VExposes (.vdiv d a b g) s [a, b] d g 14 (fun x n => divFp32 (x 0 n) (x 1 n))
      ∧ from' (.vrotr d a k g) 2 (fun r c => 64 * r + (c + k) % 64) ∧ from' (.vrotc d a k g) 6 (fun r c => 64 * ((r + k) % 16) + c)
      ∧ from' (.vbcr d a k g) 2 (fun r _ => 64 * r + k) ∧ from' (.vbcc d a k g) 6 (fun _ c => 64 * k + c)
      ∧ VExposes (.vredr op ty d a g) s [a] d g 4 (fun x n => treeRed o 6 ((List.range 64).map fun c => (x 0 (64 * (n / 64) + c), 0)))
      ∧ VExposes (.vredc op ty d a g) s [a] d g 8 (fun x n => treeRed o 4 ((List.range 16).map fun r => (x 0 (64 * r + n % 64), 0)))
      ∧ VExposes (.vscnr op ty d a g) s [a] d g 4 (fun x n => (List.range (n % 64)).foldl
          (fun z c => o z.1 (x 0 (64 * (n / 64) + c + 1))) (x 0 (64 * (n / 64)), 0))
      ∧ (s.cx.exposed[s.inp.sel]? = some e → tileRuns s = true →
          ((∃ y ∈ s.cx.exposed.take s.inp.sel, y.dest = e.dest) → exec .exposedResultLand s = .next s)
          ∧ ((∀ y ∈ s.cx.exposed.take s.inp.sel, y.dest ≠ e.dest) → ∃ t c, exec .exposedResultLand s = .next t
              ∧ t = { withCx s c with free := t.free }
              ∧ (∀ v, e.dest = .reg v → c = { overwrite { s.cx with exposed := rest } e.eng v e.mask with v := c.v }
                  ∧ (∀ w, w ≠ v → c.vr w = s.cx.vr w)
                  ∧ ∀ n, n < 1024 → (e.mask.getLsbD n = false → (c.vr v).getD n 0 = (s.cx.vr v).getD n 0)
                    ∧ (e.mask.getLsbD n = true → e.raced.getLsbD n = false → (c.vr v).getD n 0 = e.data.getD n 0)
                    ∧ ((c.vr v).getD n 0 = (s.cx.vr v).getD n 0 ∨ (c.vr v).getD n 0 = e.data.getD n 0))
              ∧ (∀ q, e.dest = .queue q → e.data.length = 1024 → c = { s.cx with exposed := rest, sq := c.sq }
                  ∧ (∀ w, w ≠ q → c.srows w = s.cx.srows w)
                  ∧ c.srows q = s.cx.srows q ++ (List.range 16).map fun r =>
                      { data := (List.range 64).flatMap fun j => leBytes 4 (e.data.getD (64 * r + j) 0).toNat, tag := r })))
/-- R292, R294 to R296: moves, constants, gathers, scatters, partitions and packing. -/
def Obligations.VectorMoves : Prop :=
  ∀ (s : State) (d a b : VLoc) (v p q g w : Nat) (imm : Int) (sx : Bool),
    let all : (Nat → Nat → Elem) → List Elem := fun x => (List.range 1024).map (x 0)
    let on := (List.range 1024).filter fun e => (s.cx.pr g).getLsbD e
    let yes := on.filter fun e => (s.cx.pr q).getLsbD e
    let no := on.filter fun e => !(s.cx.pr q).getLsbD e
    VWrites (.vmov d a g) s [a] d g (fun x e => (x 0 e, 0)) ∧ VWrites (.vxfer d a g) s [a] d g (fun x e => (x 0 e, 0))
      ∧ VWrites (.vmovi v imm) s [] (.reg v) 0 (fun _ _ => (BitVec.ofInt 32 imm, 0))
      ∧ VWrites (.viota d g) s [] d g (fun _ e => (BitVec.ofNat 32 e, 0))
      ∧ VWrites (.vgath d a b g) s [a, b] d g (fun x e => (if (x 1 e).toNat < 1024 then x 0 (x 1 e).toNat else 0, 0))
      ∧ VWrites (.vscat d a b g) s [a, b, d] d 0 (fun x e =>
          (match (List.range 1024).reverse.find? fun k => (s.cx.pr g).getLsbD k && (x 1 k).toNat == e with
            | some k => x 0 k
            | none => x 2 e, 0))
      ∧ VWrites (.vpack d a w) s [a] d 0 (fun x e => (packV (16 / 2 ^ w) (all x)).getD e (0, 0))
      ∧ VWrites (.vunpk d a w sx) s [a] d 0 (fun x e => (unpackV (16 / 2 ^ w) sx (all x)).getD e (0, 0))
      ∧ (dstReady s.cx d 16 = false → exec (.vpart d p q g) s = .next s)
      ∧ (dstReady s.cx d 16 = true → ∃ c, Completes .v (.vpart d p q g) s (withCx s c) ∧ c.csr = s.cx.csr
          ∧ Delivered s.cx { c with p := s.cx.p } d 0 (fun k => ((yes ++ no).map (BitVec.ofNat 32)).getD k (BitVec.allOnes 32))
          ∧ (∀ j, j ≠ p ∨ p = 0 → c.pr j = s.cx.pr j) ∧ (p ≠ 0 → ∀ k, k < 1024 → (c.pr p).getLsbD k = decide (k < yes.length)))
/-- R276, R293: predicates are set, combined, counted and searched; `p0` stays all-true. -/
def Obligations.PredicateResults : Prop :=
  ∀ (s : State) (d p a b k : Nat) (n : Bool),
    let sets : Instr → (Nat → Bool) → Prop := fun i f => ∃ c, Completes .v i s (withCx s c) ∧ c = { s.cx with p := c.p }
      ∧ (∀ j, j ≠ p ∨ p = 0 → c.pr j = s.cx.pr j) ∧ (p ≠ 0 → ∀ e, e < 1024 → (c.pr p).getLsbD e = f e)
    let x := fun e => (s.cx.pr a).getLsbD e
    let y := fun e => (s.cx.pr b).getLsbD e != n
    let count : Nat → Nat → Nat := fun low len => ((List.range len).filter fun e => (s.cx.pr p).getLsbD (low + e)).length
    let first : Nat → Nat → Nat → Prop := fun low len m => m ≤ len ∧ (∀ e, e < m → (s.cx.pr p).getLsbD (low + e) = false)
      ∧ (m < len → (s.cx.pr p).getLsbD (low + m) = true)
    sets (.psetNone p) (fun _ => false) ∧ sets (.psetAll p) (fun _ => true) ∧ sets (.psetRow p k) (fun e => decide (e / 64 = k))
      ∧ sets (.psetCol p k) (fun e => decide (e % 64 = k)) ∧ sets (.pand p a b n) (fun e => x e && y e)
      ∧ sets (.por p a b n) (fun e => x e || y e) ∧ sets (.pxor p a b n) (fun e => x e != y e) ∧ sets (.pnot p a) (fun e => !x e)
      ∧ VWrites (.pcntRow d p) s [] (.reg d) 0 (fun _ e => (BitVec.ofNat 32 (count (64 * (e / 64)) 64), 0))
      ∧ VWrites (.pcntAll d p) s [] (.reg d) 0 (fun _ _ => (BitVec.ofNat 32 (count 0 1024), 0))
      ∧ (∃ m : Nat → Nat, (∀ r, r < 16 → first (64 * r) 64 (m r))
          ∧ VWrites (.pfstRow d p) s [] (.reg d) 0 fun _ e => (BitVec.ofNat 32 (m (e / 64)), 0))
      ∧ (∃ m, first 0 1024 m ∧ VWrites (.pfstAll d p) s [] (.reg d) 0 fun _ _ => (BitVec.ofNat 32 m, 0))

/-! ### M -/

/-- R297, R298, R306 to R308: accumulators are cleared, read, written and permuted, element by element; an access past the allotment traps
with 0x707, and one to an accumulator that an issued `MMA` names waits. -/
def Obligations.MatrixTransfers : Prop :=
  ∀ (s : State) (n k d q t v cap : Nat) (rows : Bool) (r : Row) (rest : List Row),
    let inside : Nat → Nat → Prop := fun n k => n + k ≤ s.cx.accCount
    let idle : Nat → Nat → Prop := fun n k => accBusy s.cx n k = false
    let one : List Instr := [.mrd d n q, .mrdQueue q n t, .mwr n v q]
    let x : Nat → Elem := fun e => (s.cx.ac n).getD e 0
    let sel : Nat → Nat := fun k => (r.data.getD k 0).toNat
    let at' : Nat → Nat → Nat := fun i j => 16 * i + j
    (¬inside n k → Traps .m (.mzero n k) s 0x707 (BitVec.ofNat 64 (max n s.cx.accCount)))
      ∧ (¬inside n 1 → ∀ i ∈ one, Traps .m i s 0x707 (BitVec.ofNat 64 (max n s.cx.accCount)))
      ∧ (inside n k → ¬idle n k → exec (.mzero n k) s = .next s) ∧ (inside n 1 → ¬idle n 1 → ∀ i ∈ one, exec i s = .next s)
      ∧ (inside n k → idle n k → ∃ c, Completes .m (.mzero n k) s (withCx s c) ∧ c = { s.cx with acc := c.acc, badR := c.badR }
          ∧ ∀ j, c.ac j = if n ≤ j ∧ j < n + k then List.replicate 256 0 else s.cx.ac j)
      ∧ (inside n 1 → idle n 1 →
          (∃ mask l, Completes .m (.mrd d n q) s (withCx s { s.cx with exposed := s.cx.exposed
                ++ [⟨.reg d, mask, l, .m, s.iss.seq, cyclesAt s s.cur + 8, 0⟩] })
              ∧ ∀ i c, i < 16 → c < 64 → mask.getLsbD (64 * i + c) = decide (c / 16 = q)
                  ∧ (c / 16 = q → l.getD (64 * i + c) 0 = x (at' i (c % 16))))
          ∧ (dstReady s.cx (.queue q) 4 = false → exec (.mrdQueue q n t) s = .next s)
          ∧ (dstReady s.cx (.queue q) 4 = true → Completes .m (.mrdQueue q n t) s (withCx s (s.cx.setS q (s.cx.srows q
              ++ (List.range 4).map fun k => { data := (List.range 64).flatMap fun j => leBytes 4 (x (64 * k + j)).toNat, tag := 4 * t + k }))))
          ∧ ∃ c, Completes .m (.mwr n v q) s (withCx (readRegM s v).2 c) ∧ c = { s.cx with acc := c.acc, badR := c.badR } ∧ (∀ j, j ≠ n → c.ac j = s.cx.ac j)
              ∧ ∀ i j, i < 16 → j < 16 → (c.ac n).getD (at' i j) 0 = (readRegM s v).1.getD (64 * i + 16 * q + j) 0)
      ∧ (∀ k, k < 1024 → (readRegM s v).1.getD k 0 = (readReg s v).1.getD k 0
          ∨ ∃ w ∈ s.cx.vlast, w.reg = v ∧ w.mask.getLsbD k = true ∧ cyclesAt s s.cur < w.till ∧ (readRegM s v).1.getD k 0 = w.old.getD k 0)
      ∧ (exposedTo s.cx v = [] → (∀ w ∈ s.cx.vlast, w.reg ≠ v) → (readRegM s v).1 = s.cx.vr v)
      ∧ (inside n 1 → inside d 1 → idle n 1 → idle d 1 → (∀ m ∈ s.cx.mops, q ∉ m.queues) → s.cx.lrows q = r :: rest →
          (∀ k, k < 16 → (∀ j, j < k → sel j / 16 % 8 = 0) → sel k / 16 % 8 ≠ 0 → Traps .m (.mperm d n q rows) s 0x504 (BitVec.ofNat 64 k))
          ∧ ((∀ k, k < 16 → sel k / 16 % 8 = 0) → (s.cx.granted = 0 → exec (.mperm d n q rows) s = .next s)
              ∧ (s.cx.granted ≠ 0 → ∃ c, Completes .m (.mperm d n q rows) s (giveSpans 16 (withCx s c))
                  ∧ c = { s.cx with acc := c.acc, badR := c.badR, lq := (s.cx.setL q rest).lq } ∧ (∀ j, j ≠ d → c.ac j = s.cx.ac j)
                  ∧ ∀ i j, i < 16 → j < 16 → let y := sel (if rows then i else j)
                      (c.ac d).getD (at' i j) 0 = if 128 ≤ y then 0 else if rows then x (at' (y % 16) j) else x (at' i (y % 16)))))
      ∧ (giveSpans k s).cx = { s.cx with granted := 0, occupied := s.cx.occupied + k }
      ∧ (wbits (dieAt s (dieOf s.cur)).slewcfg 0 16 = 0 → MemorySame s (giveSpans k s))
      ∧ Completes .m (.mspan cap) s (withCx s (s.cx.setCr 0x00F (wput (s.cx.cr 0x00F) 8 4 cap)))
/-- R159, R298, R303: `MMA` issues with its spans, which the tile gives to waiting instructions as powers of two; it takes its rows as they come
and, with both tiles whole, forms every element of its accumulator, gives up its spans and lowers its counter. -/
def Obligations.MatrixProduct : Prop :=
  ∀ (s : State) (n qa qb kq req pat K p slot want : Nat) (ta tb : MTy) (cc : Option Nat) (m m1 m2 : MOp) (c1 c2 : Ctx) (A B : List OpRow),
    let i : Instr := .mma n ta tb qa qb kq req pat cc
    let fine := classMix ta tb = false ∧ passMisuse ta tb pat = false ∧ n + 1 ≤ s.cx.accCount
    let before := s.cx.mops.take s.inp.sel
    let needs := mmaNeeds ta tb kq (qa = qb) m2.rowsA m2.rowsB
    let whole := needs.1 = some m2.rowsA.length ∧ needs.2 = some m2.rowsB.length
    let s0 := settle (withCx s c2) s.cur
    let c := { s0.cx with mops := s0.cx.mops.eraseIdx s.inp.sel }
    let s1 := afterRelease (withCx s0 c) s.cx.tenant m2.spans
    let element : Nat → Elem × Nat := fun e => mmaElem ta tb pat K (A.getD (e / 16) (.plain [])) (B.getD (e % 16) (.plain [])) ((c2.ac n).getD e 0)
    let t := tileOf s.cur
    let g := 2 ^ Nat.log2 (min want (spansFree s t))
    (classMix ta tb = true → Traps .m i s 0x501 (extOf i))
      ∧ (classMix ta tb = false → passMisuse ta tb pat = true → Traps .m i s 0x502 (extOf i))
      ∧ (fine → s.cx.granted = 0 → exec i s = .next s)
      ∧ (fine → s.cx.granted ≠ 0 → Completes .m i s (withCx s { s.cx with
            mops := s.cx.mops ++ [{ instr := i, seq := s.iss.seq, spans := s.cx.granted, since := s.now }], granted := 0 }))
      ∧ (s.cx.mops[s.inp.sel]? = some m → m.instr = i → tileRuns s = true →
          (∀ x ∈ before, n ∉ x.acc ∧ qa ∉ x.queues ∧ qb ∉ x.queues) →
          gather ta tb qa qb kq m s.cx = (m1, c1) → gather ta tb qa qb kq m1 c1 = (m2, c2) →
          (needs.1 = none → exec .mmaPerform s = .next (withCx s { c2 with mops := c2.mops.set s.inp.sel m2 }))
          ∧ (whole → mmaTiles ta tb qa qb kq m2 = .ok (A, B, K) → ∃ c' : Ctx, exec .mmaPerform s = .next (withCx s1 (c'.ccComplete cc .m m2.seq)) ∧ s1.cx = c
              ∧ s0.cx = { c2 with since := s0.cx.since, mops := s0.cx.mops, occupied := s0.cx.occupied, acct := s0.cx.acct }
              ∧ s0.cx.mops.map (fun o => (o.instr, o.seq, o.spans)) = c2.mops.map (fun o => (o.instr, o.seq, o.spans))
              ∧ c' = { c with acc := c'.acc, badR := c'.badR, csr := c'.csr } ∧ (∀ j, j ≠ n → c'.ac j = c2.ac j)
              ∧ (∀ e, e < 256 → (c'.ac n).getD e 0 = (element e).1)
              ∧ (∀ j, j < 64 → ((c'.cr 0x00B).getLsbD j = true ↔
                    (c2.cr 0x00B).getLsbD j = true ∨ ∃ e, e < 256 ∧ (element e).2.testBit j = true))))
      ∧ (tileRuns s = true → ∃ u, exec .spanArbitration s = .next u
          ∧ (∀ p, let c := ctxAt u p
              c = { ctxAt s p with granted := c.granted, slopeWait := c.slopeWait, since := c.since, mops := c.mops, occupied := c.occupied, acct := c.acct })
          ∧ (∀ p, (ctxAt u p).granted ≠ (ctxAt s p).granted → ∃ r j, spanWant s p = some r ∧ (ctxAt u p).granted = 2 ^ j ∧ 2 ^ j ≤ r))
      ∧ (tileRuns s = true → slot < 8 → p = slotPlace s.cur slot → p ∈ residents s t → spanWant s p = some want → want ≠ 0 → spansFree s t ≠ 0 →
          (∀ p', p' ∈ residents s t → p' ≠ p → spanWant s p' = none) → riseHeld s t g = false →
          ∃ u, exec .spanArbitration s = .next u ∧ (ctxAt u p).granted = g)
/-- R304: an `MMAV` without a legend that has its spans and its rows of A reads sixteen rows of B from memory and forms a column of its
accumulator from each; it then gives up A's rows and its spans, and lowers its counter. -/
def Obligations.MatrixFromMemory : Prop :=
  ∀ (s s1 s2 : State) (n a b q kq req hb : Nat) (ta tb : MTy) (cc : Option Nat) (r : Row) (rest : List Row) (sb : Shape) (rowsA : List OpRow),
    let i : Instr := .mmav n ta tb a b q kq req cc
    let base := operand s 0 a
    let stride := toSigned 32 (operand s 1 b).toNat
    let sa := (shapeOf ta (some r)).getD .bad
    let k := (runClass ta tb false sa (some sb)).map fun c => tileK c kq
    let t := tileRows sa k
    let x : Mmav := { n := n, ta := ta, tb := tb, base := base, stride := stride, legend := 0xFFFF, snap := none, a := rowsA, shape := sb, k := k.getD 0 }
    let idle := classMix ta tb = false ∧ passMisuse ta tb 0 = false ∧ n + 1 ≤ s.cx.accCount ∧ accBusy s.cx n 1 = false ∧ ∀ m ∈ s.cx.mops, q ∉ m.queues
    let z := { withCx s2 ({ (s2.cx.setCr 0x00F (wput (wput (s2.cx.cr 0x00F) 63 1 0) 0 5 0)) with heldSnap := none }.setL q ((s2.cx.lrows q).drop t)) with free := s2.free + 1 }
    let u := giveSpans (Config.freeNat s2.free) z
    (classMix ta tb = true → Traps .m i s 0x501 (extOf i))
      ∧ (classMix ta tb = false → passMisuse ta tb 0 = false → s.cx.accCount < n + 1 → Traps .m i s 0x707 (BitVec.ofNat 64 (max n s.cx.accCount)))
      ∧ (idle → 32 < mmavRowsA s.cx ta tb q kq → Traps .m i s 0x503 (BitVec.ofNat 64 (mmavRowsA s.cx ta tb q kq)))
      ∧ (idle → mmavRowsA s.cx ta tb q kq ≤ 32 → wbits (operand s 1 b) 32 16 = 0xFFFF → s.cx.lrows q = [] → exec i s = .next s)
      ∧ (idle → mmavRowsA s.cx ta tb q kq ≤ 32 →
          bitOf (s.cx.cr 0x00F).toNat 63 = false → wbits (operand s 1 b) 32 16 = 0xFFFF → s.cx.lrows q = r :: rest → canonical base = true →
          mmavShape tb none 0xFFFF base s = .ok (sb, hb, s1) → t ≤ 32 → t ≤ rest.length + 1 →
          (∀ j, j < 16 → canonical (base + BitVec.ofInt 64 (j * stride)) = true) → s1.cx = s.cx → s.cx.granted ≠ 0 → sa ≠ .bad → sb ≠ .bad →
          pairOk ta tb sa sb (k.getD 0) = true → tileOfRows ta sa (k.getD 0) ((r :: rest).take t) = .ok rowsA →
          mmavColumns x 16 0 s1 = (.whole, s2) → s2.iss = s.iss → Completes .m i s (withCx u (lowered u .m cc)))
      ∧ ∀ (c : Ctx) (j : Nat) (row : OpRow) (e : Nat), e < 256 → ((mmavColumn x j row c).ac n).getD e 0 =
          if e % 16 = j then (mmaElem ta tb 0 (k.getD 0) (rowsA.getD (e / 16) (.plain [])) row ((c.ac n).getD e 0)).1 else (c.ac n).getD e 0

/-! ### X -/

/-- R264 to R266, R269: a copy whose operands pass their checks takes the lowest free slot and leaves X's queue, with a claim of a ring slot
where it names a ring; one of 0 bytes or rows is performed at once; with no slot free it waits, and a bad operand traps with nothing
started. -/
def Obligations.CopiesStart : Prop :=
  ∀ (s s1 : State) (a b k n : Nat) (ext : CopyExt) (dv sv vm : Bool) (l : Layout) (snap : List Byte) (set : Setting),
    let dst := operand s 0 a
    let src := operand s 1 b
    let len := operand s 2 ext.len
    let aux := operand s 3 ext.aux
    let ring := operand s 4 ext.ring
    let cpy : Instr := .cpy dv sv a b ext
    let full : Prop := freeKey s.cx.copies 16 = none
    let free : Prop := freeKey s.cx.copies 16 = some k
    let begun : Copy → Prop := fun y => y.cc = ext.cc ∧ y.seq = s.iss.seq ∧ y.bb = none ∧ y.moved = 0 ∧ y.unacked = 0 ∧ y.refused = 0
      ∧ y.done = [] ∧ y.reading = [] ∧ y.data = [] ∧ y.whole = none
    let starts : Instr → State → Nat → (Copy → Prop) → Prop := fun i u rest p =>
      (rest = 0 → Completes .x i s (withCx u (lowered u .x ext.cc)))
        ∧ (rest ≠ 0 → ∃ y, Completes .x i s (withCx u { u.cx with copies := aset u.cx.copies k y }) ∧ begun y ∧ y.rest = rest
          ∧ y.ring = none ∧ p y)
    let linear : Nat → Bool → Copy → Prop := fun kind d y => y.kind = kind ∧ y.src = src ∧ y.dst = dst ∧ y.srcVm = sv ∧ y.dstVm = d
    let sides : Prop := len.toNat < 2 ^ 32 ∧ ext.bb = 0 ∧ sideFault s sv false src len.toNat = none
    let tile : Word := BitVec.ofNat 64 l.base
    let layouts : Bool → Prop := fun store => layoutOf aux.toNat = some l ∧ (l.tr && l.blk) = false ∧ ext.bb = 0 ∧ ext.ring = 0
      ∧ sideFault s false (!store) tile l.bytes = none
      ∧ ∀ r, r < 2 ^ l.rb → sideFault s vm store (dst + BitVec.ofNat 64 r * len) (l.unit * 2 ^ l.cb) = none
    let leg := legendOf snap
    let rowsFit : Prop := governed s.cx = true ∧ readLegend s s.cur .x (wbits src 0 16) = .ok (snap, s1) ∧ settingOf leg.cur = some set
      ∧ wbits src 16 32 + len.toNat ≤ leg.rows ∧ wbits src 48 16 = 0 ∧ ext.bb = 0 ∧ ext.ring = 0 ∧ s1.cx = s.cx ∧ s1.iss = s.iss
      ∧ rowsFault leg (set.rowBytes leg.ext0) len.toNat (wbits src 16 32) = none
    let claim := leNat (memRead s1.cx.spad (spOff ring + 4) 4)
    let slot := spOff ring + 64 + 16 * (claim % n)
    let claimed : Nat → Ctx := fun status => spadWrite (spadWrite s1.cx slot (leBytes 4 claim ++ leBytes 4 0 ++ leBytes 4 status ++ leBytes 4 0))
      (spOff ring + 4) (leBytes 4 (claim + 1))
    (2 ^ 32 ≤ len.toNat → Traps .x cpy s 0x601 len ∧ Traps .x (.cpyn sv a b ext) s 0x601 len)
      ∧ (sides → ext.ring = 0 → sideFault s dv true dst len.toNat = none → full → exec cpy s = .next s)
      ∧ (sides → ext.ring = 0 → sideFault s dv true dst len.toNat = none → free → starts cpy s len.toNat fun y => linear 1 dv y
          ∧ y.wins = sideWins s sv [src] (sideWins s dv [dst] []))
      ∧ (sides → ext.ring = 0 → virtFault dst len.toNat = none → full → exec (.cpyn sv a b ext) s = .next s)
      ∧ (sides → ext.ring = 0 → virtFault dst len.toNat = none → free → starts (.cpyn sv a b ext) s len.toNat fun y => linear 3 true y ∧ y.aux = aux)
      ∧ (sides → ext.ring ≠ 0 → sideFault s dv true dst len.toNat = none → ringFault s ring = none → free →
          spadMeet s [(spOff ring, 12)] = .ok s1 → n = leNat (memRead s1.cx.spad (spOff ring) 4) →
          let used := (claim + 2 ^ 32 - leNat (memRead s1.cx.spad (spOff ring + 8) 4)) % 2 ^ 32
          (n ≤ used → exec cpy s = .next s1)
          ∧ (used < n → len.toNat = 0 → Completes .x cpy s (withCx s1 (lowered (withCx s1 (claimed 1)) .x ext.cc)))
          ∧ (used < n → len.toNat ≠ 0 → ∃ y, Completes .x cpy s (withCx s1 { claimed 0 with copies := aset s1.cx.copies k y }) ∧ begun y
              ∧ y.ring = some slot ∧ y.claim = claim ∧ linear 1 dv y ∧ y.rest = len.toNat))
      ∧ (layoutOf aux.toNat = none → Traps .x (.cpylLd vm a ext) s 0x204 aux ∧ Traps .x (.cpylSt vm a ext) s 0x204 aux)
      ∧ (layouts false → full → exec (.cpylLd vm a ext) s = .next s) ∧ (layouts true → full → exec (.cpylSt vm a ext) s = .next s)
      ∧ (layouts false → free → starts (.cpylLd vm a ext) s l.bytes fun y => y.kind = 2 ∧ y.store = false ∧ y.src = dst ∧ y.dst = tile
          ∧ y.layout = aux.toNat ∧ y.aux = len ∧ y.srcVm = vm)
      ∧ (layouts true → free → starts (.cpylSt vm a ext) s l.bytes fun y => y.kind = 2 ∧ y.store = true ∧ y.src = tile ∧ y.dst = dst
          ∧ y.layout = aux.toNat ∧ y.aux = len ∧ y.dstVm = vm)
      ∧ (governed s.cx = false → Traps .x (.cpyr a b ext) s 0x70D 0 ∧ Traps .x (.cpyrIp b ext) s 0x70D 0)
      ∧ (rowsFit → ext.aux = 0 → (len.toNat ≠ 0 → spFault0 s1 s1.iss.seq 0x701 dst (set.rowBytes leg.ext0 * len.toNat) = none) → free →
          starts (.cpyr a b ext) s1 len.toNat fun y => y.kind = 4 ∧ y.src = src ∧ y.dst = dst ∧ y.packed = true ∧ y.snap = some snap)
      ∧ (rowsFit → free → starts (.cpyrIp b ext) s1 len.toNat fun y => y.kind = 4 ∧ y.src = src ∧ y.inPlace = true ∧ y.snap = some snap)
/-- R136, R266: a linear copy moves granule by granule, in any order, each aligned at its destination, counting it at its byte barrier; when
its last byte is written and acknowledged a copy writes its ring slot, lowers its counter and is gone. -/
def Obligations.CopiesMove : Prop :=
  ∀ (s s1 s2 : State) (x : Copy) (bytes : List Byte) (keys : List (Nat × Nat)) (j : Nat),
    let y := copyAt x s.inp.unit
    let n := min y.rest (64 - y.dst.toNat % 64)
    let u : State := { s with iss := { seq := x.seq } }
    let kept : Copy → State → Ctx → Prop := fun z t c =>
      exec .copyGranuleWrite s = .next (withCx t { c with copies := aset c.copies s.inp.sel z })
    let noted := noteGranule x y.moved
    let next : Copy := { x with src := x.src + BitVec.ofNat 64 n, dst := x.dst + BitVec.ofNat 64 n, rest := x.rest - n, moved := x.moved + n, data := adel x.data x.moved }
    let local' := memRead s1.cx.spad (spOff y.src) n
    let counted : Ctx → Ctx := fun c => match x.bb with
      | none => c
      | some o => spadWrite c (o + 8) (leBytes 8 (leNat (memRead c.spad (o + 8) 8) + n))
    let w := spWin y.dst
    let wb := ((alook x.wins w).getD (0, 0)).1
    let out := wbits (s1.cx.cr (0x020 + w)) 32 16
    let counts := withCx s1 (s1.cx.setCr (0x020 + w) (wput (s1.cx.cr (0x020 + w)) 32 16 (out + 1)))
    let posted : Packet := myPacket counts (winPlace wb) (bits wb 62 1) (.posted w ((alook x.wins w).getD (0, 0)).2
      (local'.zipIdx.map fun (v, j) => (65536 * bits wb 16 4 + spOff y.dst + j, v)) 1 (some s.inp.sel)
      (x.bb.map fun o => 65536 * bits wb 16 4 + o) x.seq)
    let sent := sendPacket counts posted
    let gone := { s.cx with copies := adel s.cx.copies s.inp.sel }
    let moves : Prop := y.rest ≠ 0 ∧ copiesRun s x = true ∧ y.moved ∉ x.done ∧ (s.cx.due = none ∨ ∃ d, s.cx.due = some (.debug d))
      ∧ x.ahead = false ∧ x.loose = false ∧ x.store = false ∧ x.kind = 1
    (alook s.cx.copies s.inp.sel = none → exec .copyGranuleWrite s = .next s ∧ exec .copyPerform s = .next s)
      ∧ (x.kind = 1 → y.src = x.src + BitVec.ofNat 64 (y.moved - x.moved) ∧ y.dst = x.dst + BitVec.ofNat 64 (y.moved - x.moved)
          ∧ x.moved ≤ y.moved ∧ y.rest = x.rest - (y.moved - x.moved) ∧ (s.inp.unit = 0 → y = x))
      ∧ (x.kind = 1 → x.done = [] → x.rest ≠ 0 → s.inp.unit = 0 → noted = next)
      ∧ (alook s.cx.copies s.inp.sel = some x →
          (x.rest = 0 ∨ copiesRun s x = false → exec .copyGranuleWrite s = .next s)
          ∧ (moves → x.srcVm = false → spWin y.src = 0 → spadMeet u [(spOff y.src, n)] = .ok s1 →
              (x.dstVm = false → spWin y.dst = 0 → kept noted s1 (counted (spadWrite s1.cx (spOff y.dst) local')))
              ∧ (x.dstVm = false → spWin y.dst ≠ 0 → winAllow s1.cx x.seq w ≠ 0 → out = 0 ∨ out + 1 ≤ winAllow s1.cx x.seq w →
                  kept { noted with unacked := noted.unacked + 1 } sent sent.cx)
              ∧ (x.dstVm = true → translateRange s1 s1.cur .x true (pieces y.dst.toNat n) = .ok (keys, s2) →
                  (∀ k ∈ keys, windowReady s2 k.1 k.2 true = true) → let v := pokePieces s2 s1.cx.tenant keys local'
                  kept noted v v.cx))
          ∧ (moves → x.srcVm = true → virtRead u .x (pieces y.src.toNat n) = .ok bytes s1 → x.dstVm = false → spWin y.dst = 0 →
              kept noted s1 (counted (spadWrite s1.cx (spOff y.dst) bytes)))
          ∧ (moves → x.srcVm = false → spWin y.src ≠ 0 → alook x.data y.moved = none → y.moved ∈ x.reading → exec .copyGranuleWrite s = .next u)
          ∧ (moves → x.srcVm = false → spWin y.src ≠ 0 → alook x.data y.moved = some bytes → x.dstVm = false → spWin y.dst = 0 →
              kept noted u (counted (spadWrite s.cx (spOff y.dst) bytes)))
          ∧ (tileRuns s = true → x.rest = 0 → x.unacked = 0 → x.reading = [] → (∀ z ∈ s.cx.statq, z.eng = .x → z.seq ≠ x.seq) →
              (x.ring = none → exec .copyPerform s = .next (withCx s (gone.ccComplete x.cc .x x.seq)))
              ∧ (∀ o, x.ring = some o → exec .copyPerform s = .next (withCx s
                  ((spadWrite gone o (leBytes 4 x.claim ++ leBytes 4 (x.moved - x.refused) ++ leBytes 4 1 ++ leBytes 4 0)).ccComplete x.cc .x x.seq))))
          ∧ (x.rest ≠ 0 ∨ x.unacked ≠ 0 ∨ j ∈ x.reading ∨ tileRuns s = false → exec .copyPerform s = .next s))
/-- R269, R270: rings and byte barriers live in the allotment; claims are waited for and released, and a barrier holds X until enough bytes
have arrived. -/
def Obligations.RingsAndBarriers : Prop :=
  ∀ (s s1 : State) (a b count : Nat),
    let h := operand s 0 a
    let n := operand s 1 b
    let o := spOff h
    let at4 : Ctx → Nat → Nat := fun c o => leNat (memRead c.spad o 4)
    let claims : Ctx → Nat := fun c => (at4 c (o + 4) + 2 ^ 32 - at4 c (o + 8)) % 2 ^ 32
    let whole : Ctx → Nat → Prop := fun c m => ∀ k, k < m → at4 c (o + 64 + 16 * ((at4 c (o + 8) + k) % at4 c o) + 8) = 1
    let ranges : Nat → List (Nat × Nat) := fun m => (o, 12) ::
      (List.range m).map fun k => (o + 64 + 16 * ((at4 s.cx (o + 8) + k) % at4 s.cx o), 16)
    (isPow2To4096 n.toNat = false → Traps .x (.ringi a b) s 0x604 n)
      ∧ (isPow2To4096 n.toNat = true → spFault0 s s.iss.seq 0x701 h (64 + 16 * n.toNat) = none → h.toNat % 64 = 0 →
          Completes .x (.ringi a b) s (withCx s (spadWrite s.cx o (leBytes 4 n.toNat ++ List.replicate (60 + 16 * n.toNat) 0))))
      ∧ (ringFault s h = none → claims s.cx < count → Traps .x (.ringw a count) s 0x605 (BitVec.ofNat 64 count))
      ∧ (ringFault s h = none → count ≤ claims s.cx → spadMeet s (ranges count) = .ok s1 →
          (whole s1.cx count → Completes .x (.ringw a count) s s1) ∧ (¬whole s1.cx count → exec (.ringw a count) s = .next s1))
      ∧ (ringFault s h = none → claims s.cx < n.toNat ∨ ¬whole s.cx n.toNat → Traps .x (.ringr a b) s 0x605 n)
      ∧ (ringFault s h = none → n.toNat ≤ claims s.cx → whole s.cx n.toNat → spadMeet s (ranges n.toNat) = .ok s1 →
          Completes .x (.ringr a b) s (withCx s1 (spadWrite s1.cx (o + 8) (leBytes 4 (at4 s1.cx (o + 8) + n.toNat)))))
      ∧ (spFault0 s s.iss.seq 0x701 h 16 = none → h.toNat % 16 = 0 →
          Completes .x (.bbset a b) s (withCx s (spadWrite s.cx o (leBytes 8 n.toNat ++ leBytes 8 0)))
          ∧ (spadMeet s [(o, 16)] = .ok s1 → let expected := leNat (memRead s1.cx.spad o 8)
              let arrived := leNat (memRead s1.cx.spad (o + 8) 8)
              (expected ≤ arrived → Completes .x (.bbwait a) s s1) ∧ (arrived < expected → exec (.bbwait a) s = .next s1)))
      ∧ (spFault0 s s.iss.seq 0x701 h 16 = none → h.toNat % 16 ≠ 0 → Traps .x (.bbset a b) s 0x702 h ∧ Traps .x (.bbwait a) s 0x702 h)
/-- R114, R117, R145, R271, R272, R275: X's other instructions. `PREF`, `TLBLK`, `TLBUL`, `SEND` and `QSCE` are performed at issue; `FLUSHH`,
`TLBPRE` and `TLBINV` leave an operation in flight, and its event puts the dirty lines into memory, fills the lock entries in order or drops
the scope's translations. -/
def Obligations.OtherXOperations : Prop :=
  ∀ (s s1 : State) (a b t h seq lo size : Nat) (urgent : Bool) (cc : Option Nat) (keys : List (Nat × Nat)) (pages : List Tlb) (scope : Scope)
      (f : Nat × Word) (v : Nat) (e : Entry),
    let va := operand s 0 a
    let len := (operand s 1 b).toNat
    let target := operand s 2 t
    let line := operand s 3 h
    let issued : XOp → State → State := fun o u => withCx u { u.cx with xops := u.cx.xops ++ [o] }
    let gone : XOp → Ctx := fun o => { s.cx with xops := s.cx.xops.erase o }
    let kind : Nat → XOp → Bool := fun k o => match o with
      | .flushh .. => k = 0
      | .tlbpre .. => k = 1
      | .tlbinv .. => k = 2
    let picked : Nat → XOp → Prop := fun k o => (s.cx.xops.filter (kind k))[s.inp.sel]? = some o
    let locking : Prop := ∃ o ∈ s.cx.xops, kind 1 o = true
    let payload := memRead s1.cx.spad (spOff va) len
    let there := wbits target 15 17 * 2 ^ 15
    let lock : Ctx → Tlb → Ctx := fun c p => match freeKey c.lockTr 16 with
      | none => c
      | some k => { c.setCr (0x050 + k) (BitVec.ofNat 64 (2 ^ 63 + p.size * 2 ^ 61 + p.vbase)) with lockTr := aset c.lockTr k p }
    let bounded := (s.cx.setCr 0x048 (BitVec.ofNat 64 (va.toNat % 2 ^ 57))).setCr 0x049 (BitVec.ofNat 64 ((va.toNat + len) % 2 ^ 57))
    (virtFault va len = some f → Traps .x (.pref a b) s f.1 f.2 ∧ Traps .x (.flushh a b cc) s f.1 f.2 ∧ Traps .x (.tlbinv scope a b) s f.1 f.2)
      ∧ (virtFault va len = none → (∃ u, Completes .x (.pref a b) s u ∧ u.cx = s.cx ∧ MemorySame s u)
          ∧ (translateRange s s.cur .x false (pagesOf va.toNat len) = .ok (keys, s1) →
              Completes .x (.flushh a b cc) s (issued (.flushh keys cc s.iss.seq) s1) ∧ MemorySame s s1)
          ∧ Completes .x (.tlbinv scope a b) s (issued (.tlbinv scope va.toNat len s.iss.seq) s))
      ∧ (locking → exec (.tlbpre a b cc) s = .next s ∧ exec (.tlblk a b) s = .next s ∧ exec .tlbul s = .next s)
      ∧ (¬locking → virtFault va len = none →
          (lockPages s va (va.toNat + len) (16 - s.cx.lockTr.length) 40 va.toNat [] s = .ok (pages, s1) →
              Completes .x (.tlbpre a b cc) s
                (issued (.tlbpre va.toNat len cc { s.cx.qX.headD { word := 0 } with seq := s.iss.seq, vals := s.iss.vals }) s1))
          ∧ (unlocked s.cx (va.toNat + len) 17 va.toNat = none → Completes .x (.tlblk a b) s (withCx s bounded))
          ∧ (unlocked s.cx (va.toNat + len) 17 va.toNat = some v → Traps .x (.tlblk a b) s 0x608 (BitVec.ofNat 64 (v / 65536 * 65536))))
      ∧ (¬locking → ∃ c, Completes .x .tlbul s (withCx s c) ∧ c = { s.cx with csr := c.csr, lockTr := [] }
          ∧ ∀ n, c.cr n = if n = 0x048 ∨ n = 0x049 ∨ (0x050 ≤ n ∧ n ≤ 0x05F) then 0 else s.cx.cr n)
      ∧ (((∀ x ∈ s.cx.queue .x, s.iss.seq ≤ x.seq) ∧ ∀ k ∈ s.cx.inFlight .x, s.iss.seq ≤ k) → Completes .x .qsce s s)
      ∧ (256 < len → Traps .x (.send a b t h urgent cc) s 0x606 (operand s 1 b))
      ∧ (len ≤ 256 → line.toNat % 32 ≠ 0 → Traps .x (.send a b t h urgent cc) s 0x606 line)
      ∧ (len ≤ 256 → line.toNat % 32 = 0 → s.z ≤ wbits target 26 6 → Traps .x (.send a b t h urgent cc) s 0x606 target)
      ∧ (len ≤ 256 → line.toNat % 32 = 0 → wbits target 26 6 < s.z → spFault0 s s.iss.seq 0x701 va len = none → canonical line = true →
          spadMeet s [(spOff va, len)] = .ok s1 →
          let sent := sendPacket (publish s1) (myPacket s1 there (if urgent then 3 else 2) (.send payload line there s.iss.seq))
          Completes .x (.send a b t h urgent cc) s (withCx sent (lowered sent .x cc)))
      ∧ (picked 0 (.flushh keys cc seq) → ∃ u, exec .flushhPerformed s = .next u ∧ u.cx = (gone (.flushh keys cc seq)).ccComplete cc .x seq
          ∧ MemorySame s u ∧ ∀ k l, (∃ r ∈ keys, r.2 ≠ 0 ∧ r.1 / 64 ≤ k / 64 ∧ k / 64 * 64 < r.1 + r.2) → alook s.l2 (k / 64) = some l → l.dirty = true →
              l.data.length = 64 → eccL2 s (k / 64) ≠ 2 → dramByte u k = peekByte s k ∧ alook u.l2 (k / 64) = some { l with dirty := false })
      ∧ (picked 1 (.tlbpre lo size cc e) → (tileRuns s && s.cx.faultFree) = false → exec .tlbprePerformed s = .next s)
      ∧ (picked 1 (.tlbpre lo size cc e) → (tileRuns s && s.cx.faultFree) = true →
          let c := gone (.tlbpre lo size cc e)
          let back := { withCx s { c with qX := e :: c.qX } with iss := { seq := e.seq, lane := e.lane, vals := e.vals } }
          lockPages back (BitVec.ofNat 64 lo) (lo + size) (16 - s.cx.lockTr.length) 40 lo [] s = .ok (pages, s1) → exec .tlbprePerformed s =
            .next (withCx s1 ((pages.foldl lock { s1.cx with xops := s1.cx.xops.erase (.tlbpre lo size cc e) }).ccComplete cc .x e.seq)))
      ∧ (picked 2 (.tlbinv scope lo size seq) → ∃ u, exec .tlbinvPerformed s = .next u
          ∧ u = { s with tiles := u.tiles, cx := gone (.tlbinv scope lo size seq) }
          ∧ ∀ k e, (tileAt u k).tlb e = if tileInScope scope (tileOf s.cur) k then
                ((tileAt s k).tlb e).filter fun p => !(p.tenant = s.cx.tenant && meet p.vbase (2 ^ pageBits p.size) (lo % 2 ^ 57) size)
              else (tileAt s k).tlb e)
      ∧ (s.cx.xops = [] → exec .flushhPerformed s = .next s ∧ exec .tlbprePerformed s = .next s ∧ exec .tlbinvPerformed s = .next s)

/-! ### The precision governor -/

/-- R163 to R167, R240, R241, R309, R394: `GOVSTEP` decides the layers it names and skips frozen entries, its votes and rungs held in bounds,
or meets a fault and decides none; `GOVRD`
reads an entry's fields; `MQSTAT` sends an addition, and an addition adds to its entry's sums, which saturate, and to nothing else. -/
def Obligations.GovernorInstructions : Prop :=
  ∀ (s s1 s2 : State) (d a b n k layer role setting key count t : Nat) (x : Setting) (y : StatAdd) (bytes : List Byte) (p : Policy) (e made late : GovEntry)
      (noise : Option Elem) (votes vote : Int) (fault : GovErr),
    let f := (s.cx.gr a).toNat
    let c := (s.cx.gr b).toNat
    let v := s.cx.gr a
    let ranged := f ≤ 4095 ∧ f + c ≤ 4096
    let field : State → Nat → Nat → Nat := fun t o n => leNat (peek t (key + o) n)
    let plus : Nat → Nat → Nat → Nat := fun bits a b => min (2 ^ bits - 1) (a + b)
    let byte : Nat → Nat := fun o => fieldAt bytes o 1
    let i : Instr := .mqstat setting n k layer role
    let values := (List.range k).flatMap fun j => (s.cx.ac (n + j)).map val32
    let made' := (x.encodeRow values).elems
    let sum := rowStat x values made'
    let stat : StatAdd := { tenant := s.cx.tenant, layer := layer, role := role, lost := sum.lost, kept := sum.kept, elements := sum.elements,
                            sat := sum.sat, under := sum.under, eng := .m, seq := s.iss.seq }
    (¬ranged → Traps .c (.govstep d a b) s 0x10C v)
      ∧ (ranged → governed s.cx = false → Traps .c (.govstep d a b) s 0x70D v)
      ∧ (ranged → governed s.cx = true → c = 0 → Completes .c (.govstep d a b) s (withCx s (s.cx.setG d 0)))
      ∧ (ranged → governed s.cx = true → c ≠ 0 → s.cx.sbuf ≠ [] → exec (.govstep d a b) s = .next (performOldest s))
      ∧ (ranged → governed s.cx = true → c ≠ 0 → s.cx.sbuf = [] →
          govRead (govTable (s.cx.cr 0x010) + 0x300000) 64 (acquireAt (some .d) s) = .ok (bytes, s1) →
          (govLayers (policyOf bytes) c f s1 = .error fault → exec (.govstep d a b) s = govFail fault s)
          ∧ (govLayers (policyOf bytes) c f s1 = .ok (count, s2) → let u := publish s2
            Completes .c (.govstep d a b) s (withCx u (u.cx.setG d (BitVec.ofNat 64 count)))))
      ∧ (govRead (govEntry (s.cx.cr 0x010) layer role) 128 s = .ok (bytes, s1) →
          (bitOf (byte 0x59) 1 = true → govRole p layer role noise s = .ok (false, s1))
          ∧ (bitOf (byte 0x59) 1 = false → govDecide p role (govEntryOf bytes) noise = .none e →
              govWrite (govEntry (s.cx.cr 0x010) layer role) (clearStats role e).bytes s1 = .ok s2 → govRole p layer role noise s = .ok (false, s2)))
      ∧ (votes.natAbs ≤ 127 → vote.natAbs ≤ 1 → (nextVotes votes vote).natAbs ≤ 127)
      ∧ (e.pending = false → govDecide p role e noise = .move t made late →
          p.h ≤ (nextVotes e.votes (govVote p e noise)).natAbs ∧ t < p.ladder.length ∧ bits (p.roles.getD role 0) 0 4 ≤ t
            ∧ t ≤ bits (p.roles.getD role 0) 4 4 ∧ (t = e.rung ∨ t = e.rung + 1 ∨ t + 1 = e.rung))
      ∧ (6 ≤ wbits v 12 3 → Traps .c (.govrd d a) s 0x10D v)
      ∧ (wbits v 12 3 < 6 → governed s.cx = false → Traps .c (.govrd d a) s 0x70D (BitVec.ofNat 64 (wbits v 0 15)))
      ∧ (wbits v 12 3 < 6 → governed s.cx = true → govRead (govEntry (s.cx.cr 0x010) (wbits v 0 12) (wbits v 12 3)) 128 (acquireAt (some .d) s) = .ok (bytes, s1) →
          settingOf (byte 0x57) = some x → Completes .c (.govrd d a) s (withCx s1 (s1.cx.setG d (BitVec.ofNat 64 (byte 0x57 + byte 0x56 * 2 ^ 8
            + byte 0x58 * 2 ^ 16 + byte 0x59 % 4 * 2 ^ 24 + byte 0x5A * 2 ^ 32 + x.cls * 2 ^ 40)))))
      ∧ (s.cx.accCount < n + k → Traps .m i s 0x707 (BitVec.ofNat 64 (max n s.cx.accCount)))
      ∧ (n + k ≤ s.cx.accCount → governed s.cx = false → Traps .m i s 0x70D (BitVec.ofNat 64 (layer + 4096 * role)))
      ∧ (n + k ≤ s.cx.accCount → governed s.cx = true → accBusy s.cx n k = true → exec i s = .next s)
      ∧ (n + k ≤ s.cx.accCount → governed s.cx = true → accBusy s.cx n k = false → settingOf setting = some x →
          Completes .m i s (withCx s { setFlags s.cx (orFlags (made'.map (·.2))) with statq := s.cx.statq ++ [stat] }))
      ∧ (s.cx.statq[s.inp.sel]? = none → exec .governorStatAdd s = .next s)
      ∧ (s.cx.statq[s.inp.sel]? = some y → ∃ u, exec .governorStatAdd s = .next u
          ∧ u.cx = { s.cx with statq := s.cx.statq.eraseIdx s.inp.sel }.ccComplete y.cc y.eng y.seq
          ∧ ∀ g, g = govKey s (dieOf s.cur) y.tenant (govEntry (tenantAt s (dieOf s.cur) y.tenant).govbase y.layer y.role) →
              (g = none → MemorySame s u)
              ∧ (g = some key → (∀ j, j < key ∨ key + 0x56 ≤ j → peekByte u j = peekByte s j)
                  ∧ field u 0x00 16 = plus 128 (field s 0x00 16) y.lost ∧ field u 0x10 16 = plus 128 (field s 0x10 16) y.kept
                  ∧ field u 0x20 16 = plus 128 (field s 0x20 16) y.part ∧ field u 0x30 16 = plus 128 (field s 0x30 16) y.whole
                  ∧ field u 0x40 8 = plus 64 (field s 0x40 8) y.elements ∧ field u 0x48 4 = plus 32 (field s 0x48 4) y.sat
                  ∧ field u 0x4C 4 = plus 32 (field s 0x4C 4) y.under ∧ field u 0x50 4 = plus 32 (field s 0x50 4) y.nans
                  ∧ field u 0x54 2 = plus 16 (field s 0x54 2) y.first))

/-! ### Tasks, contexts and groups -/

/-- R35, R36, R220, R221, R226 to R228: `TRIG` waits for everything before it and triggers its instance once; `DONE` waits for everything of
its context and retires the instance, whose slot empties; `IDLE` makes the context dormant with its registers as they are; `SPAWN` starts a
dormant context of its tile and tenant, and says whether it did; `BRK` traps with its number, or stops an armed context. -/
def Obligations.TaskInstructions : Prop :=
  ∀ (s s1 : State) (a b d n h code : Nat) (bytes : List Byte) (t : Task),
    let die := dieOf s.cur
    let tile := tileOf s.cur
    let va := s.cx.gr a
    let turn := sourceTaken s die (tile % 128) = true
    let asks := va.toNat % 128 = 0 ∧ canonical va = true ∧ turn ∧ s.cx.sbuf = [] ∧ virtRead s .c (pieces va.toNat 128) = .ok bytes s1
    let s2 := takeSource (publish s1) die (tile % 128)
    let record := recSet bytes (min (recPriority bytes) (wbits (s2.cx.cr 0x001) 0 2)) s2.cx.tenant
    let preds := edgesOf (dieAt s2 die) record s2.cx.tenant h
    let made : Task :=
      { handle := h, record := record, recordVa := va.toNat, tenant := s2.cx.tenant, priority := recPriority record, preds := preds,
        state := if preds = [] then .ready else .waiting, count := fieldAt record 0x24 2 }
    let mine := taskAt s die s.cx.task
    let before := (∀ e : Engine, s.cx.performedBefore e s.iss.seq = true) ∧ s.cx.outstanding = 0
    let alone := allPerformed s.cx = true
    let quiet := alone ∧ s.cx.outstanding = 0
    let line := s.cx.gr b
    let there := slotPlace s.cur (wbits va 0 3)
    let sleeper := ctxAt s there
    let free := there ≠ s.cur ∧ sleeper.phase = .dormant ∧ sleeper.tenant = s.cx.tenant ∧ leavingSlot sleeper = false
    let left := withCx s { s.cx.retire .c none s.iss with fetchHold := false, report := none, lineTrap := false }
    (va.toNat % 128 ≠ 0 → Traps .c (.task d a) s 0x105 va)
      ∧ (va.toNat % 128 = 0 → canonical va = false → Traps .c (.task d a) s 0x703 va)
      ∧ (va.toNat % 128 = 0 → canonical va = true → ¬turn → exec (.task d a) s = .next s)
      ∧ (va.toNat % 128 = 0 → canonical va = true → turn → s.cx.sbuf ≠ [] → exec (.task d a) s = .next (performOldest s))
      ∧ (asks → refusalCode s2 die s2.cx.tenant record = some code →
          Completes .c (.task d a) s (withCx s2 (s2.cx.setG d (BitVec.ofNat 64 (2 ^ 63 + code)))))
      ∧ (asks → refusalCode s2 die s2.cx.tenant record = none → newHandle (dieAt s2 die) (recPriority record) = some h →
          ∃ u, Completes .c (.task d a) s u ∧ u.cx = s2.cx.setG d (BitVec.ofNat 64 h)
            ∧ (dieAt u die).tasks = (dieAt s2 die).tasks ++ [made])
      ∧ (¬before → exec .trig s = .next s)
      ∧ (before → ∃ u, Completes .c .trig s u ∧ u.cx = { s.cx with triggered := true, stored := [] } ∧ MemorySame s u
          ∧ (s.cx.triggered = true → ∀ x h, taskAt u x h = taskAt s x h)
          ∧ (s.cx.triggered = false → mine = some t → t.isTriggered = false → t.stopping = none → t.count ≠ 0 →
              (t.triggeredN + 1 < t.count → taskAt u die t.handle = some { t with triggeredN := t.triggeredN + 1 })
              ∧ (t.count ≤ t.triggeredN + 1 → t.handle ∉ t.preds → taskAt u die t.handle =
                  some { t with triggeredN := t.triggeredN + 1, state := .triggered, trigTime := datumOf s die })
              ∧ ∀ k, h ≠ t.handle → taskAt s die h = some k → t.count ≤ t.triggeredN + 1 → taskAt u die h = some (k.satisfied t.handle)))
      ∧ (s.cx.strm ≠ [] → exec .done s =
          .next (if readersLeft s.cx = true ∧ boundStill s.cx = false then s else withCx s { s.cx with strm := [] }))
      ∧ (s.cx.strm = [] → ¬quiet → exec .done s = .next s)
      ∧ (quiet → s.cx.grp ≠ [] → exec .done s = .next (if s.cx.asked then s else leaveAll (publish s)))
      ∧ (quiet → s.cx.grp = [] → ∃ u, exec .done s = .next u ∧ u.cx = {}
          ∧ (mine = none → MemorySame s u)
          ∧ (mine = some t → t.retiredN + 1 < t.count → t.stopping = none → MemorySame s u
              ∧ ∃ k, taskAt u die t.handle = some k ∧ k.retiredN = t.retiredN + 1
                ∧ k.triggeredN = if s.cx.triggered then t.triggeredN else t.triggeredN + 1))
      ∧ (¬alone → exec .idle s = .next s)
      ∧ (alone → ∃ u, exec .idle s = .next u ∧ u.cx.phase = .dormant ∧ u.cx.fetchHold = false ∧ u.cx.g = s.cx.g ∧ u.cx.csr = s.cx.csr
          ∧ u.cx.a = s.cx.a ∧ u.cx.spad = s.cx.spad ∧ u.cx.fetch = s.cx.fetch ∧ MemorySame s u)
      ∧ (line.toNat % 32 ≠ 0 → Traps .c (.spawn d a b) s 0x101 line)
      ∧ (line.toNat % 32 = 0 → ¬free → Completes .c (.spawn d a b) s (withCx s (s.cx.setG d 0)))
      ∧ (line.toNat % 32 = 0 → free → ∃ u, Completes .c (.spawn d a b) s u ∧ u.cx = s.cx.setG d 1 ∧ MemorySame s u
          ∧ (ctxAt u there).phase = .running ∧ (ctxAt u there).fetch = line
          ∧ (tileAt u tile).released = (s.cx.stored ++ (tileAt s tile).released).eraseDups
          ∧ (ctxAt u there).stored = (sleeper.stored ++ (tileAt u tile).released).eraseDups
          ∧ (∀ k, (ctxAt u there).gr k = if k = 1 then BitVec.ofNat 64 (wbits va 32 32) else
                if k = 2 then BitVec.ofNat 64 (slotOf s.cur) else sleeper.gr k)
          ∧ ∀ p, p ≠ s.cur → p ≠ there → ctxAt u p = ctxAt s p)
      ∧ (s.cx.armed = false ∨ s.cx.handler = true → exec (.brk n) s = .next (takeTrap (withCx s { s.cx with report := none, lineTrap := false })
          { cls := 3, code := 0x900 + n, eng := 1, lane := s.iss.lane, seq := s.iss.seq, epc := nextLine s, own := true }))
      ∧ (s.cx.armed = true → s.cx.handler = false → let v := stopForDebug left s.cur 1; exec (.brk n) s = .next ((debugHold v).getD v))
/-- R38, R39, R42, R230 to R232, R422 to R424, R459, R473: `GJOIN`, `GLEAVE` and `GBAR` ask the group's home and wait; the home forms the group,
adds and removes members and counts arrivals, and releases a generation to its members with its last arrival; the answer completes the
instruction or makes it trap. -/
def Obligations.Groups : Prop :=
  ∀ (s s1 : State) (id a k j gen gear code : Nat) (chart wants : Bool) (p : Packet) (g : Group) (time : Nat),
    let names := (s.cx.gr a).toNat % 2 ^ 32 = id
    let home := id / 2 ^ 22 % 2 ^ 10
    let legal := bits id 8 14 = 0 ∧ dieExists s home = true
    let ask : State → Nat → Body → State := fun u cls b => sendPacket u (myPacket u (placeOf home 0 0) cls b)
    let asking := withCx s { s.cx with asked := true }
    let free := s.cx.asked = false
    let reg := s.cx.cr (0x044 + k)
    let mine := nextGeneration s id (memberAt s s.cur)
    let arrives := withCx (publish s) { (publish s).cx.setCr (0x044 + k) (BitVec.ofNat 64 (2 ^ 63 + mine)) with rel := adel s.cx.rel k }
    let gone := acted s j
    let reaches : Nat → Prop := fun n => Arrived s (fun p _ => kindOf p.body = n && (forMe s p || orphan s p)) p j ∧ forMe s p = true
    let asks : Nat → Prop := fun n => Arrived s (fun p _ => kindOf p.body = n) p j
    let die := dieOf s.cur
    let here := dieAt s die
    let waits : Instr → Prop := fun i => waitingC gone = some (i, s1) ∧ namedGroup s1 i = some id
    let joined : Ctx → Ctx := fun c => match freeKey c.grp 4 with
      | none => c
      | some n => let d : Ctx := { c.setCr (0x044 + n) 0 with grp := aset c.grp n id, rel := adel c.rel n }
        if wants then { d.setCr 0x000 (wput (wput (d.cr 0x000) 0 2 gear) 12 1 1) with chartGrp := some id } else d
    let put : Group → State := fun g => updDie gone (id / 2 ^ 22 % 2 ^ 10) fun x => { x with groups := aset x.groups (id % 256) g }
    let opened : Group := if g.firstArrival = none then { g with current := g.members, firstArrival := some (datumOf s die) } else g
    let counted : Group := { opened with arrived := g.arrived ++ [p.member] }
    let limit := wbits here.bartmo 0 32 * 1000
    (s.cx.asked = true → exec (.gjoin a chart) s = .next s ∧ exec (.gleave a) s = .next s)
      ∧ (names → free → ¬legal → Traps .c (.gjoin a chart) s 0x106 (BitVec.ofNat 64 id))
      ∧ (names → free → legal → membershipOf s.cx id = some k → ((s.cx.chartGrp = some id ↔ chart = true) → Completes .c (.gjoin a chart) s s)
          ∧ (¬(s.cx.chartGrp = some id ↔ chart = true) → Traps .c (.gjoin a chart) s 0x109 (BitVec.ofNat 64 id)))
      ∧ (names → free → legal → membershipOf s.cx id = none → (4 ≤ s.cx.grp.length → Traps .c (.gjoin a chart) s 0x107 (BitVec.ofNat 64 id))
          ∧ (s.cx.grp.length < 4 → (chart && s.cx.inChart) = true → Traps .c (.gjoin a chart) s 0x108 (BitVec.ofNat 64 id))
          ∧ (s.cx.grp.length < 4 → (chart && s.cx.inChart) = false → exec (.gjoin a chart) s = .next (ask asking 2 (.join id chart s.cx.req))))
      ∧ (names → free → (membershipOf s.cx id = none → Completes .c (.gleave a) s s)
          ∧ (membershipOf s.cx id = some k → exec (.gleave a) s = .next (ask asking 2 (.leave id))))
      ∧ (names → membershipOf s.cx id = none → Traps .c (.gbar a) s 0x10A (BitVec.ofNat 64 id))
      ∧ (names → membershipOf s.cx id = some k → (bitOf reg.toNat 63 = false → exec (.gbar a) s = .next (ask arrives 3 (.arrive id mine)))
          ∧ (bitOf reg.toNat 63 = true → alook s.cx.rel k ≠ some (wbits reg 0 32) → exec (.gbar a) s = .next s)
          ∧ (bitOf reg.toNat 63 = true → alook s.cx.rel k = some (wbits reg 0 32) →
              Completes .c (.gbar a) s (withCx s { s.cx.setCr (0x044 + k) (wput reg 63 1 0) with rel := adel s.cx.rel k })))
      ∧ (reaches 10 → p.body = .answer id code gear wants true → waits (.gjoin a chart) → membershipOf gone.cx id = none → s1.cx.asked = true →
          let s2 := withCx s1 { s1.cx with asked := false }
          (code = 0 → ∃ t, exec .groupAnswer s = .next t ∧ Performed .c (withCx s2 (joined s2.cx)) t)
          ∧ (code ≠ 0 → exec .groupAnswer s = .next (trapAt .c 1 code (BitVec.ofNat 64 id) s2)))
      ∧ (reaches 10 → p.body = .answer id code gear wants false → waits (.gleave a) → membershipOf gone.cx id = some k → s1.cx.asked = true →
          s1.cx.stopDue = false → ∃ t, exec .groupAnswer s = .next t ∧ Performed .c (withCx s1 { quitGroup s1.cx id with asked := false }) t)
      ∧ (reaches 14 → p.body = .groupLost id → waits (.gjoin a chart) → s1.cx.asked = true →
          exec .groupLostAnswer s = .next (trapAt .c 1 0x724 (BitVec.ofNat 64 id) (withCx s1 { s1.cx with asked := false })))
      ∧ (reaches 12 → p.body = .release id gen → membershipOf gone.cx id = some k → exec .barrierRelease s = .next
          (if bitOf reg.toNat 63 = true ∧ wbits reg 0 32 = gen then withCx gone { gone.cx with rel := aset gone.cx.rel k gen } else gone))
      ∧ (asks 8 → p.body = .join id wants gear → here.halted.isSome = false → home = die →
          (alook here.groups (id % 256) = none → membershipCount s die < 4096 → exec .groupJoinRequest s = .next (answered
              (put { tenant := p.tenant, members := [p.member], generation := zlook 0 here.groupGen (id % 256), chart := wants,
                     gear := if wants then gear else 0 }) p (.answer id 0 (if wants then gear else 0) wants true)))
          ∧ (alook here.groups (id % 256) = some g → g.tenant ≠ p.tenant → ∃ u, exec .groupJoinRequest s = .next (answered u p
              (.answer id 0x721 g.gear wants true)) ∧ alook (dieAt u die).groups (id % 256) = some g)
          ∧ (alook here.groups (id % 256) = some g → g.tenant = p.tenant → p.member ∉ g.members → membershipCount s die < 4096 → g.chart = wants →
              exec .groupJoinRequest s = .next (answered (put { g with members := g.members ++ [p.member] }) p (.answer id 0 g.gear wants true))))
      ∧ (asks 9 → p.body = .leave id → here.halted.isSome = false → exec .groupLeaveRequest s = .next
          (answered (dropMember gone id p.member) p (.answer id 0 0 false false)))
      ∧ (Arrived s (fun p _ => match p.body with
            | .arrive id gen => dieHalted s || arrivalReady s id gen
            | _ => false) p j → p.body = .arrive id g.generation → here.halted.isSome = false → home = die →
          alook here.groups (id % 256) = some g → p.member ∈ g.members → p.member ∉ g.arrived →
          (releasable gone counted = false → exec .barrierArrival s = .next (put counted))
          ∧ (releasable gone counted = true → exec .barrierArrival s = .next (opened.current.foldl
              (fun s m => tellMember s id m 3 (.release id g.generation))
              (put { counted with generation := (g.generation + 1) % 2 ^ 32, arrived := [], current := [], firstArrival := none, timeouts := 0,
                                  begun := true }))))
      ∧ ((∀ x ∈ here.inbox, kindOf x.body ≠ 13) → alook here.groups s.inp.sel = some g → g.firstArrival = some time → limit ≠ 0 →
          time + limit * (g.timeouts + 1) ≤ datumOf s die → g.timeouts ≠ 0 → home = die → id % 256 = s.inp.sel → id = die * 2 ^ 22 + s.inp.sel →
          exec .barrierTimeout s = .next (g.arrived.foldl (fun s m => tellMember s id m 2 (.barTimeout id g.generation))
            (updDie s die fun x => { x with groups := aset x.groups s.inp.sel { g with timeouts := g.timeouts + 1 } })))
/-- R40, R41, R89 to R92, R267, R320, R373, R402, R406, R425, R460: what packets do where they arrive. A posted write lands in the allotment of its
tenant that holds it, is dropped as stale, or is refused, and is acknowledged; an acknowledgement returns allowance; reads are answered;
messages are queued, delivered to an armed context or refused. -/
def Obligations.Packets : Prop :=
  ∀ (s : State) (p : Packet) (j w step granules copy off seq q k va n slot : Nat) (cells : List Host.Cell) (data : List Byte) (parts : List (Nat × Nat))
      (line : Word) (target reason : Nat) (keys : List (Nat × Nat)) (x : Copy) (m : Arrival) (of bb : Option Nat) (o r : Nat) (tag : ReadTag),
    let gone := acted s j
    let die := dieOf p.dst
    let t := tileOf p.dst
    let is : Nat → Prop := fun n => Arrived s (fun p _ => kindOf p.body = n) p j
    let up : Bool := (dieAt s (dieOf s.cur)).halted.isNone
    let first := (cells.map (·.1)).foldl min (2 ^ 20)
    let offs : Nat → List Nat := fun base => cells.map fun c => c.1 - base
    let owner := ctxAt gone q
    let reg := owner.cr (0x040 + k)
    let counted : (Tenant → Tenant) → State := fun f => updTenant gone die p.tenant f
    let more : Nat → Nat := fun n => min (2 ^ 32 - 1) (n + 1)
    let ack : State → Bool → Host.Outcome State Fault Refusal := fun u r =>
      .next (answered u p (.ack w step granules of first (if r then cells.length else 0) r seq))
    let wrote : Ctx → Prop := fun c => ∃ c', exec .postedWriteLanding s = ack (setCtx gone q c') false ∧ c' = { c with spad := c'.spad, bad := c'.bad }
      ∧ (∀ y ∈ cells, memGet c'.spad (y.1 - c.spadBase) = y.2) ∧ ∀ o, o ∉ offs c.spadBase → memGet c'.spad o = memGet c.spad o
    let sender := senderOf gone p.dst p.task p.inst = some q
    let here := tileOf s.cur
    let tile := tileAt s here
    let armedSlot : Nat → Nat → Bool := fun tenant k => armedFor s here tenant k
    let place := here * 2 ^ 15 + slot * 2 ^ 12
    let reply : State → List Byte → Bool → Host.Outcome State Fault Refusal := fun u d r => .next (sendPacket u
      { src := p.dst, dst := p.src, cls := tag.cls, tenant := p.tenant, task := p.task, inst := p.inst, body := .readResp d r tag, since := u.now })
    let credited := owner.setCr (0x020 + w) (wput (owner.cr (0x020 + w)) 32 16 (wbits (owner.cr (0x020 + w)) 32 16 - granules))
    let buf := wbits ((ctxAt s place).cr 0x005) 8 12 * 256
    (Arrived s (landsNext (dieAt s (dieOf s.cur)).inbox) p j → p.body = .posted w step cells granules of bb seq →
        (up = false → exec .postedWriteLanding s = ack gone true)
        ∧ (up = true → allotmentOf gone t p.tenant (cells.map (·.1)) = none →
            exec .postedWriteLanding s = ack (counted fun y => { y with refused := more y.refused }) true)
        ∧ (up = true → allotmentOf gone t p.tenant (cells.map (·.1)) = some q → (cells.map (·.1)).Nodup → (∀ y ∈ cells, owner.spadBase ≤ y.1) →
            (landOf owner (offs owner.spadBase) = none → bb = none → wrote owner)
            ∧ (landOf owner (offs owner.spadBase) = none → bb = some o → let v := landBytes gone t p.tenant q cells none
                allotmentOf v t p.tenant [o, o + 15] = some r → exec .postedWriteLanding s = ack (updCtx v r fun c =>
                  spadWrite c (o - c.spadBase + 8) (leBytes 8 (leNat (memRead c.spad (o - c.spadBase + 8) 8) + cells.length))) false)
            ∧ (landOf owner (offs owner.spadBase) = some k → staleStep reg step = true →
                exec .postedWriteLanding s = ack (counted fun y => { y with stale := more y.stale }) false)
            ∧ (landOf owner (offs owner.spadBase) = some k → staleStep reg step = false → bb = none → wrote (owner.setCr (0x040 + k) (wput reg 47 16 step)))))
      ∧ (Arrived s (fun p _ => kindOf p.body = 1 || kindOf p.body = 3) p j → sender →
          (p.body = .ack w step granules none off 0 false seq → exec .writeAcknowledgement s = .next (setCtx gone q credited))
          ∧ (p.body = .ack w step granules (some copy) off n false seq → alook owner.copies copy = some x → exec .writeAcknowledgement s =
              .next (setCtx gone q { credited with copies := aset owner.copies copy { x with unacked := x.unacked - 1, refused := x.refused + n } }))
          ∧ (p.body = .netAck copy n none va seq → alook owner.copies copy = some x → exec .writeAcknowledgement s = .next (setCtx gone q
              { owner with copies := aset owner.copies copy { x with unacked := x.unacked - 1, refused := x.refused + n } })))
      ∧ (is 2 → p.body = .netWrite va data copy seq → up = true → netKeys s die p.tenant true (pieces va data.length) = .ok keys →
          (∀ k ∈ keys, windowReady s k.1 k.2 true = true) →
          exec .networkWriteArrival s = .next (answered (pokePieces gone p.tenant keys data) p (.netAck copy 0 none va seq)))
      ∧ (is 4 → p.body = .readReq parts tag → let ends := parts.flatMap fun x => [x.1, x.1 + x.2 - 1]
          (up = true → allotmentOf gone t p.tenant ends = none → exec .windowReadRequest s =
            reply (counted fun y => { y with refused := more y.refused }) (List.replicate (parts.map (·.2)).sum 0) true)
          ∧ (up = true → allotmentOf gone t p.tenant ends = some q → (∀ b ∈ owner.bad, b % 2 = 0) → exec .windowReadRequest s =
            reply gone (parts.flatMap fun x => memRead owner.spad (x.1 - owner.spadBase) x.2) false))
      ∧ (is 5 → p.body = .readResp data false tag → sender → alook owner.copies tag.copy = some x → exec .windowReadResponse s = .next (setCtx gone q
          { owner with copies := aset owner.copies tag.copy { x with reading := x.reading.erase tag.off, data := aset x.data tag.off data } }))
      ∧ (Arrived s (sendNext (dieAt s (dieOf s.cur)).inbox) p j → p.body = .send data line target seq →
          (up = false → exec .sendArrival s = .next (answered gone p (.refusal target 3 seq)))
          ∧ (up = true → 16 ≤ (tileAt gone t).arrq.length → exec .sendArrival s = .next (answered gone p (.refusal target 1 seq)))
          ∧ (up = true → (tileAt gone t).arrq.length < 16 → exec .sendArrival s = .next (updTile gone t fun y => { y with arrq := y.arrq ++
              [{ payload := data, handlerLine := line, tenant := p.tenant, src := p.src, task := p.task, inst := p.inst, seq := seq,
                 since := datumOf gone die, target := target }] })))
      ∧ ((tenantHeads tile.arrq).find? (fun y => (List.range 8).any (armedSlot y.1.tenant)) = some (m, k) → rotate tile.arrPtr 8 (armedSlot m.tenant) = some slot →
          ∃ u, exec .arrivalDelivery s = .next u ∧ (place ≠ s.cur → u.cx = s.cx)
            ∧ (ctxAt u place).stored = ((ctxAt s place).stored ++ tile.released).eraseDups
            ∧ (tileAt u here).arrq = arrivalLeaves (datumOf s (dieOf place)) tile.arrq k ∧ (tileAt u here).arrPtr = slot + 1
            ∧ (ctxAt u place).phase = .running ∧ (ctxAt u place).fetch = m.handlerLine ∧ (ctxAt u place).gr 1 = BitVec.ofNat 64 buf
            ∧ (ctxAt u place).gr 2 = BitVec.ofNat 64 m.payload.length ∧ memRead (ctxAt u place).spad buf m.payload.length = m.payload)
      ∧ ((tenantHeads tile.arrq).find? (fun y => decide (y.1.since + 1000000 ≤ datumOf s (dieOf s.cur)) && !(List.range 8).any (armedSlot y.1.tenant)) = some (m, k) →
          ∃ u b, exec .arrivalTimeout s = .next (sendPacket u b) ∧ u = updTile s here (fun z => { z with arrq := arrivalLeaves (datumOf s (dieOf s.cur)) z.arrq k })
            ∧ b.body = .refusal m.target 2 m.seq ∧ b.dst = m.src ∧ b.task = m.task ∧ b.inst = m.inst)
      ∧ (is 7 → p.body = .refusal target reason seq → senderOf gone p.dst p.task p.inst = some q → trapOpen owner 0x723 = false →
          ∃ u r, exec .sendRefusal s = .next u ∧ r.cause = 0x723 ∧ r.kind = 8
            ∧ let v := writeRecord gone die r
              u = if (ctxAt v q).asyncDue.isSome then v else updCtx v q fun c => { c.asyncTrap
                { cls := 1, code := 0x723, eng := 6, seq := seq, tval := BitVec.ofNat 64 (target % 2 ^ 32 + reason * 2 ^ 32),
                  recNo := some (dieAt gone die).err.number } with refRec := some (die, (dieAt gone die).err.number) })

/-! ### Traps and stops -/

/-- R45, R377, R378, R381, R395, R403: a trap that is due is entered once the context is drained; an asynchronous trap is entered at a command
boundary outside handler mode; a handler that runs for 65,536 cycles stops its task with reason 4; a context deadlocked for 1,024 cycles
takes trap 0x70A for its earliest waiting instruction; a drain that starves stops its task with reason 18. -/
def Obligations.TrapEvents : Prop :=
  ∀ (s : State) (t : Trap) (n m : Nat) (heads : List (Engine × Entry)) (full : Bool) (sig : List Nat),
    let ready := s.cx.drained = true ∧ s.cx.phase = .running ∧ tileRuns s = true
    let dropped := withCx s { s.cx with trapDue := none, report := none, lineTrap := false }
    let e := engines.find? fun e => engCode e = t.eng
    let boundary := withCx s { s.cx with asyncDue := none, trapDue := none, lineTrap := false, report := (if t.code = 0x70A then (e.map fun e => (e, t.seq)) else none) }
    let now := cyclesAt s s.cur
    (s.cx.trapDue = none → exec .trapEntry s = .next s)
      ∧ (s.cx.trapDue = some t → ¬ready → exec .trapEntry s = .next s)
      ∧ (s.cx.trapDue = some t → ready → s.cx.due = none → (s.cx.asyncDue = none ∨ s.cx.handler = true) → exec .trapEntry s = .next (trapEntry s t))
      ∧ (s.cx.trapDue = some t → ready → s.cx.due ≠ none ∨ (s.cx.asyncDue ≠ none ∧ s.cx.handler = false) → exec .trapEntry s = .next dropped)
      ∧ (s.cx.asyncDue = none ∨ s.cx.handler = true ∨ s.cx.drained = false → exec .asyncTrapEntry s = .next s)
      ∧ (s.cx.asyncDue = some t → ready → s.cx.handler = false → s.cx.stopDue = false → s.cx.debugHeld = false → s.cx.faultFree = true →
          exec .asyncTrapEntry s = .next (trapEntry boundary { t with epc := s.cx.fetch, lane := 0 }))
      ∧ (s.cx.handler = true → s.cx.phase = .running → s.cx.stopDue = false → s.cx.trapTime + 65536 ≤ now → exec .handlerTimeout s = .next (stopMine s 4 none))
      ∧ (s.cx.handler = false ∨ now < s.cx.trapTime + 65536 → exec .handlerTimeout s = .next s)
      ∧ (deadlocked s = some (heads, full) → s.cx.stuck = none →
          exec .deadlockDetect s = .next (withCx s { s.cx with stuck := some (now, heads.map fun x => x.2.seq) }))
      ∧ (deadlocked s = some (heads, full) → s.cx.stuck = some (n, heads.map fun x => x.2.seq) → n + 1024 ≤ now → ∃ x ∈ heads,
          let tv := BitVec.ofNat 64 ((heads.map fun y => 2 ^ engCode y.1).sum + if full then 1 else 0)
          let c := s.cx.asyncTrap { cls := 1, code := 0x70A, eng := engCode x.1, seq := x.2.seq, tval := tv }
          (∀ y ∈ heads, x.2.seq ≤ y.2.seq) ∧ exec .deadlockDetect s = .next (withCx s { c with stuck := none }))
      ∧ (deadlocked s = some (heads, full) → s.cx.stuck = some (n, sig) → sig ≠ (heads.map fun x => x.2.seq) →
          exec .deadlockDetect s = .next (withCx s { s.cx with stuck := some (now, heads.map fun x => x.2.seq) }))
      ∧ (draining s.cx = true → starved s.cx = true → s.cx.phase = .running →
          (s.cx.starve = none → exec .drainTimeout s = .next (withCx s { s.cx with starve := some now }))
          ∧ (s.cx.starve = some m → now < m + 65536 → exec .drainTimeout s = .next s)
          ∧ (s.cx.starve = some m → m + 65536 ≤ now → exec .drainTimeout s = .next (stopMine (withCx s { s.cx with starve := none, mops := [] }) 18 none)))
/-- R384 to R386, R411, R412, R439 to R442, R459: a stopped context leaves its groups and empties its slot once drained; the stop of a task with
nothing left frees its entry; a halted die keeps no task and no saved context; a dump that no slot is free for is dropped and counted;
the host's answer to a page fault lets its context go on, or stops the task with reason 11. -/
def Obligations.StopEvents : Prop :=
  ∀ (s s1 : State) (t y : Task) (r k name h : Nat) (names : List Nat) (p : Nat) (x : SavedCtx) (pieces : List (Nat × List Byte)) (l : List Nested),
    let d := dieOf s.cur
    let die := dieAt s d
    let handle := wbits s.inp.value 0 32
    let still := s.cx.drained = true ∧ copiesStill s.cx = true
    let holder := faultHolder s d handle
    let free : Ctx → Ctx := fun c => { c with fault := none }
    let key := dumpKey s1 d y.tenant k
    let all := (0, dumpHeader s1 d y (name % 2 ^ 16) (names.filter fun n => n / 2 ^ 16 % 2 ^ 32 = h).length l) :: pieces.map fun x => (x.1 + 0x1000, x.2)
    let written := all.foldl (fun s x => pokeThrough s (key + x.1) x.2) s1
    (s.cx.stopDue = true → ¬still → exec .taskStop s = .next s)
      ∧ (s.cx.stopDue = true → still → s.cx.grp ≠ [] → s.cx.asked = false → s.cx.phase ≠ .empty →
          exec .taskStop s = .next (leaveAll (publish s)) ∧ (leaveAll (publish s)).cx.asked = true)
      ∧ (s.cx.stopDue = true → still → s.cx.grp = [] → memberAt s s.cur ∉ die.dumps → ∃ u, stopContext s = some u ∧ u.cx = {}
          ∧ exec .taskStop s = .next (finishStop u d s.cx.task))
      ∧ (s.cx.stopDue = false → exec .taskStop s = .next (finishStop s d handle))
      ∧ (s.cx.stopDue = false → taskAt s d handle = some t → t.stopping = some r → inDumps (discardSaved s d handle) d handle = false →
          ((dieResidents (discardSaved s d handle) d).any (ofTask (discardSaved s d handle) d handle)) = false →
          completionReady (discardSaved s d handle) d t = true → ∃ u, exec .taskStop s = .next u ∧ taskAt u d handle = none)
      ∧ (die.halted = none → die.powered = true → dieExists s d = true → ∃ u, exec .dieHalt s = .next u
          ∧ (dieAt u d).halted = some 2 ∧ (dieAt u d).tasks = [] ∧ (dieAt u d).saved = [])
      ∧ (die.halted ≠ none → exec .dieHalt s = .next s)
      ∧ (die.dumps = [] → exec .dumpWrite s = .next s)
      ∧ (die.dumps = name :: names → h = name / 2 ^ 16 % 2 ^ 32 → taskAt s d h = some t → freeDump s d t.tenant = none →
          exec .dumpWrite s = .next (dropDump s d name 1))
      ∧ (die.dumps = name :: names → h = name / 2 ^ 16 % 2 ^ 32 → taskAt s d h = some t → freeDump s d t.tenant = some k →
          dumpImage (keepNumber s d h) d name = some ((pieces, l), s1) → taskAt s1 d h = some y → rangeLive s1 (d / 16) (key % 2 ^ 44) (0x1000 + areaBytes) = true →
          s.inp.flag = false → exec .dumpWrite s = .next (updDie (writeRecord (undump (updTenant written d y.tenant fun x =>
              { x with dumpcfg := wput x.dumpcfg 4 4 ((k + 1) % dumpSlots s d y.tenant) }) d name) d
            { kind := 8, sev := 2, unit := 0x44, addr := key % 2 ^ 44, value := min 65535 l.length, task := h, inst := name % 2 ^ 16,
              tenant := y.tenant, place := diePlace d, detail := leBytes 1 7 }) d fun x => { x with dumpsDropped := 0 }))
      ∧ (holder = some p → exec .pageFaultResume s =
            .next (thawChart (relock (List.range 16) (focus (updCtx s p free) p)) p)
          ∧ exec .pageFaultStop s = .next (stopTask (updCtx s p free) d (ctxAt s p).task 11 (some p) none))
      ∧ (holder = none → faultSaved s d handle = some x → exec .pageFaultResume s = .next (updDie s d fun y => { y with
            saved := y.saved.map fun z => if z.area = x.area then { z with fault := none } else z })
          ∧ exec .pageFaultStop s = .next (stopTask s d x.task 11 none none))
      ∧ (holder = none → faultSaved s d handle = none → exec .pageFaultResume s = .next s ∧ exec .pageFaultStop s = .next s)

/-! ### Scheduling and fetch -/

/-- R155, R157, R158, R222, R426, R427, R431, R435, R160, R161, R177: the next claimant is placed on the chosen tile with its registers set, or room is
made for it; a pre-emption begins; a drained context is saved and its slot emptied; a saved context is restored, or lost with its area; budgets start
anew each period; a line is fetched, checked whole and distributed. -/
def Obligations.SchedulingEvents : Prop :=
  ∀ (s s1 : State) (pri tenant tile p a b reason key : Nat) (t y : Task) (x : SavedCtx) (payer : Option Nat) (area : Nat) (areas : List Nat) (f : LineFault),
    let d := dieOf s.cur
    let die := dieAt s d
    let gone := (die.saved.filter fun z => z.area ≠ x.area)
    let ready := saveReady s = true ∧ badImage s.cx = none
    let unused := { s with free := s.free + 1 }
    let settled := settleDie s d
    let spent := tenantAt settled d s.inp.tenant
    let n := datumOf s d / 100000
    let fed := readLine (eccCorrect s1 key 32) key
    let w := leNat fed.1
    let lanes := lanesOf w
    let fetches := mayFetch s = true ∧ ¬(s.cx.armed = true ∧ s.cx.handler = false ∧ s.cx.debugHeld = false ∧ s.cx.passBreak = false ∧ (myTile s).breaks.contains s.cx.fetch = true)
      ∧ canonical s.cx.fetch = true ∧ translate s s.cur .c s.cx.fetch.toNat false true = .ok key s1 ∧ eccLevel s1 key 32 ≠ 2
    (nextClaim s d = some (pri, tenant, .place t) → chooseTile s d (.place t) [] = some (tile, p, a, b) → ∃ u, exec .placeInst s = .next u
        ∧ let c := ctxAt u p
          c.phase = .running ∧ c.fetch = BitVec.ofNat 64 (fieldAt t.record 0 8) ∧ c.gr 1 = BitVec.ofNat 64 t.placed ∧ c.gr 7 = BitVec.ofNat 64 t.recordVa
            ∧ c.cr 0x001 = BitVec.ofNat 64 (16 * t.tenant + t.priority) ∧ c.task = t.handle ∧ c.inst = t.placed ∧ c.spadBase = a ∧ c.accBase = b
            ∧ c.spadUnits = recSpad t.record ∧ c.accUnits = recAcc t.record ∧ (dieAt u d).tilePtr = tile + 1)
      ∧ (nextClaim s d = some (pri, tenant, .place t) → chooseTile s d (.place t) [] = none → exec .placeInst s = .next (makeRoom s d pri tenant (.place t)))
      ∧ (nextClaim s d = none → exec .placeInst s = .next s ∧ exec .contextRestore s = .next s)
      ∧ (nextClaim s d = some (pri, tenant, .restore x) → chooseTile s d (.restore x) [] = some (tile, p, a, b) → eccLevel s x.area areaBytes ≠ 2 → headerOk s x.area = true →
          exec .contextRestore s = .next (restoreAt (granted s d pri tenant tile) d x p a b))
      ∧ (nextClaim s d = some (pri, tenant, .restore x) → chooseTile s d (.restore x) [] = some (tile, p, a, b) → eccLevel s x.area areaBytes ≠ 2 → headerOk s x.area = false →
          ∃ u, exec .contextRestore s = .next (stopTask u d x.task 13 none none) ∧ (dieAt u d).saved = gone)
      ∧ (s.cx.phase ≠ .empty → s.cx.due = none →
          ((myTile s).withdrawn = true → exec .preemption s = .next (saveForTest s s.cur))
          ∧ ((myTile s).withdrawn = false → (tenantAt s d s.cx.tenant).exhausted = true → exec .preemption s = .next (saveForBudget s s.cur))
          ∧ ((myTile s).withdrawn = false → (tenantAt s d s.cx.tenant).exhausted = false → s.cx.debugHeld = true → s.inp.value = 5 →
              exec .preemption s = .next (beginSave s s.cur 5 none).2))
      ∧ (s.cx.due = some (.preempt reason payer) → ready → freeAreas s d s.cx.tenant = area :: areas → ∃ u, exec .saveAreaWrite s = .next u ∧ u.cx = {}
          ∧ ∃ z ∈ (dieAt u d).saved, z.area = area ∧ z.task = s.cx.task ∧ z.inst = s.cx.inst ∧ z.grp = s.cx.grp ∧ z.reason = reason)
      ∧ (s.cx.due = some (.preempt reason payer) → ready → freeAreas s d s.cx.tenant = [] →
          exec .saveAreaWrite s = .next (withCx s { s.cx with heldReason := some reason }))
      ∧ (s.cx.due = some (.preempt reason payer) → saveReady s = false → exec .saveAreaWrite s = .next s)
      ∧ (n ≤ die.period → exec .budgetPeriodStart s = .next s)
      ∧ (die.period < n → ∃ u, exec .budgetPeriodStart s = .next u ∧ (dieAt u d).period = n ∧ ∀ e ∈ (dieAt u d).tenants,
          e.2.ctxused = 0 ∧ e.2.spanused = 0 ∧ e.2.dramused = 0 ∧ e.2.linkused = 0 ∧ e.2.exhausted = false)
      ∧ (spent.exhausted = false → overBudget spent = true → ∃ u, exec .budgetExhausted s =
            .next (((dieResidents u d).filter fun q => (ctxAt u q).tenant = s.inp.tenant).foldl saveForBudget u)
          ∧ u = updTenant settled d s.inp.tenant fun z => { z with exhausted := true })
      ∧ (spent.exhausted = true ∨ overBudget spent = false → exec .budgetExhausted s = .next settled)
      ∧ ((tenantAt s d s.inp.tenant).starved < 64 → exec .tenantStarvation s = .next s)
      ∧ (64 ≤ (tenantAt s d s.inp.tenant).starved → die.tasks.find? (fun z => z.tenant = s.inp.tenant) = some y →
          exec .tenantStarvation s = .next (stopTask (writeRecord (updTenant s d s.inp.tenant fun z => { z with starved := 0 }) d
            { kind := 8, sev := 3, unit := 0x40, value := s.inp.tenant + y.handle * 2 ^ 32, action := 4, task := y.handle,
              tenant := s.inp.tenant, place := diePlace d, detail := leBytes 1 5 }) d y.handle 12 none none))
      ∧ (mayFetch s = false → exec .codeLineFetch s = .next s)
      ∧ (fetches → lineFault fed.2.cx w = none → fed.2.cx.handler = false → hasRoom fed.2.cx lanes = true → ∃ u, exec .codeLineFetch s = .next u
          ∧ u = withCx fed.2 (distribute fed.2.cx fed.2.cx.fetch lanes) ∧ u.cx.fetch = fed.2.cx.fetch + 32
          ∧ u.cx.seqNext = fed.2.cx.seqNext + lanes.length ∧ u.cx.fetchHold = lanes.any fun z => Instr.endsLine z.instr)
      ∧ (fetches → lineFault fed.2.cx w = some f → exec .codeLineFetch s = fetchTrap f (lanes.filter fun z => z.lane < f.lane).length fed.2)
      ∧ (mayFetch s = true → s.cx.armed = true → s.cx.handler = false → s.cx.debugHeld = false → s.cx.passBreak = false →
          (myTile s).breaks.contains s.cx.fetch = true → exec .codeLineFetch s = .next (stopForDebug s s.cur 2))

/-! ### Power -/

/-- R171, R237, R344 to R351, R356 to R359, R468 to R473: gear changes and bias; an evaluation each µs of datum time enters the estimate; a reading each
5 µs enters the temperatures and the hottest tile; droop, faults and low input act on duty, caps and clocks; the survey record of a period is
written or dropped; a gear is rewritten on demand. -/
def Obligations.PowerEvents : Prop :=
  ∀ (s : State) (g t0 : Nat) (gr : Group) (w : Nat),
    let t := tileOf s.cur
    let x := tileAt s t
    let d := dieOf s.cur
    let die := dieAt s d
    let m := d / 16
    let c := eventCluster s
    let cl := clusterAt s d c
    let settled := settleTile s t
    let grant3 : State → Nat → Nat → State := fun s k u => if (tileAt s u).grant = 3 then setGrant s u k else s
    let biasRec : ErrRec := { kind := 11, sev := 2, unit := 0x42, value := 3 + 256, place := (d * 128 + c * 8) * 2 ^ 15, tileValid := true, detail := leBytes 1 8 }
    let evals := datumOf s d / 1000
    let reads := datumOf s d / 5000
    let tick := (die.survTick + 1) * 2 ^ wbits die.surv.cfg 1 5
    let surveys := bitOf die.surv.cfg.toNat 0 = true ∧ die.stage = 2 ∧ die.halted = none ∧ tick ≤ datumOf s d
    let high := (clusterTiles d c).filter fun u => (tileAt s u).gear = 3
    let now := settle s s.cur
    let id := d * 2 ^ 22 + s.inp.sel % 256
    let short := gr.members.any fun m => match memberPlace s m with
      | some p => (tileAt s (tileOf p)).grant < gr.gear
      | none => false
    (x.change = some (g, t0) → s.now ≤ t0 + 250 → exec .gearChangeComplete s = .next (updTile settled t fun y => { y with gear := g, change := none, changeTries := 0 }))
      ∧ (x.change = some (g, t0) → t0 + 250 < s.now → exec .gearChangeComplete s = .next s)
      ∧ (x.change = none → wantedGear s t < x.grant → x.retryAt ≤ s.now → ∃ u, exec .gearChangeComplete s = .next u ∧ (tileAt u t).grant = wantedGear s t)
      ∧ (x.change = none → x.grant ≤ wantedGear s t ∨ s.now < x.retryAt → exec .gearChangeComplete s = .next s)
      ∧ (x.change = some (g, t0) → s.now < t0 + 250 → exec .gearChangeTimeout s = .next s)
      ∧ (x.change = some (g, t0) → t0 + 250 ≤ s.now → s.inp.flag = true → exec .gearChangeTimeout s = .next (loseTile settled t g))
      ∧ (x.change = some (g, t0) → t0 + 250 ≤ s.now → s.inp.flag = false → x.changeTries = 0 →
          ∃ u, exec .gearChangeTimeout s = .next u ∧ (tileAt u t).change = none ∧ (tileAt u t).grant = x.gear ∧ (tileAt u t).retryAt = s.now + 1000)
      ∧ (x.change = some (g, t0) → t0 + 250 ≤ s.now → s.inp.flag = false → x.changeTries ≠ 0 →
          ∃ u, exec .gearChangeTimeout s = .next u ∧ (tileAt u t).change = none ∧ (tileAt u t).grant = x.gear ∧ (tileAt u t).gearMax = x.gear)
      ∧ (cl.setting = some t0 → t0 + 2000 < s.now → exec .biasSetComplete s = .next s)
      ∧ (cl.setting = some t0 → s.now ≤ t0 + 2000 → exec .biasSetComplete s = .next ((clusterTiles d c).foldl (fun s u => grant3 s 3 u)
          (updCluster s d c fun y => { y with bias := true, setting := none })))
      ∧ (cl.setting = some t0 → s.now < t0 + 2000 → exec .biasSetTimeout s = .next s)
      ∧ (cl.setting = some t0 → t0 + 2000 ≤ s.now → ∃ u, exec .biasSetTimeout s = .next (mapAppend (writeRecord u d biasRec) d (mapEntry 9 c 15 0 0 0 0))
          ∧ u = (clusterTiles d c).foldl (fun s v => grant3 s 2 v) (updCluster s d c fun y => { y with setting := none, biasFailed := true, bias := false }))
      ∧ (cl.idleSince = some t0 → biasOn cl = true → t0 + 100000 ≤ s.now → high ≠ [] → exec .biasClearTimeout s =
          .next (high.foldl (fun s u => if (tileAt s u).change.isSome then s else setGrant s u (min 2 (tileAt s u).grant)) s))
      ∧ (cl.idleSince = some t0 → biasOn cl = true → t0 + 100000 ≤ s.now → high = [] →
          exec .biasClearTimeout s = .next (updCluster s d c fun y => { y with clearing := some s.now, idleSince := none }))
      ∧ (cl.idleSince = some t0 → s.now < t0 + 100000 → exec .biasClearTimeout s = .next s)
      ∧ (cl.clearing = some t0 → t0 + 2000 ≤ s.now → ∃ u, exec .biasClearComplete s = .next u ∧ (clusterAt u d c).bias = false ∧ (clusterAt u d c).clearing = none
          ∧ (clusterAt u d c).setting = if (clusterTiles d c).any fun u => (tileAt s u).grant = 3 then some s.now else none)
      ∧ (cl.clearing = some t0 → s.now < t0 + 2000 → exec .biasClearComplete s = .next s)
      ∧ (die.evals < evals → die.powered = true → die.halted = none → ∃ u, exec .powerEvaluation s = .next u ∧ (dieAt u d).evals = evals
          ∧ wbits (dieAt u d).pwrcap 32 16 = min 65535 (estimate s d (wbits s.inp.value 0 16)))
      ∧ (evals ≤ die.evals → exec .powerEvaluation s = .next s)
      ∧ (die.reads < reads → die.powered = true → ∃ u k r, exec .sensorRead s =
            .next (if 4 ≤ (dieAt u d).critReads then haltDie (heatRecord u d (d * 128) 3 r 1) d 3 else u)
          ∧ (dieAt u d).reads = reads ∧ (dieAt u d).hotspot = hotspotWord (datumOf s d) (d % 16) k r ∧ (∀ v ∈ tilesOf d, readingOf u v ≤ r)
          ∧ ∀ v ∈ tilesOf d, (tileAt u v).temp = s.inp.ints.getD (v % 128) (tileAt s v).temp)
      ∧ (reads ≤ die.reads → exec .sensorRead s = .next s)
      ∧ (∃ u, exec .railDroop s = .next u ∧ (dieAt u d).droopUntil = some (s.now + 10000))
      ∧ (die.droopUntil = some w → w ≤ s.now → ∃ u, exec .droopDutyExpiry s = .next u ∧ (dieAt u d).droopUntil = none)
      ∧ (die.droopUntil = some w → s.now < w → exec .droopDutyExpiry s = .next s)
      ∧ (exec .railFault s = .next (haltDie (supplyRecord s d 5 5) d 5))
      ∧ (∃ u, exec .inputLow s = .next u ∧ ∀ e ∈ diesOf m, capOf (dieAt u e) = 200
          ∧ (dieAt u e).capSaved = some ((dieAt s e).capSaved.getD (capOf (dieAt s e))))
      ∧ (∃ u, exec .inputRecover s = .next u ∧ ∀ e ∈ diesOf m, (dieAt u e).capSaved = none
          ∧ capOf (dieAt u e) = ((dieAt s e).capSaved.getD (capOf (dieAt s e))) % 1024)
      ∧ (exec .inputCritical s = .next ((diesOf m).foldl (fun s e => haltDie (supplyRecord s e 5 5) e 5) s))
      ∧ (surveys → ringFull die.surv = false → ∃ u, exec .surveyTick s = .next u ∧ (dieAt u d).survSeq = die.survSeq + 1 ∧ (dieAt u d).survTick = die.survTick + 1
          ∧ (dieAt u d).survDrop = 0 ∧ (dieAt u d).surv.wr = (die.surv.wr + 1) % (2 * ringSlots die.surv)
          ∧ Stored s u (ringKey d die.surv 10240 die.surv.wr) (surveyRecord die d (die.survSeq + 1) tick))
      ∧ (surveys → ringFull die.surv = true → ∃ u, exec .surveyTick s = .next u ∧ (dieAt u d).survSeq = die.survSeq + 1 ∧ (dieAt u d).counts = []
          ∧ (dieAt u d).survDrop = die.survDrop + 1 ∧ MemorySame s u)
      ∧ (¬surveys → exec .surveyTick s = .next s)
      ∧ (groupAt s id = some gr → gr.chart = true → gr.begun = false → gr.arrived ≠ [] → short = true → gr.gearWait = none →
          exec .chartGearTimeout s = .next (gr.arrived.foldl (fun s m => execChartGearTimeout.trapMember s id m)
            (setGroup s id { gr with gearWait := some (datumOf s d), gearTraps := 1 })))
      ∧ (groupAt s id = some gr → short = false → exec .chartGearTimeout s = .next (setGroup s id { gr with gearWait := none }))
      ∧ (s.cx.phase ≠ .empty → exec .rewriteReq s = .next (withCx now (now.cx.setCr 0x000 (wput (s.cx.cr 0x000) 0 2 (wbits s.inp.value 0 2)))))

/-! ### Links -/

/-- R325, R328, R333, R342, R444 to R457, R463, R464: a port that is up sends, and accepts the expected flit with a good CRC or discards it; retry
requests, aborts and notices act; retraining attempts pass or are followed by the next; packets between modules are resent or given up. -/
def Obligations.LinkEvents : Prop :=
  ∀ (s s1 : State) (f : Flit) (rest : List Flit) (p : Packet) (pos n : Nat) (b : List Byte) (x : Named) (e j : Nat) (up : Bool) (c : Nat × Nat),
    let d := dieOf s.cur
    let die := dieAt s d
    let k := eventPort s
    let port := portAt s d k
    let runs := hasPort d k = true ∧ die.powered = true ∧ (port.state = .up ∨ port.state = .keying)
    let taken := updPort s d k fun x => { x with wire := rest }
    let g := spoiled f s.inp.bytes
    let due := die.uet.filter fun p => p.last + 2000000 ≤ s.now && !inOutbox die p
    let aged := die.uet.filter fun p => p.since + 64000000 ≤ s.now
    let same : Packet → Bool := fun q => q.psn.map (·.1) = p.psn.map (·.1) && dieOf q.dst = dieOf p.dst && q.psn.isSome
    let found := bestConfig k (s.inp.values.map (·.toNat)) s.inp.value.toNat
    let deadline := port.trainAt + attemptBound k
    (runs → exec .flitSend s = .next (sendFlit s d k))
      ∧ (port.state = .retraining ∨ port.state = .failed ∨ port.state = .down → exec .flitSend s = .next s)
      ∧ (port.keyed = true → port.groupTx ≠ [] → port.groupTx.length < 5 → 4 ≤ port.idles → port.ctlOut = [] → ∃ u, exec .tagGroupPad s = .next u
          ∧ (portAt u d k).ctlOut.length = 5 - port.groupTx.length)
      ∧ (port.idles < 4 → exec .tagGroupPad s = .next s)
      ∧ (k ≠ 0 → runs → port.wire = f :: rest →
          (g.kind = 0 → g.good = false → exec .flitReceive s = .next taken)
          ∧ (g.kind = 1 ∨ g.kind = 2 → g.good = true → g.seq = (portAt taken d k).rxSeq → exec .flitReceive s = .next (acceptFlit taken d k g))
          ∧ (g.kind ≠ 0 → g.good = false ∨ g.seq ≠ (portAt taken d k).rxSeq → exec .flitReceive s = .next (discardFlit taken d k)))
      ∧ (k ≠ 0 → port.wire = [] → exec .flitReceive s = .next s)
      ∧ (takeControl s 1 = some (b, s1) → (portAt s1 d k).keyed = false → ¬(8 ≤ (portAt s1 d k).reqRun + 1 ∧ (portAt s1 d k).reqSeq = fieldAt b 2 2 % 4096) →
          ∃ u, exec .retryRequest s = .next u ∧ (portAt u d k).resend = (portAt s1 d k).retry.findIdx? (fun y => y.seq = fieldAt b 2 2 % 4096))
      ∧ (takeControl s 1 = none → exec .retryRequest s = .next s)
      ∧ (port.asked = some n → port.askedAt + repeatTime k ≤ s.now → exec .retryRequestRepeat s = .next (askRetry s d k n))
      ∧ (port.asked = some n → s.now < port.askedAt + repeatTime k → exec .retryRequestRepeat s = .next s)
      ∧ (takeControl s 3 = some (b, s1) → exec .abortFlit s = .next (dropSlot s1 d k (fieldAt b 1 1 % 4)))
      ∧ (takeControl s 3 = none → exec .abortFlit s = .next s)
      ∧ (Arrived s (fun p _ => kindOf p.body = 15) p pos → p.body = .taint x → exec .taintNotice s = .next (taintHere (acted s pos) d x))
      ∧ (Arrived s (fun p _ => kindOf p.body = 16) p pos → p.body = .loss x → exec .lossNotice s = .next (lossHere (acted s pos) d x))
      ∧ (Arrived s (fun p _ => kindOf p.body = 17) p pos → p.body = .failure e j up → exec .failureNotice s = .next (learnLink (acted s pos) d e j up))
      ∧ (port.state = .retraining → s.now < deadline → found = some c → exec .retrainAttemptComplete s = .next (passAttempt s d k c s.inp.flag2 s.inp.len))
      ∧ (port.state = .retraining → s.now < deadline → found = none → exec .retrainAttemptComplete s = .next (nextAttempt s d k))
      ∧ (port.state = .retraining → deadline ≤ s.now → exec .retrainAttemptTimeout s = .next (nextAttempt s d k) ∧ exec .retrainAttemptComplete s = .next s)
      ∧ (port.state = .retraining → s.now < deadline → exec .retrainAttemptTimeout s = .next s)
      ∧ (hasPort d k = true → port.state = .up → exec .lossOfSignal s = .next (retrainLink s d k 3 false))
      ∧ (hasPort d k = true → port.state = .keying → exec .lossOfSignal s = .next (retrainLink s d k 3 true))
      ∧ (port.state = .failed → exec .lossOfSignal s = .next s)
      ∧ (hasPort d 0 = true → (portAt s d 0).state = .failed ∨ (portAt s d 0).state = .down → exec .hostLightReturn s = .next (reviveLink s d 0 3))
      ∧ (hasPort d k = true → peerOf s.z d k ≠ none ∨ k = 0 → (port.state = .failed → exec .portRetrainCommand s = .next (reviveLink s d k 4))
          ∧ (port.state = .up → exec .portRetrainCommand s = .next (retrainLink s d k 4 false)))
      ∧ (hasPort d k = true → port.state ≠ .down → exec .portDisableCommand s = .next (failLink s d k 4))
      ∧ (port.state = .down → exec .portDisableCommand s = .next s)
      ∧ (hasPort d k = true → exec .eyeMarginMeasure s = .next (lkCheck (updPort s d k fun x => { x with lkpred := wput x.lkpred 8 8 (min 100 (wbits s.inp.value 0 8)) }) d k true))
      ∧ (hasPort d k = true → portKind k ≠ 0 → port.groupRx = [] → ∃ u, exec .vdportModeWrite s = .next u ∧ wbits (portAt u d k).vdport 16 1 = wbits s.inp.value 0 1
          ∧ (portAt u d k).modeNext = none)
      ∧ (hasPort d k = true → portKind k ≠ 0 → port.groupRx ≠ [] → ∃ u, exec .vdportModeWrite s = .next u ∧ (portAt u d k).vdport = port.vdport
          ∧ (portAt u d k).modeNext = some (wbits s.inp.value 0 1))
      ∧ (portKind k = 0 → exec .vdportModeWrite s = .next s)
      ∧ (due[s.inp.sel]? = some p → exec .uetRetransmitTimeout s = .next (resendUet s d p))
      ∧ (due[s.inp.sel]? = none → exec .uetRetransmitTimeout s = .next s)
      ∧ (aged[s.inp.sel]? = some p → ∃ u, exec .uetGiveUp s = .next (endLost u p.named)
          ∧ let v := packetRecord (updDie s d fun x => { x with uet := x.uet.filter (fun q => !same q), outbox := x.outbox.filter fun q => !same q }) d 10 3 p.named 4
            u = match senderOf v p.src p.task p.inst with
              | some q => stopTask v d (ctxAt v q).task 15 (some q) none
              | none => v)
      ∧ (aged[s.inp.sel]? = none → exec .uetGiveUp s = .next s)

/-- R329, R339, R340, R461: the shares and signatures of a key exchange act; a port that was being keyed comes up once its peer's keys are ready; renewal
starts at the bound of the counter; an upstream neighbour is asked for a time message at most once in 1 ms, and the one that has come gives a measurement,
which sets the rate and counts towards lock or its loss; a lost upstream loses lock after 1 ms. -/
def Obligations.KeysAndTime : Prop :=
  ∀ (s s1 : State) (b : List Byte) (key n t0 k e q m : Nat) (v : State) (w r : Int),
    let d := dieOf s.cur
    let die := dieAt s d
    let j := eventPort s
    let port := portAt s d j
    let x := portAt s1 d j
    let rate := s.inp.ints.getD 0 0
    let z := dieAt v d
    let up := upstreamPort s d = some k ∧ die.powered = true
    (takeControl s 4 = some (b, s1) → x.exchanging = true → ∃ u, exec .keyShareFirst s = .next u ∧ (portAt u d j).peerKey = fieldAt b 4 32
          ∧ (portAt u d j).peerRand = slice b 36 28 ∧ (portAt u d j).priv = x.priv)
      ∧ (takeControl s 4 = some (b, s1) → x.exchanging = false → ∃ u, exec .keyShareFirst s = .next u ∧ (portAt u d j).peerKey = fieldAt b 4 32
          ∧ (portAt u d j).exchanging = true ∧ (portAt u d j).priv = Config.freeNat s1.free)
      ∧ (takeControl s 4 = none → exec .keyShareFirst s = .next s)
      ∧ (takeControl s 5 = some (b, s1) → let sig := padTo 64 (ed25519Sign (Config.identityKey d) (keyBody (x25519Public x.priv) x.rand (dirId d j) (x.peerRand.take 28 ++ slice b 4 4)))
          ∃ u, exec .keyShareSecond s = .next u ∧ (portAt u d j).peerId = fieldAt b 8 4 ∧ (portAt u d j).peerRand = x.peerRand.take 28 ++ slice b 4 4
            ∧ (portAt u d j).ctlOut = x.ctlOut ++ [padTo 64 (leBytes 1 6 ++ leBytes 3 0 ++ sig.take 32), padTo 64 (leBytes 1 7 ++ leBytes 3 0 ++ slice sig 32 32)])
      ∧ (takeControl s 5 = none → exec .keyShareSecond s = .next s)
      ∧ (takeControl s 6 = some (b, s1) → ∃ u, exec .keySignature s = .next u ∧ (portAt u d j).halfSig = slice b 4 32)
      ∧ (takeControl s 6 = none → takeControl s 7 = some (b, s1) → exec .keySignature s =
            .next (if ed25519Verify (identityAt s d (partyOf s.z d j)) (keyBody x.peerKey x.peerRand x.peerId x.rand) (x.halfSig ++ slice b 4 32)
              then makeKeys s1 d j else failLink s1 d j 4))
      ∧ (port.nextTx = none → exec .keysReady s = .next s)
      ∧ (j ≠ 0 → port.nextTx = some (key, n) → port.keyTx = none → port.ctlOut = [] → takeControl s 8 = some (b, s1) → ∃ u, exec .keysReady s = .next (portUp u d j)
          ∧ (portAt u d j).keyTx = some key ∧ (portAt u d j).counterTx = 0 ∧ (portAt u d j).exchanging = false)
      ∧ (port.keyed = true → port.state = .up → port.exchanging = false → port.nextTx = none → 2 ^ 32 - 2 ^ 20 ≤ max port.counterTx port.counterRx →
          exec .keyRenewalStart s = .next (offerKeys s d j))
      ∧ (max port.counterTx port.counterRx < 2 ^ 32 - 2 ^ 20 → exec .keyRenewalStart s = .next s)
      ∧ (upstreamPort s d = none → exec .timeMessage s = .next s)
      ∧ (die.powered = false → exec .timeMessage s = .next s)
      ∧ (up → peerOf s.z d k = none → exec .timeMessage s = .next (measureTime s d k (s.inp.ints.getD 1 0) rate))
      ∧ (up → peerOf s.z d k = some (e, q) → timeArrived s d = some m → exec .timeMessage s =
          .next (measureTime (updDie s d fun x => { x with inbox := ldel x.inbox m }) d k (measuredOffset s d e (s.inp.ints.getD 1 0) (s.inp.ints.getD 2 0)) rate))
      ∧ (up → peerOf s.z d k = some (e, q) → timeArrived s d = none → die.timeSent = none → exec .timeMessage s =
          .next (sendPacket (updDie s d fun x => { x with timeSent := some s.now }) { timePacket e d with since := s.now }))
      ∧ (up → peerOf s.z d k = some (e, q) → timeArrived s d = none → die.timeSent = some t0 → s.now < t0 + 1000000 → exec .timeMessage s = .next s)
      ∧ (∃ u, measureTime v d k w r = noteOffset u d k w ∧ (z.follow = none → (dieAt u d).rate = clampI (-200000) 200000 r) ∧ (dieAt u d).upstreamLost = none
          ∧ (dieAt u d).timeSent = none ∧ wbits (dieAt u d).timelock 0 3 = k % 8)
      ∧ (z.locked = false → w.natAbs ≤ 10 → 16 ≤ z.goodOffsets + 1 → clockAgrees v d = true → ∃ u, (dieAt u d).locked = true ∧ wbits (dieAt u d).timelock 63 1 = 1
          ∧ noteOffset v d k w = if z.everLocked then timeRecord u d 2 k 1 else u)
      ∧ (z.locked = false → w.natAbs ≤ 10 → z.goodOffsets + 1 < 16 ∨ clockAgrees v d = false →
          noteOffset v d k w = updDie v d fun x => { x with goodOffsets := x.goodOffsets + 1 })
      ∧ (z.locked = false → 10 < w.natAbs → noteOffset v d k w = updDie v d fun x => { x with goodOffsets := 0 })
      ∧ (z.locked = true → w.natAbs ≤ 100 → noteOffset v d k w = updDie v d fun x => { x with badOffsets := 0 })
      ∧ (z.locked = true → 100 < w.natAbs → z.badOffsets + 1 < 4 → noteOffset v d k w = updDie v d fun x => { x with badOffsets := x.badOffsets + 1 })
      ∧ (z.locked = true → 100 < w.natAbs → 4 ≤ z.badOffsets + 1 → noteOffset v d k w = loseLock v d 2)
      ∧ (die.locked = true → upstreamPort s d = none → die.upstreamLost = none → ∃ u, exec .lockLossUpstream s = .next u ∧ (dieAt u d).upstreamLost = some s.now)
      ∧ (die.locked = true → upstreamPort s d = none → die.upstreamLost = some t0 → t0 + 1000000 ≤ s.now → exec .lockLossUpstream s = .next (loseLock s d 1))
      ∧ (die.locked = true → upstreamPort s d = none → die.upstreamLost = some t0 → s.now < t0 + 1000000 → exec .lockLossUpstream s = .next s)
      ∧ (die.locked = false ∨ upstreamPort s d ≠ none → exec .lockLossUpstream s = .next s)

/-! ### The host -/

/-- R145, R335, R337, R338, R416, R418: line messages of the host-coherent windows take, return or drop a line, or are recorded where they do not fit
its state, and a line that comes back lets the waiting records of its module be written; the commands enqueue a task, read, write, flush and invalidate memory; a halted die answers with an error. -/
def Obligations.HostAccess : Prop :=
  ∀ (s s1 : State) (h : HostLine) (t0 n : Nat) (b : List Byte) (keys : List (Nat × Nat)),
    let d := dieOf s.cur
    let l := hostLine s
    let open' := lineOpen s = true ∧ dieHalted s = false
    let ready := hostUp s (moduleOf s.cur) = true ∧ dieHalted s = false ∧ (myDie s).stage = 2
    let corrected := eccCorrect s (64 * l) 64
    let line := padTo 64 (s.inp.bytes.take 64)
    let written : State → Prop := fun u => ∀ k, dramByte u k = if 64 * l ≤ k ∧ k < 64 * l + 64 then line.getD (k - 64 * l) 0 else dramByte s k
    let te := s.inp.tenant % 16
    let r := recSet b (min (recPriority b) (tenantAt s d te).priority) te
    (lineOpen s = false → exec .hostReadShared s = .next s ∧ exec .hostReadOwn s = .next s ∧ exec .hostWriteBack s = .next s ∧ exec .hostDrop s = .next s)
      ∧ (lineOpen s = true → dieHalted s = true → exec .hostReadShared s = .next (lineAnswer s l 1 []) ∧ exec .hostReadOwn s = .next (lineAnswer s l 1 []))
      ∧ (open' → lineState s l ≠ 2 → eccMem s l ≠ 2 → (∃ u, exec .hostReadShared s = .next u ∧ lineState u l = 1
            ∧ u = lineAnswer (setLine corrected l 1) l 0 (dramRead corrected (64 * l) 64))
          ∧ ∃ u, exec .hostReadOwn s = .next u ∧ lineState u l = 2 ∧ u = lineAnswer (setLine corrected l 2) l 0 (dramRead corrected (64 * l) 64))
      ∧ (open' → lineState s l = 2 → exec .hostReadShared s = .next s ∧ exec .hostReadOwn s = .next s ∧ exec .hostDrop s = .next (protocolRecord s l 0x0C)
          ∧ ∃ v, exec .hostWriteBack s = .next (finishWaiting v (moduleOf s.cur)) ∧ (lineState v l = if s.inp.flag then 1 else 0) ∧ written v)
      ∧ (open' → lineState s l ≠ 2 → exec .hostWriteBack s = .next (protocolRecord s l 0x0C)
          ∧ ∃ u, exec .hostDrop s = .next u ∧ lineState u l = 0 ∧ u = { s with hostLines := u.hostLines })
      ∧ (alook s.hostLines l = some h → h.recalled = some t0 → hostUp s (moduleOf s.cur) = true → ∃ v, exec .hostRecallAck s = .next (finishWaiting v (moduleOf s.cur))
          ∧ lineState v l = h.wanted ∧ (h.state = 2 → written v) ∧ (h.state ≠ 2 → v = { s with hostLines := v.hostLines }))
      ∧ (alook s.hostLines l = some h → h.recalled = none → exec .hostRecallAck s = .next s ∧ exec .hostRecallTimeout s = .next s)
      ∧ (alook s.hostLines l = some h → h.recalled = some t0 → t0 + 100000 ≤ s.now ∨ hostUp s (moduleOf s.cur) = false →
          ∃ v, exec .hostRecallTimeout s = .next (finishWaiting v (moduleOf s.cur)) ∧ lineState v l = 0
            ∧ v = { protocolRecord s l 0x0C with hostLines := v.hostLines })
      ∧ (alook s.hostLines l = some h → h.recalled = some t0 → s.now < t0 + 100000 → hostUp s (moduleOf s.cur) = true → exec .hostRecallTimeout s = .next s)
      ∧ (ready → s.inp.addr % 128 = 0 → tenantRead s d te s.inp.addr 128 = some b → enqueue s d te s.inp.addr r = .ok (n, s1) →
          exec .hostEnqueue s = .next (respond s1 1 0 (leBytes 4 n)))
      ∧ (ready → s.inp.addr % 128 = 0 → tenantRead s d te s.inp.addr 128 = some b → enqueue s d te s.inp.addr r = .error n →
          exec .hostEnqueue s = .next (respond s 1 n []))
      ∧ (ready → s.inp.addr % 128 ≠ 0 → exec .hostEnqueue s = .next (respond s 1 1 []))
      ∧ (ready → netKeys s d te false (pieces s.inp.addr s.inp.len) = .ok keys → bulkBad s keys = false →
          exec .hostRead s = .next (respond (tellData (keys.foldl (fun s x => chargeDram s x.1 x.2 te) s) (bulkRead s keys)) 2 0 []))
      ∧ (ready → netKeys s d te false (pieces s.inp.addr s.inp.len) = .ok keys → bulkBad s keys = true → exec .hostRead s = .next (respond s 2 1 []))
      ∧ (ready → netKeys s d te false (pieces s.inp.addr s.inp.bytes.length) = .ok keys →
          exec .hostWrite s = .next (respond (bulkWrite te keys s.inp.bytes s) 3 0 []))
      ∧ (ready → let lo := devKey (d / 16) s.inp.addr
          let held := (s.l2.map (·.1)).filter fun l => homeDie (64 * l) = d && lo ≤ 64 * l + 63 && 64 * l < lo + s.inp.len
          ∃ u, exec .hostFlush s = .next (respond (dropOnDie d lo s.inp.len u) 4 0 []) ∧ u = held.foldl (fun s l => writeBack s l false) s
            ∧ ∀ l ∈ held, alook u.l2 l = none ∧ ∀ x, alook s.l2 l = some x → x.dirty = true → x.data.length = 64 →
                ∀ k, k / 64 = l → dramByte u k = x.data.getD (k % 64) 0)
      ∧ (ready → exec .hostInvalidate s = .next (respond (tlbDropOn s (fun t => t / 128 = d) te s.inp.addr s.inp.len) 5 0 []))
      ∧ (hostUp s (moduleOf s.cur) = false → exec .hostEnqueue s = .next s ∧ exec .hostRead s = .next s ∧ exec .hostWrite s = .next s ∧ exec .hostFlush s = .next s
          ∧ exec .hostInvalidate s = .next s)
      ∧ (hostUp s (moduleOf s.cur) = true → dieHalted s = true → exec .hostEnqueue s = .next (respond s 1 1 []) ∧ exec .hostRead s = .next (respond s 2 1 [])
          ∧ exec .hostWrite s = .next (respond s 3 1 []) ∧ exec .hostFlush s = .next (respond s 4 1 []) ∧ exec .hostInvalidate s = .next (respond s 5 1 []))

/-- R220, R336, R361 to R364, R384, R386, R413, R440, R459: a legend is installed and its sheets tagged, a page revoked once no context locks it, a task
stopped, a die halted or reset; a debug stop holds a drained context, a single step issues one instruction of one engine, and resume lets
the context go on. -/
def Obligations.CommandsAndDebug : Prop :=
  ∀ (s : State) (key cause n : Nat) (sheets : List Nat) (q : List (Nat × Option Nat)) (x : Nat × Option Nat) (t : Task) (e : Engine),
    let d := dieOf s.cur
    let up := hostUp s (moduleOf s.cur) = true
    let ready := up ∧ dieHalted s = false ∧ (myDie s).stage = 2
    let te := s.inp.tenant % 16
    let b := padTo 64 (s.inp.bytes.take 64)
    let h := wbits s.inp.value 0 32
    let mine := (dieAt s d).dumps.filter fun n => n / 2 ^ 16 % 2 ^ 32 = h
    let size := 2 ^ pageBits (s.inp.sel % 4)
    let lo := va57 s.inp.addr / size * size
    let undue := dropTrap s
    let stepped : Nat → Bool := fun k => if e = .c then s.cx.stepSeq ≤ k else k = s.cx.stepSeq
    (ready → installable s d te (s.inp.sel % 65536) (legendOf b) = some (key, sheets) → exec .installLegend s =
          .next (respond (sheets.foldl (fun s k => setTag s k ((legendOf b).edition % 256)) (pokeThrough s key (splice b 0x38 (leBytes 4 0)))) 6 0 []))
      ∧ (ready → installable s d te (s.inp.sel % 65536) (legendOf b) = none → exec .installLegend s = .next (respond s 6 2 []))
      ∧ (ready → pageHolders s d te lo size = [] → exec .revokePage s = .next (respond s 7 0 []))
      ∧ (ready → pageHolders s d te lo size = x :: q → exec .revokePage s = .next ((x :: q).foldl (fun s x => revokeStop s d lo te x.1 x.2) s))
      ∧ (ready → taskAt s d h = none → exec .hostTaskStop s = .next (respond s 8 1 []))
      ∧ (ready → taskAt s d h = some t → mine = [] → exec .hostTaskStop s = .next (respond (stopTask s d h 6 none none) 8 0 []))
      ∧ (ready → taskAt s d h = some t → mine ≠ [] → exec .hostTaskStop s =
          .next (respond (updTask (mine.foldl (fun s n => dropDump s d n 3) s) d h fun t => { t with stopping := some 14 }) 8 0 []))
      ∧ (¬up → exec .installLegend s = .next s ∧ exec .revokePage s = .next s ∧ exec .hostTaskStop s = .next s ∧ exec .hostHalt s = .next s ∧ exec .dieReset s = .next s)
      ∧ (up → dieHalted s = false → (myDie s).powered = true → dieExists s d = true → ∃ u, exec .hostHalt s = .next u ∧ (dieAt u d).halted = some 4 ∧ (dieAt u d).tasks = [])
      ∧ (up → (myDie s).powered = true → (myDie s).halted = none → exec .dieReset s = .next (respond s 9 1 []))
      ∧ (up → (myDie s).powered = true → (myDie s).halted = some n → ∃ u, exec .dieReset s = .next u ∧ (dieAt u d).halted = none ∧ (dieAt u d).stage = 0 ∧ (dieAt u d).tasks = []
          ∧ (dieAt u d).saved = [] ∧ (dieAt u d).repairMap = (dieAt s d).repairMap ∧ u.cx = {})
      ∧ (s.cx.phase ≠ .empty → s.inp.flag2 = false → exec .debugArm s = .next (withCx s { s.cx with armed := s.inp.flag }))
      ∧ (s.cx.phase ≠ .empty → s.inp.flag2 = true → ∃ u, exec .debugArm s = .next u ∧ u.cx.armed = s.inp.flag ∧ (tileAt u (tileOf s.cur)).breaks = s.inp.values.take 4)
      ∧ (s.cx.due = some (.debug cause) → s.cx.handler = false → s.cx.drained = true → s.cx.asyncDue = none → ∃ u, exec .debugStopCommand s = .next u
          ∧ u.cx.debugHeld = true ∧ u.cx.due = none ∧ u.cx.trapDue = none)
      ∧ (debugHold undue = none → s.inp.flag = true → exec .debugStopCommand s = .next (stopTaskForDebug undue d h))
      ∧ (debugHold undue = none → s.inp.flag = false → exec .debugStopCommand s = .next ((debugHold (stopForDebug undue s.cur 3)).getD (stopForDebug undue s.cur 3)))
      ∧ (s.cx.debugHeld = true → ∃ u, exec .debugResume s = .next u ∧ u.cx = { s.cx with debugHeld := false, stepping := none, passBreak := true }
          ∧ u = thawChart (withCx s { s.cx with debugHeld := false, stepping := none, passBreak := true }) s.cur)
      ∧ (s.cx.debugHeld = false → exec .debugResume s = .next s ∧ exec .singleStep s = .next s)
      ∧ (s.cx.debugHeld = true → s.inp.engine = e → exec .singleStep s =
          .next (withCx s { s.cx with stepping := some e, stepSeq := if e = .c then s.cx.seqNext else nextSeq s.cx e, stepLine := decide (e = .c) }))
      ∧ (s.cx.stepping = some e → stepIssued s.cx e = true → effectsEnded s.cx stepped = true → s.cx.handler = false → s.cx.trapDue = none →
          ∃ u, exec .stepDone s = .next u ∧ u.cx = { s.cx with stepping := none } ∧ (dieAt u d).debugRecords = (dieAt s d).debugRecords ++ [debugBytes s s.cur 4 (engCode e)])
      ∧ (s.cx.stepping = some e → stepIssued s.cx e = false → exec .stepDone s = .next s)
      ∧ (s.cx.stepping = none → exec .stepDone s = .next s ∧ exec .stepCancel s = .next s)
      ∧ (s.cx.stepping = some e → exec .stepCancel s = .next (withCx s { s.cx with stepping := none }))

/-! ### Repair, start and registers -/

/-- R367 to R369, R409, R475 to R480, R486: a tile is withdrawn, tested and returned; a row's spare enters the map; the scrubber reads everything once;
a signed command is performed and recorded, or refused with status 3; the die's state and its attestation are answered. -/
def Obligations.RepairEvents : Prop :=
  ∀ (s : State) (t0 : Nat) (r : Suspect),
    let d := dieOf s.cur
    let die := dieAt s d
    let up := coreUp s = true
    let ready := up ∧ die.stage = 2
    let t := namedTile s
    let mine := tileOf s.cur
    let tested := returnTile (testPassed (repairAll s mine (findings s) s.inp.flag2) mine (findings s)) mine
    let failed := returnTile (retireTile s mine s.inp.flag2 fun s => if (tileAt s mine).fenced then s else fenceTile s mine) mine
    let verified : Nat → Prop := fun code => ed25519Verify (identityAt s d maintenanceParty) (commandBody s code) s.inp.sig = true ∧ die.maintSeq < s.inp.len
    let entry : Nat → ErrRec := fun code => { kind := 12, sev := 1, unit := 0x44, value := code + s.inp.len % 2 ^ 56 * 256, place := diePlace d, detail := leBytes 1 9 }
    let accepted : Nat → State := fun code => writeRecord (updDie s d fun x => { x with maintSeq := s.inp.len }) d (entry code)
    let key := devKey (d / 16) s.inp.addr
    let row := bankRow key
    (ready → dieHalted s = false → (tileAt s t).withdrawn = false → mayWithdraw s t = true → ∃ u, exec .testTile s = .next u ∧ u = withdraw s t ∧ (tileAt u t).withdrawn = true)
      ∧ (ready → dieHalted s = true ∨ (tileAt s t).withdrawn = true → exec .testTile s = .next (respond s 9 2 []))
      ∧ (ready → dieHalted s = false → (tileAt s t).withdrawn = false → mayWithdraw s t = false → exec .testTile s = .next s)
      ∧ ((myTile s).withdrawn = true → residents s mine = [] → (myTile s).testing = none → ∃ u, exec .selfTestRun s = .next u ∧ (tileAt u mine).testing = some s.now)
      ∧ ((myTile s).withdrawn = true → residents s mine = [] → (myTile s).testing = some t0 → s.inp.flag = false → s.now ≤ t0 + 5000000 →
          exec .selfTestRun s = .next (respond tested 9 0 []) ∧ (tileAt tested mine).withdrawn = false ∧ (tileAt tested mine).testing = none)
      ∧ ((myTile s).withdrawn = true → residents s mine = [] → (myTile s).testing = some t0 → s.inp.flag = true ∨ t0 + 5000000 < s.now →
          exec .selfTestRun s = .next (respond failed 9 0 []))
      ∧ ((myTile s).withdrawn = false ∨ residents s mine ≠ [] → exec .selfTestRun s = .next s)
      ∧ (die.sparing[s.inp.sel]? = some r → ∃ u, exec .dramRowSpareComplete s = .next (bankCheck u d r.bank r.addr)
          ∧ (∀ y ∈ (dieAt u d).sparing, ¬(y.bank = r.bank ∧ y.row = r.row))
          ∧ (die.repairMap.length < 512 → ∃ n, (dieAt u d).repairMap = die.repairMap ++ [mapEntry 6 0 15 (unitOfKey r.addr) r.bank r.row n]))
      ∧ (die.sparing[s.inp.sel]? = none → exec .dramRowSpareComplete s = .next s)
      ∧ (die.powered = true → exec .scrubPass s =
            .next ((tilesOf d).foldl (scrubTile d) (((s.ecc.map (·.1)).filter fun l => homeDie (64 * l) = d).foldl scrubGranule s)))
      ∧ (ready → ¬verified 3 → exec .clearCounts s = .next (respond s 9 3 []))
      ∧ (ready → ¬verified 5 → exec .spareDramRow s = .next (respond s 9 3 []))
      ∧ (ready → ¬verified 6 → exec .clearRepairMap s = .next (respond s 9 3 []))
      ∧ (ready → ¬verified 7 → exec .setThresholds s = .next (respond s 9 3 []))
      ∧ (ready → ¬verified 4 → (tileAt s t).withdrawn = false → exec .retireUnit s = .next (respond s 9 3 []))
      ∧ (ready → verified 3 → s.inp.sel = 0 → ∃ u, exec .clearCounts s = .next (respond u 9 0 [])
          ∧ u = updPort (accepted 3) d (s.inp.unit % 7) fun x => { x with lkpred := wput 0 8 8 (wbits x.lkpred 8 8), warned := [] })
      ∧ (ready → verified 3 → s.inp.sel = 1 → ∃ u, exec .clearCounts s = .next (respond u 9 0 []) ∧ wbits (bkpredAt (dieAt u d) (s.inp.unit % 2176)) 32 8 = 0
          ∧ s.inp.unit % 2176 ∉ (dieAt u d).bankWarned)
      ∧ (ready → verified 3 → 1 < s.inp.sel → exec .clearCounts s = .next (respond (updTl (accepted 3) d (s.inp.unit % 144) fun w => wput w 24 40 0) 9 0 []))
      ∧ (ready → verified 4 → dieHalted s = false → residents s t = [] → exec .retireUnit s =
            .next (respond (returnTile (repairFinding s.inp.flag2 t (physOf (accepted 4) t) (accepted 4) (s.inp.value, (s.inp.ints.getD 0 0).toNat)) t) 9 0 []))
      ∧ (ready → verified 5 → (inNear key || inLpddr key) = true → homeDie key = d →
          exec .spareDramRow s = .next (respond (beginSparing (accepted 5) d { bank := row.1, row := row.2, addr := key }) 9 0 []))
      ∧ (ready → verified 6 → ∃ u, exec .clearRepairMap s = .next (respond u 9 0 []) ∧ (dieAt u d).repairErase = true ∧ (dieAt u d).repairMap = die.repairMap
          ∧ (dieAt u d).maintSeq = s.inp.len)
      ∧ (ready → verified 7 → ∃ u, exec .setThresholds s = .next (respond u 9 0 []) ∧ (dieAt u d).thermcfg = mixWord die.thermcfg (s.inp.values.getD 2 die.thermcfg) thermBits
          ∧ (dieAt u d).bkthr = mixWord die.bkthr (s.inp.values.getD 1 die.bkthr) bkthrBits)
      ∧ (up → exec .readState s = .next (respond (updDie s d fun x => { x with err := { x.err with dropped := 0 } }) 9 0 (leBytes 8 die.startst.toNat
          ++ ((List.range 144).flatMap fun i => leBytes 8 (tlValue s d i).toNat) ++ ((List.range 2176).flatMap fun b => leBytes 8 (bkpredAt die b).toNat)
          ++ ((portsOf d).flatMap fun k => leBytes 8 (portAt s d k).lkpred.toNat) ++ leBytes 8 (ringPtr die.err) ++ (die.repairMap.flatMap fun e => leBytes 8 e.toNat))))
      ∧ (up → ∃ v body, exec .attest s = .next (respond s 9 0 (body ++ padTo 64 (ed25519Sign (Config.identityKey d) body)))
          ∧ body = padTo 32 (s.inp.bytes.take 32) ++ leBytes 4 (diePlace d) ++ leBytes 4 v ++ measured s d)
      ∧ (coreUp s = false → exec .testTile s = .next s ∧ exec .readState s = .next s ∧ exec .attest s = .next s ∧ exec .clearCounts s = .next s ∧ exec .setThresholds s = .next s)

/-- R365 to R367, R484, R485: power good starts stage 0 from the image the ROM takes; stage 1 applies the repair map and trains the links, and goes on
only with enough tiles and memory; stage 2 is reached with lock, or after 2 s without; a die that does not report is held off; an
image is written in ROM recovery; a module without power has lost all but its flash, in which a die's repair map,
its identity list and the number of its last signed command stand. -/
def Obligations.StartEvents : Prop :=
  ∀ (s : State),
    let d := dieOf s.cur
    let die := myDie s
    let m := moduleOf s.cur
    let late := (diesOf (d / 16)).any fun e => (dieAt s e).powered && (dieAt s e).startAt + 20000000 ≤ s.now
    (die.powered = false → die.heldOff = false → dieExists s d = true → ∃ u, exec .startStage0 s = .next u ∧ (dieAt u d).powered = true ∧ (dieAt u d).startAt = s.now
          ∧ runSlot (dieAt u d) = bootSlot s (d / 16))
      ∧ (die.powered = true ∨ die.heldOff = true → exec .startStage0 s = .next s)
      ∧ (die.powered = true → die.halted = none → die.stage = 0 → runSlot die ≠ 15 → ∃ u, exec .startStage1 s = .next u ∧ (dieAt u d).stage = 1
          ∧ wbits (dieAt u d).startst 0 2 = 1 ∧ (mayGoOn (dieAt u d) = false → (dieAt u d).safeOnly = true))
      ∧ (die.powered = false ∨ die.stage ≠ 0 ∨ runSlot die = 15 → exec .startStage1 s = .next s)
      ∧ (stage1Done s = true → die.locked = true ∨ bitOf die.timelock.toNat 62 = true → ∃ u, exec .startStage2 s = .next u ∧ u = enterStage2 s d ∧ (dieAt u d).stage = 2)
      ∧ (stage1Done s = false → exec .startStage2 s = .next s ∧ exec .timeLockStartTimeout s = .next s)
      ∧ (stage1Done s = true → die.locked = false → die.startAt + 2000000000 ≤ s.now → ∃ u, exec .timeLockStartTimeout s = .next u
          ∧ u = startFailed (enterStage2 s d) d 6 ∧ (dieAt u d).stage = 2)
      ∧ (die.powered = false → die.heldOff = false → late = true → ∃ u, exec .dieStartTimeout s =
            .next (startRecord u (controllerOf u (d / 16)) 2 { kind := 13, sev := 1, unit := 0x44, place := diePlace d })
          ∧ u = (portsOf d).foldl (deadLink d) (updDie s d fun x => { x with heldOff := true }))
      ∧ (late = false → exec .dieStartTimeout s = .next s)
      ∧ (coreUp s = true → runSlot die ≠ 15 → exec .romImageWrite s = .next (respond s 9 1 []))
      ∧ (coreUp s = true → runSlot die = 15 → imageOk s.inp.bytes = false → exec .romImageWrite s = .next (respond s 9 3 []))
      ∧ (coreUp s = true → runSlot die = 15 → imageOk s.inp.bytes = true → ∃ u, exec .romImageWrite s = .next (respond u 9 0 [])
          ∧ flashImage u m (s.inp.sel % 2) = s.inp.bytes ∧ u = { s with flash := u.flash })
      ∧ (coreUp s = false → exec .romImageWrite s = .next s)
      ∧ (∃ u, exec .powerDown s = .next u ∧ u.cx = {} ∧ u.flash = s.flash ∧ (∀ k, homeDie k / 16 = m → memGet u.mem k = 0) ∧ ∀ e ∈ diesOf m,
          (dieAt u e).powered = false ∧ (dieAt u e).stage = 0 ∧ (dieAt u e).tasks = []
            ∧ (dieAt u e).repairMap = (dieAt s e).repairMap ∧ (dieAt u e).identity = (dieAt s e).identity
            ∧ (dieAt u e).maintSeq = (dieAt s e).maintSeq)

/-- R13, R163, R348, R359, R390, R406, R433, R438: the host's accesses to the management core's registers take effect on a die at their stage: a ring's
index moves within its slots, a read count is cleared, pools and dump areas must lie in memory, a governor base is valid only if all of it walks,
and the other registers are written and read from the stage that serves them. -/
def Obligations.RegisterEvents : Prop :=
  ∀ (s s1 : State) (l : List Tlb) (b : List Byte),
    let d := dieOf s.cur
    let die := myDie s
    let ready := coreUp s = true ∧ die.stage = 2 ∧ die.halted = none
    let r := ringOf (dieAt s d) s.inp.sel
    let i := wbits s.inp.value 0 13
    let fits := ¬(2 * ringSlots r ≤ i ∨ ringSlots r < (r.wr + 2 * ringSlots r - i) % (2 * ringSlots r))
    let te := namedTenant s
    let entry := tenantAt s d te
    let v := s.inp.value
    let base := mixWord 0 (v ||| 1) (maskOf 56 22)
    let off := updTenant s d te fun x => { x with govbase := base, govTr := [] }
    let pool := areasFit (wbits v 36 28 * 65536) (if bitOf v.toNat 24 then wbits v 12 12 + 1 else 0)
    let dump := areasFit (wbits v 44 20 * 2 ^ 24) (wbits v 40 4 + 1)
    let from' := registerStage s.inp.sel
    let serves := coreUp s = true ∧ runSlot die ≠ 15 ∧ (die.safeOnly = false ∧ die.halted = none ∨ from' = 0) ∧ from' ≤ die.stage
    (ready → exec .errcfgEnable s = .next (respond (writeErrcfg s d (v ||| 1)) 9 0 []))
      ∧ (ready → fits → ∃ u, exec .errptrRdWrite s = .next (respond u 9 0 []) ∧ ringOf (dieAt u d) s.inp.sel = { r with rd := i })
      ∧ (ready → ¬fits → exec .errptrRdWrite s = .next (respond s 9 0 []))
      ∧ (ready → ∃ u, exec .errptrRead s = .next (respond u 9 0 (leBytes 8 (ringPtr r))) ∧ ringOf (dieAt u d) s.inp.sel = { r with dropped := 0 })
      ∧ (ready → ∃ u, exec .landcntRead s = .next (respond u 9 0 (leBytes 8 (entry.stale * 2 ^ 32 + entry.refused)))
          ∧ tenantAt u d te = { entry with stale := 0, refused := 0 })
      ∧ (ready → pool = true → ∃ u, exec .savepoolWrite s = .next (respond u 9 0 [])
          ∧ tenantAt u d te = { entry with savepool := mixWord entry.savepool v (maskOf 63 36 + maskOf 24 12) })
      ∧ (ready → pool = false → exec .savepoolWrite s = .next (respond s 9 0 []))
      ∧ (ready → dump = true → ∃ u, exec .dumpcfgWrite s = .next (respond u 9 0 [])
          ∧ tenantAt u d te = { entry with dumpcfg := mixWord entry.dumpcfg v (maskOf 63 9 + maskOf 1 0) })
      ∧ (ready → dump = false → exec .dumpcfgWrite s = .next (respond s 9 0 []))
      ∧ (ready → govWalk s d te (govSteps base.toNat) = some (l, s1) →
          exec .govbaseValidSet s = .next (respond (updTenant s1 d te fun x => { x with govbase := base ||| 1, govTr := l }) 9 0 []))
      ∧ (ready → govWalk s d te (govSteps base.toNat) = none → exec .govbaseValidSet s = .next (respond off 9 2 []))
      ∧ (serves → s.inp.flag2 = false → exec .registerWrite s = writeRegister s s.inp.sel v)
      ∧ (serves → s.inp.flag2 = true → readRegister s s.inp.sel = some b → exec .registerWrite s = .next (respond s 9 0 b))
      ∧ (serves → s.inp.flag2 = true → readRegister s s.inp.sel = none → exec .registerWrite s = .next (respond s 9 1 []))
      ∧ (coreUp s = true → die.stage < from' → exec .registerWrite s = .next (respond s 9 1 []))
      ∧ (s.inp.sel = 17 → ∃ u, writeRegister s s.inp.sel v = .next (respond u 9 0 []) ∧ tenantAt u d te = { entry with ctxbud := v.toNat })
      ∧ (s.inp.sel = 13 → ∃ u, writeRegister s s.inp.sel v = .next (respond u 9 0 []) ∧ tenantAt u d te = { entry with tvec := v })
      ∧ (s.inp.sel = 21 → ∃ u, writeRegister s s.inp.sel v = .next (respond u 9 0 [])
          ∧ (dieAt u d).identity = aset (dieAt s d).identity (s.inp.unit % 1026) (fieldAt s.inp.bytes 0 32))
      ∧ readRegister s 13 = some (leBytes 8 entry.tvec.toNat) ∧ readRegister s 17 = some (leBytes 8 entry.ctxbud)
      ∧ readRegister s 25 = some (leBytes 8 entry.tenergy) ∧ readRegister s 22 = some (leBytes 8 (dieAt s d).hotspot.toNat)
      ∧ (s.inp.sel = 0 → writeRegister s s.inp.sel v = .next (respond (writePwrcap s d v s.inp.len) 9 0 []))
      ∧ (coreUp s = true → die.stage ≠ 2 → exec .errptrRead s = .next (respond s 9 1 []) ∧ exec .landcntRead s = .next (respond s 9 1 []))
      ∧ (coreUp s = false → exec .errptrRead s = .next s ∧ exec .registerWrite s = .next s)

/-! ### Reset, encodings and the step -/

/-- The state after reset (log 2): every die has reached stage 2 with nothing enqueued, no place holds a context, and the management registers stand at
the Reset columns of Tables 5.4, 10.12, 10.13, 11.1, 11.2, 11.5, 11.6, 15.9, 15.10, 16.4, 17.2, 17.4, 17.10, 18.6 and 19.4. -/
def Obligations.ResetState : Prop :=
  let s := State.reset
  memoryWf s
    ∧ (∀ p, (ctxAt s p).phase = .empty)
    ∧ (∀ d, let x := dieAt s d
        x.stage = 2 ∧ x.halted = none ∧ x.tasks = [] ∧ x.saved = [] ∧ x.groups = [] ∧ x.inbox = [] ∧ x.outbox = [] ∧ x.locked = false ∧ x.timelock = 0
          ∧ x.hotspot = 0 ∧ x.bartmo = 0 ∧ capOf x = 520 ∧ reserveOf x = 20 ∧ wbits x.pwrcap 32 16 = 0 ∧ wbits x.slewcfg 16 16 = 40 ∧ wbits x.slewcfg 0 16 = 40
          ∧ throttleAt x = 840 ∧ criticalAt x = 920 ∧ wbits x.bkthr 16 24 = 4096 ∧ wbits x.bkthr 0 8 = 4
          ∧ (∀ r, r = x.err ∨ r = x.pf → bitOf r.cfg.toNat 0 = false ∧ bitOf r.cfg.toNat 1 = true ∧ ringSlots r = 1 ∧ ringPtr r = 0 ∧ r.waiting = []))
    ∧ (∀ d t, let x := tenantAt s d t
        x.ctxbud = 2 ^ 64 - 1 ∧ x.spanbud = 2 ^ 64 - 1 ∧ x.drambud = 2 ^ 64 - 1 ∧ x.linkbud = 2 ^ 64 - 1 ∧ x.ctxused = 0 ∧ x.spanused = 0
          ∧ x.dramused = 0 ∧ x.linkused = 0 ∧ x.stale = 0 ∧ x.refused = 0 ∧ x.savepool = 0 ∧ x.dumpcfg = 0)
    ∧ (∀ d k, k ≤ 6 → let x := portAt s d k
        wbits x.vdport 40 8 = 16 ∧ wbits x.vdport 16 1 = 0 ∧ wbits x.vdport 8 4 = x.state.code ∧ wbits x.vdport 0 4 = portKind k
          ∧ wbits x.lkthr 40 24 = 0x100000 ∧ wbits x.lkthr 32 8 = 4 ∧ wbits x.lkthr 24 8 = 1 ∧ wbits x.lkthr 16 8 = 1 ∧ wbits x.lkthr 8 8 = 20)

/-- R184 to R196: words written out field by field from the forms of Table 6.3 and the majors and minors of Tables 6.8 to 6.13, one or two of each engine,
and a few whose reserved bits or operands make them no instruction. -/
def Obligations.DecodeWords : Prop :=
  decode .c (0x00 * 2 ^ 26 + 1 * 2 ^ 20 + 2 * 2 ^ 14 + 3 * 2 ^ 8 + 1) none = some (.sub 1 2 3)
    ∧ decode .c (0x02 * 2 ^ 26 + 5 * 2 ^ 20 + 6 * 2 ^ 14 + 0x3FFF) none = some (.addi 5 6 (-1))
    ∧ decode .c (0x0F * 2 ^ 26 + 7 * 2 ^ 20 + 1 * 2 ^ 16 + 0xFFFE) none = some (.bc .nez 7 (-2))
    ∧ decode .c (0x0B * 2 ^ 26 + 4 * 2 ^ 20 + 9 * 2 ^ 14 + 15) (some 0xFFFFFFF8) = some (.ld 4 9 (-8) .b64 none)
    ∧ decode .l (0x03 * 2 ^ 26 + 34 * 2 ^ 20 + 3 * 2 ^ 14 + 1) none = some (.ldq 2 3 true)
    ∧ decode .s (0x01 * 2 ^ 26 + 17 * 2 ^ 14 + 33 * 2 ^ 8 + 2 * 2 ^ 4 + 1) none = some (.stq 17 1 2 true)
    ∧ decode .v (0x00 * 2 ^ 26 + 3 * 2 ^ 20 + 4 * 2 ^ 14 + 5 * 2 ^ 8 + 2 * 2 ^ 4) none = some (.vadd (.reg 3) (.reg 4) (.reg 5) 2)
    ∧ decode .m (0x02 * 2 ^ 26 + 12 * 2 ^ 18 + 3 * 2 ^ 14) none = some (.mzero 12 4)
    ∧ decode .x (0x07 * 2 ^ 26 + 8 * 2 ^ 14 + 9 * 2 ^ 8) none = some (.ringi 8 9)
    ∧ decode .c (0x00 * 2 ^ 26 + 1 * 2 ^ 20 + 2 * 2 ^ 14 + 3 * 2 ^ 8 + 15) none = none
    ∧ decode .c (0x00 * 2 ^ 26 + 1 * 2 ^ 20 + 2 * 2 ^ 14 + 3 * 2 ^ 8 + 1 * 2 ^ 4) none = none
    ∧ decode .v (0x00 * 2 ^ 26 + 3 * 2 ^ 20 + 40 * 2 ^ 14 + 5 * 2 ^ 8) none = none
    ∧ decode .l (0x00 * 2 ^ 26 + 16 * 2 ^ 20) none = none

/-- R156, R180, R207, R247, R250, R251: a turn passes its time and moves to its place, where every context still is what it was; then it runs its event, the
message of the host that has come, or, where the engine's arbiter grants the context, the instruction that the head of the engine's queue decodes to, under
a repeat with the stepped fields raised, exactly as `exec` gives it; an engine that may not issue, or has no entry or not yet its operands, leaves the
state as the arbiter left it. Around an instruction `noteBusy` changes the survey counts only, and `consume` nothing where no element of the context's
arrays is spoiled. -/
def Obligations.StepRunsDecoded : Prop :=
  ∀ (s : State) (e : Engine) (x : Entry) (i : Instr) (p : Packet) (inp : Input),
    let t := nextTurn s
    let v := beginTurn s t
    let u := issuePassed v e
    let r := u.cx.rep e
    let here := mayIssue u e = true ∧ headOf u.cx e = some x ∧ decodeEntry e x = some i ∧ (needsSupply e x = true → x.vals ≠ none)
    let free := x.marker = false ∧ (e = .c ∨ csrPending u.cx i x.seq = false)
    let body := r.k ≠ 0 ∨ r.remaining ≤ 65535 ∧ Instr.repeatable i = true ∧ stepOk e x.word x.ext r.mask (r.remaining - 1) = true
    let runs : Instr → State → Host.Outcome State Fault Refusal := fun j w => noteBusy e w (consume (Instr.reads j) w (exec j w))
    v.cur = t.place ∧ v.now = s.now + t.dt ∧ v.inp = t.inp ∧ v.mem = s.mem ∧ (∀ q, ctxAt v q = ctxAt s q)
      ∧ (∀ w : State, ∃ y, noteBusy e v (.next w) = .next { w with dies := y })
      ∧ (∀ (l : List (Nat × Nat)) (w : State), badArrays v.cx = [] → consume l v (.next w) = .next w)
      ∧ (∀ j, t.act = .event j → step s = consume [] v (exec j v))
      ∧ (t.act = .hostCommand → hostMessage v = none → step s = .next v)
      ∧ (∀ w, t.act = .hostCommand → hostMessage v = some (p, i, inp) → exec i { v with inp := inp } = .next w → step s = .next (hostActed p i { v with inp := inp } w))
      ∧ (t.act = .storePerform → step s = .next (performOldest v))
      ∧ (t.act = .issue e → issueGranted v e = false → step s = .next v)
      ∧ (t.act = .issue e → issueGranted v e = true → (∃ y, u = { v with tiles := y })
          ∧ (here → free → r.active = false → step s = runs i (issuing u x 0))
          ∧ (here → x.marker = true → step s = runs (markerAct i) (issuing u x 0))
          ∧ (here → free → r.active = true → r.remaining ≠ 0 → body → ∀ j, decode e (steppedWord x.word r.mask r.k) x.ext = some j →
              step s = runs j (issuing u x r.k))
          ∧ (here → free → r.active = true → r.remaining ≠ 0 → ¬body → step s = trapN e 0x706 r.remaining (issuing u x 0))
          ∧ (here → free → r.active = true → r.remaining = 0 → step s = .next (withCx u (u.cx.discard e x.seq)))
          ∧ (here → x.marker = false → e ≠ .c → csrPending u.cx i x.seq = true → step s = .next u)
          ∧ (mayIssue u e = false ∨ headOf u.cx e = none → step s = .next u)
          ∧ (mayIssue u e = true → headOf u.cx e = some x → decodeEntry e x = some i → needsSupply e x = true → x.vals = none → step s = .next u))

/-- R184 to R198: every instruction of an engine that its encoding admits has words, in its short form where it has one; those of each of its forms fit
their lanes and are decoded to it with every operand as it was; and a decoded instruction is well formed and has those words. -/
def Obligations.DecodeRoundTrip : Prop :=
  (∀ (i : Instr) (long : Bool) (x : Words), i.wellFormed = true → words i long = some x →
      x.ext.isSome = long ∧ x.word < 2 ^ 32 ∧ (∀ y, x.ext = some y → y < 2 ^ 32) ∧ decode x.engine x.word x.ext = some i)
    ∧ (∀ i : Instr, i.wellFormed = true → isEvent i = false → ∃ x, encode i = some x ∧ decode x.engine x.word x.ext = some i)
    ∧ (∀ i : Instr, isEvent i = true → encode i = none)
    ∧ (∀ (e : Engine) (w : Nat) (y : Option Nat) (i : Instr), decode e w y = some i →
      i.wellFormed = true ∧ isEvent i = false ∧ words i y.isSome = some ⟨e, w, y⟩)

/-- Device memory and the tags of its sheets stay in canonical form, whatever moves (an invariant of the model's own form of memory, log 4). -/
def Obligations.MemoryKeptCanonical : Prop :=
  ∀ s t : State, memoryWf s → step s = .next t → memoryWf t
end

