-- ==== Sys2Proof/Laws/Maps.lean ====
section
/-! SUPPORT. What a lookup finds after a set or a delete in a finite map, the canonical form of byte maps, and bit fields. -/
namespace Sys2Proof.Machine

/-! ### Lookups -/

@[simp] theorem alook_nil {α : Type} (k : Nat) : alook ([] : Assoc α) k = none := rfl
theorem alook_cons {α : Type} (a : Nat) (v : α) (r : Assoc α) (k : Nat) :
    alook ((a, v) :: r) k = if a = k then some v else alook r k := by
  by_cases h : a = k <;> simp [alook, h]
@[simp] theorem alook_aset_self {α : Type} (m : Assoc α) (k : Nat) (v : α) : alook (aset m k v) k = some v := by
  induction m with
  | nil => simp [aset, alook_cons]
  | cons x r ih =>
    obtain ⟨a, w⟩ := x
    simp only [aset]
    split
    · simp [alook_cons]
    · split
      · simp [alook_cons]
      · rename_i h1 h2
        rw [alook_cons, if_neg (fun h => h2 h.symm), ih]
theorem alook_aset_ne {α : Type} (m : Assoc α) {k j : Nat} (v : α) (h : j ≠ k) : alook (aset m k v) j = alook m j := by
  have hk : ¬ k = j := fun e => h e.symm
  induction m with
  | nil => simp [aset, alook_cons, hk]
  | cons x r ih =>
    obtain ⟨a, w⟩ := x
    simp only [aset]
    split
    · simp [alook_cons, hk]
    · split
      · rename_i h1 h2
        subst h2
        simp [alook_cons, hk]
      · simp [alook_cons, ih]
theorem alook_aset {α : Type} (m : Assoc α) (k j : Nat) (v : α) :
    alook (aset m k v) j = if j = k then some v else alook m j := by
  split
  · rename_i h; subst h; exact alook_aset_self ..
  · rename_i h; exact alook_aset_ne _ _ h
@[simp] theorem alook_adel_self {α : Type} (m : Assoc α) (k : Nat) : alook (adel m k) k = none := by
  induction m with
  | nil => rfl
  | cons x r ih =>
    obtain ⟨a, w⟩ := x
    by_cases h : a = k
    · simpa [adel, h] using ih
    · simp [adel, h, alook_cons] at *
      exact ih
theorem alook_adel_ne {α : Type} (m : Assoc α) {k j : Nat} (h : j ≠ k) : alook (adel m k) j = alook m j := by
  induction m with
  | nil => rfl
  | cons x r ih =>
    obtain ⟨a, w⟩ := x
    by_cases hk : a = k
    · subst hk
      have hj : ¬ a = j := fun e => h e.symm
      simp [adel, alook_cons, hj] at *
      exact ih
    · simp [adel, hk, alook_cons] at *
      simp [ih]
@[simp] theorem zlook_nil {α : Type} (z : α) (k : Nat) : zlook z [] k = z := rfl
@[simp] theorem zlook_zset_self {α : Type} [DecidableEq α] (z : α) (m : Assoc α) (k : Nat) (v : α) :
    zlook z (zset z m k v) k = v := by
  unfold zset zlook
  split
  · rename_i h; simp [h]
  · simp
theorem zlook_zset_ne {α : Type} [DecidableEq α] (z : α) (m : Assoc α) {k j : Nat} (v : α) (h : j ≠ k) :
    zlook z (zset z m k v) j = zlook z m j := by
  unfold zset zlook
  split
  · rw [alook_adel_ne _ h]
  · rw [alook_aset_ne _ _ h]
theorem zlook_zset {α : Type} [DecidableEq α] (z : α) (m : Assoc α) (k j : Nat) (v : α) :
    zlook z (zset z m k v) j = if j = k then v else zlook z m j := by
  split
  · rename_i h; subst h; exact zlook_zset_self ..
  · rename_i h; exact zlook_zset_ne _ _ _ h

/-! ### Byte maps -/

@[simp] theorem memGet_memSet_self (m : List Host.Cell) (a : Nat) (b : Byte) : memGet (memSet m a b) a = b :=
  zlook_zset_self ..
theorem memGet_memSet_ne (m : List Host.Cell) {a c : Nat} (b : Byte) (h : c ≠ a) : memGet (memSet m a b) c = memGet m c :=
  zlook_zset_ne _ _ _ h
/-- A write of bytes changes no byte outside them. -/
theorem memGet_memWrite_out (l : List Byte) : ∀ (m : List Host.Cell) (a c : Nat), c < a ∨ a + l.length ≤ c →
    memGet (memWrite m a l) c = memGet m c := by
  induction l with
  | nil => intro m a c _; rfl
  | cons b r ih =>
    intro m a c h
    simp only [List.length_cons] at h
    rw [memWrite, ih _ _ _ (by omega), memGet_memSet_ne _ _ (by omega)]
/-- A write of bytes leaves each of them at its place. -/
theorem memGet_memWrite_in (l : List Byte) : ∀ (m : List Host.Cell) (a i : Nat), i < l.length →
    memGet (memWrite m a l) (a + i) = l.getD i 0 := by
  induction l with
  | nil => intro m a i h; simp at h
  | cons b r ih =>
    intro m a i h
    simp only [List.length_cons] at h
    cases i with
    | zero => rw [memWrite, Nat.add_zero, memGet_memWrite_out _ _ _ _ (by omega)]; simp
    | succ i =>
      have := ih (memSet m a b) (a + 1) i (by omega)
      rw [memWrite, show a + (i + 1) = a + 1 + i by omega, this]; simp
/-- What was written is read back. -/
theorem memRead_memWrite (l : List Byte) : ∀ (m : List Host.Cell) (a : Nat), memRead (memWrite m a l) a l.length = l := by
  suffices h : ∀ (n : Nat) (l : List Byte) (m : List Host.Cell) (a i : Nat), i + n = l.length →
      memRead (memWrite m a l) (a + i) n = l.drop i by
    intro m a; simpa using h l.length l m a 0 (by simp)
  intro n
  induction n with
  | zero => intro l m a i h; rw [memRead, List.drop_of_length_le (by omega)]
  | succ n ih =>
    intro l m a i h
    have hi : i < l.length := by omega
    rw [memRead, memGet_memWrite_in _ _ _ _ hi, Nat.add_assoc, ih l m a (i + 1) (by omega), List.drop_eq_getElem_cons hi]
    simp [List.getD_eq_getElem?_getD, List.getElem?_eq_getElem hi]

/-! ### The canonical form -/

/-- Every address of a canonical map from its head on is above a bound. -/
def aboveAll (k : Nat) (m : List Host.Cell) : Prop := ∀ x ∈ m, k < x.1
theorem memWf_cons (x : Host.Cell) (r : List Host.Cell) :
    memWf (x :: r) = true ↔ x.2 ≠ 0 ∧ aboveAll x.1 r ∧ memWf r = true := by
  induction r generalizing x with
  | nil => obtain ⟨a, b⟩ := x; simp [memWf, aboveAll]
  | cons y r ih =>
    obtain ⟨a, b⟩ := x
    obtain ⟨c, d⟩ := y
    rw [show memWf ((a, b) :: (c, d) :: r) = (decide (a < c) && decide (b ≠ 0) && memWf ((c, d) :: r)) from rfl]
    simp only [Bool.and_eq_true, decide_eq_true_eq]
    constructor
    · rintro ⟨⟨h1, h2⟩, h3⟩
      refine ⟨h2, ?_, h3⟩
      intro z hz
      rcases List.mem_cons.mp hz with rfl | hz
      · exact h1
      · exact Nat.lt_trans h1 (((ih (c, d)).mp h3).2.1 z hz)
    · rintro ⟨h2, h1, h3⟩
      exact ⟨⟨h1 (c, d) (List.mem_cons_self ..), h2⟩, h3⟩
theorem aboveAll_aset {j k : Nat} (m : List Host.Cell) (b : Byte) (h : aboveAll j m) (hk : j < k) : aboveAll j (aset m k b) := by
  induction m with
  | nil => intro x hx; simp [aset] at hx; subst hx; exact hk
  | cons y r ih =>
    obtain ⟨c, d⟩ := y
    have hr : aboveAll j r := fun x hx => h x (List.mem_cons_of_mem _ hx)
    intro x hx
    simp only [aset] at hx
    split at hx
    · rcases List.mem_cons.mp hx with rfl | hx
      · exact hk
      · exact h x hx
    · split at hx
      · rcases List.mem_cons.mp hx with rfl | hx
        · exact hk
        · exact hr x hx
      · rcases List.mem_cons.mp hx with rfl | hx
        · exact h _ (List.mem_cons_self ..)
        · exact ih hr x hx
theorem memWf_aset {m : List Host.Cell} (h : memWf m = true) (k : Nat) {b : Byte} (hb : b ≠ 0) : memWf (aset m k b) = true := by
  induction m with
  | nil => simpa [aset, memWf] using hb
  | cons y r ih =>
    obtain ⟨c, d⟩ := y
    obtain ⟨h1, h2, h3⟩ := (memWf_cons _ _).mp h
    simp only [aset]
    split
    · rename_i hk
      refine (memWf_cons _ _).mpr ⟨hb, ?_, h⟩
      intro x hx
      rcases List.mem_cons.mp hx with rfl | hx
      · exact hk
      · exact Nat.lt_trans hk (h2 x hx)
    · split
      · rename_i hk; subst hk; exact (memWf_cons _ _).mpr ⟨hb, h2, h3⟩
      · exact (memWf_cons _ _).mpr ⟨h1, aboveAll_aset _ _ h2 (by simp; omega), ih h3⟩
/-- A part of a canonical map is canonical. -/
theorem memWf_filter {m : List Host.Cell} (h : memWf m = true) (p : Host.Cell → Bool) : memWf (m.filter p) = true := by
  induction m with
  | nil => rfl
  | cons y r ih =>
    obtain ⟨h1, h2, h3⟩ := (memWf_cons _ _).mp h
    rw [List.filter_cons]
    split
    · exact (memWf_cons _ _).mpr ⟨h1, fun x hx => h2 x (List.mem_filter.mp hx).1, ih h3⟩
    · exact ih h3
/-- A write of one byte keeps the canonical form. -/
theorem memWf_memSet {m : List Host.Cell} (h : memWf m = true) (a : Nat) (b : Byte) : memWf (memSet m a b) = true := by
  unfold memSet zset
  split
  · exact memWf_filter h _
  · rename_i hb; exact memWf_aset h a hb
/-- A write of bytes keeps the canonical form. -/
theorem memWf_memWrite (l : List Byte) : ∀ {m : List Host.Cell}, memWf m = true → ∀ a, memWf (memWrite m a l) = true := by
  induction l with
  | nil => intro m h a; exact h
  | cons b r ih => intro m h a; exact ih (memWf_memSet h a b) (a + 1)

/-! ### Bit fields -/

/-- A field of a number after a value has been put into it. -/
theorem putBits_eq (w lo n v : Nat) : putBits w lo n v = w - bits w lo n * 2 ^ lo + v % 2 ^ n * 2 ^ lo := by
  unfold putBits
  rw [Nat.mul_comm (2 ^ lo), Nat.mul_comm (2 ^ lo)]
theorem bits_putBits (w lo n v : Nat) : bits (putBits w lo n v) lo n = v % 2 ^ n := by
  have e : w = w / 2 ^ (lo + n) * 2 ^ (lo + n) + (bits w lo n * 2 ^ lo + w % 2 ^ lo) := by
    have h1 := Nat.div_add_mod w (2 ^ lo)
    have h2 := Nat.div_add_mod (w / 2 ^ lo) (2 ^ n)
    rw [Nat.div_div_eq_div_mul, ← Nat.pow_add] at h2
    unfold bits
    rw [Nat.pow_add, Nat.mul_comm (2 ^ lo) (2 ^ n), ← Nat.mul_assoc] at *
    calc w = 2 ^ lo * (w / 2 ^ lo) + w % 2 ^ lo := h1.symm
      _ = 2 ^ lo * (2 ^ n * (w / (2 ^ n * 2 ^ lo)) + w / 2 ^ lo % 2 ^ n) + w % 2 ^ lo := by rw [h2]
      _ = _ := by rw [Nat.mul_add, Nat.add_assoc, Nat.mul_comm (2 ^ lo) (2 ^ n * _), Nat.mul_comm (2 ^ n) (w / _), Nat.mul_comm (2 ^ lo) (w / 2 ^ lo % 2 ^ n)]
  have e2 : putBits w lo n v = (w / 2 ^ (lo + n) * 2 ^ n + v % 2 ^ n) * 2 ^ lo + w % 2 ^ lo := by
    rw [putBits_eq]
    have : w - bits w lo n * 2 ^ lo = w / 2 ^ (lo + n) * 2 ^ (lo + n) + w % 2 ^ lo := by omega
    rw [this, Nat.add_mul, Nat.mul_assoc, ← Nat.pow_add, Nat.add_comm n lo]
    omega
  unfold bits
  rw [e2, Nat.add_comm, Nat.mul_comm, Nat.add_mul_div_left _ _ (Nat.two_pow_pos lo),
    Nat.div_eq_of_lt (Nat.mod_lt _ (Nat.two_pow_pos lo)), Nat.zero_add, Nat.add_comm, Nat.add_mul_mod_self_right, Nat.mod_mod]

theorem putBits_lt {w lo n v N : Nat} (hw : w < 2 ^ N) (h : lo + n ≤ N) : putBits w lo n v < 2 ^ N := by
  have h1 : w / 2 ^ (lo + n) < 2 ^ (N - (lo + n)) := by
    rw [Nat.div_lt_iff_lt_mul (Nat.two_pow_pos _), ← Nat.pow_add]; simpa [Nat.sub_add_cancel h] using hw
  have h2 : v % 2 ^ n < 2 ^ n := Nat.mod_lt _ (Nat.two_pow_pos n)
  have e : putBits w lo n v = w - bits w lo n * 2 ^ lo + v % 2 ^ n * 2 ^ lo := putBits_eq ..
  have h3 : bits w lo n * 2 ^ lo ≤ w := by
    unfold bits
    exact Nat.le_trans (Nat.mul_le_mul_right _ (Nat.mod_le _ _)) (Nat.div_mul_le_self _ _)
  have h4 : w - bits w lo n * 2 ^ lo = w / 2 ^ (lo + n) * 2 ^ (lo + n) + w % 2 ^ lo := by
    have a := Nat.div_add_mod w (2 ^ lo)
    have b := Nat.div_add_mod (w / 2 ^ lo) (2 ^ n)
    rw [Nat.div_div_eq_div_mul, ← Nat.pow_add] at b
    have c : w = w / 2 ^ (lo + n) * 2 ^ (lo + n) + (bits w lo n * 2 ^ lo + w % 2 ^ lo) := by
      unfold bits
      calc w = 2 ^ lo * (w / 2 ^ lo) + w % 2 ^ lo := a.symm
        _ = 2 ^ lo * (2 ^ n * (w / 2 ^ (lo + n)) + w / 2 ^ lo % 2 ^ n) + w % 2 ^ lo := by rw [b]
        _ = _ := by rw [Nat.mul_add, Nat.add_assoc, ← Nat.mul_assoc, ← Nat.pow_add, Nat.mul_comm (2 ^ (lo + n)), Nat.mul_comm (2 ^ lo) (w / 2 ^ lo % 2 ^ n)]
    omega
  have h5 : w % 2 ^ lo < 2 ^ lo := Nat.mod_lt _ (Nat.two_pow_pos lo)
  have h6 : v % 2 ^ n * 2 ^ lo + w % 2 ^ lo < 2 ^ (lo + n) := by
    have : (v % 2 ^ n + 1) * 2 ^ lo ≤ 2 ^ n * 2 ^ lo := Nat.mul_le_mul_right _ h2
    rw [Nat.pow_add, Nat.mul_comm (2 ^ lo)]
    rw [Nat.add_mul, Nat.one_mul] at this
    omega
  have h7 : (w / 2 ^ (lo + n) + 1) * 2 ^ (lo + n) ≤ 2 ^ (N - (lo + n)) * 2 ^ (lo + n) := Nat.mul_le_mul_right _ h1
  rw [← Nat.pow_add, Nat.sub_add_cancel h, Nat.add_mul, Nat.one_mul] at h7
  omega
/-- A field of a register value after a value has been put into it. -/
theorem wbits_wput (w : Word) {lo n : Nat} (v : Nat) (h : lo + n ≤ 64) : wbits (wput w lo n v) lo n = v % 2 ^ n := by
  unfold wbits wput
  rw [BitVec.toNat_ofNat, Nat.mod_eq_of_lt (putBits_lt w.isLt h), bits_putBits]

theorem testBit_putBits (w lo n v k : Nat) :
    (putBits w lo n v).testBit k = if lo ≤ k ∧ k < lo + n then v.testBit (k - lo) else w.testBit k := by
  have hw : w = w / 2 ^ (lo + n) * 2 ^ (lo + n) + bits w lo n * 2 ^ lo + w % 2 ^ lo := by
    unfold bits
    have h1 := Nat.div_add_mod w (2 ^ lo)
    have h2 := Nat.div_add_mod (w / 2 ^ lo) (2 ^ n)
    rw [Nat.div_div_eq_div_mul, ← Nat.pow_add] at h2
    rw [Nat.pow_add, ← Nat.mul_assoc, Nat.mul_right_comm, ← Nat.add_mul, Nat.mul_comm (w / (2 ^ lo * 2 ^ n)), ← Nat.pow_add, h2,
      Nat.mul_comm, h1]
  have hlo : w % 2 ^ lo < 2 ^ lo := Nat.mod_lt _ (Nat.two_pow_pos _)
  have hv : v % 2 ^ n < 2 ^ n := Nat.mod_lt _ (Nat.two_pow_pos _)
  have e : putBits w lo n v = 2 ^ lo * (2 ^ n * (w / 2 ^ (lo + n)) + v % 2 ^ n) + w % 2 ^ lo := by
    rw [putBits_eq]
    have : w - bits w lo n * 2 ^ lo = w / 2 ^ (lo + n) * 2 ^ (lo + n) + w % 2 ^ lo := by omega
    rw [this, Nat.mul_add, ← Nat.mul_assoc, ← Nat.pow_add, Nat.mul_comm (2 ^ (lo + n)), Nat.mul_comm (2 ^ lo)]
    omega
  rw [e, Nat.testBit_two_pow_mul_add _ hlo]
  by_cases h1 : k < lo
  · rw [if_pos h1, if_neg (by omega), Nat.testBit_mod_two_pow]
    simp [h1]
  · rw [if_neg h1, Nat.testBit_two_pow_mul_add _ hv]
    by_cases h2 : k - lo < n
    · rw [if_pos h2, if_pos (by omega), Nat.testBit_mod_two_pow]
      simp [h2]
    · rw [if_neg h2, if_neg (by omega), Nat.testBit_div_two_pow]
      congr 1; omega
/-- The bits of a register value with a field replaced. -/
theorem getLsbD_wput (w : Word) {lo n : Nat} (v k : Nat) (h : lo + n ≤ 64) :
    (wput w lo n v).getLsbD k = if lo ≤ k ∧ k < lo + n then v.testBit (k - lo) else w.getLsbD k := by
  have hp := putBits_lt (v := v) w.isLt h
  unfold wput
  rw [BitVec.getLsbD, BitVec.toNat_ofNat, Nat.mod_eq_of_lt hp, testBit_putBits]
  rfl
theorem bitOf_eq (w k : Nat) : bitOf w k = w.testBit k := by
  unfold bitOf
  rw [Nat.testBit_eq_decide_div_mod_eq]
theorem bitOf_word (w : Word) (k : Nat) : bitOf w.toNat k = w.getLsbD k := bitOf_eq ..

/-! ### Bytes and numbers -/

theorem leNat_lt : ∀ l : List Byte, leNat l < 2 ^ (8 * l.length)
  | [] => by simp [leNat]
  | b :: r => by
    have h1 := leNat_lt r
    have h2 : b.toNat < 256 := b.isLt
    have e : 2 ^ (8 * (b :: r).length) = 256 * 2 ^ (8 * r.length) := by
      rw [List.length_cons, Nat.mul_add, Nat.pow_add]; omega
    rw [e, leNat]
    omega
theorem leBytes_length : ∀ n v : Nat, (leBytes n v).length = n
  | 0, _ => rfl
  | n + 1, v => by simp [leBytes, leBytes_length n]
theorem leNat_leBytes : ∀ n v : Nat, leNat (leBytes n v) = v % 2 ^ (8 * n)
  | 0, v => by simp [leBytes, leNat, Nat.mod_one]
  | n + 1, v => by
    have e : 2 ^ (8 * (n + 1)) = 256 * 2 ^ (8 * n) := by
      rw [Nat.mul_add, Nat.pow_add]; omega
    rw [leBytes, leNat, leNat_leBytes n, BitVec.toNat_ofNat, e, Nat.mod_mul]
theorem leBytes_leNat : ∀ l : List Byte, leBytes l.length (leNat l) = l
  | [] => rfl
  | b :: r => by
    have h2 : b.toNat < 256 := b.isLt
    rw [leNat, List.length_cons, leBytes]
    have e : (b.toNat + 256 * leNat r) / 256 = leNat r := by omega
    have e1 : BitVec.ofNat 8 (b.toNat + 256 * leNat r) = b := by
      apply BitVec.eq_of_toNat_eq
      rw [BitVec.toNat_ofNat]
      omega
    rw [e, e1, leBytes_leNat r]

end Sys2Proof.Machine
end

