-- ==== Sys2Proof/Laws/State.lean ====
section
/-! SUPPORT. What each update of the state leaves as it was, field by field, and what it changes. -/
namespace Sys2Proof.Machine

/-! ### Updates of the state -/

@[simp] theorem setTile_cur (s : State) (t : Nat) (x : Tile) : (setTile s t x).cur = s.cur := rfl
@[simp] theorem setTile_cx (s : State) (t : Nat) (x : Tile) : (setTile s t x).cx = s.cx := rfl
@[simp] theorem setTile_iss (s : State) (t : Nat) (x : Tile) : (setTile s t x).iss = s.iss := rfl
@[simp] theorem setTile_inp (s : State) (t : Nat) (x : Tile) : (setTile s t x).inp = s.inp := rfl
@[simp] theorem setTile_ctxs (s : State) (t : Nat) (x : Tile) : (setTile s t x).ctxs = s.ctxs := rfl
@[simp] theorem setTile_dies (s : State) (t : Nat) (x : Tile) : (setTile s t x).dies = s.dies := rfl
@[simp] theorem setTile_z (s : State) (t : Nat) (x : Tile) : (setTile s t x).z = s.z := rfl
@[simp] theorem setTile_mem (s : State) (t : Nat) (x : Tile) : (setTile s t x).mem = s.mem := rfl
@[simp] theorem setTile_tags (s : State) (t : Nat) (x : Tile) : (setTile s t x).tags = s.tags := rfl
@[simp] theorem setTile_l2 (s : State) (t : Nat) (x : Tile) : (setTile s t x).l2 = s.l2 := rfl
@[simp] theorem setTile_hostLines (s : State) (t : Nat) (x : Tile) : (setTile s t x).hostLines = s.hostLines := rfl
@[simp] theorem setTile_ecc (s : State) (t : Nat) (x : Tile) : (setTile s t x).ecc = s.ecc := rfl
@[simp] theorem setTile_flash (s : State) (t : Nat) (x : Tile) : (setTile s t x).flash = s.flash := rfl
@[simp] theorem setTile_now (s : State) (t : Nat) (x : Tile) : (setTile s t x).now = s.now := rfl
@[simp] theorem setTile_schedule (s : State) (t : Nat) (x : Tile) : (setTile s t x).schedule = s.schedule := rfl
@[simp] theorem setTile_rr (s : State) (t : Nat) (x : Tile) : (setTile s t x).rr = s.rr := rfl
@[simp] theorem setTile_free (s : State) (t : Nat) (x : Tile) : (setTile s t x).free = s.free := rfl
@[simp] theorem updTile_cur (s : State) (t : Nat) (f : Tile → Tile) : (updTile s t f).cur = s.cur := rfl
@[simp] theorem updTile_cx (s : State) (t : Nat) (f : Tile → Tile) : (updTile s t f).cx = s.cx := rfl
@[simp] theorem updTile_iss (s : State) (t : Nat) (f : Tile → Tile) : (updTile s t f).iss = s.iss := rfl
@[simp] theorem updTile_inp (s : State) (t : Nat) (f : Tile → Tile) : (updTile s t f).inp = s.inp := rfl
@[simp] theorem updTile_ctxs (s : State) (t : Nat) (f : Tile → Tile) : (updTile s t f).ctxs = s.ctxs := rfl
@[simp] theorem updTile_dies (s : State) (t : Nat) (f : Tile → Tile) : (updTile s t f).dies = s.dies := rfl
@[simp] theorem updTile_z (s : State) (t : Nat) (f : Tile → Tile) : (updTile s t f).z = s.z := rfl
@[simp] theorem updTile_mem (s : State) (t : Nat) (f : Tile → Tile) : (updTile s t f).mem = s.mem := rfl
@[simp] theorem updTile_tags (s : State) (t : Nat) (f : Tile → Tile) : (updTile s t f).tags = s.tags := rfl
@[simp] theorem updTile_l2 (s : State) (t : Nat) (f : Tile → Tile) : (updTile s t f).l2 = s.l2 := rfl
@[simp] theorem updTile_hostLines (s : State) (t : Nat) (f : Tile → Tile) : (updTile s t f).hostLines = s.hostLines := rfl
@[simp] theorem updTile_ecc (s : State) (t : Nat) (f : Tile → Tile) : (updTile s t f).ecc = s.ecc := rfl
@[simp] theorem updTile_flash (s : State) (t : Nat) (f : Tile → Tile) : (updTile s t f).flash = s.flash := rfl
@[simp] theorem updTile_now (s : State) (t : Nat) (f : Tile → Tile) : (updTile s t f).now = s.now := rfl
@[simp] theorem updTile_schedule (s : State) (t : Nat) (f : Tile → Tile) : (updTile s t f).schedule = s.schedule := rfl
@[simp] theorem updTile_rr (s : State) (t : Nat) (f : Tile → Tile) : (updTile s t f).rr = s.rr := rfl
@[simp] theorem updTile_free (s : State) (t : Nat) (f : Tile → Tile) : (updTile s t f).free = s.free := rfl
@[simp] theorem setDie_cur (s : State) (d : Nat) (x : Die) : (setDie s d x).cur = s.cur := rfl
@[simp] theorem setDie_cx (s : State) (d : Nat) (x : Die) : (setDie s d x).cx = s.cx := rfl
@[simp] theorem setDie_iss (s : State) (d : Nat) (x : Die) : (setDie s d x).iss = s.iss := rfl
@[simp] theorem setDie_inp (s : State) (d : Nat) (x : Die) : (setDie s d x).inp = s.inp := rfl
@[simp] theorem setDie_ctxs (s : State) (d : Nat) (x : Die) : (setDie s d x).ctxs = s.ctxs := rfl
@[simp] theorem setDie_tiles (s : State) (d : Nat) (x : Die) : (setDie s d x).tiles = s.tiles := rfl
@[simp] theorem setDie_z (s : State) (d : Nat) (x : Die) : (setDie s d x).z = s.z := rfl
@[simp] theorem setDie_mem (s : State) (d : Nat) (x : Die) : (setDie s d x).mem = s.mem := rfl
@[simp] theorem setDie_tags (s : State) (d : Nat) (x : Die) : (setDie s d x).tags = s.tags := rfl
@[simp] theorem setDie_l2 (s : State) (d : Nat) (x : Die) : (setDie s d x).l2 = s.l2 := rfl
@[simp] theorem setDie_hostLines (s : State) (d : Nat) (x : Die) : (setDie s d x).hostLines = s.hostLines := rfl
@[simp] theorem setDie_ecc (s : State) (d : Nat) (x : Die) : (setDie s d x).ecc = s.ecc := rfl
@[simp] theorem setDie_flash (s : State) (d : Nat) (x : Die) : (setDie s d x).flash = s.flash := rfl
@[simp] theorem setDie_now (s : State) (d : Nat) (x : Die) : (setDie s d x).now = s.now := rfl
@[simp] theorem setDie_schedule (s : State) (d : Nat) (x : Die) : (setDie s d x).schedule = s.schedule := rfl
@[simp] theorem setDie_rr (s : State) (d : Nat) (x : Die) : (setDie s d x).rr = s.rr := rfl
@[simp] theorem setDie_free (s : State) (d : Nat) (x : Die) : (setDie s d x).free = s.free := rfl
@[simp] theorem updDie_cur (s : State) (d : Nat) (f : Die → Die) : (updDie s d f).cur = s.cur := rfl
@[simp] theorem updDie_cx (s : State) (d : Nat) (f : Die → Die) : (updDie s d f).cx = s.cx := rfl
@[simp] theorem updDie_iss (s : State) (d : Nat) (f : Die → Die) : (updDie s d f).iss = s.iss := rfl
@[simp] theorem updDie_inp (s : State) (d : Nat) (f : Die → Die) : (updDie s d f).inp = s.inp := rfl
@[simp] theorem updDie_ctxs (s : State) (d : Nat) (f : Die → Die) : (updDie s d f).ctxs = s.ctxs := rfl
@[simp] theorem updDie_tiles (s : State) (d : Nat) (f : Die → Die) : (updDie s d f).tiles = s.tiles := rfl
@[simp] theorem updDie_z (s : State) (d : Nat) (f : Die → Die) : (updDie s d f).z = s.z := rfl
@[simp] theorem updDie_mem (s : State) (d : Nat) (f : Die → Die) : (updDie s d f).mem = s.mem := rfl
@[simp] theorem updDie_tags (s : State) (d : Nat) (f : Die → Die) : (updDie s d f).tags = s.tags := rfl
@[simp] theorem updDie_l2 (s : State) (d : Nat) (f : Die → Die) : (updDie s d f).l2 = s.l2 := rfl
@[simp] theorem updDie_hostLines (s : State) (d : Nat) (f : Die → Die) : (updDie s d f).hostLines = s.hostLines := rfl
@[simp] theorem updDie_ecc (s : State) (d : Nat) (f : Die → Die) : (updDie s d f).ecc = s.ecc := rfl
@[simp] theorem updDie_flash (s : State) (d : Nat) (f : Die → Die) : (updDie s d f).flash = s.flash := rfl
@[simp] theorem updDie_now (s : State) (d : Nat) (f : Die → Die) : (updDie s d f).now = s.now := rfl
@[simp] theorem updDie_schedule (s : State) (d : Nat) (f : Die → Die) : (updDie s d f).schedule = s.schedule := rfl
@[simp] theorem updDie_rr (s : State) (d : Nat) (f : Die → Die) : (updDie s d f).rr = s.rr := rfl
@[simp] theorem updDie_free (s : State) (d : Nat) (f : Die → Die) : (updDie s d f).free = s.free := rfl
@[simp] theorem updTenant_cur (s : State) (d t : Nat) (f : Tenant → Tenant) : (updTenant s d t f).cur = s.cur := rfl
@[simp] theorem updTenant_cx (s : State) (d t : Nat) (f : Tenant → Tenant) : (updTenant s d t f).cx = s.cx := rfl
@[simp] theorem updTenant_iss (s : State) (d t : Nat) (f : Tenant → Tenant) : (updTenant s d t f).iss = s.iss := rfl
@[simp] theorem updTenant_inp (s : State) (d t : Nat) (f : Tenant → Tenant) : (updTenant s d t f).inp = s.inp := rfl
@[simp] theorem updTenant_ctxs (s : State) (d t : Nat) (f : Tenant → Tenant) : (updTenant s d t f).ctxs = s.ctxs := rfl
@[simp] theorem updTenant_tiles (s : State) (d t : Nat) (f : Tenant → Tenant) : (updTenant s d t f).tiles = s.tiles := rfl
@[simp] theorem updTenant_z (s : State) (d t : Nat) (f : Tenant → Tenant) : (updTenant s d t f).z = s.z := rfl
@[simp] theorem updTenant_mem (s : State) (d t : Nat) (f : Tenant → Tenant) : (updTenant s d t f).mem = s.mem := rfl
@[simp] theorem updTenant_tags (s : State) (d t : Nat) (f : Tenant → Tenant) : (updTenant s d t f).tags = s.tags := rfl
@[simp] theorem updTenant_l2 (s : State) (d t : Nat) (f : Tenant → Tenant) : (updTenant s d t f).l2 = s.l2 := rfl
@[simp] theorem updTenant_hostLines (s : State) (d t : Nat) (f : Tenant → Tenant) : (updTenant s d t f).hostLines = s.hostLines := rfl
@[simp] theorem updTenant_ecc (s : State) (d t : Nat) (f : Tenant → Tenant) : (updTenant s d t f).ecc = s.ecc := rfl
@[simp] theorem updTenant_flash (s : State) (d t : Nat) (f : Tenant → Tenant) : (updTenant s d t f).flash = s.flash := rfl
@[simp] theorem updTenant_now (s : State) (d t : Nat) (f : Tenant → Tenant) : (updTenant s d t f).now = s.now := rfl
@[simp] theorem updTenant_schedule (s : State) (d t : Nat) (f : Tenant → Tenant) : (updTenant s d t f).schedule = s.schedule := rfl
@[simp] theorem updTenant_rr (s : State) (d t : Nat) (f : Tenant → Tenant) : (updTenant s d t f).rr = s.rr := rfl
@[simp] theorem updTenant_free (s : State) (d t : Nat) (f : Tenant → Tenant) : (updTenant s d t f).free = s.free := rfl
@[simp] theorem updCluster_cur (s : State) (d c : Nat) (f : Cluster → Cluster) : (updCluster s d c f).cur = s.cur := rfl
@[simp] theorem updCluster_cx (s : State) (d c : Nat) (f : Cluster → Cluster) : (updCluster s d c f).cx = s.cx := rfl
@[simp] theorem updCluster_iss (s : State) (d c : Nat) (f : Cluster → Cluster) : (updCluster s d c f).iss = s.iss := rfl
@[simp] theorem updCluster_inp (s : State) (d c : Nat) (f : Cluster → Cluster) : (updCluster s d c f).inp = s.inp := rfl
@[simp] theorem updCluster_ctxs (s : State) (d c : Nat) (f : Cluster → Cluster) : (updCluster s d c f).ctxs = s.ctxs := rfl
@[simp] theorem updCluster_tiles (s : State) (d c : Nat) (f : Cluster → Cluster) : (updCluster s d c f).tiles = s.tiles := rfl
@[simp] theorem updCluster_z (s : State) (d c : Nat) (f : Cluster → Cluster) : (updCluster s d c f).z = s.z := rfl
@[simp] theorem updCluster_mem (s : State) (d c : Nat) (f : Cluster → Cluster) : (updCluster s d c f).mem = s.mem := rfl
@[simp] theorem updCluster_tags (s : State) (d c : Nat) (f : Cluster → Cluster) : (updCluster s d c f).tags = s.tags := rfl
@[simp] theorem updCluster_l2 (s : State) (d c : Nat) (f : Cluster → Cluster) : (updCluster s d c f).l2 = s.l2 := rfl
@[simp] theorem updCluster_hostLines (s : State) (d c : Nat) (f : Cluster → Cluster) : (updCluster s d c f).hostLines = s.hostLines := rfl
@[simp] theorem updCluster_ecc (s : State) (d c : Nat) (f : Cluster → Cluster) : (updCluster s d c f).ecc = s.ecc := rfl
@[simp] theorem updCluster_flash (s : State) (d c : Nat) (f : Cluster → Cluster) : (updCluster s d c f).flash = s.flash := rfl
@[simp] theorem updCluster_now (s : State) (d c : Nat) (f : Cluster → Cluster) : (updCluster s d c f).now = s.now := rfl
@[simp] theorem updCluster_schedule (s : State) (d c : Nat) (f : Cluster → Cluster) : (updCluster s d c f).schedule = s.schedule := rfl
@[simp] theorem updCluster_rr (s : State) (d c : Nat) (f : Cluster → Cluster) : (updCluster s d c f).rr = s.rr := rfl
@[simp] theorem updCluster_free (s : State) (d c : Nat) (f : Cluster → Cluster) : (updCluster s d c f).free = s.free := rfl
@[simp] theorem updPort_cur (s : State) (d k : Nat) (f : Port → Port) : (updPort s d k f).cur = s.cur := rfl
@[simp] theorem updPort_cx (s : State) (d k : Nat) (f : Port → Port) : (updPort s d k f).cx = s.cx := rfl
@[simp] theorem updPort_iss (s : State) (d k : Nat) (f : Port → Port) : (updPort s d k f).iss = s.iss := rfl
@[simp] theorem updPort_inp (s : State) (d k : Nat) (f : Port → Port) : (updPort s d k f).inp = s.inp := rfl
@[simp] theorem updPort_ctxs (s : State) (d k : Nat) (f : Port → Port) : (updPort s d k f).ctxs = s.ctxs := rfl
@[simp] theorem updPort_tiles (s : State) (d k : Nat) (f : Port → Port) : (updPort s d k f).tiles = s.tiles := rfl
@[simp] theorem updPort_z (s : State) (d k : Nat) (f : Port → Port) : (updPort s d k f).z = s.z := rfl
@[simp] theorem updPort_mem (s : State) (d k : Nat) (f : Port → Port) : (updPort s d k f).mem = s.mem := rfl
@[simp] theorem updPort_tags (s : State) (d k : Nat) (f : Port → Port) : (updPort s d k f).tags = s.tags := rfl
@[simp] theorem updPort_l2 (s : State) (d k : Nat) (f : Port → Port) : (updPort s d k f).l2 = s.l2 := rfl
@[simp] theorem updPort_hostLines (s : State) (d k : Nat) (f : Port → Port) : (updPort s d k f).hostLines = s.hostLines := rfl
@[simp] theorem updPort_ecc (s : State) (d k : Nat) (f : Port → Port) : (updPort s d k f).ecc = s.ecc := rfl
@[simp] theorem updPort_flash (s : State) (d k : Nat) (f : Port → Port) : (updPort s d k f).flash = s.flash := rfl
@[simp] theorem updPort_now (s : State) (d k : Nat) (f : Port → Port) : (updPort s d k f).now = s.now := rfl
@[simp] theorem updPort_schedule (s : State) (d k : Nat) (f : Port → Port) : (updPort s d k f).schedule = s.schedule := rfl
@[simp] theorem updPort_rr (s : State) (d k : Nat) (f : Port → Port) : (updPort s d k f).rr = s.rr := rfl
@[simp] theorem updPort_free (s : State) (d k : Nat) (f : Port → Port) : (updPort s d k f).free = s.free := rfl
@[simp] theorem updCx_cur (s : State) (f : Ctx → Ctx) : (updCx s f).cur = s.cur := rfl
@[simp] theorem updCx_iss (s : State) (f : Ctx → Ctx) : (updCx s f).iss = s.iss := rfl
@[simp] theorem updCx_inp (s : State) (f : Ctx → Ctx) : (updCx s f).inp = s.inp := rfl
@[simp] theorem updCx_ctxs (s : State) (f : Ctx → Ctx) : (updCx s f).ctxs = s.ctxs := rfl
@[simp] theorem updCx_tiles (s : State) (f : Ctx → Ctx) : (updCx s f).tiles = s.tiles := rfl
@[simp] theorem updCx_dies (s : State) (f : Ctx → Ctx) : (updCx s f).dies = s.dies := rfl
@[simp] theorem updCx_z (s : State) (f : Ctx → Ctx) : (updCx s f).z = s.z := rfl
@[simp] theorem updCx_mem (s : State) (f : Ctx → Ctx) : (updCx s f).mem = s.mem := rfl
@[simp] theorem updCx_tags (s : State) (f : Ctx → Ctx) : (updCx s f).tags = s.tags := rfl
@[simp] theorem updCx_l2 (s : State) (f : Ctx → Ctx) : (updCx s f).l2 = s.l2 := rfl
@[simp] theorem updCx_hostLines (s : State) (f : Ctx → Ctx) : (updCx s f).hostLines = s.hostLines := rfl
@[simp] theorem updCx_ecc (s : State) (f : Ctx → Ctx) : (updCx s f).ecc = s.ecc := rfl
@[simp] theorem updCx_flash (s : State) (f : Ctx → Ctx) : (updCx s f).flash = s.flash := rfl
@[simp] theorem updCx_now (s : State) (f : Ctx → Ctx) : (updCx s f).now = s.now := rfl
@[simp] theorem updCx_schedule (s : State) (f : Ctx → Ctx) : (updCx s f).schedule = s.schedule := rfl
@[simp] theorem updCx_rr (s : State) (f : Ctx → Ctx) : (updCx s f).rr = s.rr := rfl
@[simp] theorem updCx_free (s : State) (f : Ctx → Ctx) : (updCx s f).free = s.free := rfl
@[simp] theorem setCtx_cur (s : State) (p : Nat) (c : Ctx) : (setCtx s p c).cur = s.cur := by unfold setCtx; split <;> rfl
@[simp] theorem setCtx_iss (s : State) (p : Nat) (c : Ctx) : (setCtx s p c).iss = s.iss := by unfold setCtx; split <;> rfl
@[simp] theorem setCtx_inp (s : State) (p : Nat) (c : Ctx) : (setCtx s p c).inp = s.inp := by unfold setCtx; split <;> rfl
@[simp] theorem setCtx_tiles (s : State) (p : Nat) (c : Ctx) : (setCtx s p c).tiles = s.tiles := by unfold setCtx; split <;> rfl
@[simp] theorem setCtx_dies (s : State) (p : Nat) (c : Ctx) : (setCtx s p c).dies = s.dies := by unfold setCtx; split <;> rfl
@[simp] theorem setCtx_z (s : State) (p : Nat) (c : Ctx) : (setCtx s p c).z = s.z := by unfold setCtx; split <;> rfl
@[simp] theorem setCtx_mem (s : State) (p : Nat) (c : Ctx) : (setCtx s p c).mem = s.mem := by unfold setCtx; split <;> rfl
@[simp] theorem setCtx_tags (s : State) (p : Nat) (c : Ctx) : (setCtx s p c).tags = s.tags := by unfold setCtx; split <;> rfl
@[simp] theorem setCtx_l2 (s : State) (p : Nat) (c : Ctx) : (setCtx s p c).l2 = s.l2 := by unfold setCtx; split <;> rfl
@[simp] theorem setCtx_hostLines (s : State) (p : Nat) (c : Ctx) : (setCtx s p c).hostLines = s.hostLines := by unfold setCtx; split <;> rfl
@[simp] theorem setCtx_ecc (s : State) (p : Nat) (c : Ctx) : (setCtx s p c).ecc = s.ecc := by unfold setCtx; split <;> rfl
@[simp] theorem setCtx_flash (s : State) (p : Nat) (c : Ctx) : (setCtx s p c).flash = s.flash := by unfold setCtx; split <;> rfl
@[simp] theorem setCtx_now (s : State) (p : Nat) (c : Ctx) : (setCtx s p c).now = s.now := by unfold setCtx; split <;> rfl
@[simp] theorem setCtx_schedule (s : State) (p : Nat) (c : Ctx) : (setCtx s p c).schedule = s.schedule := by unfold setCtx; split <;> rfl
@[simp] theorem setCtx_rr (s : State) (p : Nat) (c : Ctx) : (setCtx s p c).rr = s.rr := by unfold setCtx; split <;> rfl
@[simp] theorem setCtx_free (s : State) (p : Nat) (c : Ctx) : (setCtx s p c).free = s.free := by unfold setCtx; split <;> rfl
@[simp] theorem updCtx_cur (s : State) (p : Nat) (f : Ctx → Ctx) : (updCtx s p f).cur = s.cur := setCtx_cur ..
@[simp] theorem updCtx_iss (s : State) (p : Nat) (f : Ctx → Ctx) : (updCtx s p f).iss = s.iss := setCtx_iss ..
@[simp] theorem updCtx_inp (s : State) (p : Nat) (f : Ctx → Ctx) : (updCtx s p f).inp = s.inp := setCtx_inp ..
@[simp] theorem updCtx_tiles (s : State) (p : Nat) (f : Ctx → Ctx) : (updCtx s p f).tiles = s.tiles := setCtx_tiles ..
@[simp] theorem updCtx_dies (s : State) (p : Nat) (f : Ctx → Ctx) : (updCtx s p f).dies = s.dies := setCtx_dies ..
@[simp] theorem updCtx_z (s : State) (p : Nat) (f : Ctx → Ctx) : (updCtx s p f).z = s.z := setCtx_z ..
@[simp] theorem updCtx_mem (s : State) (p : Nat) (f : Ctx → Ctx) : (updCtx s p f).mem = s.mem := setCtx_mem ..
@[simp] theorem updCtx_tags (s : State) (p : Nat) (f : Ctx → Ctx) : (updCtx s p f).tags = s.tags := setCtx_tags ..
@[simp] theorem updCtx_l2 (s : State) (p : Nat) (f : Ctx → Ctx) : (updCtx s p f).l2 = s.l2 := setCtx_l2 ..
@[simp] theorem updCtx_hostLines (s : State) (p : Nat) (f : Ctx → Ctx) : (updCtx s p f).hostLines = s.hostLines := setCtx_hostLines ..
@[simp] theorem updCtx_ecc (s : State) (p : Nat) (f : Ctx → Ctx) : (updCtx s p f).ecc = s.ecc := setCtx_ecc ..
@[simp] theorem updCtx_flash (s : State) (p : Nat) (f : Ctx → Ctx) : (updCtx s p f).flash = s.flash := setCtx_flash ..
@[simp] theorem updCtx_now (s : State) (p : Nat) (f : Ctx → Ctx) : (updCtx s p f).now = s.now := setCtx_now ..
@[simp] theorem updCtx_schedule (s : State) (p : Nat) (f : Ctx → Ctx) : (updCtx s p f).schedule = s.schedule := setCtx_schedule ..
@[simp] theorem updCtx_rr (s : State) (p : Nat) (f : Ctx → Ctx) : (updCtx s p f).rr = s.rr := setCtx_rr ..
@[simp] theorem updCtx_free (s : State) (p : Nat) (f : Ctx → Ctx) : (updCtx s p f).free = s.free := setCtx_free ..
@[simp] theorem focus_iss (s : State) (p : Nat) : (focus s p).iss = s.iss := by unfold focus; split <;> rfl
@[simp] theorem focus_inp (s : State) (p : Nat) : (focus s p).inp = s.inp := by unfold focus; split <;> rfl
@[simp] theorem focus_tiles (s : State) (p : Nat) : (focus s p).tiles = s.tiles := by unfold focus; split <;> rfl
@[simp] theorem focus_dies (s : State) (p : Nat) : (focus s p).dies = s.dies := by unfold focus; split <;> rfl
@[simp] theorem focus_z (s : State) (p : Nat) : (focus s p).z = s.z := by unfold focus; split <;> rfl
@[simp] theorem focus_mem (s : State) (p : Nat) : (focus s p).mem = s.mem := by unfold focus; split <;> rfl
@[simp] theorem focus_tags (s : State) (p : Nat) : (focus s p).tags = s.tags := by unfold focus; split <;> rfl
@[simp] theorem focus_l2 (s : State) (p : Nat) : (focus s p).l2 = s.l2 := by unfold focus; split <;> rfl
@[simp] theorem focus_hostLines (s : State) (p : Nat) : (focus s p).hostLines = s.hostLines := by unfold focus; split <;> rfl
@[simp] theorem focus_ecc (s : State) (p : Nat) : (focus s p).ecc = s.ecc := by unfold focus; split <;> rfl
@[simp] theorem focus_flash (s : State) (p : Nat) : (focus s p).flash = s.flash := by unfold focus; split <;> rfl
@[simp] theorem focus_now (s : State) (p : Nat) : (focus s p).now = s.now := by unfold focus; split <;> rfl
@[simp] theorem focus_schedule (s : State) (p : Nat) : (focus s p).schedule = s.schedule := by unfold focus; split <;> rfl
@[simp] theorem focus_rr (s : State) (p : Nat) : (focus s p).rr = s.rr := by unfold focus; split <;> rfl
@[simp] theorem focus_free (s : State) (p : Nat) : (focus s p).free = s.free := by unfold focus; split <;> rfl

/-! ### What an update changes -/

@[simp] theorem tileAt_setTile (s : State) (t : Nat) (x : Tile) : tileAt (setTile s t x) t = x := by simp [tileAt, setTile]
@[simp] theorem tileAt_updTile (s : State) (t : Nat) (f : Tile → Tile) : tileAt (updTile s t f) t = f (tileAt s t) := tileAt_setTile ..
theorem tileAt_updTile_ne (s : State) {t u : Nat} (f : Tile → Tile) (h : u ≠ t) : tileAt (updTile s t f) u = tileAt s u := by
  simp [tileAt, updTile, setTile, alook_aset_ne _ _ h]
@[simp] theorem dieAt_setDie (s : State) (d : Nat) (x : Die) : dieAt (setDie s d x) d = x := by simp [dieAt, setDie]
@[simp] theorem dieAt_updDie (s : State) (d : Nat) (f : Die → Die) : dieAt (updDie s d f) d = f (dieAt s d) := dieAt_setDie ..
theorem dieAt_updDie_ne (s : State) {d e : Nat} (f : Die → Die) (h : e ≠ d) : dieAt (updDie s d f) e = dieAt s e := by
  simp [dieAt, updDie, setDie, alook_aset_ne _ _ h]
@[simp] theorem tileAt_updDie (s : State) (d : Nat) (f : Die → Die) (t : Nat) : tileAt (updDie s d f) t = tileAt s t := rfl
@[simp] theorem dieAt_updTile (s : State) (t : Nat) (f : Tile → Tile) (d : Nat) : dieAt (updTile s t f) d = dieAt s d := rfl
@[simp] theorem ctxAt_updDie (s : State) (d : Nat) (f : Die → Die) (p : Nat) : ctxAt (updDie s d f) p = ctxAt s p := rfl
@[simp] theorem ctxAt_updTile (s : State) (t : Nat) (f : Tile → Tile) (p : Nat) : ctxAt (updTile s t f) p = ctxAt s p := rfl
@[simp] theorem ctxAt_cur (s : State) : ctxAt s s.cur = s.cx := if_pos rfl
@[simp] theorem ctxAt_setCtx (s : State) (p : Nat) (c : Ctx) : ctxAt (setCtx s p c) p = c := by
  unfold setCtx ctxAt
  by_cases h : p = s.cur <;> simp [h]
@[simp] theorem ctxAt_updCtx (s : State) (p : Nat) (f : Ctx → Ctx) : ctxAt (updCtx s p f) p = f (ctxAt s p) := ctxAt_setCtx ..
@[simp] theorem tenantAt_updTenant (s : State) (d t : Nat) (f : Tenant → Tenant) :
    tenantAt (updTenant s d t f) d t = f (tenantAt s d t) := by simp [tenantAt, updTenant]
@[simp] theorem clusterAt_updCluster (s : State) (d c : Nat) (f : Cluster → Cluster) :
    clusterAt (updCluster s d c f) d c = f (clusterAt s d c) := by simp [clusterAt, updCluster]
@[simp] theorem portAt_updPort (s : State) (d k : Nat) (f : Port → Port) : portAt (updPort s d k f) d k = f (portAt s d k) := by
  simp [portAt, updPort]
@[simp] theorem tileAt_setCtx (s : State) (p : Nat) (c : Ctx) (t : Nat) : tileAt (setCtx s p c) t = tileAt s t := by simp [tileAt]
@[simp] theorem tileAt_updCtx (s : State) (p : Nat) (f : Ctx → Ctx) (t : Nat) : tileAt (updCtx s p f) t = tileAt s t := by simp [tileAt]
@[simp] theorem dieAt_setCtx (s : State) (p : Nat) (c : Ctx) (d : Nat) : dieAt (setCtx s p c) d = dieAt s d := by simp [dieAt]
@[simp] theorem dieAt_updCtx (s : State) (p : Nat) (f : Ctx → Ctx) (d : Nat) : dieAt (updCtx s p f) d = dieAt s d := by simp [dieAt]
@[simp] theorem tileAt_updTenant (s : State) (d k : Nat) (f : Tenant → Tenant) (t : Nat) : tileAt (updTenant s d k f) t = tileAt s t := rfl
@[simp] theorem ctxAt_updTenant (s : State) (d k : Nat) (f : Tenant → Tenant) (p : Nat) : ctxAt (updTenant s d k f) p = ctxAt s p := rfl
@[simp] theorem ctxAt_updPort (s : State) (d k : Nat) (f : Port → Port) (p : Nat) : ctxAt (updPort s d k f) p = ctxAt s p := rfl
@[simp] theorem tileAt_updPort (s : State) (d k : Nat) (f : Port → Port) (t : Nat) : tileAt (updPort s d k f) t = tileAt s t := rfl
@[simp] theorem ctxAt_updCluster (s : State) (d k : Nat) (f : Cluster → Cluster) (p : Nat) : ctxAt (updCluster s d k f) p = ctxAt s p := rfl
@[simp] theorem tileAt_updCluster (s : State) (d k : Nat) (f : Cluster → Cluster) (t : Nat) : tileAt (updCluster s d k f) t = tileAt s t := rfl

/-! ### Updates of a context -/

@[simp] theorem Ctx.setG_phase (c : Ctx) (n : Nat) (v : Word) : (c.setG n v).phase = c.phase := by unfold Ctx.setG; split <;> rfl
@[simp] theorem Ctx.setG_a (c : Ctx) (n : Nat) (v : Word) : (c.setG n v).a = c.a := by unfold Ctx.setG; split <;> rfl
@[simp] theorem Ctx.setG_csr (c : Ctx) (n : Nat) (v : Word) : (c.setG n v).csr = c.csr := by unfold Ctx.setG; split <;> rfl
@[simp] theorem Ctx.setG_cc (c : Ctx) (n : Nat) (v : Word) : (c.setG n v).cc = c.cc := by unfold Ctx.setG; split <;> rfl
@[simp] theorem Ctx.setG_tok (c : Ctx) (n : Nat) (v : Word) : (c.setG n v).tok = c.tok := by unfold Ctx.setG; split <;> rfl
@[simp] theorem Ctx.setG_fetch (c : Ctx) (n : Nat) (v : Word) : (c.setG n v).fetch = c.fetch := by unfold Ctx.setG; split <;> rfl
@[simp] theorem Ctx.setG_fetchHold (c : Ctx) (n : Nat) (v : Word) : (c.setG n v).fetchHold = c.fetchHold := by unfold Ctx.setG; split <;> rfl
@[simp] theorem Ctx.setG_qC (c : Ctx) (n : Nat) (v : Word) : (c.setG n v).qC = c.qC := by unfold Ctx.setG; split <;> rfl
@[simp] theorem Ctx.setG_qL (c : Ctx) (n : Nat) (v : Word) : (c.setG n v).qL = c.qL := by unfold Ctx.setG; split <;> rfl
@[simp] theorem Ctx.setG_qS (c : Ctx) (n : Nat) (v : Word) : (c.setG n v).qS = c.qS := by unfold Ctx.setG; split <;> rfl
@[simp] theorem Ctx.setG_qV (c : Ctx) (n : Nat) (v : Word) : (c.setG n v).qV = c.qV := by unfold Ctx.setG; split <;> rfl
@[simp] theorem Ctx.setG_qM (c : Ctx) (n : Nat) (v : Word) : (c.setG n v).qM = c.qM := by unfold Ctx.setG; split <;> rfl
@[simp] theorem Ctx.setG_qX (c : Ctx) (n : Nat) (v : Word) : (c.setG n v).qX = c.qX := by unfold Ctx.setG; split <;> rfl
@[simp] theorem Ctx.setG_hq (c : Ctx) (n : Nat) (v : Word) : (c.setG n v).hq = c.hq := by unfold Ctx.setG; split <;> rfl
@[simp] theorem Ctx.setG_lq (c : Ctx) (n : Nat) (v : Word) : (c.setG n v).lq = c.lq := by unfold Ctx.setG; split <;> rfl
@[simp] theorem Ctx.setG_sq (c : Ctx) (n : Nat) (v : Word) : (c.setG n v).sq = c.sq := by unfold Ctx.setG; split <;> rfl
@[simp] theorem Ctx.setG_strm (c : Ctx) (n : Nat) (v : Word) : (c.setG n v).strm = c.strm := by unfold Ctx.setG; split <;> rfl
@[simp] theorem Ctx.setG_v (c : Ctx) (n : Nat) (v : Word) : (c.setG n v).v = c.v := by unfold Ctx.setG; split <;> rfl
@[simp] theorem Ctx.setG_p (c : Ctx) (n : Nat) (v : Word) : (c.setG n v).p = c.p := by unfold Ctx.setG; split <;> rfl
@[simp] theorem Ctx.setG_acc (c : Ctx) (n : Nat) (v : Word) : (c.setG n v).acc = c.acc := by unfold Ctx.setG; split <;> rfl
@[simp] theorem Ctx.setG_accUnits (c : Ctx) (n : Nat) (v : Word) : (c.setG n v).accUnits = c.accUnits := by unfold Ctx.setG; split <;> rfl
@[simp] theorem Ctx.setG_accBase (c : Ctx) (n : Nat) (v : Word) : (c.setG n v).accBase = c.accBase := by unfold Ctx.setG; split <;> rfl
@[simp] theorem Ctx.setG_spad (c : Ctx) (n : Nat) (v : Word) : (c.setG n v).spad = c.spad := by unfold Ctx.setG; split <;> rfl
@[simp] theorem Ctx.setG_spadUnits (c : Ctx) (n : Nat) (v : Word) : (c.setG n v).spadUnits = c.spadUnits := by unfold Ctx.setG; split <;> rfl
@[simp] theorem Ctx.setG_spadBase (c : Ctx) (n : Nat) (v : Word) : (c.setG n v).spadBase = c.spadBase := by unfold Ctx.setG; split <;> rfl
@[simp] theorem Ctx.setG_grp (c : Ctx) (n : Nat) (v : Word) : (c.setG n v).grp = c.grp := by unfold Ctx.setG; split <;> rfl
@[simp] theorem Ctx.setG_chartGrp (c : Ctx) (n : Nat) (v : Word) : (c.setG n v).chartGrp = c.chartGrp := by unfold Ctx.setG; split <;> rfl
@[simp] theorem Ctx.setG_repL (c : Ctx) (n : Nat) (v : Word) : (c.setG n v).repL = c.repL := by unfold Ctx.setG; split <;> rfl
@[simp] theorem Ctx.setG_repS (c : Ctx) (n : Nat) (v : Word) : (c.setG n v).repS = c.repS := by unfold Ctx.setG; split <;> rfl
@[simp] theorem Ctx.setG_repV (c : Ctx) (n : Nat) (v : Word) : (c.setG n v).repV = c.repV := by unfold Ctx.setG; split <;> rfl
@[simp] theorem Ctx.setG_copies (c : Ctx) (n : Nat) (v : Word) : (c.setG n v).copies = c.copies := by unfold Ctx.setG; split <;> rfl
@[simp] theorem Ctx.setG_xops (c : Ctx) (n : Nat) (v : Word) : (c.setG n v).xops = c.xops := by unfold Ctx.setG; split <;> rfl
@[simp] theorem Ctx.setG_mops (c : Ctx) (n : Nat) (v : Word) : (c.setG n v).mops = c.mops := by unfold Ctx.setG; split <;> rfl
@[simp] theorem Ctx.setG_granted (c : Ctx) (n : Nat) (v : Word) : (c.setG n v).granted = c.granted := by unfold Ctx.setG; split <;> rfl
@[simp] theorem Ctx.setG_entitle (c : Ctx) (n : Nat) (v : Word) : (c.setG n v).entitle = c.entitle := by unfold Ctx.setG; split <;> rfl
@[simp] theorem Ctx.setG_exposed (c : Ctx) (n : Nat) (v : Word) : (c.setG n v).exposed = c.exposed := by unfold Ctx.setG; split <;> rfl
@[simp] theorem Ctx.setG_statq (c : Ctx) (n : Nat) (v : Word) : (c.setG n v).statq = c.statq := by unfold Ctx.setG; split <;> rfl
@[simp] theorem Ctx.setG_heldSnap (c : Ctx) (n : Nat) (v : Word) : (c.setG n v).heldSnap = c.heldSnap := by unfold Ctx.setG; split <;> rfl
@[simp] theorem Ctx.setG_lockTr (c : Ctx) (n : Nat) (v : Word) : (c.setG n v).lockTr = c.lockTr := by unfold Ctx.setG; split <;> rfl
@[simp] theorem Ctx.setG_trapDue (c : Ctx) (n : Nat) (v : Word) : (c.setG n v).trapDue = c.trapDue := by unfold Ctx.setG; split <;> rfl
@[simp] theorem Ctx.setG_asyncDue (c : Ctx) (n : Nat) (v : Word) : (c.setG n v).asyncDue = c.asyncDue := by unfold Ctx.setG; split <;> rfl
@[simp] theorem Ctx.setG_nested (c : Ctx) (n : Nat) (v : Word) : (c.setG n v).nested = c.nested := by unfold Ctx.setG; split <;> rfl
@[simp] theorem Ctx.setG_handler (c : Ctx) (n : Nat) (v : Word) : (c.setG n v).handler = c.handler := by unfold Ctx.setG; split <;> rfl
@[simp] theorem Ctx.setG_report (c : Ctx) (n : Nat) (v : Word) : (c.setG n v).report = c.report := by unfold Ctx.setG; split <;> rfl
@[simp] theorem Ctx.setG_due (c : Ctx) (n : Nat) (v : Word) : (c.setG n v).due = c.due := by unfold Ctx.setG; split <;> rfl
@[simp] theorem Ctx.setG_debugHeld (c : Ctx) (n : Nat) (v : Word) : (c.setG n v).debugHeld = c.debugHeld := by unfold Ctx.setG; split <;> rfl
@[simp] theorem Ctx.setG_fault (c : Ctx) (n : Nat) (v : Word) : (c.setG n v).fault = c.fault := by unfold Ctx.setG; split <;> rfl
@[simp] theorem Ctx.setG_task (c : Ctx) (n : Nat) (v : Word) : (c.setG n v).task = c.task := by unfold Ctx.setG; split <;> rfl
@[simp] theorem Ctx.setG_inst (c : Ctx) (n : Nat) (v : Word) : (c.setG n v).inst = c.inst := by unfold Ctx.setG; split <;> rfl
@[simp] theorem Ctx.setG_triggered (c : Ctx) (n : Nat) (v : Word) : (c.setG n v).triggered = c.triggered := by unfold Ctx.setG; split <;> rfl
@[simp] theorem Ctx.setG_stored (c : Ctx) (n : Nat) (v : Word) : (c.setG n v).stored = c.stored := by unfold Ctx.setG; split <;> rfl
@[simp] theorem Ctx.setG_asked (c : Ctx) (n : Nat) (v : Word) : (c.setG n v).asked = c.asked := by unfold Ctx.setG; split <;> rfl
@[simp] theorem Ctx.setG_bad (c : Ctx) (n : Nat) (v : Word) : (c.setG n v).bad = c.bad := by unfold Ctx.setG; split <;> rfl
@[simp] theorem Ctx.setG_hist (c : Ctx) (n : Nat) (v : Word) : (c.setG n v).hist = c.hist := by unfold Ctx.setG; split <;> rfl
@[simp] theorem Ctx.setG_rel (c : Ctx) (n : Nat) (v : Word) : (c.setG n v).rel = c.rel := by unfold Ctx.setG; split <;> rfl
@[simp] theorem Ctx.setA_phase (c : Ctx) (n : Nat) (v : Word) : (c.setA n v).phase = c.phase := rfl
@[simp] theorem Ctx.setA_g (c : Ctx) (n : Nat) (v : Word) : (c.setA n v).g = c.g := rfl
@[simp] theorem Ctx.setA_csr (c : Ctx) (n : Nat) (v : Word) : (c.setA n v).csr = c.csr := rfl
@[simp] theorem Ctx.setA_cc (c : Ctx) (n : Nat) (v : Word) : (c.setA n v).cc = c.cc := rfl
@[simp] theorem Ctx.setA_tok (c : Ctx) (n : Nat) (v : Word) : (c.setA n v).tok = c.tok := rfl
@[simp] theorem Ctx.setA_fetch (c : Ctx) (n : Nat) (v : Word) : (c.setA n v).fetch = c.fetch := rfl
@[simp] theorem Ctx.setA_fetchHold (c : Ctx) (n : Nat) (v : Word) : (c.setA n v).fetchHold = c.fetchHold := rfl
@[simp] theorem Ctx.setA_qC (c : Ctx) (n : Nat) (v : Word) : (c.setA n v).qC = c.qC := rfl
@[simp] theorem Ctx.setA_qL (c : Ctx) (n : Nat) (v : Word) : (c.setA n v).qL = c.qL := rfl
@[simp] theorem Ctx.setA_qS (c : Ctx) (n : Nat) (v : Word) : (c.setA n v).qS = c.qS := rfl
@[simp] theorem Ctx.setA_qV (c : Ctx) (n : Nat) (v : Word) : (c.setA n v).qV = c.qV := rfl
@[simp] theorem Ctx.setA_qM (c : Ctx) (n : Nat) (v : Word) : (c.setA n v).qM = c.qM := rfl
@[simp] theorem Ctx.setA_qX (c : Ctx) (n : Nat) (v : Word) : (c.setA n v).qX = c.qX := rfl
@[simp] theorem Ctx.setA_hq (c : Ctx) (n : Nat) (v : Word) : (c.setA n v).hq = c.hq := rfl
@[simp] theorem Ctx.setA_lq (c : Ctx) (n : Nat) (v : Word) : (c.setA n v).lq = c.lq := rfl
@[simp] theorem Ctx.setA_sq (c : Ctx) (n : Nat) (v : Word) : (c.setA n v).sq = c.sq := rfl
@[simp] theorem Ctx.setA_strm (c : Ctx) (n : Nat) (v : Word) : (c.setA n v).strm = c.strm := rfl
@[simp] theorem Ctx.setA_v (c : Ctx) (n : Nat) (v : Word) : (c.setA n v).v = c.v := rfl
@[simp] theorem Ctx.setA_p (c : Ctx) (n : Nat) (v : Word) : (c.setA n v).p = c.p := rfl
@[simp] theorem Ctx.setA_acc (c : Ctx) (n : Nat) (v : Word) : (c.setA n v).acc = c.acc := rfl
@[simp] theorem Ctx.setA_accUnits (c : Ctx) (n : Nat) (v : Word) : (c.setA n v).accUnits = c.accUnits := rfl
@[simp] theorem Ctx.setA_accBase (c : Ctx) (n : Nat) (v : Word) : (c.setA n v).accBase = c.accBase := rfl
@[simp] theorem Ctx.setA_spad (c : Ctx) (n : Nat) (v : Word) : (c.setA n v).spad = c.spad := rfl
@[simp] theorem Ctx.setA_spadUnits (c : Ctx) (n : Nat) (v : Word) : (c.setA n v).spadUnits = c.spadUnits := rfl
@[simp] theorem Ctx.setA_spadBase (c : Ctx) (n : Nat) (v : Word) : (c.setA n v).spadBase = c.spadBase := rfl
@[simp] theorem Ctx.setA_grp (c : Ctx) (n : Nat) (v : Word) : (c.setA n v).grp = c.grp := rfl
@[simp] theorem Ctx.setA_chartGrp (c : Ctx) (n : Nat) (v : Word) : (c.setA n v).chartGrp = c.chartGrp := rfl
@[simp] theorem Ctx.setA_repL (c : Ctx) (n : Nat) (v : Word) : (c.setA n v).repL = c.repL := rfl
@[simp] theorem Ctx.setA_repS (c : Ctx) (n : Nat) (v : Word) : (c.setA n v).repS = c.repS := rfl
@[simp] theorem Ctx.setA_repV (c : Ctx) (n : Nat) (v : Word) : (c.setA n v).repV = c.repV := rfl
@[simp] theorem Ctx.setA_copies (c : Ctx) (n : Nat) (v : Word) : (c.setA n v).copies = c.copies := rfl
@[simp] theorem Ctx.setA_xops (c : Ctx) (n : Nat) (v : Word) : (c.setA n v).xops = c.xops := rfl
@[simp] theorem Ctx.setA_mops (c : Ctx) (n : Nat) (v : Word) : (c.setA n v).mops = c.mops := rfl
@[simp] theorem Ctx.setA_granted (c : Ctx) (n : Nat) (v : Word) : (c.setA n v).granted = c.granted := rfl
@[simp] theorem Ctx.setA_entitle (c : Ctx) (n : Nat) (v : Word) : (c.setA n v).entitle = c.entitle := rfl
@[simp] theorem Ctx.setA_exposed (c : Ctx) (n : Nat) (v : Word) : (c.setA n v).exposed = c.exposed := rfl
@[simp] theorem Ctx.setA_statq (c : Ctx) (n : Nat) (v : Word) : (c.setA n v).statq = c.statq := rfl
@[simp] theorem Ctx.setA_heldSnap (c : Ctx) (n : Nat) (v : Word) : (c.setA n v).heldSnap = c.heldSnap := rfl
@[simp] theorem Ctx.setA_lockTr (c : Ctx) (n : Nat) (v : Word) : (c.setA n v).lockTr = c.lockTr := rfl
@[simp] theorem Ctx.setA_trapDue (c : Ctx) (n : Nat) (v : Word) : (c.setA n v).trapDue = c.trapDue := rfl
@[simp] theorem Ctx.setA_asyncDue (c : Ctx) (n : Nat) (v : Word) : (c.setA n v).asyncDue = c.asyncDue := rfl
@[simp] theorem Ctx.setA_nested (c : Ctx) (n : Nat) (v : Word) : (c.setA n v).nested = c.nested := rfl
@[simp] theorem Ctx.setA_handler (c : Ctx) (n : Nat) (v : Word) : (c.setA n v).handler = c.handler := rfl
@[simp] theorem Ctx.setA_report (c : Ctx) (n : Nat) (v : Word) : (c.setA n v).report = c.report := rfl
@[simp] theorem Ctx.setA_due (c : Ctx) (n : Nat) (v : Word) : (c.setA n v).due = c.due := rfl
@[simp] theorem Ctx.setA_debugHeld (c : Ctx) (n : Nat) (v : Word) : (c.setA n v).debugHeld = c.debugHeld := rfl
@[simp] theorem Ctx.setA_fault (c : Ctx) (n : Nat) (v : Word) : (c.setA n v).fault = c.fault := rfl
@[simp] theorem Ctx.setA_task (c : Ctx) (n : Nat) (v : Word) : (c.setA n v).task = c.task := rfl
@[simp] theorem Ctx.setA_inst (c : Ctx) (n : Nat) (v : Word) : (c.setA n v).inst = c.inst := rfl
@[simp] theorem Ctx.setA_triggered (c : Ctx) (n : Nat) (v : Word) : (c.setA n v).triggered = c.triggered := rfl
@[simp] theorem Ctx.setA_stored (c : Ctx) (n : Nat) (v : Word) : (c.setA n v).stored = c.stored := rfl
@[simp] theorem Ctx.setA_asked (c : Ctx) (n : Nat) (v : Word) : (c.setA n v).asked = c.asked := rfl
@[simp] theorem Ctx.setA_bad (c : Ctx) (n : Nat) (v : Word) : (c.setA n v).bad = c.bad := rfl
@[simp] theorem Ctx.setA_hist (c : Ctx) (n : Nat) (v : Word) : (c.setA n v).hist = c.hist := rfl
@[simp] theorem Ctx.setA_rel (c : Ctx) (n : Nat) (v : Word) : (c.setA n v).rel = c.rel := rfl
@[simp] theorem Ctx.setCr_phase (c : Ctx) (n : Nat) (v : Word) : (c.setCr n v).phase = c.phase := rfl
@[simp] theorem Ctx.setCr_g (c : Ctx) (n : Nat) (v : Word) : (c.setCr n v).g = c.g := rfl
@[simp] theorem Ctx.setCr_a (c : Ctx) (n : Nat) (v : Word) : (c.setCr n v).a = c.a := rfl
@[simp] theorem Ctx.setCr_cc (c : Ctx) (n : Nat) (v : Word) : (c.setCr n v).cc = c.cc := rfl
@[simp] theorem Ctx.setCr_tok (c : Ctx) (n : Nat) (v : Word) : (c.setCr n v).tok = c.tok := rfl
@[simp] theorem Ctx.setCr_fetch (c : Ctx) (n : Nat) (v : Word) : (c.setCr n v).fetch = c.fetch := rfl
@[simp] theorem Ctx.setCr_fetchHold (c : Ctx) (n : Nat) (v : Word) : (c.setCr n v).fetchHold = c.fetchHold := rfl
@[simp] theorem Ctx.setCr_qC (c : Ctx) (n : Nat) (v : Word) : (c.setCr n v).qC = c.qC := rfl
@[simp] theorem Ctx.setCr_qL (c : Ctx) (n : Nat) (v : Word) : (c.setCr n v).qL = c.qL := rfl
@[simp] theorem Ctx.setCr_qS (c : Ctx) (n : Nat) (v : Word) : (c.setCr n v).qS = c.qS := rfl
@[simp] theorem Ctx.setCr_qV (c : Ctx) (n : Nat) (v : Word) : (c.setCr n v).qV = c.qV := rfl
@[simp] theorem Ctx.setCr_qM (c : Ctx) (n : Nat) (v : Word) : (c.setCr n v).qM = c.qM := rfl
@[simp] theorem Ctx.setCr_qX (c : Ctx) (n : Nat) (v : Word) : (c.setCr n v).qX = c.qX := rfl
@[simp] theorem Ctx.setCr_hq (c : Ctx) (n : Nat) (v : Word) : (c.setCr n v).hq = c.hq := rfl
@[simp] theorem Ctx.setCr_lq (c : Ctx) (n : Nat) (v : Word) : (c.setCr n v).lq = c.lq := rfl
@[simp] theorem Ctx.setCr_sq (c : Ctx) (n : Nat) (v : Word) : (c.setCr n v).sq = c.sq := rfl
@[simp] theorem Ctx.setCr_strm (c : Ctx) (n : Nat) (v : Word) : (c.setCr n v).strm = c.strm := rfl
@[simp] theorem Ctx.setCr_v (c : Ctx) (n : Nat) (v : Word) : (c.setCr n v).v = c.v := rfl
@[simp] theorem Ctx.setCr_p (c : Ctx) (n : Nat) (v : Word) : (c.setCr n v).p = c.p := rfl
@[simp] theorem Ctx.setCr_acc (c : Ctx) (n : Nat) (v : Word) : (c.setCr n v).acc = c.acc := rfl
@[simp] theorem Ctx.setCr_accUnits (c : Ctx) (n : Nat) (v : Word) : (c.setCr n v).accUnits = c.accUnits := rfl
@[simp] theorem Ctx.setCr_accBase (c : Ctx) (n : Nat) (v : Word) : (c.setCr n v).accBase = c.accBase := rfl
@[simp] theorem Ctx.setCr_spad (c : Ctx) (n : Nat) (v : Word) : (c.setCr n v).spad = c.spad := rfl
@[simp] theorem Ctx.setCr_spadUnits (c : Ctx) (n : Nat) (v : Word) : (c.setCr n v).spadUnits = c.spadUnits := rfl
@[simp] theorem Ctx.setCr_spadBase (c : Ctx) (n : Nat) (v : Word) : (c.setCr n v).spadBase = c.spadBase := rfl
@[simp] theorem Ctx.setCr_grp (c : Ctx) (n : Nat) (v : Word) : (c.setCr n v).grp = c.grp := rfl
@[simp] theorem Ctx.setCr_chartGrp (c : Ctx) (n : Nat) (v : Word) : (c.setCr n v).chartGrp = c.chartGrp := rfl
@[simp] theorem Ctx.setCr_repL (c : Ctx) (n : Nat) (v : Word) : (c.setCr n v).repL = c.repL := rfl
@[simp] theorem Ctx.setCr_repS (c : Ctx) (n : Nat) (v : Word) : (c.setCr n v).repS = c.repS := rfl
@[simp] theorem Ctx.setCr_repV (c : Ctx) (n : Nat) (v : Word) : (c.setCr n v).repV = c.repV := rfl
@[simp] theorem Ctx.setCr_copies (c : Ctx) (n : Nat) (v : Word) : (c.setCr n v).copies = c.copies := rfl
@[simp] theorem Ctx.setCr_xops (c : Ctx) (n : Nat) (v : Word) : (c.setCr n v).xops = c.xops := rfl
@[simp] theorem Ctx.setCr_mops (c : Ctx) (n : Nat) (v : Word) : (c.setCr n v).mops = c.mops := rfl
@[simp] theorem Ctx.setCr_granted (c : Ctx) (n : Nat) (v : Word) : (c.setCr n v).granted = c.granted := rfl
@[simp] theorem Ctx.setCr_entitle (c : Ctx) (n : Nat) (v : Word) : (c.setCr n v).entitle = c.entitle := rfl
@[simp] theorem Ctx.setCr_exposed (c : Ctx) (n : Nat) (v : Word) : (c.setCr n v).exposed = c.exposed := rfl
@[simp] theorem Ctx.setCr_statq (c : Ctx) (n : Nat) (v : Word) : (c.setCr n v).statq = c.statq := rfl
@[simp] theorem Ctx.setCr_heldSnap (c : Ctx) (n : Nat) (v : Word) : (c.setCr n v).heldSnap = c.heldSnap := rfl
@[simp] theorem Ctx.setCr_lockTr (c : Ctx) (n : Nat) (v : Word) : (c.setCr n v).lockTr = c.lockTr := rfl
@[simp] theorem Ctx.setCr_trapDue (c : Ctx) (n : Nat) (v : Word) : (c.setCr n v).trapDue = c.trapDue := rfl
@[simp] theorem Ctx.setCr_asyncDue (c : Ctx) (n : Nat) (v : Word) : (c.setCr n v).asyncDue = c.asyncDue := rfl
@[simp] theorem Ctx.setCr_nested (c : Ctx) (n : Nat) (v : Word) : (c.setCr n v).nested = c.nested := rfl
@[simp] theorem Ctx.setCr_handler (c : Ctx) (n : Nat) (v : Word) : (c.setCr n v).handler = c.handler := rfl
@[simp] theorem Ctx.setCr_report (c : Ctx) (n : Nat) (v : Word) : (c.setCr n v).report = c.report := rfl
@[simp] theorem Ctx.setCr_due (c : Ctx) (n : Nat) (v : Word) : (c.setCr n v).due = c.due := rfl
@[simp] theorem Ctx.setCr_debugHeld (c : Ctx) (n : Nat) (v : Word) : (c.setCr n v).debugHeld = c.debugHeld := rfl
@[simp] theorem Ctx.setCr_fault (c : Ctx) (n : Nat) (v : Word) : (c.setCr n v).fault = c.fault := rfl
@[simp] theorem Ctx.setCr_task (c : Ctx) (n : Nat) (v : Word) : (c.setCr n v).task = c.task := rfl
@[simp] theorem Ctx.setCr_inst (c : Ctx) (n : Nat) (v : Word) : (c.setCr n v).inst = c.inst := rfl
@[simp] theorem Ctx.setCr_triggered (c : Ctx) (n : Nat) (v : Word) : (c.setCr n v).triggered = c.triggered := rfl
@[simp] theorem Ctx.setCr_stored (c : Ctx) (n : Nat) (v : Word) : (c.setCr n v).stored = c.stored := rfl
@[simp] theorem Ctx.setCr_asked (c : Ctx) (n : Nat) (v : Word) : (c.setCr n v).asked = c.asked := rfl
@[simp] theorem Ctx.setCr_bad (c : Ctx) (n : Nat) (v : Word) : (c.setCr n v).bad = c.bad := rfl
@[simp] theorem Ctx.setCr_hist (c : Ctx) (n : Nat) (v : Word) : (c.setCr n v).hist = c.hist := rfl
@[simp] theorem Ctx.setCr_rel (c : Ctx) (n : Nat) (v : Word) : (c.setCr n v).rel = c.rel := rfl
@[simp] theorem Ctx.setCounter_phase (c : Ctx) (k v : Nat) : (c.setCounter k v).phase = c.phase := rfl
@[simp] theorem Ctx.setCounter_g (c : Ctx) (k v : Nat) : (c.setCounter k v).g = c.g := rfl
@[simp] theorem Ctx.setCounter_a (c : Ctx) (k v : Nat) : (c.setCounter k v).a = c.a := rfl
@[simp] theorem Ctx.setCounter_csr (c : Ctx) (k v : Nat) : (c.setCounter k v).csr = c.csr := rfl
@[simp] theorem Ctx.setCounter_tok (c : Ctx) (k v : Nat) : (c.setCounter k v).tok = c.tok := rfl
@[simp] theorem Ctx.setCounter_fetch (c : Ctx) (k v : Nat) : (c.setCounter k v).fetch = c.fetch := rfl
@[simp] theorem Ctx.setCounter_fetchHold (c : Ctx) (k v : Nat) : (c.setCounter k v).fetchHold = c.fetchHold := rfl
@[simp] theorem Ctx.setCounter_qC (c : Ctx) (k v : Nat) : (c.setCounter k v).qC = c.qC := rfl
@[simp] theorem Ctx.setCounter_qL (c : Ctx) (k v : Nat) : (c.setCounter k v).qL = c.qL := rfl
@[simp] theorem Ctx.setCounter_qS (c : Ctx) (k v : Nat) : (c.setCounter k v).qS = c.qS := rfl
@[simp] theorem Ctx.setCounter_qV (c : Ctx) (k v : Nat) : (c.setCounter k v).qV = c.qV := rfl
@[simp] theorem Ctx.setCounter_qM (c : Ctx) (k v : Nat) : (c.setCounter k v).qM = c.qM := rfl
@[simp] theorem Ctx.setCounter_qX (c : Ctx) (k v : Nat) : (c.setCounter k v).qX = c.qX := rfl
@[simp] theorem Ctx.setCounter_hq (c : Ctx) (k v : Nat) : (c.setCounter k v).hq = c.hq := rfl
@[simp] theorem Ctx.setCounter_lq (c : Ctx) (k v : Nat) : (c.setCounter k v).lq = c.lq := rfl
@[simp] theorem Ctx.setCounter_sq (c : Ctx) (k v : Nat) : (c.setCounter k v).sq = c.sq := rfl
@[simp] theorem Ctx.setCounter_strm (c : Ctx) (k v : Nat) : (c.setCounter k v).strm = c.strm := rfl
@[simp] theorem Ctx.setCounter_v (c : Ctx) (k v : Nat) : (c.setCounter k v).v = c.v := rfl
@[simp] theorem Ctx.setCounter_p (c : Ctx) (k v : Nat) : (c.setCounter k v).p = c.p := rfl
@[simp] theorem Ctx.setCounter_acc (c : Ctx) (k v : Nat) : (c.setCounter k v).acc = c.acc := rfl
@[simp] theorem Ctx.setCounter_accUnits (c : Ctx) (k v : Nat) : (c.setCounter k v).accUnits = c.accUnits := rfl
@[simp] theorem Ctx.setCounter_accBase (c : Ctx) (k v : Nat) : (c.setCounter k v).accBase = c.accBase := rfl
@[simp] theorem Ctx.setCounter_spad (c : Ctx) (k v : Nat) : (c.setCounter k v).spad = c.spad := rfl
@[simp] theorem Ctx.setCounter_spadUnits (c : Ctx) (k v : Nat) : (c.setCounter k v).spadUnits = c.spadUnits := rfl
@[simp] theorem Ctx.setCounter_spadBase (c : Ctx) (k v : Nat) : (c.setCounter k v).spadBase = c.spadBase := rfl
@[simp] theorem Ctx.setCounter_grp (c : Ctx) (k v : Nat) : (c.setCounter k v).grp = c.grp := rfl
@[simp] theorem Ctx.setCounter_chartGrp (c : Ctx) (k v : Nat) : (c.setCounter k v).chartGrp = c.chartGrp := rfl
@[simp] theorem Ctx.setCounter_repL (c : Ctx) (k v : Nat) : (c.setCounter k v).repL = c.repL := rfl
@[simp] theorem Ctx.setCounter_repS (c : Ctx) (k v : Nat) : (c.setCounter k v).repS = c.repS := rfl
@[simp] theorem Ctx.setCounter_repV (c : Ctx) (k v : Nat) : (c.setCounter k v).repV = c.repV := rfl
@[simp] theorem Ctx.setCounter_copies (c : Ctx) (k v : Nat) : (c.setCounter k v).copies = c.copies := rfl
@[simp] theorem Ctx.setCounter_xops (c : Ctx) (k v : Nat) : (c.setCounter k v).xops = c.xops := rfl
@[simp] theorem Ctx.setCounter_mops (c : Ctx) (k v : Nat) : (c.setCounter k v).mops = c.mops := rfl
@[simp] theorem Ctx.setCounter_granted (c : Ctx) (k v : Nat) : (c.setCounter k v).granted = c.granted := rfl
@[simp] theorem Ctx.setCounter_entitle (c : Ctx) (k v : Nat) : (c.setCounter k v).entitle = c.entitle := rfl
@[simp] theorem Ctx.setCounter_exposed (c : Ctx) (k v : Nat) : (c.setCounter k v).exposed = c.exposed := rfl
@[simp] theorem Ctx.setCounter_statq (c : Ctx) (k v : Nat) : (c.setCounter k v).statq = c.statq := rfl
@[simp] theorem Ctx.setCounter_heldSnap (c : Ctx) (k v : Nat) : (c.setCounter k v).heldSnap = c.heldSnap := rfl
@[simp] theorem Ctx.setCounter_lockTr (c : Ctx) (k v : Nat) : (c.setCounter k v).lockTr = c.lockTr := rfl
@[simp] theorem Ctx.setCounter_trapDue (c : Ctx) (k v : Nat) : (c.setCounter k v).trapDue = c.trapDue := rfl
@[simp] theorem Ctx.setCounter_asyncDue (c : Ctx) (k v : Nat) : (c.setCounter k v).asyncDue = c.asyncDue := rfl
@[simp] theorem Ctx.setCounter_nested (c : Ctx) (k v : Nat) : (c.setCounter k v).nested = c.nested := rfl
@[simp] theorem Ctx.setCounter_handler (c : Ctx) (k v : Nat) : (c.setCounter k v).handler = c.handler := rfl
@[simp] theorem Ctx.setCounter_report (c : Ctx) (k v : Nat) : (c.setCounter k v).report = c.report := rfl
@[simp] theorem Ctx.setCounter_due (c : Ctx) (k v : Nat) : (c.setCounter k v).due = c.due := rfl
@[simp] theorem Ctx.setCounter_debugHeld (c : Ctx) (k v : Nat) : (c.setCounter k v).debugHeld = c.debugHeld := rfl
@[simp] theorem Ctx.setCounter_fault (c : Ctx) (k v : Nat) : (c.setCounter k v).fault = c.fault := rfl
@[simp] theorem Ctx.setCounter_task (c : Ctx) (k v : Nat) : (c.setCounter k v).task = c.task := rfl
@[simp] theorem Ctx.setCounter_inst (c : Ctx) (k v : Nat) : (c.setCounter k v).inst = c.inst := rfl
@[simp] theorem Ctx.setCounter_triggered (c : Ctx) (k v : Nat) : (c.setCounter k v).triggered = c.triggered := rfl
@[simp] theorem Ctx.setCounter_stored (c : Ctx) (k v : Nat) : (c.setCounter k v).stored = c.stored := rfl
@[simp] theorem Ctx.setCounter_asked (c : Ctx) (k v : Nat) : (c.setCounter k v).asked = c.asked := rfl
@[simp] theorem Ctx.setCounter_bad (c : Ctx) (k v : Nat) : (c.setCounter k v).bad = c.bad := rfl
@[simp] theorem Ctx.setCounter_hist (c : Ctx) (k v : Nat) : (c.setCounter k v).hist = c.hist := rfl
@[simp] theorem Ctx.setCounter_rel (c : Ctx) (k v : Nat) : (c.setCounter k v).rel = c.rel := rfl
@[simp] theorem Ctx.setTokens_phase (c : Ctx) (k v : Nat) : (c.setTokens k v).phase = c.phase := rfl
@[simp] theorem Ctx.setTokens_g (c : Ctx) (k v : Nat) : (c.setTokens k v).g = c.g := rfl
@[simp] theorem Ctx.setTokens_a (c : Ctx) (k v : Nat) : (c.setTokens k v).a = c.a := rfl
@[simp] theorem Ctx.setTokens_csr (c : Ctx) (k v : Nat) : (c.setTokens k v).csr = c.csr := rfl
@[simp] theorem Ctx.setTokens_cc (c : Ctx) (k v : Nat) : (c.setTokens k v).cc = c.cc := rfl
@[simp] theorem Ctx.setTokens_fetch (c : Ctx) (k v : Nat) : (c.setTokens k v).fetch = c.fetch := rfl
@[simp] theorem Ctx.setTokens_fetchHold (c : Ctx) (k v : Nat) : (c.setTokens k v).fetchHold = c.fetchHold := rfl
@[simp] theorem Ctx.setTokens_qC (c : Ctx) (k v : Nat) : (c.setTokens k v).qC = c.qC := rfl
@[simp] theorem Ctx.setTokens_qL (c : Ctx) (k v : Nat) : (c.setTokens k v).qL = c.qL := rfl
@[simp] theorem Ctx.setTokens_qS (c : Ctx) (k v : Nat) : (c.setTokens k v).qS = c.qS := rfl
@[simp] theorem Ctx.setTokens_qV (c : Ctx) (k v : Nat) : (c.setTokens k v).qV = c.qV := rfl
@[simp] theorem Ctx.setTokens_qM (c : Ctx) (k v : Nat) : (c.setTokens k v).qM = c.qM := rfl
@[simp] theorem Ctx.setTokens_qX (c : Ctx) (k v : Nat) : (c.setTokens k v).qX = c.qX := rfl
@[simp] theorem Ctx.setTokens_hq (c : Ctx) (k v : Nat) : (c.setTokens k v).hq = c.hq := rfl
@[simp] theorem Ctx.setTokens_lq (c : Ctx) (k v : Nat) : (c.setTokens k v).lq = c.lq := rfl
@[simp] theorem Ctx.setTokens_sq (c : Ctx) (k v : Nat) : (c.setTokens k v).sq = c.sq := rfl
@[simp] theorem Ctx.setTokens_strm (c : Ctx) (k v : Nat) : (c.setTokens k v).strm = c.strm := rfl
@[simp] theorem Ctx.setTokens_v (c : Ctx) (k v : Nat) : (c.setTokens k v).v = c.v := rfl
@[simp] theorem Ctx.setTokens_p (c : Ctx) (k v : Nat) : (c.setTokens k v).p = c.p := rfl
@[simp] theorem Ctx.setTokens_acc (c : Ctx) (k v : Nat) : (c.setTokens k v).acc = c.acc := rfl
@[simp] theorem Ctx.setTokens_accUnits (c : Ctx) (k v : Nat) : (c.setTokens k v).accUnits = c.accUnits := rfl
@[simp] theorem Ctx.setTokens_accBase (c : Ctx) (k v : Nat) : (c.setTokens k v).accBase = c.accBase := rfl
@[simp] theorem Ctx.setTokens_spad (c : Ctx) (k v : Nat) : (c.setTokens k v).spad = c.spad := rfl
@[simp] theorem Ctx.setTokens_spadUnits (c : Ctx) (k v : Nat) : (c.setTokens k v).spadUnits = c.spadUnits := rfl
@[simp] theorem Ctx.setTokens_spadBase (c : Ctx) (k v : Nat) : (c.setTokens k v).spadBase = c.spadBase := rfl
@[simp] theorem Ctx.setTokens_grp (c : Ctx) (k v : Nat) : (c.setTokens k v).grp = c.grp := rfl
@[simp] theorem Ctx.setTokens_chartGrp (c : Ctx) (k v : Nat) : (c.setTokens k v).chartGrp = c.chartGrp := rfl
@[simp] theorem Ctx.setTokens_repL (c : Ctx) (k v : Nat) : (c.setTokens k v).repL = c.repL := rfl
@[simp] theorem Ctx.setTokens_repS (c : Ctx) (k v : Nat) : (c.setTokens k v).repS = c.repS := rfl
@[simp] theorem Ctx.setTokens_repV (c : Ctx) (k v : Nat) : (c.setTokens k v).repV = c.repV := rfl
@[simp] theorem Ctx.setTokens_copies (c : Ctx) (k v : Nat) : (c.setTokens k v).copies = c.copies := rfl
@[simp] theorem Ctx.setTokens_xops (c : Ctx) (k v : Nat) : (c.setTokens k v).xops = c.xops := rfl
@[simp] theorem Ctx.setTokens_mops (c : Ctx) (k v : Nat) : (c.setTokens k v).mops = c.mops := rfl
@[simp] theorem Ctx.setTokens_granted (c : Ctx) (k v : Nat) : (c.setTokens k v).granted = c.granted := rfl
@[simp] theorem Ctx.setTokens_entitle (c : Ctx) (k v : Nat) : (c.setTokens k v).entitle = c.entitle := rfl
@[simp] theorem Ctx.setTokens_exposed (c : Ctx) (k v : Nat) : (c.setTokens k v).exposed = c.exposed := rfl
@[simp] theorem Ctx.setTokens_statq (c : Ctx) (k v : Nat) : (c.setTokens k v).statq = c.statq := rfl
@[simp] theorem Ctx.setTokens_heldSnap (c : Ctx) (k v : Nat) : (c.setTokens k v).heldSnap = c.heldSnap := rfl
@[simp] theorem Ctx.setTokens_lockTr (c : Ctx) (k v : Nat) : (c.setTokens k v).lockTr = c.lockTr := rfl
@[simp] theorem Ctx.setTokens_trapDue (c : Ctx) (k v : Nat) : (c.setTokens k v).trapDue = c.trapDue := rfl
@[simp] theorem Ctx.setTokens_asyncDue (c : Ctx) (k v : Nat) : (c.setTokens k v).asyncDue = c.asyncDue := rfl
@[simp] theorem Ctx.setTokens_nested (c : Ctx) (k v : Nat) : (c.setTokens k v).nested = c.nested := rfl
@[simp] theorem Ctx.setTokens_handler (c : Ctx) (k v : Nat) : (c.setTokens k v).handler = c.handler := rfl
@[simp] theorem Ctx.setTokens_report (c : Ctx) (k v : Nat) : (c.setTokens k v).report = c.report := rfl
@[simp] theorem Ctx.setTokens_due (c : Ctx) (k v : Nat) : (c.setTokens k v).due = c.due := rfl
@[simp] theorem Ctx.setTokens_debugHeld (c : Ctx) (k v : Nat) : (c.setTokens k v).debugHeld = c.debugHeld := rfl
@[simp] theorem Ctx.setTokens_fault (c : Ctx) (k v : Nat) : (c.setTokens k v).fault = c.fault := rfl
@[simp] theorem Ctx.setTokens_task (c : Ctx) (k v : Nat) : (c.setTokens k v).task = c.task := rfl
@[simp] theorem Ctx.setTokens_inst (c : Ctx) (k v : Nat) : (c.setTokens k v).inst = c.inst := rfl
@[simp] theorem Ctx.setTokens_triggered (c : Ctx) (k v : Nat) : (c.setTokens k v).triggered = c.triggered := rfl
@[simp] theorem Ctx.setTokens_stored (c : Ctx) (k v : Nat) : (c.setTokens k v).stored = c.stored := rfl
@[simp] theorem Ctx.setTokens_asked (c : Ctx) (k v : Nat) : (c.setTokens k v).asked = c.asked := rfl
@[simp] theorem Ctx.setTokens_bad (c : Ctx) (k v : Nat) : (c.setTokens k v).bad = c.bad := rfl
@[simp] theorem Ctx.setTokens_hist (c : Ctx) (k v : Nat) : (c.setTokens k v).hist = c.hist := rfl
@[simp] theorem Ctx.setTokens_rel (c : Ctx) (k v : Nat) : (c.setTokens k v).rel = c.rel := rfl
@[simp] theorem Ctx.setP_phase (c : Ctx) (n : Nat) (v : BitVec 1024) : (c.setP n v).phase = c.phase := by unfold Ctx.setP; split <;> rfl
@[simp] theorem Ctx.setP_g (c : Ctx) (n : Nat) (v : BitVec 1024) : (c.setP n v).g = c.g := by unfold Ctx.setP; split <;> rfl
@[simp] theorem Ctx.setP_a (c : Ctx) (n : Nat) (v : BitVec 1024) : (c.setP n v).a = c.a := by unfold Ctx.setP; split <;> rfl
@[simp] theorem Ctx.setP_csr (c : Ctx) (n : Nat) (v : BitVec 1024) : (c.setP n v).csr = c.csr := by unfold Ctx.setP; split <;> rfl
@[simp] theorem Ctx.setP_cc (c : Ctx) (n : Nat) (v : BitVec 1024) : (c.setP n v).cc = c.cc := by unfold Ctx.setP; split <;> rfl
@[simp] theorem Ctx.setP_tok (c : Ctx) (n : Nat) (v : BitVec 1024) : (c.setP n v).tok = c.tok := by unfold Ctx.setP; split <;> rfl
@[simp] theorem Ctx.setP_fetch (c : Ctx) (n : Nat) (v : BitVec 1024) : (c.setP n v).fetch = c.fetch := by unfold Ctx.setP; split <;> rfl
@[simp] theorem Ctx.setP_fetchHold (c : Ctx) (n : Nat) (v : BitVec 1024) : (c.setP n v).fetchHold = c.fetchHold := by unfold Ctx.setP; split <;> rfl
@[simp] theorem Ctx.setP_qC (c : Ctx) (n : Nat) (v : BitVec 1024) : (c.setP n v).qC = c.qC := by unfold Ctx.setP; split <;> rfl
@[simp] theorem Ctx.setP_qL (c : Ctx) (n : Nat) (v : BitVec 1024) : (c.setP n v).qL = c.qL := by unfold Ctx.setP; split <;> rfl
@[simp] theorem Ctx.setP_qS (c : Ctx) (n : Nat) (v : BitVec 1024) : (c.setP n v).qS = c.qS := by unfold Ctx.setP; split <;> rfl
@[simp] theorem Ctx.setP_qV (c : Ctx) (n : Nat) (v : BitVec 1024) : (c.setP n v).qV = c.qV := by unfold Ctx.setP; split <;> rfl
@[simp] theorem Ctx.setP_qM (c : Ctx) (n : Nat) (v : BitVec 1024) : (c.setP n v).qM = c.qM := by unfold Ctx.setP; split <;> rfl
@[simp] theorem Ctx.setP_qX (c : Ctx) (n : Nat) (v : BitVec 1024) : (c.setP n v).qX = c.qX := by unfold Ctx.setP; split <;> rfl
@[simp] theorem Ctx.setP_hq (c : Ctx) (n : Nat) (v : BitVec 1024) : (c.setP n v).hq = c.hq := by unfold Ctx.setP; split <;> rfl
@[simp] theorem Ctx.setP_lq (c : Ctx) (n : Nat) (v : BitVec 1024) : (c.setP n v).lq = c.lq := by unfold Ctx.setP; split <;> rfl
@[simp] theorem Ctx.setP_sq (c : Ctx) (n : Nat) (v : BitVec 1024) : (c.setP n v).sq = c.sq := by unfold Ctx.setP; split <;> rfl
@[simp] theorem Ctx.setP_strm (c : Ctx) (n : Nat) (v : BitVec 1024) : (c.setP n v).strm = c.strm := by unfold Ctx.setP; split <;> rfl
@[simp] theorem Ctx.setP_v (c : Ctx) (n : Nat) (v : BitVec 1024) : (c.setP n v).v = c.v := by unfold Ctx.setP; split <;> rfl
@[simp] theorem Ctx.setP_acc (c : Ctx) (n : Nat) (v : BitVec 1024) : (c.setP n v).acc = c.acc := by unfold Ctx.setP; split <;> rfl
@[simp] theorem Ctx.setP_accUnits (c : Ctx) (n : Nat) (v : BitVec 1024) : (c.setP n v).accUnits = c.accUnits := by unfold Ctx.setP; split <;> rfl
@[simp] theorem Ctx.setP_accBase (c : Ctx) (n : Nat) (v : BitVec 1024) : (c.setP n v).accBase = c.accBase := by unfold Ctx.setP; split <;> rfl
@[simp] theorem Ctx.setP_spad (c : Ctx) (n : Nat) (v : BitVec 1024) : (c.setP n v).spad = c.spad := by unfold Ctx.setP; split <;> rfl
@[simp] theorem Ctx.setP_spadUnits (c : Ctx) (n : Nat) (v : BitVec 1024) : (c.setP n v).spadUnits = c.spadUnits := by unfold Ctx.setP; split <;> rfl
@[simp] theorem Ctx.setP_spadBase (c : Ctx) (n : Nat) (v : BitVec 1024) : (c.setP n v).spadBase = c.spadBase := by unfold Ctx.setP; split <;> rfl
@[simp] theorem Ctx.setP_grp (c : Ctx) (n : Nat) (v : BitVec 1024) : (c.setP n v).grp = c.grp := by unfold Ctx.setP; split <;> rfl
@[simp] theorem Ctx.setP_chartGrp (c : Ctx) (n : Nat) (v : BitVec 1024) : (c.setP n v).chartGrp = c.chartGrp := by unfold Ctx.setP; split <;> rfl
@[simp] theorem Ctx.setP_repL (c : Ctx) (n : Nat) (v : BitVec 1024) : (c.setP n v).repL = c.repL := by unfold Ctx.setP; split <;> rfl
@[simp] theorem Ctx.setP_repS (c : Ctx) (n : Nat) (v : BitVec 1024) : (c.setP n v).repS = c.repS := by unfold Ctx.setP; split <;> rfl
@[simp] theorem Ctx.setP_repV (c : Ctx) (n : Nat) (v : BitVec 1024) : (c.setP n v).repV = c.repV := by unfold Ctx.setP; split <;> rfl
@[simp] theorem Ctx.setP_copies (c : Ctx) (n : Nat) (v : BitVec 1024) : (c.setP n v).copies = c.copies := by unfold Ctx.setP; split <;> rfl
@[simp] theorem Ctx.setP_xops (c : Ctx) (n : Nat) (v : BitVec 1024) : (c.setP n v).xops = c.xops := by unfold Ctx.setP; split <;> rfl
@[simp] theorem Ctx.setP_mops (c : Ctx) (n : Nat) (v : BitVec 1024) : (c.setP n v).mops = c.mops := by unfold Ctx.setP; split <;> rfl
@[simp] theorem Ctx.setP_granted (c : Ctx) (n : Nat) (v : BitVec 1024) : (c.setP n v).granted = c.granted := by unfold Ctx.setP; split <;> rfl
@[simp] theorem Ctx.setP_entitle (c : Ctx) (n : Nat) (v : BitVec 1024) : (c.setP n v).entitle = c.entitle := by unfold Ctx.setP; split <;> rfl
@[simp] theorem Ctx.setP_exposed (c : Ctx) (n : Nat) (v : BitVec 1024) : (c.setP n v).exposed = c.exposed := by unfold Ctx.setP; split <;> rfl
@[simp] theorem Ctx.setP_statq (c : Ctx) (n : Nat) (v : BitVec 1024) : (c.setP n v).statq = c.statq := by unfold Ctx.setP; split <;> rfl
@[simp] theorem Ctx.setP_heldSnap (c : Ctx) (n : Nat) (v : BitVec 1024) : (c.setP n v).heldSnap = c.heldSnap := by unfold Ctx.setP; split <;> rfl
@[simp] theorem Ctx.setP_lockTr (c : Ctx) (n : Nat) (v : BitVec 1024) : (c.setP n v).lockTr = c.lockTr := by unfold Ctx.setP; split <;> rfl
@[simp] theorem Ctx.setP_trapDue (c : Ctx) (n : Nat) (v : BitVec 1024) : (c.setP n v).trapDue = c.trapDue := by unfold Ctx.setP; split <;> rfl
@[simp] theorem Ctx.setP_asyncDue (c : Ctx) (n : Nat) (v : BitVec 1024) : (c.setP n v).asyncDue = c.asyncDue := by unfold Ctx.setP; split <;> rfl
@[simp] theorem Ctx.setP_nested (c : Ctx) (n : Nat) (v : BitVec 1024) : (c.setP n v).nested = c.nested := by unfold Ctx.setP; split <;> rfl
@[simp] theorem Ctx.setP_handler (c : Ctx) (n : Nat) (v : BitVec 1024) : (c.setP n v).handler = c.handler := by unfold Ctx.setP; split <;> rfl
@[simp] theorem Ctx.setP_report (c : Ctx) (n : Nat) (v : BitVec 1024) : (c.setP n v).report = c.report := by unfold Ctx.setP; split <;> rfl
@[simp] theorem Ctx.setP_due (c : Ctx) (n : Nat) (v : BitVec 1024) : (c.setP n v).due = c.due := by unfold Ctx.setP; split <;> rfl
@[simp] theorem Ctx.setP_debugHeld (c : Ctx) (n : Nat) (v : BitVec 1024) : (c.setP n v).debugHeld = c.debugHeld := by unfold Ctx.setP; split <;> rfl
@[simp] theorem Ctx.setP_fault (c : Ctx) (n : Nat) (v : BitVec 1024) : (c.setP n v).fault = c.fault := by unfold Ctx.setP; split <;> rfl
@[simp] theorem Ctx.setP_task (c : Ctx) (n : Nat) (v : BitVec 1024) : (c.setP n v).task = c.task := by unfold Ctx.setP; split <;> rfl
@[simp] theorem Ctx.setP_inst (c : Ctx) (n : Nat) (v : BitVec 1024) : (c.setP n v).inst = c.inst := by unfold Ctx.setP; split <;> rfl
@[simp] theorem Ctx.setP_triggered (c : Ctx) (n : Nat) (v : BitVec 1024) : (c.setP n v).triggered = c.triggered := by unfold Ctx.setP; split <;> rfl
@[simp] theorem Ctx.setP_stored (c : Ctx) (n : Nat) (v : BitVec 1024) : (c.setP n v).stored = c.stored := by unfold Ctx.setP; split <;> rfl
@[simp] theorem Ctx.setP_asked (c : Ctx) (n : Nat) (v : BitVec 1024) : (c.setP n v).asked = c.asked := by unfold Ctx.setP; split <;> rfl
@[simp] theorem Ctx.setP_bad (c : Ctx) (n : Nat) (v : BitVec 1024) : (c.setP n v).bad = c.bad := by unfold Ctx.setP; split <;> rfl
@[simp] theorem Ctx.setP_hist (c : Ctx) (n : Nat) (v : BitVec 1024) : (c.setP n v).hist = c.hist := by unfold Ctx.setP; split <;> rfl
@[simp] theorem Ctx.setP_rel (c : Ctx) (n : Nat) (v : BitVec 1024) : (c.setP n v).rel = c.rel := by unfold Ctx.setP; split <;> rfl
@[simp] theorem Ctx.setV_phase (c : Ctx) (n : Nat) (v : List Elem) : (c.setV n v).phase = c.phase := rfl
@[simp] theorem Ctx.setV_g (c : Ctx) (n : Nat) (v : List Elem) : (c.setV n v).g = c.g := rfl
@[simp] theorem Ctx.setV_a (c : Ctx) (n : Nat) (v : List Elem) : (c.setV n v).a = c.a := rfl
@[simp] theorem Ctx.setV_csr (c : Ctx) (n : Nat) (v : List Elem) : (c.setV n v).csr = c.csr := rfl
@[simp] theorem Ctx.setV_cc (c : Ctx) (n : Nat) (v : List Elem) : (c.setV n v).cc = c.cc := rfl
@[simp] theorem Ctx.setV_tok (c : Ctx) (n : Nat) (v : List Elem) : (c.setV n v).tok = c.tok := rfl
@[simp] theorem Ctx.setV_fetch (c : Ctx) (n : Nat) (v : List Elem) : (c.setV n v).fetch = c.fetch := rfl
@[simp] theorem Ctx.setV_fetchHold (c : Ctx) (n : Nat) (v : List Elem) : (c.setV n v).fetchHold = c.fetchHold := rfl
@[simp] theorem Ctx.setV_qC (c : Ctx) (n : Nat) (v : List Elem) : (c.setV n v).qC = c.qC := rfl
@[simp] theorem Ctx.setV_qL (c : Ctx) (n : Nat) (v : List Elem) : (c.setV n v).qL = c.qL := rfl
@[simp] theorem Ctx.setV_qS (c : Ctx) (n : Nat) (v : List Elem) : (c.setV n v).qS = c.qS := rfl
@[simp] theorem Ctx.setV_qV (c : Ctx) (n : Nat) (v : List Elem) : (c.setV n v).qV = c.qV := rfl
@[simp] theorem Ctx.setV_qM (c : Ctx) (n : Nat) (v : List Elem) : (c.setV n v).qM = c.qM := rfl
@[simp] theorem Ctx.setV_qX (c : Ctx) (n : Nat) (v : List Elem) : (c.setV n v).qX = c.qX := rfl
@[simp] theorem Ctx.setV_hq (c : Ctx) (n : Nat) (v : List Elem) : (c.setV n v).hq = c.hq := rfl
@[simp] theorem Ctx.setV_lq (c : Ctx) (n : Nat) (v : List Elem) : (c.setV n v).lq = c.lq := rfl
@[simp] theorem Ctx.setV_sq (c : Ctx) (n : Nat) (v : List Elem) : (c.setV n v).sq = c.sq := rfl
@[simp] theorem Ctx.setV_strm (c : Ctx) (n : Nat) (v : List Elem) : (c.setV n v).strm = c.strm := rfl
@[simp] theorem Ctx.setV_p (c : Ctx) (n : Nat) (v : List Elem) : (c.setV n v).p = c.p := rfl
@[simp] theorem Ctx.setV_acc (c : Ctx) (n : Nat) (v : List Elem) : (c.setV n v).acc = c.acc := rfl
@[simp] theorem Ctx.setV_accUnits (c : Ctx) (n : Nat) (v : List Elem) : (c.setV n v).accUnits = c.accUnits := rfl
@[simp] theorem Ctx.setV_accBase (c : Ctx) (n : Nat) (v : List Elem) : (c.setV n v).accBase = c.accBase := rfl
@[simp] theorem Ctx.setV_spad (c : Ctx) (n : Nat) (v : List Elem) : (c.setV n v).spad = c.spad := rfl
@[simp] theorem Ctx.setV_spadUnits (c : Ctx) (n : Nat) (v : List Elem) : (c.setV n v).spadUnits = c.spadUnits := rfl
@[simp] theorem Ctx.setV_spadBase (c : Ctx) (n : Nat) (v : List Elem) : (c.setV n v).spadBase = c.spadBase := rfl
@[simp] theorem Ctx.setV_grp (c : Ctx) (n : Nat) (v : List Elem) : (c.setV n v).grp = c.grp := rfl
@[simp] theorem Ctx.setV_chartGrp (c : Ctx) (n : Nat) (v : List Elem) : (c.setV n v).chartGrp = c.chartGrp := rfl
@[simp] theorem Ctx.setV_repL (c : Ctx) (n : Nat) (v : List Elem) : (c.setV n v).repL = c.repL := rfl
@[simp] theorem Ctx.setV_repS (c : Ctx) (n : Nat) (v : List Elem) : (c.setV n v).repS = c.repS := rfl
@[simp] theorem Ctx.setV_repV (c : Ctx) (n : Nat) (v : List Elem) : (c.setV n v).repV = c.repV := rfl
@[simp] theorem Ctx.setV_copies (c : Ctx) (n : Nat) (v : List Elem) : (c.setV n v).copies = c.copies := rfl
@[simp] theorem Ctx.setV_xops (c : Ctx) (n : Nat) (v : List Elem) : (c.setV n v).xops = c.xops := rfl
@[simp] theorem Ctx.setV_mops (c : Ctx) (n : Nat) (v : List Elem) : (c.setV n v).mops = c.mops := rfl
@[simp] theorem Ctx.setV_granted (c : Ctx) (n : Nat) (v : List Elem) : (c.setV n v).granted = c.granted := rfl
@[simp] theorem Ctx.setV_entitle (c : Ctx) (n : Nat) (v : List Elem) : (c.setV n v).entitle = c.entitle := rfl
@[simp] theorem Ctx.setV_exposed (c : Ctx) (n : Nat) (v : List Elem) : (c.setV n v).exposed = c.exposed := rfl
@[simp] theorem Ctx.setV_statq (c : Ctx) (n : Nat) (v : List Elem) : (c.setV n v).statq = c.statq := rfl
@[simp] theorem Ctx.setV_heldSnap (c : Ctx) (n : Nat) (v : List Elem) : (c.setV n v).heldSnap = c.heldSnap := rfl
@[simp] theorem Ctx.setV_lockTr (c : Ctx) (n : Nat) (v : List Elem) : (c.setV n v).lockTr = c.lockTr := rfl
@[simp] theorem Ctx.setV_trapDue (c : Ctx) (n : Nat) (v : List Elem) : (c.setV n v).trapDue = c.trapDue := rfl
@[simp] theorem Ctx.setV_asyncDue (c : Ctx) (n : Nat) (v : List Elem) : (c.setV n v).asyncDue = c.asyncDue := rfl
@[simp] theorem Ctx.setV_nested (c : Ctx) (n : Nat) (v : List Elem) : (c.setV n v).nested = c.nested := rfl
@[simp] theorem Ctx.setV_handler (c : Ctx) (n : Nat) (v : List Elem) : (c.setV n v).handler = c.handler := rfl
@[simp] theorem Ctx.setV_report (c : Ctx) (n : Nat) (v : List Elem) : (c.setV n v).report = c.report := rfl
@[simp] theorem Ctx.setV_due (c : Ctx) (n : Nat) (v : List Elem) : (c.setV n v).due = c.due := rfl
@[simp] theorem Ctx.setV_debugHeld (c : Ctx) (n : Nat) (v : List Elem) : (c.setV n v).debugHeld = c.debugHeld := rfl
@[simp] theorem Ctx.setV_fault (c : Ctx) (n : Nat) (v : List Elem) : (c.setV n v).fault = c.fault := rfl
@[simp] theorem Ctx.setV_task (c : Ctx) (n : Nat) (v : List Elem) : (c.setV n v).task = c.task := rfl
@[simp] theorem Ctx.setV_inst (c : Ctx) (n : Nat) (v : List Elem) : (c.setV n v).inst = c.inst := rfl
@[simp] theorem Ctx.setV_triggered (c : Ctx) (n : Nat) (v : List Elem) : (c.setV n v).triggered = c.triggered := rfl
@[simp] theorem Ctx.setV_stored (c : Ctx) (n : Nat) (v : List Elem) : (c.setV n v).stored = c.stored := rfl
@[simp] theorem Ctx.setV_asked (c : Ctx) (n : Nat) (v : List Elem) : (c.setV n v).asked = c.asked := rfl
@[simp] theorem Ctx.setV_bad (c : Ctx) (n : Nat) (v : List Elem) : (c.setV n v).bad = c.bad := rfl
@[simp] theorem Ctx.setV_hist (c : Ctx) (n : Nat) (v : List Elem) : (c.setV n v).hist = c.hist := rfl
@[simp] theorem Ctx.setV_rel (c : Ctx) (n : Nat) (v : List Elem) : (c.setV n v).rel = c.rel := rfl
@[simp] theorem Ctx.setAc_phase (c : Ctx) (n : Nat) (v : List Elem) : (c.setAc n v).phase = c.phase := rfl
@[simp] theorem Ctx.setAc_g (c : Ctx) (n : Nat) (v : List Elem) : (c.setAc n v).g = c.g := rfl
@[simp] theorem Ctx.setAc_a (c : Ctx) (n : Nat) (v : List Elem) : (c.setAc n v).a = c.a := rfl
@[simp] theorem Ctx.setAc_csr (c : Ctx) (n : Nat) (v : List Elem) : (c.setAc n v).csr = c.csr := rfl
@[simp] theorem Ctx.setAc_cc (c : Ctx) (n : Nat) (v : List Elem) : (c.setAc n v).cc = c.cc := rfl
@[simp] theorem Ctx.setAc_tok (c : Ctx) (n : Nat) (v : List Elem) : (c.setAc n v).tok = c.tok := rfl
@[simp] theorem Ctx.setAc_fetch (c : Ctx) (n : Nat) (v : List Elem) : (c.setAc n v).fetch = c.fetch := rfl
@[simp] theorem Ctx.setAc_fetchHold (c : Ctx) (n : Nat) (v : List Elem) : (c.setAc n v).fetchHold = c.fetchHold := rfl
@[simp] theorem Ctx.setAc_qC (c : Ctx) (n : Nat) (v : List Elem) : (c.setAc n v).qC = c.qC := rfl
@[simp] theorem Ctx.setAc_qL (c : Ctx) (n : Nat) (v : List Elem) : (c.setAc n v).qL = c.qL := rfl
@[simp] theorem Ctx.setAc_qS (c : Ctx) (n : Nat) (v : List Elem) : (c.setAc n v).qS = c.qS := rfl
@[simp] theorem Ctx.setAc_qV (c : Ctx) (n : Nat) (v : List Elem) : (c.setAc n v).qV = c.qV := rfl
@[simp] theorem Ctx.setAc_qM (c : Ctx) (n : Nat) (v : List Elem) : (c.setAc n v).qM = c.qM := rfl
@[simp] theorem Ctx.setAc_qX (c : Ctx) (n : Nat) (v : List Elem) : (c.setAc n v).qX = c.qX := rfl
@[simp] theorem Ctx.setAc_hq (c : Ctx) (n : Nat) (v : List Elem) : (c.setAc n v).hq = c.hq := rfl
@[simp] theorem Ctx.setAc_lq (c : Ctx) (n : Nat) (v : List Elem) : (c.setAc n v).lq = c.lq := rfl
@[simp] theorem Ctx.setAc_sq (c : Ctx) (n : Nat) (v : List Elem) : (c.setAc n v).sq = c.sq := rfl
@[simp] theorem Ctx.setAc_strm (c : Ctx) (n : Nat) (v : List Elem) : (c.setAc n v).strm = c.strm := rfl
@[simp] theorem Ctx.setAc_v (c : Ctx) (n : Nat) (v : List Elem) : (c.setAc n v).v = c.v := rfl
@[simp] theorem Ctx.setAc_p (c : Ctx) (n : Nat) (v : List Elem) : (c.setAc n v).p = c.p := rfl
@[simp] theorem Ctx.setAc_accUnits (c : Ctx) (n : Nat) (v : List Elem) : (c.setAc n v).accUnits = c.accUnits := rfl
@[simp] theorem Ctx.setAc_accBase (c : Ctx) (n : Nat) (v : List Elem) : (c.setAc n v).accBase = c.accBase := rfl
@[simp] theorem Ctx.setAc_spad (c : Ctx) (n : Nat) (v : List Elem) : (c.setAc n v).spad = c.spad := rfl
@[simp] theorem Ctx.setAc_spadUnits (c : Ctx) (n : Nat) (v : List Elem) : (c.setAc n v).spadUnits = c.spadUnits := rfl
@[simp] theorem Ctx.setAc_spadBase (c : Ctx) (n : Nat) (v : List Elem) : (c.setAc n v).spadBase = c.spadBase := rfl
@[simp] theorem Ctx.setAc_grp (c : Ctx) (n : Nat) (v : List Elem) : (c.setAc n v).grp = c.grp := rfl
@[simp] theorem Ctx.setAc_chartGrp (c : Ctx) (n : Nat) (v : List Elem) : (c.setAc n v).chartGrp = c.chartGrp := rfl
@[simp] theorem Ctx.setAc_repL (c : Ctx) (n : Nat) (v : List Elem) : (c.setAc n v).repL = c.repL := rfl
@[simp] theorem Ctx.setAc_repS (c : Ctx) (n : Nat) (v : List Elem) : (c.setAc n v).repS = c.repS := rfl
@[simp] theorem Ctx.setAc_repV (c : Ctx) (n : Nat) (v : List Elem) : (c.setAc n v).repV = c.repV := rfl
@[simp] theorem Ctx.setAc_copies (c : Ctx) (n : Nat) (v : List Elem) : (c.setAc n v).copies = c.copies := rfl
@[simp] theorem Ctx.setAc_xops (c : Ctx) (n : Nat) (v : List Elem) : (c.setAc n v).xops = c.xops := rfl
@[simp] theorem Ctx.setAc_mops (c : Ctx) (n : Nat) (v : List Elem) : (c.setAc n v).mops = c.mops := rfl
@[simp] theorem Ctx.setAc_granted (c : Ctx) (n : Nat) (v : List Elem) : (c.setAc n v).granted = c.granted := rfl
@[simp] theorem Ctx.setAc_entitle (c : Ctx) (n : Nat) (v : List Elem) : (c.setAc n v).entitle = c.entitle := rfl
@[simp] theorem Ctx.setAc_exposed (c : Ctx) (n : Nat) (v : List Elem) : (c.setAc n v).exposed = c.exposed := rfl
@[simp] theorem Ctx.setAc_statq (c : Ctx) (n : Nat) (v : List Elem) : (c.setAc n v).statq = c.statq := rfl
@[simp] theorem Ctx.setAc_heldSnap (c : Ctx) (n : Nat) (v : List Elem) : (c.setAc n v).heldSnap = c.heldSnap := rfl
@[simp] theorem Ctx.setAc_lockTr (c : Ctx) (n : Nat) (v : List Elem) : (c.setAc n v).lockTr = c.lockTr := rfl
@[simp] theorem Ctx.setAc_trapDue (c : Ctx) (n : Nat) (v : List Elem) : (c.setAc n v).trapDue = c.trapDue := rfl
@[simp] theorem Ctx.setAc_asyncDue (c : Ctx) (n : Nat) (v : List Elem) : (c.setAc n v).asyncDue = c.asyncDue := rfl
@[simp] theorem Ctx.setAc_nested (c : Ctx) (n : Nat) (v : List Elem) : (c.setAc n v).nested = c.nested := rfl
@[simp] theorem Ctx.setAc_handler (c : Ctx) (n : Nat) (v : List Elem) : (c.setAc n v).handler = c.handler := rfl
@[simp] theorem Ctx.setAc_report (c : Ctx) (n : Nat) (v : List Elem) : (c.setAc n v).report = c.report := rfl
@[simp] theorem Ctx.setAc_due (c : Ctx) (n : Nat) (v : List Elem) : (c.setAc n v).due = c.due := rfl
@[simp] theorem Ctx.setAc_debugHeld (c : Ctx) (n : Nat) (v : List Elem) : (c.setAc n v).debugHeld = c.debugHeld := rfl
@[simp] theorem Ctx.setAc_fault (c : Ctx) (n : Nat) (v : List Elem) : (c.setAc n v).fault = c.fault := rfl
@[simp] theorem Ctx.setAc_task (c : Ctx) (n : Nat) (v : List Elem) : (c.setAc n v).task = c.task := rfl
@[simp] theorem Ctx.setAc_inst (c : Ctx) (n : Nat) (v : List Elem) : (c.setAc n v).inst = c.inst := rfl
@[simp] theorem Ctx.setAc_triggered (c : Ctx) (n : Nat) (v : List Elem) : (c.setAc n v).triggered = c.triggered := rfl
@[simp] theorem Ctx.setAc_stored (c : Ctx) (n : Nat) (v : List Elem) : (c.setAc n v).stored = c.stored := rfl
@[simp] theorem Ctx.setAc_asked (c : Ctx) (n : Nat) (v : List Elem) : (c.setAc n v).asked = c.asked := rfl
@[simp] theorem Ctx.setAc_bad (c : Ctx) (n : Nat) (v : List Elem) : (c.setAc n v).bad = c.bad := rfl
@[simp] theorem Ctx.setAc_hist (c : Ctx) (n : Nat) (v : List Elem) : (c.setAc n v).hist = c.hist := rfl
@[simp] theorem Ctx.setAc_rel (c : Ctx) (n : Nat) (v : List Elem) : (c.setAc n v).rel = c.rel := rfl
@[simp] theorem Ctx.setL_phase (c : Ctx) (q : Nat) (l : List Row) : (c.setL q l).phase = c.phase := rfl
@[simp] theorem Ctx.setL_g (c : Ctx) (q : Nat) (l : List Row) : (c.setL q l).g = c.g := rfl
@[simp] theorem Ctx.setL_a (c : Ctx) (q : Nat) (l : List Row) : (c.setL q l).a = c.a := rfl
@[simp] theorem Ctx.setL_csr (c : Ctx) (q : Nat) (l : List Row) : (c.setL q l).csr = c.csr := rfl
@[simp] theorem Ctx.setL_cc (c : Ctx) (q : Nat) (l : List Row) : (c.setL q l).cc = c.cc := rfl
@[simp] theorem Ctx.setL_tok (c : Ctx) (q : Nat) (l : List Row) : (c.setL q l).tok = c.tok := rfl
@[simp] theorem Ctx.setL_fetch (c : Ctx) (q : Nat) (l : List Row) : (c.setL q l).fetch = c.fetch := rfl
@[simp] theorem Ctx.setL_fetchHold (c : Ctx) (q : Nat) (l : List Row) : (c.setL q l).fetchHold = c.fetchHold := rfl
@[simp] theorem Ctx.setL_qC (c : Ctx) (q : Nat) (l : List Row) : (c.setL q l).qC = c.qC := rfl
@[simp] theorem Ctx.setL_qL (c : Ctx) (q : Nat) (l : List Row) : (c.setL q l).qL = c.qL := rfl
@[simp] theorem Ctx.setL_qS (c : Ctx) (q : Nat) (l : List Row) : (c.setL q l).qS = c.qS := rfl
@[simp] theorem Ctx.setL_qV (c : Ctx) (q : Nat) (l : List Row) : (c.setL q l).qV = c.qV := rfl
@[simp] theorem Ctx.setL_qM (c : Ctx) (q : Nat) (l : List Row) : (c.setL q l).qM = c.qM := rfl
@[simp] theorem Ctx.setL_qX (c : Ctx) (q : Nat) (l : List Row) : (c.setL q l).qX = c.qX := rfl
@[simp] theorem Ctx.setL_hq (c : Ctx) (q : Nat) (l : List Row) : (c.setL q l).hq = c.hq := rfl
@[simp] theorem Ctx.setL_sq (c : Ctx) (q : Nat) (l : List Row) : (c.setL q l).sq = c.sq := rfl
@[simp] theorem Ctx.setL_strm (c : Ctx) (q : Nat) (l : List Row) : (c.setL q l).strm = c.strm := rfl
@[simp] theorem Ctx.setL_v (c : Ctx) (q : Nat) (l : List Row) : (c.setL q l).v = c.v := rfl
@[simp] theorem Ctx.setL_p (c : Ctx) (q : Nat) (l : List Row) : (c.setL q l).p = c.p := rfl
@[simp] theorem Ctx.setL_acc (c : Ctx) (q : Nat) (l : List Row) : (c.setL q l).acc = c.acc := rfl
@[simp] theorem Ctx.setL_accUnits (c : Ctx) (q : Nat) (l : List Row) : (c.setL q l).accUnits = c.accUnits := rfl
@[simp] theorem Ctx.setL_accBase (c : Ctx) (q : Nat) (l : List Row) : (c.setL q l).accBase = c.accBase := rfl
@[simp] theorem Ctx.setL_spad (c : Ctx) (q : Nat) (l : List Row) : (c.setL q l).spad = c.spad := rfl
@[simp] theorem Ctx.setL_spadUnits (c : Ctx) (q : Nat) (l : List Row) : (c.setL q l).spadUnits = c.spadUnits := rfl
@[simp] theorem Ctx.setL_spadBase (c : Ctx) (q : Nat) (l : List Row) : (c.setL q l).spadBase = c.spadBase := rfl
@[simp] theorem Ctx.setL_grp (c : Ctx) (q : Nat) (l : List Row) : (c.setL q l).grp = c.grp := rfl
@[simp] theorem Ctx.setL_chartGrp (c : Ctx) (q : Nat) (l : List Row) : (c.setL q l).chartGrp = c.chartGrp := rfl
@[simp] theorem Ctx.setL_repL (c : Ctx) (q : Nat) (l : List Row) : (c.setL q l).repL = c.repL := rfl
@[simp] theorem Ctx.setL_repS (c : Ctx) (q : Nat) (l : List Row) : (c.setL q l).repS = c.repS := rfl
@[simp] theorem Ctx.setL_repV (c : Ctx) (q : Nat) (l : List Row) : (c.setL q l).repV = c.repV := rfl
@[simp] theorem Ctx.setL_copies (c : Ctx) (q : Nat) (l : List Row) : (c.setL q l).copies = c.copies := rfl
@[simp] theorem Ctx.setL_xops (c : Ctx) (q : Nat) (l : List Row) : (c.setL q l).xops = c.xops := rfl
@[simp] theorem Ctx.setL_mops (c : Ctx) (q : Nat) (l : List Row) : (c.setL q l).mops = c.mops := rfl
@[simp] theorem Ctx.setL_granted (c : Ctx) (q : Nat) (l : List Row) : (c.setL q l).granted = c.granted := rfl
@[simp] theorem Ctx.setL_entitle (c : Ctx) (q : Nat) (l : List Row) : (c.setL q l).entitle = c.entitle := rfl
@[simp] theorem Ctx.setL_exposed (c : Ctx) (q : Nat) (l : List Row) : (c.setL q l).exposed = c.exposed := rfl
@[simp] theorem Ctx.setL_statq (c : Ctx) (q : Nat) (l : List Row) : (c.setL q l).statq = c.statq := rfl
@[simp] theorem Ctx.setL_heldSnap (c : Ctx) (q : Nat) (l : List Row) : (c.setL q l).heldSnap = c.heldSnap := rfl
@[simp] theorem Ctx.setL_lockTr (c : Ctx) (q : Nat) (l : List Row) : (c.setL q l).lockTr = c.lockTr := rfl
@[simp] theorem Ctx.setL_trapDue (c : Ctx) (q : Nat) (l : List Row) : (c.setL q l).trapDue = c.trapDue := rfl
@[simp] theorem Ctx.setL_asyncDue (c : Ctx) (q : Nat) (l : List Row) : (c.setL q l).asyncDue = c.asyncDue := rfl
@[simp] theorem Ctx.setL_nested (c : Ctx) (q : Nat) (l : List Row) : (c.setL q l).nested = c.nested := rfl
@[simp] theorem Ctx.setL_handler (c : Ctx) (q : Nat) (l : List Row) : (c.setL q l).handler = c.handler := rfl
@[simp] theorem Ctx.setL_report (c : Ctx) (q : Nat) (l : List Row) : (c.setL q l).report = c.report := rfl
@[simp] theorem Ctx.setL_due (c : Ctx) (q : Nat) (l : List Row) : (c.setL q l).due = c.due := rfl
@[simp] theorem Ctx.setL_debugHeld (c : Ctx) (q : Nat) (l : List Row) : (c.setL q l).debugHeld = c.debugHeld := rfl
@[simp] theorem Ctx.setL_fault (c : Ctx) (q : Nat) (l : List Row) : (c.setL q l).fault = c.fault := rfl
@[simp] theorem Ctx.setL_task (c : Ctx) (q : Nat) (l : List Row) : (c.setL q l).task = c.task := rfl
@[simp] theorem Ctx.setL_inst (c : Ctx) (q : Nat) (l : List Row) : (c.setL q l).inst = c.inst := rfl
@[simp] theorem Ctx.setL_triggered (c : Ctx) (q : Nat) (l : List Row) : (c.setL q l).triggered = c.triggered := rfl
@[simp] theorem Ctx.setL_stored (c : Ctx) (q : Nat) (l : List Row) : (c.setL q l).stored = c.stored := rfl
@[simp] theorem Ctx.setL_asked (c : Ctx) (q : Nat) (l : List Row) : (c.setL q l).asked = c.asked := rfl
@[simp] theorem Ctx.setL_bad (c : Ctx) (q : Nat) (l : List Row) : (c.setL q l).bad = c.bad := rfl
@[simp] theorem Ctx.setL_hist (c : Ctx) (q : Nat) (l : List Row) : (c.setL q l).hist = c.hist := rfl
@[simp] theorem Ctx.setL_rel (c : Ctx) (q : Nat) (l : List Row) : (c.setL q l).rel = c.rel := rfl
@[simp] theorem Ctx.setS_phase (c : Ctx) (q : Nat) (l : List Row) : (c.setS q l).phase = c.phase := rfl
@[simp] theorem Ctx.setS_g (c : Ctx) (q : Nat) (l : List Row) : (c.setS q l).g = c.g := rfl
@[simp] theorem Ctx.setS_a (c : Ctx) (q : Nat) (l : List Row) : (c.setS q l).a = c.a := rfl
@[simp] theorem Ctx.setS_csr (c : Ctx) (q : Nat) (l : List Row) : (c.setS q l).csr = c.csr := rfl
@[simp] theorem Ctx.setS_cc (c : Ctx) (q : Nat) (l : List Row) : (c.setS q l).cc = c.cc := rfl
@[simp] theorem Ctx.setS_tok (c : Ctx) (q : Nat) (l : List Row) : (c.setS q l).tok = c.tok := rfl
@[simp] theorem Ctx.setS_fetch (c : Ctx) (q : Nat) (l : List Row) : (c.setS q l).fetch = c.fetch := rfl
@[simp] theorem Ctx.setS_fetchHold (c : Ctx) (q : Nat) (l : List Row) : (c.setS q l).fetchHold = c.fetchHold := rfl
@[simp] theorem Ctx.setS_qC (c : Ctx) (q : Nat) (l : List Row) : (c.setS q l).qC = c.qC := rfl
@[simp] theorem Ctx.setS_qL (c : Ctx) (q : Nat) (l : List Row) : (c.setS q l).qL = c.qL := rfl
@[simp] theorem Ctx.setS_qS (c : Ctx) (q : Nat) (l : List Row) : (c.setS q l).qS = c.qS := rfl
@[simp] theorem Ctx.setS_qV (c : Ctx) (q : Nat) (l : List Row) : (c.setS q l).qV = c.qV := rfl
@[simp] theorem Ctx.setS_qM (c : Ctx) (q : Nat) (l : List Row) : (c.setS q l).qM = c.qM := rfl
@[simp] theorem Ctx.setS_qX (c : Ctx) (q : Nat) (l : List Row) : (c.setS q l).qX = c.qX := rfl
@[simp] theorem Ctx.setS_hq (c : Ctx) (q : Nat) (l : List Row) : (c.setS q l).hq = c.hq := rfl
@[simp] theorem Ctx.setS_lq (c : Ctx) (q : Nat) (l : List Row) : (c.setS q l).lq = c.lq := rfl
@[simp] theorem Ctx.setS_strm (c : Ctx) (q : Nat) (l : List Row) : (c.setS q l).strm = c.strm := rfl
@[simp] theorem Ctx.setS_v (c : Ctx) (q : Nat) (l : List Row) : (c.setS q l).v = c.v := rfl
@[simp] theorem Ctx.setS_p (c : Ctx) (q : Nat) (l : List Row) : (c.setS q l).p = c.p := rfl
@[simp] theorem Ctx.setS_acc (c : Ctx) (q : Nat) (l : List Row) : (c.setS q l).acc = c.acc := rfl
@[simp] theorem Ctx.setS_accUnits (c : Ctx) (q : Nat) (l : List Row) : (c.setS q l).accUnits = c.accUnits := rfl
@[simp] theorem Ctx.setS_accBase (c : Ctx) (q : Nat) (l : List Row) : (c.setS q l).accBase = c.accBase := rfl
@[simp] theorem Ctx.setS_spad (c : Ctx) (q : Nat) (l : List Row) : (c.setS q l).spad = c.spad := rfl
@[simp] theorem Ctx.setS_spadUnits (c : Ctx) (q : Nat) (l : List Row) : (c.setS q l).spadUnits = c.spadUnits := rfl
@[simp] theorem Ctx.setS_spadBase (c : Ctx) (q : Nat) (l : List Row) : (c.setS q l).spadBase = c.spadBase := rfl
@[simp] theorem Ctx.setS_grp (c : Ctx) (q : Nat) (l : List Row) : (c.setS q l).grp = c.grp := rfl
@[simp] theorem Ctx.setS_chartGrp (c : Ctx) (q : Nat) (l : List Row) : (c.setS q l).chartGrp = c.chartGrp := rfl
@[simp] theorem Ctx.setS_repL (c : Ctx) (q : Nat) (l : List Row) : (c.setS q l).repL = c.repL := rfl
@[simp] theorem Ctx.setS_repS (c : Ctx) (q : Nat) (l : List Row) : (c.setS q l).repS = c.repS := rfl
@[simp] theorem Ctx.setS_repV (c : Ctx) (q : Nat) (l : List Row) : (c.setS q l).repV = c.repV := rfl
@[simp] theorem Ctx.setS_copies (c : Ctx) (q : Nat) (l : List Row) : (c.setS q l).copies = c.copies := rfl
@[simp] theorem Ctx.setS_xops (c : Ctx) (q : Nat) (l : List Row) : (c.setS q l).xops = c.xops := rfl
@[simp] theorem Ctx.setS_mops (c : Ctx) (q : Nat) (l : List Row) : (c.setS q l).mops = c.mops := rfl
@[simp] theorem Ctx.setS_granted (c : Ctx) (q : Nat) (l : List Row) : (c.setS q l).granted = c.granted := rfl
@[simp] theorem Ctx.setS_entitle (c : Ctx) (q : Nat) (l : List Row) : (c.setS q l).entitle = c.entitle := rfl
@[simp] theorem Ctx.setS_exposed (c : Ctx) (q : Nat) (l : List Row) : (c.setS q l).exposed = c.exposed := rfl
@[simp] theorem Ctx.setS_statq (c : Ctx) (q : Nat) (l : List Row) : (c.setS q l).statq = c.statq := rfl
@[simp] theorem Ctx.setS_heldSnap (c : Ctx) (q : Nat) (l : List Row) : (c.setS q l).heldSnap = c.heldSnap := rfl
@[simp] theorem Ctx.setS_lockTr (c : Ctx) (q : Nat) (l : List Row) : (c.setS q l).lockTr = c.lockTr := rfl
@[simp] theorem Ctx.setS_trapDue (c : Ctx) (q : Nat) (l : List Row) : (c.setS q l).trapDue = c.trapDue := rfl
@[simp] theorem Ctx.setS_asyncDue (c : Ctx) (q : Nat) (l : List Row) : (c.setS q l).asyncDue = c.asyncDue := rfl
@[simp] theorem Ctx.setS_nested (c : Ctx) (q : Nat) (l : List Row) : (c.setS q l).nested = c.nested := rfl
@[simp] theorem Ctx.setS_handler (c : Ctx) (q : Nat) (l : List Row) : (c.setS q l).handler = c.handler := rfl
@[simp] theorem Ctx.setS_report (c : Ctx) (q : Nat) (l : List Row) : (c.setS q l).report = c.report := rfl
@[simp] theorem Ctx.setS_due (c : Ctx) (q : Nat) (l : List Row) : (c.setS q l).due = c.due := rfl
@[simp] theorem Ctx.setS_debugHeld (c : Ctx) (q : Nat) (l : List Row) : (c.setS q l).debugHeld = c.debugHeld := rfl
@[simp] theorem Ctx.setS_fault (c : Ctx) (q : Nat) (l : List Row) : (c.setS q l).fault = c.fault := rfl
@[simp] theorem Ctx.setS_task (c : Ctx) (q : Nat) (l : List Row) : (c.setS q l).task = c.task := rfl
@[simp] theorem Ctx.setS_inst (c : Ctx) (q : Nat) (l : List Row) : (c.setS q l).inst = c.inst := rfl
@[simp] theorem Ctx.setS_triggered (c : Ctx) (q : Nat) (l : List Row) : (c.setS q l).triggered = c.triggered := rfl
@[simp] theorem Ctx.setS_stored (c : Ctx) (q : Nat) (l : List Row) : (c.setS q l).stored = c.stored := rfl
@[simp] theorem Ctx.setS_asked (c : Ctx) (q : Nat) (l : List Row) : (c.setS q l).asked = c.asked := rfl
@[simp] theorem Ctx.setS_bad (c : Ctx) (q : Nat) (l : List Row) : (c.setS q l).bad = c.bad := rfl
@[simp] theorem Ctx.setS_hist (c : Ctx) (q : Nat) (l : List Row) : (c.setS q l).hist = c.hist := rfl
@[simp] theorem Ctx.setS_rel (c : Ctx) (q : Nat) (l : List Row) : (c.setS q l).rel = c.rel := rfl
@[simp] theorem Ctx.setQueue_phase (c : Ctx) (e : Engine) (q : List Entry) : (c.setQueue e q).phase = c.phase := by cases e <;> rfl
@[simp] theorem Ctx.setQueue_g (c : Ctx) (e : Engine) (q : List Entry) : (c.setQueue e q).g = c.g := by cases e <;> rfl
@[simp] theorem Ctx.setQueue_a (c : Ctx) (e : Engine) (q : List Entry) : (c.setQueue e q).a = c.a := by cases e <;> rfl
@[simp] theorem Ctx.setQueue_csr (c : Ctx) (e : Engine) (q : List Entry) : (c.setQueue e q).csr = c.csr := by cases e <;> rfl
@[simp] theorem Ctx.setQueue_cc (c : Ctx) (e : Engine) (q : List Entry) : (c.setQueue e q).cc = c.cc := by cases e <;> rfl
@[simp] theorem Ctx.setQueue_tok (c : Ctx) (e : Engine) (q : List Entry) : (c.setQueue e q).tok = c.tok := by cases e <;> rfl
@[simp] theorem Ctx.setQueue_fetch (c : Ctx) (e : Engine) (q : List Entry) : (c.setQueue e q).fetch = c.fetch := by cases e <;> rfl
@[simp] theorem Ctx.setQueue_fetchHold (c : Ctx) (e : Engine) (q : List Entry) : (c.setQueue e q).fetchHold = c.fetchHold := by cases e <;> rfl
@[simp] theorem Ctx.setQueue_hq (c : Ctx) (e : Engine) (q : List Entry) : (c.setQueue e q).hq = c.hq := by cases e <;> rfl
@[simp] theorem Ctx.setQueue_lq (c : Ctx) (e : Engine) (q : List Entry) : (c.setQueue e q).lq = c.lq := by cases e <;> rfl
@[simp] theorem Ctx.setQueue_sq (c : Ctx) (e : Engine) (q : List Entry) : (c.setQueue e q).sq = c.sq := by cases e <;> rfl
@[simp] theorem Ctx.setQueue_strm (c : Ctx) (e : Engine) (q : List Entry) : (c.setQueue e q).strm = c.strm := by cases e <;> rfl
@[simp] theorem Ctx.setQueue_v (c : Ctx) (e : Engine) (q : List Entry) : (c.setQueue e q).v = c.v := by cases e <;> rfl
@[simp] theorem Ctx.setQueue_p (c : Ctx) (e : Engine) (q : List Entry) : (c.setQueue e q).p = c.p := by cases e <;> rfl
@[simp] theorem Ctx.setQueue_acc (c : Ctx) (e : Engine) (q : List Entry) : (c.setQueue e q).acc = c.acc := by cases e <;> rfl
@[simp] theorem Ctx.setQueue_accUnits (c : Ctx) (e : Engine) (q : List Entry) : (c.setQueue e q).accUnits = c.accUnits := by cases e <;> rfl
@[simp] theorem Ctx.setQueue_accBase (c : Ctx) (e : Engine) (q : List Entry) : (c.setQueue e q).accBase = c.accBase := by cases e <;> rfl
@[simp] theorem Ctx.setQueue_spad (c : Ctx) (e : Engine) (q : List Entry) : (c.setQueue e q).spad = c.spad := by cases e <;> rfl
@[simp] theorem Ctx.setQueue_spadUnits (c : Ctx) (e : Engine) (q : List Entry) : (c.setQueue e q).spadUnits = c.spadUnits := by cases e <;> rfl
@[simp] theorem Ctx.setQueue_spadBase (c : Ctx) (e : Engine) (q : List Entry) : (c.setQueue e q).spadBase = c.spadBase := by cases e <;> rfl
@[simp] theorem Ctx.setQueue_grp (c : Ctx) (e : Engine) (q : List Entry) : (c.setQueue e q).grp = c.grp := by cases e <;> rfl
@[simp] theorem Ctx.setQueue_chartGrp (c : Ctx) (e : Engine) (q : List Entry) : (c.setQueue e q).chartGrp = c.chartGrp := by cases e <;> rfl
@[simp] theorem Ctx.setQueue_repL (c : Ctx) (e : Engine) (q : List Entry) : (c.setQueue e q).repL = c.repL := by cases e <;> rfl
@[simp] theorem Ctx.setQueue_repS (c : Ctx) (e : Engine) (q : List Entry) : (c.setQueue e q).repS = c.repS := by cases e <;> rfl
@[simp] theorem Ctx.setQueue_repV (c : Ctx) (e : Engine) (q : List Entry) : (c.setQueue e q).repV = c.repV := by cases e <;> rfl
@[simp] theorem Ctx.setQueue_copies (c : Ctx) (e : Engine) (q : List Entry) : (c.setQueue e q).copies = c.copies := by cases e <;> rfl
@[simp] theorem Ctx.setQueue_xops (c : Ctx) (e : Engine) (q : List Entry) : (c.setQueue e q).xops = c.xops := by cases e <;> rfl
@[simp] theorem Ctx.setQueue_mops (c : Ctx) (e : Engine) (q : List Entry) : (c.setQueue e q).mops = c.mops := by cases e <;> rfl
@[simp] theorem Ctx.setQueue_granted (c : Ctx) (e : Engine) (q : List Entry) : (c.setQueue e q).granted = c.granted := by cases e <;> rfl
@[simp] theorem Ctx.setQueue_entitle (c : Ctx) (e : Engine) (q : List Entry) : (c.setQueue e q).entitle = c.entitle := by cases e <;> rfl
@[simp] theorem Ctx.setQueue_exposed (c : Ctx) (e : Engine) (q : List Entry) : (c.setQueue e q).exposed = c.exposed := by cases e <;> rfl
@[simp] theorem Ctx.setQueue_statq (c : Ctx) (e : Engine) (q : List Entry) : (c.setQueue e q).statq = c.statq := by cases e <;> rfl
@[simp] theorem Ctx.setQueue_heldSnap (c : Ctx) (e : Engine) (q : List Entry) : (c.setQueue e q).heldSnap = c.heldSnap := by cases e <;> rfl
@[simp] theorem Ctx.setQueue_lockTr (c : Ctx) (e : Engine) (q : List Entry) : (c.setQueue e q).lockTr = c.lockTr := by cases e <;> rfl
@[simp] theorem Ctx.setQueue_trapDue (c : Ctx) (e : Engine) (q : List Entry) : (c.setQueue e q).trapDue = c.trapDue := by cases e <;> rfl
@[simp] theorem Ctx.setQueue_asyncDue (c : Ctx) (e : Engine) (q : List Entry) : (c.setQueue e q).asyncDue = c.asyncDue := by cases e <;> rfl
@[simp] theorem Ctx.setQueue_nested (c : Ctx) (e : Engine) (q : List Entry) : (c.setQueue e q).nested = c.nested := by cases e <;> rfl
@[simp] theorem Ctx.setQueue_handler (c : Ctx) (e : Engine) (q : List Entry) : (c.setQueue e q).handler = c.handler := by cases e <;> rfl
@[simp] theorem Ctx.setQueue_report (c : Ctx) (e : Engine) (q : List Entry) : (c.setQueue e q).report = c.report := by cases e <;> rfl
@[simp] theorem Ctx.setQueue_due (c : Ctx) (e : Engine) (q : List Entry) : (c.setQueue e q).due = c.due := by cases e <;> rfl
@[simp] theorem Ctx.setQueue_debugHeld (c : Ctx) (e : Engine) (q : List Entry) : (c.setQueue e q).debugHeld = c.debugHeld := by cases e <;> rfl
@[simp] theorem Ctx.setQueue_fault (c : Ctx) (e : Engine) (q : List Entry) : (c.setQueue e q).fault = c.fault := by cases e <;> rfl
@[simp] theorem Ctx.setQueue_task (c : Ctx) (e : Engine) (q : List Entry) : (c.setQueue e q).task = c.task := by cases e <;> rfl
@[simp] theorem Ctx.setQueue_inst (c : Ctx) (e : Engine) (q : List Entry) : (c.setQueue e q).inst = c.inst := by cases e <;> rfl
@[simp] theorem Ctx.setQueue_triggered (c : Ctx) (e : Engine) (q : List Entry) : (c.setQueue e q).triggered = c.triggered := by cases e <;> rfl
@[simp] theorem Ctx.setQueue_stored (c : Ctx) (e : Engine) (q : List Entry) : (c.setQueue e q).stored = c.stored := by cases e <;> rfl
@[simp] theorem Ctx.setQueue_asked (c : Ctx) (e : Engine) (q : List Entry) : (c.setQueue e q).asked = c.asked := by cases e <;> rfl
@[simp] theorem Ctx.setQueue_bad (c : Ctx) (e : Engine) (q : List Entry) : (c.setQueue e q).bad = c.bad := by cases e <;> rfl
@[simp] theorem Ctx.setQueue_hist (c : Ctx) (e : Engine) (q : List Entry) : (c.setQueue e q).hist = c.hist := by cases e <;> rfl
@[simp] theorem Ctx.setQueue_rel (c : Ctx) (e : Engine) (q : List Entry) : (c.setQueue e q).rel = c.rel := by cases e <;> rfl
@[simp] theorem Ctx.setRep_phase (c : Ctx) (e : Engine) (r : RepState) : (c.setRep e r).phase = c.phase := by cases e <;> rfl
@[simp] theorem Ctx.setRep_g (c : Ctx) (e : Engine) (r : RepState) : (c.setRep e r).g = c.g := by cases e <;> rfl
@[simp] theorem Ctx.setRep_a (c : Ctx) (e : Engine) (r : RepState) : (c.setRep e r).a = c.a := by cases e <;> rfl
@[simp] theorem Ctx.setRep_csr (c : Ctx) (e : Engine) (r : RepState) : (c.setRep e r).csr = c.csr := by cases e <;> rfl
@[simp] theorem Ctx.setRep_cc (c : Ctx) (e : Engine) (r : RepState) : (c.setRep e r).cc = c.cc := by cases e <;> rfl
@[simp] theorem Ctx.setRep_tok (c : Ctx) (e : Engine) (r : RepState) : (c.setRep e r).tok = c.tok := by cases e <;> rfl
@[simp] theorem Ctx.setRep_fetch (c : Ctx) (e : Engine) (r : RepState) : (c.setRep e r).fetch = c.fetch := by cases e <;> rfl
@[simp] theorem Ctx.setRep_fetchHold (c : Ctx) (e : Engine) (r : RepState) : (c.setRep e r).fetchHold = c.fetchHold := by cases e <;> rfl
@[simp] theorem Ctx.setRep_qC (c : Ctx) (e : Engine) (r : RepState) : (c.setRep e r).qC = c.qC := by cases e <;> rfl
@[simp] theorem Ctx.setRep_qL (c : Ctx) (e : Engine) (r : RepState) : (c.setRep e r).qL = c.qL := by cases e <;> rfl
@[simp] theorem Ctx.setRep_qS (c : Ctx) (e : Engine) (r : RepState) : (c.setRep e r).qS = c.qS := by cases e <;> rfl
@[simp] theorem Ctx.setRep_qV (c : Ctx) (e : Engine) (r : RepState) : (c.setRep e r).qV = c.qV := by cases e <;> rfl
@[simp] theorem Ctx.setRep_qM (c : Ctx) (e : Engine) (r : RepState) : (c.setRep e r).qM = c.qM := by cases e <;> rfl
@[simp] theorem Ctx.setRep_qX (c : Ctx) (e : Engine) (r : RepState) : (c.setRep e r).qX = c.qX := by cases e <;> rfl
@[simp] theorem Ctx.setRep_hq (c : Ctx) (e : Engine) (r : RepState) : (c.setRep e r).hq = c.hq := by cases e <;> rfl
@[simp] theorem Ctx.setRep_lq (c : Ctx) (e : Engine) (r : RepState) : (c.setRep e r).lq = c.lq := by cases e <;> rfl
@[simp] theorem Ctx.setRep_sq (c : Ctx) (e : Engine) (r : RepState) : (c.setRep e r).sq = c.sq := by cases e <;> rfl
@[simp] theorem Ctx.setRep_strm (c : Ctx) (e : Engine) (r : RepState) : (c.setRep e r).strm = c.strm := by cases e <;> rfl
@[simp] theorem Ctx.setRep_v (c : Ctx) (e : Engine) (r : RepState) : (c.setRep e r).v = c.v := by cases e <;> rfl
@[simp] theorem Ctx.setRep_p (c : Ctx) (e : Engine) (r : RepState) : (c.setRep e r).p = c.p := by cases e <;> rfl
@[simp] theorem Ctx.setRep_acc (c : Ctx) (e : Engine) (r : RepState) : (c.setRep e r).acc = c.acc := by cases e <;> rfl
@[simp] theorem Ctx.setRep_accUnits (c : Ctx) (e : Engine) (r : RepState) : (c.setRep e r).accUnits = c.accUnits := by cases e <;> rfl
@[simp] theorem Ctx.setRep_accBase (c : Ctx) (e : Engine) (r : RepState) : (c.setRep e r).accBase = c.accBase := by cases e <;> rfl
@[simp] theorem Ctx.setRep_spad (c : Ctx) (e : Engine) (r : RepState) : (c.setRep e r).spad = c.spad := by cases e <;> rfl
@[simp] theorem Ctx.setRep_spadUnits (c : Ctx) (e : Engine) (r : RepState) : (c.setRep e r).spadUnits = c.spadUnits := by cases e <;> rfl
@[simp] theorem Ctx.setRep_spadBase (c : Ctx) (e : Engine) (r : RepState) : (c.setRep e r).spadBase = c.spadBase := by cases e <;> rfl
@[simp] theorem Ctx.setRep_grp (c : Ctx) (e : Engine) (r : RepState) : (c.setRep e r).grp = c.grp := by cases e <;> rfl
@[simp] theorem Ctx.setRep_chartGrp (c : Ctx) (e : Engine) (r : RepState) : (c.setRep e r).chartGrp = c.chartGrp := by cases e <;> rfl
@[simp] theorem Ctx.setRep_copies (c : Ctx) (e : Engine) (r : RepState) : (c.setRep e r).copies = c.copies := by cases e <;> rfl
@[simp] theorem Ctx.setRep_xops (c : Ctx) (e : Engine) (r : RepState) : (c.setRep e r).xops = c.xops := by cases e <;> rfl
@[simp] theorem Ctx.setRep_mops (c : Ctx) (e : Engine) (r : RepState) : (c.setRep e r).mops = c.mops := by cases e <;> rfl
@[simp] theorem Ctx.setRep_granted (c : Ctx) (e : Engine) (r : RepState) : (c.setRep e r).granted = c.granted := by cases e <;> rfl
@[simp] theorem Ctx.setRep_entitle (c : Ctx) (e : Engine) (r : RepState) : (c.setRep e r).entitle = c.entitle := by cases e <;> rfl
@[simp] theorem Ctx.setRep_exposed (c : Ctx) (e : Engine) (r : RepState) : (c.setRep e r).exposed = c.exposed := by cases e <;> rfl
@[simp] theorem Ctx.setRep_statq (c : Ctx) (e : Engine) (r : RepState) : (c.setRep e r).statq = c.statq := by cases e <;> rfl
@[simp] theorem Ctx.setRep_heldSnap (c : Ctx) (e : Engine) (r : RepState) : (c.setRep e r).heldSnap = c.heldSnap := by cases e <;> rfl
@[simp] theorem Ctx.setRep_lockTr (c : Ctx) (e : Engine) (r : RepState) : (c.setRep e r).lockTr = c.lockTr := by cases e <;> rfl
@[simp] theorem Ctx.setRep_trapDue (c : Ctx) (e : Engine) (r : RepState) : (c.setRep e r).trapDue = c.trapDue := by cases e <;> rfl
@[simp] theorem Ctx.setRep_asyncDue (c : Ctx) (e : Engine) (r : RepState) : (c.setRep e r).asyncDue = c.asyncDue := by cases e <;> rfl
@[simp] theorem Ctx.setRep_nested (c : Ctx) (e : Engine) (r : RepState) : (c.setRep e r).nested = c.nested := by cases e <;> rfl
@[simp] theorem Ctx.setRep_handler (c : Ctx) (e : Engine) (r : RepState) : (c.setRep e r).handler = c.handler := by cases e <;> rfl
@[simp] theorem Ctx.setRep_report (c : Ctx) (e : Engine) (r : RepState) : (c.setRep e r).report = c.report := by cases e <;> rfl
@[simp] theorem Ctx.setRep_due (c : Ctx) (e : Engine) (r : RepState) : (c.setRep e r).due = c.due := by cases e <;> rfl
@[simp] theorem Ctx.setRep_debugHeld (c : Ctx) (e : Engine) (r : RepState) : (c.setRep e r).debugHeld = c.debugHeld := by cases e <;> rfl
@[simp] theorem Ctx.setRep_fault (c : Ctx) (e : Engine) (r : RepState) : (c.setRep e r).fault = c.fault := by cases e <;> rfl
@[simp] theorem Ctx.setRep_task (c : Ctx) (e : Engine) (r : RepState) : (c.setRep e r).task = c.task := by cases e <;> rfl
@[simp] theorem Ctx.setRep_inst (c : Ctx) (e : Engine) (r : RepState) : (c.setRep e r).inst = c.inst := by cases e <;> rfl
@[simp] theorem Ctx.setRep_triggered (c : Ctx) (e : Engine) (r : RepState) : (c.setRep e r).triggered = c.triggered := by cases e <;> rfl
@[simp] theorem Ctx.setRep_stored (c : Ctx) (e : Engine) (r : RepState) : (c.setRep e r).stored = c.stored := by cases e <;> rfl
@[simp] theorem Ctx.setRep_asked (c : Ctx) (e : Engine) (r : RepState) : (c.setRep e r).asked = c.asked := by cases e <;> rfl
@[simp] theorem Ctx.setRep_bad (c : Ctx) (e : Engine) (r : RepState) : (c.setRep e r).bad = c.bad := by cases e <;> rfl
@[simp] theorem Ctx.setRep_hist (c : Ctx) (e : Engine) (r : RepState) : (c.setRep e r).hist = c.hist := by cases e <;> rfl
@[simp] theorem Ctx.setRep_rel (c : Ctx) (e : Engine) (r : RepState) : (c.setRep e r).rel = c.rel := by cases e <;> rfl

/-! ### Registers after a write -/

@[simp] theorem Ctx.setA_gr (c : Ctx) (n : Nat) (v : Word) (j : Nat) : (c.setA n v).gr j = c.gr j := by unfold Ctx.gr; rw [Ctx.setA_g]
@[simp] theorem Ctx.setCr_gr (c : Ctx) (n : Nat) (v : Word) (j : Nat) : (c.setCr n v).gr j = c.gr j := by unfold Ctx.gr; rw [Ctx.setCr_g]
@[simp] theorem Ctx.setCounter_gr (c : Ctx) (k v : Nat) (j : Nat) : (c.setCounter k v).gr j = c.gr j := by unfold Ctx.gr; rw [Ctx.setCounter_g]
@[simp] theorem Ctx.setTokens_gr (c : Ctx) (k v : Nat) (j : Nat) : (c.setTokens k v).gr j = c.gr j := by unfold Ctx.gr; rw [Ctx.setTokens_g]
@[simp] theorem Ctx.setP_gr (c : Ctx) (n : Nat) (v : BitVec 1024) (j : Nat) : (c.setP n v).gr j = c.gr j := by unfold Ctx.gr; rw [Ctx.setP_g]
@[simp] theorem Ctx.setV_gr (c : Ctx) (n : Nat) (v : List Elem) (j : Nat) : (c.setV n v).gr j = c.gr j := by unfold Ctx.gr; rw [Ctx.setV_g]
@[simp] theorem Ctx.setAc_gr (c : Ctx) (n : Nat) (v : List Elem) (j : Nat) : (c.setAc n v).gr j = c.gr j := by unfold Ctx.gr; rw [Ctx.setAc_g]
@[simp] theorem Ctx.setL_gr (c : Ctx) (q : Nat) (l : List Row) (j : Nat) : (c.setL q l).gr j = c.gr j := by unfold Ctx.gr; rw [Ctx.setL_g]
@[simp] theorem Ctx.setS_gr (c : Ctx) (q : Nat) (l : List Row) (j : Nat) : (c.setS q l).gr j = c.gr j := by unfold Ctx.gr; rw [Ctx.setS_g]
@[simp] theorem Ctx.setQueue_gr (c : Ctx) (e : Engine) (q : List Entry) (j : Nat) : (c.setQueue e q).gr j = c.gr j := by unfold Ctx.gr; rw [Ctx.setQueue_g]
@[simp] theorem Ctx.setRep_gr (c : Ctx) (e : Engine) (r : RepState) (j : Nat) : (c.setRep e r).gr j = c.gr j := by unfold Ctx.gr; rw [Ctx.setRep_g]
@[simp] theorem Ctx.setG_ar (c : Ctx) (n : Nat) (v : Word) (j : Nat) : (c.setG n v).ar j = c.ar j := by unfold Ctx.ar; rw [Ctx.setG_a]
@[simp] theorem Ctx.setCr_ar (c : Ctx) (n : Nat) (v : Word) (j : Nat) : (c.setCr n v).ar j = c.ar j := by unfold Ctx.ar; rw [Ctx.setCr_a]
@[simp] theorem Ctx.setCounter_ar (c : Ctx) (k v : Nat) (j : Nat) : (c.setCounter k v).ar j = c.ar j := by unfold Ctx.ar; rw [Ctx.setCounter_a]
@[simp] theorem Ctx.setTokens_ar (c : Ctx) (k v : Nat) (j : Nat) : (c.setTokens k v).ar j = c.ar j := by unfold Ctx.ar; rw [Ctx.setTokens_a]
@[simp] theorem Ctx.setP_ar (c : Ctx) (n : Nat) (v : BitVec 1024) (j : Nat) : (c.setP n v).ar j = c.ar j := by unfold Ctx.ar; rw [Ctx.setP_a]
@[simp] theorem Ctx.setV_ar (c : Ctx) (n : Nat) (v : List Elem) (j : Nat) : (c.setV n v).ar j = c.ar j := by unfold Ctx.ar; rw [Ctx.setV_a]
@[simp] theorem Ctx.setAc_ar (c : Ctx) (n : Nat) (v : List Elem) (j : Nat) : (c.setAc n v).ar j = c.ar j := by unfold Ctx.ar; rw [Ctx.setAc_a]
@[simp] theorem Ctx.setL_ar (c : Ctx) (q : Nat) (l : List Row) (j : Nat) : (c.setL q l).ar j = c.ar j := by unfold Ctx.ar; rw [Ctx.setL_a]
@[simp] theorem Ctx.setS_ar (c : Ctx) (q : Nat) (l : List Row) (j : Nat) : (c.setS q l).ar j = c.ar j := by unfold Ctx.ar; rw [Ctx.setS_a]
@[simp] theorem Ctx.setQueue_ar (c : Ctx) (e : Engine) (q : List Entry) (j : Nat) : (c.setQueue e q).ar j = c.ar j := by unfold Ctx.ar; rw [Ctx.setQueue_a]
@[simp] theorem Ctx.setRep_ar (c : Ctx) (e : Engine) (r : RepState) (j : Nat) : (c.setRep e r).ar j = c.ar j := by unfold Ctx.ar; rw [Ctx.setRep_a]
@[simp] theorem Ctx.setG_cr (c : Ctx) (n : Nat) (v : Word) (j : Nat) : (c.setG n v).cr j = c.cr j := by unfold Ctx.cr; rw [Ctx.setG_csr]
@[simp] theorem Ctx.setA_cr (c : Ctx) (n : Nat) (v : Word) (j : Nat) : (c.setA n v).cr j = c.cr j := by unfold Ctx.cr; rw [Ctx.setA_csr]
@[simp] theorem Ctx.setCounter_cr (c : Ctx) (k v : Nat) (j : Nat) : (c.setCounter k v).cr j = c.cr j := by unfold Ctx.cr; rw [Ctx.setCounter_csr]
@[simp] theorem Ctx.setTokens_cr (c : Ctx) (k v : Nat) (j : Nat) : (c.setTokens k v).cr j = c.cr j := by unfold Ctx.cr; rw [Ctx.setTokens_csr]
@[simp] theorem Ctx.setP_cr (c : Ctx) (n : Nat) (v : BitVec 1024) (j : Nat) : (c.setP n v).cr j = c.cr j := by unfold Ctx.cr; rw [Ctx.setP_csr]
@[simp] theorem Ctx.setV_cr (c : Ctx) (n : Nat) (v : List Elem) (j : Nat) : (c.setV n v).cr j = c.cr j := by unfold Ctx.cr; rw [Ctx.setV_csr]
@[simp] theorem Ctx.setAc_cr (c : Ctx) (n : Nat) (v : List Elem) (j : Nat) : (c.setAc n v).cr j = c.cr j := by unfold Ctx.cr; rw [Ctx.setAc_csr]
@[simp] theorem Ctx.setL_cr (c : Ctx) (q : Nat) (l : List Row) (j : Nat) : (c.setL q l).cr j = c.cr j := by unfold Ctx.cr; rw [Ctx.setL_csr]
@[simp] theorem Ctx.setS_cr (c : Ctx) (q : Nat) (l : List Row) (j : Nat) : (c.setS q l).cr j = c.cr j := by unfold Ctx.cr; rw [Ctx.setS_csr]
@[simp] theorem Ctx.setQueue_cr (c : Ctx) (e : Engine) (q : List Entry) (j : Nat) : (c.setQueue e q).cr j = c.cr j := by unfold Ctx.cr; rw [Ctx.setQueue_csr]
@[simp] theorem Ctx.setRep_cr (c : Ctx) (e : Engine) (r : RepState) (j : Nat) : (c.setRep e r).cr j = c.cr j := by unfold Ctx.cr; rw [Ctx.setRep_csr]
@[simp] theorem Ctx.setG_counter (c : Ctx) (n : Nat) (v : Word) (j : Nat) : (c.setG n v).counter j = c.counter j := by unfold Ctx.counter; rw [Ctx.setG_cc]
@[simp] theorem Ctx.setA_counter (c : Ctx) (n : Nat) (v : Word) (j : Nat) : (c.setA n v).counter j = c.counter j := by unfold Ctx.counter; rw [Ctx.setA_cc]
@[simp] theorem Ctx.setCr_counter (c : Ctx) (n : Nat) (v : Word) (j : Nat) : (c.setCr n v).counter j = c.counter j := by unfold Ctx.counter; rw [Ctx.setCr_cc]
@[simp] theorem Ctx.setTokens_counter (c : Ctx) (k v : Nat) (j : Nat) : (c.setTokens k v).counter j = c.counter j := by unfold Ctx.counter; rw [Ctx.setTokens_cc]
@[simp] theorem Ctx.setP_counter (c : Ctx) (n : Nat) (v : BitVec 1024) (j : Nat) : (c.setP n v).counter j = c.counter j := by unfold Ctx.counter; rw [Ctx.setP_cc]
@[simp] theorem Ctx.setV_counter (c : Ctx) (n : Nat) (v : List Elem) (j : Nat) : (c.setV n v).counter j = c.counter j := by unfold Ctx.counter; rw [Ctx.setV_cc]
@[simp] theorem Ctx.setAc_counter (c : Ctx) (n : Nat) (v : List Elem) (j : Nat) : (c.setAc n v).counter j = c.counter j := by unfold Ctx.counter; rw [Ctx.setAc_cc]
@[simp] theorem Ctx.setL_counter (c : Ctx) (q : Nat) (l : List Row) (j : Nat) : (c.setL q l).counter j = c.counter j := by unfold Ctx.counter; rw [Ctx.setL_cc]
@[simp] theorem Ctx.setS_counter (c : Ctx) (q : Nat) (l : List Row) (j : Nat) : (c.setS q l).counter j = c.counter j := by unfold Ctx.counter; rw [Ctx.setS_cc]
@[simp] theorem Ctx.setQueue_counter (c : Ctx) (e : Engine) (q : List Entry) (j : Nat) : (c.setQueue e q).counter j = c.counter j := by unfold Ctx.counter; rw [Ctx.setQueue_cc]
@[simp] theorem Ctx.setRep_counter (c : Ctx) (e : Engine) (r : RepState) (j : Nat) : (c.setRep e r).counter j = c.counter j := by unfold Ctx.counter; rw [Ctx.setRep_cc]
@[simp] theorem Ctx.setG_tokens (c : Ctx) (n : Nat) (v : Word) (j : Nat) : (c.setG n v).tokens j = c.tokens j := by unfold Ctx.tokens; rw [Ctx.setG_tok]
@[simp] theorem Ctx.setA_tokens (c : Ctx) (n : Nat) (v : Word) (j : Nat) : (c.setA n v).tokens j = c.tokens j := by unfold Ctx.tokens; rw [Ctx.setA_tok]
@[simp] theorem Ctx.setCr_tokens (c : Ctx) (n : Nat) (v : Word) (j : Nat) : (c.setCr n v).tokens j = c.tokens j := by unfold Ctx.tokens; rw [Ctx.setCr_tok]
@[simp] theorem Ctx.setCounter_tokens (c : Ctx) (k v : Nat) (j : Nat) : (c.setCounter k v).tokens j = c.tokens j := by unfold Ctx.tokens; rw [Ctx.setCounter_tok]
@[simp] theorem Ctx.setP_tokens (c : Ctx) (n : Nat) (v : BitVec 1024) (j : Nat) : (c.setP n v).tokens j = c.tokens j := by unfold Ctx.tokens; rw [Ctx.setP_tok]
@[simp] theorem Ctx.setV_tokens (c : Ctx) (n : Nat) (v : List Elem) (j : Nat) : (c.setV n v).tokens j = c.tokens j := by unfold Ctx.tokens; rw [Ctx.setV_tok]
@[simp] theorem Ctx.setAc_tokens (c : Ctx) (n : Nat) (v : List Elem) (j : Nat) : (c.setAc n v).tokens j = c.tokens j := by unfold Ctx.tokens; rw [Ctx.setAc_tok]
@[simp] theorem Ctx.setL_tokens (c : Ctx) (q : Nat) (l : List Row) (j : Nat) : (c.setL q l).tokens j = c.tokens j := by unfold Ctx.tokens; rw [Ctx.setL_tok]
@[simp] theorem Ctx.setS_tokens (c : Ctx) (q : Nat) (l : List Row) (j : Nat) : (c.setS q l).tokens j = c.tokens j := by unfold Ctx.tokens; rw [Ctx.setS_tok]
@[simp] theorem Ctx.setQueue_tokens (c : Ctx) (e : Engine) (q : List Entry) (j : Nat) : (c.setQueue e q).tokens j = c.tokens j := by unfold Ctx.tokens; rw [Ctx.setQueue_tok]
@[simp] theorem Ctx.setRep_tokens (c : Ctx) (e : Engine) (r : RepState) (j : Nat) : (c.setRep e r).tokens j = c.tokens j := by unfold Ctx.tokens; rw [Ctx.setRep_tok]
@[simp] theorem Ctx.setG_pr (c : Ctx) (n : Nat) (v : Word) (j : Nat) : (c.setG n v).pr j = c.pr j := by unfold Ctx.pr; rw [Ctx.setG_p]
@[simp] theorem Ctx.setA_pr (c : Ctx) (n : Nat) (v : Word) (j : Nat) : (c.setA n v).pr j = c.pr j := by unfold Ctx.pr; rw [Ctx.setA_p]
@[simp] theorem Ctx.setCr_pr (c : Ctx) (n : Nat) (v : Word) (j : Nat) : (c.setCr n v).pr j = c.pr j := by unfold Ctx.pr; rw [Ctx.setCr_p]
@[simp] theorem Ctx.setCounter_pr (c : Ctx) (k v : Nat) (j : Nat) : (c.setCounter k v).pr j = c.pr j := by unfold Ctx.pr; rw [Ctx.setCounter_p]
@[simp] theorem Ctx.setTokens_pr (c : Ctx) (k v : Nat) (j : Nat) : (c.setTokens k v).pr j = c.pr j := by unfold Ctx.pr; rw [Ctx.setTokens_p]
@[simp] theorem Ctx.setV_pr (c : Ctx) (n : Nat) (v : List Elem) (j : Nat) : (c.setV n v).pr j = c.pr j := by unfold Ctx.pr; rw [Ctx.setV_p]
@[simp] theorem Ctx.setAc_pr (c : Ctx) (n : Nat) (v : List Elem) (j : Nat) : (c.setAc n v).pr j = c.pr j := by unfold Ctx.pr; rw [Ctx.setAc_p]
@[simp] theorem Ctx.setL_pr (c : Ctx) (q : Nat) (l : List Row) (j : Nat) : (c.setL q l).pr j = c.pr j := by unfold Ctx.pr; rw [Ctx.setL_p]
@[simp] theorem Ctx.setS_pr (c : Ctx) (q : Nat) (l : List Row) (j : Nat) : (c.setS q l).pr j = c.pr j := by unfold Ctx.pr; rw [Ctx.setS_p]
@[simp] theorem Ctx.setQueue_pr (c : Ctx) (e : Engine) (q : List Entry) (j : Nat) : (c.setQueue e q).pr j = c.pr j := by unfold Ctx.pr; rw [Ctx.setQueue_p]
@[simp] theorem Ctx.setRep_pr (c : Ctx) (e : Engine) (r : RepState) (j : Nat) : (c.setRep e r).pr j = c.pr j := by unfold Ctx.pr; rw [Ctx.setRep_p]
@[simp] theorem Ctx.setG_vr (c : Ctx) (n : Nat) (v : Word) (j : Nat) : (c.setG n v).vr j = c.vr j := by unfold Ctx.vr; rw [Ctx.setG_v]
@[simp] theorem Ctx.setA_vr (c : Ctx) (n : Nat) (v : Word) (j : Nat) : (c.setA n v).vr j = c.vr j := by unfold Ctx.vr; rw [Ctx.setA_v]
@[simp] theorem Ctx.setCr_vr (c : Ctx) (n : Nat) (v : Word) (j : Nat) : (c.setCr n v).vr j = c.vr j := by unfold Ctx.vr; rw [Ctx.setCr_v]
@[simp] theorem Ctx.setCounter_vr (c : Ctx) (k v : Nat) (j : Nat) : (c.setCounter k v).vr j = c.vr j := by unfold Ctx.vr; rw [Ctx.setCounter_v]
@[simp] theorem Ctx.setTokens_vr (c : Ctx) (k v : Nat) (j : Nat) : (c.setTokens k v).vr j = c.vr j := by unfold Ctx.vr; rw [Ctx.setTokens_v]
@[simp] theorem Ctx.setP_vr (c : Ctx) (n : Nat) (v : BitVec 1024) (j : Nat) : (c.setP n v).vr j = c.vr j := by unfold Ctx.vr; rw [Ctx.setP_v]
@[simp] theorem Ctx.setAc_vr (c : Ctx) (n : Nat) (v : List Elem) (j : Nat) : (c.setAc n v).vr j = c.vr j := by unfold Ctx.vr; rw [Ctx.setAc_v]
@[simp] theorem Ctx.setL_vr (c : Ctx) (q : Nat) (l : List Row) (j : Nat) : (c.setL q l).vr j = c.vr j := by unfold Ctx.vr; rw [Ctx.setL_v]
@[simp] theorem Ctx.setS_vr (c : Ctx) (q : Nat) (l : List Row) (j : Nat) : (c.setS q l).vr j = c.vr j := by unfold Ctx.vr; rw [Ctx.setS_v]
@[simp] theorem Ctx.setQueue_vr (c : Ctx) (e : Engine) (q : List Entry) (j : Nat) : (c.setQueue e q).vr j = c.vr j := by unfold Ctx.vr; rw [Ctx.setQueue_v]
@[simp] theorem Ctx.setRep_vr (c : Ctx) (e : Engine) (r : RepState) (j : Nat) : (c.setRep e r).vr j = c.vr j := by unfold Ctx.vr; rw [Ctx.setRep_v]
@[simp] theorem Ctx.setG_ac (c : Ctx) (n : Nat) (v : Word) (j : Nat) : (c.setG n v).ac j = c.ac j := by unfold Ctx.ac; rw [Ctx.setG_acc]
@[simp] theorem Ctx.setA_ac (c : Ctx) (n : Nat) (v : Word) (j : Nat) : (c.setA n v).ac j = c.ac j := by unfold Ctx.ac; rw [Ctx.setA_acc]
@[simp] theorem Ctx.setCr_ac (c : Ctx) (n : Nat) (v : Word) (j : Nat) : (c.setCr n v).ac j = c.ac j := by unfold Ctx.ac; rw [Ctx.setCr_acc]
@[simp] theorem Ctx.setCounter_ac (c : Ctx) (k v : Nat) (j : Nat) : (c.setCounter k v).ac j = c.ac j := by unfold Ctx.ac; rw [Ctx.setCounter_acc]
@[simp] theorem Ctx.setTokens_ac (c : Ctx) (k v : Nat) (j : Nat) : (c.setTokens k v).ac j = c.ac j := by unfold Ctx.ac; rw [Ctx.setTokens_acc]
@[simp] theorem Ctx.setP_ac (c : Ctx) (n : Nat) (v : BitVec 1024) (j : Nat) : (c.setP n v).ac j = c.ac j := by unfold Ctx.ac; rw [Ctx.setP_acc]
@[simp] theorem Ctx.setV_ac (c : Ctx) (n : Nat) (v : List Elem) (j : Nat) : (c.setV n v).ac j = c.ac j := by unfold Ctx.ac; rw [Ctx.setV_acc]
@[simp] theorem Ctx.setL_ac (c : Ctx) (q : Nat) (l : List Row) (j : Nat) : (c.setL q l).ac j = c.ac j := by unfold Ctx.ac; rw [Ctx.setL_acc]
@[simp] theorem Ctx.setS_ac (c : Ctx) (q : Nat) (l : List Row) (j : Nat) : (c.setS q l).ac j = c.ac j := by unfold Ctx.ac; rw [Ctx.setS_acc]
@[simp] theorem Ctx.setQueue_ac (c : Ctx) (e : Engine) (q : List Entry) (j : Nat) : (c.setQueue e q).ac j = c.ac j := by unfold Ctx.ac; rw [Ctx.setQueue_acc]
@[simp] theorem Ctx.setRep_ac (c : Ctx) (e : Engine) (r : RepState) (j : Nat) : (c.setRep e r).ac j = c.ac j := by unfold Ctx.ac; rw [Ctx.setRep_acc]
@[simp] theorem Ctx.setG_lrows (c : Ctx) (n : Nat) (v : Word) (j : Nat) : (c.setG n v).lrows j = c.lrows j := by unfold Ctx.lrows; rw [Ctx.setG_lq]
@[simp] theorem Ctx.setA_lrows (c : Ctx) (n : Nat) (v : Word) (j : Nat) : (c.setA n v).lrows j = c.lrows j := by unfold Ctx.lrows; rw [Ctx.setA_lq]
@[simp] theorem Ctx.setCr_lrows (c : Ctx) (n : Nat) (v : Word) (j : Nat) : (c.setCr n v).lrows j = c.lrows j := by unfold Ctx.lrows; rw [Ctx.setCr_lq]
@[simp] theorem Ctx.setCounter_lrows (c : Ctx) (k v : Nat) (j : Nat) : (c.setCounter k v).lrows j = c.lrows j := by unfold Ctx.lrows; rw [Ctx.setCounter_lq]
@[simp] theorem Ctx.setTokens_lrows (c : Ctx) (k v : Nat) (j : Nat) : (c.setTokens k v).lrows j = c.lrows j := by unfold Ctx.lrows; rw [Ctx.setTokens_lq]
@[simp] theorem Ctx.setP_lrows (c : Ctx) (n : Nat) (v : BitVec 1024) (j : Nat) : (c.setP n v).lrows j = c.lrows j := by unfold Ctx.lrows; rw [Ctx.setP_lq]
@[simp] theorem Ctx.setV_lrows (c : Ctx) (n : Nat) (v : List Elem) (j : Nat) : (c.setV n v).lrows j = c.lrows j := by unfold Ctx.lrows; rw [Ctx.setV_lq]
@[simp] theorem Ctx.setAc_lrows (c : Ctx) (n : Nat) (v : List Elem) (j : Nat) : (c.setAc n v).lrows j = c.lrows j := by unfold Ctx.lrows; rw [Ctx.setAc_lq]
@[simp] theorem Ctx.setS_lrows (c : Ctx) (q : Nat) (l : List Row) (j : Nat) : (c.setS q l).lrows j = c.lrows j := by unfold Ctx.lrows; rw [Ctx.setS_lq]
@[simp] theorem Ctx.setQueue_lrows (c : Ctx) (e : Engine) (q : List Entry) (j : Nat) : (c.setQueue e q).lrows j = c.lrows j := by unfold Ctx.lrows; rw [Ctx.setQueue_lq]
@[simp] theorem Ctx.setRep_lrows (c : Ctx) (e : Engine) (r : RepState) (j : Nat) : (c.setRep e r).lrows j = c.lrows j := by unfold Ctx.lrows; rw [Ctx.setRep_lq]
@[simp] theorem Ctx.setG_srows (c : Ctx) (n : Nat) (v : Word) (j : Nat) : (c.setG n v).srows j = c.srows j := by unfold Ctx.srows; rw [Ctx.setG_sq]
@[simp] theorem Ctx.setA_srows (c : Ctx) (n : Nat) (v : Word) (j : Nat) : (c.setA n v).srows j = c.srows j := by unfold Ctx.srows; rw [Ctx.setA_sq]
@[simp] theorem Ctx.setCr_srows (c : Ctx) (n : Nat) (v : Word) (j : Nat) : (c.setCr n v).srows j = c.srows j := by unfold Ctx.srows; rw [Ctx.setCr_sq]
@[simp] theorem Ctx.setCounter_srows (c : Ctx) (k v : Nat) (j : Nat) : (c.setCounter k v).srows j = c.srows j := by unfold Ctx.srows; rw [Ctx.setCounter_sq]
@[simp] theorem Ctx.setTokens_srows (c : Ctx) (k v : Nat) (j : Nat) : (c.setTokens k v).srows j = c.srows j := by unfold Ctx.srows; rw [Ctx.setTokens_sq]
@[simp] theorem Ctx.setP_srows (c : Ctx) (n : Nat) (v : BitVec 1024) (j : Nat) : (c.setP n v).srows j = c.srows j := by unfold Ctx.srows; rw [Ctx.setP_sq]
@[simp] theorem Ctx.setV_srows (c : Ctx) (n : Nat) (v : List Elem) (j : Nat) : (c.setV n v).srows j = c.srows j := by unfold Ctx.srows; rw [Ctx.setV_sq]
@[simp] theorem Ctx.setAc_srows (c : Ctx) (n : Nat) (v : List Elem) (j : Nat) : (c.setAc n v).srows j = c.srows j := by unfold Ctx.srows; rw [Ctx.setAc_sq]
@[simp] theorem Ctx.setL_srows (c : Ctx) (q : Nat) (l : List Row) (j : Nat) : (c.setL q l).srows j = c.srows j := by unfold Ctx.srows; rw [Ctx.setL_sq]
@[simp] theorem Ctx.setQueue_srows (c : Ctx) (e : Engine) (q : List Entry) (j : Nat) : (c.setQueue e q).srows j = c.srows j := by unfold Ctx.srows; rw [Ctx.setQueue_sq]
@[simp] theorem Ctx.setRep_srows (c : Ctx) (e : Engine) (r : RepState) (j : Nat) : (c.setRep e r).srows j = c.srows j := by unfold Ctx.srows; rw [Ctx.setRep_sq]
@[simp] theorem Ctx.setG_queue (c : Ctx) (n : Nat) (v : Word) (f : Engine) : (c.setG n v).queue f = c.queue f := by cases f <;> simp [Ctx.queue]
@[simp] theorem Ctx.setA_queue (c : Ctx) (n : Nat) (v : Word) (f : Engine) : (c.setA n v).queue f = c.queue f := by cases f <;> simp [Ctx.queue]
@[simp] theorem Ctx.setCr_queue (c : Ctx) (n : Nat) (v : Word) (f : Engine) : (c.setCr n v).queue f = c.queue f := by cases f <;> simp [Ctx.queue]
@[simp] theorem Ctx.setCounter_queue (c : Ctx) (k v : Nat) (f : Engine) : (c.setCounter k v).queue f = c.queue f := by cases f <;> simp [Ctx.queue]
@[simp] theorem Ctx.setTokens_queue (c : Ctx) (k v : Nat) (f : Engine) : (c.setTokens k v).queue f = c.queue f := by cases f <;> simp [Ctx.queue]
@[simp] theorem Ctx.setP_queue (c : Ctx) (n : Nat) (v : BitVec 1024) (f : Engine) : (c.setP n v).queue f = c.queue f := by cases f <;> simp [Ctx.queue]
@[simp] theorem Ctx.setV_queue (c : Ctx) (n : Nat) (v : List Elem) (f : Engine) : (c.setV n v).queue f = c.queue f := by cases f <;> simp [Ctx.queue]
@[simp] theorem Ctx.setAc_queue (c : Ctx) (n : Nat) (v : List Elem) (f : Engine) : (c.setAc n v).queue f = c.queue f := by cases f <;> simp [Ctx.queue]
@[simp] theorem Ctx.setL_queue (c : Ctx) (q : Nat) (l : List Row) (f : Engine) : (c.setL q l).queue f = c.queue f := by cases f <;> simp [Ctx.queue]
@[simp] theorem Ctx.setS_queue (c : Ctx) (q : Nat) (l : List Row) (f : Engine) : (c.setS q l).queue f = c.queue f := by cases f <;> simp [Ctx.queue]
@[simp] theorem Ctx.setRep_queue (c : Ctx) (e : Engine) (r : RepState) (f : Engine) : (c.setRep e r).queue f = c.queue f := by cases f <;> simp [Ctx.queue]
@[simp] theorem Ctx.setG_rep (c : Ctx) (n : Nat) (v : Word) (f : Engine) : (c.setG n v).rep f = c.rep f := by cases f <;> simp [Ctx.rep]
@[simp] theorem Ctx.setA_rep (c : Ctx) (n : Nat) (v : Word) (f : Engine) : (c.setA n v).rep f = c.rep f := by cases f <;> simp [Ctx.rep]
@[simp] theorem Ctx.setCr_rep (c : Ctx) (n : Nat) (v : Word) (f : Engine) : (c.setCr n v).rep f = c.rep f := by cases f <;> simp [Ctx.rep]
@[simp] theorem Ctx.setCounter_rep (c : Ctx) (k v : Nat) (f : Engine) : (c.setCounter k v).rep f = c.rep f := by cases f <;> simp [Ctx.rep]
@[simp] theorem Ctx.setTokens_rep (c : Ctx) (k v : Nat) (f : Engine) : (c.setTokens k v).rep f = c.rep f := by cases f <;> simp [Ctx.rep]
@[simp] theorem Ctx.setP_rep (c : Ctx) (n : Nat) (v : BitVec 1024) (f : Engine) : (c.setP n v).rep f = c.rep f := by cases f <;> simp [Ctx.rep]
@[simp] theorem Ctx.setV_rep (c : Ctx) (n : Nat) (v : List Elem) (f : Engine) : (c.setV n v).rep f = c.rep f := by cases f <;> simp [Ctx.rep]
@[simp] theorem Ctx.setAc_rep (c : Ctx) (n : Nat) (v : List Elem) (f : Engine) : (c.setAc n v).rep f = c.rep f := by cases f <;> simp [Ctx.rep]
@[simp] theorem Ctx.setL_rep (c : Ctx) (q : Nat) (l : List Row) (f : Engine) : (c.setL q l).rep f = c.rep f := by cases f <;> simp [Ctx.rep]
@[simp] theorem Ctx.setS_rep (c : Ctx) (q : Nat) (l : List Row) (f : Engine) : (c.setS q l).rep f = c.rep f := by cases f <;> simp [Ctx.rep]
@[simp] theorem Ctx.setQueue_rep (c : Ctx) (e : Engine) (q : List Entry) (f : Engine) : (c.setQueue e q).rep f = c.rep f := by cases f <;> simp [Ctx.rep]
@[simp] theorem Ctx.gr_zero (c : Ctx) : c.gr 0 = 0 := rfl
theorem Ctx.gr_setG (c : Ctx) (n : Nat) (v : Word) (j : Nat) : (c.setG n v).gr j = if j = n ∧ n ≠ 0 then v else c.gr j := by
  unfold Ctx.setG Ctx.gr
  by_cases hn : n = 0
  · simp [hn]
  · by_cases hj : j = 0
    · subst hj; simp [Ne.symm hn, hn]
    · simp [hn, hj, zlook_zset]
theorem Ctx.gr_setG_self (c : Ctx) (n : Nat) (v : Word) : (c.setG n v).gr n = if n = 0 then 0 else v := by
  rw [Ctx.gr_setG]; by_cases h : n = 0 <;> simp [h]
theorem Ctx.gr_setG_ne (c : Ctx) {n j : Nat} (v : Word) (h : j ≠ n) : (c.setG n v).gr j = c.gr j := by rw [Ctx.gr_setG]; simp [h]
theorem Ctx.ar_setA (c : Ctx) (n : Nat) (v : Word) (j : Nat) : (c.setA n v).ar j = if j = n then v else c.ar j := by simp [Ctx.setA, Ctx.ar, zlook_zset]
theorem Ctx.cr_setCr (c : Ctx) (n : Nat) (v : Word) (j : Nat) : (c.setCr n v).cr j = if j = n then v else c.cr j := by simp [Ctx.setCr, Ctx.cr, zlook_zset]
theorem Ctx.counter_setCounter (c : Ctx) (k v j : Nat) : (c.setCounter k v).counter j = if j = k then v else c.counter j := by
  simp [Ctx.setCounter, Ctx.counter, zlook_zset]
theorem Ctx.tokens_setTokens (c : Ctx) (k v j : Nat) : (c.setTokens k v).tokens j = if j = k then v else c.tokens j := by
  simp [Ctx.setTokens, Ctx.tokens, zlook_zset]
theorem Ctx.pr_setP (c : Ctx) (n : Nat) (v : BitVec 1024) (j : Nat) : (c.setP n v).pr j = if j = n ∧ n ≠ 0 then v else c.pr j := by
  unfold Ctx.setP Ctx.pr
  by_cases hn : n = 0
  · simp [hn]
  · by_cases hj : j = 0
    · subst hj; simp [Ne.symm hn, hn]
    · simp [hn, hj, zlook_zset]
theorem Ctx.vr_setV (c : Ctx) (n : Nat) (v : List Elem) (j : Nat) : (c.setV n v).vr j = if j = n then fit 1024 0 v else c.vr j := by
  unfold Ctx.setV Ctx.vr; simp only [alook_aset]; split <;> rfl
theorem Ctx.ac_setAc (c : Ctx) (n : Nat) (v : List Elem) (j : Nat) : (c.setAc n v).ac j = if j = n then fit 256 0 v else c.ac j := by
  unfold Ctx.setAc Ctx.ac; simp only [alook_aset]; split <;> rfl
theorem Ctx.lrows_setL (c : Ctx) (q : Nat) (l : List Row) (j : Nat) : (c.setL q l).lrows j = if j = q then l else c.lrows j := by
  have := zlook_zset ([] : List Row) c.lq q j l; simpa [Ctx.setL, Ctx.lrows, zlook] using this
theorem Ctx.srows_setS (c : Ctx) (q : Nat) (l : List Row) (j : Nat) : (c.setS q l).srows j = if j = q then l else c.srows j := by
  have := zlook_zset ([] : List Row) c.sq q j l; simpa [Ctx.setS, Ctx.srows, zlook] using this
theorem Ctx.queue_setQueue (c : Ctx) (e f : Engine) (q : List Entry) : (c.setQueue e q).queue f = if f = e then q else c.queue f := by
  cases e <;> cases f <;> rfl
theorem Ctx.rep_setRep (c : Ctx) (e f : Engine) (r : RepState) (h : e = .l ∨ e = .s ∨ e = .v) :
    (c.setRep e r).rep f = if f = e then r else c.rep f := by
  rcases h with rfl | rfl | rfl <;> cases f <;> rfl

end Sys2Proof.Machine
end

