-- ==== Sys2Proof/Laws/Memory.lean ====
section
/-! SUPPORT. Device memory: what each operation leaves of the bytes the K16 sees, a write read back, and the canonical form. -/
namespace Sys2Proof.Machine

/-! ### What the bytes depend on -/

/-- Two states show the same bytes where L2, memory and the losses of the dies are the same. -/
theorem peekByte_congr {s t : State} (h1 : t.l2 = s.l2) (h2 : t.mem = s.mem) (h3 : ∀ d, (dieAt t d).lost = (dieAt s d).lost)
    (k : Nat) : peekByte t k = peekByte s k := by simp only [peekByte, dramByte, lostMask, h1, h2, h3]
theorem dramByte_congr {s t : State} (h2 : t.mem = s.mem) (h3 : ∀ d, (dieAt t d).lost = (dieAt s d).lost) (k : Nat) :
    dramByte t k = dramByte s k := by simp only [dramByte, lostMask, h2, h3]
@[simp] theorem setEcc_l2 (s : State) (l m n : Nat) : (setEcc s l m n).l2 = s.l2 := rfl
@[simp] theorem setEcc_mem (s : State) (l m n : Nat) : (setEcc s l m n).mem = s.mem := rfl
@[simp] theorem setEcc_dieAt (s : State) (l m n d : Nat) : dieAt (setEcc s l m n) d = dieAt s d := rfl
@[simp] theorem setEcc_cx (s : State) (l m n : Nat) : (setEcc s l m n).cx = s.cx := rfl
@[simp] theorem dramByte_setEcc (s : State) (l m n k : Nat) : dramByte (setEcc s l m n) k = dramByte s k := rfl
@[simp] theorem peekByte_setEcc (s : State) (l m n k : Nat) : peekByte (setEcc s l m n) k = peekByte s k := rfl
@[simp] theorem peekByte_updTile (s : State) (t k : Nat) (f : Tile → Tile) : peekByte (updTile s t f) k = peekByte s k := rfl
@[simp] theorem peekByte_cx (s : State) (c : Ctx) (k : Nat) : peekByte { s with cx := c } k = peekByte s k := rfl
theorem lost_updDie {s : State} {e : Nat} {f : Die → Die} (h : ∀ x, (f x).lost = x.lost) (d : Nat) :
    (dieAt (updDie s e f) d).lost = (dieAt s d).lost := by
  by_cases h1 : d = e
  · subst h1; rw [dieAt_updDie, h]
  · rw [dieAt_updDie_ne _ _ h1]
/-- A change of a die that does not lose its memory leaves the bytes. -/
theorem peekByte_updDie {s : State} {e : Nat} {f : Die → Die} (h : ∀ x, (f x).lost = x.lost) (k : Nat) :
    peekByte (updDie s e f) k = peekByte s k :=
  peekByte_congr (s := s) (t := updDie s e f) rfl rfl (fun d => lost_updDie h d) k
theorem dramByte_updDie {s : State} {e : Nat} {f : Die → Die} (h : ∀ x, (f x).lost = x.lost) (k : Nat) :
    dramByte (updDie s e f) k = dramByte s k :=
  dramByte_congr (s := s) (t := updDie s e f) rfl (fun d => lost_updDie h d) k
@[simp] theorem peekByte_updTenant (s : State) (d t k : Nat) (f : Tenant → Tenant) :
    peekByte (updTenant s d t f) k = peekByte s k := by
  unfold updTenant; exact peekByte_updDie (by intro x; rfl) k
@[simp] theorem dramByte_updTenant (s : State) (d t k : Nat) (f : Tenant → Tenant) :
    dramByte (updTenant s d t f) k = dramByte s k := by
  unfold updTenant; exact dramByte_updDie (by intro x; rfl) k
@[simp] theorem peekByte_chargeDram (s : State) (key n t k : Nat) : peekByte (chargeDram s key n t) k = peekByte s k := by
  unfold chargeDram; split <;> simp
@[simp] theorem dramByte_chargeDram (s : State) (key n t k : Nat) : dramByte (chargeDram s key n t) k = dramByte s k := by
  unfold chargeDram; split <;> simp
/-- A count of the survey leaves the bytes. -/
@[simp] theorem surveyCount_cx (s : State) (d o n : Nat) : (surveyCount s d o n).cx = s.cx := by unfold surveyCount; split <;> rfl
@[simp] theorem surveyCount_l2 (s : State) (d o n : Nat) : (surveyCount s d o n).l2 = s.l2 := by unfold surveyCount; split <;> rfl
@[simp] theorem surveyCount_mem (s : State) (d o n : Nat) : (surveyCount s d o n).mem = s.mem := by unfold surveyCount; split <;> rfl
@[simp] theorem surveyCount_tags (s : State) (d o n : Nat) : (surveyCount s d o n).tags = s.tags := by unfold surveyCount; split <;> rfl
@[simp] theorem surveyCount_lost (s : State) (d o n e : Nat) : (dieAt (surveyCount s d o n) e).lost = (dieAt s e).lost := by
  unfold surveyCount; split
  · rfl
  · exact lost_updDie (f := fun x => { x with counts := zset 0 x.counts o (min (2 ^ 32 - 1) (zlook 0 x.counts o + n)) }) (fun _ => rfl) e
@[simp] theorem peekByte_surveyCount (s : State) (d o n k : Nat) : peekByte (surveyCount s d o n) k = peekByte s k :=
  peekByte_congr (surveyCount_l2 ..) (surveyCount_mem ..) (fun _ => surveyCount_lost ..) k
@[simp] theorem dramByte_surveyCount (s : State) (d o n k : Nat) : dramByte (surveyCount s d o n) k = dramByte s k :=
  dramByte_congr (surveyCount_mem ..) (fun _ => surveyCount_lost ..) k
@[simp] theorem peekByte_countSlice (s : State) (l o k : Nat) : peekByte (countSlice s l o) k = peekByte s k := peekByte_surveyCount ..
@[simp] theorem countSlice_cx (s : State) (l o : Nat) : (countSlice s l o).cx = s.cx := surveyCount_cx ..
@[simp] theorem peekByte_countRead (s : State) (l k : Nat) : peekByte (countRead s l) k = peekByte s k := peekByte_surveyCount ..
@[simp] theorem countRead_cx (s : State) (l : Nat) : (countRead s l).cx = s.cx := surveyCount_cx ..
@[simp] theorem peekByte_countWrite (s : State) (l k : Nat) : peekByte (countWrite s l) k = peekByte s k := by
  unfold countWrite; rw [peekByte_surveyCount, peekByte_countSlice]
@[simp] theorem countWrite_cx (s : State) (l : Nat) : (countWrite s l).cx = s.cx := by unfold countWrite; simp
/-- A line whose claim ends shows the bytes it showed. -/
theorem claimed_mem (s : State) (l : Nat) : claimed s l = { s with hostLines := (claimed s l).hostLines } := by
  unfold claimed; split
  · rfl
  · split <;> rfl
@[simp] theorem peekByte_claimed (s : State) (l k : Nat) : peekByte (claimed s l) k = peekByte s k := by rw [claimed_mem]; rfl
@[simp] theorem claimed_cx (s : State) (l : Nat) : (claimed s l).cx = s.cx := by rw [claimed_mem]
@[simp] theorem chargeDram_l2 (s : State) (key n t : Nat) : (chargeDram s key n t).l2 = s.l2 := by
  unfold chargeDram; split <;> rfl
@[simp] theorem chargeDram_cx (s : State) (key n t : Nat) : (chargeDram s key n t).cx = s.cx := by
  unfold chargeDram; split <;> rfl
@[simp] theorem peekByte_dropLines (s : State) (l : List Nat) (b : Bool) (k : Nat) : peekByte (dropLines s l b) k = peekByte s k := rfl

/-! ### Lines brought into L2 -/

theorem dramRead_length (s : State) : ∀ (n key : Nat), (dramRead s key n).length = n
  | 0, _ => rfl
  | n + 1, key => by simp [dramRead, dramRead_length s n]
theorem dramRead_getD (s : State) : ∀ (n key i : Nat), i < n → (dramRead s key n).getD i 0 = dramByte s (key + i)
  | 0, _, _, h => absurd h (Nat.not_lt_zero _)
  | n + 1, key, 0, _ => by simp [dramRead]
  | n + 1, key, i + 1, h => by
    have := dramRead_getD s n (key + 1) i (by omega)
    simp only [dramRead, List.getD_cons_succ, this]
    congr 1; omega
theorem dramRead_congr {s t : State} (h : ∀ k, dramByte t k = dramByte s k) : ∀ n key, dramRead t key n = dramRead s key n
  | 0, _ => rfl
  | n + 1, key => by simp [dramRead, h, dramRead_congr h n]
@[simp] theorem dramSet_l2 (s : State) (k : Nat) (b : Byte) : (dramSet s k b).l2 = s.l2 := rfl
theorem dramWrite_l2 : ∀ (d : List Byte) (s : State) (k : Nat), (dramWrite s k d).l2 = s.l2
  | [], _, _ => rfl
  | b :: r, s, k => by rw [dramWrite, dramWrite_l2 r]; rfl
theorem dramWrite_cx : ∀ (d : List Byte) (s : State) (k : Nat), (dramWrite s k d).cx = s.cx
  | [], _, _ => rfl
  | b :: r, s, k => by rw [dramWrite, dramWrite_cx r]; rfl
theorem dramByte_dramSet (s : State) (key : Nat) (b : Byte) (k : Nat) :
    dramByte (dramSet s key b) k = if k = key then b else dramByte s k := by
  unfold dramByte dramSet
  show memGet (memSet s.mem key (b ^^^ lostMask s key)) k ^^^ lostMask s k = _
  split
  · rename_i h
    rw [h, memGet_memSet_self]
    rw [BitVec.xor_assoc, BitVec.xor_self, BitVec.xor_zero]
  · rename_i h
    rw [memGet_memSet_ne _ _ h]
/-- Bytes written to memory are there, and no other byte changes. -/
theorem dramByte_dramWrite : ∀ (d : List Byte) (s : State) (key k : Nat),
    dramByte (dramWrite s key d) k = if key ≤ k ∧ k < key + d.length then d.getD (k - key) 0 else dramByte s k
  | [], s, key, k => by
    have : ¬(key ≤ k ∧ k < key + ([] : List Byte).length) := by simp
    rw [if_neg this]; rfl
  | b :: r, s, key, k => by
    rw [dramWrite, dramByte_dramWrite r, dramByte_dramSet]
    by_cases h1 : k = key
    · subst h1
      rw [if_neg (by omega), if_pos rfl, if_pos (by simp)]; simp
    · by_cases h2 : key + 1 ≤ k ∧ k < key + 1 + r.length
      · rw [if_pos h2, if_pos (by simp; omega)]
        have e : k - key = (k - (key + 1)) + 1 := by omega
        rw [e, List.getD_cons_succ]
      · rw [if_neg h2, if_neg h1, if_neg (by simp; omega)]
theorem getD_padTo (n i : Nat) (l : List Byte) : (padTo n l).getD i 0 = l.getD i 0 := by
  unfold padTo
  simp only [List.getD_eq_getElem?_getD, List.getElem?_append]
  split
  · rfl
  · rename_i h
    rw [List.getElem?_eq_none (by omega : l.length ≤ i)]
    rw [List.getElem?_replicate]
    split <;> rfl
theorem lineBytes_length (l : List Byte) : ((padTo 64 l).take 64).length = 64 := by
  simp only [List.length_take, padTo, List.length_append, List.length_replicate]; omega
theorem lineBytes_getD {i : Nat} (l : List Byte) (h : i < 64) : ((padTo 64 l).take 64).getD i 0 = l.getD i 0 := by
  rw [← getD_padTo 64 i l]
  simp only [List.getD_eq_getElem?_getD, List.getElem?_take, h, if_true]
/-- A line that leaves its slice shows from memory the bytes it showed. -/
@[simp] theorem peekByte_evictLine (s : State) (l k : Nat) : peekByte (evictLine s l) k = peekByte s k := by
  have key : ∀ x : Line, alook s.l2 l = some x → ∀ s1 : State, s1.l2 = s.l2 → (∀ j, dramByte s1 j = dramByte s j) → ∀ m n,
      peekByte { setEcc (dramWrite s1 (l * 64) ((padTo 64 x.data).take 64)) l m n with
        l2 := adel (setEcc (dramWrite s1 (l * 64) ((padTo 64 x.data).take 64)) l m n).l2 l } k = peekByte s k := by
    intro x h s1 e1 e2 m n
    unfold peekByte
    show (match alook (adel (dramWrite s1 (l * 64) ((padTo 64 x.data).take 64)).l2 l) (k / 64) with
      | some x => x.data.getD (k % 64) 0 | none => dramByte (dramWrite s1 (l * 64) ((padTo 64 x.data).take 64)) k) = _
    rw [dramWrite_l2, e1, dramByte_dramWrite, lineBytes_length]
    by_cases hk : k / 64 = l
    · rw [hk, alook_adel_self, h]
      have hb : k - l * 64 = k % 64 := by omega
      show (if _ then _ else _) = x.data.getD (k % 64) 0
      rw [if_pos (by omega), hb, lineBytes_getD _ (Nat.mod_lt _ (by decide))]
    · rw [alook_adel_ne _ hk, if_neg (by omega), e2]
      all_goals rfl
  unfold evictLine
  split
  · rfl
  · rename_i x h
    simp only []
    split
    · exact key x h _ (by simp [countWrite, countSlice]) (fun j => by simp [countWrite, countSlice]) _ _
    · exact key x h s rfl (fun _ => rfl) _ _
@[simp] theorem evictLine_cx (s : State) (l : Nat) : (evictLine s l).cx = s.cx := by
  unfold evictLine
  split
  · rfl
  · simp only [setEcc_cx, dramWrite_cx]
    split <;> simp
/-- A full slice drops one line, another drops none. -/
theorem makeRoomL2_cases (s : State) (l : Nat) : makeRoomL2 s l = s ∨ ∃ x, makeRoomL2 s l = evictLine s x := by
  unfold makeRoomL2
  split
  · exact .inl rfl
  · split
    · exact .inr ⟨_, rfl⟩
    · exact .inl rfl
@[simp] theorem peekByte_makeRoomL2 (s : State) (l k : Nat) : peekByte (makeRoomL2 s l) k = peekByte s k := by
  rcases makeRoomL2_cases s l with h | ⟨x, h⟩ <;> rw [h]; simp
@[simp] theorem makeRoomL2_cx (s : State) (l : Nat) : (makeRoomL2 s l).cx = s.cx := by
  rcases makeRoomL2_cases s l with h | ⟨x, h⟩ <;> rw [h]; simp
/-- A line read into its slice shows the bytes of memory. -/
theorem peekByte_fetchLine {s : State} {l : Nat} (hn : alook s.l2 l = none) (t k : Nat) :
    peekByte (fetchLine s t l) k = peekByte s k := by
  have key : ∀ s1 : State, s1.l2 = s.l2 → (∀ j, dramByte s1 j = dramByte s j) →
      peekByte { s1 with l2 := aset s1.l2 l { data := dramRead s1 (l * 64) 64, tenant := t } } k = peekByte s k := by
    intro s1 e1 e2
    unfold peekByte
    show (match alook (aset s1.l2 l _) (k / 64) with | some x => _ | none => _) = _
    by_cases hk : k / 64 = l
    · rw [hk, alook_aset_self, hn]
      show (dramRead s1 (l * 64) 64).getD (k % 64) 0 = dramByte s k
      rw [dramRead_getD s1 64 _ _ (Nat.mod_lt _ (by decide)), e2]
      congr 1; omega
    · rw [alook_aset_ne _ _ hk, e1]
      cases alook s.l2 (k / 64) with
      | some _ => rfl
      | none => exact e2 k
  unfold fetchLine
  simp only [peekByte_countRead, peekByte_countSlice, peekByte_chargeDram]
  split
  · exact key _ rfl (fun _ => rfl)
  · exact key _ rfl (fun _ => rfl)
@[simp] theorem fetchLine_cx (s : State) (t l : Nat) : (fetchLine s t l).cx = s.cx := by
  unfold fetchLine
  simp only [countRead_cx, countSlice_cx, chargeDram_cx]
  split <;> rfl
theorem alook_makeRoomL2 {s : State} {l : Nat} (h : alook s.l2 l = none) (j : Nat) : alook (makeRoomL2 s j).l2 l = none := by
  have key : ∀ x, alook (evictLine s x).l2 l = none := by
    intro x
    unfold evictLine
    split
    · exact h
    · rename_i y hy
      have e : x ≠ l := fun e => by rw [e, h] at hy; cases hy
      have q : ∀ s1 : State, s1.l2 = s.l2 → ∀ m n, alook (adel (setEcc (dramWrite s1 (x * 64) ((padTo 64 y.data).take 64)) x m n).l2 x) l = none := by
        intro s1 h1 m n
        rw [setEcc_l2, dramWrite_l2, h1, alook_adel_ne _ (Ne.symm e)]
        exact h
      simp only []
      split
      · exact q _ (by simp [countWrite, countSlice]) _ _
      · exact q _ rfl _ _
  rcases makeRoomL2_cases s j with e | ⟨x, e⟩ <;> rw [e]
  · exact h
  · exact key x
/-- A line brought into its home slice shows the bytes it showed. -/
@[simp] theorem peekByte_fillLine (s : State) (t l k : Nat) : peekByte (fillLine s t l) k = peekByte s k := by
  unfold fillLine
  split
  · simp
  · split
    · simp
    · rename_i h
      have hn : alook s.l2 l = none := by simpa using h
      rw [peekByte_fetchLine (alook_makeRoomL2 hn l), peekByte_makeRoomL2]
@[simp] theorem fillLine_cx (s : State) (t l : Nat) : (fillLine s t l).cx = s.cx := by
  unfold fillLine; split
  · simp
  · split <;> simp
/-- What a fold of operations that keep a fact keeps. -/
theorem foldl_keeps {α : Type} {P : State → Prop} {f : State → α → State} (h : ∀ s x, P s → P (f s x)) :
    ∀ (l : List α) (s : State), P s → P (l.foldl f s)
  | [], _, hs => hs
  | x :: r, s, hs => foldl_keeps h r (f s x) (h s x hs)
@[simp] theorem peekByte_touch (s : State) (t key n k : Nat) : peekByte (touch s t key n) k = peekByte s k :=
  foldl_keeps (P := fun x => peekByte x k = peekByte s k) (fun _ _ h => by rw [peekByte_fillLine]; exact h) _ s rfl
@[simp] theorem touch_cx (s : State) (t key n : Nat) : (touch s t key n).cx = s.cx :=
  foldl_keeps (P := fun x => x.cx = s.cx) (fun _ _ h => by rw [fillLine_cx]; exact h) _ s rfl

/-! ### Writes -/

/-- A byte written is read back, and no other byte changes. -/
theorem peekByte_pokeByte (s : State) (t key : Nat) (b : Byte) (k : Nat) :
    peekByte (pokeByte s t key b) k = if k = key then b else peekByte s k := by
  unfold pokeByte
  cases h : alook s.l2 (key / 64) with
  | none =>
    show peekByte (dramSet s key b) k = _
    unfold peekByte
    show (match alook s.l2 (k / 64) with | some x => _ | none => dramByte (dramSet s key b) k) = _
    cases h2 : alook s.l2 (k / 64) with
    | none => simp only [dramByte_dramSet]
    | some x =>
      have : k ≠ key := fun e => by rw [e, h] at h2; cases h2
      simp [this]
  | some l =>
    show (match alook (aset s.l2 (key / 64) _) (k / 64) with | some x => x.data.getD (k % 64) 0 | none => dramByte s k) = _
    by_cases hk : k / 64 = key / 64
    · rw [hk, alook_aset_self]
      show ((padTo 64 l.data).set (key % 64) b).getD (k % 64) 0 = _
      have hlen : key % 64 < (padTo 64 l.data).length := by
        have := Nat.mod_lt key (by decide : 0 < 64)
        simp only [padTo, List.length_append, List.length_replicate]; omega
      by_cases e : k = key
      · rw [if_pos e, e]
        simp only [List.getD_eq_getElem?_getD, List.getElem?_set_self hlen]; rfl
      · have e2 : key % 64 ≠ k % 64 := fun h3 => e (by omega)
        rw [if_neg e]
        simp only [List.getD_eq_getElem?_getD, List.getElem?_set_ne e2]
        rw [← List.getD_eq_getElem?_getD, getD_padTo]
        unfold peekByte
        rw [hk, h]
    · rw [alook_aset_ne _ _ hk]
      have e : k ≠ key := fun e => hk (by rw [e])
      rw [if_neg e]
      rfl
/-- Bytes written are read back, and no other byte changes. -/
theorem peekByte_pokeBytes (t : Nat) : ∀ (d : List Byte) (s : State) (key k : Nat),
    peekByte (pokeBytes s t key d) k = if key ≤ k ∧ k < key + d.length then d.getD (k - key) 0 else peekByte s k
  | [], s, key, k => by
    have : ¬(key ≤ k ∧ k < key + ([] : List Byte).length) := by simp
    rw [if_neg this]; rfl
  | b :: r, s, key, k => by
    rw [pokeBytes, peekByte_pokeBytes t r, peekByte_pokeByte]
    by_cases h1 : k = key
    · subst h1
      rw [if_neg (by omega), if_pos rfl, if_pos (by simp)]; simp
    · by_cases h2 : key + 1 ≤ k ∧ k < key + 1 + r.length
      · rw [if_pos h2, if_pos (by simp; omega)]
        have e : k - key = (k - (key + 1)) + 1 := by omega
        rw [e, List.getD_cons_succ]
      · rw [if_neg h2, if_neg h1, if_neg (by simp; omega)]
/-- The counts of copies invalidated leave the bytes. -/
@[simp] theorem peekByte_countDropped (s : State) (l : List Nat) (k : Nat) : peekByte (countDropped s l) k = peekByte s k :=
  foldl_keeps (P := fun x => peekByte x k = peekByte s k) (fun x j h => by
    show peekByte (if _ then _ else _) k = _
    cases x.tiles.any fun e => (alook e.2.l1 j).isSome
    · exact h
    · rw [if_pos rfl, peekByte_countSlice]; exact h) _ s rfl
@[simp] theorem countDropped_cx (s : State) (l : List Nat) : (countDropped s l).cx = s.cx :=
  foldl_keeps (P := fun x => x.cx = s.cx) (fun x j h => by
    show (if _ then _ else _ : State).cx = _
    cases x.tiles.any fun e => (alook e.2.l1 j).isSome
    · exact h
    · rw [if_pos rfl, countSlice_cx]; exact h) _ s rfl
/-- A write at the home slice is read back, and no other byte changes. -/
theorem peekByte_poke (s : State) (t key : Nat) (d : List Byte) (c : Bool) (k : Nat) :
    peekByte (poke s t key d c) k = if key ≤ k ∧ k < key + d.length then d.getD (k - key) 0 else peekByte s k := by
  unfold poke
  refine Eq.trans (foldl_keeps (P := fun x => peekByte x k =
    peekByte (pokeBytes (dropLines (if c then touch s t key d.length else countDropped (touch s t key d.length) (linesOf key d.length))
      (linesOf key d.length) (!c)) t key d) k) ?_ _ _ rfl) ?_
  · intro s x h
    show peekByte (if _ then _ else _) k = _
    by_cases h1 : (decide (key ≤ 64 * x) && decide (64 * (x + 1) ≤ key + d.length)) = true
    · rw [if_pos h1]; split <;> exact h
    · rw [if_neg h1]; exact h
  · rw [peekByte_pokeBytes, peekByte_dropLines]
    cases c <;> simp
theorem pokeByte_cx (s : State) (t k : Nat) (b : Byte) : (pokeByte s t k b).cx = s.cx := by
  unfold pokeByte; split <;> rfl
theorem pokeBytes_cx (t : Nat) : ∀ (d : List Byte) (s : State) (key : Nat), (pokeBytes s t key d).cx = s.cx
  | [], _, _ => rfl
  | b :: r, s, key => by rw [pokeBytes, pokeBytes_cx t r, pokeByte_cx]
@[simp] theorem poke_cx (s : State) (t key : Nat) (d : List Byte) (c : Bool) : (poke s t key d c).cx = s.cx := by
  unfold poke
  refine Eq.trans (foldl_keeps (P := fun x => x.cx = s.cx) ?_ _ _ ?_) rfl
  · intro s x h
    show (if _ then _ else _ : State).cx = _
    by_cases h1 : (decide (key ≤ 64 * x) && decide (64 * (x + 1) ≤ key + d.length)) = true
    · rw [if_pos h1]; split <;> exact h
    · rw [if_neg h1]; exact h
  · rw [pokeBytes_cx]
    show (if _ then _ else _ : State).cx = _
    cases c
    · exact (countDropped_cx ..).trans (touch_cx ..)
    · exact touch_cx ..
theorem peek_length (s : State) : ∀ (n key : Nat), (peek s key n).length = n
  | 0, _ => rfl
  | n + 1, key => by simp [peek, peek_length s n]
theorem peek_getD (s : State) : ∀ (n key i : Nat), i < n → (peek s key n).getD i 0 = peekByte s (key + i)
  | 0, _, _, h => absurd h (Nat.not_lt_zero _)
  | n + 1, key, 0, _ => by simp [peek]
  | n + 1, key, i + 1, h => by
    have := peek_getD s n (key + 1) i (by omega)
    simp only [peek, List.getD_cons_succ, this]
    congr 1; omega
theorem peek_congr {s t : State} (n : Nat) : ∀ (key : Nat), (∀ i, i < n → peekByte t (key + i) = peekByte s (key + i)) →
    peek t key n = peek s key n := by
  induction n with
  | zero => intro _ _; rfl
  | succ n ih =>
    intro key h
    have h0 := h 0 (by omega)
    simp only [Nat.add_zero] at h0
    simp only [peek, h0]
    rw [ih (key + 1) fun i hi => by have := h (i + 1) (by omega); rwa [show key + (i + 1) = key + 1 + i by omega] at this]
/-- What is written is read back. -/
theorem peek_poke (s : State) (t key : Nat) (d : List Byte) (c : Bool) : peek (poke s t key d c) key d.length = d := by
  apply List.ext_getElem
  · rw [peek_length]
  · intro i h1 h2
    have e := peek_getD (poke s t key d c) d.length key i h2
    rw [peekByte_poke, if_pos (by omega), show key + i - key = i by omega] at e
    rw [List.getD_eq_getElem?_getD, List.getElem?_eq_getElem h1] at e
    rw [List.getD_eq_getElem?_getD, List.getElem?_eq_getElem h2] at e
    simpa using e

/-! ### Translation and errors -/

theorem useTlb_ok {s s1 : State} {m : Nat} {t : Tlb} {va : Nat} {w f : Bool} {key : Nat} (h : useTlb s m t va w f = .ok key s1) : s1 = s := by
  unfold useTlb at h
  split at h
  · cases h
  · split at h
    · cases h
    · cases h; rfl
/-- A translation keeps the context and every byte: it can only fill a TLB and bring lines into L2. -/
theorem translate_ok {s s1 : State} {p : Nat} {e : Engine} {va : Nat} {w f : Bool} {key : Nat}
    (h : translate s p e va w f = .ok key s1) : s1.cx = s.cx ∧ ∀ k, peekByte s1 k = peekByte s k := by
  unfold translate at h
  simp only [] at h
  split at h
  · rw [useTlb_ok h]; exact ⟨rfl, fun _ => rfl⟩
  · split at h
    · cases h
    · split at h
      · rw [useTlb_ok h]; exact ⟨rfl, fun _ => rfl⟩
      · have ht : ∀ (ks : List Nat) (n : Nat), (ks.foldl (fun s k => touch s n k 8) s).cx = s.cx
            ∧ ∀ k, peekByte (ks.foldl (fun s k => touch s n k 8) s) k = peekByte s k := fun ks n =>
          foldl_keeps (P := fun x => x.cx = s.cx ∧ ∀ k, peekByte x k = peekByte s k)
            (fun x j hx => ⟨by rw [touch_cx]; exact hx.1, fun k => by rw [peekByte_touch]; exact hx.2 k⟩) _ _ ⟨rfl, fun _ => rfl⟩
        split at h
        · cases h
        · split at h
          · cases h
          · rw [useTlb_ok h]
            refine ⟨?_, fun k => ?_⟩
            · rw [updTile_cx]; exact (ht _ _).1
            · rw [peekByte_updTile]; exact (ht _ _).2 k
/-- Where no error is met, the correction of errors does nothing. -/
theorem eccCorrect_none {s : State} {key n : Nat} (h : ∀ l ∈ linesOf key n, eccLine s l ≠ 1) : eccCorrect s key n = s := by
  unfold eccCorrect
  generalize linesOf key n = ls at h
  induction ls with
  | nil => rfl
  | cons a r ih =>
    have e : eccCorrectLine s a = s := if_pos (h a (List.mem_cons_self ..))
    rw [List.foldl_cons, e]
    exact ih fun l hl => h l (List.mem_cons_of_mem _ hl)
theorem foldl_max_zero {α : Type} (f : α → Nat) : ∀ (l : List α) (a : Nat), l.foldl (fun a x => max a (f x)) a = 0 →
    a = 0 ∧ ∀ x ∈ l, f x = 0
  | [], _, h => ⟨h, fun _ hx => nomatch hx⟩
  | y :: r, a, h => by
    obtain ⟨h1, h2⟩ := foldl_max_zero f r _ h
    have h1 : max a (f y) = 0 := h1
    refine ⟨by omega, fun x hx => ?_⟩
    cases hx with
    | head => omega
    | tail _ hx => exact h2 x hx
/-- No line of a range without errors holds one. -/
theorem eccLine_zero {s : State} {key n : Nat} (h : eccLevel s key n = 0) : ∀ l ∈ linesOf key n, eccLine s l = 0 :=
  (foldl_max_zero (eccLine s) _ 0 h).2
theorem eccCorrect_zero {s : State} {key n : Nat} (h : eccLevel s key n = 0) : eccCorrect s key n = s :=
  eccCorrect_none fun l hl => by rw [eccLine_zero h l hl]; decide

/-! ### The canonical form -/

theorem memoryWf_congr {s t : State} (h : memoryWf s) (h1 : t.mem = s.mem) (h2 : t.tags = s.tags) : memoryWf t := by
  unfold memoryWf; rw [h1, h2]; exact h
theorem memoryWf_dramSet {s : State} (h : memoryWf s) (key : Nat) (b : Byte) : memoryWf (dramSet s key b) :=
  ⟨memWf_memSet h.1 _ _, h.2⟩
theorem memoryWf_dramWrite : ∀ (d : List Byte) {s : State} (_ : memoryWf s) (key : Nat), memoryWf (dramWrite s key d)
  | [], _, h, _ => h
  | b :: r, _, h, key => memoryWf_dramWrite r (memoryWf_dramSet h key b) (key + 1)
theorem memoryWf_chargeDram {s : State} (h : memoryWf s) (key n t : Nat) : memoryWf (chargeDram s key n t) := by
  unfold chargeDram; split
  · exact memoryWf_congr h rfl rfl
  · exact h
theorem memoryWf_surveyCount {s : State} (h : memoryWf s) (d o n : Nat) : memoryWf (surveyCount s d o n) :=
  memoryWf_congr h (surveyCount_mem ..) (surveyCount_tags ..)
theorem memoryWf_countWrite {s : State} (h : memoryWf s) (l : Nat) : memoryWf (countWrite s l) :=
  memoryWf_surveyCount (memoryWf_surveyCount h _ _ _) _ _ _
theorem memoryWf_evictLine {s : State} (h : memoryWf s) (l : Nat) : memoryWf (evictLine s l) := by
  unfold evictLine
  split
  · exact h
  · refine memoryWf_congr (memoryWf_dramWrite ((padTo 64 _).take 64) (s := if _ then _ else _) ?_ _) rfl rfl
    split
    · exact memoryWf_countWrite (memoryWf_chargeDram h _ _ _) _
    · exact h
theorem memoryWf_makeRoomL2 {s : State} (h : memoryWf s) (l : Nat) : memoryWf (makeRoomL2 s l) := by
  rcases makeRoomL2_cases s l with e | ⟨x, e⟩ <;> rw [e]
  · exact h
  · exact memoryWf_evictLine h x
theorem memoryWf_fetchLine {s : State} (h : memoryWf s) (t l : Nat) : memoryWf (fetchLine s t l) := by
  unfold fetchLine
  apply memoryWf_surveyCount
  apply memoryWf_surveyCount
  apply memoryWf_chargeDram
  split <;> exact memoryWf_congr h rfl rfl
theorem memoryWf_fillLine {s : State} (h : memoryWf s) (t l : Nat) : memoryWf (fillLine s t l) := by
  unfold fillLine
  split
  · rw [claimed_mem]; exact memoryWf_congr h rfl rfl
  · split
    · exact memoryWf_surveyCount h _ _ _
    · exact memoryWf_fetchLine (memoryWf_makeRoomL2 h l) t l
theorem memoryWf_countDropped {s : State} (h : memoryWf s) (l : List Nat) : memoryWf (countDropped s l) :=
  foldl_keeps (P := memoryWf) (fun x j hx => by
    show memoryWf (if _ then _ else _)
    split
    · exact memoryWf_surveyCount hx _ _ _
    · exact hx) _ s h
theorem memoryWf_touch {s : State} (h : memoryWf s) (t key n : Nat) : memoryWf (touch s t key n) :=
  foldl_keeps (P := memoryWf) (fun _ _ hx => memoryWf_fillLine hx _ _) _ _ h
theorem memoryWf_pokeByte {s : State} (h : memoryWf s) (t k : Nat) (b : Byte) : memoryWf (pokeByte s t k b) := by
  unfold pokeByte; split
  · exact memoryWf_congr h rfl rfl
  · exact memoryWf_dramSet h _ _
theorem memoryWf_pokeBytes (t : Nat) : ∀ (d : List Byte) {s : State} (_ : memoryWf s) (k : Nat), memoryWf (pokeBytes s t k d)
  | [], _, h, _ => h
  | b :: r, _, h, k => memoryWf_pokeBytes t r (memoryWf_pokeByte h t k b) (k + 1)
theorem memoryWf_poke {s : State} (h : memoryWf s) (t key : Nat) (d : List Byte) (c : Bool) : memoryWf (poke s t key d c) := by
  unfold poke
  have h0 : memoryWf (dropLines (if c then touch s t key d.length else countDropped (touch s t key d.length) (linesOf key d.length))
      (linesOf key d.length) (!c)) := by
    refine memoryWf_congr (s := if c then _ else _) ?_ rfl rfl
    cases c
    · exact memoryWf_countDropped (memoryWf_touch h t key d.length) _
    · exact memoryWf_touch h t key d.length
  refine foldl_keeps (P := memoryWf) ?_ _ _ (memoryWf_pokeBytes t d h0 key)
  intro s x hs
  show memoryWf (if _ then _ else _)
  by_cases h1 : (decide (key ≤ 64 * x) && decide (64 * (x + 1) ≤ key + d.length)) = true
  · rw [if_pos h1]; split <;> exact memoryWf_congr hs rfl rfl
  · rw [if_neg h1]; exact hs
theorem memoryWf_writeBack {s : State} (h : memoryWf s) (l : Nat) (keep : Bool) : memoryWf (writeBack s l keep) := by
  unfold writeBack
  split
  · exact h
  · rename_i x _
    have h1 : memoryWf (if x.dirty = true then setEcc (countWrite (chargeDram (dramWrite s (l * 64) ((padTo 64 x.data).take 64)) (l * 64) 64 x.tenant) l) l
        (eccL2 s l) (eccL2 s l) else s) := by
      split
      · exact memoryWf_congr (memoryWf_countWrite (memoryWf_chargeDram (memoryWf_dramWrite _ h _) _ _ _) _) rfl rfl
      · exact h
    cases keep with
    | true => exact memoryWf_congr h1 rfl rfl
    | false => exact memoryWf_congr h1 rfl rfl
theorem memoryWf_pokeThrough {s : State} (h : memoryWf s) (key : Nat) (d : List Byte) : memoryWf (pokeThrough s key d) :=
  foldl_keeps (P := memoryWf) (fun s l hx => by
    show memoryWf (if _ then _ else _)
    split
    · exact hx
    · exact memoryWf_writeBack hx _ _) _ _ (memoryWf_poke h noTenant key d false)

end Sys2Proof.Machine
end

