-- ==== Sys2Proof/Laws/Records.lean ====
section
/-! SUPPORT. What a write of device memory and a record change: memory, caches, record rings, messages to the host and the
bytes charged to tenants, and nothing else. -/
namespace Sys2Proof.Machine

/-- Two dies differ at most in their record rings, messages and tenants, in the survey's counts, and in packets that wait. -/
def dieRecordsOnly (x y : Die) : Prop :=
  y = { x with err := y.err, pf := y.pf, answers := y.answers, hostHeld := y.hostHeld, tenants := y.tenants, counts := y.counts
               inbox := y.inbox, outbox := y.outbox, uet := y.uet, uetNext := y.uetNext, rodNext := y.rodNext, uetAcks := y.uetAcks }
/-- Two tiles differ at most in their caches. -/
def cachesOnly (x y : Tile) : Prop := y = { x with l1 := y.l1, ic := y.ic, l1Bad := y.l1Bad, icBad := y.icBad }
/-- Two states differ at most in device memory, its caches and the claims of the host's lines, in the record rings, messages and
counts of dies, in the DRAM bytes charged to tenants, and in the free values used up. -/
def recordsOnly (s t : State) : Prop :=
  t = { s with tiles := t.tiles, dies := t.dies, mem := t.mem, l2 := t.l2, ecc := t.ecc, hostLines := t.hostLines, free := t.free }
    ∧ (∀ d, dieRecordsOnly (dieAt s d) (dieAt t d)) ∧ (∀ n, cachesOnly (tileAt s n) (tileAt t n))
    ∧ ∀ d n, tenantAt t d n = { tenantAt s d n with dramused := (tenantAt t d n).dramused }
theorem recordsOnly_refl (s : State) : recordsOnly s s := ⟨rfl, fun _ => rfl, fun _ => rfl, fun _ _ => rfl⟩
theorem recordsOnly_trans {a b c : State} (h : recordsOnly a b) (k : recordsOnly b c) : recordsOnly a c := by
  obtain ⟨h1, h2, h3, h4⟩ := h
  obtain ⟨k1, k2, k3, k4⟩ := k
  refine ⟨?_, fun d => ?_, fun n => ?_, fun d n => ?_⟩
  · rw [k1, h1]
  · have h := h2 d
    have k := k2 d
    unfold dieRecordsOnly at *
    rw [k, h]
  · have h := h3 n
    have k := k3 n
    unfold cachesOnly at *
    rw [k, h]
  · rw [k4, h4]
theorem recordsOnly_fold {α : Type} {f : State → α → State} (h : ∀ s x, recordsOnly s (f s x)) (l : List α) (s : State) :
    recordsOnly s (l.foldl f s) :=
  foldl_keeps (P := fun t => recordsOnly s t) (fun t x ht => recordsOnly_trans ht (h t x)) l s (recordsOnly_refl s)
/-- A change of the memory fields only. -/
theorem recordsOnly_mem {s t : State} (h : t = { s with mem := t.mem, l2 := t.l2, ecc := t.ecc, hostLines := t.hostLines, free := t.free }) : recordsOnly s t := by
  rw [h]; exact ⟨rfl, fun _ => rfl, fun _ => rfl, fun _ _ => rfl⟩
/-- A change of a die in its records and messages. -/
theorem recordsOnly_updDie {s : State} {d : Nat} {f : Die → Die}
    (h : ∀ x, f x = { x with err := (f x).err, pf := (f x).pf, answers := (f x).answers, hostHeld := (f x).hostHeld
                             counts := (f x).counts, inbox := (f x).inbox, outbox := (f x).outbox, uet := (f x).uet
                             uetNext := (f x).uetNext, rodNext := (f x).rodNext, uetAcks := (f x).uetAcks }) :
    recordsOnly s (updDie s d f) := by
  refine ⟨rfl, fun e => ?_, fun _ => rfl, fun e n => ?_⟩
  · by_cases he : e = d
    · subst he
      rw [dieAt_updDie]
      unfold dieRecordsOnly
      rw [h]
    · rw [dieAt_updDie_ne _ _ he]; rfl
  · by_cases he : e = d
    · subst he
      unfold tenantAt
      rw [dieAt_updDie, h]
    · unfold tenantAt
      rw [dieAt_updDie_ne _ _ he]
theorem recordsOnly_charge (s : State) (key n t : Nat) : recordsOnly s (chargeDram s key n t) := by
  unfold chargeDram
  split
  · refine ⟨rfl, fun e => ?_, fun _ => rfl, fun e m => ?_⟩
    · by_cases he : e = homeDie key
      · subst he; unfold updTenant; rw [dieAt_updDie]; rfl
      · unfold updTenant; rw [dieAt_updDie_ne _ _ he]; rfl
    · by_cases he : e = homeDie key
      · subst he
        unfold updTenant tenantAt; rw [dieAt_updDie]
        by_cases hm : m = t
        · subst hm; simp only [alook_aset_self, Option.getD_some]
        · simp only [alook_aset_ne _ _ hm]
      · unfold updTenant tenantAt; rw [dieAt_updDie_ne _ _ he]
  · exact recordsOnly_refl s
theorem recordsOnly_setEcc (s : State) (l m n : Nat) : recordsOnly s (setEcc s l m n) := recordsOnly_mem rfl
theorem recordsOnly_surveyCount (s : State) (d o n : Nat) : recordsOnly s (surveyCount s d o n) := by
  unfold surveyCount
  split
  · exact recordsOnly_refl s
  · exact recordsOnly_updDie fun _ => rfl
theorem recordsOnly_countWrite (s : State) (l : Nat) : recordsOnly s (countWrite s l) :=
  recordsOnly_trans (recordsOnly_surveyCount s _ _ 1) (recordsOnly_surveyCount _ _ _ 1)
theorem recordsOnly_dramWrite : ∀ (d : List Byte) (s : State) (k : Nat), recordsOnly s (dramWrite s k d)
  | [], s, _ => recordsOnly_refl s
  | b :: r, s, k => recordsOnly_trans (recordsOnly_mem (s := s) (t := dramSet s k b) rfl) (recordsOnly_dramWrite r _ (k + 1))
theorem recordsOnly_evictLine (s : State) (l : Nat) : recordsOnly s (evictLine s l) := by
  unfold evictLine
  split
  · exact recordsOnly_refl s
  · rename_i x _
    refine recordsOnly_trans (b := if x.dirty then countWrite (chargeDram s (l * 64) 64 x.tenant) l else s) ?_
      (recordsOnly_trans (recordsOnly_dramWrite _ _ _) (recordsOnly_mem rfl))
    split
    · exact recordsOnly_trans (recordsOnly_charge ..) (recordsOnly_countWrite ..)
    · exact recordsOnly_refl s
theorem recordsOnly_makeRoomL2 (s : State) (l : Nat) : recordsOnly s (makeRoomL2 s l) := by
  rcases makeRoomL2_cases s l with e | ⟨x, e⟩ <;> rw [e]
  · exact recordsOnly_refl s
  · exact recordsOnly_evictLine s x
theorem recordsOnly_fetchLine (s : State) (t l : Nat) : recordsOnly s (fetchLine s t l) := by
  unfold fetchLine
  refine recordsOnly_trans (recordsOnly_trans (recordsOnly_trans ?_ (recordsOnly_charge _ _ _ _)) (recordsOnly_surveyCount _ _ _ 1))
    (recordsOnly_surveyCount _ _ _ 1)
  split <;> exact recordsOnly_mem rfl
theorem recordsOnly_fillLine (s : State) (t l : Nat) : recordsOnly s (fillLine s t l) := by
  unfold fillLine
  split
  · rw [claimed_mem]; exact recordsOnly_mem rfl
  · split
    · exact recordsOnly_surveyCount ..
    · exact recordsOnly_trans (recordsOnly_makeRoomL2 s l) (recordsOnly_fetchLine _ t l)
theorem recordsOnly_countDropped (s : State) (l : List Nat) : recordsOnly s (countDropped s l) :=
  recordsOnly_fold (fun s x => by
    show recordsOnly s (if _ then _ else _)
    split
    · exact recordsOnly_surveyCount ..
    · exact recordsOnly_refl s) _ _
theorem recordsOnly_touch (s : State) (t key n : Nat) : recordsOnly s (touch s t key n) :=
  recordsOnly_fold (fun _ _ => recordsOnly_fillLine _ _ _) _ _
theorem tileAt_dropLines (s : State) (l : List Nat) (b : Bool) (n : Nat) :
    tileAt (dropLines s l b) n = { tileAt s n with
      ic := (tileAt s n).ic.filter fun x => !(l.contains x.1)
      icBad := (tileAt s n).icBad.filter fun x => !(l.contains x)
      l1Bad := if b then (tileAt s n).l1Bad.filter fun x => !(l.contains x) else (tileAt s n).l1Bad
      l1 := if b then (tileAt s n).l1.filter fun x => !(l.contains x.1) else (tileAt s n).l1 } := by
  unfold tileAt dropLines
  show ((alook (s.tiles.map _) n).getD _) = _
  induction s.tiles with
  | nil => cases b <;> rfl
  | cons e r ih =>
    obtain ⟨j, t⟩ := e
    by_cases h : j = n
    · subst h; simp [alook]
    · unfold alook at ih ⊢
      rw [List.map_cons, List.find?_cons_of_neg (by simpa using h), List.find?_cons_of_neg (by simpa using h)]
      exact ih
theorem recordsOnly_dropLines (s : State) (l : List Nat) (b : Bool) : recordsOnly s (dropLines s l b) :=
  ⟨rfl, fun _ => rfl, fun n => by rw [tileAt_dropLines]; rfl, fun _ _ => rfl⟩
theorem recordsOnly_pokeByte (s : State) (t k : Nat) (b : Byte) : recordsOnly s (pokeByte s t k b) := by
  unfold pokeByte; split <;> exact recordsOnly_mem rfl
theorem recordsOnly_pokeBytes (t : Nat) : ∀ (d : List Byte) (s : State) (k : Nat), recordsOnly s (pokeBytes s t k d)
  | [], s, _ => recordsOnly_refl s
  | b :: r, s, k => recordsOnly_trans (recordsOnly_pokeByte s t k b) (recordsOnly_pokeBytes t r _ (k + 1))
theorem recordsOnly_poke (s : State) (t key : Nat) (d : List Byte) (c : Bool) : recordsOnly s (poke s t key d c) := by
  unfold poke
  refine recordsOnly_trans (recordsOnly_trans (b := if c then touch s t key d.length else countDropped (touch s t key d.length) (linesOf key d.length))
    (by split
        · exact recordsOnly_touch s t key d.length
        · exact recordsOnly_trans (recordsOnly_touch s t key d.length) (recordsOnly_countDropped ..))
    (recordsOnly_trans (recordsOnly_dropLines _ (linesOf key d.length) (!c)) (recordsOnly_pokeBytes t d _ key))) (recordsOnly_fold ?_ _ _)
  intro s x
  show recordsOnly s (if _ then _ else _)
  by_cases h1 : (decide (key ≤ 64 * x) && decide (64 * (x + 1) ≤ key + d.length)) = true
  · rw [if_pos h1]; split <;> exact recordsOnly_setEcc ..
  · rw [if_neg h1]; exact recordsOnly_refl s
theorem recordsOnly_writeBack (s : State) (l : Nat) (keep : Bool) : recordsOnly s (writeBack s l keep) := by
  unfold writeBack
  split
  · exact recordsOnly_refl s
  · rename_i x _
    have h1 : recordsOnly s (if x.dirty = true then setEcc (countWrite (chargeDram (dramWrite s (l * 64) ((padTo 64 x.data).take 64)) (l * 64) 64 x.tenant) l) l
        (eccL2 s l) (eccL2 s l) else s) := by
      split
      · exact recordsOnly_trans (recordsOnly_trans (recordsOnly_trans (recordsOnly_dramWrite _ _ _) (recordsOnly_charge _ _ _ _)) (recordsOnly_countWrite _ _)) (recordsOnly_setEcc ..)
      · exact recordsOnly_refl s
    cases keep with
    | true => exact recordsOnly_trans h1 (recordsOnly_mem rfl)
    | false => exact recordsOnly_trans h1 (recordsOnly_mem rfl)
theorem recordsOnly_pokeThrough (s : State) (key : Nat) (d : List Byte) : recordsOnly s (pokeThrough s key d) :=
  recordsOnly_trans (recordsOnly_poke s noTenant key d false) (recordsOnly_fold (fun s l => by
    show recordsOnly s (if _ then _ else _)
    split
    · exact recordsOnly_refl s
    · exact recordsOnly_writeBack _ _ _) _ _)
theorem recordsOnly_ringPut (s : State) (d : Nat) (r : Ring) (n : Nat) (b : List Byte) : recordsOnly s (ringPut s d r n b).1 := by
  unfold ringPut
  simp only []
  split
  · exact recordsOnly_refl s
  · split
    · exact recordsOnly_refl s
    · exact recordsOnly_pokeThrough ..
/-- A packet that leaves waits at a router or in an inbox. -/
theorem recordsOnly_sendPacket (s : State) (p : Packet) : recordsOnly s (sendPacket s p) := by
  unfold sendPacket
  simp only []
  split
  · exact recordsOnly_updDie fun _ => rfl
  · apply recordsOnly_updDie
    intro x
    split
    · rfl
    · split <;> rfl
theorem recordsOnly_tellHost (s : State) (d : Nat) (b : List Byte) : recordsOnly s (tellHost s d b) := by
  unfold tellHost
  split
  · apply recordsOnly_updDie
    intro x
    split <;> rfl
  · split
    · exact recordsOnly_updDie fun _ => rfl
    · exact recordsOnly_sendPacket ..
/-- An error record changes nothing but memory, the die's ring, and what the host is told. -/
theorem recordsOnly_writeNumbered (s : State) (d n : Nat) (x : ErrRec) : recordsOnly s (writeNumbered s d n x) := by
  unfold writeNumbered
  extract_lets x r b
  split
  · cases r.last with
    | none => exact recordsOnly_refl s
    | some y => exact recordsOnly_trans (recordsOnly_pokeThrough ..) (recordsOnly_updDie fun _ => rfl)
  · have h : recordsOnly s (updDie (ringPut s d { r with number := max r.number (n + 1) } 128 b).1 d fun y =>
        { y with err := (ringPut s d { r with number := max r.number (n + 1) } 128 b).2 }) :=
      recordsOnly_trans (recordsOnly_ringPut ..) (recordsOnly_updDie fun _ => rfl)
    show recordsOnly s (if 3 ≤ x.sev then _ else _)
    split
    · exact recordsOnly_trans h (recordsOnly_tellHost ..)
    · exact h
theorem recordsOnly_writeRecord (s : State) (d : Nat) (x : ErrRec) : recordsOnly s (writeRecord s d x) := recordsOnly_writeNumbered ..
theorem recordsOnly_freeRecord (s : State) (d : Nat) (x : ErrRec) : recordsOnly s (freeRecord s d x) :=
  recordsOnly_trans (recordsOnly_writeRecord s d x) (recordsOnly_mem rfl)
theorem recordsOnly_cx {s t : State} (h : recordsOnly s t) : t.cx = s.cx := by rw [h.1]
theorem recordsOnly_tasks {s t : State} (h : recordsOnly s t) (d : Nat) : (dieAt t d).tasks = (dieAt s d).tasks := by
  have := h.2.1 d
  unfold dieRecordsOnly at this
  rw [this]

end Sys2Proof.Machine
end

