-- ==== Sys2Proof/Laws/Retire.lean ====
section
/-! SUPPORT. What performing an instruction changes: the queues, the repeat state, its counter, and nothing else. -/
namespace Sys2Proof.Machine

/-- C's supply of operands touches the queues of L, S, M and X only, and no entry's number. -/
theorem supply_queuesOnly (c : Ctx) : queuesOnly c c.supply := rfl
theorem seqs_supplied (p : Entry → Bool) (f : Entry → Option (List Word)) (q : List Entry) :
    seqs (q.map fun x => if p x then { x with vals := f x } else x) = seqs q := by
  simp only [seqs, List.map_map]
  apply List.map_congr_left
  intro x _
  simp only [Function.comp]
  split <;> rfl
@[simp] theorem supply_seqs (c : Ctx) (e : Engine) : seqs (c.supply.queue e) = seqs (c.queue e) := by
  cases e <;> first | rfl | exact seqs_supplied _ _ _
@[simp] theorem supply_hq (c : Ctx) : c.supply.hq = c.hq := rfl
@[simp] theorem supply_qC (c : Ctx) : c.supply.qC = c.qC := rfl
@[simp] theorem supply_rep (c : Ctx) (e : Engine) : c.supply.rep e = c.rep e := by cases e <;> rfl
theorem queuesOnly_trans {a b c : Ctx} (h : queuesOnly a b) (k : queuesOnly b c) : queuesOnly a c := by
  unfold queuesOnly at *
  rw [k, h]
theorem queuesOnly_pop (c : Ctx) (e : Engine) : queuesOnly c (c.pop e) := by
  unfold Ctx.pop
  split
  · rfl
  · cases e <;> rfl
theorem queuesOnly_setRep (c : Ctx) (e : Engine) (r : RepState) : queuesOnly c (c.setRep e r) := by cases e <;> rfl
theorem pop_hq_handler {c : Ctx} (h : c.handler = true) : (c.pop .c).hq = c.hq.tail := by simp [Ctx.pop, h]
theorem pop_qC_handler {c : Ctx} (h : c.handler = true) : (c.pop .c).qC = c.qC := by simp [Ctx.pop, h]
theorem pop_queue {c : Ctx} {e : Engine} (h : (e = .c && c.handler) = false) (f : Engine) :
    (c.pop e).queue f = if f = e then (c.queue e).tail else c.queue f := by
  unfold Ctx.pop
  rw [h]
  simp [Ctx.queue_setQueue]
theorem pop_queue_ne (c : Ctx) {e f : Engine} (h : f ≠ e) : (c.pop e).queue f = c.queue f := by
  unfold Ctx.pop
  split
  · cases f <;> rfl
  · simp [Ctx.queue_setQueue, h]
theorem pop_hq {c : Ctx} {e : Engine} (h : (e = .c && c.handler) = false) : (c.pop e).hq = c.hq := by
  unfold Ctx.pop
  rw [h]
  simp
@[simp] theorem setRep_queue (c : Ctx) (e f : Engine) (r : RepState) : (c.setRep e r).queue f = c.queue f := by cases e <;> cases f <;> rfl
theorem pop_setRep (c : Ctx) (e : Engine) (r : RepState) : (c.setRep e r).pop e = (c.pop e).setRep e r := by
  unfold Ctx.pop
  cases e <;> simp [Ctx.setRep, Ctx.setQueue, Ctx.queue]
/-- A repeat concerns L, S and V only. -/
theorem rep_other {c : Ctx} {e : Engine} (h : (c.rep e).active = true) : e = .l ∨ e = .s ∨ e = .v := by
  cases e <;> simp_all [Ctx.rep]
theorem seqs_tail (q : List Entry) : seqs q.tail = (seqs q).tail := by cases q <;> rfl
/-- The marks of issue. -/
theorem queuesOnly_mark (c : Ctx) (n : Nat) : queuesOnly c (c.markIssue n) := rfl
@[simp] theorem mark_queue (c : Ctx) (n : Nat) (f : Engine) : (c.markIssue n).queue f = c.queue f := by cases f <;> rfl
@[simp] theorem mark_rep (c : Ctx) (n : Nat) (f : Engine) : (c.markIssue n).rep f = c.rep f := by cases f <;> rfl
@[simp] theorem mark_hq (c : Ctx) (n : Nat) : (c.markIssue n).hq = c.hq := rfl
@[simp] theorem mark_qC (c : Ctx) (n : Nat) : (c.markIssue n).qC = c.qC := rfl
@[simp] theorem mark_handler (c : Ctx) (n : Nat) : (c.markIssue n).handler = c.handler := rfl
/-- The three ends of an issued instruction: a marker, a repeat that goes on, and any other. -/
theorem retire_marker {i : Issue} (c : Ctx) (e : Engine) (k : Option Nat) (h : i.marker = true) :
    c.retire e k i = ((c.markIssue (issueCycles e)).pop e).supply := by simp [Ctx.retire, h]
theorem retire_again {i : Issue} {c : Ctx} {e : Engine} (k : Option Nat) (h : i.marker = false) (ha : (c.rep e).active = true)
    (h1 : 1 < (c.rep e).remaining) :
    c.retire e k i = (c.markIssue (issueCycles e)).setRep e { c.rep e with remaining := (c.rep e).remaining - 1, k := (c.rep e).k + 1 } := by
  simp [Ctx.retire, h, ha, h1]
theorem retire_last {i : Issue} {c : Ctx} {e : Engine} (k : Option Nat) (h : i.marker = false)
    (hr : ((c.rep e).active && decide (1 < (c.rep e).remaining)) = false) :
    c.retire e k i = if e = .c then ((((c.markIssue (issueCycles e)).setRep e {}).pop e).ccComplete k e i.seq).supply
      else (((c.markIssue (issueCycles e)).setRep e {}).pop e).ccComplete k e i.seq := by
  unfold Ctx.retire
  simp only [h, hr, Bool.false_eq_true, if_false]
/-- The cases of an end. -/
theorem retire_cases (c : Ctx) (e : Engine) (i : Issue) :
    i.marker = true ∨ (i.marker = false ∧ (c.rep e).active = true ∧ 1 < (c.rep e).remaining)
      ∨ (i.marker = false ∧ ((c.rep e).active && decide (1 < (c.rep e).remaining)) = false) := by
  cases i.marker <;> cases (c.rep e).active <;> by_cases h : 1 < (c.rep e).remaining <;> simp [h]
/-- What `retire` does to the queues and to nothing else, its counter apart. -/
theorem retire_none_queuesOnly (c : Ctx) (e : Engine) (i : Issue) : queuesOnly c (c.retire e none i) := by
  have h := queuesOnly_trans (queuesOnly_trans (queuesOnly_mark c (issueCycles e)) (queuesOnly_setRep _ e {})) (queuesOnly_pop _ e)
  rcases retire_cases c e i with h1 | ⟨h1, h2, h3⟩ | ⟨h1, h2⟩
  · rw [retire_marker c e none h1]
    exact queuesOnly_trans (queuesOnly_trans (queuesOnly_mark c _) (queuesOnly_pop _ e)) (supply_queuesOnly _)
  · rw [retire_again none h1 h2 h3]
    exact queuesOnly_trans (queuesOnly_mark c _) (queuesOnly_setRep _ _ _)
  · rw [retire_last none h1 h2]
    split
    · exact queuesOnly_trans h (supply_queuesOnly _)
    · exact h
theorem retire_none_others (c : Ctx) (e : Engine) (i : Issue) {f : Engine} (hf : f ≠ e) :
    seqs ((c.retire e none i).queue f) = seqs (c.queue f) := by
  rcases retire_cases c e i with h1 | ⟨h1, h2, h3⟩ | ⟨h1, h2⟩
  · rw [retire_marker c e none h1, supply_seqs, pop_queue_ne _ hf, mark_queue]
  · rw [retire_again none h1 h2 h3, setRep_queue, mark_queue]
  · rw [retire_last none h1 h2]
    simp only [Ctx.ccComplete]
    split
    · rw [supply_seqs, pop_queue_ne _ hf, setRep_queue, mark_queue]
    · rw [pop_queue_ne _ hf, setRep_queue, mark_queue]
/-- What a pop leaves at the queue of its engine. -/
theorem pop_end {c d : Ctx} {e : Engine} (h1 : d.handler = c.handler) (h2 : d.hq = c.hq) (h3 : d.qC = c.qC)
    (h4 : d.queue e = c.queue e) :
    if (decide (e = .c) && c.handler) = true then (d.pop e).hq = c.hq.tail ∧ (d.pop e).qC = c.qC
    else seqs ((d.pop e).queue e) = seqs (c.queue e).tail ∧ (d.pop e).hq = c.hq := by
  split
  · rename_i h
    simp only [Bool.and_eq_true, decide_eq_true_eq] at h
    obtain ⟨rfl, h⟩ := h
    rw [pop_hq_handler (h1.trans h), pop_qC_handler (h1.trans h), h2, h3]
    exact ⟨rfl, rfl⟩
  · rename_i h
    have h' : (decide (e = .c) && d.handler) = false := by rw [h1]; simpa using h
    rw [pop_queue h', pop_hq h', if_pos rfl, h4, h2]
    exact ⟨rfl, rfl⟩
/-- An instruction performed without a counter. -/
theorem performed_retire (e : Engine) (s : State) : Performed e s { s with cx := s.cx.retire e none s.iss } := by
  refine ⟨rfl, retire_none_queuesOnly .., fun f hf => retire_none_others _ _ _ hf, ?_⟩
  rcases retire_cases s.cx e s.iss with h1 | ⟨h1, h2, h3⟩ | ⟨h1, h2⟩
  · rw [if_neg (by simp [repeats, h1])]
    show if _ then (s.cx.retire e none s.iss).hq = _ ∧ (s.cx.retire e none s.iss).qC = _ else
      seqs ((s.cx.retire e none s.iss).queue e) = _ ∧ (s.cx.retire e none s.iss).hq = _
    rw [retire_marker _ _ _ h1, supply_hq, supply_qC, supply_seqs]
    exact pop_end rfl rfl rfl (mark_queue ..)
  · rw [if_pos (by simp [repeats, h1, h2, h3])]
    show seqs ((s.cx.retire e none s.iss).queue e) = _ ∧ (s.cx.retire e none s.iss).hq = _ ∧
      ((s.cx.retire e none s.iss).rep e).remaining = _ ∧ ((s.cx.retire e none s.iss).rep e).k = _
    rw [retire_again _ h1 h2 h3, setRep_queue, mark_queue, Ctx.setRep_hq, Ctx.rep_setRep _ _ _ _ (rep_other h2)]
    simp
  · have hr : repeats s e = false := by
      simp only [Bool.and_eq_false_iff] at h2
      rcases h2 with h2 | h2 <;> simp [repeats, h2]
    rw [hr, if_neg Bool.false_ne_true]
    show if _ then (s.cx.retire e none s.iss).hq = _ ∧ (s.cx.retire e none s.iss).qC = _ else
      seqs ((s.cx.retire e none s.iss).queue e) = _ ∧ (s.cx.retire e none s.iss).hq = _
    rw [retire_last _ h1 h2]
    have h5 := pop_end (c := s.cx) (d := (s.cx.markIssue (issueCycles e)).setRep e {}) (e := e) (by simp) (by simp) (by simp)
      (by rw [setRep_queue, mark_queue])
    simp only [Ctx.ccComplete]
    by_cases he : e = .c
    · rw [if_pos he, supply_hq, supply_qC, supply_seqs]
      exact h5
    · rw [if_neg he]
      exact h5
theorem performed_done (e : Engine) (s : State) : ∃ t, done e s = .next t ∧ Performed e s t := ⟨_, rfl, performed_retire e s⟩
/-- A meaning that ends in `done` performs its instruction. -/
theorem completes_done {e : Engine} {i : Instr} {s u : State} (h : exec i s = done e u) : Completes e i s u := by
  obtain ⟨t, h1, h2⟩ := performed_done e u
  exact ⟨t, by rw [h]; exact h1, h2⟩

/-! ### With a counter -/

theorem asyncTrap_cases (c : Ctx) (t : Trap) : c.asyncTrap t = c ∨ c.asyncTrap t = { c with nested := c.nested ++ [t] }
    ∨ c.asyncTrap t = { c with asyncDue := some t } := by
  unfold Ctx.asyncTrap
  split
  · exact .inl rfl
  · split
    · exact .inr (.inl rfl)
    · split
      · exact .inl rfl
      · exact .inr (.inr rfl)
theorem asyncTrap_queue (c : Ctx) (t : Trap) (f : Engine) : (c.asyncTrap t).queue f = c.queue f := by
  rcases asyncTrap_cases c t with h | h | h <;> rw [h] <;> cases f <;> rfl
theorem asyncTrap_hq (c : Ctx) (t : Trap) : (c.asyncTrap t).hq = c.hq := by
  rcases asyncTrap_cases c t with h | h | h <;> rw [h]
theorem asyncTrap_handler (c : Ctx) (t : Trap) : (c.asyncTrap t).handler = c.handler := by
  rcases asyncTrap_cases c t with h | h | h <;> rw [h]
theorem asyncTrap_rep (c : Ctx) (t : Trap) (f : Engine) : (c.asyncTrap t).rep f = c.rep f := by
  rcases asyncTrap_cases c t with h | h | h <;> rw [h] <;> cases f <;> rfl
@[simp] theorem ccComplete_queue (c : Ctx) (k : Option Nat) (e : Engine) (n : Nat) (f : Engine) :
    (c.ccComplete k e n).queue f = c.queue f := by
  unfold Ctx.ccComplete
  split
  · rfl
  · split
    · exact asyncTrap_queue ..
    · cases f <;> rfl
@[simp] theorem ccComplete_hq (c : Ctx) (k : Option Nat) (e : Engine) (n : Nat) : (c.ccComplete k e n).hq = c.hq := by
  unfold Ctx.ccComplete
  split
  · rfl
  · split
    · exact asyncTrap_hq ..
    · rfl
@[simp] theorem ccComplete_handler (c : Ctx) (k : Option Nat) (e : Engine) (n : Nat) : (c.ccComplete k e n).handler = c.handler := by
  unfold Ctx.ccComplete
  split
  · rfl
  · split
    · exact asyncTrap_handler ..
    · rfl
@[simp] theorem ccComplete_rep (c : Ctx) (k : Option Nat) (e : Engine) (n : Nat) (f : Engine) :
    (c.ccComplete k e n).rep f = c.rep f := by
  unfold Ctx.ccComplete
  split
  · rfl
  · split
    · exact asyncTrap_rep ..
    · cases f <;> rfl
theorem queuesOnly_asyncTrap {c d : Ctx} (h : queuesOnly c d) (t : Trap) : queuesOnly (c.asyncTrap t) (d.asyncTrap t) := by
  rw [h]
  unfold Ctx.asyncTrap
  by_cases e1 : c.phase = .empty
  · simp only [e1, if_true]
    unfold queuesOnly
    rw [← e1]
  · simp only [e1, if_false]
    cases hd : c.due with
    | none =>
      by_cases e2 : c.asyncDue.isSome = true
      · simp only [e2, if_true]; unfold queuesOnly; rw [← hd]
      · simp only [e2]; unfold queuesOnly; simp [← hd]
    | some x =>
      cases x with
      | stop r => unfold queuesOnly; simp [← hd]
      | preempt r p =>
        by_cases e2 : c.asyncDue.isSome = true
        · simp only [e2, if_true]; unfold queuesOnly; rw [← hd]
        · simp only [e2]; unfold queuesOnly; simp [← hd]
      | debug r =>
        by_cases e2 : c.asyncDue.isSome = true
        · simp only [e2, if_true]; unfold queuesOnly; rw [← hd]
        · simp only [e2]; unfold queuesOnly; simp [← hd]
theorem queuesOnly_ccComplete {c d : Ctx} (h : queuesOnly c d) (k : Option Nat) (e : Engine) (n : Nat) :
    queuesOnly (c.ccComplete k e n) (d.ccComplete k e n) := by
  cases k with
  | none => exact h
  | some j =>
    have hc : d.counter j = c.counter j := by rw [h]; rfl
    simp only [Ctx.ccComplete, hc]
    by_cases e1 : c.counter j = 0
    · rw [if_pos e1, if_pos e1]; exact queuesOnly_asyncTrap h _
    · rw [if_neg e1, if_neg e1]; rw [h]; rfl
/-- A pop and the fall of a counter meet in either order. -/
theorem retire_last_queue {i : Issue} {c : Ctx} {e : Engine} (k : Option Nat) (h : i.marker = false)
    (hr : ((c.rep e).active && decide (1 < (c.rep e).remaining)) = false) (f : Engine) :
    seqs ((c.retire e k i).queue f) = seqs ((c.retire e none i).queue f) := by
  rw [retire_last _ h hr, retire_last _ h hr]
  split <;> simp [Ctx.ccComplete.eq_1]
/-- An instruction performed with a counter. -/
theorem performed_doneCC (e : Engine) (k : Option Nat) (s : State) :
    ∃ t, doneCC e k s = .next t ∧ Performed e { s with cx := lowered s e k } t := by
  refine ⟨_, rfl, ?_⟩
  by_cases hl : (s.iss.marker || repeats s e) = true
  · have e1 : lowered s e k = s.cx := if_pos hl
    have e2 : s.cx.retire e k s.iss = s.cx.retire e none s.iss := by
      rcases retire_cases s.cx e s.iss with h1 | ⟨h1, h2, h3⟩ | ⟨h1, h2⟩
      · rw [retire_marker _ _ _ h1, retire_marker _ _ _ h1]
      · rw [retire_again _ h1 h2 h3, retire_again _ h1 h2 h3]
      · simp only [Bool.and_eq_false_iff] at h2
        rcases h2 with h2 | h2 <;> simp [repeats, h1, h2] at hl
    rw [e1, e2]
    exact performed_retire e s
  · have e1 : lowered s e k = s.cx.ccComplete k e s.iss.seq := if_neg hl
    have hm : s.iss.marker = false := by cases h : s.iss.marker <;> simp_all
    have hr : ((s.cx.rep e).active && decide (1 < (s.cx.rep e).remaining)) = false := by
      cases h : ((s.cx.rep e).active && decide (1 < (s.cx.rep e).remaining))
      · rfl
      · simp_all [repeats]
    obtain ⟨-, p2, p3, p4⟩ := performed_retire e s
    have hq : queuesOnly s.cx (((s.cx.markIssue (issueCycles e)).setRep e {}).pop e) :=
      queuesOnly_trans (queuesOnly_trans (queuesOnly_mark s.cx _) (queuesOnly_setRep _ e {})) (queuesOnly_pop _ e)
    rw [e1]
    refine ⟨rfl, ?_, ?_, ?_⟩
    · show queuesOnly (s.cx.ccComplete k e s.iss.seq) (s.cx.retire e k s.iss)
      rw [retire_last _ hm hr]
      split
      · exact queuesOnly_trans (queuesOnly_ccComplete hq ..) (supply_queuesOnly _)
      · exact queuesOnly_ccComplete hq ..
    · intro f hf
      show seqs ((s.cx.retire e k s.iss).queue f) = seqs ((s.cx.ccComplete k e s.iss.seq).queue f)
      rw [retire_last_queue k hm hr, ccComplete_queue]
      exact p3 f hf
    · have hr' : ∀ c : Ctx, repeats { s with cx := c.ccComplete k e s.iss.seq } e = repeats { s with cx := c } e := by
        intro c; simp [repeats]
      rw [hr']
      have hn : repeats s e = false := by cases h : repeats s e <;> simp_all
      have hn' : repeats { s with cx := s.cx } e = false := hn
      rw [hn', if_neg Bool.false_ne_true]
      rw [hn, if_neg Bool.false_ne_true] at p4
      show if (decide (e = .c) && (s.cx.ccComplete k e s.iss.seq).handler) = true then
        (s.cx.retire e k s.iss).hq = (s.cx.ccComplete k e s.iss.seq).hq.tail ∧ (s.cx.retire e k s.iss).qC = (s.cx.ccComplete k e s.iss.seq).queue .c
        else seqs ((s.cx.retire e k s.iss).queue e) = seqs ((s.cx.ccComplete k e s.iss.seq).queue e).tail ∧ (s.cx.retire e k s.iss).hq = (s.cx.ccComplete k e s.iss.seq).hq
      have e3 : (s.cx.retire e k s.iss).hq = (s.cx.retire e none s.iss).hq := by
        rw [retire_last _ hm hr, retire_last _ hm hr]; split <;> simp [Ctx.ccComplete.eq_1]
      have e4 : (s.cx.retire e k s.iss).qC = (s.cx.retire e none s.iss).qC := by
        have q : ∀ c : Ctx, (c.ccComplete k e s.iss.seq).qC = c.qC := fun c => ccComplete_queue c k e s.iss.seq .c
        rw [retire_last _ hm hr, retire_last _ hm hr]
        split
        · rw [supply_qC, supply_qC, q]; rfl
        · rw [q]; rfl
      rw [retire_last_queue k hm hr, e3, e4, ccComplete_queue, ccComplete_queue, ccComplete_handler, ccComplete_hq]
      exact p4
/-- A meaning that ends in `doneCC` performs its instruction and lowers its counter. -/
theorem completes_doneCC {e : Engine} {i : Instr} {s u : State} {k : Option Nat} (h : exec i s = doneCC e k u) :
    Completes e i s { u with cx := lowered u e k } := by
  obtain ⟨t, h1, h2⟩ := performed_doneCC e k u
  exact ⟨t, by rw [h]; exact h1, h2⟩

end Sys2Proof.Machine
end

