-- ==== Sys2Proof/Laws/CMem.lean ====
section
/-! SUPPORT. What a C access, a load, a store and a release do. -/
namespace Sys2Proof.Machine

/-- A C access that passes its checks goes on at its key, a corrected error written back. -/
theorem cAccess_ok {va : Word} {n : Nat} {wr : Bool} {acc : Nat} {s s1 : State} {key : Nat} {k : Nat → State → Res}
    (h : Reaches s va n wr key s1) (he : acc ≠ 2 → eccLevel s1 key n ≠ 2) :
    cAccess va n wr acc s k = k key (eccCorrect s1 key n) := by
  obtain ⟨h1, h2, h3, h4⟩ := h
  unfold cAccess
  rw [h1, h3]
  simp only [Bool.not_true, Bool.false_eq_true, if_false, h2, ne_eq, not_true_eq_false, h4]
  rw [if_neg (by intro h; simp only [Bool.and_eq_true, decide_eq_true_eq] at h; exact he h.1 h.2)]
/-- A non-canonical address traps. -/
theorem cAccess_bad1 {va : Word} {n acc : Nat} {wr : Bool} {s : State} {k : Nat → State → Res} (h : canonical va = false) :
    cAccess va n wr acc s k = .next (trapAt .c 1 0x703 va s) := by unfold cAccess; simp [h, trap]
/-- A misaligned address traps. -/
theorem cAccess_bad2 {va : Word} {n acc : Nat} {wr : Bool} {s : State} {k : Nat → State → Res} (h : canonical va = true) (h2 : va.toNat % n ≠ 0) :
    cAccess va n wr acc s k = .next (trapAt .c 1 0x702 va s) := by unfold cAccess; simp [h, h2, trap]
/-- Where no line of the tile's L1 is spoiled, nothing is fetched again. -/
theorem refetchL1_none {s : State} {l : Nat} (h : (myTile s).l1Bad.contains l = false) : refetchL1 s l = s := by
  unfold refetchL1; rw [h]; rfl
/-- What a line fetched again leaves: caches and a record. -/
theorem refetchL1_cx (s : State) (l : Nat) : (refetchL1 s l).cx = s.cx := by
  unfold refetchL1; split
  · simp only []
    rw [recordsOnly_cx (recordsOnly_freeRecord ..), updTile_cx]
  · rfl
/-- A load keeps the context. -/
theorem cLoad_cx (s : State) (key n : Nat) (h : Bool) : (cLoad s key n h).2.cx = s.cx := by
  have e := refetchL1_cx s (key / 64)
  unfold cLoad
  generalize refetchL1 s (key / 64) = u at e ⊢
  simp only []
  split
  · exact (touch_cx ..).trans e
  · split
    · exact (touch_cx ..).trans e
    · split
      · exact e
      · exact (touch_cx ..).trans e
/-- A load that meets no spoiled line keeps every byte of device memory. -/
theorem cLoad_peek {s : State} {key : Nat} (hb : (myTile s).l1Bad.contains (key / 64) = false) (n : Nat) (h : Bool) (k : Nat) :
    peekByte (cLoad s key n h).2 k = peekByte s k := by
  unfold cLoad
  rw [refetchL1_none hb]
  simp only []
  split
  · exact peekByte_touch ..
  · split
    · show peekByte (updTile _ _ _) k = _; rw [peekByte_updTile]; exact peekByte_touch ..
    · split
      · rfl
      · show peekByte (updTile _ _ _) k = _; rw [peekByte_updTile]; exact peekByte_touch ..
theorem publish_cx (s : State) : (publish s).cx = { s.cx with stored := [] } := by
  show { (countDropped s _).cx with stored := [] } = _
  rw [countDropped_cx]
theorem publish_peek (s : State) (k : Nat) : peekByte (publish s) k = peekByte s k := peekByte_countDropped s _ k
/-- A release keeps every byte of device memory. -/
theorem releaseAt_peek (sc : Option Scope) (s : State) (k : Nat) : peekByte (releaseAt sc s) k = peekByte s k := by
  unfold releaseAt; split
  · rfl
  · split
    · exact publish_peek ..
    · rfl
  · rfl
/-- A release changes only the list of lines stored. -/
theorem releaseAt_cx (sc : Option Scope) (s : State) : (releaseAt sc s).cx = { s.cx with stored := (releaseAt sc s).cx.stored } ∧ ((releaseAt sc s).cx.stored = [] ∨ (releaseAt sc s).cx.stored = s.cx.stored) := by
  unfold releaseAt; split
  · exact ⟨rfl, .inr rfl⟩
  · split
    · rw [publish_cx]; exact ⟨rfl, .inl rfl⟩
    · exact ⟨rfl, .inr rfl⟩
  · exact ⟨rfl, .inr rfl⟩
/-- An acquire changes only the list of lines stored, and no byte of device memory. -/
theorem acquireAt_cx (sc : Option Scope) (s : State) : acquireAt sc s = { s with cx := { s.cx with stored := (acquireAt sc s).cx.stored } } := by
  unfold acquireAt; split <;> rfl
theorem acquireAt_peek (sc : Option Scope) (s : State) (k : Nat) : peekByte (acquireAt sc s) k = peekByte s k := by
  rw [acquireAt_cx]; rfl
/-- A C store performed is read back at its home, and no other byte changes. -/
theorem storeNow_stored (s : State) (key : Nat) (d : List Byte) : Stored s (storeNow s key d) key d := by
  intro k
  exact peekByte_poke s s.cx.tenant key d true k
/-- A C store performed changes only the list of lines stored. -/
theorem storeNow_cx (s : State) (key : Nat) (d : List Byte) : (storeNow s key d).cx = { s.cx with stored := (storeNow s key d).cx.stored } ∧ key / 64 ∈ (storeNow s key d).cx.stored := by
  unfold storeNow
  simp only [updTile_cx, poke_cx, true_and]
  split
  · rename_i h; simpa using h
  · simp

end Sys2Proof.Machine
end

