-- ==== Sys2Proof/Laws/Encoding.lean ====
section
/-! SUPPORT. Encodings: the fields of a form are read back as they were written, codes stand for what they encode, and signed and packed operands
come back whole. -/
namespace Sys2Proof
theorem formA_fields {major d a b p m : Nat} (hd : d < 64) (ha : a < 64) (hb : b < 64) (hp : p < 16) (hm : m < 16) :
    formA major d a b p m / 2 ^ 26 = major ∧ fld (formA major d a b p m) 20 6 = d ∧ fld (formA major d a b p m) 14 6 = a
      ∧ fld (formA major d a b p m) 8 6 = b ∧ fld (formA major d a b p m) 4 4 = p ∧ fld (formA major d a b p m) 0 4 = m
      ∧ (major < 64 → formA major d a b p m < 2 ^ 32) := by
  unfold formA fld
  refine ⟨by omega, by omega, by omega, by omega, by omega, by omega, by omega⟩
theorem formI_fields {major d a v : Nat} (hd : d < 64) (ha : a < 64) (hv : v < 2 ^ 14) :
    formI major d a v / 2 ^ 26 = major ∧ fld (formI major d a v) 20 6 = d ∧ fld (formI major d a v) 14 6 = a
      ∧ fld (formI major d a v) 0 14 = v ∧ (major < 64 → formI major d a v < 2 ^ 32) := by
  unfold formI fld
  refine ⟨by omega, by omega, by omega, by omega, by omega⟩
theorem formB_fields {major a c v : Nat} (ha : a < 64) (hc : c < 16) (hv : v < 2 ^ 16) :
    formB major a c v / 2 ^ 26 = major ∧ fld (formB major a c v) 20 6 = a ∧ fld (formB major a c v) 16 4 = c
      ∧ fld (formB major a c v) 0 16 = v ∧ (major < 64 → formB major a c v < 2 ^ 32) := by
  unfold formB fld
  refine ⟨by omega, by omega, by omega, by omega, by omega⟩
theorem tc_lt (n : Nat) (i : Int) : tc n i < 2 ^ n := by
  unfold tc
  have h : (0:Int) < 2 ^ n := Int.pow_pos (by decide)
  have h1 := Int.emod_nonneg i (Int.ne_of_gt h)
  have h2 := Int.emod_lt_of_pos i h
  have : ((i % 2 ^ n).toNat : Int) < ((2 ^ n : Nat) : Int) := by rw [Int.toNat_of_nonneg h1]; push_cast; exact h2
  exact_mod_cast this
theorem sx_tc14 {i : Int} (h : WF.simm 14 i = true) : sx 14 (tc 14 i) = i := by
  simp [WF.simm] at h; unfold sx tc
  split <;> omega
theorem sx_tc16 {i : Int} (h : WF.simm 16 i = true) : sx 16 (tc 16 i) = i := by
  simp [WF.simm] at h; unfold sx tc
  split <;> omega
theorem sx_tc32 {i : Int} (h : WF.simm 32 i = true) : sx 32 (tc 32 i) = i := by
  simp [WF.simm] at h; unfold sx tc
  split <;> omega
theorem decode_ok {e : Engine} {w : Nat} {y : Option Nat} {i : Instr} (hr : readWords e w y = some i) (hw : i.wellFormed = true)
    {long : Bool} (hl : y.isSome = long) (h : words i long = some ⟨e, w, y⟩) : decode e w y = some i := by
  unfold decode
  subst hl
  rw [hr]
  simp only [hw, h, Bool.true_and, decide_true, if_true]
theorem vloc_fields {l : VLoc} (h : WF.vloc l = true) : l.num < 64 ∧ l.bit < 2 ∧ vlocOf l.num l.bit = l := by
  cases l <;> simp [WF.vloc, VLoc.num, VLoc.bit, vlocOf] at * <;> omega
theorem vlocs_three {d a b : VLoc} (h : WF.vlocs [d, a, b] = true) : WF.vloc d = true ∧ WF.vloc a = true ∧ WF.vloc b = true := by
  simp [WF.vlocs] at h; exact h.1
theorem vlocs_two {d a : VLoc} (h : WF.vlocs [d, a] = true) : WF.vloc d = true ∧ WF.vloc a = true := by
  simp [WF.vlocs] at h; exact h.1
theorem ccField_ok {k : Option Nat} (h : WF.cc k = true) : ccField k < 64 ∧ ccOf (ccField k) = k := by
  cases k <;> simp [WF.cc, ccField, ccOf] at * <;> omega
theorem fld_of_div {w lo n v r : Nat} (h : w / 2 ^ lo = r * 2 ^ n + v) (hv : v < 2 ^ n) : fld w lo n = v := by
  unfold fld; rw [h, Nat.mul_comm, Nat.mul_add_mod, Nat.mod_eq_of_lt hv]
theorem ty_code (t : Ty) : t.code < 18 ∧ Ty.ofCode t.code = some t := by cases t <;> decide
theorem cond_code (t : Cond) : t.code < 6 ∧ Cond.ofCode t.code = some t := by cases t <;> decide
theorem cmp_code (t : Cmp) : t.code < 7 ∧ Cmp.ofCode t.code = some t := by cases t <;> decide
theorem efmt_code (t : EFmt) : t.code < 8 ∧ EFmt.ofCode t.code = some t := by cases t <;> decide
theorem mty_code (t : MTy) : t.code < 10 ∧ MTy.ofCode t.code = some t := by cases t <;> decide
theorem rnd_code (t : Rnd) : t.code < 4 ∧ Rnd.ofCode t.code = t := by cases t <;> decide
theorem redOp_code (t : RedOp) : t.code < 3 ∧ RedOp.ofCode t.code = some t := by cases t <;> decide
theorem updFn_code (t : UpdFn) : t.code < 3 ∧ UpdFn.ofCode t.code = some t := by cases t <;> decide
theorem stqStat_code (t : StqStat) : t.code < 3 ∧ StqStat.ofCode t.code = some t := by cases t <;> decide
theorem engine_code (t : Engine) : 1 ≤ t.code ∧ t.code < 7 ∧ Engine.ofCode t.code = some t := by cases t <;> decide
theorem scope_code (t : Scope) : t.code < 6 ∧ Scope.ofCode t.code = some t := by cases t <;> decide
theorem b2n_ok (b : Bool) : b2n b < 2 ∧ decide (b2n b = 1) = b := by cases b <;> decide
theorem ordField_ok (o : Option Scope) : ordField o < 16 ∧ ordOf (ordField o) = o := by
  cases o with
  | none => decide
  | some s => cases s <;> decide
theorem orderWord_ok {c : Nat} (hc : c < 64) {o : AtomOrd} (h : WF.order o = true) :
    orderWord c o < 2 ^ 14 ∧ orderOf (orderWord c o) = some o ∧ fld (orderWord c o) 8 6 = c := by
  obtain ⟨a, b, d, s⟩ := o
  have e : orderWord c ⟨a,b,d,s⟩ = c * 2 ^ 8 + (b2n a * 32 + b2n d * 16 + b2n b * 8 + s.code) := by unfold orderWord; simp only []; omega
  have hs := (scope_code s).1
  have ha := (b2n_ok a).1
  have hb := (b2n_ok b).1
  have hd := (b2n_ok d).1
  refine ⟨by rw [e]; omega, ?_, by rw [e]; unfold fld; omega⟩
  unfold orderOf
  have f0 : fld (orderWord c ⟨a,b,d,s⟩) 0 3 = s.code := by rw [e]; unfold fld; omega
  have f3 : fld (orderWord c ⟨a,b,d,s⟩) 3 1 = b2n b := by rw [e]; unfold fld; omega
  have f4 : fld (orderWord c ⟨a,b,d,s⟩) 4 1 = b2n d := by rw [e]; unfold fld; omega
  have f5 : fld (orderWord c ⟨a,b,d,s⟩) 5 1 = b2n a := by rw [e]; unfold fld; omega
  rw [f0, f3, f4, f5, (scope_code s).2, (b2n_ok a).2, (b2n_ok b).2, (b2n_ok d).2]; rfl
theorem copyWord_ok {x : CopyExt} (h : WF.copy x = true) : copyWord x < 2 ^ 32 ∧ copyOf (copyWord x) = x := by
  obtain ⟨l, a, r, b, c⟩ := x
  simp [WF.copy, WF.g] at h
  have hc := ccField_ok h.2
  unfold copyWord copyOf
  simp only []
  have e1 : fld (l * 2 ^ 26 + a * 2 ^ 20 + r * 2 ^ 14 + b * 2 ^ 8 + ccField c * 2 ^ 2) 26 6 = l := by unfold fld; omega
  have e2 : fld (l * 2 ^ 26 + a * 2 ^ 20 + r * 2 ^ 14 + b * 2 ^ 8 + ccField c * 2 ^ 2) 20 6 = a := by unfold fld; omega
  have e3 : fld (l * 2 ^ 26 + a * 2 ^ 20 + r * 2 ^ 14 + b * 2 ^ 8 + ccField c * 2 ^ 2) 14 6 = r := by unfold fld; omega
  have e4 : fld (l * 2 ^ 26 + a * 2 ^ 20 + r * 2 ^ 14 + b * 2 ^ 8 + ccField c * 2 ^ 2) 8 6 = b := by unfold fld; omega
  have e5 : fld (l * 2 ^ 26 + a * 2 ^ 20 + r * 2 ^ 14 + b * 2 ^ 8 + ccField c * 2 ^ 2) 2 6 = ccField c := by unfold fld; omega
  refine ⟨by omega, ?_⟩
  rw [e1, e2, e3, e4, e5, hc.2]
theorem shortW_eq {e : Engine} {w : Nat} {long : Bool} {x : Words} (h : shortW e w long = some x) : long = false ∧ x = ⟨e, w, none⟩ := by
  cases long <;> simp [shortW] at h; exact ⟨rfl, h.symm⟩
theorem longW_eq {e : Engine} {w y : Nat} {long : Bool} {x : Words} (h : longW e w y long = some x) : long = true ∧ x = ⟨e, w, some y⟩ := by
  cases long <;> simp [longW] at h; exact ⟨rfl, h.symm⟩
theorem vext_fields {bo qd qa qb rnd st t4 sp : Nat} (h0 : bo < 16) (h1 : qd < 2) (h2 : qa < 2) (h3 : qb < 2) (h4 : rnd < 4) (h5 : st < 32) (h6 : t4 < 2) (h7 : sp < 2 ^ 17) :
    let x := vext bo qd qa qb rnd st t4 sp
    fld x 27 1 = qd ∧ fld x 26 1 = qa ∧ fld x 25 1 = qb ∧ fld x 23 2 = rnd ∧ fld x 18 5 = st ∧ fld x 17 1 = t4 ∧ fld x 0 17 = sp ∧ x < 4294967296 := by
  intro x
  have e : x = bo * 268435456 + qd * 134217728 + qa * 67108864 + qb * 33554432 + rnd * 8388608 + st * 262144 + t4 * 131072 + sp := by
    show vext _ _ _ _ _ _ _ _ = _; unfold vext; omega
  clear_value x
  subst e
  unfold fld
  refine ⟨by omega, by omega, by omega, by omega, by omega, by omega, by omega, by omega⟩

end Sys2Proof
end

