-- ==== Sys2Proof/Laws/Scratch.lean ====
section
/-! SUPPORT. What reads and writes of the scratchpad allotment leave, and what the checks of an access say. -/
namespace Sys2Proof.Machine

/-- What a read of ranges of the allotment leaves: the context with fewer marked words, and nothing else but a record. -/
theorem spadMeet_ok {s s1 : State} {l : List (Nat × Nat)} (hm : spadMeet s l = .ok s1) :
    s1.cx = { s.cx with bad := s1.cx.bad } ∧ recordsOnly s { s1 with cx := s.cx } := by
  unfold spadMeet at hm
  split at hm
  · cases hm
  · split at hm
    · cases hm; exact ⟨rfl, recordsOnly_refl s⟩
    · cases hm
      have key : ∀ (x : ErrRec) (b : List Nat), recordsOnly s
          { ({ freeRecord s (dieOf s.cur) x with cx := { (freeRecord s (dieOf s.cur) x).cx with bad := b } } : State) with cx := s.cx } := by
        intro x b
        have h := recordsOnly_freeRecord s (dieOf s.cur) x
        have e := recordsOnly_cx h
        show recordsOnly s { freeRecord s (dieOf s.cur) x with cx := s.cx }
        rw [← e]; exact h
      refine ⟨?_, key _ _⟩
      simp only []; rw [recordsOnly_cx (recordsOnly_freeRecord ..)]
theorem spadMeet_spad {s s1 : State} {l : List (Nat × Nat)} (hm : spadMeet s l = .ok s1) : s1.cx.spad = s.cx.spad := by rw [(spadMeet_ok hm).1]
theorem spadMeet_iss {s s1 : State} {l : List (Nat × Nat)} (hm : spadMeet s l = .ok s1) : s1.iss = s.iss := by
  have h := (spadMeet_ok hm).2.1
  have : ({ s1 with cx := s.cx } : State).iss = s.iss := by rw [h]
  exact this
theorem consuming_ok {s s1 : State} {l : List (Nat × Nat)} {k : State → Res} (hm : spadMeet s l = .ok s1) : consuming l k s = k s1 := by
  unfold consuming; rw [hm]
theorem firstFault_none {l : List (Option Fail)} (h : ∀ x ∈ l, x = none) : firstFault l = none := by
  induction l with
  | nil => rfl
  | cons a r ih =>
    have ha := h a (List.mem_cons_self ..)
    subst ha
    exact ih fun x hx => h x (List.mem_cons_of_mem _ hx)
theorem alignFault_none {v : Word} {n : Nat} (h : v.toNat % n = 0) : alignFault v n = none := by unfold alignFault; rw [if_pos h]
theorem checked_none {e : Engine} {k : State → Res} {s : State} {f : Option Fail} (h : f = none) : checked e f k s = k s := by subst h; rfl
theorem memRead_length (m : List Host.Cell) : ∀ (n a : Nat), (memRead m a n).length = n
  | 0, _ => rfl
  | n + 1, a => by simp [memRead, memRead_length m n]
theorem memRead_congr {m m' : List Host.Cell} : ∀ (n a : Nat), (∀ i, i < n → memGet m' (a + i) = memGet m (a + i)) → memRead m' a n = memRead m a n
  | 0, _, _ => rfl
  | n + 1, a, h => by
    have h0 := h 0 (by omega)
    rw [Nat.add_zero] at h0
    simp only [memRead, h0]
    congr 1
    exact memRead_congr n (a + 1) fun i hi => by have := h (i + 1) (by omega); rwa [show a + (i + 1) = a + 1 + i by omega] at this

end Sys2Proof.Machine
end

