-- ==== Sys2Proof/Laws/Vector.lean ====
section
/-! SUPPORT. What V's sources and destinations do, element by element, and the one law of its plain and exposed instructions. -/
namespace Sys2Proof.Machine

theorem fit_length {α : Type} (n : Nat) (z : α) (l : List α) : (fit n z l).length = n := by
  unfold fit; simp; omega
theorem fit_getD {α : Type} {n k : Nat} (z : α) (l : List α) (h : k < n) : (fit n z l).getD k z = l.getD k z := by
  unfold fit
  simp only [List.getD_eq_getElem?_getD]
  rw [List.getElem?_append]
  by_cases hk : k < l.length
  · rw [if_pos (by simp; omega), List.getElem?_take, if_pos h]
  · rw [if_neg (by simp; omega), List.getElem?_replicate]
    have : l[k]? = none := by simp; omega
    rw [this]
    split <;> rfl
theorem fit_eq {α : Type} {n : Nat} (z : α) {l : List α} (h : l.length = n) : fit n z l = l := by
  unfold fit; rw [List.take_of_length_le (by omega), h, Nat.sub_self]; simp
theorem vr_length (c : Ctx) (v : Nat) : (c.vr v).length = 1024 := fit_length ..
theorem ac_length (c : Ctx) (v : Nat) : (c.ac v).length = 256 := fit_length ..
theorem merge_length (m : BitVec 1024) (a b : List Elem) : (merge m a b).length = min a.length b.length := by unfold merge; simp
theorem pickEach_length (n : Nat) (m : BitVec 1024) (a b : List Elem) : (pickEach n m a b).length = min a.length b.length := by
  unfold pickEach; simp
theorem rowElems_length (r : Row) : (rowElems r).length = 64 := by unfold rowElems; simp
/-- What reading a register leaves: the register's length, and a state that differs in its count of free values. -/
theorem readReg_facts (s : State) (v : Nat) : (readReg s v).1.length = 1024 ∧ (readReg s v).2 = { s with free := (readReg s v).2.free } := by
  unfold readReg
  generalize exposedTo s.cx v = l
  let f : List Elem × State → Exposed → List Elem × State := fun (l, s) x =>
    (if x.bound ≤ cyclesAt s s.cur then merge x.mask l (fit 1024 0 x.data) else pickEach s.free x.mask l (fit 1024 0 x.data),
      { s with free := s.free + 1024 })
  have : ∀ (l : List Exposed) (p : List Elem × State), p.1.length = 1024 → p.2 = { s with free := p.2.free } →
      (l.foldl f p).1.length = 1024 ∧ (l.foldl f p).2 = { s with free := (l.foldl f p).2.free } := by
    intro l
    induction l with
    | nil => intro p h1 h2; exact ⟨h1, h2⟩
    | cons a r ih =>
      intro p h1 h2
      simp only [List.foldl_cons]
      apply ih
      · show (if _ then merge _ _ _ else pickEach _ _ _ _ : List Elem).length = 1024
        split
        · rw [merge_length, h1, fit_length]; rfl
        · rw [pickEach_length, h1, fit_length]; rfl
      · show ({ p.2 with free := _ } : State) = _
        rw [h2]
  exact this l _ (vr_length ..) rfl
theorem readSrc_iss (s : State) (x : VLoc) : (readSrc s x).2.iss = s.iss := by
  cases x with
  | reg v => show (readReg s v).2.iss = _; rw [(readReg_facts s v).2]
  | queue q => rfl
theorem readSrcs_iss : ∀ (l : List VLoc) (s : State), (readSrcs s l).2.iss = s.iss
  | [], _ => rfl
  | x :: r, s => by
    show (readSrcs (readSrc s x).2 r).2.iss = _
    rw [readSrcs_iss r, readSrc_iss]
theorem readSrcs_count : ∀ (l : List VLoc) (s : State), (readSrcs s l).1.length = l.length
  | [], _ => rfl
  | x :: r, s => by
    show (readSrcs (readSrc s x).2 r).1.length + 1 = _
    rw [readSrcs_count r]; rfl
/-- Every source of a ready instruction gives 1,024 elements. -/
theorem readSrcs_length : ∀ (l : List VLoc) (s : State), srcsReady s.cx l = true → ∀ x ∈ (readSrcs s l).1, x.length = 1024
  | [], _, _, x, hx => by cases hx
  | y :: r, s, h, x, hx => by
    have hx : x ∈ (readSrc s y).1 :: (readSrcs (readSrc s y).2 r).1 := hx
    have h := List.all_eq_true.1 h
    rcases List.mem_cons.1 hx with hx | hx
    · subst hx
      cases y with
      | reg v => exact (readReg_facts s v).1
      | queue q =>
        have := h (.queue q) (List.mem_cons_self ..)
        simp only [decide_eq_true_eq, List.filter_cons_of_pos, List.length_cons] at this
        show (((s.cx.lrows q).take 16).flatMap rowElems).length = 1024
        rw [List.length_flatMap]
        have e : ((s.cx.lrows q).take 16).map (fun a => (rowElems a).length) = List.replicate 16 64 := by
          rw [List.eq_replicate_iff]
          refine ⟨by rw [List.length_map, List.length_take]; omega, ?_⟩
          intro b hb
          obtain ⟨a, -, rfl⟩ := List.mem_map.1 hb
          exact rowElems_length a
        rw [e]; rfl
    · refine readSrcs_length r _ ?_ x hx
      refine List.all_eq_true.2 fun z hz => ?_
      have hz' := h z (List.mem_cons_of_mem _ hz)
      cases z with
      | reg v => rfl
      | queue p =>
        simp only [decide_eq_true_eq] at hz' ⊢
        cases y with
        | reg v =>
          have e : (readSrc s (.reg v)).2.cx = s.cx := by show (readReg s v).2.cx = _; rw [(readReg_facts s v).2]
          rw [e]
          rw [List.filter_cons_of_neg (by simp)] at hz'
          exact hz'
        | queue q =>
          show _ ≤ ((s.cx.setL q ((s.cx.lrows q).drop 16)).lrows p).length
          rw [Ctx.lrows_setL]
          by_cases hp : p = q
          · subst hp
            rw [if_pos rfl, List.length_drop]
            rw [List.filter_cons_of_pos (by simp), List.length_cons] at hz'
            omega
          · rw [if_neg hp]
            rw [List.filter_cons_of_neg (by simp; exact fun h => hp h.symm)] at hz'
            exact hz'
theorem readSrcs_get {s : State} {l : List VLoc} (h : srcsReady s.cx l = true) {n : Nat} (hn : n < l.length) : ((readSrcs s l).1.getD n []).length = 1024 := by
  have hn' : n < (readSrcs s l).1.length := by rw [readSrcs_count]; exact hn
  rw [List.getD_eq_getElem?_getD, List.getElem?_eq_getElem hn']
  exact readSrcs_length l s h _ (List.getElem_mem _)

/-! ### Destinations -/

theorem merge_getD (m : BitVec 1024) {a b : List Elem} {k : Nat} (ha : k < a.length) (hb : k < b.length) :
    (merge m a b).getD k 0 = if m.getLsbD k then b.getD k 0 else a.getD k 0 := by
  unfold merge
  simp only [List.getD_eq_getElem?_getD, List.getElem?_map, List.getElem?_zipIdx]
  have hz : (a.zip b)[k]? = some (a[k], b[k]) := by rw [List.getElem?_zip_eq_some]; exact ⟨List.getElem?_eq_getElem ha, List.getElem?_eq_getElem hb⟩
  rw [hz, List.getElem?_eq_getElem ha, List.getElem?_eq_getElem hb]
  simp
theorem chunk_eq {l : List Elem} {n r : Nat} (h : n * r + n ≤ l.length) : (l.drop (n * r)).take n = (List.range n).map fun j => l.getD (n * r + j) 0 := by
  apply List.ext_getElem?
  intro i
  rw [List.getElem?_take, List.getElem?_drop, List.getElem?_map]
  by_cases hi : i < n
  · rw [if_pos hi]
    have : (List.range n)[i]? = some i := by rw [List.getElem?_range hi]
    rw [this]
    simp only [Option.map_some, List.getD_eq_getElem?_getD]
    rw [List.getElem?_eq_getElem (by omega)]; rfl
  · rw [if_neg hi]
    have : (List.range n)[i]? = none := by simp; omega
    rw [this]; rfl
theorem chunks_eq {l : List Elem} {n m : Nat} (hn : 0 < n) (h : l.length = n * m) :
    chunks n l = (List.range m).map fun r => (List.range n).map fun j => l.getD (n * r + j) 0 := by
  unfold chunks
  have e : ceilDiv l.length n = m := by
    unfold ceilDiv
    rw [h]
    rw [show n * m + n - 1 = (n - 1) + n * m by omega, Nat.add_mul_div_left _ _ hn, Nat.div_eq_of_lt (by omega)]; omega
  rw [e]
  apply List.map_congr_left
  intro r hr
  have hr := List.mem_range.1 hr
  apply chunk_eq
  rw [h]
  calc n * r + n = n * (r + 1) := by rw [Nat.mul_succ]
    _ ≤ n * m := Nat.mul_le_mul_left n hr
theorem pushRows_eq (c : Ctx) (q : Nat) {l : List Elem} (h : l.length = 1024) :
    (pushRows c q l).srows q = c.srows q ++ (List.range 16).map fun r =>
      { data := (List.range 64).flatMap fun j => leBytes 4 (l.getD (64 * r + j) 0).toNat, tag := r } := by
  unfold pushRows
  rw [Ctx.srows_setS, if_pos rfl, chunks_eq (n := 64) (m := 16) (by decide) h]
  congr 1
theorem maskFlags_bit (m : BitVec 1024) (l : List (Elem × Nat)) (j : Nat) :
    (maskFlags m l).testBit j = true ↔ ∃ k, k < l.length ∧ m.getLsbD k = true ∧ (l.getD k (0, 0)).2.testBit j = true := by
  unfold maskFlags
  have : ∀ (l : List (Elem × Nat)) (o a : Nat),
      ((l.zipIdx o).foldl (fun a (x, i) => if m.getLsbD i then a ||| x.2 else a) a).testBit j = true ↔
      a.testBit j = true ∨ ∃ k, k < l.length ∧ m.getLsbD (o + k) = true ∧ (l.getD k (0, 0)).2.testBit j = true := by
    intro l
    induction l with
    | nil => intro o a; simp
    | cons x r ih =>
      intro o a
      rw [List.zipIdx_cons, List.foldl_cons, ih]
      have key : (∃ k, k < (x :: r).length ∧ m.getLsbD (o + k) = true ∧ ((x :: r).getD k (0, 0)).2.testBit j = true) ↔
          (m.getLsbD o = true ∧ x.2.testBit j = true) ∨ ∃ k, k < r.length ∧ m.getLsbD (o + 1 + k) = true ∧ (r.getD k (0, 0)).2.testBit j = true := by
        constructor
        · rintro ⟨k, hk, h1, h2⟩
          cases k with
          | zero => exact .inl ⟨h1, h2⟩
          | succ k => exact .inr ⟨k, by simpa using hk, by rwa [show o + 1 + k = o + (k + 1) by omega], by simpa using h2⟩
        · rintro (⟨h1, h2⟩ | ⟨k, hk, h1, h2⟩)
          · exact ⟨0, by simp, h1, h2⟩
          · exact ⟨k + 1, by simpa using hk, by rwa [show o + (k + 1) = o + 1 + k by omega], by simpa using h2⟩
      rw [key]
      simp only []
      split
      · rename_i h
        rw [Nat.testBit_or]
        simp only [Bool.or_eq_true, h, true_and]
        exact or_assoc
      · rename_i h
        simp only [h, false_and, false_or, Bool.false_eq_true]
  have := this l 0 0
  rw [Nat.zero_testBit] at this
  simp only [Bool.false_eq_true, false_or, Nat.zero_add] at this
  exact this
theorem setFlags_flagged (c : Ctx) (mask : BitVec 1024) (l : List (Elem × Nat)) (h : l.length = 1024) :
    Flagged c (setFlags c (maskFlags mask l)) mask fun k => (l.getD k (0, 0)).2 := by
  refine ⟨fun n hn => ?_, fun j hj => ?_⟩
  · unfold setFlags; rw [Ctx.cr_setCr, if_neg hn]
  · unfold setFlags
    rw [Ctx.cr_setCr, if_pos rfl, BitVec.getLsbD_or, BitVec.getLsbD_ofNat, Bool.or_eq_true, Bool.and_eq_true, maskFlags_bit, h]
    simp [hj]
theorem Flagged.congr {c c' d : Ctx} {m : BitVec 1024} {f g : Nat → Nat} (h : Flagged c c' m f) (hd : ∀ n, d.cr n = c'.cr n) (hg : ∀ k, k < 1024 → f k = g k) : Flagged c d m g := by
  refine ⟨fun n hn => (hd n).trans (h.1 n hn), fun j hj => ?_⟩
  rw [hd, h.2 j hj]
  refine or_congr Iff.rfl ⟨?_, ?_⟩
  · rintro ⟨k, hk, h1, h2⟩; exact ⟨k, hk, h1, by rwa [← hg k hk]⟩
  · rintro ⟨k, hk, h1, h2⟩; exact ⟨k, hk, h1, by rwa [hg k hk]⟩
/-- A whole list of results written to a destination. -/
theorem writeDst_delivered (now : Nat) (c c1 : Ctx) (d : VLoc) (g : Nat) {l : List Elem} {val : Nat → Elem} (h : l.length = 1024)
    (hc : c1 = { c with csr := c1.csr }) (hv : ∀ k, k < 1024 → l.getD k 0 = val k) :
    Delivered c (writeDst now c1 d (dstMask c d g) l) d g val ∧ ∀ n, (writeDst now c1 d (dstMask c d g) l).cr n = c1.cr n := by
  cases d with
  | reg v =>
    refine ⟨⟨?_, ?_, ?_⟩, fun n => rfl⟩
    · rw [hc]; rfl
    · intro w hw
      show ((overwrite c1 .v v _).setV v _).vr w = _
      rw [Ctx.vr_setV, if_neg hw]
      rw [hc]; rfl
    · intro k hk
      show (((overwrite c1 .v v _).setV v _).vr v).getD k 0 = _
      have hvr : c1.vr v = c.vr v := by rw [hc]; rfl
      rw [Ctx.vr_setV, if_pos rfl, fit_getD _ _ hk, merge_getD _ (by rw [vr_length]; exact hk) (by rw [h]; exact hk), hvr, hv k hk]
      rfl
  | queue q =>
    refine ⟨⟨?_, ?_, ?_⟩, fun n => rfl⟩
    · show pushRows c1 q l = { c with sq := (pushRows c1 q l).sq, csr := c1.csr }
      exact congrArg (fun x : Ctx => { x with sq := (pushRows c1 q l).sq }) hc
    · intro w hw
      show (pushRows c1 q l).srows w = _
      unfold pushRows
      rw [Ctx.srows_setS, if_neg hw]
      rw [hc]; rfl
    · show (pushRows c1 q l).srows q = _
      rw [pushRows_eq c1 q h]
      have : c1.srows q = c.srows q := by rw [hc]; rfl
      rw [this]
      congr 1
      apply List.map_congr_left
      intro r hr
      have hr := List.mem_range.1 hr
      congr 1
      rw [List.flatMap_def, List.flatMap_def]
      congr 1
      apply List.map_congr_left
      intro j hj
      have hj := List.mem_range.1 hj
      rw [hv (64 * r + j) (by omega)]

/-! ### Instructions -/

/-- The one law of V's plain instructions: `f` gives 1,024 elements, element `k` of them `val k`. -/
theorem vInstr_writes {i : Instr} {s : State} {srcs : List VLoc} {d : VLoc} {g : Nat} {f : List (List Elem) → List (Elem × Nat)}
    {val : (Nat → Nat → Elem) → Nat → Elem × Nat} (hi : exec i s = vInstr srcs d g 0 f s)
    (hf : srcsReady s.cx srcs = true → (f (readSrcs s srcs).1).length = 1024
      ∧ ∀ k, k < 1024 → (f (readSrcs s srcs).1).getD k (0, 0) = val (srcLanes s srcs) k) : VWrites i s srcs d g val := by
  unfold VWrites
  simp only []
  by_cases h : srcsReady s.cx srcs = true ∧ dstReady s.cx d 16 = true
  · rw [if_pos h]
    obtain ⟨h1, h2⟩ := h
    obtain ⟨hl, hv⟩ := hf h1
    have hw := writeDst_delivered (cyclesAt s s.cur) (readSrcs s srcs).2.cx (setFlags (readSrcs s srcs).2.cx (maskFlags (dstMask (readSrcs s srcs).2.cx d g) (f (readSrcs s srcs).1)))
      d g (l := (f (readSrcs s srcs).1).map (·.1)) (val := fun k => (val (srcLanes s srcs) k).1) (by rw [List.length_map]; exact hl) rfl (by
        intro k hk
        rw [List.getD_eq_getElem?_getD, List.getElem?_map]
        have := hv k hk
        rw [List.getD_eq_getElem?_getD] at this
        rw [← this, List.getElem?_eq_getElem (by omega)]
        rfl)
    refine ⟨_, ?_, hw.1, (setFlags_flagged _ _ _ hl).congr hw.2 fun k hk => congrArg Prod.snd (hv k hk)⟩
    refine completes_done ?_
    rw [hi]
    unfold vInstr
    rw [h1, h2]
    rfl
  · rw [if_neg h, hi]
    unfold vInstr
    rw [if_pos]
    · rfl
    · simp only [Bool.or_eq_true, Bool.not_eq_true']
      by_cases h1 : srcsReady s.cx srcs = true
      · exact .inr (by simpa using fun h2 => h ⟨h1, h2⟩)
      · exact .inl (by simpa using h1)
theorem vInstr_exposes {i : Instr} {s : State} {srcs : List VLoc} {d : VLoc} {g : Nat} {f : List (List Elem) → List (Elem × Nat)}
    {val : (Nat → Nat → Elem) → Nat → Elem × Nat} {lat : Nat} (hlat : lat ≠ 0) (hi : exec i s = vInstr srcs d g lat f s)
    (hf : srcsReady s.cx srcs = true → (f (readSrcs s srcs).1).length = 1024
      ∧ ∀ k, k < 1024 → (f (readSrcs s srcs).1).getD k (0, 0) = val (srcLanes s srcs) k) : VExposes i s srcs d g lat val := by
  unfold VExposes
  simp only []
  by_cases h : srcsReady s.cx srcs = true ∧ dstReady s.cx d 16 = true
  · rw [if_pos h]
    obtain ⟨h1, h2⟩ := h
    obtain ⟨hl, hv⟩ := hf h1
    let c : Ctx := { setFlags (readSrcs s srcs).2.cx (maskFlags (dstMask (readSrcs s srcs).2.cx d g) (f (readSrcs s srcs).1)) with
        exposed := (readSrcs s srcs).2.cx.exposed ++ [⟨expDest d, dstMask (readSrcs s srcs).2.cx d g, (f (readSrcs s srcs).1).map (·.1), .v, s.iss.seq, cyclesAt s s.cur + 7 + lat, 0⟩] }
    refine ⟨c, (f (readSrcs s srcs).1).map (·.1), completes_done (u := withCx (readSrcs s srcs).2 c) ?_, by rw [List.length_map]; exact hl, ?_, ?_, ?_⟩
    · rw [hi]
      unfold vInstr
      rw [h1, h2]
      simp only [if_neg hlat]
      rfl
    · intro k hk
      rw [List.getD_eq_getElem?_getD, List.getElem?_map]
      have := hv k hk
      rw [List.getD_eq_getElem?_getD] at this
      rw [← this, List.getElem?_eq_getElem (by omega)]
      rfl
    · rfl
    · exact (setFlags_flagged _ _ _ hl).congr (fun n => rfl) fun k hk => congrArg Prod.snd (hv k hk)
  · rw [if_neg h, hi]
    unfold vInstr
    rw [if_pos]
    · rfl
    · simp only [Bool.or_eq_true, Bool.not_eq_true']
      by_cases h1 : srcsReady s.cx srcs = true
      · exact .inr (by simpa using fun h2 => h ⟨h1, h2⟩)
      · exact .inl (by simpa using h1)
theorem map_getD {α β : Type} {l : List α} {k : Nat} (f : α → β) (x : α) (y : β) (h : k < l.length) : (l.map f).getD k y = f (l.getD k x) := by
  rw [List.getD_eq_getElem?_getD, List.getElem?_map, List.getElem?_eq_getElem h, List.getD_eq_getElem?_getD, List.getElem?_eq_getElem h]; rfl
theorem zip_getD {α β : Type} {l : List α} {m : List β} {k : Nat} (x : α) (y : β) (h : k < l.length) (h' : k < m.length) : (l.zip m).getD k (x, y) = (l.getD k x, m.getD k y) := by
  have hz : (l.zip m)[k]? = some (l[k], m[k]) := by rw [List.getElem?_zip_eq_some]; exact ⟨List.getElem?_eq_getElem h, List.getElem?_eq_getElem h'⟩
  rw [List.getD_eq_getElem?_getD, hz, List.getD_eq_getElem?_getD, List.getElem?_eq_getElem h, List.getD_eq_getElem?_getD, List.getElem?_eq_getElem h']; rfl
theorem map1_facts {s : State} {a : VLoc} (f : Elem → Elem × Nat) (h : srcsReady s.cx [a] = true) :
    (((readSrcs s [a]).1.getD 0 []).map f).length = 1024
    ∧ ∀ k, k < 1024 → (((readSrcs s [a]).1.getD 0 []).map f).getD k (0, 0) = f (srcLanes s [a] 0 k) := by
  have h0 := readSrcs_get h (n := 0) (by simp)
  exact ⟨by rw [List.length_map]; exact h0, fun k hk => map_getD f 0 (0, 0) (by omega)⟩
theorem map2_facts {s : State} {a b : VLoc} (f : Elem → Elem → Elem × Nat) (h : srcsReady s.cx [a, b] = true) :
    ((((readSrcs s [a, b]).1.getD 0 []).zip ((readSrcs s [a, b]).1.getD 1 [])).map fun (x, y) => f x y).length = 1024
    ∧ ∀ k, k < 1024 → ((((readSrcs s [a, b]).1.getD 0 []).zip ((readSrcs s [a, b]).1.getD 1 [])).map fun (x, y) => f x y).getD k (0, 0)
        = f (srcLanes s [a, b] 0 k) (srcLanes s [a, b] 1 k) := by
  have h0 := readSrcs_get h (n := 0) (by simp)
  have h1 := readSrcs_get h (n := 1) (by simp)
  refine ⟨by rw [List.length_map, List.length_zip, h0, h1]; rfl, fun k hk => ?_⟩
  rw [map_getD _ ((0 : Elem), (0 : Elem)) (0, 0) (by rw [List.length_zip]; omega), zip_getD _ _ (by omega) (by omega)]
  rfl
theorem map3_facts {s : State} {a b d : VLoc} (f : Elem → Elem → Elem → Elem × Nat) (h : srcsReady s.cx [a, b, d] = true) :
    ((((((readSrcs s [a, b, d]).1.getD 0 []).zip ((readSrcs s [a, b, d]).1.getD 1 [])).zip ((readSrcs s [a, b, d]).1.getD 2 [])).map
      fun ((x, y), z) => f x y z).length = 1024)
    ∧ ∀ k, k < 1024 → (((((readSrcs s [a, b, d]).1.getD 0 []).zip ((readSrcs s [a, b, d]).1.getD 1 [])).zip ((readSrcs s [a, b, d]).1.getD 2 [])).map
      fun ((x, y), z) => f x y z).getD k (0, 0) = f (srcLanes s [a, b, d] 0 k) (srcLanes s [a, b, d] 1 k) (srcLanes s [a, b, d] 2 k) := by
  have h0 := readSrcs_get h (n := 0) (by simp)
  have h1 := readSrcs_get h (n := 1) (by simp)
  have h2 := readSrcs_get h (n := 2) (by simp)
  refine ⟨by rw [List.length_map, List.length_zip, List.length_zip, h0, h1, h2]; rfl, fun k hk => ?_⟩
  rw [map_getD _ (((0 : Elem), (0 : Elem)), (0 : Elem)) (0, 0) (by rw [List.length_zip, List.length_zip]; omega),
    zip_getD _ _ (by rw [List.length_zip]; omega) (by omega), zip_getD _ _ (by omega) (by omega)]
  rfl

end Sys2Proof.Machine
end

