-- ==== Sys2Proof/Tests/Slice0.lean ====
section
/-! SUPPORT. Tests of the model: ill-formed terms refused, words written out from the spec's encodings, small steps with results worked
out by hand from the rules, and for each statement states that meet its hypotheses. -/
open Sys2Proof Sys2Proof.Machine

/-! ### Each check of `wellFormed` refuses an ill-formed term -/

theorem test_wf_registers : Instr.wellFormed (.add 1 2 64) = false ∧ Instr.wellFormed (.aadd 16 0 0) = false ∧ Instr.wellFormed (.sadd 15 0 0) = false
    ∧ Instr.wellFormed (.ldq 8 0 false) = false ∧ Instr.wellFormed (.ldq 0 16 true) = false ∧ Instr.wellFormed (.sel 1 16 2 3) = false
    ∧ Instr.wellFormed (.puta 32 1) = false ∧ Instr.wellFormed (.loop 0 1) = false := by decide
theorem test_wf_immediates : Instr.wellFormed (.addi 1 2 8192) = false ∧ Instr.wellFormed (.addi 1 2 (-8193)) = false
    ∧ Instr.wellFormed (.addiLong 1 2 (2 ^ 31)) = false ∧ Instr.wellFormed (.shli 1 2 64) = false ∧ Instr.wellFormed (.jmp 32768) = false
    ∧ Instr.wellFormed (.enter 64) = false ∧ Instr.wellFormed (.ccwait 0 0) = false ∧ Instr.wellFormed (.gear 4) = false
    ∧ Instr.wellFormed (.ringw 1 0) = false ∧ Instr.wellFormed (.mzero 0 17) = false ∧ Instr.wellFormed (.wstep 0) = false := by decide
theorem test_wf_types : Instr.wellFormed (.ld 1 2 0 .f32 none) = false ∧ Instr.wellFormed (.viadd .f32 (.reg 0) (.reg 1) (.reg 2) 0) = false
    ∧ Instr.wellFormed (.vicmp .i16x2 .eq 1 (.reg 1) (.reg 2) 0) = false ∧ Instr.wellFormed (.vredr .add .i16x2 (.reg 0) (.reg 1) 0) = false
    ∧ Instr.wellFormed (.vcvt .i64 .f32 .rn (.reg 0) (.reg 1) 0) = false
    ∧ Instr.wellFormed (.amoAdd 1 2 3 ⟨true, false, false, .d⟩) = false := by decide
theorem test_wf_vectors : Instr.wellFormed (.vadd (.reg 3) (.reg 40) (.reg 5) 0) = false ∧ Instr.wellFormed (.vadd (.queue 1) (.reg 4) (.reg 5) 2) = false
    ∧ Instr.wellFormed (.vfma (.queue 1) (.reg 4) (.reg 5) 0) = false ∧ Instr.wellFormed (.psetAll 0) = false
    ∧ Instr.wellFormed (.vacs (.reg 0) (.reg 1) (.reg 2) 3) = false ∧ Instr.wellFormed (.vqnt .e4m3 3 .rn none 0 (.reg 0) (.reg 1)) = false
    ∧ Instr.wellFormed (.vqnt .e4m3 0 .rn (some 6) 0 (.reg 0) (.reg 1)) = false := by decide
theorem test_wf_others : Instr.wellFormed (.csrr 1 0x020) = false ∧ Instr.wellFormed (.repV ⟨true, false, false, false, .reg 3⟩) = false
    ∧ Instr.wellFormed (.repL ⟨true, false, false, false, .imm 16384⟩) = false ∧ Instr.wellFormed (.mqstat 8 0 1 0 0) = false
    ∧ Instr.wellFormed (.tlbinv .p 1 2) = false ∧ Instr.wellFormed (.stqLong 16 0 0 false none .none true 0) = false
    ∧ Instr.wellFormed (.cpy false false 1 2 ⟨1, 1, 0, 0, none⟩) = false ∧ Instr.wellFormed (.ccadd 32 1) = false := by decide

/-! ### Words written out from the encodings (Tables 6.3 to 6.13) -/

/-- R233 gives this word of `TOKP S, L, 0` as an example. -/
theorem test_decode_tokp : decode .c 0x64001A00 none = some (.tokp .s .l 0) := by decide
/-- Major 0x01 in [31:26], d 9 in [25:20], a 10 in [19:14], b 11 in [13:8], minor 3. -/
theorem test_decode_div : decode .c 0b00000100100100101000101100000011 none = some (.div 9 10 11) := by decide
/-- Major 0x0C, d 1, a 2, release bit and scope `.d` (3) in [7:4], type `b32` (14); offset 16. -/
theorem test_decode_st : decode .c 0b00110000000100001000000010111110 (some 16) = some (.st 1 2 16 .b32 (some .d)) := by decide
/-- Major 0x0D, d 1, a 2, b 3, operation 0; order word: size bit 5, acquire bit 3, scope `.d`. -/
theorem test_decode_amo : decode .c 0b00110100000100001000001100000000 (some 0b101011) = some (.amoAdd 1 2 3 ⟨true, true, false, .d⟩) := by decide
/-- Major 0x20, d 1, a 2, register 0x021 in imm14. -/
theorem test_decode_csrw : decode .c 0b10000000000100001000000000100001 none = some (.csrw 1 2 0x021) := by decide
/-- L major 0x0A, d = 100001 (count from a register, `.sd`), a 5. -/
theorem test_decode_rep : decode .l 0b00101010000100010100000000000000 none = some (.repL ⟨true, false, false, false, .reg 5⟩) := by decide
/-- L major 0x06, d = 32 + 3, a 4; stream 2. -/
theorem test_decode_strm : decode .l 0b00011010001100010000000000000000 (some 2) = some (.strm 3 4 2) := by decide
/-- S major 0x06, window 5. -/
theorem test_decode_wstep : decode .s 0b00011000000000000000000000000101 none = some (.wstep 5) := by decide
/-- V major 0x0C, d 1, a 2, b 3, type `i32` (10), guard 4; and its long form with the queue bit of a. -/
theorem test_decode_viadd : decode .v 0b00110000000100001000001101001010 none = some (.viadd .i32 (.reg 1) (.reg 2) (.reg 3) 4)
    ∧ decode .v 0b00110000000100001000001101001010 (some 0x04000000) = some (.viadd .i32 (.reg 1) (.queue 2) (.reg 3) 4) := by decide
/-- V major 0x20 (`VDIV`) in the long form holds its bound code 14 in [31:28]; without it, no instruction. -/
theorem test_decode_vdiv : decode .v 0b10000000000100001000001100000000 (some 0xE0000000) = some (.vdiv (.reg 1) (.reg 2) (.reg 3) 0)
    ∧ decode .v 0b10000000000100001000001100000000 (some 0) = none := by decide
/-- M major 0x06, cap code 3 in [7:4]. -/
theorem test_decode_mspan : decode .m 0b00011000000000000000000000110000 none = some (.mspan 3) := by decide
/-- X major 0x00, a 1, b 2, both sides virtual; length register 3, counter 7 enabled. -/
theorem test_decode_cpy : decode .x 0b00000000000000000100001000000011 (some (3 * 2 ^ 26 + (32 + 7) * 2 ^ 2))
    = some (.cpy true true 1 2 ⟨3, 0, 0, 0, some 7⟩) := by decide
/-- R198: an instruction with both forms is encoded in its short one, and a queue operand needs the long one. -/
theorem test_encode_forms : encode (.vadd (.reg 1) (.reg 2) (.reg 3) 0) = some ⟨.v, 0x00108300, none⟩
    ∧ encode (.vadd (.reg 1) (.queue 2) (.reg 3) 0) = some ⟨.v, 0x00108300, some 0x04000000⟩ := by decide
/-- R173: a code line whose lane 1 is routed to C holds `SUB g1, g2, g3` there. -/
theorem test_decode_table_word : decodeTableWord 64 (0x1A + 0x00108301 * 2 ^ 32) = some (.sub 1 2 3) := by decide

/-! ### States to test on -/

/-- A page at virtual address 0, read and write, in near memory. -/
def testPage : Tlb := { tenant := 0, vbase := 0, size := 0, pbase := 0, w := true, x := true }
/-- A tile at gear 2 whose TLBs hold the page. -/
def pageTile : Tile := { gear := 2, grant := 2, tlbC := [testPage], tlbL := [testPage], tlbS := [testPage], tlbM := [testPage], tlbX := [testPage] }
/-- A running context with 64 KiB of scratchpad, 16 accumulators and a handler line at 64. -/
def testCtx : Ctx := { phase := .running, spadUnits := 1, accUnits := 1, csr := [(0x002, 61440), (0x003, 65536), (0x004, 65536), (0x009, 64)] }
/-- That context at place 0. -/
def testState : State := { State.reset with cx := testCtx, tiles := [(0, pageTile)] }
/-- That state with `g` registers set. -/
def withG (l : Assoc Word) : State := { testState with cx := { testCtx with g := l } }
/-- That state with a control register set. -/
def withCsr (n : Nat) (v : Word) : State := { testState with cx := testCtx.setCr n v }
/-- A field of the next state, or the default where there is none. -/
def after {α : Type} [Inhabited α] (o : Host.Outcome State Fault Refusal) (f : State → α) : α :=
  match o with
  | .next t => f t
  | _ => default

/-! ### Small steps: results worked out by hand from the rules -/

theorem test_add_wraps : after (exec (.add 3 1 2) (withG [(1, BitVec.allOnes 64), (2, 2)])) (fun t => (t.cx.gr 3).toNat) = 1 := by decide
theorem test_g0_discards : after (exec (.movi 0 5) testState) (fun t => (t.cx.gr 0).toNat) = 0 := by decide
theorem test_sra_sign : after (exec (.srai 3 1 4) (withG [(1, BitVec.ofInt 64 (-256))])) (fun t => (t.cx.gr 3).toInt) = -16 := by decide
theorem test_mulh : after (exec (.mulh 3 1 2) (withG [(1, BitVec.ofInt 64 (-1)), (2, 1)])) (fun t => (t.cx.gr 3).toInt) = -1 := by decide
/-- R210: −7 / 2 = −3 and the remainder −1. -/
theorem test_div_truncates : after (exec (.div 3 1 2) (withG [(1, BitVec.ofInt 64 (-7)), (2, 2)])) (fun t => (t.cx.gr 3).toInt) = -3
    ∧ after (exec (.rem 3 1 2) (withG [(1, BitVec.ofInt 64 (-7)), (2, 2)])) (fun t => (t.cx.gr 3).toInt) = -1 := by decide
theorem test_div_zero : after (exec (.div 3 1 2) (withG [(1, 9)])) (fun t => (t.cx.gr 3).toInt) = -1 := by decide
theorem test_slti_sign : after (exec (.slti 3 1 (-1)) (withG [(1, BitVec.ofInt 64 (-2))])) (fun t => (t.cx.gr 3).toNat) = 1 := by decide
theorem test_bc_taken : after (exec (.bc .ltz 1 (-1)) { withG [(1, BitVec.ofInt 64 (-5))] with iss := { line := 96 } }) (fun t => t.cx.fetch.toNat) = 64 := by decide
theorem test_loop_falls_through : after (exec (.loop 1 (-3)) { withG [(1, 1)] with iss := { line := 96 } })
    (fun t => (t.cx.fetch.toNat, (t.cx.gr 1).toNat)) = (128, 0) := by decide
/-- Little-endian bytes (R6): the low byte at the lowest address. -/
theorem test_store_bytes : after (exec (.st 2 1 8 .b32 none) (withG [(1, 0x100), (2, 0x11223344)]))
    (fun t => [peekByte t 0x108, peekByte t 0x10B, peekByte t 0x10C].map (·.toNat)) = [0x44, 0x11, 0] := by decide
theorem test_load_sign : after (exec (.ld 3 1 0 .i8 none) { withG [(1, 0x100)] with mem := [(0x100, 0x80)] }) (fun t => (t.cx.gr 3).toInt) = -128 := by decide
theorem test_amo_min_signed : after (exec (.amoMin 3 1 2 ⟨false, false, false, .c⟩) { withG [(1, 0x100), (2, 5)] with mem := [(0x100, 0xFF), (0x101, 0xFF), (0x102, 0xFF), (0x103, 0xFF)] })
    (fun t => ((t.cx.gr 3).toNat, (peekByte t 0x100).toNat)) = (0xFFFFFFFF, 0xFF) := by decide
theorem test_misaligned_traps : after (exec (.ld 3 1 0 .b64 none) (withG [(1, 0x104)])) (fun t => (wbits (t.cx.cr 0x006) 0 12, (t.cx.cr 0x00A).toNat, t.cx.fetch.toNat))
    = (0x702, 0x104, 64) := by decide
theorem test_spush : after (exec (.spush 1) (withG [(1, 0x0102030405060708)])) (fun t => ((t.cx.cr 0x004).toNat, (memGet t.cx.spad 65528).toNat)) = (65528, 8) := by decide
theorem test_sysc : after (exec (.sysc 5) { testState with iss := { line := 32 } }) (fun t => (wbits (t.cx.cr 0x006) 0 16, (t.cx.cr 0x007).toNat, t.cx.handler)) = (0x2805, 64, true) := by
  decide
theorem test_eret : after (exec .eret { withCsr 0x008 1 with cx := { (testCtx.setCr 0x008 1).setCr 0x007 0x2000 with handler := true } })
    (fun t => (t.cx.fetch.toNat, t.cx.handler, (t.cx.cr 0x008).toNat)) = (0x2000, false, 0) := by decide
theorem test_ccadd : after (exec (.ccadd 3 (-2)) { testState with cx := { testCtx with cc := [(3, 5)] } }) (fun t => t.cx.counter 3) = 3 := by decide
theorem test_csrs_sets : after (exec (.csrs 3 1 0x031) { withG [(1, 6)] with cx := { (testCtx.setCr 0x031 3) with g := [(1, 6)] } })
    (fun t => ((t.cx.gr 3).toNat, (t.cx.cr 0x031).toNat)) = (3, 7) := by decide
theorem test_csr_supervisor : after (exec (.csrw 3 1 0x009) (withG [(1, 6)])) (fun t => wbits (t.cx.cr 0x006) 0 12) = 0x10E := by decide
theorem test_aaddi : after (exec (.aaddi 1 2 (-1)) testState) (fun t => (t.cx.ar 1).toInt) = -1 := by decide
set_option maxRecDepth 20000 in
theorem test_ldq : after (exec (.ldq 2 3 true) { testState with cx := { testCtx with spad := [(0, 7)] } })
    (fun t => ((t.cx.lrows 2).map fun r => (r.data.length, (r.data.getD 0 0).toNat, r.tag), (t.cx.ar 3).toNat)) = ([(256, 7, 0)], 256) := by decide
theorem test_ldq_full_waits : exec (.ldq 2 3 true) { testState with cx := { testCtx with lq := [(2, List.replicate 32 { data := [] })] } }
    = .next { testState with cx := { testCtx with lq := [(2, List.replicate 32 { data := [] })] } } := rfl
theorem test_wstep : after (exec (.wstep 2) (withCsr 0x032 0xFFFF)) (fun t => (t.cx.cr 0x032).toNat) = 0 := by decide
set_option maxRecDepth 20000 in
theorem test_pset_row : after (exec (.psetRow 1 2) testState) (fun t => ((t.cx.pr 1).getLsbD 128, (t.cx.pr 1).getLsbD 127)) = (true, false) := by decide
theorem test_mspan : after (exec (.mspan 4) testState) (fun t => wbits (t.cx.cr 0x00F) 8 4) = 4 := by decide
theorem test_ringi_bad : after (exec (.ringi 1 2) (withG [(1, 0), (2, 3)])) (fun t => (wbits (t.cx.cr 0x006) 0 12, (t.cx.cr 0x00A).toNat)) = (0x604, 3) := by decide
theorem test_bbset : after (exec (.bbset 1 2) (withG [(1, 64), (2, 0x203)])) (fun t => [memGet t.cx.spad 64, memGet t.cx.spad 65, memGet t.cx.spad 72].map (·.toNat)) = [3, 2, 0] := by
  decide
/-- 1.5 + 2.25 = 3.75, and the greatest number doubled overflows to infinity with the flags overflow and inexact (R400). -/
theorem test_fadd : (addFp32 0x3FC00000#32 0x40100000#32).1 = 0x40700000#32 ∧ (addFp32 0x7F7FFFFF#32 0x7F7FFFFF#32).1 = 0x7F800000#32 := by decide
/-- 2^−126 halved twice is subnormal; a quarter of one unit rounds to even. -/
theorem test_fmul : (mulFp32 0x00800000#32 0x3F000000#32).1 = 0x00400000#32 ∧ (mulFp32 0x40400000#32 0x40A00000#32).1 = 0x41700000#32 := by decide

/-! ### States that meet the hypotheses of the statements -/

/-- The state with the focused context replaced by one that differs from the test context. -/
def withC (c : Ctx) : State := { testState with cx := c }
/-- The test state with die 0 replaced. -/
def withDie (d : Die) : State := { testState with dies := [(0, d)] }
/-- A task of the focused context on die 0. -/
def testTask : Task := { handle := 0, record := List.replicate 128 0, recordVa := 0, tenant := 0, priority := 3, count := 2, placed := 1 }

theorem witness_DivisionResults : (testState.cx.gr 2 = 0) ∧ ((withG [(2, BitVec.allOnes 64)]).cx.gr 2 = BitVec.allOnes 64
      ∧ (withG [(1, BitVec.ofNat 64 (2 ^ 63)), (2, BitVec.allOnes 64)]).cx.gr 1 = BitVec.ofNat 64 (2 ^ 63))
    ∧ (withG [(2, 1)]).cx.gr 2 ≠ 0 ∧ ¬((withG [(2, 1)]).cx.gr 2 = BitVec.allOnes 64 ∧ (withG [(2, 1)]).cx.gr 1 = BitVec.ofNat 64 (2 ^ 63)) := by decide
/-- The last eight bytes of the page: loads, stores and atomics pass their checks. -/
theorem witness_LoadResults : Reaches (withG [(1, 0xFFF0)]) ((withG [(1, 0xFFF0)]).cx.gr 1 + BitVec.ofInt 64 8) 8 false 0xFFF8 (withG [(1, 0xFFF0)])
    ∧ eccLevel (withG [(1, 0xFFF0)]) 0xFFF8 8 = 0 ∧ alook (myTile (eccCorrect (withG [(1, 0xFFF0)]) 0xFFF8 8)).l1 (0xFFF8 / 64) = none :=
  ⟨⟨by decide, by decide, rfl, by decide⟩, by decide, by decide⟩
/-- A store of one byte that waits, whose line the host does not hold. -/
def waitingStore : Pending := { key := 0xFFF8, data := [7], seq := 1 }
/-- An uncorrected word; a store that waits, and one elsewhere; a line that the L1 does not hold, holds, and holds with wrong parity. -/
theorem witness_LoadResults_cases : eccLevel (setEcc testState (0xFFF8 / 64) 2 0) 0xFFF8 8 = 2 ∧ storeMeets (withC { testCtx with sbuf := [waitingStore] }) 0xFFF8 8 = true
    ∧ storeMeets (withC { testCtx with sbuf := [waitingStore] }) 0xFFF0 8 = false ∧ (myTile testState).l1Bad.contains (0xFFF8 / 64) = false ∧ homeDie 0xFFF8 = dieOf testState.cur
    ∧ (myTile { testState with tiles := [(0, { pageTile with l1 := [(1023, [])], l1Bad := [1023] })] }).l1Bad.contains (0xFFF8 / 64) = true := by decide
theorem witness_StoreResults_cases : (∀ l ∈ linesOf 0xFFF8 8, eccLine (withG [(1, 0xFFF0)]) l ≠ 1) ∧ testCtx.sbuf = [] ∧ testState.inp.flag = false ∧ ({ flag := true } : Input).flag = true
    ∧ ({ testCtx with sbuf := [waitingStore] } : Ctx).sbuf = waitingStore :: [] ∧ windowReady (withC { testCtx with sbuf := [waitingStore] }) waitingStore.key waitingStore.data.length true = true := by
  decide
theorem witness_StoreResults : Reaches (withG [(1, 0xFFF0)]) ((withG [(1, 0xFFF0)]).cx.gr 1 + BitVec.ofInt 64 8) 8 true 0xFFF8 (withG [(1, 0xFFF0)])
    ∧ eccLevel (withG [(1, 0xFFF0)]) 0xFFF8 8 ≠ 1 := ⟨⟨by decide, by decide, rfl, by decide⟩, by decide⟩
theorem witness_AtomicResults : Reaches (withG [(1, 0xFFFC)]) ((withG [(1, 0xFFFC)]).cx.gr 1) 4 true 0xFFFC (withG [(1, 0xFFFC)])
    ∧ eccLevel (withG [(1, 0xFFFC)]) 0xFFFC 4 = 0 := ⟨⟨by decide, by decide, rfl, by decide⟩, by decide⟩
theorem witness_FencePublishes : ∃ s : State, ∃ l n, s.cx.sbuf = [] ∧ Scope.k ≠ .c ∧ Scope.k ≠ .t ∧ n ≠ tileOf s.cur ∧ l ∈ s.cx.stored :=
  ⟨withC { testCtx with stored := [5] }, 5, 1, rfl, by decide, by decide, by decide, by decide⟩
theorem witness_FencePublishes_cases : ({ testCtx with sbuf := [waitingStore] } : Ctx).sbuf ≠ [] ∧ 7 ∈ (myTile { testState with tiles := [(0, { pageTile with released := [7] })] }).released := by decide
/-- The test page, not writable. -/
def readOnlyPage : Tlb := { testPage with w := false }
/-- The test tile with that page. -/
def readOnlyTile : Tile := { pageTile with tlbC := [readOnlyPage] }
/-- The test state on that tile. -/
def readOnly : State := { testState with tiles := [(0, readOnlyTile)] }
/-- Bit 57 set and its copies not; an odd address; the locked region without a lock entry; a page that may not be written. -/
theorem witness_AccessTraps : canonical (BitVec.ofNat 64 (2 ^ 57)) = false ∧ (canonical 1 = true ∧ (1 : Word).toNat % tyBytes .b16 ≠ 0)
    ∧ translate (withCsr 0x049 0x10000) 0 .c 8 false false = .trap 0x709
    ∧ translate readOnly 0 .c 8 true false = .fault 3 0 := by
  refine ⟨by decide, by decide, rfl, rfl⟩
theorem witness_Transfers : (testState.cx.gr 1 = 0 ∧ (testState.cx.gr 1).toNat % 32 = 0) ∧ ((withG [(1, 1)]).cx.gr 1 = 1) ∧ ((withG [(1, 31)]).cx.gr 1).toNat % 32 ≠ 0
    ∧ (withG [(1, 31)]).cx.gr 1 ≠ 1 := by decide
theorem witness_TrapEntryRegisters : testState.cx.drained = true ∧ testState.cx.handler = false ∧ testState.cx.cr 0x009 ≠ 0 ∧ (testState.cx.cr 0x009).toNat % 32 = 0
    ∧ ({ cls := 1, code := 0x702 } : Trap).sub = 0 ∧ ({ cls := 1, code := 0x702 } : Trap).own = false := by decide
theorem witness_TrapWithoutHandlerStops :
    let s : State := { withDie { dieDefault with tasks := [testTask] } with cx := testCtx.setCr 0x009 0 }
    s.cx.drained = true ∧ taskAt s (dieOf s.cur) s.cx.task = some testTask ∧ testTask.stopping = none ∧ testTask.state ≠ .retired ∧ s.cx.cr 0x009 = 0 :=
  ⟨by decide, rfl, rfl, by decide, by decide⟩
theorem witness_ExceptionReturn : (testState.cx.cr 0x008).getLsbD 0 = false
    ∧ (let c := (testCtx.setCr 0x008 1).setCr 0x007 33; (c.cr 0x008).getLsbD 0 = true ∧ (c.cr 0x007).toNat % 32 ≠ 0)
    ∧ (let c := (testCtx.setCr 0x008 1).setCr 0x007 32; (c.cr 0x008).getLsbD 0 = true ∧ (c.cr 0x007).toNat % 32 = 0 ∧ c.handler = false)
    ∧ (let c : Ctx := { (((testCtx.setCr 0x008 1).setCr 0x007 32).setCr 0x006 (BitVec.ofNat 64 (2 ^ 63))) with handler := true, report := some (.v, 3), qV := [{ word := 0, ext := none, seq := 3, line := 0 }] }
       (c.cr 0x008).getLsbD 0 = true ∧ (c.cr 0x006).getLsbD 63 = true ∧ c.report = some (.v, 3) ∧ (c.queue .v).head?.map (·.seq) = some 3) := by decide
theorem witness_SystemCall : testState.cx.drained = true ∧ testState.cx.handler = false ∧ testState.cx.cr 0x009 ≠ 0 ∧ (testState.cx.cr 0x009).toNat % 32 = 0 := by decide
/-- The stack pointer one entry above the base, at the base, and at the limit. -/
theorem witness_StackPushPop : (61440 + 8 ≤ ((withCsr 0x004 61448).cx.cr 0x004).toNat) ∧ ((withCsr 0x004 61440).cx.cr 0x004).toNat < 61440 + 8
    ∧ (((withCsr 0x004 65528).cx.cr 0x004).toNat + 8 ≤ ((withCsr 0x004 65528).cx.cr 0x003).toNat ∧ spadMeet (withCsr 0x004 65528) [(65528, 8)] = .ok (withCsr 0x004 65528))
    ∧ (testState.cx.cr 0x003).toNat < (testState.cx.cr 0x004).toNat + 8 := ⟨by decide, by decide, ⟨by decide, rfl⟩, by decide⟩
theorem witness_EnterLeave : ((withCsr 0x004 61440).cx.cr 0x004).toNat < 61440 + 8 * 1 ∧ (testState.cx.cr 0x003).toNat < (testState.cx.cr 0x004).toNat + 8 * 1
    ∧ 61440 + 8 * 63 ≤ ((withCsr 0x004 61944).cx.cr 0x004).toNat
    ∧ (((withCsr 0x004 65032).cx.cr 0x004).toNat + 8 * 63 ≤ 65536 ∧ spadMeet (withCsr 0x004 65032) [(65032, 8 * 63)] = .ok (withCsr 0x004 65032)) :=
  ⟨by decide, by decide, by decide, ⟨by decide, rfl⟩⟩
theorem witness_MarkersPlaced : testState.iss.marker = false ∧ Engine.s ≠ .l ∧ (7 < 8 ∧ 31 < 32 ∧ 63 < 64) := by decide
/-- An earlier entry of the same queue, none; a channel at 254, at 255, with one token, empty; a rendezvous at all heads. -/
theorem witness_MarkersPerformed :
    let x : Entry := { word := 0x64001A00, ext := none, seq := 3, line := 0, marker := true }
    let r : Entry := { word := formA 0x18 0 0 0 0 2, ext := none, seq := 7, line := 0, marker := true }
    let c : Ctx := { testCtx with qC := [r], qL := [r], qS := [r], qV := [r], qM := [r], qX := [r] }
    ({ testCtx with qL := [x] } : Ctx).performedBefore .l 4 = false ∧ testCtx.performedBefore .l 4 = true
      ∧ testCtx.tokens 5 < 255 ∧ (testCtx.setTokens 5 255).tokens 5 = 255 ∧ testCtx.tokens 5 = 0 ∧ 0 < (testCtx.setTokens 5 1).tokens 5
      ∧ (∀ e : Engine, rdvHead 7 (c.queue e) = true ∧ c.performedBefore e 7 = true) ∧ rdvHead 7 (testCtx.queue .x) = false
      ∧ ({ marker := true, vals := some [9] } : Issue).vals = some [9] := by
  refine ⟨by decide, by decide, by decide, by decide, by decide, by decide, fun e => ?_, by decide, rfl⟩
  cases e <;> decide
theorem witness_CountersAndTime : ((0 : Int) ≤ (testCtx.counter 0 : Int) + 65535 ∧ (testCtx.counter 0 : Int) + 65535 ≤ 65535) ∧ (testCtx.counter 0 : Int) + -1 < 0
    ∧ 65535 < ((testCtx.setCounter 3 65535).counter 3 : Int) + 1 ∧ testCtx.counter 0 < 1 ∧ 1 ≤ (testCtx.setCounter 3 1).counter 3 ∧ testCtx.inChart = false
    ∧ (testCtx.setCr 0x000 4096).inChart = true ∧ (testState.cx.gr 1).toNat ≤ datumOf testState 0 ∧ datumOf testState 0 < ((withG [(1, 1)]).cx.gr 1).toNat
    ∧ decodeEntry .c { word := formA 0x1D 0 1 0 0 2, ext := none, seq := 0, line := 0 } = some (.waitt 1) ∧ mayIssue testState .c = true := by decide
theorem witness_ControlRegisterAccess : winBusy testCtx 0x021 = false ∧ winBusy (testCtx.setCr 0x021 (BitVec.ofNat 64 (2 ^ 32))) 0x011 = true
    ∧ 0x009 ∈ [0x009, 0x00E, 0x010] ∧ 0x031 ∉ [0x009, 0x00E, 0x010] ∧ (1 : Word) &&& BitVec.ofNat 64 (csrSv 0x009) ≠ 0 ∧ (1 : Word) &&& BitVec.ofNat 64 (csrSv 0x031) = 0
    ∧ csrRefused (testCtx.setCr 0x004 61440) 0x004 = false ∧ csrRefused (testCtx.setCr 0x004 61432) 0x004 = true := by decide

/-- An empty entry of a queue. -/
def bare (w n : Nat) : Entry := { word := w, seq := n }
/-- A row without its bytes. -/
def noRow : Row := { data := [] }
/-- Words without an error are read as they are. -/
theorem meet_none {s : State} (h : s.cx.bad = []) (l : List (Nat × Nat)) : spadMeet s l = .ok s := by simp [spadMeet, h]
/-- The test state with addresses in `a3` and `a4`. -/
def loadState : State := withC { testCtx with a := [(3, 0xEF00), (4, 64)] }
/-- A full and a bound load queue; the last row below the stack; four units of 64 bytes side by side; four indices of zero. -/
theorem witness_QueueLoads : 32 ≤ (({ testCtx with lq := [(2, List.replicate 32 noRow)] } : Ctx).lrows 2).length
    ∧ bound { testCtx with strm := [(0, { desc := [], queue := 2, contour := false })] } 2 = true
    ∧ (loadState.cx.lrows 2).length < 32 ∧ bound loadState.cx 2 = false := by decide
theorem witness_QueueLoads_rows : (spFault0 loadState 0 0x201 (loadState.cx.ar 3) 256 = none ∧ (loadState.cx.ar 3).toNat % 64 = 0)
    ∧ (((List.range 4).map fun k => loadState.cx.ar 3 + BitVec.ofNat 64 k * loadState.cx.ar 4).all fun v => spFault0 loadState 0 0x201 v 64 = none && v.toNat % 64 = 0) = true
    ∧ (((List.range 4).map fun k => loadState.cx.ar 4 + BitVec.ofNat 64 (4 * k)).all fun v => spFault0 loadState 0 0x201 v 4 = none && v.toNat % 4 = 0) = true := by decide
theorem witness_QueueLoads_words : spadMeet loadState [(0xEF00, 256)] = .ok loadState ∧ spadMeet loadState [(0xEF00, 64), (0xEF40, 64), (0xEF80, 64), (0xEFC0, 64)] = .ok loadState
    ∧ spadMeet loadState [(64, 16)] = .ok loadState ∧ spadMeet loadState [(0xEF00, 64), (0xEF00, 64), (0xEF00, 64), (0xEF00, 64)] = .ok loadState := ⟨meet_none rfl _, meet_none rfl _, meet_none rfl _, meet_none rfl _⟩
/-- A descriptor of one dimension of four units of 4 bytes at 0. -/
def testDesc : List Byte := leBytes 8 0 ++ leBytes 4 4 ++ leBytes 4 1 ++ leBytes 4 1 ++ leBytes 4 1 ++ leBytes 4 4 ++ List.replicate 12 0 ++ [2, 0, 0xFF, 0xFF] ++ List.replicate 20 0
/-- A contoured descriptor: one tile of 4 × 4 units of 16 bytes. -/
def tileDesc : List Byte := leBytes 8 0 ++ leBytes 4 1 ++ leBytes 4 1 ++ leBytes 4 1 ++ leBytes 4 1 ++ List.replicate 16 0 ++ [0, 0, 0xFF, 0xFF] ++ leBytes 4 0
  ++ leBytes 8 (2 ^ 57 + 15 * 2 ^ 48 + 2 * 2 ^ 44 + 2 * 2 ^ 40) ++ List.replicate 8 0
/-- A context with a descriptor at offset 256 of its scratchpad, named by `a1`. -/
def descCtx (d : List Byte) : Ctx := spadWrite { testCtx with a := [(1, 256)] } 256 d
set_option maxRecDepth 20000 in
theorem witness_StreamBindings :
    (let s := withC (descCtx testDesc)
     alook s.cx.strm 0 = none ∧ bound s.cx 2 = false ∧ spFault0 s s.iss.seq 0x201 (s.cx.ar 1) 64 = none ∧ (s.cx.ar 1).toNat % 64 = 0
        ∧ spadMeet s [(spOff (s.cx.ar 1), 64)] = .ok s ∧ memRead s.cx.spad 256 64 = testDesc ∧ descBad testDesc false = false
        ∧ (streamDesc testDesc).legend = 0xFFFF ∧ streamFault s (streamDesc testDesc) false none = none)
    ∧ descBad (testDesc.set 0x29 1) false = true
    ∧ (let s := withC (descCtx tileDesc)
       descBad tileDesc true = false ∧ (∃ l, layoutOf (streamDesc tileDesc).layout = some l ∧ (l.tr && l.blk) = false) ∧ streamFault s (streamDesc tileDesc) true none = none)
    ∧ (∃ y : Stream, alook ({ testCtx with strm := [(7, { desc := testDesc, queue := 1, contour := false })] } : Ctx).strm 7 = some y) :=
  ⟨⟨by decide, by decide, by decide, by decide, rfl, by decide, by decide, by decide, by decide⟩, by decide, ⟨by decide, ⟨_, rfl, by decide⟩, by decide⟩, ⟨_, rfl⟩⟩
/-- A binding with one row left, plain and contoured, and one whose queue is full. -/
theorem witness_StreamRowsPushed :
    (let x : Stream := { desc := testDesc, queue := 2, contour := false }
      let s := withC { testCtx with strm := [(0, x)] }
      let u : State := { s with iss := { seq := x.seq } }
      alook s.cx.strm s.inp.sel = some x ∧ mayPush s x = true ∧ x.contour = false ∧ (streamDesc x.desc).virt = false ∧ x.rows ≤ x.pushed + 1
        ∧ spadMeet u ((rowAddrs (streamDesc x.desc) x.pushed).map fun v => (spOff v, 4)) = .ok u
        ∧ mayPush (withC { testCtx with lq := [(2, List.replicate 32 noRow)] }) x = false)
    ∧ (let x : Stream := { desc := tileDesc, queue := 2, contour := true }
      let s := withC { testCtx with strm := [(0, x)] }
      mayPush s x = true ∧ ∃ l, layoutOf (streamDesc x.desc).layout = some l ∧ ∃ v, spadMeet { s with iss := { seq := 0 } } (contourRanges (streamDesc x.desc) l 0) = .ok v) := by
  refine ⟨⟨by decide, by decide, rfl, by decide, by decide, rfl, by decide⟩, by decide, _, rfl, _, rfl⟩
/-- A virtual descriptor without a legend: its first row is read through the page. -/
def virtDesc : List Byte := (testDesc.set 0x28 6)
set_option maxRecDepth 20000 in
theorem witness_StreamRowsPushed_virtual : let x : Stream := { desc := virtDesc, queue := 2, contour := false }
    x.snap = none ∧ (streamDesc x.desc).virt = true ∧ descBad virtDesc false = false ∧ mayPush (withC { testCtx with strm := [(0, x)] }) x = true
      ∧ (match virtRead { testState with iss := { seq := x.seq } } .l ((rowAddrs (streamDesc x.desc) 0).map fun v => (v.toNat, 4)) with
        | .ok _ _ => true
        | _ => false) = true := by decide
/-- Both marks at the heads of their queues, with and without an addition of an earlier store on its way; one whose partner has been discarded. -/
theorem witness_MarksPassTogether : let c : Ctx := { testCtx with qL := [bare 0x24000000 1], qS := [bare 0x1C000000 1] }
    markHead c .l .markL = some (bare 0x24000000 1) ∧ markHead c .s .markS = some (bare 0x1C000000 1) ∧ (c.skipL = 0 ∧ c.skipS = 0) ∧ (∀ z ∈ c.statq, z.eng = .s → (1 : Nat) ≤ z.seq)
      ∧ ¬(∀ z ∈ ({ c with statq := [{ tenant := 0, layer := 0, role := 0, eng := .s, seq := 0 }] } : Ctx).statq, z.eng = .s → (1 : Nat) ≤ z.seq)
      ∧ mayIssue (withC c) .l = true ∧ mayIssue (withC c) .s = true ∧ (c.rep .l).active = false ∧ (c.rep .s).active = false
      ∧ markHead { c with qS := [] } .s .markS = none ∧ markHead { c with qL := [] } .l .markL = none ∧ 0 < ({ c with skipS := 1 } : Ctx).skipS
      ∧ 0 < ({ c with skipL := 1 } : Ctx).skipL := by decide

/-- The test state with one row in store queue 3, `a2` at the base of the allotment, `a5` in window 1, and a predicate of nothing in `p1`. -/
def storeState : State := withC { testCtx with a := [(2, 256), (3, 4), (5, BitVec.ofNat 64 (2 ^ 36))], sq := [(3, [noRow]), (4, [noRow, noRow])], p := [(1, 0)], csr := testCtx.csr ++ [(0x010, 1)] }
/-- The elements of a row at consecutive words. -/
def rowWords : List Elt := (enabledOf storeState.cx 0 0 4).map fun k => (storeState.cx.ar 2 + BitVec.ofNat 64 (4 * k), slice [] (4 * k) 4)
/-- The element that a store to a window without allowance would post. -/
def postedElt : Elt := (BitVec.ofNat 64 (2 ^ 36), [0])
set_option maxRecDepth 20000 in
theorem witness_QueueStores : storeState.cx.srows 0 = [] ∧ storeState.cx.srows 3 = noRow :: [] ∧ storeFault storeState 4 rowWords (some (storeState.cx.ar 2, 64)) = none
    ∧ allowFault storeState.cx 0 rowWords = none ∧ allDepart storeState.cx 0 rowWords = true ∧ governed storeState.cx = true ∧ governed testCtx = false := by decide
/-- One granule allowed in window 1, and one on its way already. -/
theorem witness_QueueStores_waits :
    let c := { testCtx with csr := [(0x021, BitVec.ofNat 64 (1 + 2 ^ 32)), (0x011, BitVec.ofNat 64 (2 ^ 63))] }
    allowFault c 0 [postedElt] = none ∧ allDepart c 0 [postedElt] = false := by decide
set_option maxRecDepth 20000 in
/-- An index row and a data row; a window step with no write outstanding; nothing enabled. -/
theorem witness_OtherStores : storeState.cx.srows 4 = [noRow] ++ [noRow] ∧ (storeState.cx.srows 3).head? = some noRow ∧ [noRow].length = max 1 (4 / 2 ^ 2) ∧ (4 : Nat) ≠ 3
    ∧ (storeState.cx.srows 0).length < max 1 (4 / 2 ^ 3) ∧ enabledOf storeState.cx 1 0 4 = [] ∧ enabledOf storeState.cx 0 0 4 ≠ [] ∧ spWin (storeState.cx.ar 2) = 0
    ∧ updBlockBad (List.replicate 64 0) = false ∧ storeState.cx.hist = [] ∧ spFault0 storeState 0 0x301 (storeState.cx.ar 2) 64 = none ∧ (storeState.cx.ar 2).toNat % 64 = 0 := by decide
set_option maxRecDepth 20000 in
theorem witness_OtherStores_words : storeFault storeState 4 rowWords none = none
    ∧ ((enabledOf storeState.cx 0 0 4).all fun k => spFault0 storeState 0 0x301 (storeState.cx.ar 2 + BitVec.ofNat 64 (4 * k)) 4 = none
        && (storeState.cx.ar 2 + BitVec.ofNat 64 (4 * k)).toNat % 4 = 0) = true
    ∧ (((enabledOf storeState.cx 0 0 4).flatMap (updAddrs .sgd (updBlock (List.replicate 64 0)) (storeState.cx.ar 2))).all fun y =>
        spFault0 storeState 0 0x301 y.1 y.2 = none && y.1.toNat % y.2 = 0) = true := by decide
theorem witness_OtherStores_meet (l : List (Nat × Nat)) : spadMeet storeState l = .ok storeState := meet_none rfl l

/-- A load queue of sixteen rows, a store queue with room for sixteen more, a register with and without a result on its way to it. -/
def vecCtx : Ctx := { testCtx with lq := [(1, List.replicate 16 noRow)], sq := [(2, List.replicate 16 noRow), (5, List.replicate 17 noRow)], exposed := [⟨.reg 7, 0, [], .v, 1, 5, 0⟩] }
set_option maxRecDepth 20000 in
theorem witness_VectorSources : exposedTo vecCtx 6 = [] ∧ exposedTo vecCtx 7 = [⟨.reg 7, 0, [], .v, 1, 5, 0⟩]
    ∧ 5 ≤ cyclesAt (withC { vecCtx with acct := { cycles := 5000 } }) 0 ∧ 16 ≤ (vecCtx.lrows 1).length ∧ (3 < 1024 ∧ (1023 : Nat) < 1024) := by decide
/-- The readiness under which V's instructions are performed, and under which they wait. -/
theorem witness_VectorReady : (srcsReady vecCtx [.queue 1, .reg 3] = true ∧ dstReady vecCtx (.queue 2) 16 = true ∧ dstReady vecCtx (.reg 3) 16 = true)
    ∧ srcsReady vecCtx [.queue 0] = false ∧ dstReady vecCtx (.queue 5) 16 = false := by decide
theorem witness_VectorInteger : srcsReady vecCtx [.reg 1, .reg 2] = true ∧ dstReady vecCtx (.reg 0) 16 = true ∧ (14 : Nat) ≠ 0 := by decide
/-- Blocks that cannot be decoded stop the dequantisation of their row; a tenant with and one without a governor table. -/
theorem witness_VectorConversions : (srcsReady vecCtx [.reg 1] = true ∧ dstReady vecCtx (.reg 2) 16 = true) ∧ ¬(srcsReady vecCtx [.queue 0] = true ∧ dstReady vecCtx (.reg 2) 16 = true)
    ∧ governed testCtx = false ∧ governed storeState.cx = true ∧ (∃ k h, dequantise [[0xFF]] 0 = .error (k, h)) ∧ ∃ l, dequantise [] 0 = .ok l :=
  ⟨by decide, by decide, by decide, by decide, ⟨_, _, rfl⟩, ⟨_, rfl⟩⟩
set_option maxRecDepth 20000 in
/-- The first result for its register may land; the second for the same register waits for it. -/
theorem witness_VectorExposed :
    let e : Exposed := ⟨.reg 7, 0, [], .v, 1, 5, 0⟩
    let f : Exposed := ⟨.queue 2, 0, [], .v, 3, 5, 0⟩
    let l := [e, e, f]
    l[0]? = some e ∧ tileRuns testState = true ∧ (∃ y ∈ l.take 1, y.dest = e.dest) ∧ (∀ y ∈ l.take 0, y.dest ≠ e.dest) ∧ (∀ y ∈ l.take 2, y.dest ≠ f.dest)
      ∧ ({ e with mask := 1, raced := 2 } : Exposed).mask.getLsbD 0 = true ∧ ({ e with mask := 1, raced := 2 } : Exposed).raced.getLsbD 0 = false
      ∧ ({ f with data := List.replicate 1024 0 } : Exposed).data.length = 1024 := by
  refine ⟨rfl, rfl, ⟨_, .head _, rfl⟩, by decide, by decide, by decide, by decide, List.length_replicate⟩
theorem witness_VectorMoves : dstReady vecCtx (.queue 5) 16 = false ∧ dstReady vecCtx (.queue 2) 16 = true := by decide

/-- The last accumulator of the allotment and one past it; one that an issued `MMA` names; a row of selectors, and one with a reserved bit at 15. -/
theorem witness_MatrixTransfers :
    let c : Ctx := { testCtx with mops := [{ instr := .mma 3 .bf16 .bf16 0 1 0 0 0 none }], lq := [(2, [{ data := List.replicate 15 0 ++ [16] }])], granted := 1 }
    15 + 1 ≤ c.accCount ∧ ¬15 + 2 ≤ c.accCount ∧ accBusy c 15 1 = false ∧ accBusy c 3 1 = true ∧ (∀ m ∈ c.mops, 2 ∉ m.queues)
      ∧ c.lrows 2 = [{ data := List.replicate 15 0 ++ [16] }] ∧ ((List.replicate 15 0 ++ [16] : List Byte).getD 15 0).toNat / 16 % 8 ≠ 0
      ∧ ((List.range 15).all fun j => ((List.replicate 15 0 ++ [16] : List Byte).getD j 0).toNat / 16 % 8 = 0) = true
      ∧ ((List.range 16).all fun j => ((List.replicate 16 0 : List Byte).getD j 0).toNat / 16 % 8 = 0) = true ∧ c.granted ≠ 0 ∧ testCtx.granted = 0
      ∧ dstReady c (.queue 0) 4 = true ∧ dstReady { c with sq := [(0, List.replicate 29 noRow)] } (.queue 0) 4 = false
      ∧ exposedTo c 3 = [] ∧ (∀ w ∈ c.vlast, w.reg ≠ 3) ∧ wbits (dieAt (withDie { dieDefault with slewcfg := 0 }) 0).slewcfg 0 16 = 0 := by decide
/-- A 16-bit type beside an 8-bit one; a step with no pass for `b16`; a legal pair whose four rows of each tile have come, and one with a row still to come. -/
theorem witness_MatrixProduct : classMix .bf16 .i8 = true ∧ (classMix .b16 .b16 = false ∧ passMisuse .b16 .b16 0 = true)
    ∧ (classMix .bf16 .bf16 = false ∧ passMisuse .bf16 .bf16 0 = false ∧ 15 + 1 ≤ testCtx.accCount)
    ∧ mmaNeeds .bf16 .bf16 3 (decide ((0 : Nat) = 1)) (List.replicate 4 noRow) (List.replicate 4 noRow) = (some (List.replicate 4 noRow).length, some (List.replicate 4 noRow).length)
    ∧ (mmaNeeds .mx .mx 3 (decide ((0 : Nat) = 1)) [] []).1 = none := by decide
theorem witness_MatrixProduct_whole : ∃ A B K, mmaTiles .bf16 .bf16 0 1 3 { instr := .mma 3 .bf16 .bf16 0 1 3 0 0 none, rowsA := List.replicate 4 noRow, rowsB := List.replicate 4 noRow } = .ok (A, B, K) :=
  ⟨_, _, _, rfl⟩
/-- One context waits for spans with an `MMA`, in the slot of the test context, on a die that limits no slope; a queued `MPERM` without its row. -/
def spanState : State := { withDie { dieDefault with slewcfg := 0 } with cx := { testCtx with qM := [{ word := 0x00082103, ext := some 0x03000000 }], entitle := 3 } }
theorem witness_SpanArbitration : tileRuns spanState = true ∧ 0 < 8 ∧ slotPlace spanState.cur 0 ∈ residents spanState 0 ∧ spanWant spanState 0 = some 3 ∧ spansFree spanState 0 ≠ 0
    ∧ residents spanState 0 = [0] ∧ riseHeld spanState 0 (2 ^ Nat.log2 (min 3 (spansFree spanState 0))) = false
    ∧ spanWant (withC { testCtx with qM := [{ word := 0x14080000, ext := some 0 }], entitle := 3 }) 0 = none := by
  refine ⟨by decide, by decide, by decide, by decide, by decide, by decide, rfl, by decide⟩
theorem witness_MatrixProduct_ready : testCtx.granted = 0 ∧ ({ testCtx with granted := 1 } : Ctx).granted ≠ 0
    ∧ ({ testCtx with mops := [{ instr := .mma 3 .bf16 .bf16 0 1 3 0 0 none }] } : Ctx).mops[testState.inp.sel]? = some { instr := .mma 3 .bf16 .bf16 0 1 3 0 0 none }
    ∧ (∀ x ∈ ({ testCtx with mops := [{ instr := .mma 3 .bf16 .bf16 0 1 3 0 0 none }] } : Ctx).mops.take testState.inp.sel, 3 ∉ x.acc) := by decide
/-- A legend of one row of 16 elements of `f32`, and a tenant with a governor table. -/
def legState : State := { storeState with mem := [(0x10, 1), (0x14, 16), (0x3C, 1)] }
set_option maxRecDepth 20000 in
theorem witness_CopiesStart_rows : governed legState.cx = true ∧ (freeKey legState.cx.copies 16).isSome = true ∧ (match readLegend legState legState.cur .x 0 with
    | .ok (snap, s1) => (settingOf (legendOf snap).cur).any fun set => decide (0 + 1 ≤ (legendOf snap).rows) && s1.cx == legState.cx && s1.iss == legState.iss
        && rowsFault (legendOf snap) (set.rowBytes (legendOf snap).ext0) 1 0 == none && spFault0 s1 s1.iss.seq 0x701 0 (set.rowBytes (legendOf snap).ext0 * 1) == none
    | .error _ => false) = true := by decide
/-- Lengths at 2^32 − 1 and 2^32; all sixteen slots taken and one free; a tile of 4 × 4 units of 16 bytes; a ring of one slot, claimed and free. -/
theorem witness_CopiesStart :
    2 ^ 32 ≤ (BitVec.ofNat 64 (2 ^ 32)).toNat ∧ (BitVec.ofNat 64 (2 ^ 32 - 1)).toNat < 2 ^ 32 ∧ virtFault 0 (2 ^ 32 - 1) = none ∧ sideFault testState false false 0 61440 = none
      ∧ sideFault testState false true 0 61440 = none ∧ freeKey testCtx.copies 16 = some 0 ∧ layoutOf (2 ^ 60) = none
      ∧ (∃ l, layoutOf (15 * 2 ^ 48 + 2 * 2 ^ 44 + 2 * 2 ^ 40) = some l ∧ (l.tr && l.blk) = false ∧ l.bytes = 256) ∧ governed testCtx = false := by
  refine ⟨by decide, by decide, by decide, by decide, by decide, by decide, rfl, ⟨_, rfl, by decide⟩, by decide⟩
/-- A ring of two slots at 256, with `n` claims not released; the first slot is whole. -/
def ringState (n : Nat) : State := withC (spadWrite { testCtx with g := [(1, 256), (2, 1)] } 256 (leBytes 4 2 ++ leBytes 4 n ++ leBytes 4 0 ++ List.replicate 52 0 ++ leBytes 8 0 ++ leBytes 4 1 ++ leBytes 4 0))
set_option maxRecDepth 20000 in
theorem witness_RingsAndBarriers : isPow2To4096 3 = false ∧ isPow2To4096 4096 = true ∧ spFault0 testState 0 0x701 0 (64 + 16 * 2) = none
    ∧ ringFault (ringState 1) 256 = none ∧ (leNat (memRead (ringState 1).cx.spad 260 4), leNat (memRead (ringState 1).cx.spad 264 4)) = (1, 0)
    ∧ leNat (memRead (ringState 1).cx.spad (256 + 64 + 8) 4) = 1 ∧ leNat (memRead (ringState 1).cx.spad (256 + 64 + 16 + 8) 4) ≠ 1
    ∧ spFault0 testState 0 0x701 8 16 = none ∧ (8 : Word).toNat % 16 ≠ 0 ∧ (16 : Word).toNat % 16 = 0 := by decide
set_option maxRecDepth 20000 in
/-- The claims of `witness_CopiesStart`: room for one more, and none. -/
theorem witness_CopiesStart_ring : leNat (memRead (ringState 2).cx.spad 260 4) - 0 = 2 ∧ leNat (memRead (ringState 1).cx.spad 260 4) < 2
    ∧ spadMeet (ringState 1) [(256, 12)] = .ok (ringState 1) := ⟨by decide, by decide, meet_none rfl _⟩
/-- A local copy with one granule to go, its bytes in the scratchpad, through a window and asked for; one that is done with and without its slot
of a ring; one on a context that stops, and one held for debugging. -/
theorem witness_CopiesMove :
    let x : Copy := { kind := 1, src := 0, dst := 60, rest := 4 }
    let s := withC { testCtx with copies := [(0, x)] }
    alook testCtx.copies s.inp.sel = none ∧ alook s.cx.copies s.inp.sel = some x ∧ s.inp.unit = 0 ∧ (copyAt x 0 = x ∧ x.rest ≠ 0 ∧ copiesRun s x = true ∧ x.moved ∉ x.done ∧ s.cx.due = none
      ∧ x.ahead = false ∧ x.loose = false ∧ x.store = false ∧ x.kind = 1) ∧ x.done = [] ∧ x.srcVm = false ∧ spWin x.src = 0 ∧ x.dstVm = false ∧ spWin x.dst = 0
      ∧ min x.rest (64 - x.dst.toNat % 64) = 4 ∧ spWin (BitVec.ofNat 64 (2 ^ 36 + 60)) ≠ 0 ∧ copiesRun (withC { testCtx with phase := .empty }) x = false
      ∧ copiesRun (withC { testCtx with due := some (.debug 1) }) x = true ∧ winAllow { testCtx with csr := [(0x021, 1)] } 0 1 ≠ 0
      ∧ x.moved ∈ ({ x with reading := [0] } : Copy).reading ∧ alook ({ x with data := [(0, [1, 2, 3, 4])] } : Copy).data x.moved = some [1, 2, 3, 4]
      ∧ ({ x with rest := 0 } : Copy).rest = 0 ∧ x.unacked = 0 ∧ x.reading = [] ∧ x.ring = none ∧ (∀ z ∈ s.cx.statq, z.eng = .x → z.seq ≠ x.seq) := by decide
theorem witness_CopiesMove_words : spadMeet { withC testCtx with iss := { seq := 0 } } [(0, 4)] = .ok { withC testCtx with iss := { seq := 0 } } := meet_none rfl _
set_option maxRecDepth 20000 in
theorem witness_CopiesMove_virtual : (match translateRange testState testState.cur .x true (pieces 0xFFC0 64) with
      | .ok (keys, s2) => keys.all fun k => windowReady s2 k.1 k.2 true
      | .error _ => false) = true
    ∧ (match virtRead testState .x (pieces 0xFFC0 64) with
      | .ok b _ => b.length == 64
      | _ => false) = true := by decide

/-- A page of 1 GiB at virtual address 0. -/
def bigPage : Tlb := { testPage with size := 2 }
/-- A tile whose TLBs hold it. -/
def bigTile : Tile := { pageTile with tlbC := [bigPage], tlbX := [bigPage] }
/-- A locked page. -/
def lockCtx : Ctx := { testCtx with lockTr := [(0, testPage)] }
/-- Ranges at the ends of the address space; an operation of each kind in flight; a page that is locked. -/
theorem witness_OtherXOperations : virtFault (BitVec.ofNat 64 (2 ^ 57)) 1 = some (0x703, BitVec.ofNat 64 (2 ^ 57)) ∧ virtFault (BitVec.ofNat 64 (2 ^ 56 - 1)) 1 = none
    ∧ unlocked lockCtx 65536 17 0 = none ∧ unlocked lockCtx 65537 17 0 = some 65536 ∧ (testState.cx.queue .x = [] ∧ testState.cx.inFlight .x = [])
    ∧ (256 : Nat) ≤ 256 ∧ (32 : Word).toNat % 32 = 0 ∧ (33 : Word).toNat % 32 ≠ 0 ∧ wbits (0 : Word) 26 6 < testState.z ∧ testState.z ≤ wbits (BitVec.ofNat 64 (2 ^ 26)) 26 6
    ∧ spFault0 testState 0 0x701 0 256 = none ∧ canonical (32 : Word) = true ∧ testCtx.xops = [] := by decide
set_option maxRecDepth 20000 in
theorem witness_OtherXOperations_pages : (match translateRange testState testState.cur .x false (pagesOf 0 65536) with
      | .ok _ => true
      | .error _ => false) = true
    ∧ (match lockPages (withC lockCtx) 0 65536 15 40 0 [] (withC lockCtx) with
      | .ok _ => true
      | .error _ => false) = true := by decide
theorem witness_OtherXOperations_events : let f : XOp := .flushh [(0, 64)] none 1
    let p : XOp := .tlbpre 0 64 none (bare 0x0C000000 2)
    let i : XOp := .tlbinv .t 0 64 3
    [f, p, i][0]? = some f ∧ [f, p, i][1]? = some p ∧ [f, p, i][2]? = some i ∧ (∃ r ∈ [((0 : Nat), (64 : Nat))], r.2 ≠ 0 ∧ r.1 / 64 ≤ 63 / 64 ∧ 63 / 64 * 64 < r.1 + r.2) := by decide
/-- A context of a tenant whose governor table is mapped, the entry of layer 5, role 0 frozen. -/
def govState : State := { withCsr 0x010 1 with tiles := [(0, bigTile)], mem := [(128 * 30 + 0x59, 2)] }
theorem witness_GovernorInstructions : ¬(4095 ≤ 4095 ∧ 4095 + 2 ≤ 4096) ∧ (4095 ≤ 4095 ∧ 4095 + 1 ≤ 4096) ∧ governed govState.cx = true ∧ governed testCtx = false
    ∧ 6 ≤ wbits (BitVec.ofNat 64 (6 * 4096)) 12 3 ∧ wbits (BitVec.ofNat 64 (5 * 4096)) 12 3 < 6 ∧ (testCtx.accCount < 15 + 2 ∧ 15 + 1 ≤ testCtx.accCount) ∧ accBusy testCtx 15 1 = false
    ∧ (settingOf 7).isSome = true ∧ testCtx.statq[0]? = none ∧ ((127 : Int).natAbs ≤ 127 ∧ (-1 : Int).natAbs ≤ 1) ∧ accBusy { testCtx with mops := [{ instr := .mma 3 .bf16 .bf16 0 1 0 0 0 none }] } 3 1 = true := by decide
set_option maxRecDepth 20000 in
theorem witness_GovernorInstructions_table : (match govRead (govTable (govState.cx.cr 0x010) + 0x300000) 64 govState with
      | .ok (b, s) => match govLayers (policyOf b) 1 0 s with
        | .ok _ => true
        | .error _ => false
      | .error _ => false) = true := by decide
set_option maxRecDepth 20000 in
theorem witness_GovernorInstructions_entries : (match govRead (govEntry (govState.cx.cr 0x010) 5 0) 128 govState with
      | .ok (b, _) => bitOf (fieldAt b 0x59 1) 1
      | .error _ => false) = true
    ∧ (match govRead (govEntry (govState.cx.cr 0x010) 0 1) 128 govState with
      | .ok (b, s) => !bitOf (fieldAt b 0x59 1) 1 && (settingOf (fieldAt b 0x57 1)).isSome && (match govDecide (policyOf []) 1 (govEntryOf b) none with
          | .none e => match govWrite (govEntry (govState.cx.cr 0x010) 0 1) (clearStats 1 e).bytes s with
            | .ok _ => true
            | .error _ => false
          | .move .. => false)
      | .error _ => false) = true := by decide
/-- An entry whose saturation votes it down a rung: from 1, the greatest its role may have, to 0. -/
theorem witness_GovernorInstructions_move : ∃ t made late, govDecide { policyOf [] with ladder := [0, 1], roles := [0x10] } 0 { govEntryOf [] with rung := 1, sat := 1, elements := 1 } none = .move t made late
    ∧ (govEntryOf []).pending = false := ⟨_, _, _, rfl, by decide⟩
theorem witness_StatAdd : ∃ y : StatAdd, ({ testCtx with statq := [{ tenant := 0, layer := 4095, role := 5, eng := .s }] } : Ctx).statq[0]? = some y
    ∧ govKey { testState with dies := [(0, { dieDefault with tenants := [(0, { govTr := [bigPage] })] })] } 0 0 0 = some 0 ∧ govKey testState 0 0 0 = none := ⟨_, rfl, by decide, by decide⟩

/-- A task with one instance still to be placed, and one whose last instance this is. -/
def lastTask : Task := { testTask with count := 1 }
/-- The test state with a task on die 0, and another that waits for it. -/
def taskState (t : Task) : State := withDie { dieDefault with tasks := [t, { testTask with handle := 9, preds := [0] }] }
/-- A context that is dormant beside the test context. -/
def sleepy : State := { testState with ctxs := [(4096, { testCtx with phase := .dormant })] }
theorem witness_TaskInstructions : ((∀ e : Engine, testCtx.performedBefore e 0 = true) ∧ testCtx.outstanding = 0) ∧ (taskAt (taskState testTask) 0 0 = some testTask ∧ testTask.isTriggered = false
      ∧ testTask.stopping = none ∧ testTask.count ≠ 0 ∧ testTask.triggeredN + 1 < testTask.count ∧ lastTask.count ≤ lastTask.triggeredN + 1 ∧ lastTask.handle ∉ lastTask.preds)
    ∧ taskAt (taskState lastTask) 0 9 = some { testTask with handle := 9, preds := [0] } ∧ testCtx.triggered = false := by
  refine ⟨⟨fun e => by cases e <;> decide, by decide⟩, by decide, by decide, by decide⟩
theorem witness_TaskInstructions_done : allPerformed testCtx = true ∧ testCtx.outstanding = 0 ∧ testCtx.grp = [] ∧ taskAt testState 0 0 = none ∧ testTask.retiredN + 1 < testTask.count
    ∧ allPerformed { testCtx with qL := [bare 0 1] } = false ∧ testCtx.strm = [] := by decide
theorem witness_TaskInstructions_spawn : slotPlace sleepy.cur 1 ≠ sleepy.cur ∧ (ctxAt sleepy 4096).phase = .dormant ∧ (ctxAt sleepy 4096).tenant = sleepy.cx.tenant ∧ (ctxAt sleepy 4096).due = none
    ∧ (ctxAt sleepy 4096).debugHeld = false ∧ (ctxAt sleepy 0).phase ≠ .dormant ∧ (32 : Word).toNat % 32 = 0 ∧ (31 : Word).toNat % 32 ≠ 0 ∧ testCtx.armed = false
    ∧ ({ testCtx with armed := true } : Ctx).handler = false := by decide

/-- The test state with a packet that has reached die 0. -/
def got (b : Body) : State := withDie { dieDefault with inbox := [{ src := 0, dst := 0, cls := 2, tenant := 0, task := 0, body := b }] }
/-- That packet. -/
def thePacket (b : Body) : Packet := { src := 0, dst := 0, cls := 2, tenant := 0, task := 0, body := b }
/-- Whether the packet is the one the event's input selects. -/
def comes (b : Body) (f : Packet → Nat → Bool) : Bool := decide (((dieAt (got b) 0).inbox.zipIdx.filter fun x => f x.1 x.2)[0]? = some (thePacket b, 0))
/-- A member of group 5, which is its chart group, that has and has not arrived. -/
def memberCtx (v : Word) : Ctx := { testCtx with grp := [(2, 5)], g := [(1, 5)], csr := testCtx.csr ++ [(0x046, v)] }
/-- Four memberships. -/
def fullCtx : Ctx := { testCtx with grp := [(0, 1), (1, 2), (2, 3), (3, 4)], g := [(1, 5)] }
theorem witness_Groups : ((withG [(1, 5)]).cx.gr 1).toNat % 2 ^ 32 = 5 ∧ testCtx.asked = false ∧ (bits 5 8 14 = 0 ∧ dieExists testState 0 = true) ∧ bits 256 8 14 ≠ 0 ∧ membershipOf testCtx 5 = none
    ∧ membershipOf (memberCtx 0) 5 = some 2 ∧ 4 ≤ fullCtx.grp.length ∧ membershipOf fullCtx 5 = none ∧ testCtx.grp.length < 4 ∧ (false && testCtx.inChart) = false
    ∧ (true && (testCtx.setCr 0 4096).inChart) = true ∧ bitOf ((memberCtx 0).cr 0x046).toNat 63 = false ∧ bitOf ((memberCtx (BitVec.ofNat 64 (2 ^ 63 + 9))).cr 0x046).toNat 63 = true
    ∧ alook (memberCtx 0).rel 2 ≠ some 9 ∧ alook ({ memberCtx (BitVec.ofNat 64 (2 ^ 63 + 9)) with rel := [(2, 9)] } : Ctx).rel 2 = some (wbits ((memberCtx (BitVec.ofNat 64 (2 ^ 63 + 9))).cr 0x046) 0 32) := by decide
/-- A context whose `GJOIN g1`, or `GLEAVE g1`, waits for its answer. -/
def asks (w : Nat) (c : Ctx) : State := { got (.answer 5 0 0 false true) with cx := { c with asked := true, qC := [bare w 1] } }
theorem witness_Groups_answers : (comes (.answer 5 0 0 false true) (fun p _ => kindOf p.body = 10 && (forMe (got (.answer 5 0 0 false true)) p || orphan (got (.answer 5 0 0 false true)) p)) = true)
    ∧ forMe (got (.answer 5 0 0 false true)) (thePacket (.answer 5 0 0 false true)) = true
    ∧ (waitingC (asks 1610629123 { testCtx with g := [(1, 5)] })).map (fun x => (x.1, namedGroup x.2 x.1, x.2.cx.asked, membershipOf x.2.cx 5)) = some (.gjoin 1 false, some 5, true, none)
    ∧ (waitingC (asks 1610629124 (memberCtx 0))).map (fun x => (x.1, namedGroup x.2 x.1, x.2.cx.asked, membershipOf x.2.cx 5, x.2.cx.stopDue)) = some (.gleave 1, some 5, true, some 2, false)
    ∧ comes (.groupLost 5) (fun p _ => kindOf p.body = 14 && (forMe (got (.groupLost 5)) p || orphan (got (.groupLost 5)) p)) = true
    ∧ comes (.release 5 9) (fun p _ => kindOf p.body = 12 && (forMe (got (.release 5 9)) p || orphan (got (.release 5 9)) p)) = true := by decide
/-- A group of two members, one of which has arrived, on its home. -/
def twoGroup : Group := { tenant := 0, members := [0, 7], current := [0, 7], arrived := [7], firstArrival := some 0, timeouts := 1 }
/-- The same without the second member. -/
def oneGroup : Group := { twoGroup with members := [0], current := [0], arrived := [] }
/-- The home with the group. -/
def homeState (g : Group) (b : Body) : State := withDie { dieDefault with inbox := [thePacket b], groups := [(5, g)], bartmo := 1 }
theorem witness_Groups_home : comes (.join 5 false 0) (fun p _ => kindOf p.body = 8) = true ∧ comes (.leave 5) (fun p _ => kindOf p.body = 9) = true ∧ (dieAt testState 0).halted.isSome = false
    ∧ 5 / 2 ^ 22 % 2 ^ 10 = 0 ∧ alook (dieAt testState 0).groups (5 % 256) = none ∧ membershipCount testState 0 < 4096 ∧ alook (dieAt (homeState twoGroup (.leave 5)) 0).groups 5 = some twoGroup
    ∧ (3 : Nat) ≠ twoGroup.tenant ∧ (thePacket (.leave 5)).member ∈ twoGroup.members ∧ (11 : Nat) ∉ twoGroup.members ∧ twoGroup.chart = false := by decide
theorem witness_Groups_barrier : comes (.arrive 5 0) (fun p _ => match p.body with
      | .arrive id gen => dieHalted testState || arrivalReady testState id gen
      | _ => false) = true
    ∧ (thePacket (.arrive 5 0)).member ∉ twoGroup.arrived ∧ twoGroup.current ≠ [] ∧ twoGroup.generation = 0
    ∧ releasable (homeState twoGroup (.arrive 5 0)) { oneGroup with arrived := oneGroup.arrived ++ [(thePacket (.arrive 5 0)).member] } = true
    ∧ releasable (homeState twoGroup (.arrive 5 0)) { twoGroup with arrived := [] ++ [(thePacket (.arrive 5 0)).member] } = false
    ∧ (∀ x ∈ (dieAt (homeState twoGroup (.leave 5)) 0).inbox, kindOf x.body ≠ 13) ∧ wbits (dieAt (homeState twoGroup (.leave 5)) 0).bartmo 0 32 * 1000 ≠ 0
    ∧ (0 + 1000 * (1 + 1) ≤ datumOf { homeState twoGroup (.leave 5) with now := 2000 } 0) ∧ twoGroup.timeouts ≠ 0 := by decide
/-- A write of one byte at the end of the allotment, in order and with a step that a landing register has passed. -/
theorem witness_Packets : comes (.posted 1 5 [(65535, 7)] 1 none none 0) (landsNext (dieAt (got (.posted 1 5 [(65535, 7)] 1 none none 0)) 0).inbox) = true
    ∧ (dieAt testState 0).halted.isNone = true ∧ allotmentOf testState 0 0 [65536] = none ∧ allotmentOf testState 0 0 [65535] = some 0 ∧ ([65535] : List Nat).Nodup ∧ testCtx.spadBase ≤ 65535
    ∧ landOf testCtx [65535] = none ∧ landOf { testCtx with csr := [(0x040, BitVec.ofNat 64 (2 ^ 63 + 1023 * 2 ^ 33))] } [65535] = some 0
    ∧ staleStep (BitVec.ofNat 64 (6 * 2 ^ 47)) 5 = true ∧ staleStep (BitVec.ofNat 64 (5 * 2 ^ 47)) 5 = false ∧ allotmentOf testState 0 0 [65520, 65535] = some 0
    ∧ comes (.ack 1 0 1 none 0 0 false 0) (fun p _ => kindOf p.body = 1 || kindOf p.body = 3) = true ∧ comes (.netAck 0 0 none 0 0) (fun p _ => kindOf p.body = 1 || kindOf p.body = 3) = true
    ∧ senderOf testState 0 0 0 = some 0 ∧ senderOf testState 0 1 0 = none := by decide
/-- What a read of a copy's granule carries. -/
def aTag : ReadTag := { copy := 0, off := 0, seq := 0, win := 1, cls := 2, step := 0, src := 0 }
theorem witness_Packets_kinds : comes (.netWrite 0 [1] 0 0) (fun p _ => kindOf p.body = 2) = true ∧ comes (.readReq [(65535, 1)] aTag) (fun p _ => kindOf p.body = 4) = true ∧ (∀ b ∈ testCtx.bad, b % 2 = 0)
    ∧ comes (.readResp [1] false aTag) (fun p _ => kindOf p.body = 5) = true ∧ comes (.send [1] 0 0 0) (sendNext (dieAt (got (.send [1] 0 0 0)) 0).inbox) = true ∧ (tileAt testState 0).arrq.length < 16
    ∧ comes (.refusal 0 1 0) (fun p _ => kindOf p.body = 7) = true ∧ trapOpen testCtx 0x723 = false ∧ (∃ k, netKeys testState 0 0 true [] = .ok k) := by
  refine ⟨by decide, by decide, by decide, by decide, by decide, by decide, by decide, by decide, ⟨_, rfl⟩⟩
/-- A message that waits for an armed context of its tenant, which the tile has in slot 1, and one that has waited for 1 ms in vain. -/
def waitingMsg : Arrival := { payload := [1], handlerLine := 64, tenant := 0, src := 0, task := 0, inst := 0, seq := 0, since := 0, target := 0 }
/-- The tile with the message. -/
def msgTile : Tile := { pageTile with arrq := [waitingMsg] }
/-- The two states. -/
def armedState : State := { withC { testCtx with phase := .dormant } with ctxs := [(4096, { testCtx with phase := .dormant, csr := [(0x005, 1)] })], tiles := [(0, msgTile)] }
theorem witness_Packets_messages : (tenantHeads [waitingMsg]).find? (fun y => (List.range 8).any (armedFor armedState 0 y.1.tenant)) = some (waitingMsg, 0)
    ∧ rotate 0 8 (armedFor armedState 0 0) = some 1 ∧ (4096 : Nat) ≠ armedState.cur
    ∧ (tenantHeads [waitingMsg]).find? (fun y => decide (y.1.since + 1000000 ≤ datumOf { testState with now := 1000000 } 0) && !(List.range 8).any (armedFor testState 0 y.1.tenant)) = some (waitingMsg, 0) := by decide

/-! Events: a state that meets the hypotheses of each clause. A clause whose hypothesis is that an image of the flash is sound rests on the vendor's key, a
constant of the configuration with no body, and has no state written out here. -/

/-- A trap. -/
def aTrap : Trap := { cls := 1, code := 0x70A, eng := 4 }
/-- A context whose waits for a token nothing can end: `TOKW` from S to L on channel 0 at the head of L's queue. -/
def stuckCtx : Ctx := { testCtx with fetchHold := true, qL := [{ word := 0x68001A00, seq := 1, marker := true }] }
theorem witness_TrapEvents : testCtx.trapDue = none ∧ (testCtx.drained = true ∧ testCtx.phase = .running) ∧ ({ testCtx with asked := true } : Ctx).drained = false
    ∧ (let c : Ctx := { testCtx with trapDue := some aTrap }
       c.trapDue = some aTrap ∧ c.drained = true ∧ c.due = none ∧ c.asyncDue = none)
    ∧ (let c : Ctx := { testCtx with asyncDue := some aTrap }
       c.drained = true ∧ c.handler = false ∧ c.stopDue = false ∧ c.debugHeld = false ∧ c.faultFree = true)
    ∧ ({ testCtx with due := some (.stop 6) } : Ctx).stopDue = true ∧ cyclesAt (withC { testCtx with acct := { cycles := 65536000 } }) 0 = 65536 ∧ cyclesAt testState 0 < 0 + 65536
    ∧ draining { testCtx with due := some (.stop 6) } = true
    ∧ starved { testCtx with mops := [{ instr := .mma 3 .bf16 .bf16 0 1 3 0 0 none }] } = true := by decide
/-- A stopped context with nothing left, and one that still leaves its groups; a stopped task whose record can be written at once. -/
def stopped : Ctx := { testCtx with due := some (.stop 6) }
/-- A task that stops. -/
def haltingTask : Task := { testTask with stopping := some 6 }
/-- A saved context that waits for the answer to fault 3. -/
def savedFault : SavedCtx := { area := 0, tenant := 0, task := 0, inst := 0, priority := 3, time := 0, ctxid := 0, fault := some { number := 3 } }
theorem witness_StopEvents : (stopped.stopDue = true ∧ stopped.drained = true ∧ copiesStill stopped = true ∧ stopped.grp = []) ∧ ({ stopped with grp := [(0, 5)] } : Ctx).grp ≠ [] ∧ stopped.asked = false
    ∧ stopped.phase ≠ .empty ∧ copiesStill { stopped with copies := [(0, { kind := 1, src := 0, dst := 0, rest := 0, unacked := 1 })] } = false ∧ testCtx.stopDue = false
    ∧ memberAt testState 0 ∉ (dieAt testState 0).dumps ∧ (dieAt testState 0).halted = none ∧ (dieAt testState 0).powered = true ∧ dieExists testState 0 = true
    ∧ faultHolder (withC { testCtx with fault := some { number := 3 } }) 0 3 = some 0 ∧ faultHolder testState 0 3 = none
    ∧ faultSaved (withDie { dieDefault with saved := [savedFault] }) 0 3 = some savedFault ∧ faultSaved testState 0 3 = none ∧ freeDump { testState with mem := [(0, 1)] } 0 0 = none := by decide
theorem witness_StopEvents_finish : let s := { withDie { dieDefault with tasks := [haltingTask] } with cx := { testCtx with phase := .empty } }
    taskAt s 0 0 = some haltingTask ∧ inDumps (discardSaved s 0 0) 0 0 = false ∧ ((dieResidents (discardSaved s 0 0) 0).any (ofTask (discardSaved s 0 0) 0 0)) = false
      ∧ completionReady (discardSaved s 0 0) 0 haltingTask = true := by decide
/-- A ready task with one instance to place. -/
def readyTask : Task := { testTask with state := .ready, placed := 0, record := List.replicate 0x2B 0 ++ [1, 1] ++ List.replicate 83 0 }
theorem witness_Placement : (∃ c, nextClaim (withDie { dieDefault with tasks := [readyTask] }) 0 = some c) ∧ nextClaim testState 0 = none
    ∧ (∃ p, chooseTile (withDie { dieDefault with tasks := [readyTask] }) 0 (.place readyTask) [] = some p) := ⟨⟨_, rfl⟩, by decide, ⟨_, rfl⟩⟩
theorem witness_SchedulingEvents : testCtx.phase ≠ .empty ∧ testCtx.due = none ∧ (myTile testState).withdrawn = false ∧ (tenantAt testState 0 0).exhausted = false
    ∧ saveReady (withC { testCtx with due := some (.preempt 1 none) }) = true ∧ badImage testCtx = none ∧ saveReady (withC { testCtx with handler := true }) = false
    ∧ freeAreas testState 0 0 = [] ∧ freeAreas (withDie { dieDefault with tenants := [(0, { savepool := BitVec.ofNat 64 (2 ^ 24 + 2 ^ 36) })] }) 0 0 ≠ []
    ∧ (dieAt testState 0).period < datumOf { testState with now := 100000 } 0 / 100000 ∧ datumOf testState 0 / 100000 ≤ (dieAt testState 0).period
    ∧ overBudget { ctxbud := 0 } = true ∧ overBudget {} = false ∧ (64 : Nat) ≤ ({ starved := 64 } : Tenant).starved ∧ ({ starved := 63 } : Tenant).starved < 64
    ∧ mayFetch testState = true ∧ mayFetch (withC { testCtx with fetchHold := true }) = false := by decide
/-- A code line at 0 with one instruction for C, `SUB g1, g2, g3`; and a state whose fetch pointer is there. -/
def lineState' : State := { testState with mem := [(0, 0x1A), (4, 1), (5, 0x83), (6, 0x10)] }
set_option maxRecDepth 20000 in
theorem witness_Fetch : canonical lineState'.cx.fetch = true ∧ eccLevel lineState' 0 32 ≠ 2 ∧ lineFault lineState'.cx (0x1A + 0x00108301 * 2 ^ 32) = none
    ∧ (lineFault lineState'.cx 0).isSome = true ∧ hasRoom lineState'.cx (lanesOf (0x1A + 0x00108301 * 2 ^ 32)) = true
    ∧ (match translate lineState' 0 .c 0 false true with
        | .ok key s1 => key == 0 && (leNat (readLine (eccCorrect s1 key 32) key).1 == 0x1A + 0x00108301 * 2 ^ 32)
        | _ => false) = true := by decide
theorem witness_Fetch_break : let s := { withC { testCtx with armed := true } with tiles := [(0, { pageTile with breaks := [0] })] }
    mayFetch s = true ∧ s.cx.armed = true ∧ s.cx.handler = false ∧ s.cx.debugHeld = false ∧ s.cx.passBreak = false ∧ (myTile s).breaks.contains s.cx.fetch = true := by decide
/-- A gear change at its bound and before it; a bias of cluster 0 that is set and cleared; an evaluation, a reading and a survey that are due. -/
theorem witness_PowerEvents : ({ pageTile with change := some (3, 0) } : Tile).change = some (3, 0) ∧ wantedGear testState 0 < pageTile.grant ∧ pageTile.change = none
    ∧ pageTile.gear ≤ pageTile.grant ∧ (clusterAt (withDie { dieDefault with clusters := [(0, { setting := some 0 })] }) 0 0).setting = some 0
    ∧ (clusterAt (withDie { dieDefault with clusters := [(0, { idleSince := some 0, bias := true })] }) 0 0).idleSince = some 0 ∧ biasOn { idleSince := some 0, bias := true } = true
    ∧ (clusterAt (withDie { dieDefault with clusters := [(0, { clearing := some 0 })] }) 0 0).clearing = some 0 ∧ (dieAt testState 0).evals < datumOf { testState with now := 1000 } 0 / 1000
    ∧ (dieAt testState 0).reads < datumOf { testState with now := 5000 } 0 / 5000 ∧ datumOf testState 0 / 5000 ≤ (dieAt testState 0).reads
    ∧ ({ dieDefault with droopUntil := some 5 } : Die).droopUntil = some 5
    ∧ (let d : Die := { dieDefault with surv := { cfg := 33 } }
       bitOf d.surv.cfg.toNat 0 = true ∧ d.stage = 2 ∧ d.halted = none ∧ d.survTick < datumOf { withDie d with now := 65536 } 0 / 2 ^ wbits d.surv.cfg 1 5 ∧ ringFull d.surv = false)
    ∧ ringFull { cfg := 33, wr := 1 } = true := by decide
/-- A chart group whose first generation waits for a member's gear, and for none. -/
def chartGroup : Group := { twoGroup with members := [0], arrived := [0], chart := true, gear := 3 }
theorem witness_PowerEvents_chart : let s := withDie { dieDefault with groups := [(0, chartGroup)] }
    groupAt s 0 = some chartGroup ∧ chartGroup.begun = false ∧ chartGroup.arrived ≠ [] ∧ chartGroup.gearWait = none
      ∧ (chartGroup.members.any fun m => match memberPlace s m with
          | some p => (tileAt s (tileOf p)).grant < chartGroup.gear
          | none => false) = true
      ∧ ({ chartGroup with gear := 2 }.members.any fun m => match memberPlace s m with
          | some p => (tileAt s (tileOf p)).grant < 2
          | none => false) = false := by decide

/-- The test state with port 1 of die 0 replaced, the event's input naming it. -/
def portState (p : Port) : State := { withDie { dieDefault with ports := [(1, p)] } with inp := { sel := 1 } }
/-- The next in-sequence flit, and one out of sequence. -/
def aFlit : Flit := { payload := List.replicate 64 0, ctl := 0 }
theorem witness_LinkEvents : (hasPort 0 1 = true ∧ (dieAt testState 0).powered = true ∧ ({} : Port).state = .up) ∧ eventPort (portState {}) = 1 ∧ ({ idles := 4 } : Port).idles = 4
    ∧ (portAt (portState { wire := [aFlit] }) 0 1).wire = [aFlit] ∧ (portAt (portState {}) 0 1).wire = [] ∧ (takeControl (portState { ctlIn := [[1]] }) 1).isSome = true
    ∧ takeControl (portState {}) 1 = none ∧ (takeControl (portState { ctlIn := [[3]] }) 3).isSome = true ∧ ({ asked := some 5 } : Port).asked = some 5 ∧ 0 + repeatTime 1 ≤ 10000000
    ∧ (portAt (portState { state := .retraining }) 0 1).state = .retraining ∧ 0 < 0 + attemptBound 1 ∧ bestConfig 1 [] 0 = none ∧ (bestConfig 1 [64, 64, 64] 0).isSome = true
    ∧ peerOf 1 0 1 ≠ none ∧ hasPort 0 0 = true ∧ (portAt (portState { state := .down }) 0 1).state = .down ∧ portKind 1 = 0 ∧ portKind 0 ≠ 0 ∧ ({} : Port).groupRx = [] := by decide
/-- A packet whose answer has not come in 2 ms, and in 64 ms; notices that have arrived. -/
theorem witness_LinkEvents_packets : let x : Named := { type := 1, src := 0, dst := 0, tenant := 0, task := 0, inst := 0 }
    ((dieAt (withDie { dieDefault with uet := [thePacket (.loss x)] }) 0).uet.filter fun p => p.last + 2000000 ≤ 2000000 && !inOutbox dieDefault p)[0]? = some (thePacket (.loss x))
      ∧ ((dieAt (withDie { dieDefault with uet := [thePacket (.loss x)] }) 0).uet.filter fun p => p.since + 64000000 ≤ 64000000)[0]? = some (thePacket (.loss x))
      ∧ comes (.taint x) (fun p _ => kindOf p.body = 15) = true ∧ comes (.loss x) (fun p _ => kindOf p.body = 16) = true ∧ comes (.failure 0 1 true) (fun p _ => kindOf p.body = 17) = true := by decide
theorem witness_KeysAndTime : (takeControl (portState { ctlIn := [[4]], exchanging := true }) 4).map (fun x => (portAt x.2 0 1).exchanging) = some true
    ∧ (takeControl (portState { ctlIn := [[4]] }) 4).map (fun x => (portAt x.2 0 1).exchanging) = some false ∧ (takeControl (portState { ctlIn := [[5]] }) 5).isSome = true
    ∧ (takeControl (portState { ctlIn := [[6]] }) 6).isSome = true ∧ (takeControl (portState { ctlIn := [[7]] }) 7).isSome = true ∧ takeControl (portState { ctlIn := [[7]] }) 6 = none
    ∧ (takeControl (portState { ctlIn := [[8]], nextTx := some (9, 0) }) 8).isSome = true ∧ (portAt (portState { nextTx := some (9, 0) }) 0 1).nextTx = some (9, 0)
    ∧ (2 ^ 32 - 2 ^ 20 ≤ max ({ counterTx := 2 ^ 32 - 2 ^ 20 } : Port).counterTx 0) ∧ (max ({ counterTx := 2 ^ 32 - 2 ^ 20 - 1 } : Port).counterTx 0 < 2 ^ 32 - 2 ^ 20) := by decide
/-- Die 0 as the source of time, with the host's light up; without a source no die has an upstream port. -/
theorem witness_KeysAndTime_lock : (upstreamPort (withDie { dieDefault with timelock := BitVec.ofNat 64 (2 ^ 62) }) 0).isSome = true ∧ (∃ s : State, upstreamPort s 0 = none) ∧ ({ dieDefault with locked := true } : Die).locked = true :=
  ⟨by decide, ⟨testState, by decide⟩, rfl⟩
/-- The first line of the host-coherent window of module 0, held for writing, for reading, recalled, and not held. -/
def hostState (l : Assoc HostLine) : State := { testState with hostLines := l, inp := { addr := 0xF000000000 } }
theorem witness_HostAccess : lineOpen (hostState []) = true ∧ lineOpen (hostState [(0x3C0000000, { state := 1, recalled := some 0 })]) = false ∧ hostUp testState (moduleOf testState.cur) = true ∧ dieHalted testState = false ∧ (myDie testState).stage = 2 ∧ lineState (hostState []) 0x3C0000000 = 0
    ∧ lineState (hostState [(0x3C0000000, { state := 2 })]) 0x3C0000000 = 2 ∧ alook (hostState [(0x3C0000000, { state := 1, recalled := some 0, wanted := 1 })]).hostLines 0x3C0000000 = some { state := 1, recalled := some 0, wanted := 1 }
    ∧ dieHalted (withDie { dieDefault with halted := some 2 }) = true ∧ (128 : Nat) % 128 = 0 ∧ (127 : Nat) % 128 ≠ 0 ∧ (netKeys testState 0 0 false [] matches .ok _) = true ∧ bulkBad testState [] = false := by
  decide
theorem witness_CommandsAndDebug : pageHolders testState 0 0 0 65536 = [] ∧ (∃ x q, pageHolders (withC { testCtx with csr := testCtx.csr ++ [(0x050, BitVec.ofNat 64 (2 ^ 63))] }) 0 0 0 65536 = x :: q)
    ∧ taskAt testState 0 0 = none ∧ taskAt (taskState testTask) 0 0 = some testTask ∧ testCtx.phase ≠ .empty ∧ debugHold testState = none
    ∧ (let c : Ctx := { testCtx with due := some (.debug 1) }
       c.due = some (.debug 1) ∧ c.handler = false ∧ c.drained = true ∧ c.asyncDue = none)
    ∧ (let c : Ctx := { testCtx with stepping := some .c, seqNext := 1 }
       c.stepping = some .c ∧ stepIssued c .c = true ∧ effectsEnded c (fun k => c.stepSeq ≤ k) = true ∧ c.trapDue = none)
    ∧ stepIssued { testCtx with stepping := some .c, stepLine := true } .c = false ∧ ({ testCtx with debugHeld := true } : Ctx).debugHeld = true := by
  refine ⟨by decide, ⟨_, _, rfl⟩, by decide, by decide, by decide, rfl, by decide, by decide, by decide, by decide⟩
/-- A command whose number is not above the last one is not verified, whatever its signature. -/
theorem witness_RepairEvents : coreUp testState = true ∧ (dieAt testState 0).stage = 2 ∧ (tileAt testState 0).withdrawn = false ∧ mayWithdraw testState 0 = true
    ∧ mayWithdraw { testState with tiles := [(1, { pageTile with withdrawn := true })] } 0 = false ∧ ¬((dieAt testState 0).maintSeq < testState.inp.len)
    ∧ residents { testState with cx := {} } 0 = [] ∧ residents testState 0 ≠ [] ∧ (dieAt testState 0).sparing[0]? = none
    ∧ coreUp (withDie { dieDefault with powered := false }) = false := by decide
theorem witness_StartEvents : dieExists testState 0 = true ∧ ({ dieDefault with powered := false } : Die).heldOff = false ∧ ({ dieDefault with stage := 0 } : Die).halted = none
    ∧ runSlot { dieDefault with startst := BitVec.ofNat 64 (15 * 16) } = 15 ∧ runSlot { dieDefault with stage := 0 } ≠ 15 ∧ stage1Done testState = false
    ∧ stage1Done (withDie { dieDefault with stage := 1 }) = true ∧ bitOf (BitVec.ofNat 64 (2 ^ 62)).toNat 62 = true ∧ coreUp testState = true
    ∧ ((diesOf 0).any fun e => (dieAt testState e).powered && (dieAt testState e).startAt + 20000000 ≤ 20000000) = true
    ∧ ((diesOf 0).any fun e => (dieAt testState e).powered && (dieAt testState e).startAt + 20000000 ≤ 19999999) = false := by decide
theorem witness_RegisterEvents : coreUp testState = true ∧ (dieAt testState 0).stage = 2 ∧ (dieAt testState 0).halted = none ∧ ringSlots ({ cfg := 33 } : Ring) ≤ 4096
    ∧ areasFit 0 16 = true ∧ areasFit (2 ^ 44 - 65536) 1 = false ∧ runSlot (myDie testState) ≠ 15 ∧ (myDie testState).safeOnly = false := by decide
/-- C may issue the head of its queue: plain, a marker, under a repeat of its own, one that waits for its operands; and none. -/
theorem witness_StepRunsDecoded : let s := withC { testCtx with qC := [bare 0x00108301 1], qL := [{ word := 0x02000000, seq := 2 }], repL := { active := true, remaining := 3, k := 1, mask := 1 } }
    mayIssue s .c = true ∧ headOf s.cx .c = some (bare 0x00108301 1) ∧ decodeEntry .c (bare 0x00108301 1) = some (.sub 1 2 3) ∧ needsSupply .c (bare 0x00108301 1) = false
      ∧ (bare 0x00108301 1).marker = false ∧ (s.cx.rep .c).active = false ∧ (s.cx.rep .l).active = true ∧ (s.cx.rep .l).remaining ≠ 0 ∧ headOf testCtx .l = none
      ∧ mayIssue (withC { testCtx with phase := .empty }) .c = false := by decide
theorem witness_DecodeRoundTrip : ((.add 63 0 31 : Instr).wellFormed = true ∧ (words (.add 63 0 31) false).isSome = true) ∧ isEvent (.add 63 0 31) = false ∧ isEvent .powerDown = true
    ∧ decode .c 0x00108301 none = some (.sub 1 2 3) := by decide
/-- Reset's memory is in canonical form, and its next state is one too. -/
theorem witness_MemoryKeptCanonical : memoryWf State.reset := by unfold memoryWf; decide

/-- Operands of an `MMAV` without a legend: the base in `g1`, and in `g2` the stride 64 under the legend 0xFFFF; its four rows of A are in load queue 1. -/
def mmavState : State := withC { testCtx with g := [(1, 0), (2, BitVec.ofNat 64 (0xFFFF * 2 ^ 32 + 64))], lq := [(1, List.replicate 4 noRow)], granted := 1 }
set_option maxRecDepth 20000 in
theorem witness_MatrixFromMemory : bitOf (mmavState.cx.cr 0x00F).toNat 63 = false ∧ wbits (operand mmavState 1 2) 32 16 = 0xFFFF ∧ mmavState.cx.lrows 1 = noRow :: List.replicate 3 noRow
    ∧ canonical (operand mmavState 0 1) = true ∧ shapeOf .bf16 (some noRow) = some .plain ∧ (runClass .bf16 .bf16 false .plain (some .plain)).map (fun c => tileK c 3) = some 32
    ∧ tileRows .plain (some 32) = 4 ∧ ((List.range 16).all fun j => canonical (0 + BitVec.ofInt 64 ((j : Int) * 64))) = true ∧ pairOk .bf16 .bf16 .plain .plain 32 = true
    ∧ (tileOfRows .bf16 .plain 32 (List.replicate 4 noRow) matches .ok _) = true ∧ testCtx.accCount < 16 + 1 := by decide
theorem witness_MatrixFromMemory_shape : mmavShape .bf16 none 0xFFFF 0 mmavState = .ok (.plain, 0, mmavState) := rfl
set_option maxRecDepth 20000 in
theorem witness_MatrixFromMemory_columns : ((mmavColumns { n := 0, ta := .bf16, tb := .bf16, base := 0, stride := 64, legend := 0xFFFF, snap := none, a := [], shape := .plain, k := 32 } 16 0 mmavState).1
    matches .whole) = true := by decide

/-! More states: those of the clauses that the theorems above leave out. -/

/-- A task record of one instance with a code pointer and one unit of scratchpad. -/
def goodRecord : List Byte := leBytes 8 0x4000 ++ List.replicate 0x1C 0 ++ leBytes 2 1 ++ List.replicate 2 0 ++ leBytes 2 0xFFFF ++ [0, 1, 1] ++ List.replicate 83 0
/-- Its 128 bytes at virtual address 0x1000. -/
def recState : State := { testState with mem := (goodRecord.zipIdx.map fun x => (0x1000 + x.2, x.1)).filter fun x => x.2 ≠ 0 }
set_option maxRecDepth 20000 in
/-- A sound record is enqueued, one of all zeros is refused; a tile whose turn is past waits. -/
theorem witness_TaskInstructions_task :
    (match virtRead recState .c (pieces 0x1000 128) with
      | .ok b s1 => b == goodRecord && (refusalCode (takeSource (publish s1) 0 0) 0 0 (recSet b (min (recPriority b) 0) 0)).isNone
          && newHandle (dieAt (takeSource (publish s1) 0 0) 0) (recPriority b) == some 0
      | _ => false) = true
    ∧ (match virtRead testState .c (pieces 0x1000 128) with
      | .ok b s1 => (refusalCode (takeSource (publish s1) 0 0) 0 0 (recSet b 0 0)).isSome
      | _ => false) = true := by decide
theorem witness_TaskInstructions_waits : sourceTaken testState 0 0 = true ∧ sourceTaken (withDie { dieDefault with enq := { ptr := 0, time := 0, base := 127, last := some 0 } }) 0 0 = true
    ∧ sourceTaken (withDie { dieDefault with enq := { ptr := 0, time := 0, base := 1, last := some 128 } }) 0 0 = false
    ∧ (0x1000 : Word).toNat % 128 = 0 ∧ (0x1001 : Word).toNat % 128 ≠ 0 ∧ canonical (0x1000 : Word) = true ∧ canonical (BitVec.ofNat 64 (2 ^ 57)) = false
    ∧ testCtx.sbuf = [] ∧ ({ testCtx with strm := [(0, { desc := [], queue := 2, contour := false })] } : Ctx).strm ≠ [] ∧ leavingSlot (ctxAt sleepy 4096) = false := by decide
/-- A tile whose TLB of C has no page. -/
def roTile : Tile := { pageTile with tlbC := [] }
set_option maxRecDepth 20000 in
theorem witness_GovernorInstructions_waits : ({ testCtx with sbuf := [waitingStore] } : Ctx).sbuf ≠ [] ∧ testCtx.sbuf = []
    ∧ (match govRead (govTable (govState.cx.cr 0x010) + 0x300000) 64 (acquireAt (some .d) govState) with
      | .ok (b, s) => match govLayers (policyOf b) 1 0 { s with tiles := [(0, roTile)] } with
        | .ok _ => false
        | .error _ => true
      | .error _ => false) = true := by decide

/-- A task whose stop is being dumped, its record's number kept. -/
def dumpState : State := withDie { dieDefault with tasks := [{ testTask with stopNo := some 1 }], dumps := [0] }
theorem witness_StopEvents_dump : (dieAt dumpState 0).dumps = [0] ∧ freeDump dumpState 0 0 = some 0 ∧ dumpState.inp.flag = false
    ∧ ∃ p l s1 t, dumpImage (keepNumber dumpState 0 0) 0 0 = some ((p, l), s1) ∧ taskAt dumpState 0 0 = some t ∧ taskAt s1 0 0 = some t
      ∧ rangeLive s1 0 (dumpKey s1 0 0 0 % 2 ^ 44) (0x1000 + areaBytes) = true :=
  ⟨rfl, by decide, rfl, _, _, _, _, rfl, rfl, by decide, by decide⟩
/-- No granule of a state without errors has one. -/
theorem ecc_none {s : State} (h : s.l2 = []) (g : s.ecc = []) (key n : Nat) : eccLevel s key n = 0 := by
  have : ∀ l, eccLine s l = 0 := fun l => by simp [eccLine, eccMem, h, g, alook]
  simp only [eccLevel, this]
  generalize linesOf key n = l
  induction l with
  | nil => rfl
  | cons a r ih => simpa using ih
/-- A saved context whose area's header is sound, or of a wrong version. -/
def savedOne : SavedCtx := { area := 0x1000, tenant := 0, task := 0, inst := 0, priority := 3, time := 0, ctxid := 0 }
/-- The states that hold it. -/
def areaState (v : Byte) : State := { testState with cx := {}, mem := [(0x1000, 0x31), (0x1001, 0x41), (0x1002, 0x56), (0x1003, 0x53), (0x1004, v), (0x1034, 1)], dies := [(0, { dieDefault with saved := [savedOne], tasks := [testTask] })] }
theorem witness_SchedulingEvents_restore : nextClaim (areaState 1) 0 = some (3, 0, .restore savedOne) ∧ (∃ c, chooseTile (areaState 1) 0 (.restore savedOne) [] = some c)
    ∧ eccLevel (areaState 1) savedOne.area areaBytes ≠ 2 ∧ headerOk (areaState 1) savedOne.area = true
    ∧ nextClaim (areaState 2) 0 = some (3, 0, .restore savedOne) ∧ eccLevel (areaState 2) savedOne.area areaBytes ≠ 2 ∧ headerOk (areaState 2) savedOne.area = false :=
  ⟨by decide, ⟨_, rfl⟩, by rw [ecc_none rfl rfl]; decide, by decide, by decide, by rw [ecc_none rfl rfl]; decide, by decide⟩
theorem witness_SchedulingEvents_cases : (myTile (withC testCtx)).withdrawn = false ∧ (myTile { testState with tiles := [(0, { pageTile with withdrawn := true })] }).withdrawn = true
    ∧ ({ testCtx with debugHeld := true } : Ctx).debugHeld = true ∧ (tenantAt (withDie { dieDefault with tenants := [(0, { exhausted := true })] }) 0 0).exhausted = true
    ∧ (dieAt (withDie { dieDefault with tasks := [testTask] }) 0).tasks.find? (fun z => z.tenant = 0) = some testTask ∧ testCtx.handler = false := by decide
theorem witness_TrapEvents_deadlock : (deadlocked (withC stuckCtx)).map (fun x => (x.1.map (·.2.seq), x.2)) = some ([1], false) ∧ stuckCtx.stuck = none
    ∧ ({ stuckCtx with stuck := some (0, [1]) } : Ctx).stuck = some (0, [1]) ∧ 0 + 1024 ≤ cyclesAt (withC { testCtx with acct := { cycles := 1024000 } }) 0 ∧ ([2] : List Nat) ≠ [1]
    ∧ tileRuns testState = true ∧ ({ testCtx with starve := some 0 } : Ctx).starve = some 0 ∧ testCtx.starve = none ∧ cyclesAt testState 0 < 0 + 65536
    ∧ ({ testCtx with trapDue := some aTrap, due := some (.debug 1) } : Ctx).due ≠ none := by decide
/-- A tile at gear 3 whose cluster has idled for 100 µs with its bias on, its own change to wait until then. -/
def hotState : State := { withDie { dieDefault with clusters := [(0, { idleSince := some 0, bias := true })] } with now := 100000, tiles := [(0, { pageTile with gear := 3, grant := 3, retryAt := 100001 })] }
theorem witness_PowerEvents_bias : ((clusterTiles 0 0).filter fun u => (tileAt hotState u).gear = 3) ≠ [] ∧ ((clusterTiles 0 0).filter fun u => (tileAt testState u).gear = 3) = []
    ∧ (clusterAt hotState 0 0).idleSince = some 0 ∧ biasOn (clusterAt hotState 0 0) = true ∧ 0 + 100000 ≤ hotState.now ∧ wantedGear hotState 0 < (tileAt hotState 0).grant
    ∧ hotState.now < (tileAt hotState 0).retryAt ∧ (tileAt testState 0).retryAt ≤ testState.now ∧ (testState.now ≤ 0 + 250 ∧ 0 + 250 < hotState.now ∧ 0 + 2000 < hotState.now) := by decide
/-- Die 1, the source of time, is the upstream of die 0 across its port 1. -/
def twoDies : State := { testState with dies := [(0, dieDefault), (1, { dieDefault with timelock := BitVec.ofNat 64 (2 ^ 62) })] }
/-- Die 0 with a message of time that has come. -/
def timeDie : Die := { dieDefault with inbox := [timePacket 1 0] }
theorem witness_KeysAndTime_messages : upstreamPort twoDies 0 = some 1 ∧ peerOf twoDies.z 0 1 = some (1, 2) ∧ timeArrived twoDies 0 = none ∧ (dieAt twoDies 0).powered = true ∧ (dieAt twoDies 0).timeSent = none
    ∧ timeArrived { twoDies with dies := [(0, timeDie)] } 0 = some 0 ∧ ({ dieDefault with timeSent := some 0 } : Die).timeSent = some 0 ∧ (dieAt twoDies 0).follow = none
    ∧ upstreamPort (withDie { dieDefault with timelock := BitVec.ofNat 64 (2 ^ 62) }) 0 = some 0 ∧ peerOf 1 0 0 = none ∧ upstreamPort testState 0 = none := by decide
/-- Die 0 with 15 good measurements behind it; a clock that agrees with the source's and one that does not; a locked die with three bad ones. -/
theorem witness_KeysAndTime_offsets : (dieAt twoDies 0).locked = false ∧ (16 : Nat) ≤ ({ dieDefault with goodOffsets := 15 } : Die).goodOffsets + 1 ∧ (dieAt twoDies 0).goodOffsets + 1 < 16
    ∧ clockAgrees twoDies 0 = true ∧ clockAgrees { twoDies with dies := (0, { dieDefault with datumOff := 1000000000 }) :: twoDies.dies.tail } 0 = false ∧ ((10 : Int).natAbs ≤ 10 ∧ 10 < (-11 : Int).natAbs)
    ∧ ((100 : Int).natAbs ≤ 100 ∧ 100 < (101 : Int).natAbs) ∧ (4 : Nat) ≤ ({ dieDefault with locked := true, badOffsets := 3 } : Die).badOffsets + 1 ∧ (dieAt twoDies 0).badOffsets + 1 < 4
    ∧ ({ dieDefault with locked := true, upstreamLost := some 0 } : Die).upstreamLost = some 0 := by decide

/-- A message for an arrival queue that is full, a byte barrier of the allotment, and a read whose copy is known. -/
theorem witness_Packets_more : 16 ≤ (tileAt { testState with tiles := [(0, { pageTile with arrq := List.replicate 16 waitingMsg })] } 0).arrq.length
    ∧ allotmentOf testState 0 0 [256, 256 + 15] = some 0 ∧ allotmentOf testState 0 0 ([((65536 : Nat), (1 : Nat))].flatMap fun x => [x.1, x.1 + x.2 - 1]) = none
    ∧ allotmentOf testState 0 0 ([((65535 : Nat), (1 : Nat))].flatMap fun x => [x.1, x.1 + x.2 - 1]) = some 0
    ∧ alook ({ testCtx with copies := [(0, { kind := 1, src := 0, dst := 0, rest := 4 })] } : Ctx).copies aTag.copy = some { kind := 1, src := 0, dst := 0, rest := 4 }
    ∧ (dieAt (withDie { dieDefault with halted := some 2 }) 0).halted.isNone = false ∧ comes (.posted 1 5 [(65535, 7)] 1 none (some 256) 0) (landsNext (dieAt (got (.posted 1 5 [(65535, 7)] 1 none (some 256) 0)) 0).inbox) = true := by decide
/-- Page tables of tenant 0 on die 0 that map the first GiB of near memory at virtual address 0, read, write and execute; a task record of all zeros at 0x1000. -/
def walkState : State := { State.reset with mem := [(0, 1), (2, 0x10), (0x100000, 1), (0x100002, 0x20), (0x200000, 15)] }
/-- The record that is enqueued there. -/
def hostRecord : List (Nat × Byte) := (goodRecord.zipIdx.map fun x => (0x1000 + x.2, x.1)).filter fun x => x.2 ≠ 0
/-- The tables beside the record. -/
def hostRecState : State := { walkState with mem := [(0, 1), (2, 0x10)] ++ hostRecord ++ [(0x100000, 1), (0x100002, 0x20), (0x200000, 15)] }
set_option maxRecDepth 20000 in
theorem witness_HostAccess_commands : tenantRead hostRecState 0 0 0x1000 128 = some goodRecord
    ∧ (match enqueue hostRecState 0 0 0x1000 (recSet goodRecord (min (recPriority goodRecord) (tenantAt hostRecState 0 0).priority) 0) with
      | .ok x => x.1 == 0
      | .error _ => false) = true
    ∧ (match enqueue walkState 0 0 0x1000 (recSet (List.replicate 128 0) 0 0) with
      | .ok _ => false
      | .error _ => true) = true
    ∧ (match netKeys walkState 0 0 false (pieces 0x1000 128) with
      | .ok k => k == [(0x1000, 64), (0x1040, 64)] && !bulkBad walkState k && bulkBad (setEcc walkState (0x1000 / 64) 2 0) k
      | .error _ => false) = true := by decide
/-- A line the host does not hold and whose memory holds no error; a dirty line of the L2. -/
theorem witness_HostAccess_lines : eccMem (hostState []) 0x3C0000000 ≠ 2 ∧ lineState (hostState []) 0x3C0000000 ≠ 2 ∧ 0 + 100000 ≤ ({ testState with now := 100000 } : State).now ∧ testState.now < 0 + 100000
    ∧ (({ testState with l2 := [(5, { data := List.replicate 64 7, dirty := true })] } : State).l2.map (·.1)).filter (fun l => homeDie (64 * l) = 0 && devKey 0 256 ≤ 64 * l + 63 && 64 * l < devKey 0 256 + 128) = [5]
    ∧ (List.replicate 64 (7 : Byte)).length = 64 := by decide
set_option maxRecDepth 20000 in
/-- The pages of a `TLBPRE` are there when it is performed, on a tile that runs. -/
theorem witness_OtherXOperations_fill : (match lockPages { withC { lockCtx with qX := [bare 0x0C000000 2] } with iss := { seq := 2 } } 0 65536 15 40 0 [] (withC lockCtx) with
      | .ok _ => true
      | .error _ => false) = true
    ∧ (tileRuns (withC lockCtx) && lockCtx.faultFree) = true ∧ (tileRuns { testState with tiles := [(0, { pageTile with gear := 0, grant := 0 })] } && testCtx.faultFree) = false := by decide
set_option maxRecDepth 20000 in
/-- A legend that is not valid may be installed where the atlas page is mapped, and not where it is not. -/
theorem witness_CommandsAndDebug_legend : installable walkState 0 0 3 (legendOf (List.replicate 64 0)) = some (192, []) ∧ installable testState 0 0 3 (legendOf (List.replicate 64 0)) = none := by decide +kernel
/-- A row that is being replaced, and a map with room for its entry; a self-test in its fifth millisecond, and past it. -/
theorem witness_RepairEvents_rows : (dieAt (withDie { dieDefault with sparing := [{ bank := 3, row := 5, addr := 64 }] }) 0).sparing[0]? = some { bank := 3, row := 5, addr := 64 }
    ∧ (dieAt testState 0).repairMap.length < 512 ∧ (myTile { testState with tiles := [(0, { pageTile with withdrawn := true, testing := some 0 })] }).testing = some 0
    ∧ (myTile { testState with tiles := [(0, { pageTile with withdrawn := true })] }).testing = none ∧ (myTile { testState with tiles := [(0, { pageTile with withdrawn := true })] }).withdrawn = true
    ∧ (testState.now ≤ 0 + 5000000 ∧ 0 + 5000000 < ({ testState with now := 5000001 } : State).now) ∧ (inNear (devKey 0 64) || inLpddr (devKey 0 64)) = true ∧ homeDie (devKey 0 64) = 0 := by decide
/-- A die whose identity list names a maintenance key of the tests. -/
def signedDie : Die := { dieDefault with identity := [(1025, ed25519Public 7)] }
/-- The die that has command 1 of the named number before it, its signature under that key. -/
def signedState (code : Nat) : State :=
  let s := { withDie signedDie with inp := { len := 1 } }
  { s with inp := { s.inp with sig := ed25519Sign 7 (commandBody s code) } }
theorem witness_RepairEvents_signed : ed25519Verify (identityAt (signedState 6) 0 maintenanceParty) (commandBody (signedState 6) 6) (signedState 6).inp.sig = true
    ∧ (dieAt (signedState 6) 0).maintSeq < (signedState 6).inp.len ∧ coreUp (signedState 6) = true ∧ (dieAt (signedState 6) 0).stage = 2
    ∧ ed25519Verify (identityAt (signedState 6) 0 maintenanceParty) (commandBody (signedState 6) 7) (signedState 6).inp.sig = false := by decide +kernel
theorem witness_RegisterEvents_cases : (govWalk walkState 0 0 (govSteps 1)).isSome = true ∧ (govWalk testState 0 0 (govSteps 1)).isNone = true ∧ registerStage 1 = 0 ∧ registerStage 13 = 2
    ∧ (readRegister testState 13).isSome = true ∧ readRegister testState 99 = none ∧ (myDie (withDie { dieDefault with stage := 1 })).stage < registerStage 13
    ∧ coreUp (withDie { dieDefault with powered := false }) = false ∧ ({ flag2 := true } : Input).flag2 = true ∧ testState.inp.flag2 = false :=
  ⟨by decide +kernel, by decide +kernel, rfl, rfl, by decide +kernel, rfl, by decide +kernel, by decide, rfl, rfl⟩
/-- Two contexts of a tile may issue from C: the arbiter grants the one its pointer names; a message of the host that has come, and none. -/
def rivals (p : Nat) : State :=
  { withC { testCtx with qC := [bare 0x00108301 1] } with ctxs := [(4096, { testCtx with qC := [bare 0x00108301 1] })], tiles := [(0, { pageTile with issPtr := [(1, p)] })] }
theorem witness_StepRunsDecoded_granted : issueGranted testState .c = true ∧ issueGranted (rivals 0) .c = true ∧ issueGranted (rivals 1) .c = false ∧ badArrays testCtx = [] ∧ hostMessage testState = none
    ∧ (hostMessage (got (.command .hostFlush {} 0))).isSome = true := by decide

/-! ### Published values, and the fetch -/

/-- RFC 8032, 7.1, test 1, and RFC 7748, 5.2: published values of the algorithms that R329 names. -/
theorem test_ed25519 : ed25519Verify 0x1a5107f7681a02af2523a6daf372e10e3a0764c9d3fe4bd5b70ab18201985ad7 []
    (beBytes 64 0xe5564300c360ac729086e2cc806e828a84877f1eb8e5d974d873e065224901555fb8821590a33bacc61e39701cf9b46bd25bf5f0595bbe24655141438e7a100b) = true := by decide +kernel
theorem test_x25519 : x25519 (leNat (beBytes 32 0xa546e36bf0527c9d3b16154b82465edd62144c0ac1fc5a18506a2244ba449ac4))
    (leNat (beBytes 32 0xe6db6867583030db3594c1a424b15f7c726624ec26b3353b10a903a6d0ab1c4c)) = leNat (beBytes 32 0xc3da55379de9c6908e94ea4df28d084f32eccf03491c71f754b4075577a28552) := by decide +kernel
/-- A code line with `ADDI g1, g0, 5` in lane 1, placed as the next instruction of the machine after reset, is what the next step runs. -/
theorem test_fetch_word : after (step (State.reset.withFetchWord 64 (0x1A + (0x02 * 2 ^ 26 + 1 * 2 ^ 20 + 5) * 2 ^ 32))) (fun t => (t.cx.gr 1).toNat) = 5 := by decide
end

/-! ## The host's accesses to the management core's registers (R13, R163, R348, R359, R390, R406, R433, R438) -/
namespace Sys2Proof.Machine

/-! ### The stage from which a register is served (log 82) -/

/-- The focused die serves accesses to the rings and the tenant table. -/
def RegistersReady (s : State) : Prop := coreUp s = true ∧ (myDie s).stage = 2 ∧ (myDie s).halted = none
/-- The focused die serves the register that the access names. -/
def RegisterServed (s : State) : Prop :=
  coreUp s = true ∧ runSlot (myDie s) ≠ 15
    ∧ ((myDie s).safeOnly = false ∧ (myDie s).halted = none ∨ registerStage s.inp.sel = 0)
    ∧ registerStage s.inp.sel ≤ (myDie s).stage

theorem settable_of_ready {s : State} (k : State → Res) (h : RegistersReady s) : settable k s = k s := by
  obtain ⟨hup, hstage, hrun⟩ := h
  simp [settable, manage, dieHalted, hup, hstage, hrun]
theorem settable_of_stage_ne {s : State} (k : State → Res) (hup : coreUp s = true) (h : (myDie s).stage ≠ 2) :
    settable k s = .next (respond s 9 1 []) := by simp [settable, manage, hup, h]
theorem settable_of_down {s : State} (k : State → Res) (h : coreUp s = false) : settable k s = .next s := by
  simp [settable, manage, wait, h]

/-! ### Rings -/

/-- The index rd that the host writes: its ring would hold no more than its slots (Table 15.9). -/
def RingIndexFits (s : State) : Prop :=
  let r := ringOf (dieAt s (dieOf s.cur)) s.inp.sel
  let i := wbits s.inp.value 0 13
  ¬(2 * ringSlots r ≤ i ∨ ringSlots r < (r.wr + 2 * ringSlots r - i) % (2 * ringSlots r))

@[simp] theorem ringOf_setRing (x : Die) (k : Nat) (r : Ring) : ringOf (setRing x k r) k = r := by
  unfold ringOf setRing
  split
  · rfl
  · split <;> rfl
theorem execErrcfgEnable_of_ready {s : State} (h : RegistersReady s) :
    execErrcfgEnable s = .next (respond (writeErrcfg s (dieOf s.cur) (s.inp.value ||| 1)) 9 0 []) := settable_of_ready _ h
theorem execErrptrRdWrite_of_fits {s : State} (h : RegistersReady s) (hfit : RingIndexFits s) :
    ∃ u, execErrptrRdWrite s = .next (respond u 9 0 []) ∧ ringOf (dieAt u (dieOf s.cur)) s.inp.sel =
      { ringOf (dieAt s (dieOf s.cur)) s.inp.sel with rd := wbits s.inp.value 0 13 } := by
  rw [execErrptrRdWrite, settable_of_ready _ h]
  refine ⟨_, congrArg (fun w => settled w) (if_neg ?_), by simp⟩
  simpa [RingIndexFits] using hfit
theorem execErrptrRdWrite_of_not_fits {s : State} (h : RegistersReady s) (hfit : ¬RingIndexFits s) :
    execErrptrRdWrite s = .next (respond s 9 0 []) := by
  rw [execErrptrRdWrite, settable_of_ready _ h]
  refine congrArg settled (if_pos ?_)
  simpa only [RingIndexFits, Classical.not_not, Bool.or_eq_true, decide_eq_true_eq] using hfit
theorem execErrptrRead_of_ready {s : State} (h : RegistersReady s) :
    ∃ u, execErrptrRead s = .next (respond u 9 0 (leBytes 8 (ringPtr (ringOf (dieAt s (dieOf s.cur)) s.inp.sel))))
      ∧ ringOf (dieAt u (dieOf s.cur)) s.inp.sel = { ringOf (dieAt s (dieOf s.cur)) s.inp.sel with dropped := 0 } :=
  ⟨_, settable_of_ready _ h, by simp⟩
theorem execErrptrRead_of_stage_ne {s : State} (hup : coreUp s = true) (h : (myDie s).stage ≠ 2) :
    execErrptrRead s = .next (respond s 9 1 []) := settable_of_stage_ne _ hup h
theorem execErrptrRead_of_down {s : State} (h : coreUp s = false) : execErrptrRead s = .next s := settable_of_down _ h

/-! ### The tenant table -/

theorem execLandcntRead_of_ready {s : State} (h : RegistersReady s) :
    let x := tenantAt s (dieOf s.cur) (namedTenant s)
    ∃ u, execLandcntRead s = .next (respond u 9 0 (leBytes 8 (x.stale * 2 ^ 32 + x.refused)))
      ∧ tenantAt u (dieOf s.cur) (namedTenant s) = { x with stale := 0, refused := 0 } :=
  ⟨_, settable_of_ready _ h, by simp⟩
theorem execLandcntRead_of_stage_ne {s : State} (hup : coreUp s = true) (h : (myDie s).stage ≠ 2) :
    execLandcntRead s = .next (respond s 9 1 []) := settable_of_stage_ne _ hup h
/-- The areas of the save pool that the host writes lie in memory (R433). -/
def savepoolFits (s : State) : Bool :=
  areasFit (wbits s.inp.value 36 28 * 65536) (if bitOf s.inp.value.toNat 24 then wbits s.inp.value 12 12 + 1 else 0)
/-- The slots of the dump area that the host writes lie in memory (R438). -/
def dumpareaFits (s : State) : Bool := areasFit (wbits s.inp.value 44 20 * 2 ^ 24) (wbits s.inp.value 40 4 + 1)

theorem settled_updTenant_if (s : State) (ok : Bool) (d t : Nat) (f : Tenant → Tenant) :
    (ok = true → ∃ u, settled (if ok then updTenant s d t f else s) = .next (respond u 9 0 []) ∧ tenantAt u d t = f (tenantAt s d t))
      ∧ (ok = false → settled (if ok then updTenant s d t f else s) = .next (respond s 9 0 [])) := by
  cases ok
  · exact ⟨nofun, fun _ => rfl⟩
  · exact ⟨fun _ => ⟨_, rfl, tenantAt_updTenant ..⟩, nofun⟩
theorem execSavepoolWrite_of_ready {s : State} (h : RegistersReady s) :
    let x := tenantAt s (dieOf s.cur) (namedTenant s)
    (savepoolFits s = true → ∃ u, execSavepoolWrite s = .next (respond u 9 0 []) ∧ tenantAt u (dieOf s.cur) (namedTenant s) =
        { x with savepool := mixWord x.savepool s.inp.value (maskOf 63 36 + maskOf 24 12) })
      ∧ (savepoolFits s = false → execSavepoolWrite s = .next (respond s 9 0 [])) := by
  rw [execSavepoolWrite, settable_of_ready _ h]
  exact settled_updTenant_if s (savepoolFits s) ..
theorem execDumpcfgWrite_of_ready {s : State} (h : RegistersReady s) :
    let x := tenantAt s (dieOf s.cur) (namedTenant s)
    (dumpareaFits s = true → ∃ u, execDumpcfgWrite s = .next (respond u 9 0 []) ∧ tenantAt u (dieOf s.cur) (namedTenant s) =
        { x with dumpcfg := mixWord x.dumpcfg s.inp.value (maskOf 63 9 + maskOf 1 0) })
      ∧ (dumpareaFits s = false → execDumpcfgWrite s = .next (respond s 9 0 [])) := by
  rw [execDumpcfgWrite, settable_of_ready _ h]
  exact settled_updTenant_if s (dumpareaFits s) ..
theorem writeTenant_next (s : State) (f : Tenant → Tenant) :
    ∃ u, writeTenant s f = .next (respond u 9 0 [])
      ∧ tenantAt u (dieOf s.cur) (namedTenant s) = f (tenantAt s (dieOf s.cur) (namedTenant s)) :=
  ⟨_, rfl, tenantAt_updTenant ..⟩

/-! ### The governor's base (R163) -/

theorem bitOf_or_one (v : Word) : bitOf (v ||| 1).toNat 0 = true := by
  rw [bitOf_word]
  simp
theorem writeGovbase_of_walk {s s1 : State} {d t : Nat} {v : Word} {l : List Tlb} (hv : bitOf v.toNat 0 = true)
    (h : govWalk s d t (govSteps (mixWord 0 v (maskOf 56 22)).toNat) = some (l, s1)) :
    writeGovbase s d t v =
      .next (respond (updTenant s1 d t fun x => { x with govbase := mixWord 0 v (maskOf 56 22) ||| 1, govTr := l }) 9 0 []) := by
  simp only [writeGovbase, settled, hv, h, Bool.not_true, Bool.false_eq_true, if_false]
theorem writeGovbase_of_fault {s : State} {d t : Nat} {v : Word} (hv : bitOf v.toNat 0 = true)
    (h : govWalk s d t (govSteps (mixWord 0 v (maskOf 56 22)).toNat) = none) :
    writeGovbase s d t v =
      .next (respond (updTenant s d t fun x => { x with govbase := mixWord 0 v (maskOf 56 22), govTr := [] }) 9 2 []) := by
  simp only [writeGovbase, hv, h, Bool.not_true, Bool.false_eq_true, if_false]
theorem execGovbaseValidSet_of_ready {s : State} (h : RegistersReady s) :
    execGovbaseValidSet s = writeGovbase s (dieOf s.cur) (namedTenant s) (s.inp.value ||| 1) := settable_of_ready _ h

/-! ### Registers without a row of their own (R13) -/

theorem execRegisterWrite_of_served {s : State} (h : RegisterServed s) :
    execRegisterWrite s =
      if s.inp.flag2 then .next ((readRegister s s.inp.sel).elim (respond s 9 1 []) (respond s 9 0))
      else writeRegister s s.inp.sel s.inp.value := by
  obtain ⟨hup, hslot, hfull, hstage⟩ := h
  have hserved : (runSlot (myDie s) = 15 || (myDie s).safeOnly && registerStage s.inp.sel ≠ 0
      || (myDie s).halted.isSome && registerStage s.inp.sel ≠ 0 || (myDie s).stage < registerStage s.inp.sel) = false := by
    obtain ⟨hsafe, hrun⟩ | hzero := hfull
    · simp [hslot, hsafe, hrun, hstage]
    · simp [hslot, hzero]
  unfold execRegisterWrite
  simp only [hup, hserved, Bool.not_true, Bool.false_eq_true, if_false]
  cases readRegister s s.inp.sel <;> rfl
theorem execRegisterWrite_of_below {s : State} (hup : coreUp s = true) (h : (myDie s).stage < registerStage s.inp.sel) :
    execRegisterWrite s = .next (respond s 9 1 []) := by
  simp [execRegisterWrite, hup, h]
theorem execRegisterWrite_of_down {s : State} (h : coreUp s = false) : execRegisterWrite s = .next s := by
  simp [execRegisterWrite, wait, h]
theorem writeRegister_identity (s : State) (v : Word) :
    ∃ u, writeRegister s 21 v = .next (respond u 9 0 []) ∧ (dieAt u (dieOf s.cur)).identity =
      aset (dieAt s (dieOf s.cur)).identity (s.inp.unit % 1026) (fieldAt s.inp.bytes 0 32) :=
  ⟨_, rfl, by simp⟩

/-- Settles O55: each access by the lemma of its register, under the stage that `settable` or `execRegisterWrite` asks for. -/
theorem registerEvents : Obligations.RegisterEvents := by
  intro s s1 l b d die ready r i fits te entry v base off pool dump from' serves
  refine ⟨execErrcfgEnable_of_ready, execErrptrRdWrite_of_fits, execErrptrRdWrite_of_not_fits, execErrptrRead_of_ready,
    execLandcntRead_of_ready, fun h => (execSavepoolWrite_of_ready h).1, fun h => (execSavepoolWrite_of_ready h).2,
    fun h => (execDumpcfgWrite_of_ready h).1, fun h => (execDumpcfgWrite_of_ready h).2, ?govbase, ?govbaseFault, ?write, ?read,
    ?unnamed, execRegisterWrite_of_below, ?ctxbud, ?tvec, ?identity, rfl, rfl, rfl, rfl, ?pwrcap,
    fun hup h => ⟨execErrptrRead_of_stage_ne hup h, execLandcntRead_of_stage_ne hup h⟩,
    fun h => ⟨execErrptrRead_of_down h, execRegisterWrite_of_down h⟩⟩
  case govbase => exact fun h hwalk => (execGovbaseValidSet_of_ready h).trans (writeGovbase_of_walk (bitOf_or_one v) hwalk)
  case govbaseFault => exact fun h hwalk => (execGovbaseValidSet_of_ready h).trans (writeGovbase_of_fault (bitOf_or_one v) hwalk)
  case write => exact fun h hf => (execRegisterWrite_of_served h).trans (by simp [hf, v])
  case read => exact fun h hf hr => (execRegisterWrite_of_served h).trans (by simp [hf, hr])
  case unnamed => exact fun h hf hr => (execRegisterWrite_of_served h).trans (by simp [hf, hr])
  case ctxbud => exact fun h => h ▸ writeTenant_next s _
  case tvec => exact fun h => h ▸ writeTenant_next s _
  case identity => exact fun h => h ▸ writeRegister_identity s v
  case pwrcap => exact fun h => congrArg (writeRegister s · v) h

end Sys2Proof.Machine

/-! ## Device memory and the tags of its sheets stay in canonical form (log 4)

One lemma for each operation that answers a state, in the order of the model: it keeps `memoryWf`. A meaning keeps it (`NextWf`), and so
does every state inside an answer that ends early (`XlatWf`, `TouchWf`, `VReadWf`, `GovWf`). -/
namespace Sys2Proof.Machine
section
-- One proof at a time: proofs elaborated side by side wait for one another's equation lemmas, each in a thread with a stack of its own.
set_option Elab.async false
variable {s t : State}

/-- What a meaning answers holds device memory in canonical form. -/
def NextWf : Res → Prop
  | .next t => memoryWf t
  | _ => True
/-- So does the state in which a translation ends. -/
def XlatWf : Xlat → Prop
  | .ok _ t => memoryWf t
  | _ => True
/-- So does a state that the failure of a unit's rewrite holds. -/
def TouchWf : TouchErr → Prop
  | .xlat _ x => XlatWf x
  | _ => True
/-- So does every state in which a read of device memory ends. -/
def VReadWf : VRead → Prop
  | .ok _ t | .window t | .ecc _ t => memoryWf t
  | .xlat _ x => XlatWf x

theorem memoryWf_mk (hs : memoryWf s) (cur cx iss inp ctxs tiles dies z l2 hostLines ecc flash now schedule rr free) :
    memoryWf ⟨cur, cx, iss, inp, ctxs, tiles, dies, z, s.mem, s.tags, l2, hostLines, ecc, flash, now, schedule, rr, free⟩ := hs
theorem memoryWf_foldl {α : Type} {f : State → α → State} (hf : ∀ s x, memoryWf s → memoryWf (f s x)) (l : List α) (hs : memoryWf s) :
    memoryWf (l.foldl f s) := foldl_keeps (P := memoryWf) hf l s hs

/-! ### Contexts, tiles and dies -/

theorem memoryWf_setCtx (hs : memoryWf s) (p c) : memoryWf (setCtx s p c) := by
  unfold setCtx
  split <;> exact hs
theorem memoryWf_updCtx (hs : memoryWf s) (p f) : memoryWf (updCtx s p f) := memoryWf_setCtx hs ..
theorem memoryWf_updCx (hs : memoryWf s) (f) : memoryWf (updCx s f) := hs
theorem memoryWf_focus (hs : memoryWf s) (p) : memoryWf (focus s p) := by
  unfold focus
  split <;> exact hs
theorem memoryWf_setTile (hs : memoryWf s) (k x) : memoryWf (setTile s k x) := hs
theorem memoryWf_updTile (hs : memoryWf s) (k f) : memoryWf (updTile s k f) := hs
theorem memoryWf_setDie (hs : memoryWf s) (d x) : memoryWf (setDie s d x) := hs
theorem memoryWf_updDie (hs : memoryWf s) (d f) : memoryWf (updDie s d f) := hs
theorem memoryWf_updPort (hs : memoryWf s) (d k f) : memoryWf (updPort s d k f) := hs
theorem memoryWf_updTenant (hs : memoryWf s) (d k f) : memoryWf (updTenant s d k f) := hs
theorem memoryWf_updCluster (hs : memoryWf s) (d c f) : memoryWf (updCluster s d c f) := hs
theorem memoryWf_freeW (hs : memoryWf s) : memoryWf (freeW s).2 := hs
theorem memoryWf_settle (hs : memoryWf s) (p) : memoryWf (settle s p) := by
  unfold settle
  grind [memoryWf_updTenant, memoryWf_updCtx]
theorem memoryWf_settleTile (hs : memoryWf s) (k) : memoryWf (settleTile s k) := by
  unfold settleTile
  grind [memoryWf_settle, memoryWf_foldl]

/-! ### Device memory and translation -/

theorem memoryWf_setEcc (hs : memoryWf s) (line m l) : memoryWf (setEcc s line m l) := hs
theorem memoryWf_countSlice (hs : memoryWf s) (line off) : memoryWf (countSlice s line off) := memoryWf_surveyCount hs ..
theorem memoryWf_dropLines (hs : memoryWf s) (lines l1) : memoryWf (dropLines s lines l1) := hs
theorem memoryWf_eccFix (hs : memoryWf s) (key n) : memoryWf (eccFix s key n) := by
  unfold eccFix
  grind [memoryWf_setEcc, memoryWf_mk, memoryWf_foldl]
theorem memoryWf_windowRecall (hs : memoryWf s) (key n wr) : memoryWf (windowRecall s key n wr) := hs
theorem xlatWf_translate (hs : memoryWf s) (p e va wr fetch) : XlatWf (translate s p e va wr fetch) := by
  unfold translate
  grind [XlatWf, useTlb, walk, memoryWf_touch, memoryWf_updTile, memoryWf_foldl]
theorem memoryWf_translate {p e va wr fetch k t} (hr : translate s p e va wr fetch = .ok k t) (hs : memoryWf s) : memoryWf t := by
  simpa [hr, XlatWf] using xlatWf_translate hs p e va wr fetch
theorem memoryWf_translateRange {p e wr l a t} (hr : translateRange s p e wr l = .ok (a, t)) (hs : memoryWf s) : memoryWf t := by
  induction l generalizing s a with
  | nil => grind [translateRange]
  | cons x l ih => unfold translateRange at hr; grind [memoryWf_translate]
theorem xlatWf_translateRange_error {p e wr l a x} (hr : translateRange s p e wr l = .error (a, x)) (hs : memoryWf s) : XlatWf x := by
  induction l generalizing s with
  | nil => grind [translateRange]
  | cons x l ih => unfold translateRange at hr; grind [memoryWf_translate, xlatWf_translate, XlatWf]
theorem memoryWf_touchPieces (hs : memoryWf s) (tenant l) : memoryWf (touchPieces s tenant l) := by
  unfold touchPieces
  grind [memoryWf_touch, memoryWf_foldl]
theorem memoryWf_pokePieces (hs : memoryWf s) (tenant : Nat) (l : List (Nat × Nat)) (d : List Byte) :
    memoryWf (pokePieces s tenant l d) := by
  induction l generalizing s d with
  | nil => exact hs
  | cons x r ih => exact ih (memoryWf_poke hs ..) ..

/-! ### Shared operations -/

theorem memoryWf_sendPacket (hs : memoryWf s) (p0) : memoryWf (sendPacket s p0) := by
  unfold sendPacket
  grind [memoryWf_updDie]
theorem memoryWf_ringPut (hs : memoryWf s) (d r size b) : memoryWf (ringPut s d r size b).1 := by
  unfold ringPut
  grind [memoryWf_pokeThrough]
theorem memoryWf_tellHost (hs : memoryWf s) (d b) : memoryWf (tellHost s d b) := by
  unfold tellHost
  grind [memoryWf_updDie, memoryWf_sendPacket]
theorem memoryWf_writeNumbered (hs : memoryWf s) (d n x0) : memoryWf (writeNumbered s d n x0) := by
  unfold writeNumbered
  grind [memoryWf_updDie, memoryWf_pokeThrough, memoryWf_ringPut, memoryWf_tellHost]
theorem memoryWf_writeRecord (hs : memoryWf s) (d x) : memoryWf (writeRecord s d x) := memoryWf_writeNumbered hs ..
theorem memoryWf_updTask (hs : memoryWf s) (d k f) : memoryWf (updTask s d k f) := hs
theorem memoryWf_queueDump (hs : memoryWf s) (d name) : memoryWf (queueDump s d name) := by
  unfold queueDump
  grind [memoryWf_updDie, memoryWf_writeRecord]
theorem memoryWf_formatRecord (hs : memoryWf s) (p k sev) : memoryWf (formatRecord s p k sev) := by
  unfold formatRecord
  split
  · exact hs
  · exact memoryWf_writeRecord hs ..
theorem memoryWf_dataFault (hs : memoryWf s) (p t0) : memoryWf (dataFault s p t0) := by
  unfold dataFault
  grind [memoryWf_updCtx, memoryWf_formatRecord]
theorem memoryWf_recordPending (hs : memoryWf s) (p) : memoryWf (recordPending s p) := by
  unfold recordPending
  grind [memoryWf_formatRecord, memoryWf_foldl]
theorem memoryWf_stopTask (hs : memoryWf s) (d k reason culprit j) : memoryWf (stopTask s d k reason culprit j) := by
  unfold stopTask
  grind [memoryWf_updTask, memoryWf_updCtx, memoryWf_recordPending, memoryWf_queueDump, memoryWf_foldl]
theorem memoryWf_stopMine (hs : memoryWf s) (reason k) : memoryWf (stopMine s reason k) := memoryWf_stopTask hs ..
theorem memoryWf_freezeChart (hs : memoryWf s) (p) : memoryWf (freezeChart s p) := by
  unfold freezeChart
  split
  · exact hs
  · exact memoryWf_updDie hs ..
theorem memoryWf_unfreezeChart (hs : memoryWf s) (p) : memoryWf (unfreezeChart s p) := by
  unfold unfreezeChart
  split
  · exact hs
  · exact memoryWf_updDie hs ..
theorem memoryWf_thawChart (hs : memoryWf s) (p) : memoryWf (thawChart s p) := by
  unfold thawChart
  grind [memoryWf_unfreezeChart]
theorem nextWf_done (hs : memoryWf s) (e) : NextWf (done e s) := hs
theorem nextWf_doneCC (hs : memoryWf s) (e k) : NextWf (doneCC e k s) := hs
theorem nextWf_wait (hs : memoryWf s) : NextWf (wait s) := hs
theorem memoryWf_trapEntry (hs : memoryWf s) (k) : memoryWf (trapEntry s k) := by
  unfold trapEntry
  grind [memoryWf_stopMine, memoryWf_formatRecord, memoryWf_mk]
theorem memoryWf_takeTrap (hs : memoryWf s) (t0) : memoryWf (takeTrap s t0) := by
  unfold takeTrap
  split
  · exact memoryWf_trapEntry hs ..
  · exact hs
theorem memoryWf_trapAt (hs : memoryWf s) (e cls code tval) : memoryWf (trapAt e cls code tval s) := by
  unfold trapAt
  grind [memoryWf_takeTrap, memoryWf_mk]
theorem nextWf_trap (hs : memoryWf s) (e code tval) : NextWf (trap e code tval s) := memoryWf_trapAt hs ..
theorem nextWf_trapN (hs : memoryWf s) (e code v) : NextWf (trapN e code v s) := nextWf_trap hs ..
theorem memoryWf_pageFault (hs : memoryWf s) (e va cause access level) : memoryWf (pageFault s e va cause access level) := by
  unfold pageFault
  grind [memoryWf_stopMine, memoryWf_freezeChart, memoryWf_ringPut, memoryWf_tellHost, memoryWf_updDie, memoryWf_mk]
theorem memoryWf_mapAppend (hs : memoryWf s) (d e) : memoryWf (mapAppend s d e) := by
  unfold mapAppend
  grind [memoryWf_updDie, memoryWf_writeRecord]
theorem memoryWf_bankCheck (hs : memoryWf s) (d b key) : memoryWf (bankCheck s d b key) := by
  unfold bankCheck
  grind [memoryWf_updDie, memoryWf_writeRecord]
theorem memoryWf_beginSparing (hs : memoryWf s) (d r) : memoryWf (beginSparing s d r) := by
  unfold beginSparing
  grind [memoryWf_updDie, memoryWf_writeRecord]
theorem memoryWf_rowError (hs : memoryWf s) (key uncorrected) : memoryWf (rowError s key uncorrected) := by
  unfold rowError
  grind [memoryWf_updDie, memoryWf_bankCheck, memoryWf_beginSparing]
theorem memoryWf_freeRecord (hs : memoryWf s) (d x) : memoryWf (freeRecord s d x) := memoryWf_writeRecord hs ..
theorem memoryWf_eccCorrectLine (hs : memoryWf s) (l) : memoryWf (eccCorrectLine s l) := by
  unfold eccCorrectLine
  grind [memoryWf_rowError, memoryWf_freeRecord, memoryWf_eccFix]
theorem memoryWf_eccCorrect (hs : memoryWf s) (key n) : memoryWf (eccCorrect s key n) := by
  unfold eccCorrect
  grind [memoryWf_eccCorrectLine, memoryWf_foldl]
theorem memoryWf_eccStop (hs : memoryWf s) (unit addr) : memoryWf (eccStop s unit addr) := memoryWf_stopMine (memoryWf_freeRecord hs ..) ..
theorem memoryWf_eccStopAt (hs : memoryWf s) (key n) : memoryWf (eccStopAt s key n) := by
  unfold eccStopAt
  grind [memoryWf_rowError, memoryWf_stopMine, memoryWf_freeRecord]
theorem memoryWf_walkStop (hs : memoryWf s) (va) : memoryWf (walkStop s va) := memoryWf_stopMine (memoryWf_writeRecord hs ..) ..
theorem nextWf_badXlat {x : Xlat} (hx : XlatWf x) (hs : memoryWf s) (e : Engine) (va access : Nat) : NextWf (badXlat e va access x s) := by
  unfold badXlat
  grind [XlatWf, NextWf, nextWf_trapN, memoryWf_pageFault, memoryWf_walkStop]

/-! ### Issue -/

theorem memoryWf_issuePassed (hs : memoryWf s) (e) : memoryWf (issuePassed s e) := by
  unfold issuePassed
  split
  · exact hs
  · exact memoryWf_updTile hs ..
theorem memoryWf_issuing (hs : memoryWf s) (x k) : memoryWf (issuing s x k) := hs
theorem memoryWf_prepare {e i t} (hr : prepare s e = .ok (i, t)) (hs : memoryWf s) : memoryWf t := by
  unfold prepare at hr
  (repeat' split at hr) <;> grind [memoryWf_issuing]
theorem nextWf_prepare_error {e} {r} (hr : prepare s e = .error r) (hs : memoryWf s) : NextWf r := by
  unfold prepare at hr
  (repeat' split at hr) <;> grind [memoryWf_issuing, NextWf, nextWf_wait, nextWf_trapN, memoryWf_mk]

/-! ### Integers -/

theorem nextWf_result (hs : memoryWf s) (d v) : NextWf (result d v s) := hs

/-! ### Legends and sheet tags -/

theorem memoryWf_readLegend {p e id a t} (hr : readLegend s p e id = .ok (a, t)) (hs : memoryWf s) : memoryWf t := by
  unfold readLegend at hr
  grind [memoryWf_translate, memoryWf_touch]
theorem touchWf_readLegend_error {p e id} {r} (hr : readLegend s p e id = .error r) (hs : memoryWf s) : TouchWf r := by
  unfold readLegend at hr
  grind [xlatWf_translate, TouchWf]
theorem memoryWf_setTag (hs : memoryWf s) (key tag : Nat) : memoryWf (setTag s key tag) := ⟨hs.1, memWf_memSet hs.2 _ _⟩
theorem memoryWf_lowerLaggard {p e id n} (hr : lowerLaggard s p e id n = .ok t) (hs : memoryWf s) : memoryWf t := by
  unfold lowerLaggard at hr
  grind [memoryWf_translate, memoryWf_poke]
theorem memoryWf_touchUnit {p e snap id va} {r} (hr : touchUnit s p e snap id va = .ok r) (hs : memoryWf s) : memoryWf r := by
  unfold touchUnit at hr
  dsimp only at hr
  (repeat' split at hr) <;> grind [memoryWf_translate, memoryWf_eccCorrect, memoryWf_lowerLaggard, memoryWf_poke, memoryWf_touch,
    memoryWf_setTag, memoryWf_mk, memoryWf_foldl]
theorem touchWf_lowerLaggard_error {p e id n} {r} (hr : lowerLaggard s p e id n = .error r) (hs : memoryWf s) : TouchWf r := by
  unfold lowerLaggard at hr
  grind [xlatWf_translate, TouchWf]
theorem touchWf_reencodeRows_error {l old new uva ukey rows} {r} (hr : reencodeRows s l old new uva ukey rows = .error r) : TouchWf r := by
  induction rows generalizing r with
  | nil => grind [reencodeRows]
  | cons va l ih => unfold reencodeRows at hr; grind [TouchWf]
theorem touchWf_touchUnit_error {p e snap id va} {f} (hr : touchUnit s p e snap id va = .error f) (hs : memoryWf s) : TouchWf f := by
  unfold touchUnit at hr
  dsimp only at hr
  (repeat' split at hr) <;> grind [xlatWf_translate, TouchWf, touchWf_lowerLaggard_error, touchWf_reencodeRows_error, memoryWf_translate,
    memoryWf_touch, memoryWf_eccCorrect, memoryWf_lowerLaggard, memoryWf_poke, memoryWf_setTag, memoryWf_mk, memoryWf_foldl]
theorem memoryWf_touchUnits {p e snap id l} {r} (hr : touchUnits s p e snap id l = .ok r) (hs : memoryWf s) : memoryWf r := by
  induction l generalizing s r with
  | nil => grind [touchUnits]
  | cons x l ih => unfold touchUnits at hr; grind [memoryWf_touchUnit]
theorem touchWf_touchUnits_error {p e snap id l} {f} (hr : touchUnits s p e snap id l = .error f) (hs : memoryWf s) : TouchWf f := by
  induction l generalizing s with
  | nil => grind [touchUnits]
  | cons x l ih => unfold touchUnits at hr; grind [memoryWf_touchUnit, touchWf_touchUnit_error]
theorem memoryWf_reencodeStop (hs : memoryWf s) (subkind va value cause) : memoryWf (reencodeStop s subkind va value cause) :=
  memoryWf_stopMine (memoryWf_writeRecord hs ..) ..
theorem nextWf_badTouch {x : TouchErr} (hx : TouchWf x) (hs : memoryWf s) (e : Engine) (a : Nat) (b : List Byte) :
    NextWf (badTouch e a b x s) := by
  unfold badTouch
  grind [TouchWf, NextWf, nextWf_trapN, nextWf_badXlat, XlatWf, memoryWf_reencodeStop, memoryWf_eccStopAt]

/-! ### The allotment -/

theorem nextWf_checked {k : State → Res} (hk : ∀ s, memoryWf s → NextWf (k s)) (hs : memoryWf s) (e f) : NextWf (checked e f k s) := by
  unfold checked
  grind [nextWf_trap]
theorem memoryWf_spadMeet {l} {r} (hr : spadMeet s l = .ok r) (hs : memoryWf s) : memoryWf r := by
  unfold spadMeet at hr
  grind [memoryWf_freeRecord, memoryWf_mk]
theorem memoryWf_spadMeet_error {l} {r} (hr : spadMeet s l = .error r) (hs : memoryWf s) : memoryWf r := by
  unfold spadMeet at hr
  grind [memoryWf_eccStop]
theorem nextWf_consuming {k : State → Res} (hk : ∀ s, memoryWf s → NextWf (k s)) (hs : memoryWf s) (l : List (Nat × Nat)) :
    NextWf (consuming l k s) := by
  unfold consuming
  grind [memoryWf_spadMeet, memoryWf_spadMeet_error, NextWf]
theorem memoryWf_depart (hs : memoryWf s) (w l) : memoryWf (depart s w l) := by
  unfold depart
  grind [memoryWf_sendPacket, memoryWf_mk]

/-! ### L and its streams -/

theorem nextWf_loadElems (hs : memoryWf s) (q n al l post) : NextWf (loadElems q n al l post s) := by
  unfold loadElems
  grind [nextWf_checked, nextWf_consuming, nextWf_done, memoryWf_mk]
theorem nextWf_execLdq (hs : memoryWf s) (q a pi) : NextWf (execLdq q a pi s) := by
  unfold execLdq
  grind [nextWf_wait, nextWf_loadElems]
theorem nextWf_execLdqs (hs : memoryWf s) (q a b lg pi) : NextWf (execLdqs q a b lg pi s) := by
  unfold execLdqs
  grind [nextWf_wait, nextWf_loadElems]
theorem nextWf_execLdqg (hs : memoryWf s) (q a b lg pi) : NextWf (execLdqg q a b lg pi s) := by
  unfold execLdqg
  grind [nextWf_wait, nextWf_checked, nextWf_consuming, nextWf_loadElems]
theorem vreadWf_virtRead (hs : memoryWf s) (e l) : VReadWf (virtRead s e l) := by
  unfold virtRead
  grind [VReadWf, memoryWf_translateRange, xlatWf_translateRange_error, memoryWf_windowRecall, memoryWf_touchPieces, memoryWf_eccCorrect,
    memoryWf_foldl]
theorem nextWf_badRead {r : VRead} (hr : VReadWf r) (hs : memoryWf s) (e) : NextWf (badRead e r s) := by
  unfold badRead
  grind [VReadWf, NextWf, nextWf_badXlat, XlatWf, memoryWf_eccStopAt]
theorem nextWf_bindStream (hs : memoryWf s) (k x) : NextWf (bindStream k x s) := hs
theorem nextWf_issueStream (hs : memoryWf s) (q k contour b) : NextWf (issueStream q k contour b s) := by
  unfold issueStream
  dsimp only
  (repeat' split) <;> grind [nextWf_trapN, memoryWf_readLegend, touchWf_readLegend_error, nextWf_badTouch, TouchWf, nextWf_checked,
    nextWf_bindStream]
theorem nextWf_stream (hs : memoryWf s) (q a k contour) : NextWf (stream q a k contour s) := by
  unfold stream
  grind [nextWf_trapN, nextWf_checked, nextWf_consuming, nextWf_trap, nextWf_issueStream]
theorem nextWf_execStrmxWait (hs : memoryWf s) (k) : NextWf (execStrmxWait k s) := by
  unfold execStrmxWait
  grind [nextWf_wait, nextWf_done]
theorem nextWf_rowRead (hs : memoryWf s) (k x b) : NextWf (rowRead k x b s) := hs
theorem nextWf_virtRow (hs : memoryWf s) (k x l) : NextWf (virtRow k x l s) := by
  unfold virtRow
  grind [VReadWf, memoryWf_touchUnits, touchWf_touchUnits_error, nextWf_badTouch, TouchWf, vreadWf_virtRead, XlatWf, nextWf_rowRead,
    nextWf_badRead]
theorem nextWf_execStreamRowPush (hs : memoryWf s) : NextWf (execStreamRowPush s) := by
  unfold execStreamRowPush
  grind [nextWf_wait, nextWf_consuming, nextWf_rowRead, nextWf_virtRow, memoryWf_mk]
theorem nextWf_passMarks (hs : memoryWf s) : NextWf (passMarks s) := by
  unfold passMarks
  grind [nextWf_wait, memoryWf_mk, NextWf]
theorem nextWf_execMarkPairRelease (hs : memoryWf s) : NextWf (execMarkPairRelease s) := by
  unfold execMarkPairRelease
  grind [nextWf_passMarks, nextWf_wait]

/-! ### S -/

theorem nextWf_doneStat (hs : memoryWf s) (e k x) : NextWf (doneStat e k x s) := hs
theorem memoryWf_storeElems (hs : memoryWf s) (l) : memoryWf (storeElems s l) := by
  unfold storeElems
  grind [memoryWf_depart, memoryWf_mk, memoryWf_foldl]
theorem nextWf_storeRow {k : State → Res} (hk : ∀ s, memoryWf s → NextWf (k s)) (hs : memoryWf s) (e l row gov) :
    NextWf (storeRow e l row gov k s) := by
  unfold storeRow
  grind [nextWf_checked, memoryWf_storeElems, nextWf_wait]
theorem nextWf_storeQ (hs : memoryWf s) (a q g pi cc stat first layer) : NextWf (storeQ a q g pi cc stat first layer s) := by
  unfold storeQ
  grind [nextWf_wait, nextWf_storeRow, nextWf_doneCC, nextWf_doneStat, memoryWf_mk]
theorem nextWf_execStqs (hs : memoryWf s) (a b q g pi lg cc) : NextWf (execStqs a b q g pi lg cc s) := by
  unfold execStqs
  grind [nextWf_wait, nextWf_storeRow, nextWf_doneCC, memoryWf_mk]
theorem nextWf_execStqx (hs : memoryWf s) (a i q g lg cc) : NextWf (execStqx a i q g lg cc s) := by
  unfold execStqx
  grind [nextWf_wait, nextWf_storeRow, nextWf_doneCC, memoryWf_mk]
theorem nextWf_execStrw (hs : memoryWf s) (a q g pi op ty cc) : NextWf (execStrw a q g pi op ty cc s) := by
  unfold execStrw
  grind [nextWf_wait, nextWf_checked, nextWf_consuming, nextWf_doneCC, memoryWf_mk]
theorem nextWf_updRow (hs : memoryWf s) (fn p mode on a q layer pi cc r) : NextWf (updRow fn p mode on a q layer pi cc r s) := by
  unfold updRow
  grind [nextWf_doneCC, nextWf_doneStat, memoryWf_mk]
theorem nextWf_execUpd (hs : memoryWf s) (a b q g fn pi rnd layer cc) : NextWf (execUpd a b q g fn pi rnd layer cc s) := by
  unfold execUpd
  grind [nextWf_wait, nextWf_doneCC, nextWf_trapN, nextWf_checked, nextWf_consuming, nextWf_trap, nextWf_updRow, memoryWf_mk]

/-! ### Operands of V -/

theorem memoryWf_readReg (hs : memoryWf s) (v : Nat) : memoryWf (readReg s v).2 := by
  rw [(readReg_facts s v).2]; exact hs
theorem memoryWf_readRegM (hs : memoryWf s) (v : Nat) : memoryWf (readRegM s v).2 :=
  List.foldlRecOn (motive := fun p : List Elem × State => memoryWf p.2) _ _ (memoryWf_readReg hs v) fun _ h _ _ => h
theorem memoryWf_readSrc (hs : memoryWf s) (a) : memoryWf (readSrc s a).2 := by
  unfold readSrc
  split
  · exact memoryWf_readReg hs ..
  · exact hs
theorem memoryWf_readSrcs (hs : memoryWf s) (l : List VLoc) : memoryWf (readSrcs s l).2 := by
  induction l generalizing s with
  | nil => exact hs
  | cons x l ih => exact ih (memoryWf_readSrc hs x)
theorem nextWf_vInstr (hs : memoryWf s) (srcs d g lat f) : NextWf (vInstr srcs d g lat f s) := by
  unfold vInstr
  grind [nextWf_wait, memoryWf_readSrcs, nextWf_done, memoryWf_mk]
theorem nextWf_vMap1 (hs : memoryWf s) (d a g lat f) : NextWf (vMap1 d a g lat f s) := nextWf_vInstr hs ..
theorem nextWf_vMap2 (hs : memoryWf s) (d a b g lat f) : NextWf (vMap2 d a b g lat f s) := nextWf_vInstr hs ..
theorem nextWf_vMap3 (hs : memoryWf s) (d a b g f) : NextWf (vMap3 d a b g f s) := nextWf_vInstr hs ..
theorem nextWf_execExposedResultLand (hs : memoryWf s) : NextWf (execExposedResultLand s) := by
  unfold execExposedResultLand
  grind [nextWf_wait, memoryWf_mk, NextWf]

/-! ### V -/

theorem nextWf_vCompare (hs : memoryWf s) (p a b g f) : NextWf (vCompare p a b g f s) := by
  unfold vCompare
  grind [nextWf_wait, memoryWf_readSrcs, nextWf_done, memoryWf_mk]
theorem nextWf_execVfms (hs : memoryWf s) (d a b g) : NextWf (execVfms d a b g s) := nextWf_vMap3 hs ..
theorem nextWf_execVnma (hs : memoryWf s) (d a b g) : NextWf (execVnma d a b g s) := nextWf_vMap3 hs ..
theorem nextWf_execVsel (hs : memoryWf s) (d a b k) : NextWf (execVsel d a b k s) := nextWf_vInstr hs ..
theorem nextWf_execViadd (hs : memoryWf s) (ty d a b g) : NextWf (execViadd ty d a b g s) := nextWf_vMap2 hs ..
theorem nextWf_execVisub (hs : memoryWf s) (ty d a b g) : NextWf (execVisub ty d a b g s) := nextWf_vMap2 hs ..
theorem nextWf_execVimul (hs : memoryWf s) (ty d a b g) : NextWf (execVimul ty d a b g s) := nextWf_vMap2 hs ..
theorem nextWf_execVand (hs : memoryWf s) (ty d a b g) : NextWf (execVand ty d a b g s) := nextWf_vMap2 hs ..
theorem nextWf_execVor (hs : memoryWf s) (ty d a b g) : NextWf (execVor ty d a b g s) := nextWf_vMap2 hs ..
theorem nextWf_execVxor (hs : memoryWf s) (ty d a b g) : NextWf (execVxor ty d a b g s) := nextWf_vMap2 hs ..
theorem nextWf_execVshl (hs : memoryWf s) (ty d a b g) : NextWf (execVshl ty d a b g s) := nextWf_vMap2 hs ..
theorem nextWf_execVshr (hs : memoryWf s) (ty d a b g) : NextWf (execVshr ty d a b g s) := nextWf_vMap2 hs ..
theorem nextWf_execVsra (hs : memoryWf s) (ty d a b g) : NextWf (execVsra ty d a b g s) := nextWf_vMap2 hs ..
theorem nextWf_execVimin (hs : memoryWf s) (ty d a b g) : NextWf (execVimin ty d a b g s) := nextWf_vMap2 hs ..
theorem nextWf_execVimax (hs : memoryWf s) (ty d a b g) : NextWf (execVimax ty d a b g s) := nextWf_vMap2 hs ..
theorem nextWf_execVimad (hs : memoryWf s) (ty d a b g) : NextWf (execVimad ty d a b g s) := nextWf_vMap3 hs ..
theorem nextWf_execVacs (hs : memoryWf s) (d a b p) : NextWf (execVacs d a b p s) := by
  unfold execVacs
  grind [nextWf_wait, memoryWf_readSrcs, nextWf_done, memoryWf_mk]
theorem nextWf_execVcvt (hs : memoryWf s) (dst src mode d a g) : NextWf (execVcvt dst src mode d a g s) := nextWf_vInstr hs ..
theorem nextWf_execVrotr (hs : memoryWf s) (d a k g) : NextWf (execVrotr d a k g s) := nextWf_vInstr hs ..
theorem nextWf_execVrotc (hs : memoryWf s) (d a k g) : NextWf (execVrotc d a k g s) := nextWf_vInstr hs ..
theorem nextWf_execVbcr (hs : memoryWf s) (d a k g) : NextWf (execVbcr d a k g s) := nextWf_vInstr hs ..
theorem nextWf_execVbcc (hs : memoryWf s) (d a k g) : NextWf (execVbcc d a k g s) := nextWf_vInstr hs ..
theorem nextWf_execVredr (hs : memoryWf s) (op ty d a g) : NextWf (execVredr op ty d a g s) := nextWf_vInstr hs ..
theorem nextWf_execVredc (hs : memoryWf s) (op ty d a g) : NextWf (execVredc op ty d a g s) := nextWf_vInstr hs ..
theorem nextWf_execVscnr (hs : memoryWf s) (op ty d a g) : NextWf (execVscnr op ty d a g s) := nextWf_vInstr hs ..
theorem nextWf_execVmovi (hs : memoryWf s) (d imm) : NextWf (execVmovi d imm s) := nextWf_vInstr hs ..
theorem nextWf_execViota (hs : memoryWf s) (d g) : NextWf (execViota d g s) := nextWf_vInstr hs ..
theorem nextWf_execPcntRow (hs : memoryWf s) (d p) : NextWf (execPcntRow d p s) := nextWf_vInstr hs ..
theorem nextWf_execPcntAll (hs : memoryWf s) (d p) : NextWf (execPcntAll d p s) := nextWf_vInstr hs ..
theorem nextWf_execPfstRow (hs : memoryWf s) (d p) : NextWf (execPfstRow d p s) := nextWf_vInstr hs ..
theorem nextWf_execPfstAll (hs : memoryWf s) (d p) : NextWf (execPfstAll d p s) := nextWf_vInstr hs ..
theorem nextWf_execVpart (hs : memoryWf s) (d p a g) : NextWf (execVpart d p a g s) := by
  unfold execVpart
  grind [nextWf_wait, nextWf_done, memoryWf_mk]
theorem nextWf_execVgath (hs : memoryWf s) (d a b g) : NextWf (execVgath d a b g s) := nextWf_vInstr hs ..
theorem nextWf_execVscat (hs : memoryWf s) (d a b g) : NextWf (execVscat d a b g s) := nextWf_vInstr hs ..
theorem nextWf_execVpack (hs : memoryWf s) (d a w) : NextWf (execVpack d a w s) := nextWf_vInstr hs ..
theorem nextWf_execVunpk (hs : memoryWf s) (d a w sx) : NextWf (execVunpk d a w sx s) := nextWf_vInstr hs ..

/-! ### Quantisation -/

theorem nextWf_execVqnt (hs : memoryWf s) (f bs mode role layer d a) : NextWf (execVqnt f bs mode role layer d a s) := by
  unfold execVqnt
  grind [nextWf_wait, nextWf_trapN, memoryWf_readSrcs, nextWf_done, nextWf_doneStat, memoryWf_mk]
theorem nextWf_execVdqnt (hs : memoryWf s) (d a) : NextWf (execVdqnt d a s) := by
  unfold execVdqnt
  grind [nextWf_wait, memoryWf_readSrcs, nextWf_done, memoryWf_takeTrap, memoryWf_mk, NextWf]

/-! ### M -/

theorem memoryWf_slopeMark (hs : memoryWf s) (p on) : memoryWf (slopeMark s p on) := by
  unfold slopeMark
  grind [memoryWf_updCtx, memoryWf_settle]
theorem memoryWf_grantOne (hs : memoryWf s) : memoryWf (grantOne s) := by
  unfold grantOne
  grind [memoryWf_slopeMark, memoryWf_updTile, memoryWf_updCtx]
theorem nextWf_execSpanArbitration (hs : memoryWf s) : NextWf (execSpanArbitration s) := by
  unfold execSpanArbitration
  grind [nextWf_wait, memoryWf_grantOne, memoryWf_foldl, NextWf]
theorem memoryWf_slopeRecord (hs : memoryWf s) (d w) : memoryWf (slopeRecord s d w) := memoryWf_writeRecord hs ..
theorem memoryWf_lendSpans (hs : memoryWf s) (d need : Nat) : memoryWf (lendSpans s d need).1 :=
  List.foldlRecOn (motive := fun p : State × Nat => memoryWf p.1) _ _ hs fun _ h _ _ => h
theorem memoryWf_afterRelease (hs : memoryWf s) (tenant n) : memoryWf (afterRelease s tenant n) := by
  unfold afterRelease
  grind [memoryWf_updDie, memoryWf_lendSpans, memoryWf_slopeRecord]
theorem memoryWf_chargeSpans (hs : memoryWf s) (spans cycles) : memoryWf (chargeSpans s spans cycles) := hs
theorem memoryWf_giveSpans (hs : memoryWf s) (n) : memoryWf (giveSpans n s) := by
  unfold giveSpans
  grind [memoryWf_afterRelease, memoryWf_chargeSpans, memoryWf_mk]
theorem memoryWf_matrixFault (hs : memoryWf s) (seq sub tval addr header) : memoryWf (matrixFault s seq sub tval addr header) :=
  memoryWf_dataFault hs ..
theorem memoryWf_freeElems (hs : memoryWf s) (n) : memoryWf (freeElems s n).2 := hs
theorem nextWf_execMma (hs : memoryWf s) (n ta tb qa qb kq req pat cc) : NextWf (execMma n ta tb qa qb kq req pat cc s) := by
  unfold execMma
  grind [nextWf_checked, nextWf_wait, nextWf_done, memoryWf_mk]
theorem nextWf_execMmaPerform (hs : memoryWf s) : NextWf (execMmaPerform s) := by
  unfold execMmaPerform
  grind [nextWf_wait, memoryWf_settle, memoryWf_afterRelease, memoryWf_freeElems, memoryWf_matrixFault, memoryWf_mk, NextWf]
/-- The end of the columns holds no state but canonical ones. -/
def MmavEndWf : MmavEnd → Prop
  | .touch _ f => TouchWf f
  | .read _ r => VReadWf r
  | _ => True
theorem mmavColumns_wf (hs : memoryWf s) (x : Mmav) (n j : Nat) :
    memoryWf (mmavColumns x n j s).2 ∧ MmavEndWf (mmavColumns x n j s).1 := by
  induction n generalizing s j with
  | zero => exact ⟨hs, trivial⟩
  | succ n ih => unfold mmavColumns; grind [MmavEndWf, VReadWf, memoryWf_touchUnits, touchWf_touchUnits_error, vreadWf_virtRead, XlatWf,
    memoryWf_mk]
theorem nextWf_mmavEnd (hs : memoryWf s) (q k cc) : NextWf (mmavEnd q k cc s) := by
  unfold mmavEnd
  grind [nextWf_doneCC, memoryWf_giveSpans, memoryWf_mk]
theorem memoryWf_mmavHold (hs : memoryWf s) (j snap) : memoryWf (mmavHold j snap s) := memoryWf_giveSpans (memoryWf_mk hs ..) ..
theorem nextWf_mmavMalformed (hs : memoryWf s) (n j q k cc va header) : NextWf (mmavMalformed n j q k cc va header s) := by
  unfold mmavMalformed
  grind [memoryWf_freeElems, nextWf_mmavEnd, memoryWf_matrixFault, memoryWf_mk]
theorem memoryWf_mmavFailed {before after : State} {x : Xlat} (hx : XlatWf x) (hb : memoryWf before) (ha : memoryWf after) (j snap va) :
    NextWf (mmavFailed j snap va x before after) := by
  unfold mmavFailed
  grind [nextWf_badXlat, XlatWf, memoryWf_mmavHold, memoryWf_mk]
theorem nextWf_mmavRun (hs : memoryWf s) (x : Mmav) (q t j0 cc) : NextWf (mmavRun x q t j0 cc s) := by
  have hc := mmavColumns_wf hs x (16 - j0) j0
  unfold mmavRun
  grind [MmavEndWf, VReadWf, TouchWf, mmavColumns_wf, nextWf_mmavEnd, nextWf_mmavMalformed, memoryWf_mmavFailed, nextWf_badTouch,
    nextWf_wait, nextWf_badRead, memoryWf_mk]
theorem memoryWf_mmavShape {tb snap id va a b t} (hr : mmavShape tb snap id va s = .ok (a, b, t)) (hs : memoryWf s) : memoryWf t := by
  unfold mmavShape at hr
  dsimp only at hr
  (repeat' split at hr) <;> grind [VReadWf, memoryWf_touchUnits, touchWf_touchUnits_error, vreadWf_virtRead, XlatWf]
theorem touchWf_mmavShape {tb snap id va x} (hr : mmavShape tb snap id va s = .error (.inl x)) (hs : memoryWf s) : TouchWf x := by
  unfold mmavShape at hr
  dsimp only at hr
  (repeat' split at hr) <;> grind [VReadWf, memoryWf_touchUnits, touchWf_touchUnits_error, vreadWf_virtRead, XlatWf]
theorem vreadWf_mmavShape {tb snap id va x} (hr : mmavShape tb snap id va s = .error (.inr x)) (hs : memoryWf s) : VReadWf x := by
  unfold mmavShape at hr
  dsimp only at hr
  (repeat' split at hr) <;> grind [VReadWf, memoryWf_touchUnits, touchWf_touchUnits_error, vreadWf_virtRead, XlatWf]
theorem nextWf_mmavUnread {x : TouchErr ⊕ VRead} (ht : ∀ f, x = .inl f → TouchWf f) (hv : ∀ r, x = .inr r → VReadWf r)
    (hs : memoryWf s) (j snap) : NextWf (mmavUnread j snap x s) := by
  unfold mmavUnread
  grind [VReadWf, memoryWf_mmavFailed, nextWf_badTouch, TouchWf, nextWf_badRead, memoryWf_mk]
theorem nextWf_mmavIssue (hs : memoryWf s) (n ta tb a b q kq cc snap) : NextWf (mmavIssue n ta tb a b q kq cc snap s) := by
  unfold mmavIssue
  dsimp only
  split
  · exact hs
  · refine nextWf_checked (fun s hs => ?_) hs _ _
    split
    · rename_i heq
      exact nextWf_mmavUnread (fun _ h => touchWf_mmavShape (h ▸ heq) hs) (fun _ h => vreadWf_mmavShape (h ▸ heq) hs) hs _ _
    · rename_i heq
      have h1 := memoryWf_mmavShape heq hs
      refine iteInduction (fun _ => nextWf_trapN hs ..) fun _ => iteInduction (fun _ => hs) fun _ => nextWf_checked (fun s hs => ?_) h1 _ _
      (repeat' split) <;> grind [nextWf_wait, nextWf_checked, memoryWf_mmavShape, nextWf_mmavUnread, nextWf_trapN, nextWf_mmavMalformed,
        nextWf_mmavRun]
theorem nextWf_execMmav (hs : memoryWf s) (n ta tb a b q kq req cc) : NextWf (execMmav n ta tb a b q kq req cc s) := by
  unfold execMmav
  dsimp only
  refine nextWf_checked (fun s hs => ?_) hs _ _
  (repeat' split) <;> grind [NextWf, nextWf_checked, nextWf_wait, nextWf_trapN, nextWf_mmavIssue, memoryWf_readLegend,
    touchWf_readLegend_error, nextWf_badTouch, TouchWf, memoryWf_trapAt]
theorem nextWf_execMzero (hs : memoryWf s) (n k) : NextWf (execMzero n k s) := by
  unfold execMzero
  grind [nextWf_checked, nextWf_wait, nextWf_done, memoryWf_mk]
theorem nextWf_execMrd (hs : memoryWf s) (d n q) : NextWf (execMrd d n q s) := by
  unfold execMrd
  grind [nextWf_checked, nextWf_wait, nextWf_done, memoryWf_mk]
theorem nextWf_execMrdQueue (hs : memoryWf s) (q n k) : NextWf (execMrdQueue q n k s) := by
  unfold execMrdQueue
  grind [nextWf_checked, nextWf_wait, nextWf_done, memoryWf_mk]
theorem nextWf_execMwr (hs : memoryWf s) (n v q) : NextWf (execMwr n v q s) := by
  unfold execMwr
  grind [nextWf_checked, nextWf_wait, memoryWf_readRegM, nextWf_done, memoryWf_mk]
theorem nextWf_execMperm (hs : memoryWf s) (d n q rows) : NextWf (execMperm d n q rows s) := by
  unfold execMperm
  grind [nextWf_checked, nextWf_wait, nextWf_trapN, nextWf_done, memoryWf_giveSpans, memoryWf_mk]
theorem nextWf_execMqstat (hs : memoryWf s) (setting n k layer role) : NextWf (execMqstat setting n k layer role s) := by
  unfold execMqstat
  grind [nextWf_checked, nextWf_wait, nextWf_done, nextWf_doneStat, memoryWf_mk]

/-! ### Errors of the arrays -/

theorem nextWf_consume {r : Res} (hr : NextWf r) (hs : memoryWf s) (srcs) : NextWf (consume srcs s r) := by
  unfold consume
  grind [NextWf, memoryWf_eccStop, memoryWf_freeRecord, memoryWf_mk, memoryWf_foldl]
theorem memoryWf_upsetReg (hs : memoryWf s) (b) : memoryWf (upsetReg s b) := hs
theorem memoryWf_upsetRow (hs : memoryWf s) (store q row elem uncorrected) : memoryWf (upsetRow s store q row elem uncorrected) := by
  unfold upsetRow
  grind [memoryWf_mk]
theorem memoryWf_upsetCache (hs : memoryWf s) (code line) : memoryWf (upsetCache s code line) := hs

/-! ### Memory accesses of C -/

theorem memoryWf_publish (hs : memoryWf s) : memoryWf (publish s) := memoryWf_countDropped hs ..
theorem memoryWf_releaseAt (hs : memoryWf s) (sc) : memoryWf (releaseAt sc s) := by
  unfold releaseAt
  grind [memoryWf_updTile, memoryWf_publish]
theorem memoryWf_acquireAt (hs : memoryWf s) (sc) : memoryWf (acquireAt sc s) := by
  unfold acquireAt
  split <;> exact hs
theorem memoryWf_cAccess {k : Nat → State → Res} (hk : ∀ key s, memoryWf s → NextWf (k key s)) (hs : memoryWf s) (va n wr access) :
    NextWf (cAccess va n wr access s k) := by
  unfold cAccess
  grind [NextWf, nextWf_trap, memoryWf_translate, memoryWf_windowRecall, memoryWf_eccStopAt, memoryWf_eccCorrect, nextWf_badXlat, XlatWf]
theorem memoryWf_refetchL1 (hs : memoryWf s) (line) : memoryWf (refetchL1 s line) := by
  unfold refetchL1
  grind [memoryWf_updTile, memoryWf_freeRecord]
theorem memoryWf_cLoad (hs : memoryWf s) (key n home) : memoryWf (cLoad s key n home).2 := by
  unfold cLoad
  grind [memoryWf_refetchL1, memoryWf_touch, memoryWf_updTile]
theorem memoryWf_storeNow (hs : memoryWf s) (key d) : memoryWf (storeNow s key d) := memoryWf_poke hs ..
theorem memoryWf_performOldest (hs : memoryWf s) : memoryWf (performOldest s) := by
  unfold performOldest
  grind [memoryWf_storeNow, memoryWf_windowRecall, memoryWf_mk]
theorem nextWf_afterStores {k : State → Res} (hk : ∀ s, memoryWf s → NextWf (k s)) (hs : memoryWf s) : NextWf (afterStores k s) := by
  unfold afterStores
  grind [memoryWf_performOldest, NextWf]
theorem nextWf_cStore (hs : memoryWf s) (rel key d) : NextWf (cStore rel key d s) := by
  unfold cStore
  grind [nextWf_done, nextWf_afterStores, memoryWf_releaseAt, memoryWf_storeNow, memoryWf_mk]
theorem nextWf_execLd (hs : memoryWf s) (d a off ty acq) : NextWf (execLd d a off ty acq s) := by
  unfold execLd
  dsimp only
  refine memoryWf_cAccess (fun key s hs => ?_) hs _ _ _ _
  grind [NextWf, memoryWf_cAccess, memoryWf_performOldest, memoryWf_cLoad, memoryWf_acquireAt, nextWf_done, memoryWf_mk]
theorem nextWf_execSt (hs : memoryWf s) (d a off ty rel) : NextWf (execSt d a off ty rel s) := by
  unfold execSt
  dsimp only
  exact memoryWf_cAccess (fun key s hs => nextWf_cStore hs _ _ _) hs _ _ _ _
theorem nextWf_atomic (hs : memoryWf s) (d a o f) : NextWf (atomic d a o f s) := by
  unfold atomic
  dsimp only
  refine memoryWf_cAccess (fun key s hs => nextWf_afterStores (fun s hs => ?_) hs) hs _ _ _ _
  split <;> grind [memoryWf_cAccess, nextWf_afterStores, memoryWf_touch, memoryWf_releaseAt, memoryWf_dropLines, memoryWf_countDropped,
    memoryWf_countSlice, memoryWf_acquireAt, memoryWf_poke, nextWf_done, memoryWf_mk]
theorem nextWf_execAmoAdd (hs : memoryWf s) (d a b o) : NextWf (execAmoAdd d a b o s) := by
  unfold execAmoAdd
  grind [nextWf_atomic]
theorem nextWf_execAmoAnd (hs : memoryWf s) (d a b o) : NextWf (execAmoAnd d a b o s) := by
  unfold execAmoAnd
  grind [nextWf_atomic]
theorem nextWf_execAmoOr (hs : memoryWf s) (d a b o) : NextWf (execAmoOr d a b o s) := by
  unfold execAmoOr
  grind [nextWf_atomic]
theorem nextWf_execAmoXor (hs : memoryWf s) (d a b o) : NextWf (execAmoXor d a b o s) := by
  unfold execAmoXor
  grind [nextWf_atomic]
theorem nextWf_execAmoMin (hs : memoryWf s) (d a b o) : NextWf (execAmoMin d a b o s) := by
  unfold execAmoMin
  grind [nextWf_atomic]
theorem nextWf_execAmoMax (hs : memoryWf s) (d a b o) : NextWf (execAmoMax d a b o s) := by
  unfold execAmoMax
  grind [nextWf_atomic]
theorem nextWf_execAmoMinn (hs : memoryWf s) (d a b o) : NextWf (execAmoMinn d a b o s) := by
  unfold execAmoMinn
  grind [nextWf_atomic]
theorem nextWf_execAmoMaxn (hs : memoryWf s) (d a b o) : NextWf (execAmoMaxn d a b o s) := by
  unfold execAmoMaxn
  grind [nextWf_atomic]
theorem nextWf_execAmoSwap (hs : memoryWf s) (d a b o) : NextWf (execAmoSwap d a b o s) := by
  unfold execAmoSwap
  grind [nextWf_atomic]
theorem nextWf_execCas (hs : memoryWf s) (d a b c o) : NextWf (execCas d a b c o s) := nextWf_atomic hs ..
theorem nextWf_execFence (hs : memoryWf s) (scope) : NextWf (execFence scope s) := by
  unfold execFence
  grind [nextWf_afterStores, nextWf_done, memoryWf_releaseAt, memoryWf_acquireAt]

/-! ### Copies of X -/

theorem nextWf_takeSlot (hs : memoryWf s) (ring reg x) : NextWf (takeSlot ring reg x s) := by
  unfold takeSlot
  grind [nextWf_wait, nextWf_doneCC, nextWf_done, nextWf_consuming, memoryWf_mk]
theorem nextWf_startCopy (hs : memoryWf s) (x ext faults) : NextWf (startCopy x ext faults s) := by
  unfold startCopy
  grind [nextWf_checked, nextWf_takeSlot]
theorem nextWf_copyLayout (hs : memoryWf s) (store vm a ext) : NextWf (copyLayout store vm a ext s) := by
  unfold copyLayout
  grind [nextWf_trap, nextWf_startCopy]
theorem nextWf_issueRows (hs : memoryWf s) (inPlace a b ext snap) : NextWf (issueRows inPlace a b ext snap s) := by
  unfold issueRows
  grind [nextWf_wait, nextWf_startCopy]
theorem nextWf_copyRows (hs : memoryWf s) (inPlace a b ext) : NextWf (copyRows inPlace a b ext s) := by
  unfold copyRows
  grind [nextWf_trapN, memoryWf_readLegend, touchWf_readLegend_error, nextWf_badTouch, nextWf_issueRows]
theorem memoryWf_keepCopy (hs : memoryWf s) (k x) : memoryWf (keepCopy k x s) := hs
theorem memoryWf_askWindow (hs : memoryWf s) (k x off g) : memoryWf (askWindow k x off g s) := memoryWf_sendPacket hs ..
theorem memoryWf_withSource {f : List Byte → State → Res} (hk : ∀ b s, memoryWf s → NextWf (f b s)) (hs : memoryWf s) (k x off g) :
    NextWf (withSource k x off g f s) := by
  unfold withSource
  dsimp only
  (repeat' split) <;> grind [VReadWf, NextWf, vreadWf_virtRead, XlatWf, nextWf_badRead, nextWf_wait, memoryWf_askWindow,
    nextWf_consuming, memoryWf_keepCopy]
theorem memoryWf_loosen (hs : memoryWf s) (x g b) : memoryWf (loosen s x g b).2 := by
  unfold loosen
  split <;> exact hs
theorem nextWf_putGranule (hs : memoryWf s) (k x off g b0) : NextWf (putGranule k x off g b0 s) := by
  unfold putGranule
  grind [memoryWf_loosen, memoryWf_keepCopy, memoryWf_sendPacket, memoryWf_translateRange, xlatWf_translateRange_error, nextWf_badXlat,
    memoryWf_windowRecall, memoryWf_pokePieces, nextWf_wait, memoryWf_mk, memoryWf_foldl, NextWf]
theorem memoryWf_touchRow {snap id l a b} (hr : touchRow s snap id l a = .ok (t, b)) (hs : memoryWf s) : memoryWf t := by
  induction l generalizing s a with
  | nil => grind [touchRow]
  | cons va l ih => unfold touchRow at hr; grind [memoryWf_touchUnit]
theorem touchWf_touchRow_error {snap id l a f} (hr : touchRow s snap id l a = .error f) (hs : memoryWf s) : TouchWf f := by
  induction l generalizing s a with
  | nil => grind [touchRow]
  | cons va l ih => unfold touchRow at hr; grind [memoryWf_touchUnit, touchWf_touchUnit_error]
theorem memoryWf_addStat (hs : memoryWf s) (x snap a) : memoryWf (addStat s x snap a) := by
  unfold addStat
  split <;> exact hs
theorem nextWf_moveRow (hs : memoryWf s) (k x snap set) : NextWf (moveRow k x snap set s) := by
  unfold moveRow
  dsimp only
  split
  · grind [memoryWf_touchRow, touchWf_touchRow_error, nextWf_badTouch, TouchWf, vreadWf_virtRead, XlatWf, memoryWf_addStat,
    memoryWf_keepCopy, nextWf_badRead, memoryWf_mk]
  · rename_i s1 st heq
    have h1 := memoryWf_touchRow heq hs
    have hv : VReadWf (if (x.inPlace || set.rowBytes (legendOf snap).ext0 = 0) = true then .ok [] s1
      else virtRead s1 .x (pieces ((legendOf snap).rowVa (selRow x.src)) (set.rowBytes (legendOf snap).ext0))) :=
      iteInduction (fun _ => h1) fun _ => vreadWf_virtRead h1 ..
    split
    · rename_i h
      rw [h] at hv
      exact memoryWf_keepCopy (memoryWf_mk (memoryWf_addStat hv ..) ..) ..
    · exact nextWf_badRead hv hs _
theorem memoryWf_readRows {x snap set st n r a b} (hr : readRows x snap set st n r s = .ok (a, b, t)) (hs : memoryWf s) : memoryWf t := by
  induction n generalizing s st r a with
  | zero => grind [readRows]
  | succ n ih => unfold readRows at hr; dsimp only at hr; (repeat' split at hr) <;> grind [VReadWf, memoryWf_touchRow,
    touchWf_touchRow_error, nextWf_badTouch, TouchWf, vreadWf_virtRead, XlatWf, nextWf_badRead]
theorem nextWf_readRows_error {x snap set st n r e} (hr : readRows x snap set st n r s = .error e) (hs : memoryWf s) : NextWf e := by
  induction n generalizing s st r with
  | zero => grind [readRows]
  | succ n ih => unfold readRows at hr; dsimp only at hr; (repeat' split at hr) <;> grind [VReadWf, memoryWf_touchRow,
    touchWf_touchRow_error, nextWf_badTouch, TouchWf, vreadWf_virtRead, XlatWf, nextWf_badRead]
theorem nextWf_moveTransposed (hs : memoryWf s) (k x snap set f n l) : NextWf (moveTransposed k x snap set f n l s) := by
  unfold moveTransposed
  grind [memoryWf_readRows, nextWf_readRows_error, memoryWf_keepCopy, memoryWf_addStat, memoryWf_mk, NextWf]
theorem nextWf_moveRows (hs : memoryWf s) (k x) : NextWf (moveRows k x s) := by
  unfold moveRows
  grind [nextWf_wait, nextWf_moveTransposed, nextWf_moveRow]
theorem nextWf_execCopyGranuleWrite (hs : memoryWf s) : NextWf (execCopyGranuleWrite s) := by
  unfold execCopyGranuleWrite
  dsimp only
  split
  · exact hs
  · refine iteInduction (fun _ => hs) fun _ => iteInduction (fun _ => nextWf_moveRows (memoryWf_mk hs ..) ..) fun _ => iteInduction (fun _ => hs) fun _ => ?_
    exact memoryWf_withSource (fun _ _ h => nextWf_putGranule h ..) (memoryWf_mk hs ..) _ _ _ _
theorem nextWf_execCopyPerform (hs : memoryWf s) : NextWf (execCopyPerform s) := by
  unfold execCopyPerform
  grind [nextWf_wait, memoryWf_mk, NextWf]

/-! ### Other operations of X -/

theorem memoryWf_prefPages (hs : memoryWf s) (l) : memoryWf (prefPages l s) := by
  induction l generalizing s with
  | nil => exact hs
  | cons x l ih => unfold prefPages; grind [memoryWf_translate, memoryWf_touch]
theorem nextWf_execPref (hs : memoryWf s) (a b) : NextWf (execPref a b s) := by
  unfold execPref
  grind [nextWf_checked, nextWf_done, memoryWf_prefPages]
theorem nextWf_execFlushh (hs : memoryWf s) (a b cc) : NextWf (execFlushh a b cc s) := by
  unfold execFlushh
  grind [nextWf_checked, memoryWf_translateRange, xlatWf_translateRange_error, nextWf_badXlat, nextWf_done, memoryWf_mk]
theorem memoryWf_flushKeys (hs : memoryWf s) (l) : memoryWf (flushKeys l s) := by
  unfold flushKeys
  grind [memoryWf_writeBack, memoryWf_foldl]
theorem nextWf_execSend (hs : memoryWf s) (a b k j urgent cc) : NextWf (execSend a b k j urgent cc s) := by
  unfold execSend
  grind [nextWf_checked, nextWf_consuming, nextWf_doneCC, memoryWf_sendPacket, memoryWf_publish]
theorem nextWf_execRingi (hs : memoryWf s) (a b) : NextWf (execRingi a b s) := by
  unfold execRingi
  grind [nextWf_checked, nextWf_done, memoryWf_mk]
theorem nextWf_execRingw (hs : memoryWf s) (a count) : NextWf (execRingw a count s) := by
  refine nextWf_checked (fun s hs => nextWf_consuming (fun s hs => ?_) hs _) hs _ _
  split
  · exact nextWf_done hs _
  · exact hs
theorem nextWf_execRingr (hs : memoryWf s) (a b) : NextWf (execRingr a b s) := by
  refine nextWf_checked (fun s hs => nextWf_consuming (fun s hs => ?_) hs _) hs _ _
  exact nextWf_done (memoryWf_mk hs ..) _
theorem nextWf_execBbset (hs : memoryWf s) (a b) : NextWf (execBbset a b s) := by
  unfold execBbset
  grind [nextWf_checked, nextWf_done, memoryWf_mk]
theorem nextWf_execBbwait (hs : memoryWf s) (a) : NextWf (execBbwait a s) := by
  unfold execBbwait
  grind [nextWf_checked, nextWf_consuming, nextWf_done, nextWf_wait]
theorem memoryWf_lockPages {u : State} {base limit room n va l l'} (hr : lockPages s base limit room n va l t = .ok (l', u)) (ht :
    memoryWf t) : memoryWf u := by
  induction n generalizing va l t with
  | zero => grind [lockPages]
  | succ n ih => unfold lockPages at hr; dsimp only at hr; (repeat' split at hr) <;> grind [memoryWf_touch, nextWf_trap,
    memoryWf_walkStop, memoryWf_pageFault, memoryWf_foldl]
theorem nextWf_lockPages_error {base limit room n va l e} (hr : lockPages s base limit room n va l t = .error e) (hs : memoryWf s) (ht :
    memoryWf t) : NextWf e := by
  induction n generalizing va l t with
  | zero => grind [lockPages]
  | succ n ih => unfold lockPages at hr; dsimp only at hr; (repeat' split at hr) <;> grind [NextWf, memoryWf_touch, nextWf_trap,
    memoryWf_walkStop, memoryWf_pageFault, memoryWf_foldl]
theorem nextWf_execTlbpre (hs : memoryWf s) (a b cc) : NextWf (execTlbpre a b cc s) := by
  unfold execTlbpre
  dsimp only
  refine iteInduction (fun _ => hs) fun _ => nextWf_checked (fun s hs => ?_) hs _ _
  grind [nextWf_wait, nextWf_checked, memoryWf_lockPages, nextWf_lockPages_error, nextWf_done, memoryWf_mk]
theorem nextWf_execTlblk (hs : memoryWf s) (a b) : NextWf (execTlblk a b s) := by
  unfold execTlblk
  grind [nextWf_wait, nextWf_checked, nextWf_done, memoryWf_mk]
theorem nextWf_execTlbul (hs : memoryWf s) : NextWf (execTlbul s) := by
  unfold execTlbul
  grind [nextWf_wait, nextWf_done, memoryWf_mk]
theorem nextWf_execTlbinv (hs : memoryWf s) (scope a b) : NextWf (execTlbinv scope a b s) := by
  unfold execTlbinv
  grind [nextWf_checked, nextWf_done, memoryWf_mk]
theorem memoryWf_tlbDropOn (hs : memoryWf s) (on tenant lo n) : memoryWf (tlbDropOn s on tenant lo n) := hs
theorem nextWf_execQsce (hs : memoryWf s) : NextWf (execQsce s) := by
  unfold execQsce
  grind [nextWf_done, nextWf_wait]
theorem nextWf_execFlushhPerformed (hs : memoryWf s) : NextWf (execFlushhPerformed s) := by
  unfold execFlushhPerformed
  grind [memoryWf_flushKeys, nextWf_wait, memoryWf_mk, NextWf]
theorem nextWf_execTlbprePerformed (hs : memoryWf s) : NextWf (execTlbprePerformed s) := by
  unfold execTlbprePerformed
  dsimp only
  (repeat' split) <;> grind [NextWf, nextWf_wait, memoryWf_lockPages, nextWf_lockPages_error, memoryWf_mk, memoryWf_foldl]
theorem nextWf_execTlbinvPerformed (hs : memoryWf s) : NextWf (execTlbinvPerformed s) := by
  unfold execTlbinvPerformed
  grind [memoryWf_tlbDropOn, nextWf_wait, memoryWf_mk, NextWf]

/-! ### Control -/

theorem nextWf_transfer (hs : memoryWf s) (next) : NextWf (transfer next s) := hs
theorem memoryWf_deepen (hs : memoryWf s) (by') : memoryWf (deepen by' s) := hs
theorem nextWf_execJmpr (hs : memoryWf s) (a) : NextWf (execJmpr a s) := by
  unfold execJmpr
  grind [nextWf_transfer, nextWf_trap]
theorem nextWf_execCallr (hs : memoryWf s) (d a) : NextWf (execCallr d a s) := by
  unfold execCallr
  grind [nextWf_transfer, memoryWf_deepen, nextWf_trap, memoryWf_mk]
theorem nextWf_execRet (hs : memoryWf s) (a) : NextWf (execRet a s) := by
  unfold execRet
  grind [nextWf_transfer, memoryWf_deepen, nextWf_trap]
theorem nextWf_execEret (hs : memoryWf s) : NextWf (execEret s) := by
  unfold execEret
  grind [nextWf_trap, nextWf_transfer, memoryWf_mk, NextWf]
theorem nextWf_execSysc (hs : memoryWf s) (n) : NextWf (execSysc n s) := memoryWf_takeTrap (memoryWf_mk hs ..) ..
theorem nextWf_execSpush (hs : memoryWf s) (a) : NextWf (execSpush a s) := by
  unfold execSpush
  grind [nextWf_trapN, nextWf_done, memoryWf_mk]
theorem nextWf_execSpop (hs : memoryWf s) (d) : NextWf (execSpop d s) := by
  unfold execSpop
  grind [nextWf_trapN, nextWf_consuming, nextWf_done, memoryWf_mk]
theorem nextWf_execEnter (hs : memoryWf s) (n) : NextWf (execEnter n s) := by
  unfold execEnter
  grind [nextWf_trapN, nextWf_done, memoryWf_mk]
theorem nextWf_execLeave (hs : memoryWf s) (n) : NextWf (execLeave n s) := by
  unfold execLeave
  grind [nextWf_trapN, nextWf_consuming, nextWf_done, memoryWf_mk]
theorem nextWf_execTokp (hs : memoryWf s) (e f ch) : NextWf (execTokp e f ch s) := by
  unfold execTokp
  grind [nextWf_trapN, memoryWf_mk, NextWf]
theorem nextWf_execTokw (hs : memoryWf s) (e f ch) : NextWf (execTokw e f ch s) := by
  unfold execTokw
  grind [nextWf_trapN, memoryWf_mk, NextWf]
theorem nextWf_execTokenPost (hs : memoryWf s) (e f ch) : NextWf (execTokenPost e f ch s) := by
  unfold execTokenPost
  grind [nextWf_wait, nextWf_trapN, nextWf_done, memoryWf_mk]
theorem nextWf_execTokenTake (hs : memoryWf s) (e f ch) : NextWf (execTokenTake e f ch s) := by
  unfold execTokenTake
  grind [nextWf_wait, nextWf_done, memoryWf_mk]
theorem nextWf_execRdv (hs : memoryWf s) : NextWf (execRdv s) := by
  unfold execRdv
  grind [nextWf_wait, memoryWf_mk, NextWf]
theorem nextWf_execPuta (hs : memoryWf s) (n a) : NextWf (execPuta n a s) := by
  unfold execPuta
  grind [nextWf_done, memoryWf_mk, NextWf]
theorem nextWf_execGeta (hs : memoryWf s) (d n) : NextWf (execGeta d n s) := by
  unfold execGeta
  grind [nextWf_result, nextWf_wait]
theorem nextWf_execCcadd (hs : memoryWf s) (n amount) : NextWf (execCcadd n amount s) := by
  unfold execCcadd
  grind [nextWf_trapN, nextWf_done, memoryWf_mk]
theorem nextWf_execCcwait (hs : memoryWf s) (n k) : NextWf (execCcwait n k s) := by
  unfold execCcwait
  grind [nextWf_done, nextWf_wait]
theorem nextWf_execGear (hs : memoryWf s) (n) : NextWf (execGear n s) := by
  unfold execGear
  grind [nextWf_trapN, nextWf_done, memoryWf_updCx, memoryWf_settle]
theorem nextWf_execWaitt (hs : memoryWf s) (a) : NextWf (execWaitt a s) := by
  unfold execWaitt
  grind [nextWf_done, nextWf_wait]
theorem nextWf_execWaittTargetReached (hs : memoryWf s) : NextWf (execWaittTargetReached s) := by
  unfold execWaittTargetReached
  grind [nextWf_wait, nextWf_done, memoryWf_mk]

/-! ### System instructions -/

theorem nextWf_csrWrite (hs : memoryWf s) (d n rw v sv) : NextWf (csrWrite d n rw v sv s) := by
  unfold csrWrite
  grind [nextWf_wait, nextWf_trap, nextWf_done, memoryWf_mk]

/-! ### Landings and messages -/

theorem memoryWf_dropPacket (hs : memoryWf s) (k) : memoryWf (dropPacket s k) := hs
theorem memoryWf_answerIn (hs : memoryWf s) (p cls b) : memoryWf (answerIn s p cls b) := memoryWf_sendPacket hs ..
theorem memoryWf_answerTo (hs : memoryWf s) (p b) : memoryWf (answerTo s p b) := memoryWf_answerIn hs ..
theorem memoryWf_bumpRecord (hs : memoryWf s) (d n) : memoryWf (bumpRecord s d n) := by
  unfold bumpRecord
  grind [memoryWf_updDie, memoryWf_pokeThrough]
theorem memoryWf_updSaved (hs : memoryWf s) (d x f) : memoryWf (updSaved s d x f) := hs
theorem memoryWf_savedTrap (hs : memoryWf s) (d x k r) : memoryWf (savedTrap s d x k r) := by
  unfold savedTrap
  grind [memoryWf_updSaved, memoryWf_pokeThrough]
theorem memoryWf_refusalTrap {write : State → State × Option (Nat × Nat)} (hw : ∀ s, memoryWf s → memoryWf (write s).1)
    (hs : memoryWf s) (from' task inst t) : memoryWf (refusalTrap s from' task inst t write) := by
  have h1 := hw s hs
  unfold refusalTrap
  grind [memoryWf_bumpRecord, memoryWf_updCtx, memoryWf_savedTrap]
theorem memoryWf_numbered (hs : memoryWf s) (d x) : memoryWf (numbered s d x).1 := memoryWf_writeRecord hs ..
theorem memoryWf_landBytes (hs : memoryWf s) (k tenant q cells bb) : memoryWf (landBytes s k tenant q cells bb) := by
  unfold landBytes
  grind [memoryWf_updCtx]
theorem memoryWf_landPosted (hs : memoryWf s) (p step cells bb) : memoryWf (landPosted s p step cells bb).1 := by
  unfold landPosted
  grind [memoryWf_updTenant, memoryWf_landBytes, memoryWf_updCtx]
theorem nextWf_execPostedWriteLanding (hs : memoryWf s) : NextWf (execPostedWriteLanding s) := by
  unfold execPostedWriteLanding
  grind [memoryWf_landPosted, memoryWf_dropPacket, memoryWf_answerTo, nextWf_wait, NextWf]
theorem memoryWf_windowRefusal (hs : memoryWf s) (p w step off seq e) : memoryWf (windowRefusal s p w step off seq e) := by
  unfold windowRefusal
  exact memoryWf_refusalTrap (fun _ h => memoryWf_numbered h ..) hs _ _ _ _
theorem nextWf_execWriteAcknowledgement (hs : memoryWf s) : NextWf (execWriteAcknowledgement s) := by
  unfold execWriteAcknowledgement
  grind [nextWf_wait, memoryWf_dropPacket, memoryWf_updCtx, memoryWf_windowRefusal, memoryWf_refusalTrap, NextWf]
theorem memoryWf_netRefuse (hs : memoryWf s) (p cause va bytes copy seq) : memoryWf (netRefuse s p cause va bytes copy seq) :=
  memoryWf_answerTo (memoryWf_writeRecord hs ..) ..
theorem nextWf_execNetworkWriteArrival (hs : memoryWf s) : NextWf (execNetworkWriteArrival s) := by
  unfold execNetworkWriteArrival
  grind [nextWf_wait, memoryWf_netRefuse, memoryWf_dropPacket, memoryWf_stopTask, memoryWf_windowRecall, memoryWf_answerTo,
    memoryWf_pokePieces, memoryWf_foldl, NextWf]
theorem nextWf_execWindowReadRequest (hs : memoryWf s) : NextWf (execWindowReadRequest s) := by
  unfold execWindowReadRequest
  dsimp only
  (repeat' split) <;> grind [nextWf_wait, memoryWf_dropPacket, memoryWf_answerIn, memoryWf_updTenant, memoryWf_freeRecord,
    memoryWf_stopTask, NextWf]
theorem nextWf_execWindowReadResponse (hs : memoryWf s) : NextWf (execWindowReadResponse s) := by
  unfold execWindowReadResponse
  grind [nextWf_wait, memoryWf_dropPacket, memoryWf_updCtx, memoryWf_windowRefusal, NextWf]
theorem nextWf_execSendArrival (hs : memoryWf s) : NextWf (execSendArrival s) := by
  unfold execSendArrival
  grind [nextWf_wait, memoryWf_dropPacket, memoryWf_answerTo, memoryWf_updTile, NextWf]
theorem memoryWf_startDormant (hs : memoryWf s) (q line g1 g2) : memoryWf (startDormant s q line g1 g2) :=
  memoryWf_updCtx (memoryWf_settle hs ..) ..
theorem nextWf_execArrivalDelivery (hs : memoryWf s) : NextWf (execArrivalDelivery s) := by
  unfold execArrivalDelivery
  grind [nextWf_wait, memoryWf_updTile, memoryWf_updCtx, memoryWf_startDormant, NextWf]
theorem nextWf_execArrivalTimeout (hs : memoryWf s) : NextWf (execArrivalTimeout s) := by
  unfold execArrivalTimeout
  dsimp only
  (repeat' split) <;> grind [nextWf_wait, memoryWf_updTile, memoryWf_sendPacket, NextWf]
theorem nextWf_execSendRefusal (hs : memoryWf s) : NextWf (execSendRefusal s) := by
  unfold execSendRefusal
  dsimp only
  split
  · exact hs
  · split
    · exact memoryWf_refusalTrap (fun _ h => memoryWf_numbered h ..) (memoryWf_dropPacket hs _) _ _ _ _
    · exact hs

/-! ### Groups -/

theorem memoryWf_setGroup (hs : memoryWf s) (id g) : memoryWf (setGroup s id g) := hs
theorem memoryWf_tellMember (hs : memoryWf s) (id m cls b) : memoryWf (tellMember s id m cls b) := by
  unfold tellMember
  split
  · exact hs
  · exact memoryWf_sendPacket hs ..
theorem memoryWf_askHome (hs : memoryWf s) (id cls b) : memoryWf (askHome s id cls b) := memoryWf_sendPacket hs ..
theorem memoryWf_waitingC {i} (hr : waitingC s = some (i, t)) (hs : memoryWf s) : memoryWf t := by
  unfold waitingC at hr
  grind [Option.map_eq_some_iff, memoryWf_issuing]
theorem nextWf_execGjoin (hs : memoryWf s) (a chart) : NextWf (execGjoin a chart s) := by
  unfold execGjoin
  grind [nextWf_wait, nextWf_trapN, nextWf_done, memoryWf_askHome, memoryWf_mk, NextWf]
theorem nextWf_execGleave (hs : memoryWf s) (a) : NextWf (execGleave a s) := by
  unfold execGleave
  grind [nextWf_wait, nextWf_done, memoryWf_askHome, memoryWf_mk, NextWf]
theorem nextWf_execGbar (hs : memoryWf s) (a) : NextWf (execGbar a s) := by
  unfold execGbar
  grind [nextWf_trapN, memoryWf_publish, memoryWf_askHome, nextWf_done, nextWf_wait, memoryWf_mk, NextWf]
theorem nextWf_execGroupAnswer (hs : memoryWf s) : NextWf (execGroupAnswer s) := by
  unfold execGroupAnswer
  grind [nextWf_wait, memoryWf_dropPacket, memoryWf_waitingC, nextWf_trapN, nextWf_done, memoryWf_mk, NextWf]
theorem memoryWf_lostLeave (hs : memoryWf s) (id) : memoryWf (lostLeave s id) := by
  unfold lostLeave
  split <;> exact hs
theorem nextWf_execGroupLostAnswer (hs : memoryWf s) : NextWf (execGroupLostAnswer s) := by
  unfold execGroupLostAnswer
  grind [nextWf_wait, memoryWf_dropPacket, memoryWf_waitingC, nextWf_trapN, memoryWf_lostLeave, nextWf_done, memoryWf_mk, NextWf]
theorem nextWf_execBarrierRelease (hs : memoryWf s) : NextWf (execBarrierRelease s) := by
  unfold execBarrierRelease
  grind [nextWf_wait, memoryWf_dropPacket, memoryWf_mk, NextWf]
theorem memoryWf_answerLost (hs : memoryWf s) (p id) : memoryWf (answerLost s p id) := memoryWf_answerTo hs ..
theorem nextWf_execGroupJoinRequest (hs : memoryWf s) : NextWf (execGroupJoinRequest s) := by
  unfold execGroupJoinRequest
  grind [nextWf_wait, memoryWf_dropPacket, memoryWf_answerLost, memoryWf_updDie, memoryWf_answerTo, NextWf]
theorem memoryWf_releaseIfAll (hs : memoryWf s) (id g) : memoryWf (releaseIfAll s id g) := by
  unfold releaseIfAll
  grind [memoryWf_setGroup, memoryWf_tellMember, memoryWf_foldl]
theorem memoryWf_dropMember (hs : memoryWf s) (id m) : memoryWf (dropMember s id m) := by
  unfold dropMember
  grind [memoryWf_updDie, memoryWf_releaseIfAll]
theorem nextWf_execGroupLeaveRequest (hs : memoryWf s) : NextWf (execGroupLeaveRequest s) := by
  unfold execGroupLeaveRequest
  grind [nextWf_wait, memoryWf_dropPacket, memoryWf_answerLost, memoryWf_answerTo, memoryWf_dropMember, NextWf]
theorem nextWf_execBarrierArrival (hs : memoryWf s) : NextWf (execBarrierArrival s) := by
  unfold execBarrierArrival
  grind [memoryWf_releaseIfAll, nextWf_wait, memoryWf_dropPacket, memoryWf_answerLost, memoryWf_tellMember, NextWf]
theorem memoryWf_timeoutRecord (hs : memoryWf s) (id g) : memoryWf (timeoutRecord s id g) := memoryWf_writeRecord hs ..
theorem nextWf_homeTimeout (hs : memoryWf s) (slot) : NextWf (homeTimeout s slot) := by
  unfold homeTimeout
  grind [nextWf_wait, memoryWf_timeoutRecord, memoryWf_setGroup, memoryWf_tellMember, memoryWf_foldl, NextWf]
theorem nextWf_execBarrierTimeout (hs : memoryWf s) : NextWf (execBarrierTimeout s) := by
  unfold execBarrierTimeout
  grind [nextWf_homeTimeout, memoryWf_dropPacket, memoryWf_waitingC, nextWf_trap, NextWf]
theorem memoryWf_debugDue (hs : memoryWf s) (p cause) : memoryWf (debugDue s p cause) := by
  unfold debugDue
  grind [memoryWf_updCtx]
theorem memoryWf_stopForDebug (hs : memoryWf s) (p cause) : memoryWf (stopForDebug s p cause) := by
  unfold stopForDebug
  grind [memoryWf_debugDue, memoryWf_foldl]

/-! ### The fetch -/

theorem nextWf_fetchTrap (hs : memoryWf s) (f before) : NextWf (fetchTrap f before s) := memoryWf_takeTrap (memoryWf_mk hs ..) ..
theorem memoryWf_refetchCode (hs : memoryWf s) (line) : memoryWf (refetchCode s line) := by
  unfold refetchCode
  grind [memoryWf_updTile, memoryWf_freeRecord]
theorem memoryWf_readLine (hs : memoryWf s) (key) : memoryWf (readLine s key).2 := by
  unfold readLine
  grind [memoryWf_refetchCode, memoryWf_touch, memoryWf_updTile]
theorem nextWf_takeLine (hs : memoryWf s) (w) : NextWf (takeLine s w) := by
  unfold takeLine
  grind [nextWf_fetchTrap, memoryWf_stopMine, nextWf_wait, memoryWf_mk, NextWf]
theorem nextWf_execCodeLineFetch (hs : memoryWf s) : NextWf (execCodeLineFetch s) := by
  unfold execCodeLineFetch
  grind [nextWf_wait, memoryWf_stopForDebug, nextWf_fetchTrap, memoryWf_translate, memoryWf_pageFault, memoryWf_walkStop,
    memoryWf_eccStopAt, memoryWf_readLine, memoryWf_eccCorrect, nextWf_takeLine, NextWf]

/-! ### Traps -/

theorem nextWf_execTrapEntry (hs : memoryWf s) : NextWf (execTrapEntry s) := by
  unfold execTrapEntry
  grind [nextWf_wait, memoryWf_trapEntry, memoryWf_mk, NextWf]
theorem nextWf_execAsyncTrapEntry (hs : memoryWf s) : NextWf (execAsyncTrapEntry s) := by
  unfold execAsyncTrapEntry
  grind [nextWf_wait, memoryWf_trapEntry, memoryWf_mk, NextWf]
theorem nextWf_execHandlerTimeout (hs : memoryWf s) : NextWf (execHandlerTimeout s) := by
  unfold execHandlerTimeout
  grind [memoryWf_stopMine, nextWf_wait, NextWf]
theorem nextWf_execDeadlockDetect (hs : memoryWf s) : NextWf (execDeadlockDetect s) := by
  unfold execDeadlockDetect
  grind [nextWf_wait, memoryWf_mk, NextWf]
theorem nextWf_execDrainTimeout (hs : memoryWf s) : NextWf (execDrainTimeout s) := by
  unfold execDrainTimeout
  grind [nextWf_wait, memoryWf_stopMine, memoryWf_mk, NextWf]

/-! ### Tasks -/

theorem memoryWf_enqueue {d tenant va r u1} (hr : enqueue s d tenant va r = .ok (u1, t)) (hs : memoryWf s) : memoryWf t := by
  unfold enqueue at hr
  grind [memoryWf_setDie]
theorem memoryWf_takeSource (hs : memoryWf s) (d k) : memoryWf (takeSource s d k) := hs
theorem nextWf_execTask (hs : memoryWf s) (d a) : NextWf (execTask d a s) := by
  unfold execTask
  dsimp only
  refine iteInduction (fun _ => nextWf_trap hs ..) fun _ => iteInduction (fun _ => nextWf_trap hs ..) fun _ => iteInduction (fun _ => hs) fun _ =>
    nextWf_afterStores (fun s hs => ?_) hs
  have hv := vreadWf_virtRead hs .c (pieces (s.cx.gr a).toNat 128)
  (repeat' split) <;> grind [VReadWf, nextWf_trap, nextWf_wait, nextWf_afterStores, vreadWf_virtRead, XlatWf, memoryWf_takeSource,
    memoryWf_publish, memoryWf_enqueue, nextWf_done, nextWf_badRead, memoryWf_mk]
theorem memoryWf_satisfyEdges (hs : memoryWf s) (d k) : memoryWf (satisfyEdges s d k) := hs
theorem memoryWf_checkTrigger (hs : memoryWf s) (d k) : memoryWf (checkTrigger s d k) := by
  unfold checkTrigger
  grind [memoryWf_satisfyEdges, memoryWf_updTask]
theorem memoryWf_trigInstance (hs : memoryWf s) (d k) : memoryWf (trigInstance s d k) := memoryWf_checkTrigger (memoryWf_updTask hs ..) ..
theorem memoryWf_completionRecall (hs : memoryWf s) (d k) : memoryWf (completionRecall s d k) := by
  unfold completionRecall
  grind [memoryWf_windowRecall, memoryWf_foldl]
theorem memoryWf_writeCompletion (hs : memoryWf s) (d k status) : memoryWf (writeCompletion s d k status) := by
  unfold writeCompletion
  grind [memoryWf_pokePieces, memoryWf_writeRecord, memoryWf_mk]
theorem memoryWf_freeEntry (hs : memoryWf s) (d k) : memoryWf (freeEntry s d k) := hs
theorem memoryWf_finishRetired (hs : memoryWf s) (d k) : memoryWf (finishRetired s d k) := by
  unfold finishRetired
  grind [memoryWf_completionRecall, memoryWf_freeEntry, memoryWf_writeCompletion]
theorem memoryWf_checkRetire (hs : memoryWf s) (d k) : memoryWf (checkRetire s d k) := by
  unfold checkRetire
  grind [memoryWf_finishRetired, memoryWf_updTask]
theorem memoryWf_finishWaiting (hs : memoryWf s) (m) : memoryWf (finishWaiting s m) := by
  unfold finishWaiting
  grind [memoryWf_finishRetired, memoryWf_foldl]
theorem memoryWf_vacate (hs : memoryWf s) (p) : memoryWf (vacate s p) := by
  unfold vacate
  grind [memoryWf_settle, memoryWf_updTile, memoryWf_updTenant, memoryWf_mk]
theorem memoryWf_retireInstance (hs : memoryWf s) (p) : memoryWf (retireInstance s p) := by
  unfold retireInstance
  grind [memoryWf_settle, memoryWf_updTask, memoryWf_vacate, memoryWf_trigInstance, memoryWf_checkRetire]
theorem nextWf_execTrig (hs : memoryWf s) : NextWf (execTrig s) := by
  unfold execTrig
  grind [memoryWf_publish, memoryWf_trigInstance, nextWf_done, nextWf_wait, memoryWf_mk]
theorem memoryWf_leaveAll (hs : memoryWf s) : memoryWf (leaveAll s) := by
  unfold leaveAll
  grind [memoryWf_askHome, memoryWf_mk, memoryWf_foldl]
theorem nextWf_execDone (hs : memoryWf s) : NextWf (execDone s) := by
  unfold execDone
  grind [nextWf_wait, memoryWf_leaveAll, memoryWf_publish, memoryWf_retireInstance, memoryWf_mk, NextWf]
theorem nextWf_execIdle (hs : memoryWf s) : NextWf (execIdle s) := by
  unfold execIdle
  grind [nextWf_wait, memoryWf_settle, memoryWf_mk, NextWf]
theorem nextWf_execSpawn (hs : memoryWf s) (d a b) : NextWf (execSpawn d a b s) := by
  unfold execSpawn
  grind [nextWf_trap, memoryWf_startDormant, memoryWf_releaseAt, nextWf_done, memoryWf_mk]

/-! ### Debugging -/

theorem memoryWf_debugRecord (hs : memoryWf s) (p cause eng) : memoryWf (debugRecord s p cause eng) := hs
theorem memoryWf_debugHold (hr : debugHold s = some t) (hs : memoryWf s) : memoryWf t := by
  unfold debugHold at hr
  (repeat' split at hr) <;> grind [memoryWf_debugRecord, memoryWf_freezeChart, memoryWf_mk]
theorem memoryWf_debugHold_getD (hs : memoryWf s) : memoryWf ((debugHold s).getD s) := by
  cases h : debugHold s with
  | none => exact hs
  | some t => exact memoryWf_debugHold h hs
theorem nextWf_execBrk (hs : memoryWf s) (n) : NextWf (execBrk n s) := by
  unfold execBrk
  dsimp only
  split
  · exact memoryWf_debugHold_getD (memoryWf_stopForDebug (memoryWf_mk hs ..) _ _)
  · exact memoryWf_takeTrap (memoryWf_mk hs ..) _
theorem nextWf_execDebugArm (hs : memoryWf s) : NextWf (execDebugArm s) := by
  unfold execDebugArm
  grind [memoryWf_updTile, memoryWf_mk, NextWf]
theorem memoryWf_stopTaskForDebug (hs : memoryWf s) (d k) : memoryWf (stopTaskForDebug s d k) := by
  unfold stopTaskForDebug
  grind [memoryWf_stopForDebug, memoryWf_updDie, memoryWf_foldl]
theorem memoryWf_dropTrap (hs : memoryWf s) : memoryWf (dropTrap s) := by
  unfold dropTrap
  grind [memoryWf_mk]
theorem nextWf_execDebugStopCommand (hs : memoryWf s) : NextWf (execDebugStopCommand s) := by
  unfold execDebugStopCommand
  dsimp only
  (repeat' split) <;> grind [NextWf, memoryWf_debugHold_getD, memoryWf_dropTrap, memoryWf_debugHold, memoryWf_stopTaskForDebug,
    memoryWf_stopForDebug]
theorem nextWf_execDebugResume (hs : memoryWf s) : NextWf (execDebugResume s) := by
  unfold execDebugResume
  grind [nextWf_wait, memoryWf_thawChart, memoryWf_mk, NextWf]
theorem nextWf_execSingleStep (hs : memoryWf s) : NextWf (execSingleStep s) := by
  unfold execSingleStep
  grind [nextWf_wait, memoryWf_mk, NextWf]
theorem nextWf_execStepDone (hs : memoryWf s) : NextWf (execStepDone s) := by
  unfold execStepDone
  grind [nextWf_wait, memoryWf_debugRecord, memoryWf_mk, NextWf]
theorem nextWf_execStepCancel (hs : memoryWf s) : NextWf (execStepCancel s) := by
  unfold execStepCancel
  grind [nextWf_wait, memoryWf_mk, NextWf]

/-! ### The governor -/

/-- A failure of the governor's work holds no state but a canonical one. -/
def GovWf : GovErr → Prop
  | .xlat _ _ x => XlatWf x
  | _ => True
theorem nextWf_govFail {x : GovErr} (hx : GovWf x) (hs : memoryWf s) : NextWf (govFail x s) := by
  unfold govFail
  split
  · exact nextWf_trapN hs ..
  · exact nextWf_badXlat hx hs _ _ _
  · exact memoryWf_foldl (fun _ _ h => memoryWf_windowRecall h ..) _ hs
  · exact memoryWf_eccStopAt hs ..
theorem memoryWf_govRead {va n b} (hr : govRead va n s = .ok (b, t)) (hs : memoryWf s) : memoryWf t := by
  unfold govRead at hr
  grind [memoryWf_translateRange, xlatWf_translateRange_error, memoryWf_touchPieces, memoryWf_eccCorrect, memoryWf_foldl]
theorem govWf_govRead_error {va n x} (hr : govRead va n s = .error x) (hs : memoryWf s) : GovWf x := by
  unfold govRead at hr
  grind [GovWf, memoryWf_translateRange, xlatWf_translateRange_error, memoryWf_touchPieces, memoryWf_eccCorrect, memoryWf_foldl]
theorem memoryWf_govWrite {va d } (hr : govWrite va d s = .ok t) (hs : memoryWf s) : memoryWf t := by
  unfold govWrite at hr
  grind [memoryWf_translateRange, xlatWf_translateRange_error, memoryWf_pokePieces]
theorem govWf_govWrite_error {va d x} (hr : govWrite va d s = .error x) (hs : memoryWf s) : GovWf x := by
  unfold govWrite at hr
  grind [GovWf, memoryWf_translateRange, xlatWf_translateRange_error, memoryWf_pokePieces]
theorem memoryWf_governedLegends {atlas layer role n l} (hr : governedLegends atlas layer role n s = .ok (l, t)) (hs : memoryWf s) :
    memoryWf t := by
  induction n generalizing s t l with
  | zero => grind [governedLegends]
  | succ n ih => unfold governedLegends at hr; grind [memoryWf_govRead]
theorem govWf_governedLegends_error {atlas layer role n x} (hr : governedLegends atlas layer role n s = .error x) (hs : memoryWf s) :
    GovWf x := by
  induction n generalizing s x with
  | zero => grind [governedLegends]
  | succ n ih => unfold governedLegends at hr; grind [GovWf, govWf_govRead_error, memoryWf_governedLegends]
theorem memoryWf_advanceAll {setting l} (hr : advanceAll setting l s = .ok t) (hs : memoryWf s) : memoryWf t := by
  induction l generalizing s with
  | nil => grind [advanceAll]
  | cons x l ih => unfold advanceAll at hr; grind [memoryWf_govWrite]
theorem govWf_advanceAll_error {setting l x} (hr : advanceAll setting l s = .error x) (hs : memoryWf s) : GovWf x := by
  induction l generalizing s with
  | nil => grind [advanceAll]
  | cons x l ih => unfold advanceAll at hr; grind [memoryWf_govWrite, govWf_govWrite_error]
theorem memoryWf_tryAdvance {layer role setting b} (hr : tryAdvance layer role setting s = .ok (b, t)) (hs : memoryWf s) : memoryWf t := by
  unfold tryAdvance at hr
  grind [memoryWf_governedLegends, govWf_governedLegends_error, memoryWf_advanceAll, govWf_advanceAll_error]
theorem govWf_tryAdvance_error {layer role setting x} (hr : tryAdvance layer role setting s = .error x) (hs : memoryWf s) : GovWf x := by
  unfold tryAdvance at hr
  grind [GovWf, memoryWf_governedLegends, govWf_governedLegends_error, memoryWf_advanceAll, govWf_advanceAll_error]
theorem memoryWf_govPut {va role y changed b} (hr : govPut va role y changed s = .ok (b, t)) (hs : memoryWf s) : memoryWf t := by
  unfold govPut at hr
  grind [memoryWf_govWrite, govWf_govWrite_error]
theorem govWf_govPut_error {va role y changed x} (hr : govPut va role y changed s = .error x) (hs : memoryWf s) : GovWf x := by
  unfold govPut at hr
  grind [GovWf, memoryWf_govWrite, govWf_govWrite_error]
theorem memoryWf_govAct {p layer role va old y b} (hr : govAct p layer role va old y s = .ok (b, t)) (hs : memoryWf s) : memoryWf t := by
  unfold govAct at hr
  grind [memoryWf_govPut, govWf_govPut_error, memoryWf_tryAdvance, govWf_tryAdvance_error]
theorem govWf_govAct_error {p layer role va old y x} (hr : govAct p layer role va old y s = .error x) (hs : memoryWf s) : GovWf x := by
  unfold govAct at hr
  grind [GovWf, memoryWf_govPut, govWf_govPut_error, memoryWf_tryAdvance, govWf_tryAdvance_error]
theorem memoryWf_govRole {p layer role n b} (hr : govRole p layer role n s = .ok (b, t)) (hs : memoryWf s) : memoryWf t := by
  unfold govRole at hr
  grind [memoryWf_govRead, govWf_govRead_error, memoryWf_govAct, govWf_govAct_error]
theorem govWf_govRole_error {p layer role n x} (hr : govRole p layer role n s = .error x) (hs : memoryWf s) : GovWf x := by
  unfold govRole at hr
  grind [GovWf, memoryWf_govRead, govWf_govRead_error, memoryWf_govAct, govWf_govAct_error]
theorem memoryWf_govRoles {p layer n k role b} (hr : govRoles p layer n k role s = .ok (b, t)) (hs : memoryWf s) : memoryWf t := by
  induction k generalizing s role b with
  | zero => grind [govRoles]
  | succ k ih => unfold govRoles at hr; grind [memoryWf_govRole]
theorem govWf_govRoles_error {p layer n k role x} (hr : govRoles p layer n k role s = .error x) (hs : memoryWf s) : GovWf x := by
  induction k generalizing s role x with
  | zero => grind [govRoles]
  | succ k ih => unfold govRoles at hr; grind [memoryWf_govRole, govWf_govRole_error]
theorem memoryWf_govLayers {p k layer b} (hr : govLayers p k layer s = .ok (b, t)) (hs : memoryWf s) : memoryWf t := by
  induction k generalizing s layer b with
  | zero => grind [govLayers]
  | succ k ih => unfold govLayers at hr; grind [memoryWf_govRead, memoryWf_govRoles]
theorem govWf_govLayers_error {p k layer x} (hr : govLayers p k layer s = .error x) (hs : memoryWf s) : GovWf x := by
  induction k generalizing s layer x with
  | zero => grind [govLayers]
  | succ k ih => unfold govLayers at hr; grind [memoryWf_govRead, govWf_govRead_error, memoryWf_govRoles, govWf_govRoles_error]
theorem nextWf_execGovstep (hs : memoryWf s) (d a b) : NextWf (execGovstep d a b s) := by
  unfold execGovstep
  extract_lets f c
  split
  · exact nextWf_trapN hs ..
  split
  · exact nextWf_trapN hs ..
  split
  · exact nextWf_done (memoryWf_mk hs ..) _
  refine nextWf_afterStores (fun s hs => ?_) hs
  extract_lets s0
  have h0 : memoryWf s0 := memoryWf_acquireAt hs (some .d)
  split
  · rename_i heq
    exact nextWf_govFail (govWf_govRead_error heq h0) hs
  · rename_i heq
    have h1 := memoryWf_govRead heq h0
    split
    · rename_i hl
      exact nextWf_govFail (govWf_govLayers_error hl h1) hs
    · rename_i hl
      exact nextWf_done (memoryWf_mk (memoryWf_publish (memoryWf_govLayers hl h1)) ..) _
theorem nextWf_execGovrd (hs : memoryWf s) (d a) : NextWf (execGovrd d a s) := by
  unfold execGovrd
  grind [nextWf_trap, nextWf_trapN, memoryWf_govRead, govWf_govRead_error, memoryWf_acquireAt, nextWf_govFail, memoryWf_freeW,
    nextWf_done, memoryWf_mk]
theorem memoryWf_addAt (hs : memoryWf s) (d x) : memoryWf (addAt s d x) := by
  unfold addAt
  split
  · exact hs
  · exact memoryWf_poke hs ..
theorem nextWf_execGovernorStatAdd (hs : memoryWf s) : NextWf (execGovernorStatAdd s) := by
  unfold execGovernorStatAdd
  grind [nextWf_wait, memoryWf_addAt, memoryWf_mk, NextWf]

/-! ### Saving -/

theorem memoryWf_saveDue (hs : memoryWf s) (p reason payer held) : memoryWf (saveDue s p reason payer held) := memoryWf_updCtx hs ..
theorem memoryWf_noAreaRecord (hs : memoryWf s) (d tenant) : memoryWf (noAreaRecord s d tenant) := memoryWf_writeRecord hs ..
theorem memoryWf_beginSave (hs : memoryWf s) (p reason payer) : memoryWf (beginSave s p reason payer).2 := by
  unfold beginSave
  grind [memoryWf_freezeChart, memoryWf_saveDue, memoryWf_foldl]
theorem memoryWf_saveForBudget (hs : memoryWf s) (p) : memoryWf (saveForBudget s p) := by
  unfold saveForBudget
  grind [memoryWf_beginSave, memoryWf_updTenant, memoryWf_noAreaRecord]
theorem memoryWf_saveForTest (hs : memoryWf s) (p) : memoryWf (saveForTest s p) := by
  unfold saveForTest
  grind [memoryWf_beginSave, memoryWf_updTile, memoryWf_noAreaRecord]
theorem nextWf_execPreemption (hs : memoryWf s) : NextWf (execPreemption s) := by
  unfold execPreemption
  grind [nextWf_wait, memoryWf_saveForTest, memoryWf_saveForBudget, memoryWf_beginSave, NextWf]
theorem memoryWf_writeArea (hs : memoryWf s) (p area reason) : memoryWf (writeArea s p area reason) := by
  unfold writeArea
  grind [memoryWf_settle, memoryWf_publish, memoryWf_poke, memoryWf_vacate, memoryWf_updDie, memoryWf_foldl]
theorem nextWf_execSaveAreaWrite (hs : memoryWf s) : NextWf (execSaveAreaWrite s) := by
  unfold execSaveAreaWrite
  grind [nextWf_wait, memoryWf_eccStop, memoryWf_writeArea, memoryWf_updTenant, memoryWf_mk, NextWf]

/-! ### Scheduling -/

theorem memoryWf_granted (hs : memoryWf s) (d pri tenant tile) : memoryWf (granted s d pri tenant tile) := hs
theorem memoryWf_takeAllotment (hs : memoryWf s) (k base units) : memoryWf (takeAllotment s k base units) := hs
theorem memoryWf_placeAt (hs : memoryWf s) (d k tile place spadBase accBase) : memoryWf (placeAt s d k tile place spadBase accBase) := by
  unfold placeAt
  grind [memoryWf_takeAllotment, memoryWf_setCtx, memoryWf_updTask, memoryWf_mk]
theorem memoryWf_makeRoom (hs : memoryWf s) (d pri tenant c) : memoryWf (makeRoom s d pri tenant c) := by
  unfold makeRoom
  grind [memoryWf_beginSave, memoryWf_updTask, memoryWf_noAreaRecord, memoryWf_updDie, memoryWf_foldl]
theorem nextWf_execPlaceInst (hs : memoryWf s) : NextWf (execPlaceInst s) := by
  unfold execPlaceInst
  grind [nextWf_wait, memoryWf_placeAt, memoryWf_granted, memoryWf_makeRoom, NextWf]
theorem memoryWf_relock (hs : memoryWf s) (l) : memoryWf (relock l s) := by
  induction l generalizing s with
  | nil => exact hs
  | cons k l ih => unfold relock; grind [memoryWf_touch, memoryWf_walkStop, memoryWf_pageFault, memoryWf_mk, memoryWf_foldl]
theorem memoryWf_areaLost (hs : memoryWf s) (d x ecc) : memoryWf (areaLost s d x ecc) := by
  unfold areaLost
  grind [memoryWf_writeRecord, memoryWf_stopTask, memoryWf_updDie, memoryWf_mk]
theorem memoryWf_tellLost (hs : memoryWf s) : memoryWf (tellLost s) := by
  unfold tellLost
  grind [memoryWf_sendPacket, memoryWf_foldl]
theorem memoryWf_reissue (hs : memoryWf s) : memoryWf (reissue s) := hs
theorem memoryWf_restoreAt (hs : memoryWf s) (d x place spadBase accBase) : memoryWf (restoreAt s d x place spadBase accBase) := by
  unfold restoreAt
  grind [memoryWf_takeAllotment, memoryWf_updTenant, memoryWf_updDie, memoryWf_updTile, memoryWf_focus, memoryWf_setCtx,
    memoryWf_tellLost, memoryWf_thawChart, memoryWf_relock, memoryWf_reissue, memoryWf_mk]
theorem nextWf_execContextRestore (hs : memoryWf s) : NextWf (execContextRestore s) := by
  unfold execContextRestore
  extract_lets d
  split
  · split
    · exact hs
    · split
      · exact memoryWf_areaLost hs ..
      · split
        · exact memoryWf_areaLost hs ..
        · exact memoryWf_restoreAt (memoryWf_granted hs ..) ..
  · exact hs
theorem memoryWf_settleDie (hs : memoryWf s) (d) : memoryWf (settleDie s d) := by
  unfold settleDie
  grind [memoryWf_settle, memoryWf_foldl]
theorem memoryWf_unhold (hs : memoryWf s) (p) : memoryWf (unhold s p) := by
  unfold unhold
  grind [memoryWf_thawChart, memoryWf_updCtx]
theorem nextWf_execBudgetPeriodStart (hs : memoryWf s) : NextWf (execBudgetPeriodStart s) := by
  unfold execBudgetPeriodStart
  grind [nextWf_wait, memoryWf_settleDie, memoryWf_updDie, memoryWf_updCtx, memoryWf_unhold, memoryWf_foldl, NextWf]
theorem nextWf_execBudgetExhausted (hs : memoryWf s) : NextWf (execBudgetExhausted s) := by
  unfold execBudgetExhausted
  grind [memoryWf_settleDie, memoryWf_updTenant, memoryWf_saveForBudget, memoryWf_foldl, NextWf]
theorem nextWf_execTenantStarvation (hs : memoryWf s) : NextWf (execTenantStarvation s) := by
  unfold execTenantStarvation
  grind [nextWf_wait, memoryWf_updTenant, memoryWf_stopTask, memoryWf_writeRecord, NextWf]

/-! ### Stops and dumps -/

theorem memoryWf_lockedRecord (hs : memoryWf s) (d k reason) : memoryWf (lockedRecord s d k reason) := by
  unfold lockedRecord
  grind [memoryWf_writeRecord]
theorem memoryWf_leaveSaved (hs : memoryWf s) (d x) : memoryWf (leaveSaved s d x) := by
  unfold leaveSaved
  grind [memoryWf_sendPacket, memoryWf_foldl]
theorem memoryWf_discardSaved_unfreezeSaved (hs : memoryWf s) (d x) : memoryWf (discardSaved.unfreezeSaved s d x) := by
  unfold discardSaved.unfreezeSaved
  grind [memoryWf_setGroup]
theorem memoryWf_discardSaved (hs : memoryWf s) (d k) : memoryWf (discardSaved s d k) := by
  unfold discardSaved
  grind [memoryWf_discardSaved_unfreezeSaved, memoryWf_leaveSaved, memoryWf_updDie, memoryWf_foldl]
theorem memoryWf_stopContext (hr : stopContext s = some t) (hs : memoryWf s) : memoryWf t := by
  unfold stopContext at hr
  grind [memoryWf_leaveAll, memoryWf_publish, memoryWf_unfreezeChart, memoryWf_settle, memoryWf_vacate, memoryWf_updTask]
theorem memoryWf_finishStop (hs : memoryWf s) (d k) : memoryWf (finishStop s d k) := by
  unfold finishStop
  grind [memoryWf_discardSaved, memoryWf_completionRecall, memoryWf_writeNumbered, memoryWf_freeEntry, memoryWf_writeCompletion,
    memoryWf_lockedRecord, memoryWf_stopTask, memoryWf_foldl]
theorem nextWf_execTaskStop (hs : memoryWf s) : NextWf (execTaskStop s) := by
  unfold execTaskStop
  grind [memoryWf_stopContext, nextWf_wait, memoryWf_finishStop, NextWf]
theorem memoryWf_haltTask (hs : memoryWf s) (reason d k) : memoryWf (haltTask reason d s k) := by
  unfold haltTask
  grind [memoryWf_writeRecord, memoryWf_freeEntry, memoryWf_writeCompletion]
theorem memoryWf_loseContext (hs : memoryWf s) (p) : memoryWf (loseContext s p) := by
  unfold loseContext
  grind [memoryWf_sendPacket, memoryWf_settle, memoryWf_unfreezeChart, memoryWf_updTask, memoryWf_vacate, memoryWf_foldl]
theorem memoryWf_haltDie (hs : memoryWf s) (d reason) : memoryWf (haltDie s d reason) := by
  unfold haltDie
  grind [memoryWf_writeRecord, memoryWf_tellMember, memoryWf_loseContext, memoryWf_updDie, memoryWf_leaveSaved, memoryWf_haltTask,
    memoryWf_setTile, memoryWf_foldl]
theorem memoryWf_nestedFaults (hs : memoryWf s) (d p l) : memoryWf (nestedFaults d p l s).2 := by
  induction l generalizing s with
  | nil => exact hs
  | cons t l ih =>
    unfold nestedFaults
    extract_lets found mk
    split
    · exact ih hs
    · exact ih (memoryWf_writeRecord hs ..)
theorem memoryWf_nestedWords (hs : memoryWf s) (d p l) : memoryWf (nestedWords d p l s).2 := by
  induction l generalizing s with
  | nil => exact hs
  | cons x l ih => exact ih (memoryWf_freeRecord hs ..)
theorem memoryWf_dumpImage {d name u1} (hr : dumpImage s d name = some (u1, t)) (hs : memoryWf s) : memoryWf t := by
  unfold dumpImage at hr
  grind [memoryWf_nestedFaults, memoryWf_nestedWords, memoryWf_freeRecord, memoryWf_foldl]
theorem memoryWf_undump (hs : memoryWf s) (d name) : memoryWf (undump s d name) := hs
theorem memoryWf_dropDump (hs : memoryWf s) (d name why) : memoryWf (dropDump s d name why) :=
  memoryWf_writeRecord (memoryWf_updDie (memoryWf_undump hs ..) ..) ..
theorem memoryWf_writerFailed (hs : memoryWf s) (d name place cause written key) :
    memoryWf (writerFailed s d name place cause written key) := by
  unfold writerFailed
  extract_lets k
  split
  · exact memoryWf_windowRecall hs ..
  · exact memoryWf_haltDie (memoryWf_pokeThrough hs ..) ..
theorem memoryWf_keepNumber (hs : memoryWf s) (d k) : memoryWf (keepNumber s d k) := by
  unfold keepNumber
  grind [memoryWf_updDie, memoryWf_updTask]
theorem nextWf_execDumpWrite (hs : memoryWf s) : NextWf (execDumpWrite s) := by
  unfold execDumpWrite
  dsimp only
  (repeat' split) <;> grind [nextWf_wait, memoryWf_undump, memoryWf_dropDump, memoryWf_dumpImage, memoryWf_keepNumber,
    memoryWf_writerFailed, memoryWf_pokeThrough, memoryWf_updTenant, memoryWf_updDie, memoryWf_writeRecord, memoryWf_foldl, NextWf]
theorem nextWf_execPageFaultResume (hs : memoryWf s) : NextWf (execPageFaultResume s) := by
  unfold execPageFaultResume
  extract_lets d n
  split
  · exact memoryWf_thawChart (memoryWf_relock (memoryWf_focus (memoryWf_updCtx hs ..) _) _) _
  · split
    · exact hs
    · exact memoryWf_updDie hs ..
theorem nextWf_execPageFaultStop (hs : memoryWf s) : NextWf (execPageFaultStop s) := by
  unfold execPageFaultStop
  grind [memoryWf_stopTask, memoryWf_updCtx, nextWf_wait, NextWf]

/-! ### Power -/

theorem memoryWf_clusterAfter (hs : memoryWf s) (k g old) : memoryWf (clusterAfter s k g old) := by
  unfold clusterAfter
  grind [memoryWf_updCluster]
theorem memoryWf_setGrant (hs : memoryWf s) (k g) : memoryWf (setGrant s k g) :=
  memoryWf_clusterAfter (memoryWf_setTile (memoryWf_settleTile hs ..) ..) ..
theorem memoryWf_gearRecord (hs : memoryWf s) (k gear case' sev) : memoryWf (gearRecord s k gear case' sev) := memoryWf_writeRecord hs ..
theorem nextWf_execGearChangeComplete (hs : memoryWf s) : NextWf (execGearChangeComplete s) := by
  unfold execGearChangeComplete
  grind [nextWf_wait, memoryWf_updTile, memoryWf_settleTile, memoryWf_setGrant, NextWf]
theorem memoryWf_loseTile (hs : memoryWf s) (k gear) : memoryWf (loseTile s k gear) := by
  unfold loseTile
  grind [memoryWf_gearRecord, memoryWf_loseContext, memoryWf_stopTask, memoryWf_clusterAfter, memoryWf_updTile, memoryWf_foldl]
theorem nextWf_execGearChangeTimeout (hs : memoryWf s) : NextWf (execGearChangeTimeout s) := by
  unfold execGearChangeTimeout
  grind [nextWf_wait, memoryWf_loseTile, memoryWf_settleTile, memoryWf_clusterAfter, memoryWf_setTile, memoryWf_mapAppend,
    memoryWf_gearRecord, NextWf]
theorem nextWf_execBiasSetComplete (hs : memoryWf s) : NextWf (execBiasSetComplete s) := by
  unfold execBiasSetComplete
  grind [nextWf_wait, memoryWf_updCluster, memoryWf_setGrant, memoryWf_foldl, NextWf]
theorem nextWf_execBiasSetTimeout (hs : memoryWf s) : NextWf (execBiasSetTimeout s) := by
  unfold execBiasSetTimeout
  grind [nextWf_wait, memoryWf_updCluster, memoryWf_setGrant, memoryWf_mapAppend, memoryWf_writeRecord, memoryWf_foldl, NextWf]
theorem nextWf_execBiasClearTimeout (hs : memoryWf s) : NextWf (execBiasClearTimeout s) := by
  unfold execBiasClearTimeout
  grind [nextWf_wait, memoryWf_setGrant, memoryWf_updCluster, memoryWf_foldl, NextWf]
theorem nextWf_execBiasClearComplete (hs : memoryWf s) : NextWf (execBiasClearComplete s) := by
  unfold execBiasClearComplete
  grind [nextWf_wait, memoryWf_updCluster, NextWf]
theorem memoryWf_moduleCaps (hs : memoryWf s) (m extra) : memoryWf (moduleCaps s m extra) := by
  unfold moduleCaps
  grind [memoryWf_updDie, memoryWf_foldl]
theorem memoryWf_revokeGears (hs : memoryWf s) (d p inc) : memoryWf (revokeGears s d p inc) := by
  unfold revokeGears
  grind [memoryWf_surveyCount, memoryWf_updTile, memoryWf_setGrant, memoryWf_foldl]
theorem memoryWf_moveDuty (hs : memoryWf s) (d down) : memoryWf (moveDuty s d down) := by
  unfold moveDuty
  grind [memoryWf_updTile, memoryWf_settleTile, memoryWf_foldl]
theorem memoryWf_raiseOne {x : State × Nat × List Nat} (hx : memoryWf x.1) (d inc : Nat) : memoryWf (raiseOne d inc x).1 := by
  unfold raiseOne
  dsimp only
  (repeat' split) <;> grind [memoryWf_updDie, memoryWf_setGrant, memoryWf_updTile, memoryWf_foldl]
theorem memoryWf_creditEnergy (hs : memoryWf s) (m nj) : memoryWf (creditEnergy s m nj) := by
  unfold creditEnergy
  grind [memoryWf_updCtx, memoryWf_updSaved, memoryWf_updTask]
theorem memoryWf_divideEnergy (hs : memoryWf s) (k nj) : memoryWf (divideEnergy s k nj) := by
  unfold divideEnergy
  grind [memoryWf_creditEnergy, memoryWf_updCtx, memoryWf_updTile, memoryWf_foldl]
theorem memoryWf_divideAll (hs : memoryWf s) (d nj) : memoryWf (divideAll s d nj) := by
  unfold divideAll
  grind [memoryWf_divideEnergy, memoryWf_settleTile, memoryWf_surveyCount, memoryWf_foldl]
theorem memoryWf_chargeFiller (hs : memoryWf s) (d us) : memoryWf (chargeFiller s d us) := by
  unfold chargeFiller
  grind [memoryWf_surveyCount, memoryWf_updTenant, memoryWf_foldl]
theorem memoryWf_measureSlope (hs : memoryWf s) (d us) : memoryWf (measureSlope s d us) := by
  unfold measureSlope
  grind [memoryWf_updTile, memoryWf_lendSpans, memoryWf_updDie, memoryWf_foldl]
theorem nextWf_execPowerEvaluation (hs : memoryWf s) : NextWf (execPowerEvaluation s) := by
  unfold execPowerEvaluation
  extract_lets d n us p inc s1 s2 s3 x above s4 s5
  split
  · exact hs
  have h1 : memoryWf s1 := by grind [memoryWf_moduleCaps]
  have h4 : memoryWf s4 := by grind [nextWf_wait, memoryWf_moduleCaps, memoryWf_surveyCount, memoryWf_divideAll, memoryWf_measureSlope,
    memoryWf_chargeFiller, memoryWf_updDie, memoryWf_moveDuty, memoryWf_revokeGears, memoryWf_raiseOne, memoryWf_foldl]
  have h5 : memoryWf s5 := by grind [nextWf_wait, memoryWf_moduleCaps, memoryWf_surveyCount, memoryWf_divideAll, memoryWf_measureSlope,
    memoryWf_chargeFiller, memoryWf_updDie, memoryWf_moveDuty, memoryWf_revokeGears, memoryWf_raiseOne, memoryWf_foldl]
  exact List.foldlRecOn (motive := fun a : State × Nat × List Nat => memoryWf a.1) _ _ h5 fun _ h _ _ => memoryWf_raiseOne h ..
theorem memoryWf_execChartGearTimeout_trapMember (hs : memoryWf s) (id m) : memoryWf (execChartGearTimeout.trapMember s id m) := by
  unfold execChartGearTimeout.trapMember
  grind [memoryWf_focus, memoryWf_waitingC, memoryWf_trapAt]
theorem nextWf_execChartGearTimeout (hs : memoryWf s) : NextWf (execChartGearTimeout s) := by
  unfold execChartGearTimeout
  grind [nextWf_wait, memoryWf_setGroup, memoryWf_execChartGearTimeout_trapMember, memoryWf_foldl, NextWf]
theorem nextWf_execRewriteReq (hs : memoryWf s) : NextWf (execRewriteReq s) := by
  unfold execRewriteReq
  grind [nextWf_wait, memoryWf_updCx, memoryWf_settle, NextWf]
theorem memoryWf_heatRecord (hs : memoryWf s) (d k sub temp sev) : memoryWf (heatRecord s d k sub temp sev) := memoryWf_writeRecord hs ..
theorem memoryWf_readSensor (hs : memoryWf s) (d ints k) : memoryWf (readSensor d ints s k) := by
  unfold readSensor
  grind [memoryWf_setTile, memoryWf_heatRecord]
theorem memoryWf_thermalDuty (hs : memoryWf s) (d k) : memoryWf (thermalDuty d s k) := by
  unfold thermalDuty
  grind [memoryWf_updTile, memoryWf_settleTile, memoryWf_heatRecord]
theorem nextWf_execSensorRead (hs : memoryWf s) : NextWf (execSensorRead s) := by
  unfold execSensorRead
  grind [nextWf_wait, memoryWf_readSensor, memoryWf_updDie, memoryWf_thermalDuty, memoryWf_haltDie, memoryWf_heatRecord, memoryWf_foldl,
    NextWf]
theorem memoryWf_supplyRecord (hs : memoryWf s) (d sub sev) : memoryWf (supplyRecord s d sub sev) := memoryWf_writeRecord hs ..
theorem nextWf_execRailDroop (hs : memoryWf s) : NextWf (execRailDroop s) := memoryWf_supplyRecord (memoryWf_settleDie hs ..) ..
theorem nextWf_execDroopDutyExpiry (hs : memoryWf s) : NextWf (execDroopDutyExpiry s) := by
  unfold execDroopDutyExpiry
  grind [memoryWf_updDie, memoryWf_settleDie, nextWf_wait, NextWf]
theorem nextWf_execRailFault (hs : memoryWf s) : NextWf (execRailFault s) := memoryWf_haltDie (memoryWf_supplyRecord hs ..) ..
theorem nextWf_execInputLow (hs : memoryWf s) : NextWf (execInputLow s) := by
  unfold execInputLow
  grind [memoryWf_supplyRecord, memoryWf_updDie, memoryWf_foldl, NextWf]
theorem nextWf_execInputRecover (hs : memoryWf s) : NextWf (execInputRecover s) := by
  unfold execInputRecover
  grind [memoryWf_updDie, memoryWf_foldl, NextWf]
theorem nextWf_execInputCritical (hs : memoryWf s) : NextWf (execInputCritical s) := by
  unfold execInputCritical
  grind [memoryWf_haltDie, memoryWf_supplyRecord, memoryWf_foldl, NextWf]
theorem nextWf_execSurveyTick (hs : memoryWf s) : NextWf (execSurveyTick s) := by
  unfold execSurveyTick
  grind [nextWf_wait, memoryWf_updDie, memoryWf_pokeThrough, NextWf]

/-! ### The host -/

theorem memoryWf_recallDone (hs : memoryWf s) (l st) : memoryWf (recallDone s l st) := memoryWf_finishWaiting (memoryWf_mk hs ..) ..
theorem memoryWf_setLine (hs : memoryWf s) (l st) : memoryWf (setLine s l st) := hs
theorem memoryWf_lineAnswer (hs : memoryWf s) (l status b) : memoryWf (lineAnswer s l status b) := memoryWf_tellHost hs ..
theorem nextWf_sendLine (hs : memoryWf s) (st) : NextWf (sendLine s st) := by
  unfold sendLine
  grind [memoryWf_lineAnswer, memoryWf_eccCorrect, memoryWf_setLine, NextWf]
theorem nextWf_lineGuard {k : State → Res} (hk : ∀ s, memoryWf s → NextWf (k s)) (hs : memoryWf s) : NextWf (lineGuard s k) := by
  unfold lineGuard
  split
  · exact hs
  · split
    · exact memoryWf_lineAnswer hs ..
    · exact hk s hs
theorem nextWf_execHostReadShared (hs : memoryWf s) : NextWf (execHostReadShared s) := by
  unfold execHostReadShared
  grind [nextWf_lineGuard, nextWf_wait, nextWf_sendLine]
theorem nextWf_execHostReadOwn (hs : memoryWf s) : NextWf (execHostReadOwn s) := by
  unfold execHostReadOwn
  grind [nextWf_lineGuard, nextWf_wait, nextWf_sendLine]
theorem memoryWf_protocolRecord (hs : memoryWf s) (l type) : memoryWf (protocolRecord s l type) := memoryWf_writeRecord hs ..
theorem memoryWf_putLine (hs : memoryWf s) (l b) : memoryWf (putLine s l b) := memoryWf_dramWrite _ hs _
theorem nextWf_execHostWriteBack (hs : memoryWf s) : NextWf (execHostWriteBack s) := by
  unfold execHostWriteBack
  grind [nextWf_lineGuard, memoryWf_protocolRecord, memoryWf_finishWaiting, memoryWf_setLine, memoryWf_putLine, NextWf]
theorem nextWf_execHostDrop (hs : memoryWf s) : NextWf (execHostDrop s) := by
  unfold execHostDrop
  grind [nextWf_lineGuard, memoryWf_protocolRecord, memoryWf_setLine, NextWf]
theorem nextWf_execHostRecallAck (hs : memoryWf s) : NextWf (execHostRecallAck s) := by
  unfold execHostRecallAck
  grind [nextWf_wait, memoryWf_putLine, memoryWf_recallDone, NextWf]
theorem nextWf_execHostRecallTimeout (hs : memoryWf s) : NextWf (execHostRecallTimeout s) := by
  unfold execHostRecallTimeout
  grind [nextWf_wait, memoryWf_recallDone, memoryWf_protocolRecord, NextWf]
theorem memoryWf_hostSend (hs : memoryWf s) (i portB) : memoryWf (hostSend s i portB) := by
  unfold hostSend
  grind [memoryWf_sendPacket, memoryWf_updDie, memoryWf_foldl]
theorem memoryWf_hostActed {s1 : State} (hs : memoryWf s1) (p i s) : memoryWf (hostActed p i s s1) := by
  unfold hostActed
  extract_lets d done
  split
  · exact memoryWf_updDie hs ..
  · exact hs
theorem memoryWf_tellData (hs : memoryWf s) (b) : memoryWf (tellData s b) := by
  unfold tellData
  grind [memoryWf_tellHost, memoryWf_foldl]
theorem memoryWf_respond (hs : memoryWf s) (cmd status b) : memoryWf (respond s cmd status b) := by
  unfold respond
  grind [memoryWf_tellHost, memoryWf_tellData]
theorem nextWf_command {k : State → Res} (hk : ∀ s, memoryWf s → NextWf (k s)) (hs : memoryWf s) (cmd) : NextWf (command cmd k s) := by
  unfold command
  grind [nextWf_wait, memoryWf_respond, NextWf]
theorem nextWf_execHostEnqueue (hs : memoryWf s) : NextWf (execHostEnqueue s) := by
  unfold execHostEnqueue
  grind [nextWf_command, memoryWf_respond, memoryWf_enqueue, NextWf]
theorem memoryWf_bulkWrite (hs : memoryWf s) (tenant l b) : memoryWf (bulkWrite tenant l b s) := by
  induction l generalizing s b with
  | nil => exact hs
  | cons x l ih => unfold bulkWrite; grind [memoryWf_chargeDram, memoryWf_dramWrite, memoryWf_setEcc]
theorem nextWf_execHostRead (hs : memoryWf s) : NextWf (execHostRead s) := by
  unfold execHostRead
  grind [nextWf_command, memoryWf_respond, memoryWf_chargeDram, memoryWf_tellData, memoryWf_foldl, NextWf]
theorem nextWf_execHostWrite (hs : memoryWf s) : NextWf (execHostWrite s) := by
  unfold execHostWrite
  grind [nextWf_command, memoryWf_respond, memoryWf_bulkWrite, NextWf]
theorem memoryWf_dropOnDie (hs : memoryWf s) (d lo n) : memoryWf (dropOnDie d lo n s) := hs
theorem nextWf_execHostFlush (hs : memoryWf s) : NextWf (execHostFlush s) := by
  unfold execHostFlush
  grind [nextWf_command, memoryWf_writeBack, memoryWf_respond, memoryWf_dropOnDie, memoryWf_foldl, NextWf]
theorem nextWf_execHostInvalidate (hs : memoryWf s) : NextWf (execHostInvalidate s) := by
  unfold execHostInvalidate
  grind [nextWf_command, memoryWf_respond, memoryWf_tlbDropOn, NextWf]
theorem nextWf_execInstallLegend (hs : memoryWf s) : NextWf (execInstallLegend s) := by
  unfold execInstallLegend
  grind [nextWf_command, memoryWf_respond, memoryWf_pokeThrough, memoryWf_setTag, memoryWf_foldl, NextWf]
theorem memoryWf_revokeStop (hs : memoryWf s) (d va tenant k p) : memoryWf (revokeStop s d va tenant k p) := by
  unfold revokeStop
  grind [memoryWf_stopTask, memoryWf_writeRecord]
theorem nextWf_execRevokePage (hs : memoryWf s) : NextWf (execRevokePage s) := by
  unfold execRevokePage
  grind [nextWf_command, memoryWf_respond, memoryWf_revokeStop, memoryWf_foldl, NextWf]
theorem nextWf_execHostTaskStop (hs : memoryWf s) : NextWf (execHostTaskStop s) := by
  unfold execHostTaskStop
  grind [nextWf_command, memoryWf_respond, memoryWf_stopTask, memoryWf_dropDump, memoryWf_updTask, memoryWf_foldl, NextWf]
theorem nextWf_execHostHalt (hs : memoryWf s) : NextWf (execHostHalt s) := by
  unfold execHostHalt
  grind [nextWf_wait, memoryWf_haltDie, NextWf]

/-! ### Links -/

theorem memoryWf_endLost (hs : memoryWf s) (x) : memoryWf (endLost s x) := by
  unfold endLost
  split
  · exact hs
  · exact memoryWf_updCtx hs ..
theorem memoryWf_stopNamed (hs : memoryWf s) (d reason x) : memoryWf (stopNamed s d reason x) := by
  unfold stopNamed
  grind [memoryWf_stopTask, memoryWf_foldl]
theorem memoryWf_packetRecord (hs : memoryWf s) (d sub sev x action) : memoryWf (packetRecord s d sub sev x action) :=
  memoryWf_writeRecord hs ..
theorem memoryWf_lossHere (hs : memoryWf s) (d x) : memoryWf (lossHere s d x) := by
  unfold lossHere
  grind [memoryWf_packetRecord, memoryWf_stopNamed, memoryWf_endLost, memoryWf_foldl]
theorem memoryWf_notify {here : State → State} (hk : ∀ s, memoryWf s → memoryWf (here s)) (hs : memoryWf s) (d e b) :
    memoryWf (notify s d e b here) := by
  unfold notify
  grind [memoryWf_sendPacket]
theorem memoryWf_taintGroup (hs : memoryWf s) (d x) : memoryWf (taintGroup s d x) := by
  unfold taintGroup
  grind [memoryWf_notify, memoryWf_stopTask, memoryWf_foldl]
theorem memoryWf_taintHere (hs : memoryWf s) (d x) : memoryWf (taintHere s d x) := by
  unfold taintHere
  grind [memoryWf_stopTask, memoryWf_taintGroup, memoryWf_stopNamed]
theorem memoryWf_losePacket (hs : memoryWf s) (d p) : memoryWf (losePacket s d p) := by
  unfold losePacket
  grind [memoryWf_tellHost, memoryWf_notify, memoryWf_updDie, memoryWf_lossHere, memoryWf_foldl]
theorem memoryWf_taintPacket (hs : memoryWf s) (d p) : memoryWf (taintPacket s d p) := by
  unfold taintPacket
  grind [memoryWf_packetRecord, memoryWf_tellHost, memoryWf_notify, memoryWf_taintHere, memoryWf_foldl]
theorem memoryWf_resendContext (hs : memoryWf s) (p) : memoryWf (resendContext s p) := by
  unfold resendContext
  grind [memoryWf_sendPacket, memoryWf_foldl]
theorem memoryWf_resendReleases (hs : memoryWf s) (d) : memoryWf (resendReleases s d) := by
  unfold resendReleases
  grind [memoryWf_tellMember, memoryWf_foldl]
theorem memoryWf_resendUet (hs : memoryWf s) (d p) : memoryWf (resendUet s d p) := hs
theorem memoryWf_learnLink (hs : memoryWf s) (d e k up) : memoryWf (learnLink s d e k up) := by
  unfold learnLink
  grind [memoryWf_updDie, memoryWf_resendUet, memoryWf_resendReleases, memoryWf_resendContext, memoryWf_foldl]
theorem memoryWf_tellLink (hs : memoryWf s) (d k up) : memoryWf (tellLink s d k up) := by
  unfold tellLink
  grind [memoryWf_notify, memoryWf_learnLink, memoryWf_foldl]
theorem memoryWf_portRecord (hs : memoryWf s) (d k sub value sev) : memoryWf (portRecord s d k sub value sev) := memoryWf_writeRecord hs ..
theorem memoryWf_setPort (hs : memoryWf s) (d k st) : memoryWf (setPort s d k st) := hs
theorem memoryWf_purge (hs : memoryWf s) (d p) : memoryWf (purge s d p) := by
  unfold purge
  grind [memoryWf_updPort, memoryWf_foldl]
theorem memoryWf_sendAbort (hs : memoryWf s) (d k cls vc) : memoryWf (sendAbort s d k cls vc) := by
  unfold sendAbort
  grind [memoryWf_updPort, memoryWf_surveyCount]
theorem memoryWf_abortOutputs (hs : memoryWf s) (d p) : memoryWf (abortOutputs s d p) := by
  unfold abortOutputs
  grind [memoryWf_sendAbort, memoryWf_updPort, memoryWf_foldl]
theorem memoryWf_dropSlot (hs : memoryWf s) (d k cls) : memoryWf (dropSlot s d k cls) := by
  unfold dropSlot
  grind [memoryWf_updPort, memoryWf_purge, memoryWf_abortOutputs]
theorem memoryWf_failPort (hs : memoryWf s) (d k cause) : memoryWf (failPort s d k cause) := by
  unfold failPort
  grind [memoryWf_portRecord, memoryWf_setPort, memoryWf_losePacket, memoryWf_dropSlot, memoryWf_purge, memoryWf_updPort, memoryWf_foldl]
theorem memoryWf_failLink (hs : memoryWf s) (d k cause) : memoryWf (failLink s d k cause) := by
  unfold failLink
  grind [memoryWf_tellLink, memoryWf_failPort]
theorem nextWf_onNotice {k : State → Body → Res} (hk : ∀ s b, memoryWf s → NextWf (k s b)) (hs : memoryWf s) (pick) :
    NextWf (onNotice pick k s) := by
  unfold onNotice
  grind [nextWf_wait, memoryWf_dropPacket]
theorem nextWf_execTaintNotice (hs : memoryWf s) : NextWf (execTaintNotice s) := by
  unfold execTaintNotice
  grind [nextWf_onNotice, memoryWf_taintHere, nextWf_wait, NextWf]
theorem nextWf_execLossNotice (hs : memoryWf s) : NextWf (execLossNotice s) := by
  unfold execLossNotice
  grind [nextWf_onNotice, memoryWf_lossHere, nextWf_wait, NextWf]
theorem nextWf_execFailureNotice (hs : memoryWf s) : NextWf (execFailureNotice s) := by
  unfold execFailureNotice
  grind [nextWf_onNotice, memoryWf_learnLink, nextWf_wait, NextWf]
theorem memoryWf_confirm (hs : memoryWf s) (p n) : memoryWf (confirm s p n) := memoryWf_sendPacket hs ..
theorem memoryWf_ackAgain (hs : memoryWf s) (d p n) : memoryWf (ackAgain s d p n) := by
  unfold ackAgain
  grind [memoryWf_confirm, memoryWf_updDie]
theorem memoryWf_deliver_accept (hs : memoryWf s) (d p n base) : memoryWf (deliver.accept s d p n base) := by
  unfold deliver.accept
  grind [memoryWf_updDie, memoryWf_confirm]
theorem memoryWf_deliver (hs : memoryWf s) (d p) : memoryWf (deliver s d p) := by
  unfold deliver
  grind [memoryWf_updDie, memoryWf_ackAgain, memoryWf_deliver_accept]
theorem nextWf_execUetRetransmitTimeout (hs : memoryWf s) : NextWf (execUetRetransmitTimeout s) := by
  unfold execUetRetransmitTimeout
  grind [nextWf_wait, memoryWf_resendUet, NextWf]
theorem nextWf_execUetGiveUp (hs : memoryWf s) : NextWf (execUetGiveUp s) := by
  unfold execUetGiveUp
  grind [nextWf_wait, memoryWf_updDie, memoryWf_packetRecord, memoryWf_stopTask, memoryWf_endLost, NextWf]

/-! ### Flits -/

theorem memoryWf_onWire (hs : memoryWf s) (d k f) : memoryWf (onWire s d k f) := by
  unfold onWire
  split
  · exact hs
  · exact memoryWf_updPort hs ..
theorem memoryWf_emit (hs : memoryWf s) (d k y) : memoryWf (emit s d k y) := by
  unfold emit
  grind [memoryWf_updTenant, memoryWf_onWire]
theorem memoryWf_countPort (hs : memoryWf s) (d k off n) : memoryWf (countPort s d k off n) := by
  unfold countPort
  split
  · exact hs
  · exact memoryWf_surveyCount hs ..
theorem memoryWf_sendNew (hs : memoryWf s) (d k f) : memoryWf (sendNew s d k f) := by
  unfold sendNew
  grind [memoryWf_updPort, memoryWf_emit, memoryWf_countPort]
theorem memoryWf_sendIdle (hs : memoryWf s) (d k) : memoryWf (sendIdle s d k) := memoryWf_onWire (memoryWf_updPort hs ..) ..
theorem memoryWf_popBuf (hs : memoryWf s) (d j i) : memoryWf (popBuf s d j i) := hs
theorem memoryWf_sendOne (hs : memoryWf s) (d k cls vc f next) : memoryWf (sendOne s d k cls vc f next) := by
  unfold sendOne
  grind [memoryWf_countPort, memoryWf_updPort, memoryWf_sendNew]
theorem memoryWf_sendPacketFlit (hs : memoryWf s) (d k cls) : memoryWf (sendPacketFlit s d k cls) := by
  unfold sendPacketFlit
  grind [memoryWf_sendOne, memoryWf_countPort, memoryWf_popBuf, memoryWf_updPort, memoryWf_updDie]
theorem memoryWf_sendFlit_rest (hs : memoryWf s) (d k x) : memoryWf (sendFlit.rest d k s x) := by
  unfold sendFlit.rest
  grind [memoryWf_sendNew, memoryWf_updPort, memoryWf_sendPacketFlit, memoryWf_sendIdle, memoryWf_countPort]
theorem memoryWf_sendFlit (hs : memoryWf s) (d k) : memoryWf (sendFlit s d k) := by
  unfold sendFlit
  grind [memoryWf_emit, memoryWf_updPort, memoryWf_countPort, memoryWf_sendNew, memoryWf_sendFlit_rest]
theorem nextWf_execFlitSend (hs : memoryWf s) : NextWf (execFlitSend s) := by
  unfold execFlitSend
  grind [memoryWf_sendFlit, nextWf_wait, NextWf]
theorem nextWf_execTagGroupPad (hs : memoryWf s) : NextWf (execTagGroupPad s) := by
  unfold execTagGroupPad
  grind [memoryWf_updPort, nextWf_wait, NextWf]
theorem memoryWf_lkCheck (hs : memoryWf s) (d k margin) : memoryWf (lkCheck s d k margin) := by
  unfold lkCheck
  grind [memoryWf_portRecord, memoryWf_updPort, memoryWf_foldl]
theorem memoryWf_lkBump (hs : memoryWf s) (d k lo n) : memoryWf (lkBump s d k lo n) := memoryWf_lkCheck (memoryWf_updPort hs ..) ..
theorem memoryWf_retrainPort (hs : memoryWf s) (d k cause fresh) : memoryWf (retrainPort s d k cause fresh) := by
  unfold retrainPort
  grind [memoryWf_portRecord, memoryWf_setPort, memoryWf_lkBump, memoryWf_updPort]
theorem memoryWf_retrainLink (hs : memoryWf s) (d k cause fresh) : memoryWf (retrainLink s d k cause fresh) := by
  unfold retrainLink
  grind [memoryWf_failLink, memoryWf_retrainPort]
theorem memoryWf_askRetry (hs : memoryWf s) (d k n) : memoryWf (askRetry s d k n) := by
  unfold askRetry
  grind [memoryWf_updPort, memoryWf_retrainLink]
theorem memoryWf_discardFlit (hs : memoryWf s) (d k) : memoryWf (discardFlit s d k) := by
  unfold discardFlit
  grind [memoryWf_lkBump, memoryWf_askRetry, memoryWf_updPort]
theorem memoryWf_softRecord (hs : memoryWf s) (d k) : memoryWf (softRecord s d k) := memoryWf_writeRecord (memoryWf_mk hs ..) ..
theorem memoryWf_dropPacketHere (hs : memoryWf s) (d k p) : memoryWf (dropPacketHere s d k p) := by
  unfold dropPacketHere
  grind [memoryWf_portRecord, memoryWf_losePacket, memoryWf_purge, memoryWf_abortOutputs, memoryWf_mk]
theorem memoryWf_routerFlit (hs : memoryWf s) (d k f) : memoryWf (routerFlit s d k f) := by
  unfold routerFlit
  grind [memoryWf_updPort, memoryWf_countPort, memoryWf_losePacket, memoryWf_dropPacketHere, memoryWf_softRecord, memoryWf_deliver]
theorem memoryWf_releaseFlit (hs : memoryWf s) (d k f) : memoryWf (releaseFlit s d k f) := by
  unfold releaseFlit
  grind [memoryWf_updPort, memoryWf_routerFlit]
theorem memoryWf_tagFailed (hs : memoryWf s) (d k) : memoryWf (tagFailed s d k) := by
  unfold tagFailed
  grind [memoryWf_lkBump, memoryWf_countPort, memoryWf_taintPacket, memoryWf_updPort, memoryWf_portRecord, memoryWf_askRetry,
    memoryWf_retrainLink, memoryWf_foldl]
theorem memoryWf_groupFlit (hs : memoryWf s) (d k key f) : memoryWf (groupFlit s d k key f) := by
  unfold groupFlit
  grind [memoryWf_updPort, memoryWf_releaseFlit, memoryWf_tagFailed, memoryWf_foldl]
theorem memoryWf_acceptFlit (hs : memoryWf s) (d k f) : memoryWf (acceptFlit s d k f) := by
  unfold acceptFlit
  grind [memoryWf_updPort, memoryWf_groupFlit, memoryWf_releaseFlit]
theorem memoryWf_receiveFlit (hs : memoryWf s) (d k f) : memoryWf (receiveFlit s d k f) := by
  unfold receiveFlit
  grind [memoryWf_updPort, memoryWf_acceptFlit, memoryWf_discardFlit]
theorem nextWf_execFlitReceive (hs : memoryWf s) : NextWf (execFlitReceive s) := by
  unfold execFlitReceive
  grind [nextWf_wait, memoryWf_receiveFlit, memoryWf_updPort, NextWf]
theorem nextWf_execRetryRequestRepeat (hs : memoryWf s) : NextWf (execRetryRequestRepeat s) := by
  unfold execRetryRequestRepeat
  grind [nextWf_wait, memoryWf_askRetry, NextWf]
theorem memoryWf_takeControl {c u1} (hr : takeControl s c = some (u1, t)) (hs : memoryWf s) : memoryWf t := by
  unfold takeControl at hr
  grind [memoryWf_updPort]
theorem nextWf_execRetryRequest (hs : memoryWf s) : NextWf (execRetryRequest s) := by
  unfold execRetryRequest
  grind [memoryWf_takeControl, nextWf_wait, memoryWf_updPort, memoryWf_retrainLink, NextWf]
theorem nextWf_execAbortFlit (hs : memoryWf s) : NextWf (execAbortFlit s) := by
  unfold execAbortFlit
  grind [memoryWf_takeControl, nextWf_wait, memoryWf_dropSlot, NextWf]

/-! ### Training -/

theorem memoryWf_offerKeys (hs : memoryWf s) (d k) : memoryWf (offerKeys s d k) := hs
theorem memoryWf_keyPort (hs : memoryWf s) (d k) : memoryWf (keyPort s d k) := hs
theorem nextWf_execKeyShareFirst (hs : memoryWf s) : NextWf (execKeyShareFirst s) := by
  unfold execKeyShareFirst
  grind [memoryWf_takeControl, nextWf_wait, memoryWf_offerKeys, memoryWf_updPort, NextWf]
theorem nextWf_execKeyShareSecond (hs : memoryWf s) : NextWf (execKeyShareSecond s) := by
  unfold execKeyShareSecond
  grind [memoryWf_takeControl, nextWf_wait, memoryWf_updPort, NextWf]
theorem memoryWf_makeKeys (hs : memoryWf s) (d k) : memoryWf (makeKeys s d k) := hs
theorem nextWf_execKeySignature (hs : memoryWf s) : NextWf (execKeySignature s) := by
  unfold execKeySignature
  grind [memoryWf_takeControl, memoryWf_updPort, nextWf_wait, memoryWf_makeKeys, memoryWf_failLink, NextWf]
theorem memoryWf_portUp (hs : memoryWf s) (d k) : memoryWf (portUp s d k) := by
  unfold portUp
  grind [memoryWf_setPort, memoryWf_tellLink, memoryWf_tellHost, memoryWf_updDie, memoryWf_foldl]
theorem nextWf_execKeysReady (hs : memoryWf s) : NextWf (execKeysReady s) := by
  unfold execKeysReady
  grind [nextWf_wait, memoryWf_takeControl, memoryWf_updPort, memoryWf_portUp, NextWf]
theorem nextWf_execKeyRenewalStart (hs : memoryWf s) : NextWf (execKeyRenewalStart s) := by
  unfold execKeyRenewalStart
  grind [memoryWf_offerKeys, nextWf_wait, NextWf]
theorem memoryWf_setConfig (hs : memoryWf s) (d k c repaired margin) : memoryWf (setConfig s d k c repaired margin) := by
  unfold setConfig
  grind [memoryWf_updPort, memoryWf_lkCheck, memoryWf_portRecord, memoryWf_lkBump]
theorem memoryWf_resumePort (hs : memoryWf s) (d k) : memoryWf (resumePort s d k) :=
  memoryWf_askRetry (memoryWf_updPort (memoryWf_portUp hs ..) ..) ..
theorem memoryWf_refreshFlits (hs : memoryWf s) (d k) : memoryWf (refreshFlits s d k) := by
  unfold refreshFlits
  split
  · exact hs
  · exact memoryWf_updPort hs ..
theorem memoryWf_passAttempt (hs : memoryWf s) (d k c repaired margin) : memoryWf (passAttempt s d k c repaired margin) := by
  unfold passAttempt
  grind [memoryWf_setConfig, memoryWf_refreshFlits, memoryWf_keyPort, memoryWf_resumePort, memoryWf_foldl]
theorem memoryWf_nextAttempt (hs : memoryWf s) (d k) : memoryWf (nextAttempt s d k) := by
  unfold nextAttempt
  grind [memoryWf_failLink, memoryWf_portRecord, memoryWf_updPort, memoryWf_foldl]
theorem nextWf_execRetrainAttemptComplete (hs : memoryWf s) : NextWf (execRetrainAttemptComplete s) := by
  unfold execRetrainAttemptComplete
  grind [nextWf_wait, memoryWf_passAttempt, memoryWf_nextAttempt, NextWf]
theorem nextWf_execRetrainAttemptTimeout (hs : memoryWf s) : NextWf (execRetrainAttemptTimeout s) := by
  unfold execRetrainAttemptTimeout
  grind [nextWf_wait, memoryWf_nextAttempt, NextWf]
theorem nextWf_execLossOfSignal (hs : memoryWf s) : NextWf (execLossOfSignal s) := by
  unfold execLossOfSignal
  grind [memoryWf_retrainLink, nextWf_wait, NextWf]
theorem memoryWf_reviveLink (hs : memoryWf s) (d k cause) : memoryWf (reviveLink s d k cause) := by
  unfold reviveLink
  grind [memoryWf_retrainPort, memoryWf_updPort, memoryWf_foldl]
theorem nextWf_execHostLightReturn (hs : memoryWf s) : NextWf (execHostLightReturn s) := by
  unfold execHostLightReturn
  grind [memoryWf_reviveLink, nextWf_wait, NextWf]
theorem nextWf_execPortRetrainCommand (hs : memoryWf s) : NextWf (execPortRetrainCommand s) := by
  unfold execPortRetrainCommand
  grind [nextWf_wait, memoryWf_reviveLink, memoryWf_retrainLink, NextWf]
theorem nextWf_execPortDisableCommand (hs : memoryWf s) : NextWf (execPortDisableCommand s) := by
  unfold execPortDisableCommand
  grind [memoryWf_failLink, nextWf_wait, NextWf]
theorem nextWf_execEyeMarginMeasure (hs : memoryWf s) : NextWf (execEyeMarginMeasure s) := by
  unfold execEyeMarginMeasure
  grind [nextWf_wait, memoryWf_lkCheck, memoryWf_updPort, NextWf]
theorem nextWf_execVdportModeWrite (hs : memoryWf s) : NextWf (execVdportModeWrite s) := by
  unfold execVdportModeWrite
  grind [nextWf_wait, memoryWf_updPort, NextWf]

/-! ### Time -/

theorem memoryWf_timeRecord (hs : memoryWf s) (d sub value sev) : memoryWf (timeRecord s d sub value sev) := memoryWf_writeRecord hs ..
theorem memoryWf_lockTraps (hs : memoryWf s) (d) : memoryWf (lockTraps s d) := by
  unfold lockTraps
  grind [memoryWf_updCtx, memoryWf_savedTrap, memoryWf_foldl]
theorem memoryWf_settleDies (hs : memoryWf s) : memoryWf (settleDies s) := by
  unfold settleDies
  grind [memoryWf_settleDie, memoryWf_foldl]
theorem memoryWf_holdClock (hs : memoryWf s) (d) : memoryWf (holdClock s d) := by
  unfold holdClock
  split
  · exact hs
  · exact memoryWf_updDie hs ..
theorem memoryWf_loseLock (hs : memoryWf s) (d cause) : memoryWf (loseLock s d cause) := by
  unfold loseLock
  grind [memoryWf_holdClock, memoryWf_settleDies, memoryWf_updDie, memoryWf_lockTraps, memoryWf_timeRecord]
theorem nextWf_execLockLossUpstream (hs : memoryWf s) : NextWf (execLockLossUpstream s) := by
  unfold execLockLossUpstream
  grind [nextWf_wait, memoryWf_updDie, memoryWf_loseLock, NextWf]
theorem memoryWf_setRate (hs : memoryWf s) (d rate) : memoryWf (setRate s d rate) := by
  unfold setRate
  grind [memoryWf_settleDies, memoryWf_updDie]
theorem memoryWf_keepTo (hs : memoryWf s) (d) : memoryWf (keepTo s d) := by
  unfold keepTo
  grind [memoryWf_updDie]
theorem memoryWf_noteGood (hs : memoryWf s) (d k) : memoryWf (noteGood s d k) := by
  unfold noteGood
  grind [memoryWf_updDie, memoryWf_keepTo, memoryWf_timeRecord]
theorem memoryWf_noteOffset (hs : memoryWf s) (d k off) : memoryWf (noteOffset s d k off) := by
  unfold noteOffset
  grind [memoryWf_updDie, memoryWf_loseLock, memoryWf_noteGood]
theorem memoryWf_measureTime (hs : memoryWf s) (d k off rate) : memoryWf (measureTime s d k off rate) :=
  memoryWf_noteOffset (memoryWf_updDie (memoryWf_setRate hs ..) ..) ..
theorem nextWf_execTimeMessage (hs : memoryWf s) : NextWf (execTimeMessage s) := by
  unfold execTimeMessage
  grind [nextWf_wait, memoryWf_measureTime, memoryWf_updDie, memoryWf_sendPacket, NextWf]
theorem memoryWf_writeSource (hs : memoryWf s) (d v) : memoryWf (writeSource s d v) := by
  unfold writeSource
  grind [memoryWf_updDie, memoryWf_settleDies, memoryWf_holdClock, memoryWf_keepTo, memoryWf_foldl]

/-! ### Repair -/

theorem memoryWf_updTl (hs : memoryWf s) (d i f) : memoryWf (updTl s d i f) := hs
theorem memoryWf_repairRecord (hs : memoryWf s) (k sub sev action e r) : memoryWf (repairRecord s k sub sev action e r) :=
  memoryWf_writeRecord hs ..
theorem memoryWf_countFenced (hs : memoryWf s) (d) : memoryWf (countFenced s d) := hs
theorem memoryWf_fenceTile (hs : memoryWf s) (k) : memoryWf (fenceTile s k) := by
  unfold fenceTile
  grind [memoryWf_repairRecord, memoryWf_mapAppend, memoryWf_countFenced, memoryWf_updTl, memoryWf_updTile]
theorem memoryWf_retireTile {other : State → State} (hk : ∀ s, memoryWf s → memoryWf (other s)) (hs : memoryWf s) (k passes) :
    memoryWf (retireTile s k passes other) := by
  unfold retireTile
  grind [memoryWf_repairRecord, memoryWf_mapAppend, memoryWf_updTl, memoryWf_updTile, memoryWf_updDie]
theorem memoryWf_repairCell (hs : memoryWf s) (k unit array row col passes) : memoryWf (repairCell s k unit array row col passes) := by
  unfold repairCell
  grind [memoryWf_retireTile, memoryWf_mapAppend, memoryWf_fenceTile, memoryWf_updTl, memoryWf_repairRecord]
theorem memoryWf_degradeTile (hs : memoryWf s) (k span) : memoryWf (degradeTile s k span) := by
  unfold degradeTile
  grind [memoryWf_fenceTile, memoryWf_repairRecord, memoryWf_mapAppend, memoryWf_updTl, memoryWf_updTile]
theorem memoryWf_repairSpan (hs : memoryWf s) (k span passes) : memoryWf (repairSpan s k span passes) := by
  unfold repairSpan
  grind [memoryWf_repairRecord, memoryWf_mapAppend, memoryWf_updTl, memoryWf_retireTile, memoryWf_degradeTile]
theorem memoryWf_repairFinding (hs : memoryWf s) (passes k i0 f) : memoryWf (repairFinding passes k i0 s f) := by
  unfold repairFinding
  grind [memoryWf_retireTile, memoryWf_fenceTile, memoryWf_repairSpan, memoryWf_repairCell, memoryWf_updTile, memoryWf_mapAppend,
    memoryWf_gearRecord, memoryWf_updCluster]
theorem memoryWf_repairAll (hs : memoryWf s) (k l passes) : memoryWf (repairAll s k l passes) := by
  unfold repairAll
  grind [memoryWf_updTl, memoryWf_repairFinding, memoryWf_foldl]
theorem memoryWf_testPassed (hs : memoryWf s) (k l) : memoryWf (testPassed s k l) := by
  unfold testPassed
  grind [memoryWf_updTile, memoryWf_updCluster, memoryWf_updTl, memoryWf_countFenced]
theorem memoryWf_withdraw (hs : memoryWf s) (k) : memoryWf (withdraw s k) := by
  unfold withdraw
  grind [memoryWf_updTile, memoryWf_saveForTest, memoryWf_foldl]
theorem nextWf_manage {k : State → Res} (hk : ∀ s, memoryWf s → NextWf (k s)) (hs : memoryWf s) : NextWf (manage k s) := by
  unfold manage
  grind [nextWf_wait, memoryWf_respond, NextWf]
theorem nextWf_execTestTile (hs : memoryWf s) : NextWf (execTestTile s) := by
  unfold execTestTile
  grind [nextWf_manage, memoryWf_respond, nextWf_wait, memoryWf_withdraw, NextWf]
theorem memoryWf_returnTile (hs : memoryWf s) (k) : memoryWf (returnTile s k) := hs
theorem nextWf_execSelfTestRun (hs : memoryWf s) : NextWf (execSelfTestRun s) := by
  unfold execSelfTestRun
  grind [nextWf_wait, memoryWf_updTile, memoryWf_retireTile, memoryWf_fenceTile, memoryWf_testPassed, memoryWf_repairAll,
    memoryWf_respond, memoryWf_returnTile, NextWf]
theorem nextWf_execDramRowSpareComplete (hs : memoryWf s) : NextWf (execDramRowSpareComplete s) := by
  unfold execDramRowSpareComplete
  grind [nextWf_wait, memoryWf_updDie, memoryWf_mapAppend, memoryWf_bankCheck, NextWf]
theorem memoryWf_scrubGranule (hs : memoryWf s) (l) : memoryWf (scrubGranule s l) := by
  unfold scrubGranule
  grind [memoryWf_eccCorrect, memoryWf_rowError, memoryWf_writeRecord, memoryWf_mk]
theorem memoryWf_scrubWord (hs : memoryWf s) (d k w) : memoryWf (scrubWord d k s w) := memoryWf_writeRecord (memoryWf_mk hs ..) ..
theorem memoryWf_scrubTile (hs : memoryWf s) (d k) : memoryWf (scrubTile d s k) := by
  unfold scrubTile
  grind [memoryWf_scrubWord, memoryWf_updCtx, memoryWf_updTile, memoryWf_foldl]
theorem nextWf_execScrubPass (hs : memoryWf s) : NextWf (execScrubPass s) := by
  unfold execScrubPass
  grind [nextWf_wait, memoryWf_scrubTile, memoryWf_scrubGranule, memoryWf_foldl, NextWf]
theorem nextWf_signed {k : State → Res} (hk : ∀ s, memoryWf s → NextWf (k s)) (hs : memoryWf s) (code) : NextWf (signed code k s) := by
  unfold signed
  grind [nextWf_manage, memoryWf_updDie, memoryWf_writeRecord, memoryWf_respond, NextWf]
theorem nextWf_execReadState (hs : memoryWf s) : NextWf (execReadState s) := by
  unfold execReadState
  split
  · exact hs
  · exact memoryWf_respond (memoryWf_updDie hs ..) ..
theorem nextWf_execClearCounts (hs : memoryWf s) : NextWf (execClearCounts s) := by
  unfold execClearCounts
  grind [nextWf_signed, memoryWf_updPort, memoryWf_updDie, memoryWf_updTl, memoryWf_respond, NextWf]
theorem memoryWf_execRetireUnit_unaccept (hs : memoryWf s) : memoryWf (execRetireUnit.unaccept s) := hs
theorem nextWf_execRetireUnit (hs : memoryWf s) : NextWf (execRetireUnit s) := by
  unfold execRetireUnit
  grind [nextWf_wait, nextWf_signed, memoryWf_respond, memoryWf_execRetireUnit_unaccept, memoryWf_withdraw, memoryWf_returnTile,
    memoryWf_repairFinding, NextWf]
theorem nextWf_execSpareDramRow (hs : memoryWf s) : NextWf (execSpareDramRow s) := by
  unfold execSpareDramRow
  refine nextWf_signed (fun s hs => ?_) hs _
  extract_lets d key
  split
  split
  · exact memoryWf_respond hs ..
  · exact memoryWf_respond (memoryWf_beginSparing hs ..) ..
theorem nextWf_execClearRepairMap (hs : memoryWf s) : NextWf (execClearRepairMap s) := by
  unfold execClearRepairMap
  grind [nextWf_signed, memoryWf_respond, memoryWf_updDie, NextWf]
theorem nextWf_execSetThresholds (hs : memoryWf s) : NextWf (execSetThresholds s) := by
  unfold execSetThresholds
  grind [nextWf_signed, memoryWf_updPort, memoryWf_updDie, memoryWf_respond, NextWf]

/-! ### Start -/

theorem memoryWf_setMeasure (hs : memoryWf s) (d k m) : memoryWf (setMeasure s d k m) := hs
theorem nextWf_execAttest (hs : memoryWf s) : NextWf (execAttest s) := by
  unfold execAttest
  grind [nextWf_wait, memoryWf_respond, NextWf]
theorem memoryWf_wipe (hs : memoryWf s) (p : Nat → Bool) : memoryWf (wipe s p) :=
  ⟨memWf_filter hs.1 _, memWf_filter hs.2 _⟩
theorem nextWf_execPowerDown (hs : memoryWf s) : NextWf (execPowerDown s) := by
  unfold execPowerDown
  grind [memoryWf_holdClock, memoryWf_settleDies, memoryWf_wipe, memoryWf_updDie, memoryWf_foldl, NextWf]
theorem nextWf_execDieReset (hs : memoryWf s) : NextWf (execDieReset s) := by
  unfold execDieReset
  grind [nextWf_wait, memoryWf_respond, memoryWf_setMeasure, memoryWf_updDie, memoryWf_wipe, NextWf]
theorem memoryWf_setStart (hs : memoryWf s) (d lo n v) : memoryWf (setStart s d lo n v) := hs
theorem memoryWf_startRecord (hs : memoryWf s) (d sub r) : memoryWf (startRecord s d sub r) := memoryWf_writeRecord hs ..
theorem memoryWf_startFailed (hs : memoryWf s) (d sub) : memoryWf (startFailed s d sub) := memoryWf_startRecord hs ..
theorem memoryWf_powerOn (hs : memoryWf s) (d) : memoryWf (powerOn s d) := hs
theorem nextWf_execStartStage0 (hs : memoryWf s) : NextWf (execStartStage0 s) := by
  unfold execStartStage0
  grind [nextWf_wait, memoryWf_powerOn, memoryWf_setStart, memoryWf_startFailed, memoryWf_setMeasure, memoryWf_keyPort, NextWf]
theorem memoryWf_deadLink (hs : memoryWf s) (d k) : memoryWf (deadLink d s k) := by
  unfold deadLink
  grind [memoryWf_tellLink, memoryWf_setPort, memoryWf_foldl]
theorem nextWf_execDieStartTimeout (hs : memoryWf s) : NextWf (execDieStartTimeout s) := by
  unfold execDieStartTimeout
  grind [nextWf_wait, memoryWf_updDie, memoryWf_deadLink, memoryWf_startRecord, memoryWf_foldl, NextWf]
theorem nextWf_execRomImageWrite (hs : memoryWf s) : NextWf (execRomImageWrite s) := by
  unfold execRomImageWrite
  grind [nextWf_wait, memoryWf_respond, memoryWf_mk, NextWf]
theorem memoryWf_updPhys (hs : memoryWf s) (d i f) : memoryWf (updPhys s d i f) := by
  unfold updPhys
  split
  · exact hs
  · exact memoryWf_updTile hs ..
theorem memoryWf_applyEntry (hs : memoryWf s) (d e) : memoryWf (applyEntry d s e) := by
  unfold applyEntry
  grind [memoryWf_updTl, memoryWf_updTile, memoryWf_updDie, memoryWf_updPhys, memoryWf_updCluster]
theorem memoryWf_applyMap (hs : memoryWf s) (d) : memoryWf (applyMap s d) := by
  unfold applyMap
  grind [memoryWf_updDie, memoryWf_countFenced, memoryWf_applyEntry, memoryWf_foldl]
theorem memoryWf_testTile (hs : memoryWf s) (d l passes k) : memoryWf (testTile d l passes s k) := by
  unfold testTile
  grind [memoryWf_repairAll]
theorem memoryWf_disableChannel (hs : memoryWf s) (d k) : memoryWf (disableChannel d s k) := by
  unfold disableChannel
  grind [memoryWf_updDie, memoryWf_setStart, memoryWf_startRecord]
theorem memoryWf_notePort (hs : memoryWf s) (d k) : memoryWf (notePort d s k) := by
  unfold notePort
  grind [memoryWf_startRecord, memoryWf_setStart]
theorem memoryWf_trainPort (hs : memoryWf s) (d bad k) : memoryWf (trainPort d bad s k) := by
  unfold trainPort
  grind [memoryWf_failLink, memoryWf_setPort, memoryWf_portUp, memoryWf_keyPort]
theorem nextWf_execStartStage1 (hs : memoryWf s) : NextWf (execStartStage1 s) := by
  unfold execStartStage1
  grind [nextWf_wait, memoryWf_disableChannel, memoryWf_applyMap, memoryWf_setMeasure, memoryWf_updDie, memoryWf_testTile,
    memoryWf_notePort, memoryWf_trainPort, memoryWf_setStart, memoryWf_startFailed, memoryWf_foldl, NextWf]
theorem memoryWf_enterStage2 (hs : memoryWf s) (d) : memoryWf (enterStage2 s d) := by
  unfold enterStage2
  grind [memoryWf_failLink, memoryWf_notePort, memoryWf_setMeasure, memoryWf_setStart, memoryWf_updDie, memoryWf_tellHost, memoryWf_foldl]
theorem nextWf_execStartStage2 (hs : memoryWf s) : NextWf (execStartStage2 s) := by
  unfold execStartStage2
  grind [memoryWf_enterStage2, nextWf_wait, NextWf]
theorem nextWf_execTimeLockStartTimeout (hs : memoryWf s) : NextWf (execTimeLockStartTimeout s) := by
  unfold execTimeLockStartTimeout
  grind [memoryWf_enterStage2, memoryWf_startFailed, nextWf_wait, NextWf]

/-! ### Registers -/

theorem nextWf_settable {k : State → Res} (hk : ∀ s, memoryWf s → NextWf (k s)) (hs : memoryWf s) : NextWf (settable k s) := by
  unfold settable
  grind [nextWf_manage, memoryWf_respond, NextWf]
theorem nextWf_settled (hs : memoryWf s) : NextWf (settled s) := memoryWf_respond hs ..
theorem memoryWf_drainRing (hs : memoryWf s) (d size r) : memoryWf (drainRing s d size r).1 := by
  unfold drainRing
  split
  · exact hs
  · exact List.foldlRecOn (motive := fun x : State × Ring => memoryWf x.1) _ _ hs fun _ h _ _ => memoryWf_ringPut h ..
theorem memoryWf_writeErrcfg (hs : memoryWf s) (d v) : memoryWf (writeErrcfg s d v) := memoryWf_drainRing hs ..
theorem memoryWf_writePfcfg (hs : memoryWf s) (d v) : memoryWf (writePfcfg s d v) := memoryWf_drainRing hs ..
theorem memoryWf_writeSurvcfg (hs : memoryWf s) (d v) : memoryWf (writeSurvcfg s d v) := hs
theorem nextWf_execErrcfgEnable (hs : memoryWf s) : NextWf (execErrcfgEnable s) := by
  unfold execErrcfgEnable
  grind [nextWf_settable, nextWf_settled, memoryWf_writeErrcfg]
theorem nextWf_execErrptrRdWrite (hs : memoryWf s) : NextWf (execErrptrRdWrite s) := by
  unfold execErrptrRdWrite
  grind [nextWf_settable, nextWf_settled, memoryWf_updDie]
theorem nextWf_execErrptrRead (hs : memoryWf s) : NextWf (execErrptrRead s) := by
  unfold execErrptrRead
  grind [nextWf_settable, memoryWf_respond, memoryWf_updDie, NextWf]
theorem nextWf_execLandcntRead (hs : memoryWf s) : NextWf (execLandcntRead s) := by
  unfold execLandcntRead
  grind [nextWf_settable, memoryWf_updTenant, memoryWf_respond, NextWf]
theorem nextWf_execSavepoolWrite (hs : memoryWf s) : NextWf (execSavepoolWrite s) := by
  unfold execSavepoolWrite
  grind [nextWf_settable, nextWf_settled, memoryWf_updTenant]
theorem nextWf_execDumpcfgWrite (hs : memoryWf s) : NextWf (execDumpcfgWrite s) := by
  unfold execDumpcfgWrite
  grind [nextWf_settable, nextWf_settled, memoryWf_updTenant]
theorem memoryWf_govWalk {d tenant l l'} (hr : govWalk s d tenant l = some (l', t)) (hs : memoryWf s) : memoryWf t := by
  induction l generalizing s l' with
  | nil => grind [govWalk]
  | cons va l ih => unfold govWalk at hr; grind [Option.map_eq_some_iff, memoryWf_touch, memoryWf_foldl]
theorem nextWf_writeGovbase (hs : memoryWf s) (d k v) : NextWf (writeGovbase s d k v) := by
  unfold writeGovbase
  grind [memoryWf_updTenant, nextWf_settled, memoryWf_govWalk, memoryWf_respond, NextWf]
theorem nextWf_execGovbaseValidSet (hs : memoryWf s) : NextWf (execGovbaseValidSet s) := by
  unfold execGovbaseValidSet
  grind [nextWf_settable, nextWf_writeGovbase]
theorem memoryWf_writePwrcap (hs : memoryWf s) (d v extra) : memoryWf (writePwrcap s d v extra) :=
  memoryWf_moduleCaps (memoryWf_updDie hs ..) ..
theorem nextWf_writeDatum (hs : memoryWf s) (d v) : NextWf (writeDatum s d v) := by
  unfold writeDatum
  grind [memoryWf_respond, nextWf_settled, memoryWf_updDie, memoryWf_settleDies, NextWf]
theorem nextWf_writeTenant (hs : memoryWf s) (f) : NextWf (writeTenant s f) := nextWf_settled hs ..
theorem nextWf_writeRegister (hs : memoryWf s) (k v) : NextWf (writeRegister s k v) := by
  unfold writeRegister
  grind [nextWf_settled, memoryWf_writePwrcap, memoryWf_updDie, memoryWf_updPort, memoryWf_writeSource, nextWf_writeDatum,
    memoryWf_writeSurvcfg, memoryWf_writeErrcfg, memoryWf_writePfcfg, nextWf_writeTenant, nextWf_writeGovbase, memoryWf_respond, NextWf]
theorem nextWf_execRegisterWrite (hs : memoryWf s) : NextWf (execRegisterWrite s) := by
  unfold execRegisterWrite
  grind [nextWf_wait, memoryWf_respond, nextWf_writeRegister, NextWf]

/-! ### Every instruction and event -/

theorem nextWf_exec (hs : memoryWf s) (i : Instr) : NextWf (exec i s) := by
  cases i with
  | add | sub | and | or | xor | shl | shr | sra | min | max | minn | maxn | slt | sltn | seq | mul | mulh | mulhn | div | divn | rem
    | remn | clz | popc | mov | sel | addi | addiLong | andi | andiLong | ori | oriLong | xori | xoriLong | shli | shri | srai | slti
    | sltiLong | movi | moviLong | bc | jmp | call | loop | time | csrr | aadd | amovg | aaddi | ashli | strmxStop | strmxRem | repL
    | sadd | wstep | repS | psetNone | psetAll | psetRow | psetCol | pand | por | pxor | pnot | repV | mspan => exact hs
  | ld => exact nextWf_execLd hs ..
  | st => exact nextWf_execSt hs ..
  | amoAdd => exact nextWf_execAmoAdd hs ..
  | amoAnd => exact nextWf_execAmoAnd hs ..
  | amoOr => exact nextWf_execAmoOr hs ..
  | amoXor => exact nextWf_execAmoXor hs ..
  | amoMin => exact nextWf_execAmoMin hs ..
  | amoMax => exact nextWf_execAmoMax hs ..
  | amoMinn => exact nextWf_execAmoMinn hs ..
  | amoMaxn => exact nextWf_execAmoMaxn hs ..
  | amoSwap => exact nextWf_execAmoSwap hs ..
  | cas => exact nextWf_execCas hs ..
  | jmpr => exact nextWf_execJmpr hs ..
  | callr => exact nextWf_execCallr hs ..
  | ret => exact nextWf_execRet hs ..
  | sysc => exact nextWf_execSysc hs ..
  | brk => exact nextWf_execBrk hs ..
  | enter => exact nextWf_execEnter hs ..
  | leave => exact nextWf_execLeave hs ..
  | spush => exact nextWf_execSpush hs ..
  | spop => exact nextWf_execSpop hs ..
  | task => exact nextWf_execTask hs ..
  | gjoin => exact nextWf_execGjoin hs ..
  | gleave => exact nextWf_execGleave hs ..
  | gbar => exact nextWf_execGbar hs ..
  | spawn => exact nextWf_execSpawn hs ..
  | tokp => exact nextWf_execTokp hs ..
  | tokw => exact nextWf_execTokw hs ..
  | tokenPost => exact nextWf_execTokenPost hs ..
  | tokenTake => exact nextWf_execTokenTake hs ..
  | ccadd => exact nextWf_execCcadd hs ..
  | ccwait => exact nextWf_execCcwait hs ..
  | fence => exact nextWf_execFence hs ..
  | gear => exact nextWf_execGear hs ..
  | waitt => exact nextWf_execWaitt hs ..
  | govstep => exact nextWf_execGovstep hs ..
  | govrd => exact nextWf_execGovrd hs ..
  | puta => exact nextWf_execPuta hs ..
  | geta => exact nextWf_execGeta hs ..
  | csrw | csrs => exact nextWf_csrWrite hs ..
  | ldq => exact nextWf_execLdq hs ..
  | ldqs => exact nextWf_execLdqs hs ..
  | ldqg => exact nextWf_execLdqg hs ..
  | strm | strmc => exact nextWf_stream hs ..
  | strmxWait => exact nextWf_execStrmxWait hs ..
  | stq | stqLong => exact nextWf_storeQ hs ..
  | stqs => exact nextWf_execStqs hs ..
  | stqx => exact nextWf_execStqx hs ..
  | strw => exact nextWf_execStrw hs ..
  | upd => exact nextWf_execUpd hs ..
  | vadd | vsub | vmul | vmin | vmax | vsadd | vssub | vdiv => exact nextWf_vMap2 hs ..
  | vfma => exact nextWf_vMap3 hs ..
  | vfms => exact nextWf_execVfms hs ..
  | vnma => exact nextWf_execVnma hs ..
  | vabs | vneg | vnot | vsqrt | vrsq | vrcp | vexp2 | vlog2 | vmov | vxfer => exact nextWf_vMap1 hs ..
  | vcmp | vicmp => exact nextWf_vCompare hs ..
  | vsel => exact nextWf_execVsel hs ..
  | viadd => exact nextWf_execViadd hs ..
  | visub => exact nextWf_execVisub hs ..
  | vimul => exact nextWf_execVimul hs ..
  | vimad => exact nextWf_execVimad hs ..
  | vand => exact nextWf_execVand hs ..
  | vor => exact nextWf_execVor hs ..
  | vxor => exact nextWf_execVxor hs ..
  | vshl => exact nextWf_execVshl hs ..
  | vshr => exact nextWf_execVshr hs ..
  | vsra => exact nextWf_execVsra hs ..
  | vimin => exact nextWf_execVimin hs ..
  | vimax => exact nextWf_execVimax hs ..
  | vacs => exact nextWf_execVacs hs ..
  | vcvt => exact nextWf_execVcvt hs ..
  | vqnt => exact nextWf_execVqnt hs ..
  | vdqnt => exact nextWf_execVdqnt hs ..
  | vrotr => exact nextWf_execVrotr hs ..
  | vrotc => exact nextWf_execVrotc hs ..
  | vbcr => exact nextWf_execVbcr hs ..
  | vbcc => exact nextWf_execVbcc hs ..
  | vredr => exact nextWf_execVredr hs ..
  | vredc => exact nextWf_execVredc hs ..
  | vscnr => exact nextWf_execVscnr hs ..
  | vmovi => exact nextWf_execVmovi hs ..
  | viota => exact nextWf_execViota hs ..
  | pcntRow => exact nextWf_execPcntRow hs ..
  | pcntAll => exact nextWf_execPcntAll hs ..
  | pfstRow => exact nextWf_execPfstRow hs ..
  | pfstAll => exact nextWf_execPfstAll hs ..
  | vpart => exact nextWf_execVpart hs ..
  | vgath => exact nextWf_execVgath hs ..
  | vscat => exact nextWf_execVscat hs ..
  | vpack => exact nextWf_execVpack hs ..
  | vunpk => exact nextWf_execVunpk hs ..
  | mma => exact nextWf_execMma hs ..
  | mmav => exact nextWf_execMmav hs ..
  | mzero => exact nextWf_execMzero hs ..
  | mrd => exact nextWf_execMrd hs ..
  | mrdQueue => exact nextWf_execMrdQueue hs ..
  | mwr => exact nextWf_execMwr hs ..
  | mperm => exact nextWf_execMperm hs ..
  | mqstat => exact nextWf_execMqstat hs ..
  | cpy | cpyn => exact nextWf_startCopy hs ..
  | cpylLd | cpylSt => exact nextWf_copyLayout hs ..
  | cpyr | cpyrIp => exact nextWf_copyRows hs ..
  | pref => exact nextWf_execPref hs ..
  | flushh => exact nextWf_execFlushh hs ..
  | send => exact nextWf_execSend hs ..
  | ringi => exact nextWf_execRingi hs ..
  | ringw => exact nextWf_execRingw hs ..
  | ringr => exact nextWf_execRingr hs ..
  | bbset => exact nextWf_execBbset hs ..
  | bbwait => exact nextWf_execBbwait hs ..
  | tlbpre => exact nextWf_execTlbpre hs ..
  | tlblk => exact nextWf_execTlblk hs ..
  | tlbinv => exact nextWf_execTlbinv hs ..
  | codeLineFetch => exact nextWf_execCodeLineFetch hs ..
  | eret => exact nextWf_execEret hs ..
  | idle => exact nextWf_execIdle hs ..
  | trig => exact nextWf_execTrig hs ..
  | done => exact nextWf_execDone hs ..
  | rdv => exact nextWf_execRdv hs ..
  | streamRowPush => exact nextWf_execStreamRowPush hs ..
  | markL | markS => exact nextWf_passMarks hs ..
  | markPairRelease => exact nextWf_execMarkPairRelease hs ..
  | exposedResultLand => exact nextWf_execExposedResultLand hs ..
  | mmaPerform => exact nextWf_execMmaPerform hs ..
  | spanArbitration => exact nextWf_execSpanArbitration hs ..
  | governorStatAdd => exact nextWf_execGovernorStatAdd hs ..
  | copyGranuleWrite => exact nextWf_execCopyGranuleWrite hs ..
  | copyPerform => exact nextWf_execCopyPerform hs ..
  | tlbul => exact nextWf_execTlbul hs ..
  | qsce => exact nextWf_execQsce hs ..
  | postedWriteLanding => exact nextWf_execPostedWriteLanding hs ..
  | writeAcknowledgement => exact nextWf_execWriteAcknowledgement hs ..
  | networkWriteArrival => exact nextWf_execNetworkWriteArrival hs ..
  | windowReadRequest => exact nextWf_execWindowReadRequest hs ..
  | windowReadResponse => exact nextWf_execWindowReadResponse hs ..
  | sendArrival => exact nextWf_execSendArrival hs ..
  | arrivalDelivery => exact nextWf_execArrivalDelivery hs ..
  | arrivalTimeout => exact nextWf_execArrivalTimeout hs ..
  | sendRefusal => exact nextWf_execSendRefusal hs ..
  | groupJoinRequest => exact nextWf_execGroupJoinRequest hs ..
  | groupLeaveRequest => exact nextWf_execGroupLeaveRequest hs ..
  | groupAnswer => exact nextWf_execGroupAnswer hs ..
  | barrierArrival => exact nextWf_execBarrierArrival hs ..
  | barrierRelease => exact nextWf_execBarrierRelease hs ..
  | barrierTimeout => exact nextWf_execBarrierTimeout hs ..
  | groupLostAnswer => exact nextWf_execGroupLostAnswer hs ..
  | trapEntry => exact nextWf_execTrapEntry hs ..
  | asyncTrapEntry => exact nextWf_execAsyncTrapEntry hs ..
  | handlerTimeout => exact nextWf_execHandlerTimeout hs ..
  | deadlockDetect => exact nextWf_execDeadlockDetect hs ..
  | drainTimeout => exact nextWf_execDrainTimeout hs ..
  | taskStop => exact nextWf_execTaskStop hs ..
  | dieHalt => exact memoryWf_haltDie hs ..
  | dumpWrite => exact nextWf_execDumpWrite hs ..
  | pageFaultResume => exact nextWf_execPageFaultResume hs ..
  | pageFaultStop => exact nextWf_execPageFaultStop hs ..
  | placeInst => exact nextWf_execPlaceInst hs ..
  | preemption => exact nextWf_execPreemption hs ..
  | saveAreaWrite => exact nextWf_execSaveAreaWrite hs ..
  | contextRestore => exact nextWf_execContextRestore hs ..
  | budgetPeriodStart => exact nextWf_execBudgetPeriodStart hs ..
  | budgetExhausted => exact nextWf_execBudgetExhausted hs ..
  | tenantStarvation => exact nextWf_execTenantStarvation hs ..
  | powerEvaluation => exact nextWf_execPowerEvaluation hs ..
  | gearChangeComplete => exact nextWf_execGearChangeComplete hs ..
  | gearChangeTimeout => exact nextWf_execGearChangeTimeout hs ..
  | biasSetComplete => exact nextWf_execBiasSetComplete hs ..
  | biasSetTimeout => exact nextWf_execBiasSetTimeout hs ..
  | biasClearTimeout => exact nextWf_execBiasClearTimeout hs ..
  | biasClearComplete => exact nextWf_execBiasClearComplete hs ..
  | chartGearTimeout => exact nextWf_execChartGearTimeout hs ..
  | sensorRead => exact nextWf_execSensorRead hs ..
  | surveyTick => exact nextWf_execSurveyTick hs ..
  | railDroop => exact nextWf_execRailDroop hs ..
  | railFault => exact nextWf_execRailFault hs ..
  | inputLow => exact nextWf_execInputLow hs ..
  | inputRecover => exact nextWf_execInputRecover hs ..
  | inputCritical => exact nextWf_execInputCritical hs ..
  | flitSend => exact nextWf_execFlitSend hs ..
  | tagGroupPad => exact nextWf_execTagGroupPad hs ..
  | flitReceive => exact nextWf_execFlitReceive hs ..
  | taintNotice => exact nextWf_execTaintNotice hs ..
  | retryRequest => exact nextWf_execRetryRequest hs ..
  | retryRequestRepeat => exact nextWf_execRetryRequestRepeat hs ..
  | retrainAttemptComplete => exact nextWf_execRetrainAttemptComplete hs ..
  | retrainAttemptTimeout => exact nextWf_execRetrainAttemptTimeout hs ..
  | abortFlit => exact nextWf_execAbortFlit hs ..
  | lossNotice => exact nextWf_execLossNotice hs ..
  | failureNotice => exact nextWf_execFailureNotice hs ..
  | keyShareFirst => exact nextWf_execKeyShareFirst hs ..
  | keyShareSecond => exact nextWf_execKeyShareSecond hs ..
  | keySignature => exact nextWf_execKeySignature hs ..
  | keysReady => exact nextWf_execKeysReady hs ..
  | keyRenewalStart => exact nextWf_execKeyRenewalStart hs ..
  | uetRetransmitTimeout => exact nextWf_execUetRetransmitTimeout hs ..
  | uetGiveUp => exact nextWf_execUetGiveUp hs ..
  | timeMessage => exact nextWf_execTimeMessage hs ..
  | lockLossUpstream => exact nextWf_execLockLossUpstream hs ..
  | eyeMarginMeasure => exact nextWf_execEyeMarginMeasure hs ..
  | hostReadShared => exact nextWf_execHostReadShared hs ..
  | hostReadOwn => exact nextWf_execHostReadOwn hs ..
  | hostWriteBack => exact nextWf_execHostWriteBack hs ..
  | hostDrop => exact nextWf_execHostDrop hs ..
  | hostRecallAck => exact nextWf_execHostRecallAck hs ..
  | hostRecallTimeout => exact nextWf_execHostRecallTimeout hs ..
  | hostEnqueue => exact nextWf_execHostEnqueue hs ..
  | hostRead => exact nextWf_execHostRead hs ..
  | hostWrite => exact nextWf_execHostWrite hs ..
  | hostFlush => exact nextWf_execHostFlush hs ..
  | hostInvalidate => exact nextWf_execHostInvalidate hs ..
  | installLegend => exact nextWf_execInstallLegend hs ..
  | revokePage => exact nextWf_execRevokePage hs ..
  | hostTaskStop => exact nextWf_execHostTaskStop hs ..
  | hostHalt => exact nextWf_execHostHalt hs ..
  | dieReset => exact nextWf_execDieReset hs ..
  | debugArm => exact nextWf_execDebugArm hs ..
  | debugStopCommand => exact nextWf_execDebugStopCommand hs ..
  | debugResume => exact nextWf_execDebugResume hs ..
  | singleStep => exact nextWf_execSingleStep hs ..
  | stepDone => exact nextWf_execStepDone hs ..
  | stepCancel => exact nextWf_execStepCancel hs ..
  | rewriteReq => exact nextWf_execRewriteReq hs ..
  | attest => exact nextWf_execAttest hs ..
  | testTile => exact nextWf_execTestTile hs ..
  | selfTestRun => exact nextWf_execSelfTestRun hs ..
  | readState => exact nextWf_execReadState hs ..
  | clearCounts => exact nextWf_execClearCounts hs ..
  | retireUnit => exact nextWf_execRetireUnit hs ..
  | spareDramRow => exact nextWf_execSpareDramRow hs ..
  | clearRepairMap => exact nextWf_execClearRepairMap hs ..
  | setThresholds => exact nextWf_execSetThresholds hs ..
  | scrubPass => exact nextWf_execScrubPass hs ..
  | startStage0 => exact nextWf_execStartStage0 hs ..
  | startStage1 => exact nextWf_execStartStage1 hs ..
  | startStage2 => exact nextWf_execStartStage2 hs ..
  | dieStartTimeout => exact nextWf_execDieStartTimeout hs ..
  | timeLockStartTimeout => exact nextWf_execTimeLockStartTimeout hs ..
  | romImageWrite => exact nextWf_execRomImageWrite hs ..
  | govbaseValidSet => exact nextWf_execGovbaseValidSet hs ..
  | vdportModeWrite => exact nextWf_execVdportModeWrite hs ..
  | errcfgEnable => exact nextWf_execErrcfgEnable hs ..
  | errptrRdWrite => exact nextWf_execErrptrRdWrite hs ..
  | errptrRead => exact nextWf_execErrptrRead hs ..
  | landcntRead => exact nextWf_execLandcntRead hs ..
  | savepoolWrite => exact nextWf_execSavepoolWrite hs ..
  | dumpcfgWrite => exact nextWf_execDumpcfgWrite hs ..
  | registerWrite => exact nextWf_execRegisterWrite hs ..
  | waittTargetReached => exact nextWf_execWaittTargetReached hs ..
  | droopDutyExpiry => exact nextWf_execDroopDutyExpiry hs ..
  | dramRowSpareComplete => exact nextWf_execDramRowSpareComplete hs ..
  | flushhPerformed => exact nextWf_execFlushhPerformed hs ..
  | tlbprePerformed => exact nextWf_execTlbprePerformed hs ..
  | tlbinvPerformed => exact nextWf_execTlbinvPerformed hs ..
  | lossOfSignal => exact nextWf_execLossOfSignal hs ..
  | hostLightReturn => exact nextWf_execHostLightReturn hs ..
  | portRetrainCommand => exact nextWf_execPortRetrainCommand hs ..
  | portDisableCommand => exact nextWf_execPortDisableCommand hs ..
  | powerDown => exact nextWf_execPowerDown hs ..

/-! ### Walking ahead -/

theorem memoryWf_prefetch (hs : memoryWf s) (e k) : memoryWf (prefetch s e k) := by
  unfold prefetch
  grind [memoryWf_translate]

/-! ### Turns -/

theorem memoryWf_countTile (hs : memoryWf s) (dt u k) : memoryWf (countTile dt u s k) := by
  unfold countTile
  grind [memoryWf_surveyCount, memoryWf_foldl]
theorem memoryWf_elapse (hs : memoryWf s) (u) : memoryWf (elapse s u) := by
  unfold elapse
  grind [memoryWf_countTile, memoryWf_foldl]
theorem nextWf_noteBusy {r : Res} (hr : NextWf r) (e) : NextWf (noteBusy e s r) := by
  unfold noteBusy
  grind [NextWf, memoryWf_surveyCount]
theorem memoryWf_beginTurn (hs : memoryWf s) (k) : memoryWf (beginTurn s k) := by
  unfold beginTurn
  grind [memoryWf_focus, memoryWf_elapse, memoryWf_mk]
theorem memoryWf_evictL1 (hs : memoryWf s) (line) : memoryWf (evictL1 s line) := hs
theorem memoryWf_evictL2 (hs : memoryWf s) (line) : memoryWf (evictL2 s line) := by
  unfold evictL2
  grind [memoryWf_writeBack]
theorem memoryWf_evictTlb (hs : memoryWf s) (e vbase) : memoryWf (evictTlb s e vbase) := hs
theorem memoryWf_upset (hs : memoryWf s) (granule l2 uncorrected) : memoryWf (upset s granule l2 uncorrected) := by
  unfold upset
  grind [memoryWf_setEcc]
theorem memoryWf_upsetSpad (hs : memoryWf s) (word uncorrected) : memoryWf (upsetSpad s word uncorrected) := hs

/-! ### One step -/

theorem nextWf_issueTurn (hs : memoryWf s) (e) : NextWf (issueTurn s e) := by
  unfold issueTurn
  grind [memoryWf_prepare, nextWf_prepare_error, memoryWf_issuePassed, nextWf_noteBusy, nextWf_consume, nextWf_exec, NextWf]
theorem nextWf_hostTurn (hs : memoryWf s) : NextWf (hostTurn s) := by
  unfold hostTurn
  grind [nextWf_exec, memoryWf_hostActed, memoryWf_mk, NextWf]
theorem nextWf_act (hs : memoryWf s) (a) : NextWf (act a s) := by
  unfold act
  grind [nextWf_issueTurn, nextWf_consume, nextWf_exec, nextWf_hostTurn, memoryWf_hostSend, memoryWf_prefetch, memoryWf_performOldest,
    memoryWf_upsetReg, memoryWf_upsetRow, memoryWf_upsetCache, memoryWf_evictL1, memoryWf_evictL2, memoryWf_evictTlb, memoryWf_upset,
    memoryWf_upsetSpad, NextWf]
theorem nextWf_step (hs : memoryWf s) : NextWf (step s) := nextWf_act (memoryWf_beginTurn hs ..) ..

/-- Settles O60: a turn keeps the canonical form (`nextWf_step`), since every operation it is made of does. -/
theorem memoryKeptCanonical : Obligations.MemoryKeptCanonical := by
  intro s t hs ht
  have h := nextWf_step hs
  rwa [ht] at h

end
end Sys2Proof.Machine

/-! ## Where the accesses of C trap (R94, R115, R211 to R214) -/
namespace Sys2Proof.Machine
section
variable {s : State} {va : Word} {n access code cause level : Nat} {wr : Bool}

/-- An access whose translation misses under lock traps with the code of that miss. -/
theorem cAccess_of_trap {k : Nat → State → Res} (hc : canonical va = true) (ha : va.toNat % n = 0)
    (ht : translate s s.cur .c va.toNat wr false = .trap code) :
    cAccess va n wr access s k = .next (trapAt .c 1 code (BitVec.ofNat 64 va.toNat) s) := by
  unfold cAccess
  simp [hc, ha, ht, badXlat, trapN, trap]

/-- An access whose translation faults records the fault with its own access number. -/
theorem cAccess_of_fault {k : Nat → State → Res} (hc : canonical va = true) (ha : va.toNat % n = 0)
    (ht : translate s s.cur .c va.toNat wr false = .fault cause level) :
    cAccess va n wr access s k = .next (pageFault s .c va.toNat cause access level) := by
  unfold cAccess
  simp [hc, ha, ht, badXlat]

/-- What the access of a load meets, whatever follows it, the load meets. -/
theorem exec_ld_of_access {d a : Nat} {off : Int} {ty : Ty} {sc : Option Scope} {r : Res}
    (h : ∀ k, cAccess (s.cx.gr a + BitVec.ofInt 64 off) (tyBytes ty) false 1 s k = r) : exec (.ld d a off ty sc) s = r := by
  unfold exec execLd immW
  exact h _

/-- What the access of a store meets, whatever follows it, the store meets. -/
theorem exec_st_of_access {d a : Nat} {off : Int} {ty : Ty} {sc : Option Scope} {r : Res}
    (h : ∀ k, cAccess (s.cx.gr a + BitVec.ofInt 64 off) (tyBytes ty) true 2 s k = r) : exec (.st d a off ty sc) s = r := by
  unfold exec execSt immW
  exact h _

/-- The atomics are one operation of C with different functions of the old value, and what its access meets they all meet. -/
theorem exec_atomics_of_access {d a b c : Nat} {o : AtomOrd} {i : Instr} {r : Res}
    (hi : i ∈ ([.amoAdd d a b o, .amoAnd d a b o, .amoOr d a b o, .amoXor d a b o, .amoMin d a b o, .amoMax d a b o,
      .amoMinn d a b o, .amoMaxn d a b o, .amoSwap d a b o, .cas d a b c o] : List Instr))
    (h : ∀ k, cAccess (s.cx.gr a) (if o.wide then 8 else 4) true 3 s k = r) : exec i s = r := by
  have atom : ∀ f, atomic d a o f s = r := fun f => h _
  simp only [List.mem_cons, List.not_mem_nil, or_false] at hi
  rcases hi with rfl | rfl | rfl | rfl | rfl | rfl | rfl | rfl | rfl | rfl
  all_goals
    unfold exec
    dsimp only [execAmoAdd, execAmoAnd, execAmoOr, execAmoXor, execAmoMin, execAmoMax, execAmoMinn, execAmoMaxn, execAmoSwap, execCas]
    exact atom _

/-- Settles O8: every C access goes through `cAccess`, which checks the address's form, then its alignment, then translates it. -/
theorem accessTraps : Obligations.AccessTraps := by
  intro s d a b c off ty sc o va atomics n
  refine ⟨fun h => ⟨?_, ?_⟩, fun h hm => ⟨?_, ?_⟩, fun h i hi => ?_, fun h hm i hi => ?_, fun h ha => ⟨fun code ht => ?_, fun cause lv ht => ?_⟩⟩
  · exact exec_ld_of_access fun _ => cAccess_bad1 h
  · exact exec_st_of_access fun _ => cAccess_bad1 h
  · exact exec_ld_of_access fun _ => cAccess_bad2 h hm
  · exact exec_st_of_access fun _ => cAccess_bad2 h hm
  · exact exec_atomics_of_access hi fun _ => cAccess_bad1 h
  · exact exec_atomics_of_access hi fun _ => cAccess_bad2 h hm
  · exact exec_ld_of_access fun _ => cAccess_of_trap h ha ht
  · exact exec_st_of_access fun _ => cAccess_of_fault h ha ht

end
end Sys2Proof.Machine

/-! ## The other operations of X (R114, R117, R145, R271 to R275) -/
namespace Sys2Proof.Machine
section
variable {s s1 : State}

/-! ### Dirty lines put into memory -/

/-- A granule is listed for a range exactly when a byte of the range falls in it. -/
theorem mem_linesOf {key n l : Nat} : l ∈ linesOf key n ↔ n ≠ 0 ∧ key / 64 ≤ l ∧ l * 64 < key + n := by
  unfold linesOf
  split
  · simp [*]
  · simp only [List.mem_map, List.mem_range]
    constructor
    · rintro ⟨k, hk, rfl⟩
      omega
    · rintro ⟨-, h1, h2⟩
      exact ⟨l - key / 64, by omega, by omega⟩

theorem dramWrite_ecc : ∀ (d : List Byte) (s : State) (k : Nat), (dramWrite s k d).ecc = s.ecc
  | [], _, _ => rfl
  | _ :: r, _, _ => dramWrite_ecc r _ _
theorem chargeDram_ecc (s : State) (key n t : Nat) : (chargeDram s key n t).ecc = s.ecc := by
  unfold chargeDram; split <;> rfl
theorem countWrite_ecc (s : State) (l : Nat) : (countWrite s l).ecc = s.ecc := by
  have key : ∀ (t : State) (d o n : Nat), (surveyCount t d o n).ecc = t.ecc := by
    intro t d o n
    unfold surveyCount; split <;> rfl
  unfold countWrite countSlice
  rw [key, key]

/-- A write-back leaves the error marks of every other line. -/
theorem eccL2_writeBack_ne (s : State) {line j : Nat} (h : j ≠ line) : eccL2 (writeBack s line true) j = eccL2 s j := by
  have key : ∀ (t : State) (m n : Nat), t.ecc = s.ecc → eccL2 (setEcc t line m n) j = eccL2 s j := by
    intro t m n ht
    have := zlook_zset_ne 0 t.ecc (m + 4 * n) h
    unfold zlook at this
    unfold eccL2 setEcc
    rw [this, ht]
  unfold writeBack
  split
  · rfl
  · have drop : ∀ (t : State) (m : Assoc Line), eccL2 { t with l2 := m } j = eccL2 t j := fun _ _ => rfl
    simp only [if_true, drop]
    split
    · exact key _ _ _ (by rw [countWrite_ecc, chargeDram_ecc, dramWrite_ecc])
    · rfl

/-- A line written back and kept is clean. -/
theorem writeBack_l2 {line : Nat} {l : Line} (h : alook s.l2 line = some l) :
    (writeBack s line true).l2 = aset s.l2 line { l with dirty := false } := by
  unfold writeBack
  simp only [h, if_true]
  split
  · simp [countWrite, countSlice, dramWrite_l2]
  · rfl

/-- Where it was dirty, memory holds its bytes. -/
theorem dramByte_writeBack {line : Nat} {l : Line} (h : alook s.l2 line = some l) (k : Nat) :
    dramByte (writeBack s line true) k = if l.dirty = true ∧ k / 64 = line then l.data.getD (k % 64) 0 else dramByte s k := by
  have key : ∀ t : State, dramByte { t with l2 := aset t.l2 line { l with dirty := false } } k = dramByte t k := fun _ => rfl
  unfold writeBack
  simp only [h, if_true, key]
  by_cases hd : l.dirty = true
  · simp only [hd, if_true, true_and, dramByte_setEcc, countWrite, countSlice, dramByte_surveyCount, dramByte_chargeDram,
      dramByte_dramWrite, lineBytes_length]
    by_cases hk : k / 64 = line
    · have hb : k - line * 64 = k % 64 := by omega
      rw [if_pos (by omega), if_pos hk, hb, lineBytes_getD _ (Nat.mod_lt _ (by decide))]
    · rw [if_neg (by omega), if_neg hk]
  · rw [if_neg hd, if_neg fun h => hd h.1]

theorem writeBack_of_none {line : Nat} (h : alook s.l2 line = none) : writeBack s line true = s := by
  unfold writeBack; rw [h]

/-- A line written back and kept shows the bytes it showed. -/
theorem peekByte_writeBack (s : State) (line k : Nat) : peekByte (writeBack s line true) k = peekByte s k := by
  cases h : alook s.l2 line with
  | none => rw [writeBack_of_none h]
  | some l =>
    unfold peekByte
    rw [writeBack_l2 h, alook_aset, dramByte_writeBack h]
    by_cases hk : k / 64 = line
    · rw [if_pos hk, hk, h]
    · rw [if_neg hk, if_neg fun h => hk h.2]

/-- What FLUSHH does with a line of its ranges. -/
def flushLine (s : State) (line : Nat) : State := if eccL2 s line = 2 then s else writeBack s line true

theorem flushKeys_eq (keys : List (Nat × Nat)) (s : State) :
    flushKeys keys s = (keys.flatMap fun x => linesOf x.1 x.2).foldl flushLine s := rfl

/-- A line flushed: clean, and memory holds what `s` showed. -/
def Flushed (s : State) (line : Nat) (l : Line) (u : State) : Prop :=
  alook u.l2 line = some { l with dirty := false } ∧ ∀ k, k / 64 = line → dramByte u k = peekByte s k
/-- A line not yet flushed: the line and its error mark are those of `s`. -/
def Unflushed (s : State) (line : Nat) (l : Line) (u : State) : Prop :=
  alook u.l2 line = some l ∧ eccL2 u line = eccL2 s line

section
variable {u : State} {line j : Nat} {l : Line}

/-- A write-back leaves the other lines and their bytes in memory. -/
theorem writeBack_other (s : State) (h : j ≠ line) : alook (writeBack s j true).l2 line = alook s.l2 line
    ∧ ∀ k, k / 64 = line → dramByte (writeBack s j true) k = dramByte s k := by
  cases hj : alook s.l2 j with
  | none => rw [writeBack_of_none hj]; exact ⟨rfl, fun _ _ => rfl⟩
  | some x =>
    refine ⟨by rw [writeBack_l2 hj, alook_aset_ne _ _ (Ne.symm h)], fun k hk => ?_⟩
    rw [dramByte_writeBack hj, if_neg fun e => h (e.2.symm.trans hk)]

theorem Flushed.flushLine (h : Flushed s line l u) (j : Nat) : Flushed s line l (flushLine u j) := by
  obtain ⟨hl, hb⟩ := h
  unfold Machine.flushLine
  split
  · exact ⟨hl, hb⟩
  · by_cases hj : j = line
    · subst hj
      refine ⟨by rw [writeBack_l2 hl, alook_aset_self], fun k hk => ?_⟩
      rw [dramByte_writeBack hl, if_neg (by simp), hb k hk]
    · obtain ⟨h1, h2⟩ := writeBack_other u hj
      exact ⟨h1.trans hl, fun k hk => (h2 k hk).trans (hb k hk)⟩

theorem Unflushed.flushLine_ne (h : Unflushed s line l u) (hj : j ≠ line) : Unflushed s line l (flushLine u j) := by
  obtain ⟨hl, he⟩ := h
  unfold flushLine
  split
  · exact ⟨hl, he⟩
  · exact ⟨(writeBack_other u hj).1.trans hl, (eccL2_writeBack_ne u (Ne.symm hj)).trans he⟩

theorem Unflushed.flushed (h : Unflushed s line l u) (hs : alook s.l2 line = some l) (hd : l.dirty = true) (he : eccL2 s line ≠ 2) :
    Flushed s line l (flushLine u line) := by
  obtain ⟨hl, hu⟩ := h
  unfold flushLine
  rw [if_neg (hu ▸ he)]
  refine ⟨by rw [writeBack_l2 hl, alook_aset_self], fun k hk => ?_⟩
  rw [dramByte_writeBack hl, if_pos ⟨hd, hk⟩]
  unfold peekByte
  rw [hk, hs]

/-- A dirty line without an uncorrected error that is among the lines flushed is flushed, whichever come before and after it. -/
theorem flushed_foldl {ls : List Nat} (hs : alook s.l2 line = some l) (hd : l.dirty = true) (he : eccL2 s line ≠ 2)
    (hu : Unflushed s line l u) (hm : line ∈ ls) : Flushed s line l (ls.foldl flushLine u) := by
  induction ls generalizing u with
  | nil => simp at hm
  | cons j ls ih =>
    rw [List.foldl_cons]
    by_cases hj : j = line
    · subst hj
      exact foldl_keeps (P := Flushed s j l) (fun _ x hx => hx.flushLine x) ls _ (hu.flushed hs hd he)
    · exact ih (hu.flushLine_ne hj) ((List.mem_cons.mp hm).resolve_left (Ne.symm hj))

theorem flushKeys_flushed {keys : List (Nat × Nat)} {r : Nat × Nat} (hs : alook s.l2 line = some l) (hd : l.dirty = true)
    (he : eccL2 s line ≠ 2) (hr : r ∈ keys) (hl : line ∈ linesOf r.1 r.2) : Flushed s line l (flushKeys keys s) :=
  flushed_foldl hs hd he ⟨hs, rfl⟩ (List.mem_flatMap.mpr ⟨r, hr, hl⟩)

theorem flushKeys_cx (keys : List (Nat × Nat)) (s : State) : (flushKeys keys s).cx = s.cx :=
  foldl_keeps (P := fun t => t.cx = s.cx) (fun t x ht => by
    split
    · exact ht
    · exact (recordsOnly_cx (recordsOnly_writeBack t x true)).trans ht) _ s rfl

theorem flushKeys_memorySame (keys : List (Nat × Nat)) (s : State) : MemorySame s (flushKeys keys s) :=
  foldl_keeps (P := MemorySame s) (fun t x ht k => by
    split
    · exact ht k
    · exact (peekByte_writeBack t x k).trans (ht k)) _ s fun _ => rfl

end

/-! ### What a range of pages meets -/

theorem translateRange_ok {p : Nat} {e : Engine} {wr : Bool} : ∀ {l : List (Nat × Nat)} {s s1 : State} {keys : List (Nat × Nat)},
    translateRange s p e wr l = .ok (keys, s1) → s1.cx = s.cx ∧ MemorySame s s1
  | [], s, s1, keys, h => by cases h; exact ⟨rfl, fun _ => rfl⟩
  | (va, n) :: r, s, s1, keys, h => by
    unfold translateRange at h
    split at h
    next key s2 h2 =>
      obtain ⟨hc, hm⟩ := translate_ok h2
      split at h
      next ks s3 h3 =>
        obtain ⟨hc', hm'⟩ := translateRange_ok h3
        cases h
        exact ⟨hc'.trans hc, fun k => (hm' k).trans (hm k)⟩
      · cases h
    · cases h

/-- PREF keeps the context and every byte. -/
theorem prefPages_keeps : ∀ (l : List (Nat × Nat)) (s : State), (prefPages l s).cx = s.cx ∧ MemorySame s (prefPages l s)
  | [], s => ⟨rfl, fun _ => rfl⟩
  | (va, n) :: r, s => by
    unfold prefPages
    split
    next key s1 h =>
      obtain ⟨hc, hm⟩ := translate_ok h
      obtain ⟨hc', hm'⟩ := prefPages_keeps r (touch s1 s.cx.tenant key n)
      exact ⟨hc'.trans ((touch_cx ..).trans hc), fun k => (hm' k).trans ((peekByte_touch ..).trans (hm k))⟩
    · exact prefPages_keeps r s

/-! ### The lock entries -/

theorem lockPending_iff (c : Ctx) : lockPending c = true ↔ ∃ o ∈ c.xops, ∃ lo n cc x, o = .tlbpre lo n cc x := by
  unfold lockPending
  rw [List.any_eq_true]
  constructor
  · rintro ⟨o, ho, h⟩
    cases o with
    | tlbpre lo n cc x => exact ⟨_, ho, lo, n, cc, x, rfl⟩
    | flushh | tlbinv => simp at h
  · rintro ⟨o, ho, lo, n, cc, x, rfl⟩
    exact ⟨_, ho, rfl⟩

/-- Registers written zero one after another read zero, and the others as before. -/
theorem cr_foldl_setCr_zero (base n j : Nat) : ∀ c : Ctx,
    ((List.range n).foldl (fun c k => c.setCr (base + k) 0) c).cr j = if base ≤ j ∧ j < base + n then 0 else c.cr j := by
  induction n with
  | zero => intro c; rw [if_neg (by omega)]; rfl
  | succ n ih =>
    intro c
    rw [List.range_succ, List.foldl_append, List.foldl_cons, List.foldl_nil, Ctx.cr_setCr, ih]
    split
    · rw [if_pos (by omega)]
    · split
      · rw [if_pos (by omega)]
      · rw [if_neg (by omega)]

theorem clearLocks_cr (c : Ctx) (n : Nat) :
    (clearLocks c).cr n = if n = 0x048 ∨ n = 0x049 ∨ (0x050 ≤ n ∧ n ≤ 0x05F) then 0 else c.cr n := by
  have locks : (clearLocks c).cr n = (((List.range 16).foldl (fun c k => c.setCr (0x050 + k) 0) ((c.setCr 0x048 0).setCr 0x049 0))).cr n := by
    unfold clearLocks Ctx.cr
    dsimp only
  rw [locks, cr_foldl_setCr_zero, Ctx.cr_setCr, Ctx.cr_setCr]
  grind

/-- Emptying the lock entries writes control registers and their translations only. -/
theorem clearLocks_eq (c : Ctx) : clearLocks c = { c with csr := (clearLocks c).csr, lockTr := [] } := by
  have key : ∀ (l : List Nat) (c : Ctx), l.foldl (fun c k => c.setCr (0x050 + k) 0) c
      = { c with csr := (l.foldl (fun c k => c.setCr (0x050 + k) 0) c).csr } := by
    intro l
    induction l with
    | nil => intro c; rfl
    | cons k l ih => intro c; rw [List.foldl_cons, ih]; rfl
  unfold clearLocks
  rw [key]
  dsimp only [Ctx.setCr]

/-! ### Translations dropped -/

theorem alook_map_of_key {α : Type} {g : Nat × α → Nat × α} (hg : ∀ e, (g e).1 = e.1) (m : Assoc α) (k : Nat) :
    alook (m.map g) k = (m.find? fun e => e.1 == k).map fun e => (g e).2 := by
  unfold alook
  rw [List.find?_map]
  simp only [Function.comp_def, hg, Option.map_map]

/-- What a TLB holds after a tenant's range is dropped on some tiles. -/
theorem tlbDropOn_tlb (s : State) (on : Nat → Bool) (tenant lo n k : Nat) (e : Engine) :
    (tileAt (tlbDropOn s on tenant lo n) k).tlb e
      = if on k then tlbDrop tenant lo n ((tileAt s k).tlb e) else (tileAt s k).tlb e := by
  have none : tlbDrop tenant lo n (({} : Tile).tlb e) = ({} : Tile).tlb e := by cases e <;> rfl
  unfold tileAt tlbDropOn
  rw [alook_map_of_key (by intro x; split <;> rfl)]
  unfold alook
  cases h : s.tiles.find? fun x => x.1 == k with
  | none => simp [none]
  | some x =>
    have hk : x.1 = k := by simpa using List.find?_some h
    simp only [Option.map_some, Option.getD_some, hk]
    cases on k
    · simp
    · cases e <;> rfl

/-! ### The instructions -/

section
variable {a b t h : Nat} {f : Fail} {cc : Option Nat} {urgent : Bool} {scope : Scope} {keys : List (Nat × Nat)} {pages : List Tlb}

theorem checked_some {e : Engine} {k : State → Res} {fault : Option Fail} (hf : fault = some f) :
    checked e fault k s = .next (trapAt e 1 f.1 f.2 s) := by subst hf; rfl

/-- PREF, FLUSHH and TLBINV of a range outside the address space. -/
theorem range_traps (hf : virtFault (operand s 0 a) (operand s 1 b).toNat = some f) :
    Traps .x (.pref a b) s f.1 f.2 ∧ Traps .x (.flushh a b cc) s f.1 f.2 ∧ Traps .x (.tlbinv scope a b) s f.1 f.2 := by
  refine ⟨?_, ?_, ?_⟩
  · unfold Traps exec execPref
    exact checked_some hf
  · unfold Traps exec execFlushh
    exact checked_some hf
  · unfold Traps exec execTlbinv
    exact checked_some hf

theorem pref_completes (hf : virtFault (operand s 0 a) (operand s 1 b).toNat = none) :
    ∃ u, Completes .x (.pref a b) s u ∧ u.cx = s.cx ∧ MemorySame s u := by
  refine ⟨prefPages (pagesOf (operand s 0 a).toNat (operand s 1 b).toNat) s, completes_done ?_, prefPages_keeps _ s⟩
  unfold exec execPref
  exact checked_none hf

theorem flushh_completes (hf : virtFault (operand s 0 a) (operand s 1 b).toNat = none)
    (hr : translateRange s s.cur .x false (pagesOf (operand s 0 a).toNat (operand s 1 b).toNat) = .ok (keys, s1)) :
    Completes .x (.flushh a b cc) s (withCx s1 { s1.cx with xops := s1.cx.xops ++ [.flushh keys cc s.iss.seq] }) ∧ MemorySame s s1 := by
  refine ⟨completes_done ?_, (translateRange_ok hr).2⟩
  unfold exec execFlushh
  refine (checked_none hf).trans ?_
  rw [hr]
  rfl

theorem tlbinv_completes (hf : virtFault (operand s 0 a) (operand s 1 b).toNat = none) :
    Completes .x (.tlbinv scope a b) s
      (withCx s { s.cx with xops := s.cx.xops ++ [.tlbinv scope (operand s 0 a).toNat (operand s 1 b).toNat s.iss.seq] }) := by
  refine completes_done ?_
  unfold exec execTlbinv
  exact checked_none hf

/-- While a TLBPRE is in flight, the instructions that use the lock entries wait. -/
theorem lock_waits (hl : lockPending s.cx = true) :
    exec (.tlbpre a b cc) s = .next s ∧ exec (.tlblk a b) s = .next s ∧ exec .tlbul s = .next s :=
  ⟨if_pos hl, if_pos hl, if_pos hl⟩

theorem tlbpre_completes (hl : lockPending s.cx = false) (hf : virtFault (operand s 0 a) (operand s 1 b).toNat = none)
    (hp : lockPages s (operand s 0 a) ((operand s 0 a).toNat + (operand s 1 b).toNat) (16 - s.cx.lockTr.length) 40 (operand s 0 a).toNat [] s
      = .ok (pages, s1)) :
    Completes .x (.tlbpre a b cc) s (withCx s1 { s1.cx with xops := s1.cx.xops ++
      [.tlbpre (operand s 0 a).toNat (operand s 1 b).toNat cc { s.cx.qX.headD { word := 0 } with seq := s.iss.seq, vals := s.iss.vals }] }) := by
  refine completes_done ((if_neg (by simp [hl])).trans ((checked_none hf).trans ?_))
  dsimp only
  rw [hp]
  rfl

theorem tlblk_completes (hl : lockPending s.cx = false) (hf : virtFault (operand s 0 a) (operand s 1 b).toNat = none)
    (hu : unlocked s.cx ((operand s 0 a).toNat + (operand s 1 b).toNat) 17 (operand s 0 a).toNat = none) :
    Completes .x (.tlblk a b) s (withCx s ((s.cx.setCr 0x048 (BitVec.ofNat 64 ((operand s 0 a).toNat % 2 ^ 57))).setCr 0x049
      (BitVec.ofNat 64 (((operand s 0 a).toNat + (operand s 1 b).toNat) % 2 ^ 57)))) :=
  completes_done ((if_neg (by simp [hl])).trans (checked_none (by rw [hf, hu]; rfl)))

theorem tlblk_traps {v : Nat} (hl : lockPending s.cx = false) (hf : virtFault (operand s 0 a) (operand s 1 b).toNat = none)
    (hu : unlocked s.cx ((operand s 0 a).toNat + (operand s 1 b).toNat) 17 (operand s 0 a).toNat = some v) :
    Traps .x (.tlblk a b) s 0x608 (BitVec.ofNat 64 (v / 65536 * 65536)) :=
  (if_neg (by simp [hl])).trans (checked_some (f := (0x608, _)) (by rw [hf, hu]; rfl))

theorem tlbul_completes (hl : lockPending s.cx = false) : ∃ c, Completes .x .tlbul s (withCx s c)
    ∧ c = { s.cx with csr := c.csr, lockTr := [] }
    ∧ ∀ n, c.cr n = if n = 0x048 ∨ n = 0x049 ∨ (0x050 ≤ n ∧ n ≤ 0x05F) then 0 else s.cx.cr n :=
  ⟨clearLocks s.cx, completes_done (if_neg (by simp [hl])), clearLocks_eq s.cx, clearLocks_cr s.cx⟩

theorem qsce_completes (hq : ∀ x ∈ s.cx.queue .x, s.iss.seq ≤ x.seq) (hf : ∀ k ∈ s.cx.inFlight .x, s.iss.seq ≤ k) :
    Completes .x .qsce s s := by
  have hp : s.cx.performedBefore .x s.iss.seq = true := by
    unfold Ctx.performedBefore
    simp only [Bool.and_eq_true, List.all_eq_true, Bool.or_eq_true, decide_eq_true_eq]
    exact ⟨fun x hx => .inl (hq x hx), hf⟩
  exact completes_done (if_pos hp)

/-- SEND checks the payload's length, then the line, then the target's chart. -/
theorem send_traps_length (hn : 256 < (operand s 1 b).toNat) : Traps .x (.send a b t h urgent cc) s 0x606 (operand s 1 b) := by
  unfold Traps exec execSend
  refine checked_some (f := (0x606, operand s 1 b)) ?_
  rw [if_pos hn]
  rfl
theorem send_traps_line (hn : (operand s 1 b).toNat ≤ 256) (hl : (operand s 3 h).toNat % 32 ≠ 0) :
    Traps .x (.send a b t h urgent cc) s 0x606 (operand s 3 h) := by
  unfold Traps exec execSend
  refine checked_some (f := (0x606, operand s 3 h)) ?_
  rw [if_neg (by omega), if_pos hl]
  rfl
theorem send_traps_target (hn : (operand s 1 b).toNat ≤ 256) (hl : (operand s 3 h).toNat % 32 = 0) (ht : s.z ≤ wbits (operand s 2 t) 26 6) :
    Traps .x (.send a b t h urgent cc) s 0x606 (operand s 2 t) := by
  unfold Traps exec execSend
  refine checked_some (f := (0x606, operand s 2 t)) ?_
  rw [if_neg (by omega), if_neg (by omega), if_pos ht]
  rfl

theorem send_completes (hn : (operand s 1 b).toNat ≤ 256) (hl : (operand s 3 h).toNat % 32 = 0) (ht : wbits (operand s 2 t) 26 6 < s.z)
    (hs : spFault0 s s.iss.seq 0x701 (operand s 0 a) (operand s 1 b).toNat = none) (hc : canonical (operand s 3 h) = true)
    (hm : spadMeet s [(spOff (operand s 0 a), (operand s 1 b).toNat)] = .ok s1) :
    let there := wbits (operand s 2 t) 15 17 * 2 ^ 15
    let sent := sendPacket (publish s1) (myPacket s1 there (if urgent then 3 else 2)
      (.send (memRead s1.cx.spad (spOff (operand s 0 a)) (operand s 1 b).toNat) (operand s 3 h) there s.iss.seq))
    Completes .x (.send a b t h urgent cc) s (withCx sent (lowered sent .x cc)) := by
  have hi : s1.iss = s.iss := by
    obtain ⟨-, heq, -⟩ := spadMeet_ok hm
    exact (congrArg State.iss heq :)
  refine completes_doneCC ((checked_none ?_).trans ((consuming_ok hm).trans ?_))
  · refine firstFault_none fun x hx => ?_
    simp only [List.mem_cons, List.not_mem_nil, or_false] at hx
    rcases hx with rfl | rfl | rfl | rfl | rfl
    · rw [if_neg (by omega)]
    · rw [if_neg (by omega)]
    · rw [if_neg (by omega)]
    · exact hs
    · rw [if_pos hc]
  · dsimp only
    rw [hi]
    rfl

end

/-! ### The events -/

/-- The operations in flight of one kind: `FLUSHH`, `TLBPRE`, `TLBINV`. -/
def ofKind (k : Nat) : XOp → Bool
  | .flushh .. => k = 0
  | .tlbpre .. => k = 1
  | .tlbinv .. => k = 2
/-- The operation of a kind that the schedule names for performance. -/
def picked (s : State) (k : Nat) : Option XOp := (s.cx.xops.filter (ofKind k))[s.inp.sel]?

theorem pickOp_eq_picked {p : XOp → Bool} (k : Nat) (h : ∀ o, p o = ofKind k o) : pickOp s p = picked s k := by
  obtain rfl : p = ofKind k := funext h
  rfl

section
variable {seq lo size : Nat} {cc : Option Nat} {keys : List (Nat × Nat)} {pages : List Tlb} {scope : Scope} {e : Entry}

theorem execFlushhPerformed_of_picked (hp : picked s 0 = some (.flushh keys cc seq)) : execFlushhPerformed s =
    .next (withCx (flushKeys keys s) ((dropOp s.cx (.flushh keys cc seq)).ccComplete cc .x seq)) := by
  unfold execFlushhPerformed
  split
  next h1 =>
    cases (h1.symm.trans (pickOp_eq_picked 0 fun o => by cases o <;> rfl)).trans hp
    rw [← flushKeys_cx keys s]
    rfl
  next h1 => exact (h1 _ _ _ ((pickOp_eq_picked 0 fun o => by cases o <;> rfl).trans hp)).elim

/-- The state a `TLBPRE` walks its pages again for: its entry is back at the head of X's queue, so that a fault reports it. -/
def reissued (s : State) (o : XOp) (e : Entry) : State :=
  { s with cx := { dropOp s.cx o with qX := e :: s.cx.qX }, iss := { seq := e.seq, lane := e.lane, vals := e.vals } }

theorem execTlbprePerformed_of_picked (hp : picked s 1 = some (.tlbpre lo size cc e)) : execTlbprePerformed s =
    if (tileRuns s && s.cx.faultFree) = false then .next s
    else match lockPages (reissued s (.tlbpre lo size cc e) e) (BitVec.ofNat 64 lo) (lo + size) (16 - s.cx.lockTr.length) 40 lo [] s with
      | .error r => r
      | .ok (l, s1) => .next (withCx s1 ((l.foldl lockPage (dropOp s1.cx (.tlbpre lo size cc e))).ccComplete cc .x e.seq)) := by
  unfold execTlbprePerformed
  split
  next h1 =>
    cases (h1.symm.trans (pickOp_eq_picked 1 fun o => by cases o <;> rfl)).trans hp
    cases tileRuns s <;> cases s.cx.faultFree <;> rfl
  next h1 => exact (h1 _ _ _ _ ((pickOp_eq_picked 1 fun o => by cases o <;> rfl).trans hp)).elim

theorem execTlbprePerformed_fills (hp : picked s 1 = some (.tlbpre lo size cc e)) (hr : (tileRuns s && s.cx.faultFree) = true)
    (hl : lockPages (reissued s (.tlbpre lo size cc e) e) (BitVec.ofNat 64 lo) (lo + size) (16 - s.cx.lockTr.length) 40 lo [] s = .ok (pages, s1)) :
    execTlbprePerformed s =
      .next (withCx s1 ((pages.foldl lockPage (dropOp s1.cx (.tlbpre lo size cc e))).ccComplete cc .x e.seq)) := by
  rw [execTlbprePerformed_of_picked hp, if_neg (by simp [hr]), hl]

theorem execTlbinvPerformed_of_picked (hp : picked s 2 = some (.tlbinv scope lo size seq)) : execTlbinvPerformed s =
    .next (withCx (tlbDropOn s (tileInScope scope (tileOf s.cur)) s.cx.tenant lo size) (dropOp s.cx (.tlbinv scope lo size seq))) := by
  unfold execTlbinvPerformed
  split
  next h1 =>
    cases (h1.symm.trans (pickOp_eq_picked 2 fun o => by cases o <;> rfl)).trans hp
    rfl
  next h1 => exact (h1 _ _ _ _ ((pickOp_eq_picked 2 fun o => by cases o <;> rfl).trans hp)).elim

/-- With no operation in flight, the events of X's operations do nothing. -/
theorem xops_events_idle (h : s.cx.xops = []) :
    execFlushhPerformed s = .next s ∧ execTlbprePerformed s = .next s ∧ execTlbinvPerformed s = .next s := by
  have idle : ∀ p : XOp → Bool, pickOp s p = none := fun p => by unfold pickOp; rw [h]; rfl
  refine ⟨?_, ?_, ?_⟩
  · unfold execFlushhPerformed; rw [idle]; rfl
  · unfold execTlbprePerformed; rw [idle]; rfl
  · unfold execTlbinvPerformed; rw [idle]; rfl

end

/-- Settles O40: each instruction by its own rule above, each event by what it does with the operation it performs. -/
theorem otherXOperations : Obligations.OtherXOperations := by
  intro s s1 a b t h seq lo size urgent cc keys pages scope f v e va len target line issued gone kind pickedHere locking payload there lock bounded
  have kind_eq : ∀ k, kind k = ofKind k := fun k => funext fun o => by cases o <;> rfl
  have picked_of : ∀ {k o}, pickedHere k o → picked s k = some o := fun {k o} hp => by
    unfold picked
    rw [← kind_eq]
    exact hp
  have locking_iff : locking ↔ lockPending s.cx = true := by
    rw [lockPending_iff]
    constructor
    · rintro ⟨o, ho, hk⟩
      cases o with
      | tlbpre lo n cc x => exact ⟨_, ho, lo, n, cc, x, rfl⟩
      | flushh | tlbinv => simp [kind] at hk
    · rintro ⟨o, ho, lo, n, cc, x, rfl⟩
      exact ⟨_, ho, rfl⟩
  have unlocked_of : ¬locking → lockPending s.cx = false := fun hn => Bool.eq_false_iff.mpr fun hl => hn (locking_iff.mpr hl)
  have lock_eq : lock = lockPage := by
    funext c p
    rfl
  refine ⟨range_traps, fun hf => ⟨pref_completes hf, flushh_completes hf, tlbinv_completes hf⟩, fun hl => lock_waits (locking_iff.mp hl),
    fun hn hf => ⟨tlbpre_completes (unlocked_of hn) hf, tlblk_completes (unlocked_of hn) hf, tlblk_traps (unlocked_of hn) hf⟩,
    fun hn => tlbul_completes (unlocked_of hn), fun hq => qsce_completes hq.1 hq.2, ?_, ?_, ?_, ?_, fun hp => ?_, fun hp hr => ?_, fun hp hr => ?_,
    fun hp => ?_, fun hx => xops_events_idle hx⟩
  · exact send_traps_length
  · exact send_traps_line
  · exact send_traps_target
  · exact send_completes
  · refine ⟨_, execFlushhPerformed_of_picked (picked_of hp), rfl, flushKeys_memorySame keys s, ?_⟩
    rintro k l ⟨r, hr, hn, h1, h2⟩ hl hd - he
    obtain ⟨hc, hb⟩ := flushKeys_flushed hl hd he hr (mem_linesOf.mpr ⟨hn, h1, h2⟩)
    exact ⟨hb k rfl, hc⟩
  · exact (execTlbprePerformed_of_picked (picked_of hp)).trans (if_pos hr)
  · intro c back hl
    rw [lock_eq]
    exact execTlbprePerformed_fills (picked_of hp) hr hl
  · refine ⟨_, execTlbinvPerformed_of_picked (picked_of hp), rfl, fun k e => ?_⟩
    exact tlbDropOn_tlb ..

end
end Sys2Proof.Machine

/-! ## Commands of the host and debug (R111, R117, R361 to R364, R384, R386, R413, R440, R459) -/
namespace Sys2Proof.Machine
section
variable {s : State} {d : Nat}

/-! ### Commands that wait for a die that serves them -/

/-- The die of the current place takes commands: its module has a host, and it runs in stage 2. -/
def Serves (s : State) : Prop := hostUp s (moduleOf s.cur) = true ∧ dieHalted s = false ∧ (myDie s).stage = 2

theorem command_of_serves {cmd : Nat} {k : State → Res} (h : Serves s) : command cmd k s = k s := by
  obtain ⟨hu, hh, hs⟩ := h
  unfold command
  simp [hu, hh, hs]
theorem command_of_down {cmd : Nat} {k : State → Res} (h : ¬hostUp s (moduleOf s.cur) = true) : command cmd k s = .next s := by
  unfold command
  simp [h, wait]

/-- The sixty-four bytes of the legend a command brings. -/
def legendBytes (s : State) : List Byte := padTo 64 (s.inp.bytes.take 64)
/-- The named tenant's keys of that legend's line and of its sheets, where it may be installed. -/
def legendKeys (s : State) : Option (Nat × List Nat) :=
  installable s (dieOf s.cur) (s.inp.tenant % 16) (s.inp.sel % 65536) (legendOf (legendBytes s))

/-- A legend that fits is written with its state field clear, and its sheets get its edition. -/
theorem execInstallLegend_of_some {key : Nat} {sheets : List Nat} (h : Serves s) (hi : legendKeys s = some (key, sheets)) :
    execInstallLegend s = .next (respond (sheets.foldl (fun s' k => setTag s' k ((legendOf (legendBytes s)).edition % 256))
      (pokeThrough s key (splice (legendBytes s) 0x38 (leBytes 4 0)))) 6 0 []) := by
  unfold legendKeys at hi
  refine (command_of_serves h).trans ?_
  show (match installable s (dieOf s.cur) (s.inp.tenant % 16) (s.inp.sel % 65536) (legendOf (legendBytes s)) with
    | none => _ | some (key, sheets) => _) = _
  rw [hi]
  rfl
theorem execInstallLegend_of_none (h : Serves s) (hi : legendKeys s = none) : execInstallLegend s = .next (respond s 6 2 []) := by
  unfold legendKeys at hi
  refine (command_of_serves h).trans ?_
  show (match installable s (dieOf s.cur) (s.inp.tenant % 16) (s.inp.sel % 65536) (legendOf (legendBytes s)) with
    | none => _ | some (key, sheets) => _) = _
  rw [hi]

/-- The first address of the page a revocation names, and the contexts that lock it. -/
def revoked (s : State) : Nat := va57 s.inp.addr / 2 ^ pageBits (s.inp.sel % 4) * 2 ^ pageBits (s.inp.sel % 4)
def revokeHolders (s : State) : List (Nat × Option Nat) :=
  pageHolders s (dieOf s.cur) (s.inp.tenant % 16) (revoked s) (2 ^ pageBits (s.inp.sel % 4))

theorem execRevokePage_free (h : Serves s) (hp : revokeHolders s = []) : execRevokePage s = .next (respond s 7 0 []) := by
  unfold revokeHolders revoked at hp
  refine (command_of_serves h).trans ?_
  dsimp only
  rw [hp]
theorem execRevokePage_held {x : Nat × Option Nat} {q : List (Nat × Option Nat)} (h : Serves s) (hp : revokeHolders s = x :: q) :
    execRevokePage s = .next ((x :: q).foldl (fun s' x => revokeStop s' (dieOf s.cur) (revoked s) (s.inp.tenant % 16) x.1 x.2) s) := by
  unfold revokeHolders revoked at hp
  refine (command_of_serves h).trans ?_
  dsimp only
  rw [hp]
  rfl

/-- The dumps of the named task that its die is writing. -/
def taskDumps (s : State) : List Nat := (dieAt s (dieOf s.cur)).dumps.filter fun n => n / 2 ^ 16 % 2 ^ 32 = wbits s.inp.value 0 32

theorem execHostTaskStop_unknown (h : Serves s) (ht : taskAt s (dieOf s.cur) (wbits s.inp.value 0 32) = none) :
    execHostTaskStop s = .next (respond s 8 1 []) := by
  refine (command_of_serves h).trans ?_
  dsimp only
  rw [ht]
theorem execHostTaskStop_known {t : Task} (h : Serves s) (ht : taskAt s (dieOf s.cur) (wbits s.inp.value 0 32) = some t) :
    execHostTaskStop s = if taskDumps s = [] then .next (respond (stopTask s (dieOf s.cur) (wbits s.inp.value 0 32) 6 none none) 8 0 [])
      else .next (respond (updTask ((taskDumps s).foldl (fun s' n => dropDump s' (dieOf s.cur) n 3) s) (dieOf s.cur) (wbits s.inp.value 0 32)
        fun t => { t with stopping := some 14 }) 8 0 []) := by
  refine (command_of_serves h).trans ?_
  dsimp only
  rw [ht]
  rfl

/-- Without a host on the module, the commands wait. -/
theorem commands_wait (h : ¬hostUp s (moduleOf s.cur) = true) : exec .installLegend s = .next s ∧ exec .revokePage s = .next s
    ∧ exec .hostTaskStop s = .next s ∧ exec .hostHalt s = .next s ∧ exec .dieReset s = .next s := by
  refine ⟨?_, ?_, ?_, ?_, ?_⟩
  · unfold exec execInstallLegend
    exact command_of_down h
  · unfold exec execRevokePage
    exact command_of_down h
  · unfold exec execHostTaskStop
    exact command_of_down h
  · unfold exec execHostHalt
    exact if_pos (by simp [h])
  · unfold exec execDieReset
    exact if_pos (by simp [coreUp, h])

/-! ### Halt and reset of a die -/

theorem recordsOnly_die {t : State} (h : recordsOnly s t) (d : Nat) : (dieAt t d).halted = (dieAt s d).halted
    ∧ (dieAt t d).stage = (dieAt s d).stage ∧ (dieAt t d).tasks = (dieAt s d).tasks ∧ (dieAt t d).saved = (dieAt s d).saved
    ∧ (dieAt t d).repairMap = (dieAt s d).repairMap := by
  obtain ⟨-, hd, -, -⟩ := h
  have := hd d
  unfold dieRecordsOnly at this
  rw [this]
  exact ⟨rfl, rfl, rfl, rfl, rfl⟩

theorem recordsOnly_pokePieces (tenant : Nat) : ∀ (l : List (Nat × Nat)) (s : State) (b : List Byte), recordsOnly s (pokePieces s tenant l b)
  | [], s, _ => recordsOnly_refl s
  | (_, _) :: l, _, _ => recordsOnly_trans (recordsOnly_poke ..) (recordsOnly_pokePieces tenant l _ _)

theorem recordsOnly_writeCompletion (s : State) (d : Nat) (t : Task) (status : Nat) : recordsOnly s (writeCompletion s d t status) := by
  unfold writeCompletion
  split
  · exact recordsOnly_pokePieces ..
  · exact recordsOnly_trans (recordsOnly_mem rfl) (recordsOnly_writeRecord ..)

/-- An answer with no data writes records and messages only. -/
theorem recordsOnly_respond (s : State) (cmd status : Nat) : recordsOnly s (respond s cmd status []) := by
  unfold respond
  exact recordsOnly_tellHost ..

/-- A task halted with its die leaves the die's list, and the die's halt stands. -/
theorem haltTask_die (reason d : Nat) (s : State) (t : Task) : (dieAt (haltTask reason d s t) d).halted = (dieAt s d).halted
    ∧ (dieAt (haltTask reason d s t) d).tasks = (dieAt s d).tasks.filter fun u => u.handle ≠ t.handle := by
  unfold haltTask
  extract_lets retired u s1
  have h1 : recordsOnly s s1 := by
    show recordsOnly s (if retired then s else _)
    split
    · exact recordsOnly_refl s
    · exact recordsOnly_writeRecord ..
  have h2 : recordsOnly s (if reachable s1 d u then writeCompletion s1 d u (if retired then 1 else 2) else s1) := by
    split
    · exact recordsOnly_trans h1 (recordsOnly_writeCompletion ..)
    · exact h1
  obtain ⟨hh, -, ht, -⟩ := recordsOnly_die h2 d
  unfold freeEntry
  rw [dieAt_updDie]
  exact ⟨hh, by rw [← ht]⟩

theorem foldl_haltTask (reason d : Nat) : ∀ (l : List Task) (s : State), (dieAt (l.foldl (haltTask reason d) s) d).halted = (dieAt s d).halted
    ∧ ∀ t ∈ (dieAt (l.foldl (haltTask reason d) s) d).tasks, t ∈ (dieAt s d).tasks ∧ t ∉ l
  | [], _ => ⟨rfl, fun t ht => ⟨ht, by simp⟩⟩
  | x :: l, s => by
    obtain ⟨h1, h2⟩ := haltTask_die reason d s x
    obtain ⟨h3, h4⟩ := foldl_haltTask reason d l (haltTask reason d s x)
    refine ⟨h3.trans h1, fun t ht => ?_⟩
    obtain ⟨hm, hn⟩ := h4 t ht
    rw [h2, List.mem_filter] at hm
    obtain ⟨hm, hx⟩ := hm
    refine ⟨hm, fun hc => ?_⟩
    rcases List.mem_cons.mp hc with rfl | hc
    · simp at hx
    · exact hn hc

/-- A halt leaves the die halted for its reason, without tasks. -/
theorem haltDie_die {reason : Nat} (hh : (dieAt s d).halted = none) (hp : (dieAt s d).powered = true) (he : dieExists s d = true) :
    (dieAt (haltDie s d reason) d).halted = some reason ∧ (dieAt (haltDie s d reason) d).tasks = [] := by
  unfold haltDie
  rw [if_neg (by simp [hh, hp, he])]
  extract_lets s0 s1 s2 s3 s4 s5
  generalize hf : List.foldl _ s5 _ = u
  have hu : u.dies = s5.dies := by
    rw [← hf]
    exact foldl_keeps (P := fun t => t.dies = s5.dies) (fun t x ht => by split <;> exact ht) _ _ rfl
  have hd : dieAt u d = dieAt s5 d := by unfold dieAt; rw [hu]
  rw [hd]
  obtain ⟨h1, h2⟩ := foldl_haltTask reason d (dieAt s4 d).tasks s4
  refine ⟨h1.trans (by rw [dieAt_updDie]), List.eq_nil_iff_forall_not_mem.mpr fun t ht => ?_⟩
  obtain ⟨hm, hn⟩ := h2 t ht
  exact hn hm

theorem execDieReset_running (hu : hostUp s (moduleOf s.cur) = true) (hp : (myDie s).powered = true) (hh : (myDie s).halted = none) :
    execDieReset s = .next (respond s 9 1 []) := by
  unfold execDieReset
  simp [coreUp, hu, hp, hh]

/-- A reset die starts again from stage 0, with its repair map; what it held of tasks and contexts is gone. -/
theorem execDieReset_halted {n : Nat} (hu : hostUp s (moduleOf s.cur) = true) (hp : (myDie s).powered = true) (hh : (myDie s).halted = some n) :
    ∃ u, execDieReset s = .next u ∧ (dieAt u (dieOf s.cur)).halted = none ∧ (dieAt u (dieOf s.cur)).stage = 0 ∧ (dieAt u (dieOf s.cur)).tasks = []
      ∧ (dieAt u (dieOf s.cur)).saved = [] ∧ (dieAt u (dieOf s.cur)).repairMap = (dieAt s (dieOf s.cur)).repairMap ∧ u.cx = {} := by
  unfold execDieReset
  rw [if_neg (by simp [coreUp, hu, hp]), if_neg (by simp [hh])]
  refine ⟨_, rfl, ?_⟩
  generalize hw : wipe (setMeasure s (dieOf s.cur) 0 ((measured s (dieOf s.cur)).take 64)) (fun e => e = dieOf s.cur) = w
  have hr := recordsOnly_respond (updDie w (dieOf s.cur) (dieCold s.now)) 9 0
  obtain ⟨h1, h2, h3, h4, h5⟩ := recordsOnly_die hr (dieOf s.cur)
  rw [dieAt_updDie] at h1 h2 h3 h4 h5
  refine ⟨h1, h2, h3, h4, h5.trans ?_, (recordsOnly_cx hr).trans ?_⟩
  · show (dieAt w (dieOf s.cur)).repairMap = _
    have hm : dieAt w (dieOf s.cur) = dieAt (setMeasure s (dieOf s.cur) 0 ((measured s (dieOf s.cur)).take 64)) (dieOf s.cur) := by
      rw [← hw]
      rfl
    rw [hm]
    unfold setMeasure
    rw [dieAt_updDie]
  · show w.cx = {}
    rw [← hw]
    exact if_pos (decide_eq_true rfl)

/-! ### Debug -/

theorem execDebugArm_flag2_false (hc : s.cx.phase ≠ .empty) (hf : s.inp.flag2 = false) :
    execDebugArm s = .next (withCx s { s.cx with armed := s.inp.flag }) := by
  unfold execDebugArm
  simp [hc, hf, withCx]
theorem execDebugArm_flag2_true (hc : s.cx.phase ≠ .empty) (hf : s.inp.flag2 = true) :
    ∃ u, execDebugArm s = .next u ∧ u.cx.armed = s.inp.flag ∧ (tileAt u (tileOf s.cur)).breaks = s.inp.values.take 4 := by
  unfold execDebugArm
  rw [hf]
  refine ⟨_, rfl, ?_, ?_⟩
  · simp [hc]
  · simp

theorem freezeChart_cx (s : State) (p : Nat) : (freezeChart s p).cx = s.cx := by
  unfold freezeChart; split <;> rfl
theorem thawChart_cx (s : State) (p : Nat) : (thawChart s p).cx = s.cx := by
  unfold thawChart unfreezeChart
  extract_lets c faulted
  split
  · rfl
  · split <;> rfl

/-- A debug stop that is due holds the drained context. -/
theorem debugHold_due {cause : Nat} (hd : s.cx.due = some (.debug cause)) (hh : s.cx.handler = false) (hr : s.cx.drained = true)
    (ht : s.cx.trapDue = none) (ha : s.cx.asyncDue = none) :
    ∃ u, debugHold s = some u ∧ u.cx = { s.cx with due := none, debugHeld := true } := by
  unfold debugHold
  rw [hd]
  dsimp only
  rw [if_neg (by simp [hh, hr, ht, ha])]
  exact ⟨_, rfl, freezeChart_cx ..⟩

/-- A due debug stop discards a trap of the context that is not entered yet. -/
theorem dropTrap_due {cause : Nat} (hd : s.cx.due = some (.debug cause)) (hh : s.cx.handler = false) :
    dropTrap s = withCx s { s.cx with trapDue := none, report := none, lineTrap := false } := by
  unfold dropTrap
  rw [hd]
  dsimp only
  rw [if_neg (by simp [hh])]
  rfl

theorem execDebugStopCommand_due {cause : Nat} (hd : s.cx.due = some (.debug cause)) (hh : s.cx.handler = false) (hr : s.cx.drained = true)
    (ha : s.cx.asyncDue = none) : ∃ u, execDebugStopCommand s = .next u ∧ u.cx.debugHeld = true ∧ u.cx.due = none ∧ u.cx.trapDue = none := by
  have hdrop := dropTrap_due hd hh
  obtain ⟨u, hu, hc⟩ := debugHold_due (s := dropTrap s) (by rw [hdrop]; exact hd) (by rw [hdrop]; exact hh) (by rw [hdrop]; exact hr)
    (by rw [hdrop]; rfl) (by rw [hdrop]; exact ha)
  refine ⟨u, ?_, ?_⟩
  · unfold execDebugStopCommand
    dsimp only
    rw [hu]
  · rw [hc, hdrop]
    exact ⟨rfl, rfl, rfl⟩

theorem execDebugStopCommand_of_none (hn : debugHold (dropTrap s) = none) : execDebugStopCommand s =
    if s.inp.flag then .next (stopTaskForDebug (dropTrap s) (dieOf s.cur) (wbits s.inp.value 0 32))
    else .next ((debugHold (stopForDebug (dropTrap s) s.cur 3)).getD (stopForDebug (dropTrap s) s.cur 3)) := by
  unfold execDebugStopCommand
  dsimp only
  rw [hn]

theorem execStepDone_issued {e : Engine} (hs : s.cx.stepping = some e) (hi : stepIssued s.cx e = true)
    (he : effectsEnded s.cx (fun k => if e = .c then s.cx.stepSeq ≤ k else k = s.cx.stepSeq) = true) (hh : s.cx.handler = false)
    (ht : s.cx.trapDue = none) : ∃ u, execStepDone s = .next u ∧ u.cx = { s.cx with stepping := none }
      ∧ (dieAt u (dieOf s.cur)).debugRecords = (dieAt s (dieOf s.cur)).debugRecords ++ [debugBytes s s.cur 4 (engCode e)] := by
  unfold execStepDone
  rw [hs]
  dsimp only
  rw [if_pos (by simp [hi, he, hh, ht])]
  refine ⟨_, rfl, rfl, ?_⟩
  show (dieAt (debugRecord s s.cur 4 (engCode e)) (dieOf s.cur)).debugRecords = _
  unfold debugRecord
  rw [dieAt_updDie]

theorem execStepDone_waiting {e : Engine} (hs : s.cx.stepping = some e) (hi : stepIssued s.cx e = false) : execStepDone s = .next s := by
  unfold execStepDone
  rw [hs]
  dsimp only
  rw [if_neg (by simp [hi])]
  rfl

/-- Resume lets the context go on, and its chart group with it. -/
theorem execDebugResume_held (h : s.cx.debugHeld = true) :
    ∃ u, execDebugResume s = .next u ∧ u.cx = { s.cx with debugHeld := false, stepping := none, passBreak := true }
      ∧ u = thawChart (withCx s { s.cx with debugHeld := false, stepping := none, passBreak := true }) s.cur :=
  ⟨_, if_neg (by simp [h]), thawChart_cx .., rfl⟩

theorem execSingleStep_held {e : Engine} (h : s.cx.debugHeld = true) (he : s.inp.engine = e) : execSingleStep s = .next (withCx s { s.cx with
    stepping := some e, stepSeq := if e = .c then s.cx.seqNext else nextSeq s.cx e, stepLine := decide (e = .c) }) := by
  subst he
  exact if_neg (by simp [h])

/-- A context that is not held is neither resumed nor stepped, and one that does not step neither ends nor cancels a step. -/
theorem notHeld_waits (h : s.cx.debugHeld = false) : execDebugResume s = .next s ∧ execSingleStep s = .next s :=
  ⟨if_pos (by simp [h]), if_pos (by simp [h])⟩
theorem notStepping_waits (h : s.cx.stepping = none) : execStepDone s = .next s ∧ execStepCancel s = .next s := by
  constructor
  · unfold execStepDone
    rw [h]
    rfl
  · exact if_pos (by simp [h])
theorem execStepCancel_stepping {e : Engine} (h : s.cx.stepping = some e) : execStepCancel s = .next (withCx s { s.cx with stepping := none }) :=
  if_neg (by simp [h])

/-- Settles O52: each command by its own rule above. -/
theorem commandsAndDebug : Obligations.CommandsAndDebug := by
  intro s key cause n sheets q x t e d up ready te b h mine size lo undue stepped
  refine ⟨execInstallLegend_of_some, execInstallLegend_of_none, execRevokePage_free, execRevokePage_held, execHostTaskStop_unknown,
    fun hr ht hm => (execHostTaskStop_known hr ht).trans (if_pos hm), fun hr ht hm => (execHostTaskStop_known hr ht).trans (if_neg hm),
    commands_wait, fun hu hh hp he => ?_, execDieReset_running, execDieReset_halted, execDebugArm_flag2_false, execDebugArm_flag2_true,
    execDebugStopCommand_due, fun hn hf => (execDebugStopCommand_of_none hn).trans (if_pos hf),
    fun hn hf => (execDebugStopCommand_of_none hn).trans (if_neg (by simp [hf])), execDebugResume_held, notHeld_waits, execSingleStep_held,
    execStepDone_issued, execStepDone_waiting, notStepping_waits, execStepCancel_stepping⟩
  have hup : hostUp s (moduleOf s.cur) = true := hu
  have hhalt : (dieAt s d).halted = none := by simpa [dieHalted, myDie] using hh
  exact ⟨haltDie s d 4, if_neg (by simp [hup]), haltDie_die hhalt hp he⟩

end
end Sys2Proof.Machine

/-! ## The fence of C (R131 to R133, R235) -/
namespace Sys2Proof.Machine
section
variable {s : State} {sc : Scope} {n l : Nat}

/-! ### The tiles -/

@[simp] theorem surveyCount_tiles (s : State) (d o n : Nat) : (surveyCount s d o n).tiles = s.tiles := by
  unfold surveyCount; split <;> rfl
@[simp] theorem countDropped_tiles (s : State) (ls : List Nat) : (countDropped s ls).tiles = s.tiles :=
  foldl_keeps (P := fun t => t.tiles = s.tiles) (fun t j h => by
    show (if _ then _ else _ : State).tiles = _
    split
    · exact (surveyCount_tiles ..).trans h
    · exact h) _ s rfl
/-- A tile after every tile is changed by a function of its number that leaves an empty tile as it is. -/
theorem tileAt_map {t : State} {f : Nat → Tile → Tile} (ht : t.tiles = s.tiles.map fun e => (e.1, f e.1 e.2)) (h0 : f n {} = {}) :
    tileAt t n = f n (tileAt s n) := by
  unfold tileAt
  rw [ht, alook_map_of_key (g := fun e => (e.1, f e.1 e.2)) (fun _ => rfl)]
  unfold alook
  cases h : s.tiles.find? fun e => e.1 == n with
  | none => exact h0.symm
  | some e =>
    have hn : e.1 = n := by simpa using List.find?_some h
    simp only [Option.map_some, Option.getD_some, hn]

/-- What a publication leaves of tile `n`: the publishing tile owes nothing of the lines any more, the others hold no copy of them. -/
def publishTile (here : Nat) (old : List Nat) (n : Nat) (x : Tile) : Tile :=
  if n = here then { x with released := x.released.filter fun l => !(old.contains l) }
  else { x with l1 := x.l1.filter (fun x => !(old.contains x.1)), l1Bad := x.l1Bad.filter fun l => !(old.contains l) }
theorem tileAt_publish (s : State) (n : Nat) : tileAt (publish s) n = publishTile (tileOf s.cur) s.cx.stored n (tileAt s n) := by
  refine tileAt_map ?_ ?_
  · show (countDropped s _).tiles.map _ = _
    rw [countDropped_tiles]
    refine List.map_congr_left fun e _ => ?_
    unfold publishTile
    split <;> rfl
  · unfold publishTile
    split <;> rfl
theorem alook_filter_none {α : Type} {p : Nat → Bool} {k : Nat} (h : p k = false) (m : Assoc α) :
    alook (m.filter fun e => p e.1) k = none := by
  unfold alook
  rw [List.find?_filter, Option.map_eq_none_iff, List.find?_eq_none]
  rintro e - he
  simp only [beq_iff_eq, Bool.decide_and, Bool.decide_eq_true, Bool.and_eq_true, decide_eq_true_eq] at he
  obtain ⟨hp, rfl⟩ := he
  exact Bool.false_ne_true (h.symm.trans hp)
/-- No other tile holds a copy of a line published. -/
theorem publish_l1 (hn : n ≠ tileOf s.cur) (hl : l ∈ s.cx.stored) : alook (tileAt (publish s) n).l1 l = none := by
  rw [tileAt_publish, publishTile, if_neg hn]
  exact alook_filter_none (p := fun k => !(s.cx.stored.contains k)) (by simpa using hl) _
/-- The publishing tile keeps its caches and what it owes of other lines. -/
theorem publish_own (s : State) : tileAt (publish s) (tileOf s.cur) =
    { tileAt s (tileOf s.cur) with released := (tileAt (publish s) (tileOf s.cur)).released } := by
  rw [tileAt_publish, publishTile, if_pos rfl]

/-! ### The scopes -/

/-- What a fence leaves: its acquire, then its release. -/
def fenced (sc : Scope) (s : State) : State := releaseAt (some sc) (acquireAt (some sc) s)

theorem fenced_c (s : State) : fenced .c s = s := rfl
theorem acquireAt_of_ne (h : sc ≠ .c) (s : State) :
    acquireAt (some sc) s = { s with cx := { s.cx with stored := (s.cx.stored ++ (myTile s).released).eraseDups } } := by
  cases sc with
  | c => exact absurd rfl h
  | _ => rfl
theorem releaseAt_wide (hc : sc ≠ .c) (ht : sc ≠ .t) (s : State) : releaseAt (some sc) s = publish s := by
  cases sc with
  | c => exact absurd rfl hc
  | t => exact absurd rfl ht
  | _ => rfl
/-- An acquire takes over the lines released on its tile. -/
theorem mem_stored_acquireAt (h : sc ≠ .c) : l ∈ (acquireAt (some sc) s).cx.stored ↔ l ∈ s.cx.stored ∨ l ∈ (myTile s).released := by
  rw [acquireAt_of_ne h, List.mem_eraseDups, List.mem_append]
theorem acquireAt_tiles (o : Option Scope) (s : State) : (acquireAt o s).tiles = s.tiles := by rw [acquireAt_cx]
theorem acquireAt_cur (o : Option Scope) (s : State) : (acquireAt o s).cur = s.cur := by rw [acquireAt_cx]
theorem tileAt_acquireAt (o : Option Scope) (s : State) (n : Nat) : tileAt (acquireAt o s) n = tileAt s n := by
  unfold tileAt
  rw [acquireAt_tiles]

theorem fenced_peek (sc : Scope) (s : State) : MemorySame s (fenced sc s) := fun k =>
  (releaseAt_peek _ _ k).trans (acquireAt_peek _ _ k)
/-- A fence changes only the list of lines stored in its context. -/
theorem fenced_cx (sc : Scope) (s : State) : (fenced sc s).cx = { s.cx with stored := (fenced sc s).cx.stored } := by
  obtain ⟨hr, -⟩ := releaseAt_cx (some sc) (acquireAt (some sc) s)
  unfold fenced
  rw [hr, acquireAt_cx]
/-- A fence of a wide scope leaves nothing stored, and no copy on another tile of what was stored or released. -/
theorem fenced_wide (hc : sc ≠ .c) (ht : sc ≠ .t) : (fenced sc s).cx.stored = [] ∧ ∀ n l, n ≠ tileOf s.cur →
    l ∈ s.cx.stored ∨ l ∈ (myTile s).released → alook (tileAt (fenced sc s) n).l1 l = none := by
  unfold fenced
  rw [releaseAt_wide hc ht]
  refine ⟨by rw [publish_cx], fun n l hn hl => publish_l1 ?_ ((mem_stored_acquireAt hc).mpr hl)⟩
  rwa [acquireAt_cur]
/-- A fence of its tile: what the tile was released and what the context has stored are the same lines, and both hold them. -/
theorem fenced_tile : (∀ l, l ∈ (fenced .t s).cx.stored ↔ l ∈ s.cx.stored ∨ l ∈ (myTile s).released)
    ∧ ∀ l, l ∈ (tileAt (fenced .t s) (tileOf s.cur)).released ↔ l ∈ s.cx.stored ∨ l ∈ (myTile s).released := by
  have ha : ∀ l, l ∈ (acquireAt (some .t) s).cx.stored ↔ l ∈ s.cx.stored ∨ l ∈ (myTile s).released := fun l =>
    mem_stored_acquireAt (by decide)
  refine ⟨ha, fun l => ?_⟩
  unfold fenced releaseAt
  rw [acquireAt_cur]
  dsimp only
  rw [tileAt_updTile, List.mem_eraseDups, List.mem_append, ha, tileAt_acquireAt]
  exact or_iff_left_of_imp .inr
/-- A fence leaves its own tile as it is but for the record of what was released there. -/
theorem fenced_own (sc : Scope) (s : State) : tileAt (fenced sc s) (tileOf s.cur) =
    { tileAt s (tileOf s.cur) with released := (tileAt (fenced sc s) (tileOf s.cur)).released } := by
  have hp := publish_own (acquireAt (some sc) s)
  rw [acquireAt_cur, tileAt_acquireAt] at hp
  cases sc with
  | c => rfl
  | t =>
    unfold fenced releaseAt
    rw [acquireAt_cur]
    dsimp only
    rw [tileAt_updTile, tileAt_acquireAt]
  | _ => exact hp

/-- Settles O7: a fence is what `fenced` says, once no store of its context waits. -/
theorem fencePublishes : Obligations.FencePublishes := by
  intro s sc
  refine ⟨fun hs => if_neg hs, fun hs => ⟨fenced sc s, completes_done (if_pos hs), fenced_peek sc s, fenced_cx sc s, fenced_wide, ?_, ?_,
    fenced_own sc s⟩⟩
  · rintro rfl
    exact fenced_tile
  · rintro rfl
    exact fenced_c s

end
end Sys2Proof.Machine

/-! ## The marks of L and S (R128, R397) -/
namespace Sys2Proof.Machine
section
variable {s : State} {c : Ctx} {x y : Entry}

/-- S's stores before a mark are performed when no addition of statistics of an earlier one is in flight. -/
theorem markReadyS_iff {n : Nat} : markReadyS c n = true ↔ ∀ z ∈ c.statq, z.eng = .s → n ≤ z.seq := by
  simp only [markReadyS, List.all_filter, List.all_eq_true, Bool.or_eq_true, Bool.not_eq_true', decide_eq_false_iff_not,
    decide_eq_true_eq, ← Decidable.imp_iff_not_or]

/-- A mark at the head of L's queue is what its bindings halt at. -/
theorem atMark_of_markHead (h : markHead c .l .markL = some x) : atMark c = true := by
  unfold markHead at h
  split at h
  · cases h
  · next z r hq =>
    change c.qL = z :: r at hq
    unfold atMark
    rw [hq]
    split at h
    · assumption
    · cases h

/-- While L stands at its mark, no binding pushes. -/
theorem execStreamRowPush_of_mark (h : markHead s.cx .l .markL = some x) : execStreamRowPush s = .next s := by
  unfold execStreamRowPush
  split
  · rfl
  · exact if_pos (by simp [mayPush, atMark_of_markHead h])

/-- Both marks have left the heads of their queues. -/
def bothPassed (c : Ctx) : Ctx := { c with qL := c.qL.tail, qS := c.qS.tail }.supply
/-- `MARK.L` has left alone: a `MARK.S` was discarded. -/
def passedL (c : Ctx) : Ctx := { c with skipS := c.skipS - 1, qL := c.qL.tail }.supply
/-- `MARK.S` has left alone: a `MARK.L` was discarded. -/
def passedS (c : Ctx) : Ctx := { c with skipL := c.skipL - 1, qS := c.qS.tail }.supply

theorem bothPassed_queues (c : Ctx) : queuesOnly c (bothPassed c) ∧ seqs (bothPassed c).qL = (seqs c.qL).tail
    ∧ seqs (bothPassed c).qS = (seqs c.qS).tail ∧ (bothPassed c).qC = c.qC ∧ (bothPassed c).qV = c.qV :=
  ⟨rfl, (supply_seqs _ .l).trans (seqs_tail _), (supply_seqs _ .s).trans (seqs_tail _), rfl, rfl⟩
theorem passedL_queues (c : Ctx) : queuesOnly { c with skipS := c.skipS - 1 } (passedL c)
    ∧ seqs (passedL c).qL = (seqs c.qL).tail ∧ seqs (passedL c).qS = seqs c.qS :=
  ⟨rfl, (supply_seqs _ .l).trans (seqs_tail _), supply_seqs _ .s⟩
theorem passedS_queues (c : Ctx) : queuesOnly { c with skipL := c.skipL - 1 } (passedS c)
    ∧ seqs (passedS c).qS = (seqs c.qS).tail ∧ seqs (passedS c).qL = seqs c.qL :=
  ⟨rfl, (supply_seqs _ .s).trans (seqs_tail _), supply_seqs _ .l⟩

/-- Two marks that meet, with no partner discarded, pass together once S's earlier stores are performed. -/
theorem passMarks_meet (hL : markHead s.cx .l .markL = some x) (hS : markHead s.cx .s .markS = some y)
    (h : s.cx.skipL = 0 ∧ s.cx.skipS = 0) (hr : markReadyS s.cx y.seq = true) :
    passMarks s = .next (withCx s (bothPassed s.cx)) := by
  obtain ⟨hl, hs⟩ := h
  unfold passMarks
  simp only [hL, hS, hr, Nat.not_lt_of_le (Nat.le_of_eq hl), Nat.not_lt_of_le (Nat.le_of_eq hs), Bool.not_true, Bool.false_eq_true, if_false]
  rfl
theorem passMarks_unready (hL : markHead s.cx .l .markL = some x) (hS : markHead s.cx .s .markS = some y)
    (h : s.cx.skipL = 0 ∧ s.cx.skipS = 0) (hr : markReadyS s.cx y.seq = false) : passMarks s = .next s := by
  obtain ⟨-, hs⟩ := h
  unfold passMarks
  simp only [hL, hS, hs, hr, Nat.lt_irrefl, Bool.not_false, if_false, if_true, wait]
/-- A mark of L alone waits for its partner, unless that was discarded. -/
theorem passMarks_discardedS (hL : markHead s.cx .l .markL = some x) (h : 0 < s.cx.skipS) :
    passMarks s = .next (withCx s (passedL s.cx)) := by
  unfold passMarks
  simp only [hL, h, if_true]
  cases markHead s.cx .s .markS <;> rfl
theorem passMarks_loneL (hL : markHead s.cx .l .markL = some x) (hS : markHead s.cx .s .markS = none) (h : s.cx.skipS = 0) :
    passMarks s = .next s := by
  unfold passMarks
  simp only [hL, hS, h, Nat.lt_irrefl, if_false, wait]
theorem passMarks_discardedL (hS : markHead s.cx .s .markS = some y) (hL : markHead s.cx .l .markL = none) (h : 0 < s.cx.skipL)
    (hr : markReadyS s.cx y.seq = true) : passMarks s = .next (withCx s (passedS s.cx)) := by
  unfold passMarks
  simp only [hL, hS, h, hr, decide_true, Bool.and_self, if_true]
  rfl
theorem passMarks_loneS (hS : markHead s.cx .s .markS = some y) (hL : markHead s.cx .l .markL = none) (h : s.cx.skipL = 0) :
    passMarks s = .next s := by
  unfold passMarks
  simp [hL, hS, h, wait]

/-- The event lets marks pass where L and S may both issue and neither repeats; otherwise it leaves the machine as it is. -/
theorem execMarkPairRelease_eq : execMarkPairRelease s =
    if mayIssue s .l && mayIssue s .s && !(s.cx.rep .l).active && !(s.cx.rep .s).active then passMarks s else .next s := rfl

/-- Settles O24: each combination of marks by its own rule above. -/
theorem marksPassTogether : Obligations.MarksPassTogether := by
  intro s x y atL atS ready both
  have ready_iff : ready ↔ markReadyS s.cx y.seq = true := markReadyS_iff.symm
  refine ⟨fun hL hS hb hr => ?together, fun hL hS hb hr => ?held, fun hL hS h => passMarks_loneL hL hS h,
    fun hS hL h => passMarks_loneS hS hL h, fun hL h => ?aloneL, fun hS hL h hr => ?aloneS, fun hL => execStreamRowPush_of_mark hL⟩
  case together =>
    have hp : passMarks s = .next (withCx s (bothPassed s.cx)) := passMarks_meet hL hS hb (ready_iff.mp hr)
    obtain ⟨hq, hl, hs, hc, hv⟩ := bothPassed_queues s.cx
    refine ⟨withCx s (bothPassed s.cx), rfl, hq, hl, hs, hc, hv, hp, hp, fun h1 h2 h3 h4 => (if_pos ?_).trans hp⟩
    simp [h1, h2, h3, h4]
  case held =>
    have hp : passMarks s = .next s := passMarks_unready hL hS hb (Bool.eq_false_iff.mpr (mt ready_iff.mpr hr))
    refine ⟨hp, hp, execMarkPairRelease_eq.trans ?_⟩
    rw [hp, ite_self]
  case aloneL => exact ⟨_, passMarks_discardedS hL h, rfl, passedL_queues s.cx⟩
  case aloneS => exact ⟨_, passMarks_discardedL hS hL h (ready_iff.mp hr), rfl, passedS_queues s.cx⟩

end
end Sys2Proof.Machine

/-! ## The granules and the end of a copy (R90, R136, R264, R266, R269, R270) -/
namespace Sys2Proof.Machine
section
variable {s s1 s2 : State} {x : Copy} {g : Granule} {b bytes : List Byte} {k off : Nat} {f : List Byte → State → Res}

/-! ### Where a linear copy stands -/

/-- A linear copy `n` bytes further on. -/
def movedBy (x : Copy) (n : Nat) : Copy :=
  { x with src := x.src + BitVec.ofNat 64 n, dst := x.dst + BitVec.ofNat 64 n, rest := x.rest - n, moved := x.moved + n }
theorem movedBy_zero (x : Copy) : movedBy x 0 = x := by simp [movedBy]
theorem movedBy_movedBy (x : Copy) (m n : Nat) : movedBy (movedBy x m) n = movedBy x (m + n) := by
  simp only [movedBy, BitVec.ofNat_add, BitVec.add_assoc, Nat.sub_sub, Nat.add_assoc]

/-- Bytes of the next granule of a linear copy: up to a 64-byte boundary of the destination, or to its end. -/
def linearBytes (x : Copy) : Nat := min x.rest (64 - x.dst.toNat % 64)
/-- The next granule of a linear copy: one run of the source. -/
def linearGranule (x : Copy) : Granule := ⟨x.dst, linearBytes x, [(x.src, linearBytes x)]⟩

theorem nextGranule_linear (h : x.kind = 1) : nextGranule x = linearGranule x := by
  unfold nextGranule
  rw [h]
  rfl
theorem advance_linear (h : x.kind = 1) (n : Nat) : advance x n = movedBy x n := by
  unfold advance
  rw [if_neg (by rw [h]; decide)]
  rfl
/-- Granules further on, a linear copy has moved by bytes, and nothing else of it has changed. -/
theorem copyAt_linear (h : x.kind = 1) (k : Nat) : ∃ n, copyAt x k = movedBy x n := by
  induction k generalizing x with
  | zero => exact ⟨0, (movedBy_zero x).symm⟩
  | succ k ih =>
    obtain ⟨n, hn⟩ := ih (x := movedBy x (nextGranule x).n) h
    exact ⟨(nextGranule x).n + n, by rw [copyAt, advance_linear h, hn, movedBy_movedBy]⟩

theorem copyAt_kind (h : x.kind = 1) (k : Nat) : (copyAt x k).kind = 1 := by
  obtain ⟨n, hn⟩ := copyAt_linear h k
  rw [hn]
  exact h
theorem copyAt_rest_ne_zero (h : x.kind = 1) (hr : (copyAt x k).rest ≠ 0) : x.rest ≠ 0 := by
  obtain ⟨n, hn⟩ := copyAt_linear h k
  rw [hn] at hr
  intro h0
  exact hr (by simp [movedBy, h0])
theorem copyAt_fields (h : x.kind = 1) (k : Nat) :
    (copyAt x k).src = x.src + BitVec.ofNat 64 ((copyAt x k).moved - x.moved)
      ∧ (copyAt x k).dst = x.dst + BitVec.ofNat 64 ((copyAt x k).moved - x.moved) ∧ x.moved ≤ (copyAt x k).moved
      ∧ (copyAt x k).rest = x.rest - ((copyAt x k).moved - x.moved) ∧ (k = 0 → copyAt x k = x) := by
  obtain ⟨n, hn⟩ := copyAt_linear h k
  have hm : (movedBy x n).moved - x.moved = n := Nat.add_sub_cancel_left ..
  refine ⟨?_, ?_, ?_, ?_, fun h0 => by rw [h0]; rfl⟩
  · rw [hn, hm]; rfl
  · rw [hn, hm]; rfl
  · rw [hn]; exact Nat.le_add_right ..
  · rw [hn, hm]; rfl

/-- A granule written at the place a copy has come to is joined at once. -/
theorem collapse_one (h : x.kind = 1) (hr : x.rest ≠ 0) (hd : x.done = [x.moved]) :
    collapse x 1 = { movedBy x (linearBytes x) with done := [] } := by
  unfold collapse
  rw [if_pos (by simp [hr, hd]), nextGranule_linear h, advance_linear h, hd, List.erase_cons_head]
  rfl
/-- The first granule written of a copy with none written ahead moves the copy by its bytes. -/
theorem noteGranule_first (h : x.kind = 1) (hd : x.done = []) (hr : x.rest ≠ 0) :
    noteGranule x x.moved = { movedBy x (linearBytes x) with data := adel x.data x.moved } := by
  unfold noteGranule
  rw [hd]
  refine (collapse_one (x := { x with done := [x.moved], data := adel x.data x.moved }) h hr rfl).trans ?_
  unfold movedBy
  rw [hd]
  rfl

/-! ### Where the bytes of a granule come from -/

theorem withSource_virtual {src dst : Word} {n : Nat} (hv : x.srcVm = true) (hr : virtRead s .x (pieces src.toNat n) = .ok bytes s1) :
    withSource k x off ⟨dst, n, [(src, n)]⟩ f s = f bytes s1 := by
  unfold withSource
  simp only [hv, if_true, List.flatMap_cons, List.flatMap_nil, List.append_nil, hr]

section
variable {src dst : Word} {n : Nat} (hv : x.srcVm = false)
include hv

theorem withSource_local (ha : x.ahead = false) (hw : spWin src = 0) (hm : spadMeet s [(spOff src, n)] = .ok s1) :
    withSource k x off ⟨dst, n, [(src, n)]⟩ f s = f (memRead s1.cx.spad (spOff src) n) s1 := by
  unfold withSource
  simp only [hv, ha, List.headD_cons, hw, ne_eq, not_true_eq_false, decide_false, Bool.and_false, Bool.false_eq_true, if_false,
    List.map_cons, List.map_nil, List.flatMap_cons, List.flatMap_nil, List.append_nil]
  exact consuming_ok hm
/-- Bytes that have been asked for through a window are waited for. -/
theorem withSource_asked (hw : spWin src ≠ 0) (hd : alook x.data off = none) (hr : off ∈ x.reading) :
    withSource k x off ⟨dst, n, [(src, n)]⟩ f s = .next s := by
  unfold withSource
  simp [hv, hw, hd, hr, wait]
theorem withSource_come (ha : x.ahead = false) (hw : spWin src ≠ 0) (hd : alook x.data off = some b) :
    withSource k x off ⟨dst, n, [(src, n)]⟩ f s = f b s := by
  unfold withSource
  simp [hv, hw, hd, ha]

end

/-! ### Where the bytes of a granule go -/

/-- The bytes of a granule counted at the copy's barrier, where it has one. -/
def barrierCount (x : Copy) (n : Nat) (c : Ctx) : Ctx :=
  match x.bb with
  | some o => barrierAdd c o n
  | none => c
/-- A packet of one granule of copy `k` through window `w`: cells by the offset in the peer's scratchpad. -/
def granulePacket (s : State) (k : Nat) (x : Copy) (w : Nat) (dst : Word) (b : List Byte) : Packet :=
  myPacket s (winPlace (x.win w)) (bits (x.win w) 62 1) (.posted w (x.step w)
    (b.zipIdx.map fun (v, j) => (65536 * bits (x.win w) 16 4 + spOff dst + j, v)) 1 (some k)
    (x.bb.map fun o => 65536 * bits (x.win w) 16 4 + o) x.seq)
/-- One more write through a window that is not acknowledged. -/
def windowCounted (s : State) (w : Nat) : State := withCx s (setWinOut s.cx w (winOut s.cx w + 1))

theorem mayDepart_iff {c : Ctx} {seq w n : Nat} :
    mayDepart c seq w n = true ↔ winOut c w = 0 ∨ winOut c w + n ≤ winAllow c seq w := by
  unfold mayDepart
  rw [Bool.or_eq_true, decide_eq_true_iff, decide_eq_true_iff]
/-- A linear copy does not go over the network. -/
theorem not_network (h : x.kind = 1) : ¬x.kind = 3 := by
  rw [h]
  decide
theorem loosen_of_not_loose (h : x.loose = false) (s : State) (g : Granule) (b : List Byte) : loosen s x g b = (b, s) := by
  unfold loosen
  rw [h]
  rfl

section
variable (hk : x.kind = 1) (hl : x.loose = false)
include hk hl

theorem putGranule_local (hv : x.dstVm = false) (hw : spWin g.dst = 0) : putGranule k x off g b s =
    .next (keepCopy k (noteGranule x off) (withCx s (barrierCount x g.n (spadWrite s.cx (spOff g.dst) b)))) := by
  unfold putGranule
  simp only [loosen_of_not_loose hl, not_network hk, hv, hw, Bool.false_eq_true, if_false, if_true]
  rfl
theorem putGranule_virtual {keys : List (Nat × Nat)} (hv : x.dstVm = true)
    (ht : translateRange s s.cur .x true (pieces g.dst.toNat g.n) = .ok (keys, s1))
    (hr : ∀ v ∈ keys, windowReady s1 v.1 v.2 true = true) : putGranule k x off g b s =
    .next (keepCopy k (noteGranule x off) (pokePieces s1 s.cx.tenant keys b)) := by
  have hn : (keys.any fun v => !windowReady s1 v.1 v.2 true) = false := by
    simpa using hr
  unfold putGranule
  simp only [loosen_of_not_loose hl, not_network hk, hv, ht, hn, Bool.false_eq_true, if_false, if_true]
theorem putGranule_window (hs : x.store = false) (hv : x.dstVm = false) (hw : spWin g.dst ≠ 0) (ha : winAllow s.cx x.seq (spWin g.dst) ≠ 0)
    (hd : mayDepart s.cx x.seq (spWin g.dst) 1 = true) : putGranule k x off g b s =
    .next (keepCopy k { noteGranule x off with unacked := (noteGranule x off).unacked + 1 }
      (sendPacket (windowCounted s (spWin g.dst)) (granulePacket (windowCounted s (spWin g.dst)) k x (spWin g.dst) g.dst b))) := by
  have ho : rowsOverlap x = false := by simp [rowsOverlap, hs]
  unfold putGranule
  simp only [loosen_of_not_loose hl, not_network hk, hv, hw, ha, hd, ho, Bool.false_eq_true, if_false, decide_false, Bool.not_true,
    Bool.or_self, Bool.and_false]
  rfl

end

/-! ### The events -/

/-- The granule of a linear copy that the event names may move, and nothing of its source overlaps its destination. -/
def GranuleMoves (s : State) (x : Copy) : Prop :=
  (copyAt x s.inp.unit).rest ≠ 0 ∧ copiesRun s x = true ∧ (copyAt x s.inp.unit).moved ∉ x.done
    ∧ (s.cx.due = none ∨ ∃ d, s.cx.due = some (.debug d)) ∧ x.ahead = false ∧ x.loose = false ∧ x.store = false ∧ x.kind = 1

theorem mayMove_of_due (hn : off ∉ x.done) (hd : s.cx.due = none ∨ ∃ d, s.cx.due = some (.debug d)) : mayMove s.cx x off = true := by
  unfold mayMove
  rcases hd with hd | ⟨d, hd⟩ <;> simp [hd, hn]

theorem granuleWrite_of_none (h : alook s.cx.copies s.inp.sel = none) : execCopyGranuleWrite s = .next s := by
  unfold execCopyGranuleWrite
  rw [h]
  rfl
theorem granuleWrite_waits (h : alook s.cx.copies s.inp.sel = some x) (hw : x.rest = 0 ∨ copiesRun s x = false) :
    execCopyGranuleWrite s = .next s := by
  unfold execCopyGranuleWrite
  rw [h]
  exact if_pos (by simpa using hw)
/-- A granule that may move takes its bytes from its source to its destination. -/
theorem granuleWrite_moves (h : alook s.cx.copies s.inp.sel = some x) (hm : GranuleMoves s x) :
    let y := copyAt x s.inp.unit
    execCopyGranuleWrite s = withSource s.inp.sel x y.moved (linearGranule y) (putGranule s.inp.sel x y.moved (linearGranule y))
      { s with iss := { seq := x.seq } } := by
  obtain ⟨hr, hrun, hn, hd, -, -, hs, hk⟩ := hm
  have ho : rowsOverlap x = false := by simp [rowsOverlap, hs]
  unfold execCopyGranuleWrite
  rw [h]
  dsimp only
  rw [if_neg (by simp [copyAt_rest_ne_zero hk hr, hrun]), if_neg (by rw [hk]; decide),
    if_neg (by simp [hr, mayMove_of_due hn hd, ho]), nextGranule_linear (copyAt_kind hk _)]

theorem signal_of_none (h : x.ring = none) (c : Ctx) : signal x c = c.ccComplete x.cc .x x.seq := by
  unfold signal
  rw [h]
/-- The ring slot of a copy takes its claim, the bytes moved less those refused, and status 1. -/
theorem signal_of_ring {o : Nat} (h : x.ring = some o) (c : Ctx) :
    signal x c = (writeSlot c o x.claim (x.moved - x.refused) 1).ccComplete x.cc .x x.seq := by
  unfold signal
  rw [h]

theorem copyPerform_of_none (h : alook s.cx.copies s.inp.sel = none) : execCopyPerform s = .next s := by
  unfold execCopyPerform
  rw [h]
  rfl
/-- A copy with nothing left to move, read, acknowledge or add signals and frees its slot. -/
theorem copyPerform_ended (h : alook s.cx.copies s.inp.sel = some x) (ht : tileRuns s = true) (hr : x.rest = 0) (hu : x.unacked = 0)
    (hd : x.reading = []) (hs : ∀ z ∈ s.cx.statq, z.eng = .x → z.seq ≠ x.seq) :
    execCopyPerform s = .next (withCx s (signal x { s.cx with copies := adel s.cx.copies s.inp.sel })) := by
  unfold execCopyPerform
  rw [h]
  refine if_pos ?_
  simp only [ht, hr, hu, hd, decide_true, Bool.and_self, Bool.true_and, List.all_eq_true, Bool.or_eq_true, decide_eq_true_eq]
  exact fun z hz => Decidable.imp_iff_not_or.mp (hs z hz)
theorem copyPerform_waits {j : Nat} (h : alook s.cx.copies s.inp.sel = some x)
    (hw : x.rest ≠ 0 ∨ x.unacked ≠ 0 ∨ j ∈ x.reading ∨ tileRuns s = false) : execCopyPerform s = .next s := by
  unfold execCopyPerform
  rw [h]
  refine if_neg ?_
  rcases hw with hw | hw | hw | hw
  · simp [hw]
  · simp [hw]
  · simp [List.ne_nil_of_mem hw]
  · simp [hw]

/-- Settles O38: a granule that may move goes from its source, by the rule for where that is, to its destination, by the rule for
where that is. -/
theorem copiesMove : Obligations.CopiesMove := by
  intro s s1 s2 x bytes keys j y n u kept noted next local' counted w wb out counts posted sent gone moves
  have counted_eq : counted = barrierCount x n := by
    funext c
    unfold barrierCount
    simp only [counted]
    cases x.bb <;> rfl
  have goes : ∀ {r}, alook s.cx.copies s.inp.sel = some x → moves → (x.kind = 1 → x.loose = false → x.ahead = false → x.store = false →
      withSource s.inp.sel x y.moved (linearGranule y) (putGranule s.inp.sel x y.moved (linearGranule y)) u = r) →
      exec .copyGranuleWrite s = r := fun hx hm h => by
    have hg := granuleWrite_moves hx hm
    obtain ⟨-, -, -, -, ha, hl, hs, hk⟩ := hm
    exact hg.trans (h hk hl ha hs)
  have lands : ∀ {t b}, x.kind = 1 → x.loose = false → x.dstVm = false → spWin y.dst = 0 →
      putGranule s.inp.sel x y.moved (linearGranule y) b t =
        .next (keepCopy s.inp.sel noted (withCx t (counted (spadWrite t.cx (spOff y.dst) b)))) := fun hk hl hdv hdw => by
    rw [counted_eq]
    exact putGranule_local hk hl hdv hdw
  refine ⟨fun hx => ⟨granuleWrite_of_none hx, copyPerform_of_none hx⟩, fun hk => copyAt_fields hk _, fun hk hd hr hu => ?first,
    fun hx => ⟨granuleWrite_waits hx, fun hm hv hw hs => ⟨fun hdv hdw => ?localLocal, fun hdv hdw ha ho => ?localWindow,
      fun hdv ht hr => ?localVirtual⟩, fun hm hv hr hdv hdw => ?virtualLocal, fun hm hv hw hd hr => ?asked,
      fun hm hv hw hd hdv hdw => ?windowLocal, fun ht hr hu hd hs => ?ended, copyPerform_waits hx⟩⟩
  case first =>
    have hy : y = x := by simp only [y, hu, copyAt]
    simp only [noted, next, n, hy]
    exact noteGranule_first hk hd hr
  case localLocal => exact goes hx hm fun hk hl ha _ => (withSource_local hv ha hw hs).trans (lands hk hl hdv hdw)
  case localWindow =>
    have hd : mayDepart s1.cx x.seq w 1 = true := mayDepart_iff.mpr ho
    exact goes hx hm fun hk hl hA hs' => (withSource_local hv hA hw hs).trans (putGranule_window hk hl hs' hdv hdw ha hd)
  case localVirtual =>
    exact goes hx hm fun hk hl ha _ => (withSource_local hv ha hw hs).trans (putGranule_virtual hk hl hdv ht hr)
  case virtualLocal => exact goes hx hm fun hk hl _ _ => (withSource_virtual hv hr).trans (lands hk hl hdv hdw)
  case asked => exact goes hx hm fun _ _ _ _ => withSource_asked hv hw hd hr
  case windowLocal => exact goes hx hm fun hk hl ha _ => (withSource_come hv ha hw hd).trans (lands hk hl hdv hdw)
  case ended =>
    have he := copyPerform_ended hx ht hr hu hd hs
    exact ⟨fun ho => by rw [signal_of_none ho] at he; exact he, fun o ho => by rw [signal_of_ring ho] at he; exact he⟩

end
end Sys2Proof.Machine

/-! ## The host's line messages and commands on memory (R145, R335 to R338, R416, R418) -/
namespace Sys2Proof.Machine
section
variable {s u : State} {h : HostLine} {l j st t0 : Nat}

/-! ### The host's state of a line -/

theorem recordsOnly_cur {t : State} (h : recordsOnly s t) : t.cur = s.cur := by
  obtain ⟨h, -⟩ := h
  rw [h]
@[simp] theorem sendPacket_hostLines (s : State) (p : Packet) : (sendPacket s p).hostLines = s.hostLines := by
  unfold sendPacket
  extract_lets p
  split <;> rfl
@[simp] theorem tellHost_hostLines (s : State) (d : Nat) (b : List Byte) : (tellHost s d b).hostLines = s.hostLines := by
  unfold tellHost
  split
  · rfl
  · split
    · rfl
    · exact sendPacket_hostLines ..
/-- The state of a line is that of the map of the host's lines. -/
theorem lineState_congr (h : u.hostLines = s.hostLines) (l : Nat) : lineState u l = lineState s l := by
  unfold lineState
  rw [h]
theorem lineState_aset (s : State) (l : Nat) (h : HostLine) : lineState { s with hostLines := aset s.hostLines l h } l = h.state := by
  unfold lineState
  rw [alook_aset_self]
theorem lineState_setLine (s : State) (l st : Nat) : lineState (setLine s l st) l = st := by
  unfold setLine
  split
  · next h =>
    unfold lineState
    rw [alook_adel_self]
    exact h.symm
  · exact lineState_aset ..
theorem lineState_lineAnswer (s : State) (l k status : Nat) (b : List Byte) : lineState (lineAnswer s k status b) l = lineState s l :=
  lineState_congr (tellHost_hostLines ..) l

/-- Memory of `u` holds the bytes of line `l` that a message brought, and elsewhere what it held in `s`. -/
def LineWritten (s : State) (l : Nat) (b : List Byte) (u : State) : Prop :=
  ∀ k, dramByte u k = if 64 * l ≤ k ∧ k < 64 * l + 64 then (padTo 64 (b.take 64)).getD (k - 64 * l) 0 else dramByte s k
theorem putLine_written (s : State) (l : Nat) (b : List Byte) : LineWritten s l b (putLine s l b) := by
  intro k
  have hlen : (padTo 64 (b.take 64)).length = 64 := by
    simp only [padTo, List.length_append, List.length_replicate, List.length_take]
    omega
  unfold putLine
  rw [dramByte_setEcc, dramByte_dramWrite, hlen]
theorem putLine_cur (s : State) (l : Nat) (b : List Byte) : (putLine s l b).cur = s.cur :=
  (recordsOnly_cur (recordsOnly_dramWrite (padTo 64 (b.take 64)) s (64 * l)) :)
theorem protocolRecord_cur (s : State) (l type : Nat) : (protocolRecord s l type).cur = s.cur := recordsOnly_cur (recordsOnly_writeRecord ..)

/-! ### Line messages -/

section
variable {k : State → Res}
theorem lineGuard_closed (ho : lineOpen s = false) : lineGuard s k = .next s := if_pos (by simp [ho])
theorem lineGuard_halted (ho : lineOpen s = true) (hh : dieHalted s = true) : lineGuard s k = .next (lineAnswer s (hostLine s) 1 []) :=
  (if_neg (by simp [ho])).trans (if_pos hh)
theorem lineGuard_open (ho : lineOpen s = true ∧ dieHalted s = false) : lineGuard s k = k s := by
  obtain ⟨ho, hh⟩ := ho
  exact (if_neg (by simp [ho])).trans (if_neg (by simp [hh]))
end

/-- While its window is closed, a line's messages wait. -/
theorem lineMessages_closed (ho : lineOpen s = false) : execHostReadShared s = .next s ∧ execHostReadOwn s = .next s
    ∧ execHostWriteBack s = .next s ∧ execHostDrop s = .next s :=
  ⟨lineGuard_closed ho, lineGuard_closed ho, lineGuard_closed ho, lineGuard_closed ho⟩
theorem lineReads_halted (ho : lineOpen s = true) (hh : dieHalted s = true) :
    execHostReadShared s = .next (lineAnswer s (hostLine s) 1 []) ∧ execHostReadOwn s = .next (lineAnswer s (hostLine s) 1 []) :=
  ⟨lineGuard_halted ho hh, lineGuard_halted ho hh⟩

/-- A line that the host does not hold for writing is sent to it, errors of its granule corrected, and is then the host's. -/
theorem sendLine_sent (he : eccMem s (hostLine s) ≠ 2) (st : Nat) : ∃ u, sendLine s st = .next u ∧ lineState u (hostLine s) = st
    ∧ u = lineAnswer (setLine (eccCorrect s (64 * hostLine s) 64) (hostLine s) st) (hostLine s) 0
      (dramRead (eccCorrect s (64 * hostLine s) 64) (64 * hostLine s) 64) :=
  ⟨_, if_neg he, (lineState_lineAnswer ..).trans (lineState_setLine ..), rfl⟩

section
variable (ho : lineOpen s = true ∧ dieHalted s = false)
include ho

theorem lineReads_free (hl : lineState s (hostLine s) ≠ 2) :
    execHostReadShared s = sendLine s 1 ∧ execHostReadOwn s = sendLine s 2 :=
  ⟨(lineGuard_open ho).trans (if_neg hl), (lineGuard_open ho).trans (if_neg hl)⟩
theorem lineReads_held (hl : lineState s (hostLine s) = 2) : execHostReadShared s = .next s ∧ execHostReadOwn s = .next s :=
  ⟨(lineGuard_open ho).trans (if_pos hl), (lineGuard_open ho).trans (if_pos hl)⟩
theorem hostDrop_held (hl : lineState s (hostLine s) = 2) : execHostDrop s = .next (protocolRecord s (hostLine s) 0x0C) :=
  (lineGuard_open ho).trans (if_pos hl)
theorem hostDrop_free (hl : lineState s (hostLine s) ≠ 2) : ∃ u, execHostDrop s = .next u ∧ lineState u (hostLine s) = 0
    ∧ u = { s with hostLines := u.hostLines } :=
  ⟨setLine s (hostLine s) 0, (lineGuard_open ho).trans (if_neg hl), lineState_setLine .., rfl⟩
theorem hostWriteBack_free (hl : lineState s (hostLine s) ≠ 2) : execHostWriteBack s = .next (protocolRecord s (hostLine s) 0x0C) :=
  (lineGuard_open ho).trans (if_pos hl)
theorem hostWriteBack_held (hl : lineState s (hostLine s) = 2) : ∃ v, execHostWriteBack s = .next (finishWaiting v (moduleOf s.cur))
    ∧ (lineState v (hostLine s) = if s.inp.flag then 1 else 0) ∧ LineWritten s (hostLine s) s.inp.bytes v :=
  ⟨setLine (putLine s (hostLine s) s.inp.bytes) (hostLine s) (if s.inp.flag then 1 else 0),
    (lineGuard_open ho).trans (if_neg (not_not_intro hl)), lineState_setLine ..,
    putLine_written s (hostLine s) s.inp.bytes⟩

end

/-! ### Recalls -/

/-- The end of a recall: the host's state is set, and the access it was recalled for is next. -/
def recallEnded (s : State) (l st : Nat) : State := { s with hostLines := aset s.hostLines l { state := st, claim := some s.now } }

theorem recallDone_eq (s : State) (l st : Nat) : recallDone s l st = finishWaiting (recallEnded s l st) (moduleOf s.cur) := rfl
theorem lineState_recallEnded (s : State) (l st : Nat) : lineState (recallEnded s l st) l = st := lineState_aset ..

section
variable (hl : alook s.hostLines (hostLine s) = some h)
include hl

theorem recall_none (hr : h.recalled = none) : execHostRecallAck s = .next s ∧ execHostRecallTimeout s = .next s := by
  constructor
  · unfold execHostRecallAck
    simp only [hl]
    exact if_pos (by simp [hr])
  · unfold execHostRecallTimeout
    simp only [hl, hr, wait]
theorem hostRecallAck_recalled (hr : h.recalled = some t0) (hu : hostUp s (moduleOf s.cur) = true) :
    ∃ v, execHostRecallAck s = .next (finishWaiting v (moduleOf s.cur)) ∧ lineState v (hostLine s) = h.wanted
      ∧ (h.state = 2 → LineWritten s (hostLine s) s.inp.bytes v) ∧ (h.state ≠ 2 → v = { s with hostLines := v.hostLines }) := by
  have ack : execHostRecallAck s =
      .next (recallDone (if h.state = 2 then putLine s (hostLine s) s.inp.bytes else s) (hostLine s) h.wanted) := by
    unfold execHostRecallAck
    simp only [hl]
    exact if_neg (by simp [hr, hu])
  by_cases h2 : h.state = 2
  · rw [if_pos h2, recallDone_eq, putLine_cur] at ack
    exact ⟨_, ack, lineState_recallEnded .., fun _ => putLine_written s (hostLine s) s.inp.bytes, fun hn => absurd h2 hn⟩
  · rw [if_neg h2, recallDone_eq] at ack
    exact ⟨_, ack, lineState_recallEnded .., fun hn => absurd hn h2, fun _ => rfl⟩
theorem hostRecallTimeout_due (hr : h.recalled = some t0) (hd : t0 + 100000 ≤ s.now ∨ hostUp s (moduleOf s.cur) = false) :
    ∃ v, execHostRecallTimeout s = .next (finishWaiting v (moduleOf s.cur)) ∧ lineState v (hostLine s) = 0
      ∧ v = { protocolRecord s (hostLine s) 0x0C with hostLines := v.hostLines } := by
  refine ⟨recallEnded (protocolRecord s (hostLine s) 0x0C) (hostLine s) 0, ?_, lineState_recallEnded .., rfl⟩
  rw [← protocolRecord_cur s (hostLine s) 0x0C, ← recallDone_eq]
  unfold execHostRecallTimeout
  simp only [hl, hr]
  refine if_neg ?_
  rcases hd with hd | hd
  · simp [Nat.not_lt_of_le hd]
  · simp [hd]
theorem hostRecallTimeout_early (hr : h.recalled = some t0) (hd : s.now < t0 + 100000) (hu : hostUp s (moduleOf s.cur) = true) :
    execHostRecallTimeout s = .next s := by
  unfold execHostRecallTimeout
  simp only [hl, hr]
  exact if_pos (by simp [hd, hu])

end

/-! ### Lines flushed and dropped -/

theorem writeBack_drop_of_none (h : alook s.l2 l = none) : writeBack s l false = s := by
  unfold writeBack; rw [h]
/-- A line written back and dropped is gone, and the others stay. -/
theorem alook_writeBack_drop (s : State) (l j : Nat) : alook (writeBack s l false).l2 j = if j = l then none else alook s.l2 j := by
  cases h : alook s.l2 l with
  | none =>
    rw [writeBack_drop_of_none h]
    split
    · next hj => rw [hj, h]
    · rfl
  | some x =>
    have hl2 : (writeBack s l false).l2 = adel s.l2 l := by
      unfold writeBack
      simp only [h, Bool.false_eq_true, if_false, setEcc_l2]
      split
      · simp [countWrite, countSlice, dramWrite_l2]
      · rfl
    rw [hl2]
    split
    · next hj => rw [hj, alook_adel_self]
    · next hj => exact alook_adel_ne _ hj
/-- Whether the line is kept or not, memory holds the same bytes. -/
theorem dramByte_writeBack_drop (s : State) (l k : Nat) : dramByte (writeBack s l false) k = dramByte (writeBack s l true) k := by
  unfold writeBack
  split <;> rfl

/-- A line flushed: its slice holds it no more, and where it was dirty memory holds its bytes. -/
def DroppedFlushed (s : State) (l : Nat) (u : State) : Prop :=
  alook u.l2 l = none ∧ ∀ x, alook s.l2 l = some x → x.dirty = true → ∀ k, k / 64 = l → dramByte u k = x.data.getD (k % 64) 0

theorem DroppedFlushed.writeBack (h : DroppedFlushed s l u) (j : Nat) : DroppedFlushed s l (writeBack u j false) := by
  obtain ⟨hn, hb⟩ := h
  by_cases hj : j = l
  · rw [hj, writeBack_drop_of_none hn]
    exact ⟨hn, hb⟩
  · obtain ⟨-, ho⟩ := writeBack_other u hj
    refine ⟨by rw [alook_writeBack_drop, if_neg (Ne.symm hj), hn], fun x hx hd k hk => ?_⟩
    rw [dramByte_writeBack_drop, ho k hk, hb x hx hd k hk]
theorem droppedFlushed_writeBack (h : alook u.l2 l = alook s.l2 l) : DroppedFlushed s l (writeBack u l false) := by
  refine ⟨by rw [alook_writeBack_drop, if_pos rfl], fun x hx hd k hk => ?_⟩
  rw [dramByte_writeBack_drop, dramByte_writeBack (h.trans hx), if_pos ⟨hd, hk⟩]
/-- Every line of a list is flushed, whichever come before and after it. -/
theorem droppedFlushed_foldl {ls : List Nat} (h : alook u.l2 l = alook s.l2 l) (hm : l ∈ ls) :
    DroppedFlushed s l (ls.foldl (fun s l => writeBack s l false) u) := by
  induction ls generalizing u with
  | nil => simp at hm
  | cons j ls ih =>
    rw [List.foldl_cons]
    by_cases hj : j = l
    · subst hj
      exact foldl_keeps (P := DroppedFlushed s j) (fun _ x hx => hx.writeBack x) ls _ (droppedFlushed_writeBack h)
    · refine ih ?_ ((List.mem_cons.mp hm).resolve_left (Ne.symm hj))
      rw [alook_writeBack_drop, if_neg (Ne.symm hj), h]

/-! ### Commands -/

theorem command_of_halted {cmd : Nat} {k : State → Res} (hu : hostUp s (moduleOf s.cur) = true) (hh : dieHalted s = true) :
    command cmd k s = .next (respond s cmd 1 []) := by
  unfold command
  simp [hu, hh]

/-- The record that an enqueue makes of the bytes read: the named tenant's, at its priority at most. -/
def enqueued (s : State) (b : List Byte) : List Byte :=
  recSet b (min (recPriority b) (tenantAt s (dieOf s.cur) (s.inp.tenant % 16)).priority) (s.inp.tenant % 16)

section
variable {s1 : State} {b : List Byte} {n : Nat} (hs : Serves s) (ha : s.inp.addr % 128 = 0)
  (hb : tenantRead s (dieOf s.cur) (s.inp.tenant % 16) s.inp.addr 128 = some b)
include hs ha hb

theorem hostEnqueue_taken (he : enqueue s (dieOf s.cur) (s.inp.tenant % 16) s.inp.addr (enqueued s b) = .ok (n, s1)) :
    execHostEnqueue s = .next (respond s1 1 0 (leBytes 4 n)) := by
  unfold enqueued at he
  refine (command_of_serves hs).trans ?_
  simp only [ha, if_true, hb, he]
theorem hostEnqueue_refused (he : enqueue s (dieOf s.cur) (s.inp.tenant % 16) s.inp.addr (enqueued s b) = .error n) :
    execHostEnqueue s = .next (respond s 1 n []) := by
  unfold enqueued at he
  refine (command_of_serves hs).trans ?_
  simp only [ha, if_true, hb, he]

end

theorem hostEnqueue_misaligned (hs : Serves s) (ha : s.inp.addr % 128 ≠ 0) : execHostEnqueue s = .next (respond s 1 1 []) := by
  refine (command_of_serves hs).trans ?_
  simp only [ha, if_false]

section
variable {keys : List (Nat × Nat)} (hs : Serves s)
include hs

theorem hostRead_keys (hk : netKeys s (dieOf s.cur) (s.inp.tenant % 16) false (pieces s.inp.addr s.inp.len) = .ok keys) :
    execHostRead s = if bulkBad s keys then .next (respond s 2 1 []) else
      .next (respond (tellData (keys.foldl (fun u x => chargeDram u x.1 x.2 (s.inp.tenant % 16)) s) (bulkRead s keys)) 2 0 []) := by
  refine (command_of_serves hs).trans ?_
  simp only [hk]
theorem hostWrite_keys (hk : netKeys s (dieOf s.cur) (s.inp.tenant % 16) false (pieces s.inp.addr s.inp.bytes.length) = .ok keys) :
    execHostWrite s = .next (respond (bulkWrite (s.inp.tenant % 16) keys s.inp.bytes s) 3 0 []) := by
  refine (command_of_serves hs).trans ?_
  simp only [hk]

end

/-- The lines that the focused die's slices hold of the range a flush names. -/
def flushedLines (s : State) : List Nat :=
  (s.l2.map (·.1)).filter fun l => homeDie (64 * l) = dieOf s.cur && devKey (dieOf s.cur / 16) s.inp.addr ≤ 64 * l + 63
    && 64 * l < devKey (dieOf s.cur / 16) s.inp.addr + s.inp.len
theorem hostFlush_served (hs : Serves s) : execHostFlush s = .next (respond (dropOnDie (dieOf s.cur) (devKey (dieOf s.cur / 16) s.inp.addr)
    s.inp.len ((flushedLines s).foldl (fun s l => writeBack s l false) s)) 4 0 []) :=
  (command_of_serves hs).trans rfl
theorem hostInvalidate_served (hs : Serves s) : execHostInvalidate s = .next (respond (tlbDropOn s (fun t => t / 128 = dieOf s.cur)
    (s.inp.tenant % 16) s.inp.addr s.inp.len) 5 0 []) :=
  (command_of_serves hs).trans rfl

/-- Without a host on the module, the commands on memory wait. -/
theorem memoryCommands_down (hu : hostUp s (moduleOf s.cur) = false) : execHostEnqueue s = .next s ∧ execHostRead s = .next s
    ∧ execHostWrite s = .next s ∧ execHostFlush s = .next s ∧ execHostInvalidate s = .next s := by
  have hn : ¬hostUp s (moduleOf s.cur) = true := by simp [hu]
  exact ⟨command_of_down hn, command_of_down hn, command_of_down hn, command_of_down hn, command_of_down hn⟩
theorem memoryCommands_halted (hu : hostUp s (moduleOf s.cur) = true) (hh : dieHalted s = true) :
    execHostEnqueue s = .next (respond s 1 1 []) ∧ execHostRead s = .next (respond s 2 1 []) ∧ execHostWrite s = .next (respond s 3 1 [])
      ∧ execHostFlush s = .next (respond s 4 1 []) ∧ execHostInvalidate s = .next (respond s 5 1 []) :=
  ⟨command_of_halted hu hh, command_of_halted hu hh, command_of_halted hu hh, command_of_halted hu hh, command_of_halted hu hh⟩

/-- Settles O51: each line message, recall and command by its own rule above. -/
theorem hostAccess : Obligations.HostAccess := by
  intro s s1 h t0 n b keys d l open' ready corrected line written te r
  refine ⟨lineMessages_closed, lineReads_halted, fun ho hl he => ?reads, fun ho hl => ?held,
    fun ho hl => ⟨hostWriteBack_free ho hl, hostDrop_free ho hl⟩, hostRecallAck_recalled, recall_none, hostRecallTimeout_due,
    hostRecallTimeout_early, hostEnqueue_taken, hostEnqueue_refused, hostEnqueue_misaligned,
    fun hs hk hb => (hostRead_keys hs hk).trans (if_neg (by simp [hb])),
    fun hs hk hb => (hostRead_keys hs hk).trans (if_pos hb), hostWrite_keys, fun hs => ?flush, hostInvalidate_served,
    memoryCommands_down, memoryCommands_halted⟩
  case reads =>
    obtain ⟨hr, ho'⟩ := lineReads_free ho hl
    obtain ⟨u, hu, hus⟩ := sendLine_sent he 1
    obtain ⟨v, hv, hvs⟩ := sendLine_sent he 2
    exact ⟨⟨u, hr.trans hu, hus⟩, v, ho'.trans hv, hvs⟩
  case held =>
    obtain ⟨hr, ho'⟩ := lineReads_held ho hl
    exact ⟨hr, ho', hostDrop_held ho hl, hostWriteBack_held ho hl⟩
  case flush =>
    refine ⟨_, hostFlush_served hs, rfl, fun l hl => ?_⟩
    obtain ⟨hn, hb⟩ := droppedFlushed_foldl (s := s) rfl hl
    exact ⟨hn, fun x hx hd _ => hb x hx hd⟩

end
end Sys2Proof.Machine

/-! ## The queue loads of L (R87, R252, R394) -/
namespace Sys2Proof.Machine

/-! ### Registers raised, checks and reads that pass -/

/-- A register raised where `.pi` is written. -/
def raised (pi : Bool) (a : Nat) (v : Word) (c : Ctx) : Ctx := if pi then c.setA a v else c

@[simp] theorem firstFault_nil : firstFault [] = none := rfl
@[simp] theorem firstFault_cons_none (l : List (Option Fail)) : firstFault (none :: l) = firstFault l := rfl

section
variable {s s1 s2 : State} {l : List (Nat × Nat)}

/-- Accesses to window 0 that each lie in it and are aligned pass their checks. -/
theorem firstFault_window0 {α : Type} {seq code : Nat} {l : List α} {v : α → Word} {n al : α → Nat}
    (h : ∀ x ∈ l, spFault0 s seq code (v x) (n x) = none ∧ (v x).toNat % al x = 0) :
    firstFault (l.flatMap fun x => [spFault0 s seq code (v x) (n x), alignFault (v x) (al x)]) = none := by
  refine firstFault_none fun y hy => ?_
  obtain ⟨x, hx, hy⟩ := List.mem_flatMap.mp hy
  obtain ⟨hf, ha⟩ := h x hx
  simp only [List.mem_cons, List.not_mem_nil, or_false] at hy
  rcases hy with rfl | rfl
  · exact hf
  · exact alignFault_none ha
/-- What a read of ranges of the allotment leaves of the registers, the queues and the event. -/
theorem spadMeet_ar (hm : spadMeet s l = .ok s1) (n : Nat) : s1.cx.ar n = s.cx.ar n := by rw [(spadMeet_ok hm).1]; rfl
theorem spadMeet_inp (hm : spadMeet s l = .ok s1) : s1.inp = s.inp := by
  obtain ⟨-, hr, -⟩ := spadMeet_ok hm
  exact (congrArg State.inp hr :)

/-! ### Rows read and pushed -/

section
variable {q n al k : Nat} {pi : Bool} {v : Word} {l : List Word}

/-- The row that `n` bytes at each of a list of addresses make. -/
def loadedRow (c : Ctx) (n : Nat) (l : List Word) : Row := { data := padTo 256 (l.flatMap fun v => memRead c.spad (spOff v) n) }

theorem loadWaits_iff {c : Ctx} : loadWaits c q = true ↔ 32 ≤ (c.lrows q).length ∨ bound c q = true := by
  simp [loadWaits]
theorem loadFaults_none (h : ∀ v ∈ l, spFault0 s s.iss.seq 0x201 v n = none ∧ v.toNat % al = 0) : loadFaults s n al l = none :=
  firstFault_window0 h
/-- Elements whose addresses pass their checks make one row at the tail of their queue. -/
theorem loadElems_ok (h : ∀ v ∈ l, spFault0 s s.iss.seq 0x201 v n = none ∧ v.toNat % al = 0)
    (hm : spadMeet s (l.map fun v => (spOff v, n)) = .ok s1) :
    loadElems q n al l (post pi k v) s
      = done .l (withCx s1 (raised pi k v (s1.cx.setL q (s1.cx.lrows q ++ [loadedRow s1.cx n l])))) := by
  unfold loadElems
  rw [checked_none (loadFaults_none h), consuming_ok hm]
  cases pi <;> rfl

end

section
variable {q a b lg : Nat} {pi : Bool}

theorem loads_wait (h : 32 ≤ (s.cx.lrows q).length ∨ bound s.cx q = true) :
    exec (.ldq q a pi) s = .next s ∧ exec (.ldqs q a b lg pi) s = .next s ∧ exec (.ldqg q a b lg pi) s = .next s :=
  have hw : loadWaits s.cx q = true := loadWaits_iff.mpr h
  ⟨if_pos hw, if_pos hw, if_pos hw⟩

end

/-- Settles O21: each load by the rule for elements read and pushed, an indexed one once its indices are read. -/
theorem queueLoads : Obligations.QueueLoads := by
  intro s s1 s2 q a b lg pi e n x y sound ranges row push lanes places targets
  refine ⟨loads_wait, fun hr hb => ?_⟩
  have hw : ¬loadWaits s.cx q = true := fun h => by
    rcases loadWaits_iff.mp h with h | h
    · omega
    · exact Bool.false_ne_true (hb.symm.trans h)
  refine ⟨fun hs hm => completes_done ((if_neg hw).trans (loadElems_ok hs hm)),
    fun hs hm => completes_done ((if_neg hw).trans (loadElems_ok hs hm)), fun hp hm ht hm2 => completes_done ((if_neg hw).trans ?_)⟩
  rw [checked_none (loadFaults_none hp), consuming_ok hm]
  dsimp only
  rw [spadMeet_ar hm, spadMeet_ar hm]
  exact loadElems_ok ht hm2

end
end Sys2Proof.Machine

/-! ## Stream bindings (R253 to R256, R274) -/
namespace Sys2Proof.Machine
section
variable {s s1 s2 : State}

/-! ### A binding made live -/

section
variable {q a k d : Nat} {contour : Bool} {b leg : List Byte}

/-- A binding of slot `k` goes live. -/
def bindingLive (c : Ctx) (k : Nat) (x : Stream) : Ctx := { c with strm := aset c.strm k x }

theorem stream_refused (h : (alook s.cx.strm k).isSome ∨ bound s.cx q = true) :
    stream q a k contour s = .next (trapAt .l 1 0x202 (BitVec.ofNat 64 k) s) :=
  if_pos (by simpa using h)

/-- A stream whose slot and queue are free and whose descriptor may be read reads it. -/
theorem stream_reads (hk : alook s.cx.strm k = none) (hb : bound s.cx q = false)
    (hf : spFault0 s s.iss.seq 0x201 (s.cx.ar a) 64 = none) (ha : (s.cx.ar a).toNat % 64 = 0)
    (hm : spadMeet s [(spOff (s.cx.ar a), 64)] = .ok s1) :
    let b := memRead s1.cx.spad (spOff (s.cx.ar a)) 64
    stream q a k contour s = if descBad b contour then .next (trapAt .l 1 0x203 (s.cx.ar a) s1) else issueStream q k contour b s1 := by
  unfold stream
  rw [if_neg (by simp [hk, hb]), checked_none (loadFaults_none fun v hv => by cases List.mem_singleton.mp hv; exact ⟨hf, ha⟩),
    consuming_ok hm]
  dsimp only
  rw [spadMeet_ar hm]
  rfl

/-- Elements of the scratchpad, or of device memory without a legend. -/
theorem issueStream_elements (hl : (streamDesc b).legend = 0xFFFF) (hf : streamFault s (streamDesc b) false none = none) :
    issueStream q k false b s = done .l (withCx s (bindingLive s.cx k { desc := b, queue := q, contour := false, seq := s.iss.seq })) := by
  unfold issueStream
  simp only [Bool.false_and, Bool.false_eq_true, if_false, hl, ne_eq, not_true_eq_false, decide_false, Bool.and_false]
  exact checked_none hf
/-- Elements under a legend keep its snapshot. -/
theorem issueStream_legend (hv : (streamDesc b).virt = true) (hl : (streamDesc b).legend ≠ 0xFFFF)
    (hr : readLegend s s.cur .l (streamDesc b).legend = .ok (leg, s1))
    (hf : streamFault s1 (streamDesc b) false (some (legendOf leg)) = none) :
    issueStream q k false b s =
      done .l (withCx s1 (bindingLive s1.cx k { desc := b, queue := q, contour := false, snap := some leg, seq := s.iss.seq })) := by
  unfold issueStream
  simp only [Bool.false_and, Bool.false_eq_true, if_false, hv, hl, ne_eq, not_false_eq_true, decide_true, Bool.and_true, if_true, hr]
  exact checked_none hf
/-- A descriptor of tiles that is sound names the scratchpad. -/
theorem virt_of_contour_sound (hb : descBad b true = false) : (streamDesc b).virt = false := by
  unfold descBad at hb
  simp only [if_true, Bool.or_eq_false_iff] at hb
  obtain ⟨⟨-, hv, -⟩, -⟩ := hb
  exact hv
/-- Tiles of a layout that is not a transposed one of blocks. -/
theorem issueStream_tiles {l : Layout} (hb : descBad b true = false) (hl : layoutOf (streamDesc b).layout = some l)
    (ht : (l.tr && l.blk) = false) (hf : streamFault s (streamDesc b) true none = none) :
    issueStream q k true b s = done .l (withCx s (bindingLive s.cx k { desc := b, queue := q, contour := true, seq := s.iss.seq })) := by
  unfold issueStream
  simp only [hl, ht, Bool.and_false, Bool.false_eq_true, if_false, virt_of_contour_sound hb, Bool.false_and]
  exact checked_none hf

theorem strmx_free (h : alook s.cx.strm k = none) :
    Completes .l (.strmxWait k) s s ∧ Completes .l (.strmxRem d k) s (withCx s (s.cx.setA d 0)) := by
  refine ⟨completes_done (if_neg (by simp [h])), completes_done ?_⟩
  change execStrmxRem d k s = _
  unfold execStrmxRem
  rw [h]
  rfl
theorem strmx_live {y : Stream} (h : alook s.cx.strm k = some y) : exec (.strmxWait k) s = .next s
    ∧ Completes .l (.strmxRem d k) s (withCx s (s.cx.setA d (BitVec.ofNat 64 (y.rows - y.pushed)))) := by
  refine ⟨if_pos (by simp [h]), completes_done ?_⟩
  change execStrmxRem d k s = _
  unfold execStrmxRem
  rw [h]
  rfl

end

/-- Settles O22: a stream that is not refused reads its descriptor, and one whose descriptor is sound goes live by the rule of its
source. -/
theorem streamBindings : Obligations.StreamBindings := by
  intro s s1 s2 q a k d leg x b t live
  refine ⟨fun h => ⟨stream_refused h, stream_refused h⟩, fun hk hb hf ha hm => ?_, strmx_free, fun y => strmx_live,
    completes_done rfl⟩
  have hi : s1.iss = s.iss := spadMeet_iss hm
  have reads : ∀ contour, stream q a k contour s
      = if descBad b contour then .next (trapAt .l 1 0x203 x s1) else issueStream q k contour b s1 := fun _ =>
    stream_reads hk hb hf ha hm
  have issues : ∀ {contour}, descBad b contour = false → stream q a k contour s = issueStream q k contour b s1 := fun {contour} h =>
    (reads contour).trans (if_neg (by simp [h]))
  refine ⟨fun hd => (reads false).trans (if_pos hd), fun hd hl hs => completes_done ((issues hd).trans ?_),
    fun hd hv hl hr hs => completes_done ((issues hd).trans ?_), fun hd ⟨l, hl, ht⟩ hs => completes_done ((issues hd).trans ?_)⟩
  · rw [issueStream_elements hl hs, hi]
    rfl
  · rw [issueStream_legend hv hl hr hs, hi]
    rfl
  · rw [issueStream_tiles hd hl ht hs, hi]
    rfl

/-! ### A row pushed -/

/-- What a binding leaves in its slot with a row pushed. -/
theorem rowRead_strm (s : State) (k : Nat) (x : Stream) (b : List Byte) : ∃ v, rowRead k x b s = .next v
    ∧ v.cx.lrows x.queue = s.cx.lrows x.queue ++ [{ data := padTo 256 b }]
    ∧ (x.rows ≤ x.pushed + 1 → alook v.cx.strm k = none)
    ∧ (x.pushed + 1 < x.rows → alook v.cx.strm k = some { x with pushed := x.pushed + 1 })
    ∧ v = withCx s v.cx ∧ v.cx = { s.cx with lq := v.cx.lq, strm := v.cx.strm } := by
  have rows_eq : ({ x with pushed := x.pushed + 1 } : Stream).rows = x.rows := rfl
  refine ⟨_, rfl, ?_, fun h => ?_, fun h => ?_, rfl, rfl⟩
  · exact (Ctx.lrows_setL s.cx x.queue _ x.queue).trans (if_pos rfl)
  · dsimp only
    rw [rows_eq, if_pos h, alook_adel_self]
  · dsimp only
    rw [rows_eq, if_neg (Nat.not_le_of_lt h), alook_aset_self]

/-- The state in which a binding pushes: no instruction is issued, and what it meets is reported at its stream's position. -/
def pushing (s : State) (x : Stream) : State := { s with iss := { seq := x.seq } }

section
variable {x : Stream} {b : List Byte} (hx : alook s.cx.strm s.inp.sel = some x)
include hx

theorem rowPush_waits (hp : mayPush s x = false) : execStreamRowPush s = .next s := by
  unfold execStreamRowPush
  rw [hx]
  exact if_pos (by simp [hp])

section
variable (hp : mayPush s x = true)
include hp

theorem rowPush_local (hc : x.contour = false) (hv : (streamDesc x.desc).virt = false)
    (hm : spadMeet (pushing s x) ((rowAddrs (streamDesc x.desc) x.pushed).map fun v => (spOff v, (streamDesc x.desc).e)) = .ok s1) :
    execStreamRowPush s = rowRead s.inp.sel x
      ((rowAddrs (streamDesc x.desc) x.pushed).flatMap fun v => memRead s1.cx.spad (spOff v) (streamDesc x.desc).e) s1 := by
  unfold execStreamRowPush
  simp only [hx, hp, hc, hv, Bool.not_true, Bool.false_eq_true, if_false]
  refine (consuming_ok hm).trans ?_
  rw [spadMeet_inp hm]
  rfl
theorem rowPush_virtual (hc : x.contour = false) (hv : (streamDesc x.desc).virt = true) (hs : x.snap = none)
    (hr : virtRead (pushing s x) .l ((rowAddrs (streamDesc x.desc) x.pushed).map fun v => (v.toNat, (streamDesc x.desc).e)) = .ok b s1) :
    execStreamRowPush s = rowRead s.inp.sel x b s1 := by
  unfold pushing at hr
  unfold execStreamRowPush virtRow
  simp only [hx, hp, hc, hv, hs, hr, Bool.not_true, Bool.false_eq_true, if_false, if_true]
theorem rowPush_contour {l : Layout} (hc : x.contour = true) (hl : layoutOf (streamDesc x.desc).layout = some l)
    (hm : spadMeet (pushing s x) (contourRanges (streamDesc x.desc) l x.pushed) = .ok s1) :
    execStreamRowPush s = rowRead s.inp.sel x (contourRow s1.cx (streamDesc x.desc) l x.pushed) s1 := by
  unfold execStreamRowPush
  simp only [hx, hp, hc, hl, Bool.not_true, Bool.false_eq_true, if_false, if_true]
  refine (consuming_ok hm).trans ?_
  rw [spadMeet_inp hm]
  rfl

end
end

/-- Settles O23: a binding that may push reads its row by the rule of its source, and any row read is pushed alike. -/
theorem streamRowsPushed : Obligations.StreamRowsPushed := by
  intro s s1 x b t u addrs pushes hx
  refine ⟨rowPush_waits hx, fun hp => ⟨fun hc hv hm => ?_, fun hc hv hs hr => ?_, fun l hc hl hm => ?_⟩⟩
  · obtain ⟨v, hv', h⟩ := rowRead_strm s1 s.inp.sel x (addrs.flatMap fun v => memRead s1.cx.spad (spOff v) t.e)
    exact ⟨v, (rowPush_local hx hp hc hv hm).trans hv', h⟩
  · obtain ⟨v, hv', h⟩ := rowRead_strm s1 s.inp.sel x b
    exact ⟨v, (rowPush_virtual hx hp hc hv hs hr).trans hv', h⟩
  · obtain ⟨v, hv', h⟩ := rowRead_strm s1 s.inp.sel x (contourRow s1.cx t l x.pushed)
    exact ⟨v, (rowPush_contour hx hp hc hl hm).trans hv', h⟩

end
end Sys2Proof.Machine

/-! ## Rings and byte barriers (R269, R270, R394) -/
namespace Sys2Proof.Machine
section
variable {s s1 : State} {a b count : Nat}

/-! ### Rings -/

theorem execRingi_refused (hn : isPow2To4096 (operand s 1 b).toNat = false) :
    execRingi a b s = .next (trapAt .x 1 0x604 (operand s 1 b) s) := by
  unfold execRingi
  refine checked_some (f := (0x604, operand s 1 b)) ?_
  rw [if_neg (by simp [hn])]
  rfl
theorem execRingi_ok (hn : isPow2To4096 (operand s 1 b).toNat = true)
    (hf : spFault0 s s.iss.seq 0x701 (operand s 0 a) (64 + 16 * (operand s 1 b).toNat) = none) (ha : (operand s 0 a).toNat % 64 = 0) :
    execRingi a b s = done .x (withCx s (spadWrite s.cx (spOff (operand s 0 a))
      (leBytes 4 (operand s 1 b).toNat ++ List.replicate (60 + 16 * (operand s 1 b).toNat) 0))) := by
  unfold execRingi
  refine checked_none ?_
  rw [if_pos hn, hf, alignFault_none ha]
  rfl

/-- The claims of a ring from its release on are complete when each of their slots holds status 1. -/
theorem ringComplete_iff {c : Ctx} {h m : Nat} :
    ringComplete c h m = true ↔ ∀ k, k < m → spad4 c (slotAt h (spad4 c h) (spad4 c (h + 8) + k) + 8) = 1 := by
  simp [ringComplete]

section
variable (hr : ringFault s (operand s 0 a) = none)
include hr

theorem execRingw_refused (hc : ringClaims s.cx (spOff (operand s 0 a)) < count) :
    execRingw a count s = .next (trapAt .x 1 0x605 (BitVec.ofNat 64 count) s) := by
  unfold execRingw
  refine checked_some (f := (0x605, BitVec.ofNat 64 count)) ?_
  rw [hr, if_pos hc]
  rfl
/-- A RINGW of claims that exist reads their slots, and then waits or is performed. -/
theorem execRingw_reads (hc : count ≤ ringClaims s.cx (spOff (operand s 0 a)))
    (hm : spadMeet s (ringRanges s.cx (spOff (operand s 0 a)) count) = .ok s1) :
    execRingw a count s = if ringComplete s1.cx (spOff (operand s 0 a)) count then done .x s1 else .next s1 := by
  unfold execRingw
  refine (checked_none ?_).trans (consuming_ok hm)
  rw [hr, if_neg (Nat.not_lt_of_le hc)]
  rfl
theorem execRingr_refused (hc : ringClaims s.cx (spOff (operand s 0 a)) < (operand s 1 b).toNat
      ∨ ¬ringComplete s.cx (spOff (operand s 0 a)) (operand s 1 b).toNat = true) :
    execRingr a b s = .next (trapAt .x 1 0x605 (operand s 1 b) s) := by
  unfold execRingr
  refine checked_some (f := (0x605, operand s 1 b)) ?_
  rw [hr, firstFault_cons_none]
  split
  · rfl
  · next hn =>
    rw [if_neg (hc.resolve_left hn)]
    rfl
theorem execRingr_ok (hc : (operand s 1 b).toNat ≤ ringClaims s.cx (spOff (operand s 0 a)))
    (hw : ringComplete s.cx (spOff (operand s 0 a)) (operand s 1 b).toNat = true)
    (hm : spadMeet s (ringRanges s.cx (spOff (operand s 0 a)) (operand s 1 b).toNat) = .ok s1) :
    execRingr a b s = done .x (withCx s1 (spadWrite s1.cx (spOff (operand s 0 a) + 8)
      (leBytes 4 (spad4 s1.cx (spOff (operand s 0 a) + 8) + (operand s 1 b).toNat)))) := by
  unfold execRingr
  refine (checked_none ?_).trans (consuming_ok hm)
  rw [hr, if_neg (Nat.not_lt_of_le hc), if_pos hw]
  rfl

end

/-! ### Byte barriers -/

section
variable (hf : spFault0 s s.iss.seq 0x701 (operand s 0 a) 16 = none)
include hf

theorem barrierFault_misaligned (ha : (operand s 0 a).toNat % 16 ≠ 0) :
    barrierFault s (operand s 0 a) = some (0x702, operand s 0 a) := by
  unfold barrierFault alignFault
  rw [hf, if_neg ha]
  rfl
theorem execBbset_misaligned (ha : (operand s 0 a).toNat % 16 ≠ 0) :
    execBbset a b s = .next (trapAt .x 1 0x702 (operand s 0 a) s) := by
  unfold execBbset
  exact checked_some (f := (0x702, operand s 0 a)) (barrierFault_misaligned hf ha)
theorem execBbwait_misaligned (ha : (operand s 0 a).toNat % 16 ≠ 0) :
    execBbwait a s = .next (trapAt .x 1 0x702 (operand s 0 a) s) := by
  unfold execBbwait
  exact checked_some (f := (0x702, operand s 0 a)) (barrierFault_misaligned hf ha)

section
variable (ha : (operand s 0 a).toNat % 16 = 0)
include ha

theorem barrierFault_none : barrierFault s (operand s 0 a) = none := by
  unfold barrierFault
  rw [hf, alignFault_none ha]
  rfl
theorem execBbset_ok : execBbset a b s =
    done .x (withCx s (spadWrite s.cx (spOff (operand s 0 a)) (leBytes 8 (operand s 1 b).toNat ++ leBytes 8 0))) := by
  unfold execBbset
  exact checked_none (barrierFault_none hf ha)
/-- A BBWAIT reads its barrier, and then waits or is performed. -/
theorem execBbwait_reads (hm : spadMeet s [(spOff (operand s 0 a), 16)] = .ok s1) :
    execBbwait a s = if spad8 s1.cx (spOff (operand s 0 a)) ≤ spad8 s1.cx (spOff (operand s 0 a) + 8) then done .x s1 else .next s1 := by
  unfold execBbwait
  exact (checked_none (barrierFault_none hf ha)).trans (consuming_ok hm)

end
end

/-- Settles O39: each instruction by its own rule above. -/
theorem ringsAndBarriers : Obligations.RingsAndBarriers := by
  intro s s1 a b count h n o at4 claims whole ranges
  have whole_iff : ∀ {c m}, whole c m ↔ ringComplete c o m = true := fun {c m} => ringComplete_iff.symm
  refine ⟨execRingi_refused, fun hn hf ha => completes_done (execRingi_ok hn hf ha), execRingw_refused,
    fun hr hc hm => ⟨fun hw => completes_done ?_, fun hw => ?_⟩,
    fun hr hc => execRingr_refused hr (hc.imp_right (mt whole_iff.mpr)),
    fun hr hc hw hm => completes_done (execRingr_ok hr hc (whole_iff.mp hw) hm),
    fun hf ha => ⟨completes_done (execBbset_ok hf ha), fun hm => ⟨fun he => completes_done ?_, fun he => ?_⟩⟩,
    fun hf ha => ⟨execBbset_misaligned hf ha, execBbwait_misaligned hf ha⟩⟩
  · exact (execRingw_reads hr hc hm).trans (if_pos (whole_iff.mp hw))
  · exact (execRingw_reads hr hc hm).trans (if_neg (mt whole_iff.mpr hw))
  · exact (execBbwait_reads hf ha hm).trans (if_pos he)
  · exact (execBbwait_reads hf ha hm).trans (if_neg (Nat.not_le_of_lt he))

end
end Sys2Proof.Machine

/-! ## The queue stores of S (R90, R168, R257 to R260) -/
namespace Sys2Proof.Machine
section
variable {s : State} {l : List Elt} {r : Row} {rest : List Row} {a b q g lg layer e n : Nat} {pi first : Bool} {cc : Option Nat}
  {stat : StqStat} {row : Option (Word × Nat)} {k : State → Res}

/-! ### What the writing of elements leaves -/

theorem depart_iss (s : State) (w : Nat) (l : List Host.Cell) : (depart s w l).iss = s.iss := by
  unfold depart
  dsimp only
  split
  · rfl
  · obtain ⟨h, -⟩ := recordsOnly_sendPacket _ _
    exact (congrArg State.iss h :)
theorem depart_cr (s : State) {w n : Nat} (l : List Host.Cell) (hn : n ≠ 0x020 + w) : (depart s w l).cx.cr n = s.cx.cr n := by
  unfold depart
  dsimp only
  split
  · rfl
  · rw [recordsOnly_cx (recordsOnly_sendPacket ..)]
    exact (Ctx.cr_setCr ..).trans (if_neg hn)
/-- The writing of elements keeps the issued instruction and every control register but the windows' counts. -/
theorem storeElems_keeps (s : State) (l : List Elt) :
    (storeElems s l).iss = s.iss ∧ ∀ n, (∀ w, n ≠ 0x020 + w) → (storeElems s l).cx.cr n = s.cx.cr n :=
  foldl_keeps (P := fun t : State => t.iss = s.iss ∧ ∀ n, (∀ w, n ≠ 0x020 + w) → t.cx.cr n = s.cx.cr n)
    (fun t w ⟨hi, hc⟩ => ⟨(depart_iss t w _).trans hi, fun n hn => (depart_cr t _ (hn w)).trans (hc n hn)⟩) _ _ ⟨rfl, fun _ _ => rfl⟩
theorem governed_storeElems (s : State) (l : List Elt) : governed (storeElems s l).cx = governed s.cx := by
  obtain ⟨-, hc⟩ := storeElems_keeps s l
  unfold governed
  rw [hc 0x010 fun w => by omega]

/-! ### A store's checks, and its wait for allowance -/

section
variable (hf : storeFault s e l row = none) (ha : allowFault s.cx s.iss.seq l = none)
include hf ha

theorem storeRow_ok (hd : allDepart s.cx s.iss.seq l = true) : storeRow e l row none k s = k (storeElems s l) := by
  unfold storeRow
  rw [hf, ha]
  exact if_pos hd
theorem storeRow_waits (hd : allDepart s.cx s.iss.seq l = false) : storeRow e l row none k s = .next s := by
  unfold storeRow
  rw [hf, ha]
  exact if_neg (by simp [hd])

end

theorem storeRow_refused {f : Fail} (hf : storeFault s e l row = none) :
    storeRow e l row (some f) k s = .next (trapAt .s 1 f.1 f.2 s) := by
  unfold storeRow
  rw [hf]
  rfl

/-! ### Rows of 32-bit elements -/

/-- The address of 32-bit element `k` of a row that goes to the address in a register. -/
def wordAddr (s : State) (a k : Nat) : Word := s.cx.ar a + BitVec.ofNat 64 (4 * k)
/-- The enabled 32-bit elements of a row. -/
def wordElts (s : State) (a g : Nat) (r : Row) : List Elt := (enabledOf s.cx g r.tag 4).map fun k => (wordAddr s a k, rowElem r 4 k)
/-- A store's row is gone from its queue, and its register is raised. -/
def rowTaken (c : Ctx) (q : Nat) (pi : Bool) (a : Nat) (v : Word) : Ctx := raised pi a v (c.setS q ((c.srows q).drop 1))
/-- Elements are written, their row is gone, and a register is raised. -/
def storedRow (s : State) (l : List Elt) (q : Nat) (pi : Bool) (a : Nat) (v : Word) : State :=
  withCx (storeElems s l) (rowTaken (storeElems s l).cx q pi a v)
/-- The sum of the squares of a row's enabled elements. -/
def squareSum (s : State) (g : Nat) (r : Row) : Nat := ((enabledOf s.cx g r.tag 4).map fun k => squareTerm (rowWord r k)).sum
/-- The end of a store: its counter falls, or an addition of statistics is on its way. -/
def storeEnd (stat : StqStat) (cc : Option Nat) (first : Bool) (layer sum : Nat) (u : State) : Res :=
  match stat with
  | .none => doneCC .s cc u
  | .part => doneStat .s cc { tenant := 0, layer := layer, role := 3, eng := .s, part := sum, first := if first then 1 else 0 } u
  | .whole => doneStat .s cc { tenant := 0, layer := layer, role := 3, eng := .s, whole := sum } u

/-- An addition of statistics leaves the issued instruction performed. -/
theorem doneStat_eq (e : Engine) (k : Option Nat) (x : StatAdd) (s : State) : doneStat e k x s =
    done e (withCx s { s.cx with statq := s.cx.statq ++
      [{ x with tenant := s.cx.tenant, eng := e, seq := s.iss.seq, cc := if lastIteration s.cx e then k else none }] }) := rfl
theorem storedRow_iss (s : State) (l : List Elt) (q : Nat) (pi : Bool) (a : Nat) (v : Word) : (storedRow s l q pi a v).iss = s.iss :=
  (storeElems_keeps s l).1

section
variable (c : Ctx) (q : Nat) (pi : Bool) (a : Nat) (v : Word)

theorem afterStore_post : afterStore c q 1 (post pi a v) = rowTaken c q pi a v := by cases pi <;> rfl
theorem rowTaken_frame : rowTaken c q pi a v = { c with sq := (rowTaken c q pi a v).sq, a := (rowTaken c q pi a v).a } := by
  cases pi <;> rfl
theorem rowTaken_spad : (rowTaken c q pi a v).spad = c.spad := by cases pi <;> rfl
theorem rowTaken_cr (n : Nat) : (rowTaken c q pi a v).cr n = c.cr n := by cases pi <;> rfl
theorem rowTaken_srows : (rowTaken c q pi a v).srows q = (c.srows q).drop 1 := by
  cases pi <;> exact (Ctx.srows_setS c q _ q).trans (if_pos rfl)
theorem rowTaken_ar : (rowTaken c q pi a v).ar a = if pi then v else c.ar a := by
  cases pi
  · rfl
  · exact (Ctx.ar_setA ..).trans (if_pos rfl)

end

theorem storeQ_empty (hq : s.cx.srows q = []) : storeQ a q g pi cc stat first layer s = .next s := by
  unfold storeQ
  rw [hq]
  rfl

section
variable (hq : s.cx.srows q = r :: rest) (hf : storeFault s 4 (wordElts s a g r) (some (s.cx.ar a, 64)) = none)
include hq hf

theorem storeQ_ungoverned (hs : stat ≠ .none) (ho : enabledOf s.cx g r.tag 4 ≠ []) (hg : governed s.cx = false) :
    storeQ a q g pi cc stat first layer s = .next (trapAt .s 1 0x70D (BitVec.ofNat 64 (layer + 3 * 4096)) s) := by
  unfold storeQ
  rw [hq]
  dsimp only
  rw [if_pos (by simp [hs, ho, hg])]
  exact storeRow_refused (f := (0x70D, BitVec.ofNat 64 (layer + 3 * 4096))) hf

section
variable (ha : allowFault s.cx s.iss.seq (wordElts s a g r) = none)
  (hg : stat = .none ∨ enabledOf s.cx g r.tag 4 = [] ∨ governed s.cx = true)
include ha hg

theorem storeQ_waits (hd : allDepart s.cx s.iss.seq (wordElts s a g r) = false) :
    storeQ a q g pi cc stat first layer s = .next s := by
  unfold storeQ
  rw [hq]
  dsimp only
  rw [if_neg (by rcases hg with h | h | h <;> simp [h])]
  exact storeRow_waits hf ha hd
/-- A store with statistics and no governor table, where no element is enabled, adds nothing. -/
theorem storeQ_ok (hd : allDepart s.cx s.iss.seq (wordElts s a g r) = true) : storeQ a q g pi cc stat first layer s =
    storeEnd (if governed s.cx then stat else .none) cc first layer (squareSum s g r)
      (storedRow s (wordElts s a g r) q pi a (s.cx.ar a + 256)) := by
  unfold storeQ
  rw [hq]
  dsimp only
  rw [if_neg (by rcases hg with h | h | h <;> simp [h])]
  refine (storeRow_ok hf ha hd).trans ?_
  rw [governed_storeElems, afterStore_post]
  rfl

end
end

/-! ### Rows at a stride -/

/-- The enabled elements of a row of `e` bytes each, a stride apart. -/
def stridedElts (s : State) (a b g e : Nat) (r : Row) : List Elt :=
  (enabledOf s.cx g r.tag e).map fun k => (s.cx.ar a + BitVec.ofNat 64 k * s.cx.ar b, rowElem r e k)

theorem execStqs_empty (hq : s.cx.srows q = []) : execStqs a b q g pi lg cc s = .next s := by
  unfold execStqs
  rw [hq]
  rfl
theorem execStqs_ok (hq : s.cx.srows q = r :: rest) (hf : storeFault s (2 ^ lg) (stridedElts s a b g (2 ^ lg) r) none = none)
    (ha : allowFault s.cx s.iss.seq (stridedElts s a b g (2 ^ lg) r) = none)
    (hd : allDepart s.cx s.iss.seq (stridedElts s a b g (2 ^ lg) r) = true) : execStqs a b q g pi lg cc s =
    doneCC .s cc (storedRow s (stridedElts s a b g (2 ^ lg) r) q pi a (s.cx.ar a + BitVec.ofNat 64 (256 / 2 ^ lg) * s.cx.ar b)) := by
  unfold execStqs
  rw [hq]
  refine (storeRow_ok hf ha hd).trans ?_
  rw [afterStore_post]
  rfl

end

/-- Settles O25: each store by the rule for its row, and its end by what it counts. -/
theorem queueStores : Obligations.QueueStores := by
  intro s r rest a b q g lg layer pi first cc e on4 one strided taken after fine lower sum add
  refine ⟨fun hq => ⟨storeQ_empty hq, storeQ_empty hq, execStqs_empty hq⟩, fun hq ⟨hf, ha⟩ => ⟨fun hd => ?_, fun hd => ?_⟩,
    fun hq ⟨hf, ha⟩ hd => completes_doneCC (execStqs_ok hq hf ha hd)⟩
  · exact storeQ_waits hq hf ha (.inl rfl) hd
  · have ends : ∀ {cc stat first layer}, stat = .none ∨ on4 = [] ∨ governed s.cx = true →
        storeQ a q g pi cc stat first layer s = storeEnd (if governed s.cx then stat else .none) cc first layer sum
          (after one (s.cx.ar a + 256)) := fun hg => storeQ_ok hq hf ha hg hd
    have hi : (after one (s.cx.ar a + 256)).iss = s.iss := storedRow_iss s one q pi a _
    refine ⟨completes_done ((ends (.inl rfl)).trans ?_), completes_doneCC ((ends (.inl rfl)).trans ?_),
      fun hg => ⟨completes_done ((ends (.inr (.inr hg))).trans ?_), completes_done ((ends (.inr (.inr hg))).trans ?_)⟩,
      fun hg st hs => ⟨fun ho => storeQ_ungoverned hq hf hs ho hg, fun ho => completes_doneCC ((ends (.inr (.inl ho))).trans ?_)⟩⟩
    · rw [ite_self]
      rfl
    · rw [ite_self]
      rfl
    · rw [if_pos hg]
      refine (doneStat_eq ..).trans ?_
      rw [hi]
    · rw [if_pos hg]
      refine (doneStat_eq ..).trans ?_
      rw [hi]
    · rw [if_neg (by simp [hg])]
      rfl

end Sys2Proof.Machine

/-! ## The other stores of S (R258, R260 to R262, R398) -/
namespace Sys2Proof.Machine
section
variable {s s1 s2 : State} {c : Ctx} {r : Row} {idx rest : List Row} {a b x q g lg layer w k : Nat} {pi : Bool} {op : RedOp} {ty : Ty}
  {fn : UpdFn} {rnd : Rnd} {cc : Option Nat}

/-! ### Indexed stores -/

/-- The enabled elements of a row of `e` bytes each, at the places that index rows name. -/
def indexedElts (s : State) (a g e : Nat) (idx : List Row) (r : Row) : List Elt :=
  (enabledOf s.cx g r.tag e).map fun k => (s.cx.ar a + BitVec.ofInt 64 (indexAt (idx.flatMap (·.data)) k * e), rowElem r e k)

theorem execStqx_waits (h : (s.cx.srows x).length < max 1 (4 / 2 ^ lg)) : execStqx a x q g lg cc s = .next s :=
  if_pos (by rw [List.length_take]; omega)
theorem execStqx_ok (hr : (if x = q then (s.cx.srows q)[idx.length]? else (s.cx.srows q).head?) = some r)
    (hn : idx.length = max 1 (4 / 2 ^ lg)) (hx : s.cx.srows x = idx ++ rest)
    (hf : storeFault s (2 ^ lg) (indexedElts s a g (2 ^ lg) idx r) none = none)
    (ha : allowFault s.cx s.iss.seq (indexedElts s a g (2 ^ lg) idx r) = none)
    (hd : allDepart s.cx s.iss.seq (indexedElts s a g (2 ^ lg) idx r) = true) :
    let u := storeElems s (indexedElts s a g (2 ^ lg) idx r)
    let c := u.cx.setS x ((u.cx.srows x).drop idx.length)
    execStqx a x q g lg cc s = doneCC .s cc (withCx u (c.setS q ((c.srows q).drop 1))) := by
  have ht : (s.cx.srows x).take (max 1 (4 / 2 ^ lg)) = idx := by rw [hx, List.take_left' hn]
  unfold execStqx
  dsimp only
  rw [ht, ← hn, if_neg (Nat.lt_irrefl _), hr]
  exact storeRow_ok hf ha hd

/-! ### Words accumulated -/

/-- 32-bit words, each with its offset (and the flags it sets), written to the allotment. -/
def writeWords (c : Ctx) (l : List (Nat × Elem × Nat)) : Ctx := l.foldl (fun c x => spadWrite c x.1 (leBytes 4 x.2.1.toNat)) c
/-- Two words of the allotment have no byte in common. -/
def wordsApart (x y : Nat × Elem × Nat) : Prop := x.1 + 4 ≤ y.1 ∨ y.1 + 4 ≤ x.1

theorem writeWords_frame (l : List (Nat × Elem × Nat)) (c : Ctx) :
    writeWords c l = { c with spad := (writeWords c l).spad, bad := (writeWords c l).bad } := by
  induction l generalizing c with
  | nil => rfl
  | cons x r ih => exact ih (spadWrite c x.1 (leBytes 4 x.2.1.toNat))
theorem memGet_writeWords_out {l : List (Nat × Elem × Nat)} {o : Nat} (h : ∀ x ∈ l, o < x.1 ∨ x.1 + 4 ≤ o) :
    memGet (writeWords c l).spad o = memGet c.spad o := by
  induction l generalizing c with
  | nil => rfl
  | cons x r ih =>
    refine (ih fun y hy => h y (List.mem_cons_of_mem _ hy)).trans ?_
    exact memGet_memWrite_out _ _ _ _ (by rw [leBytes_length]; exact h x List.mem_cons_self)
/-- Of words that lie apart, each is read back as it was written. -/
theorem memRead_writeWords {l : List (Nat × Elem × Nat)} {x : Nat × Elem × Nat} (hp : l.Pairwise wordsApart) (hx : x ∈ l) :
    memRead (writeWords c l).spad x.1 4 = leBytes 4 x.2.1.toNat := by
  induction l generalizing c with
  | nil => cases hx
  | cons y r ih =>
    obtain ⟨hy, hp⟩ := List.pairwise_cons.mp hp
    rcases List.mem_cons.mp hx with rfl | hx
    · have kept : ∀ i, i < 4 → memGet (writeWords c (x :: r)).spad (x.1 + i)
          = memGet (memWrite c.spad x.1 (leBytes 4 x.2.1.toNat)) (x.1 + i) := fun i hi =>
        memGet_writeWords_out (c := spadWrite c x.1 (leBytes 4 x.2.1.toNat)) fun z hz => by
          have := hy z hz
          unfold wordsApart at this
          omega
      have hw := memRead_memWrite (leBytes 4 x.2.1.toNat) c.spad x.1
      rw [leBytes_length] at hw
      rw [memRead_congr 4 x.1 kept, hw]
    · exact ih hp hx

/-- Element `k` of a row accumulated into the word at its address: its offset, its new value and its flags. -/
def accWord (s : State) (a : Nat) (op : RedOp) (ty : Ty) (r : Row) (k : Nat) : Nat × Elem × Nat :=
  (spOff (wordAddr s a k), accumulate op ty (BitVec.ofNat 32 (leNat (memRead s.cx.spad (spOff (wordAddr s a k)) 4))) (rowWord r k))
/-- The words of a list of elements accumulated, and their flags set. -/
def accumulated (s : State) (a : Nat) (op : RedOp) (ty : Ty) (r : Row) (on : List Nat) : Ctx :=
  setFlags (writeWords s.cx (on.map (accWord s a op ty r))) (orFlags ((on.map (accWord s a op ty r)).map (·.2.2)) &&& strwFlags)

theorem execStrw_empty (hq : s.cx.srows q = []) : execStrw a q g pi op ty cc s = .next s := by
  unfold execStrw
  rw [hq]
  rfl
theorem execStrw_window (hq : s.cx.srows q = r :: rest) (ho : enabledOf s.cx g r.tag 4 ≠ []) (hw : spWin (s.cx.ar a) ≠ 0) :
    execStrw a q g pi op ty cc s = .next (trapAt .s 1 0x301 (s.cx.ar a) s) := by
  unfold execStrw
  rw [hq]
  refine checked_some (f := (0x301, s.cx.ar a)) ?_
  rw [if_neg ho, if_pos hw]
  rfl
theorem execStrw_ok (hq : s.cx.srows q = r :: rest) (hw : enabledOf s.cx g r.tag 4 ≠ [] → spWin (s.cx.ar a) = 0)
    (hf : ∀ k ∈ enabledOf s.cx g r.tag 4, spFault0 s s.iss.seq 0x301 (wordAddr s a k) 4 = none ∧ (wordAddr s a k).toNat % 4 = 0)
    (hm : spadMeet s ((enabledOf s.cx g r.tag 4).map fun k => (spOff (wordAddr s a k), 4)) = .ok s1) :
    let c := accumulated s1 a op ty r (enabledOf s.cx g r.tag 4)
    execStrw a q g pi op ty cc s = doneCC .s cc (withCx s1 (rowTaken c q pi a (s1.cx.ar a + 256))) := by
  unfold execStrw
  rw [hq]
  refine (checked_none ?_).trans ((consuming_ok hm).trans ?_)
  · split
    · rfl
    · next ho =>
      rw [if_neg (by simp [hw ho]), firstFault_cons_none]
      exact firstFault_window0 hf
  · dsimp only
    rw [afterStore_post, spadMeet_ar hm]
    unfold accumulated accWord wordAddr
    rw [spadMeet_ar hm]
    rfl

theorem lt_64_of_enabled {tag k : Nat} (h : k ∈ enabledOf c g tag 4) : k < 64 := List.mem_range.mp (List.mem_filter.mp h).1
/-- The words of a row's enabled elements, where aligned, lie apart. -/
theorem accWords_apart {on : List Nat} (ho : on.Pairwise (· < ·)) (hl : ∀ k ∈ on, k < 64) (ha : ∀ k ∈ on, (wordAddr s a k).toNat % 4 = 0) :
    (on.map (accWord s a op ty r)).Pairwise wordsApart := by
  refine List.pairwise_map.mpr (ho.imp_of_mem fun {j k} hj hk hjk => ?_)
  have hj' := ha j hj
  have hk' := ha k hk
  have hk64 := hl k hk
  unfold wordAddr at hj' hk'
  simp only [wordsApart, accWord, wordAddr, spOff, wbits, bits, BitVec.toNat_add, BitVec.toNat_ofNat] at hj' hk' ⊢
  omega

/-- What accumulation leaves of a context. -/
theorem accumulated_frame (s : State) (on : List Nat) :
    let c := accumulated s a op ty r on
    c = { s.cx with csr := c.csr, spad := c.spad, bad := c.bad } ∧ (∀ n, n ≠ 0x00B → c.cr n = s.cx.cr n) := by
  have hw := writeWords_frame (on.map (accWord s a op ty r)) s.cx
  refine ⟨?_, fun n hn => ?_⟩
  · unfold accumulated setFlags Ctx.setCr
    rw [hw]
  · refine (Ctx.cr_setCr ..).trans ((if_neg hn).trans ?_)
    rw [hw]
    rfl

/-- Each word accumulated holds its new value. -/
theorem accumulated_in {on : List Nat} (hp : (on.map (accWord s a op ty r)).Pairwise wordsApart) (hk : k ∈ on) :
    memRead (accumulated s a op ty r on).spad (spOff (wordAddr s a k)) 4 = leBytes 4 (accWord s a op ty r k).2.1.toNat :=
  memRead_writeWords (c := s.cx) hp (List.mem_map_of_mem hk)
/-- Every byte outside the words accumulated is what it was. -/
theorem accumulated_out {on : List Nat} {o : Nat} (h : ∀ k ∈ on, o < spOff (wordAddr s a k) ∨ spOff (wordAddr s a k) + 4 ≤ o) :
    memGet (accumulated s a op ty r on).spad o = memGet s.cx.spad o := by
  refine memGet_writeWords_out (c := s.cx) fun x hx => ?_
  obtain ⟨k, hk, rfl⟩ := List.mem_map.mp hx
  exact h k hk

/-! ### Updates -/

/-- The elements of an update, from one to the next: the context, the flags and the NaNs counted. -/
def updAll (fn : UpdFn) (p : UpdBlock) (rnd : Rnd) (on : List Nat) (a : Nat) (r : Row) (s : State) : Ctx × Nat × Nat :=
  on.foldl (fun y k => let z := updElem fn p rnd (s.cx.ar a) r (drawOf s) y.1 k; (z.1, y.2.1 ||| z.2.1, y.2.2 + z.2.2)) (s.cx, 0, 0)
/-- The context after an update: its flags are set, its row is gone and its register is raised. -/
def updated (fn : UpdFn) (p : UpdBlock) (rnd : Rnd) (on : List Nat) (a q : Nat) (pi : Bool) (r : Row) (s : State) : Ctx :=
  let y := updAll fn p rnd on a r s
  let c := setFlags y.1 (y.2.1 &&& (flagInvalid ||| flagDivzero ||| flagOverflow ||| flagUnderflow ||| flagInexact ||| flagZden))
  rowTaken c q pi a (s.cx.ar a + BitVec.ofNat 64 (64 * storeBytes p.wf))

theorem updRow_eq (p : UpdBlock) (on : List Nat) : updRow fn p rnd on a q layer pi cc r s =
    let u := withCx s (updated fn p rnd on a q pi r s)
    let n := (updAll fn p rnd on a r s).2.2
    if n = 0 then doneCC .s cc u
    else doneStat .s cc { tenant := 0, layer := layer, role := 0, eng := .s, nans := n } u := by
  unfold updRow updated
  rw [← afterStore_post]
  rfl

theorem execUpd_empty (hq : s.cx.srows q = []) : execUpd a b q g fn pi rnd layer cc s = .next s := by
  unfold execUpd
  rw [hq]
  rfl
/-- An update with no element enabled takes its row and raises its register by what a row of weights occupies. -/
theorem execUpd_idle (hq : s.cx.srows q = r :: rest) (ho : enabledOf s.cx g r.tag 4 = []) : execUpd a b q g fn pi rnd layer cc s =
    doneCC .s cc { s with cx := raised pi a (s.cx.ar a + BitVec.ofNat 64 (idleStep (s.cx.ar b) s)) (s.cx.setS q rest), free := s.free + 1 } := by
  unfold execUpd
  rw [hq]
  refine (if_pos ho).trans ?_
  dsimp only
  rw [afterStore_post]
  unfold rowTaken
  rw [hq]
  rfl
theorem storeBytes_cases (n : Nat) : storeBytes n = 4 ∨ storeBytes n = 2 := by
  unfold storeBytes
  split
  · exact .inl rfl
  · exact .inr rfl
theorem idleStep_cases (v : Word) (s : State) : idleStep v s = 128 ∨ idleStep v s = 256 := by
  have key : ∀ n, 64 * storeBytes n = 128 ∨ 64 * storeBytes n = 256 := fun n => by have := storeBytes_cases n; omega
  unfold idleStep
  dsimp only
  split
  · exact key _
  · exact key _
theorem fieldAt_one (l : List Byte) (o : Nat) : fieldAt l o 1 = (l.getD o 0).toNat := by
  unfold fieldAt slice
  rw [List.getD_eq_getElem?_getD, ← List.head?_drop]
  cases l.drop o <;> simp [leNat]
/-- Where the parameter block can be read and its format of weights is none of the reserved ones, the step is its format's. -/
theorem idleStep_of_sound {v : Word} (hf : spFault0 s s.iss.seq 0x301 v 64 = none) (ha : v.toNat % 64 = 0) (hb : s.cx.bad = [])
    (hw : fieldAt (memRead s.cx.spad (spOff v) 64) 0x20 1 ≤ 2) :
    idleStep v s = 64 * storeBytes (fieldAt (memRead s.cx.spad (spOff v) 64) 0x20 1) := by
  rw [fieldAt_one] at hw ⊢
  unfold idleStep
  dsimp only
  rw [if_pos]
  · rfl
  · simp only [hf, alignFault_none ha, hb, firstFault_cons_none, firstFault_nil, Option.isNone_none, List.all_nil, Bool.and_true,
      Bool.true_and, decide_eq_true_eq]
    exact hw

section
variable (hq : s.cx.srows q = r :: rest) (ho : enabledOf s.cx g r.tag 4 ≠ [])
include hq ho

theorem execUpd_ungoverned (hg : governed s.cx = false) :
    execUpd a b q g fn pi rnd layer cc s = .next (trapAt .s 1 0x70D (BitVec.ofNat 64 layer) s) := by
  unfold execUpd
  rw [hq]
  exact (if_neg ho).trans (if_pos (by simp [hg]))
/-- An update whose addresses pass their checks reads its parameter block, then its operands. -/
theorem execUpd_reads (hg : governed s.cx = true) (hw : spWin (s.cx.ar a) = 0) (hf : spFault0 s s.iss.seq 0x301 (s.cx.ar b) 64 = none)
    (ha : (s.cx.ar b).toNat % 64 = 0) (hm : spadMeet s [(spOff (s.cx.ar b), 64)] = .ok s1) :
    let block := memRead s1.cx.spad (spOff (s.cx.ar b)) 64
    let parts := (enabledOf s.cx g r.tag 4).flatMap (updAddrs fn (updBlock block) (s.cx.ar a))
    updBlockBad block = false → (∀ y ∈ parts, spFault0 s1 s1.iss.seq 0x301 y.1 y.2 = none ∧ y.1.toNat % y.2 = 0) →
    spadMeet s1 (parts.map fun y => (spOff y.1, y.2)) = .ok s2 →
    execUpd a b q g fn pi rnd layer cc s = updRow fn (updBlock block) rnd (enabledOf s.cx g r.tag 4) a q layer pi cc r s2 := by
  intro block parts hb hp hm2
  unfold execUpd
  rw [hq]
  refine (if_neg ho).trans ((if_neg (by simp [hg])).trans ((checked_none ?_).trans ((consuming_ok hm).trans ?_)))
  · rw [if_neg (by simp [hw]), hf, alignFault_none ha]
    rfl
  · refine (if_neg (by simpa [block, spadRead] using hb)).trans ?_
    dsimp only
    rw [spadMeet_ar hm]
    exact (checked_none (firstFault_window0 hp)).trans (consuming_ok hm2)

end

/-! ### Window steps -/

/-- A window's step one higher. -/
def stepUp (v : Word) : Word := wput v 0 16 (wbits v 0 16 + 1)

/-- Where an earlier value of the step is kept for the position, that is raised, and otherwise the register's. -/
theorem execWstep_register (h : (s.cx.hist.findIdx? fun h => h.num = 0x030 + w && s.iss.seq < h.seq) = none) :
    execWstep w s = done .s (withCx s (s.cx.setCr (0x030 + w) (stepUp (s.cx.cr (0x030 + w))))) := by
  unfold execWstep
  dsimp only
  rw [h]
  rfl
theorem execWstep_kept (h : (s.cx.hist.findIdx? fun h => h.num = 0x030 + w && s.iss.seq < h.seq) = some k) :
    execWstep w s = done .s (withCx s { s.cx with hist := s.cx.hist.modify k fun h => { h with old := stepUp h.old } }) := by
  unfold execWstep
  dsimp only
  rw [h]
  rfl

/-- Settles O26: each store by its own rule above. -/
theorem otherStores : Obligations.OtherStores := by
  intro s s1 s2 r idx rest a b x q g lg layer w pi op ty fn rnd cc e lower places on at4 old row block parts up kept
  refine ⟨fun hr hn hx hf ha hd => completes_doneCC (execStqx_ok hr hn hx hf ha hd), execStqx_waits,
    fun hq => ⟨execStrw_empty hq, execUpd_empty hq⟩, execStrw_window, fun hq hw hf hm => ?strw, execUpd_ungoverned, fun hq ho => ?idle,
    fun hq ho hg hw hf ha hm hb hp hm2 => ?upd, fun h => completes_done (execWstep_register h),
    fun k h => completes_done (execWstep_kept h)⟩
  case strw =>
    have hat : ∀ k, wordAddr s1 a k = at4 k := fun k => by unfold wordAddr; rw [spadMeet_ar hm]
    have hap : (on.map (accWord s1 a op ty r)).Pairwise wordsApart :=
      accWords_apart (List.pairwise_lt_range.filter _) (fun k => lt_64_of_enabled) fun k hk => by rw [hat]; exact (hf k hk).2
    obtain ⟨hc, hcr⟩ := accumulated_frame (a := a) (op := op) (ty := ty) (r := r) s1 on
    refine ⟨_, completes_doneCC (execStrw_ok hq hw hf hm), ?_, ?_, ?_, fun n hn => (rowTaken_cr ..).trans (hcr n hn),
      fun k hk => ?_, fun o ho => ?_⟩
    · rw [rowTaken_srows]
      exact (congrArg (fun c : Ctx => (c.srows q).drop 1) hc :)
    · rw [rowTaken_ar]
      exact (congrArg (fun c : Ctx => if pi then s1.cx.ar a + 256 else c.ar a) hc :)
    · rw [rowTaken_frame, hc]
    · have hv := accumulated_in hap hk
      unfold accWord at hv
      rw [hat] at hv
      rw [rowTaken_spad]
      exact hv
    · rw [rowTaken_spad]
      exact accumulated_out fun k hk => by rw [hat]; exact ho k hk
  case idle =>
    exact ⟨idleStep (s.cx.ar b) s, idleStep_cases _ _, idleStep_of_sound, completes_doneCC (execUpd_idle hq ho)⟩
  case upd =>
    intro out c1 c2 c3
    have hu : execUpd a b q g fn pi rnd layer cc s = updRow fn (updBlock block) rnd on a q layer pi cc r s2 :=
      execUpd_reads hq ho hg hw hf ha hm hb hp hm2
    refine ⟨fun hn => completes_doneCC (hu.trans ((updRow_eq _ _).trans (if_pos hn))), fun hn => completes_done ?_⟩
    refine hu.trans ((updRow_eq _ _).trans ((if_neg (Nat.ne_of_gt hn)).trans ((doneStat_eq ..).trans ?_)))
    have hi : (withCx s2 (updated fn (updBlock block) rnd on a q pi r s2)).iss = s.iss := (spadMeet_iss hm2).trans (spadMeet_iss hm)
    rw [hi]
    rfl

end
end Sys2Proof.Machine

/-! ## The start of copies (R263 to R269) -/
namespace Sys2Proof.Machine
section
variable {s s1 : State} {i : Instr} {x : Copy} {ext : CopyExt} {ring : Word} {a b k n reg : Nat} {dv sv vm store : Bool} {l : Layout}
  {snap : List Byte} {set : Setting}

/-- A meaning that ends in `doneCC` with a new context performs its instruction and lowers its counter there. -/
theorem completes_lowered {e : Engine} {c : Ctx} {cc : Option Nat} (h : exec i s = doneCC e cc (withCx s1 c)) :
    Completes e i s (withCx s1 (lowered (withCx s1 c) e cc)) := completes_doneCC h

/-! ### A slot taken -/

theorem takeSlot_full (h : freeKey s.cx.copies 16 = none) : takeSlot ring reg x s = .next s := by
  unfold takeSlot
  rw [h]
  rfl

/-- A copy that names no ring takes its slot, or is performed at once where it has nothing to move. -/
theorem takeSlot_completes (hi : exec i s1 = takeSlot ring reg x s) (h0 : reg = 0) (hk : freeKey s.cx.copies 16 = some k) :
    (x.rest = 0 → Completes .x i s1 (withCx s (lowered s .x x.cc)))
      ∧ (x.rest ≠ 0 → Completes .x i s1 (withCx s { s.cx with copies := aset s.cx.copies k { x with seq := s.iss.seq } })) := by
  have ht : takeSlot ring reg x s = if x.rest = 0 then doneCC .x x.cc s
      else done .x (withCx s { s.cx with copies := aset s.cx.copies k { x with seq := s.iss.seq } }) := by
    unfold takeSlot
    rw [hk]
    exact if_pos h0
  exact ⟨fun hr => completes_doneCC (hi.trans (ht.trans (if_pos hr))), fun hr => completes_done (hi.trans (ht.trans (if_neg hr)))⟩

/-- The slot of a ring that its next claim takes. -/
def nextSlot (c : Ctx) (h : Nat) : Nat := slotAt h (spad4 c h) (spad4 c (h + 4))
/-- A claim of a ring slot made: the slot holds its number and a status, and the ring one claim more. -/
def ringClaimed (c : Ctx) (h status : Nat) : Ctx :=
  spadWrite (writeSlot c (nextSlot c h) (spad4 c (h + 4)) 0 status) (h + 4) (leBytes 4 (spad4 c (h + 4) + 1))

theorem ringClaimed_copies (c : Ctx) (h status : Nat) : (ringClaimed c h status).copies = c.copies := rfl

section
variable (hk : freeKey s.cx.copies 16 = some k) (hr : reg ≠ 0) (hm : spadMeet s [(spOff ring, 12)] = .ok s1)
include hk hr hm

theorem takeSlot_ringFull (hn : spad4 s1.cx (spOff ring) ≤ ringClaims s1.cx (spOff ring)) : takeSlot ring reg x s = .next s1 := by
  unfold takeSlot
  rw [hk]
  exact (if_neg hr).trans ((consuming_ok hm).trans (if_pos hn))
theorem takeSlot_ring (hn : ringClaims s1.cx (spOff ring) < spad4 s1.cx (spOff ring)) : takeSlot ring reg x s =
    if x.rest = 0 then doneCC .x x.cc (withCx s1 (ringClaimed s1.cx (spOff ring) 1))
    else done .x (withCx s1 { ringClaimed s1.cx (spOff ring) 0 with
        copies := aset (ringClaimed s1.cx (spOff ring) 0).copies k
          { x with seq := s1.iss.seq, ring := some (nextSlot s1.cx (spOff ring)), claim := spad4 s1.cx (spOff ring + 4) } }) := by
  unfold takeSlot
  rw [hk]
  unfold ringClaimed nextSlot withCx
  dsimp only
  rw [if_neg hr, consuming_ok hm, if_neg (Nat.not_le_of_lt hn)]
  by_cases h0 : x.rest = 0
  · simp only [if_pos h0]
  · simp only [if_neg h0]

end

/-! ### Checks that pass -/

theorem lenFault_none {v : Word} (h : v.toNat < 2 ^ 32) : lenFault v = none := if_neg (Nat.not_le_of_lt h)
theorem barFault_none {v : Word} {has : Bool} {win : Nat} (h : ext.bb = 0) : barFault s ext.bb v has win = none := if_pos h
theorem barrierOf_none (h : ext.bb = 0) : barrierOf s ext = none := if_pos h

/-- A copy whose checks pass goes for a slot. -/
theorem startCopy_ok {faults : List (Option Fail)} (hf : ∀ f ∈ faults, f = none)
    (hr : ext.ring = 0 ∨ ringFault s (operand s 4 ext.ring) = none) :
    startCopy x ext faults s = takeSlot (operand s 4 ext.ring) ext.ring x s := by
  refine checked_none (firstFault_none fun f hf' => ?_)
  rcases List.mem_append.mp hf' with h | h
  · exact hf f h
  · cases List.mem_singleton.mp h
    split
    · rfl
    · next h0 => exact hr.resolve_left h0

/-! ### Linear copies -/

/-- The copy that a CPY starts, its overlaps apart. -/
def cpyCopy (s : State) (dv sv : Bool) (a b : Nat) (ext : CopyExt) : Copy :=
  { kind := 1, src := operand s 1 b, dst := operand s 0 a, rest := (operand s 2 ext.len).toNat, cc := ext.cc, srcVm := sv, dstVm := dv,
    wins := sideWins s sv [operand s 1 b] (sideWins s dv [operand s 0 a] []) }
/-- The copy that a CPYN starts, its overlaps apart. -/
def cpynCopy (s : State) (sv : Bool) (a b : Nat) (ext : CopyExt) : Copy :=
  { kind := 3, src := operand s 1 b, dst := operand s 0 a, rest := (operand s 2 ext.len).toNat, cc := ext.cc, srcVm := sv, dstVm := true,
    wins := sideWins s sv [operand s 1 b] [], aux := operand s 3 ext.aux }
/-- The length and the source of a linear copy without a barrier pass their checks. -/
def SourceFits (s : State) (sv : Bool) (b : Nat) (ext : CopyExt) : Prop :=
  (operand s 2 ext.len).toNat < 2 ^ 32 ∧ ext.bb = 0 ∧ sideFault s sv false (operand s 1 b) (operand s 2 ext.len).toNat = none

theorem copies_tooLong (hl : 2 ^ 32 ≤ (operand s 2 ext.len).toNat) :
    execCpy dv sv a b ext s = .next (trapAt .x 1 0x601 (operand s 2 ext.len) s)
      ∧ execCpyn sv a b ext s = .next (trapAt .x 1 0x601 (operand s 2 ext.len) s) := by
  have hf : lenFault (operand s 2 ext.len) = some (0x601, operand s 2 ext.len) := if_pos hl
  have key : ∀ x faults, startCopy x ext (lenFault (operand s 2 ext.len) :: faults) s
      = .next (trapAt .x 1 0x601 (operand s 2 ext.len) s) := fun x faults => by
    unfold startCopy
    rw [hf]
    rfl
  exact ⟨key _ _, key _ _⟩

theorem execCpy_ok (hs : SourceFits s sv b ext) (hd : sideFault s dv true (operand s 0 a) (operand s 2 ext.len).toNat = none)
    (hr : ext.ring = 0 ∨ ringFault s (operand s 4 ext.ring) = none) :
    execCpy dv sv a b ext s = takeSlot (operand s 4 ext.ring) ext.ring ((cpyCopy s dv sv a b ext).overlapped s) s := by
  obtain ⟨hl, hb, hs⟩ := hs
  unfold execCpy
  rw [barrierOf_none hb]
  refine startCopy_ok ?_ hr
  simp only [List.forall_mem_cons, List.not_mem_nil, false_implies, implies_true, and_true]
  exact ⟨lenFault_none hl, barFault_none hb, hs, hd⟩
theorem execCpyn_ok (hs : SourceFits s sv b ext) (hd : virtFault (operand s 0 a) (operand s 2 ext.len).toNat = none)
    (hr : ext.ring = 0 ∨ ringFault s (operand s 4 ext.ring) = none) :
    execCpyn sv a b ext s = takeSlot (operand s 4 ext.ring) ext.ring ((cpynCopy s sv a b ext).overlapped s) s := by
  obtain ⟨hl, hb, hs⟩ := hs
  unfold execCpyn
  refine startCopy_ok ?_ hr
  simp only [List.forall_mem_cons, List.not_mem_nil, false_implies, implies_true, and_true]
  exact ⟨lenFault_none hl, if_neg (by simp [hb]), hs, hd⟩

/-! ### Copies between a tile and rows -/

/-- The copy that a CPYL of a layout starts, its overlaps apart. -/
def cpylCopy (s : State) (store vm : Bool) (a : Nat) (ext : CopyExt) (l : Layout) : Copy :=
  let tile : Word := BitVec.ofNat 64 l.base
  { kind := 2, src := if store then tile else operand s 0 a, dst := if store then operand s 0 a else tile, rest := l.bytes,
    layout := (operand s 3 ext.aux).toNat, cc := ext.cc, srcVm := !store && vm, dstVm := store && vm, store := store,
    aux := operand s 2 ext.len,
    wins := sideWins s vm (stridedRows l (operand s 0 a) (operand s 2 ext.len)) (sideWins s false [tile] []) }

theorem copyLayout_refused (hl : layoutOf (operand s 3 ext.aux).toNat = none) :
    copyLayout store vm a ext s = .next (trapAt .x 1 0x204 (operand s 3 ext.aux) s) := by
  unfold copyLayout copyOperand
  dsimp only
  rw [hl]
  rfl
theorem copyLayout_ok (hl : layoutOf (operand s 3 ext.aux).toNat = some l) (ht : (l.tr && l.blk) = false) (hb : ext.bb = 0)
    (hr : ext.ring = 0) (hf : sideFault s false (!store) (BitVec.ofNat 64 l.base) l.bytes = none)
    (hrow : ∀ r, r < 2 ^ l.rb →
      sideFault s vm store (operand s 0 a + BitVec.ofNat 64 r * operand s 2 ext.len) (l.unit * 2 ^ l.cb) = none) :
    copyLayout store vm a ext s = takeSlot (operand s 4 ext.ring) ext.ring ((cpylCopy s store vm a ext l).overlapped s) s := by
  unfold copyLayout copyOperand
  dsimp only
  rw [hl]
  refine (if_neg (by simp [ht])).trans ?_
  rw [barrierOf_none hb]
  refine startCopy_ok (fun f hf' => ?_) (.inl hr)
  rcases List.mem_append.mp hf' with h | h
  · simp only [List.mem_cons, List.not_mem_nil, or_false] at h
    rcases h with rfl | rfl
    · exact barFault_none hb
    · exact hf
  · obtain ⟨v, hv, rfl⟩ := List.mem_map.mp h
    obtain ⟨r, hr, rfl⟩ := List.mem_map.mp hv
    exact hrow r (List.mem_range.mp hr)

/-! ### Copies of rows -/

/-- Where a CPYR puts its rows: at its address, packed, or at the tile that its layout places. -/
def rowsStart (s : State) (a : Nat) (ext : CopyExt) : Word :=
  match layoutOf (operand s 3 ext.aux).toNat with
  | some l => if ext.aux = 0 then operand s 0 a else BitVec.ofNat 64 l.base
  | none => operand s 0 a
/-- The copy that a CPYR starts. -/
def cpyrCopy (s : State) (inPlace : Bool) (a b : Nat) (ext : CopyExt) (snap : List Byte) : Copy :=
  { kind := 4, src := operand s 1 b, dst := rowsStart s a ext, rest := (operand s 2 ext.len).toNat,
    layout := if ext.aux = 0 then 0 else (operand s 3 ext.aux).toNat, cc := ext.cc, packed := decide (ext.aux = 0) && !inPlace,
    inPlace := inPlace, snap := some snap }
theorem rowsStart_packed (h : ext.aux = 0) : rowsStart s a ext = operand s 0 a := by
  unfold rowsStart
  split
  · exact if_pos h
  · rfl

theorem operand_congr (hc : s1.cx = s.cx) (hi : s1.iss = s.iss) (k r : Nat) : operand s1 k r = operand s k r := by
  unfold operand
  rw [hc, hi]

theorem copyRows_ungoverned {inPlace : Bool} (hg : governed s.cx = false) :
    copyRows inPlace a b ext s = .next (trapAt .x 1 0x70D 0 s) :=
  if_pos (by simp [hg])
theorem copyRows_legend {inPlace : Bool} (hg : governed s.cx = true)
    (hr : readLegend s s.cur .x (wbits (operand s 1 b) 0 16) = .ok (snap, s1)) :
    copyRows inPlace a b ext s = issueRows inPlace a b ext snap s1 := by
  have hr' : readLegend s s.cur .x (selLegend (copyOperand s 1 b)) = .ok (snap, s1) := hr
  unfold copyRows
  rw [if_neg (by simp [hg]), hr']

/-- The rows that a CPYR without barrier and ring names pass their checks. -/
def RowsFit (s : State) (b : Nat) (ext : CopyExt) (snap : List Byte) (set : Setting) : Prop :=
  settingOf (legendOf snap).cur = some set ∧ wbits (operand s 1 b) 16 32 + (operand s 2 ext.len).toNat ≤ (legendOf snap).rows
    ∧ wbits (operand s 1 b) 48 16 = 0 ∧ ext.bb = 0 ∧ ext.ring = 0
    ∧ rowsFault (legendOf snap) (set.rowBytes (legendOf snap).ext0) (operand s 2 ext.len).toNat (wbits (operand s 1 b) 16 32) = none

/-- Rows that go packed to a place that holds them, and rows brought to their edition in place. -/
theorem issueRows_ok {inPlace : Bool} (h : RowsFit s b ext snap set) (hp : inPlace = true ∨ ext.aux = 0
      ∧ ((operand s 2 ext.len).toNat ≠ 0 → spFault0 s s.iss.seq 0x701 (operand s 0 a)
        (set.rowBytes (legendOf snap).ext0 * (operand s 2 ext.len).toNat) = none)) :
    issueRows inPlace a b ext snap s = takeSlot (operand s 4 ext.ring) ext.ring (cpyrCopy s inPlace a b ext snap) s := by
  obtain ⟨hs, hn, hw, hb, hr, hro⟩ := h
  have hpast : ¬(legendOf snap).rows < selRow (operand s 1 b) + (operand s 2 ext.len).toNat := Nat.not_lt_of_le hn
  unfold issueRows copyOperand
  dsimp only
  rw [hs, barrierOf_none hb]
  refine startCopy_ok ?_ (.inl hr)
  simp only [List.forall_mem_cons, List.not_mem_nil, false_implies, implies_true, and_true]
  refine ⟨if_neg ?_, if_neg (by simp [hb]), if_neg (by simp [hr]), if_neg ?_, ?_, (if_neg hpast).trans hro, ?_⟩
  · rcases hp with h | ⟨h, -⟩ <;> simp [h]
  · rcases hp with h | ⟨h, -⟩ <;> cases layoutOf (operand s 3 ext.aux).toNat <;> simp [h, hw, hpast]
  · split
    · rfl
    · next h0 =>
      simp only [Bool.or_eq_true, decide_eq_true_eq, not_or] at h0
      obtain ⟨hz, hi⟩ := h0
      obtain ⟨ha, hf⟩ := hp.resolve_left hi
      cases layoutOf (operand s 3 ext.aux).toNat <;> simp [ha, hf hz]
  · split
    · rfl
    · exact barFault_none hb

/-- A CPYR whose rows fit, once its legend is read with the context as it was, goes for a slot. -/
theorem copyRows_ok {inPlace : Bool} (hg : governed s.cx = true)
    (hl : readLegend s s.cur .x (wbits (operand s 1 b) 0 16) = .ok (snap, s1)) (hc : s1.cx = s.cx) (hi : s1.iss = s.iss)
    (h : RowsFit s b ext snap set) (hp : inPlace = true ∨ ext.aux = 0
      ∧ ((operand s 2 ext.len).toNat ≠ 0 → spFault0 s1 s1.iss.seq 0x701 (operand s 0 a)
        (set.rowBytes (legendOf snap).ext0 * (operand s 2 ext.len).toNat) = none)) :
    copyRows inPlace a b ext s = takeSlot (operand s 4 ext.ring) ext.ring (cpyrCopy s inPlace a b ext snap) s1 := by
  have hops : ∀ j r, operand s1 j r = operand s j r := operand_congr hc hi
  have hx : cpyrCopy s1 inPlace a b ext snap = cpyrCopy s inPlace a b ext snap := by
    unfold cpyrCopy rowsStart
    simp only [hops]
  have hfit : RowsFit s1 b ext snap set := by
    unfold RowsFit at h ⊢
    simpa only [hops] using h
  rw [copyRows_legend hg hl, issueRows_ok hfit (by simpa only [hops] using hp), hops, hx]

/-! ### A copy begun -/

/-- A copy of which nothing has moved, with the counter that its instruction names, no barrier and no ring slot. -/
def Unmoved (x : Copy) (ext : CopyExt) : Prop :=
  x.cc = ext.cc ∧ x.bb = none ∧ x.moved = 0 ∧ x.unacked = 0 ∧ x.refused = 0 ∧ x.done = [] ∧ x.reading = [] ∧ x.data = [] ∧ x.whole = none
    ∧ x.ring = none

theorem overlapped_unmoved (h : Unmoved x ext) : Unmoved (x.overlapped s) ext := h
theorem cpyCopy_unmoved : Unmoved (cpyCopy s dv sv a b ext) ext := ⟨rfl, rfl, rfl, rfl, rfl, rfl, rfl, rfl, rfl, rfl⟩
theorem cpynCopy_unmoved : Unmoved (cpynCopy s sv a b ext) ext := ⟨rfl, rfl, rfl, rfl, rfl, rfl, rfl, rfl, rfl, rfl⟩
theorem cpylCopy_unmoved : Unmoved (cpylCopy s store vm a ext l) ext := ⟨rfl, rfl, rfl, rfl, rfl, rfl, rfl, rfl, rfl, rfl⟩
theorem cpyrCopy_unmoved {inPlace : Bool} : Unmoved (cpyrCopy s inPlace a b ext snap) ext := ⟨rfl, rfl, rfl, rfl, rfl, rfl, rfl, rfl, rfl, rfl⟩

/-- A copy that names a ring waits for room in it, claims a slot and is performed, or claims a slot and begins. -/
theorem takeSlot_claims (hu : Unmoved x ext) (hi : exec i s = takeSlot ring reg x s) (hk : freeKey s.cx.copies 16 = some k) (hr : reg ≠ 0)
    (hm : spadMeet s [(spOff ring, 12)] = .ok s1) (hn : n = spad4 s1.cx (spOff ring)) :
    (n ≤ ringClaims s1.cx (spOff ring) → exec i s = .next s1)
      ∧ (ringClaims s1.cx (spOff ring) < n → x.rest = 0 →
          Completes .x i s (withCx s1 (lowered (withCx s1 (ringClaimed s1.cx (spOff ring) 1)) .x ext.cc)))
      ∧ (ringClaims s1.cx (spOff ring) < n → x.rest ≠ 0 →
          Completes .x i s (withCx s1 { ringClaimed s1.cx (spOff ring) 0 with
            copies := aset s1.cx.copies k
              { x with seq := s1.iss.seq, ring := some (nextSlot s1.cx (spOff ring)), claim := spad4 s1.cx (spOff ring + 4) } })) := by
  subst hn
  obtain ⟨hcc, -⟩ := hu
  refine ⟨fun h => hi.trans (takeSlot_ringFull hk hr hm h), fun h hz => ?_, fun h hz => ?_⟩
  · rw [← hcc]
    exact completes_lowered (hi.trans ((takeSlot_ring hk hr hm h).trans (if_pos hz)))
  · rw [← ringClaimed_copies s1.cx (spOff ring) 0]
    exact completes_done (hi.trans ((takeSlot_ring hk hr hm h).trans (if_neg hz)))

/-- Settles O37: a copy whose checks pass goes for a slot, and one that goes for a slot and names no ring begins alike, whatever it
copies. -/
theorem copiesStart : Obligations.CopiesStart := by
  intro s s1 a b k n ext dv sv vm l snap set dst src len aux ring cpy full free begun starts linear sides tile layouts leg rowsFit
    claim slot claimed
  have begins : ∀ {i u p} (x : Copy), Unmoved x ext → exec i s = takeSlot ring ext.ring x u → ext.ring = 0 →
      freeKey u.cx.copies 16 = some k → u.iss = s.iss → p { x with seq := u.iss.seq } → starts i u x.rest p := by
    rintro i u p x ⟨hcc, hbb, hmoved, hunacked, hrefused, hdone, hreading, hdata, hwhole, hring⟩ hi h0 hk hu hp
    obtain ⟨hz, hn⟩ := takeSlot_completes hi h0 hk
    rw [hcc] at hz
    exact ⟨hz, fun hr => ⟨_, hn hr, ⟨hcc, congrArg Issue.seq hu, hbb, hmoved, hunacked, hrefused, hdone, hreading, hdata, hwhole⟩,
      rfl, hring, hp⟩⟩
  have plain : ∀ {w x}, exec w s = takeSlot ring ext.ring x s → full → exec w s = .next s := fun hi hf => hi.trans (takeSlot_full hf)
  refine ⟨copies_tooLong, fun hs hr hd => plain (execCpy_ok hs hd (.inl hr)), fun hs hr hd hk => ?cpy,
    fun hs hr hd => plain (execCpyn_ok hs hd (.inl hr)), fun hs hr hd hk => ?cpyn, fun hs hr hd hrf hk hm hn => ?ring,
    fun hl => ⟨copyLayout_refused hl, copyLayout_refused hl⟩, fun ⟨hl, ht, hb, hr, hf, hrow⟩ => plain (copyLayout_ok hl ht hb hr hf hrow),
    fun ⟨hl, ht, hb, hr, hf, hrow⟩ => plain (copyLayout_ok hl ht hb hr hf hrow), fun ⟨hl, ht, hb, hr, hf, hrow⟩ hk => ?load,
    fun ⟨hl, ht, hb, hr, hf, hrow⟩ hk => ?store, fun hg => ⟨copyRows_ungoverned hg, copyRows_ungoverned hg⟩, fun hfit hp hd hk => ?rows,
    fun hfit hk => ?inPlace⟩
  case cpy =>
    exact begins _ (overlapped_unmoved cpyCopy_unmoved) (execCpy_ok hs hd (.inl hr)) hr hk rfl ⟨⟨rfl, rfl, rfl, rfl, rfl⟩, rfl⟩
  case cpyn =>
    exact begins _ (overlapped_unmoved cpynCopy_unmoved) (execCpyn_ok hs hd (.inl hr)) hr hk rfl ⟨⟨rfl, rfl, rfl, rfl, rfl⟩, rfl⟩
  case load =>
    exact begins _ (overlapped_unmoved cpylCopy_unmoved) (copyLayout_ok hl ht hb hr hf hrow) hr hk rfl ⟨rfl, rfl, rfl, rfl, rfl, rfl, rfl⟩
  case store =>
    exact begins _ (overlapped_unmoved cpylCopy_unmoved) (copyLayout_ok hl ht hb hr hf hrow) hr hk rfl ⟨rfl, rfl, rfl, rfl, rfl, rfl, rfl⟩
  case ring =>
    intro used
    have hu : Unmoved ((cpyCopy s dv sv a b ext).overlapped s) ext := overlapped_unmoved cpyCopy_unmoved
    obtain ⟨hfull, hzero, hbegins⟩ := takeSlot_claims (i := cpy) hu (execCpy_ok hs hd (.inr hrf)) hk hr hm hn
    obtain ⟨hcc, hbb, hmoved, hunacked, hrefused, hdone, hreading, hdata, hwhole, -⟩ := hu
    have hslot : slot = nextSlot s1.cx (spOff ring) := by
      simp only [slot, hn]
      rfl
    have hclaimed : ∀ status, claimed status = ringClaimed s1.cx (spOff ring) status := fun status => by
      unfold ringClaimed
      rw [← hslot]
      rfl
    refine ⟨hfull, fun hu hz => ?_, fun hu hz => ?_⟩
    · rw [hclaimed]
      exact hzero hu hz
    · rw [hclaimed, hslot]
      exact ⟨_, hbegins hu hz, ⟨hcc, congrArg Issue.seq (spadMeet_iss hm), hbb, hmoved, hunacked, hrefused, hdone, hreading, hdata, hwhole⟩,
        rfl, rfl, ⟨rfl, rfl, rfl, rfl, rfl⟩, rfl⟩
  case rows =>
    obtain ⟨hg, hl, hset, hn, hw, hb, hr, hcx, hiss, hro⟩ := hfit
    have hk1 : freeKey s1.cx.copies 16 = some k := by rw [hcx]; exact hk
    exact begins _ cpyrCopy_unmoved (copyRows_ok hg hl hcx hiss ⟨hset, hn, hw, hb, hr, hro⟩ (.inr ⟨hp, hd⟩)) hr hk1 hiss
      ⟨rfl, rfl, rowsStart_packed hp, by simp [cpyrCopy, hp], rfl⟩
  case inPlace =>
    obtain ⟨hg, hl, hset, hn, hw, hb, hr, hcx, hiss, hro⟩ := hfit
    have hk1 : freeKey s1.cx.copies 16 = some k := by rw [hcx]; exact hk
    exact begins _ cpyrCopy_unmoved (copyRows_ok (a := 0) hg hl hcx hiss ⟨hset, hn, hw, hb, hr, hro⟩ (.inl rfl)) hr hk1 hiss
      ⟨rfl, rfl, rfl, rfl⟩

end
end Sys2Proof.Machine
